-- ==== Sys2Proof/Word.lean ====
section
/-! DEFINITION. The word types of the Larjen 7040 model and its plainest arithmetic.

Everything a link carries is bytes (chapter 12: multi-byte fields travel high byte first); a
station, an event detail and an event sequence number are 16-bit words; the time base is a
32-bit word that wraps (opening file, "Block Overview"). -/

namespace Sys2Proof

/-- One byte of a console frame, a trunk frame or the external memory. -/
abbrev Byte := BitVec 8

/-- A 16-bit word: a station, an ANSWER detail, an event detail, a sequence number. -/
abbrev Word := BitVec 16

/-- The 32-bit millisecond time base, which wraps at the top of its range. -/
abbrev TimeBase := BitVec 32

/-- A timer: `none` is stopped, `some n` is running with `n` microseconds left. -/
abbrev Timer := Option Nat

/-- A set of call areas 0..15; bit `k` stands for area `k` (section 12.7, "Sets"). -/
abbrev AreaSet := BitVec 16

/-- A set of axes 1..6; bit `k` stands for axis `k + 1` (section 12.7, "Sets"). -/
abbrev AxisSet := BitVec 6

end Sys2Proof
end

