-- ==== Sys2Proof/Syntax.lean ====
section
/-! DEFINITION. The commands of the Larjen 7040: one constructor for each row of
spec/opcode_table.json, in the table's order.

A request of the console carries what its frame carries on the link: the console's own station
`src`, the destination station `dst` (absent for management requests, which all go to 0000h by
R2), the `tag`, and the payload bytes that FOLLOW the bytes that make the frame this row (the
request code, and for WRITE ENTRY the table id), in the layout of chapter 12. A form that a rule
refuses (a field missing, out of range, a byte too many) is therefore a value of the operands
like any other. An expiry names the instance whose timer expires. -/

namespace Sys2Proof

/-- A deck node: its trunk (0 A to 3 D) and its slot, the local address less one (1..31). -/
structure NodeId where
  trunk : Fin 4
  slot : Fin 31
deriving DecidableEq, Repr

/-- A byte as the console receiver takes it, with the mark of a stop-bit error (R1). -/
structure RxByte where
  byte : Byte
  stopError : Bool
deriving DecidableEq, Repr

/-- The two flash generators of the indicator chain (R168). -/
inductive FlashGen where
  | slow
  | fast
deriving DecidableEq, Repr

/-- The steps of the part, one constructor for each row of the table of operations and events. -/
inductive Instr where
  /-- POWER_ON. `raw` holds the raw levels read at power-on, bit `n` for line `n` (R161). -/
  | powerOn (raw : BitVec 14)
  | resetPin
  /-- CONSOLE_FRAME_DROPPED: the bytes that arrive on the console link. -/
  | consoleFrameDropped (bytes : List RxByte)
  /-- CONSOLE_BYTE_GAP_EXPIRY: the bytes that arrived before the gap, then the gap. -/
  | consoleByteGapExpiry (bytes : List RxByte)
  | invalidKindFrame (kind : Byte) (src dst : Word) (tag : Byte) (payload : List Byte)
  | readEntry (src : Word) (tag : Byte) (body : List Byte)
  | writeEntryRoute (src : Word) (tag : Byte) (body : List Byte)
  | writeEntryPermit (src : Word) (tag : Byte) (body : List Byte)
  | writeEntryReport (src : Word) (tag : Byte) (body : List Byte)
  | writeEntryTrunk (src : Word) (tag : Byte) (body : List Byte)
  | writeEntryNode (src : Word) (tag : Byte) (body : List Byte)
  | writeEntryAxis (src : Word) (tag : Byte) (body : List Byte)
  | writeEntryProfile (src : Word) (tag : Byte) (body : List Byte)
  | writeEntryZone (src : Word) (tag : Byte) (body : List Byte)
  | writeEntryDoor (src : Word) (tag : Byte) (body : List Byte)
  | writeEntryArea (src : Word) (tag : Byte) (body : List Byte)
  | writeEntryChannel (src : Word) (tag : Byte) (body : List Byte)
  | writeEntryMonitor (src : Word) (tag : Byte) (body : List Byte)
  | writeEntryMstate (src : Word) (tag : Byte) (body : List Byte)
  | writeEntryLamp (src : Word) (tag : Byte) (body : List Byte)
  | writeEntryLine (src : Word) (tag : Byte) (body : List Byte)
  | writeEntryParam (src : Word) (tag : Byte) (body : List Byte)
  | clearTable (src : Word) (tag : Byte) (body : List Byte)
  | readStatus (src : Word) (tag : Byte) (body : List Byte)
  | collectEvents (src : Word) (tag : Byte) (body : List Byte)
  | saveConfig (src : Word) (tag : Byte) (body : List Byte)
  | start (src : Word) (tag : Byte) (body : List Byte)
  | restart (src : Word) (tag : Byte) (body : List Byte)
  | trunkHold (src : Word) (tag : Byte) (body : List Byte)
  | trunkRelease (src : Word) (tag : Byte) (body : List Byte)
  | lampTest (src : Word) (tag : Byte) (body : List Byte)
  | setOutput (src : Word) (tag : Byte) (body : List Byte)
  | transmissionEnd
  | beaconExpiry
  | nodeCommand (src dst : Word) (tag : Byte) (payload : List Byte)
  | passRequest (src dst : Word) (tag : Byte) (payload : List Byte)
  | reportIntervalExpiry (node : NodeId)
  /-- GOOD_REPLY: the addressed node's reply on the trunk, judged good by R46. -/
  | goodReply (trunk : Fin 4) (code : Byte) (payload : List Byte)
  /-- CORRUPT_REPLY: the bytes that arrived in the reply window, sync byte first. -/
  | corruptReply (trunk : Fin 4) (bytes : List Byte)
  | replyWindowExpiry (trunk : Fin 4)
  | replyGapExpiry (trunk : Fin 4)
  | turnaroundGapExpiry (trunk : Fin 4)
  | roundIntervalExpiry (trunk : Fin 4)
  | settleExpiry (trunk : Fin 4)
  | move (src dst : Word) (tag : Byte) (body : List Byte)
  | stop (src dst : Word) (tag : Byte) (body : List Byte)
  | keep (src dst : Word) (tag : Byte) (body : List Byte)
  | release (src dst : Word) (tag : Byte) (body : List Byte)
  | take (src dst : Word) (tag : Byte) (body : List Byte)
  | grantLocal (src dst : Word) (tag : Byte) (body : List Byte)
  | derate (src dst : Word) (tag : Byte) (body : List Byte)
  | planStart (src dst : Word) (tag : Byte) (body : List Byte)
  | planKeep (src dst : Word) (tag : Byte) (body : List Byte)
  | planCancel (src dst : Word) (tag : Byte) (body : List Byte)
  | keepaliveExpiry (axis : Fin 6)
  | lockTimerExpiry (axis : Fin 6)
  | controlPeriodExpiry (axis : Fin 6)
  | zoneClose (src dst : Word) (tag : Byte) (body : List Byte)
  | reopen (src dst : Word) (tag : Byte) (body : List Byte)
  | override (src dst : Word) (tag : Byte) (body : List Byte)
  | doorOpenRequest (src dst : Word) (tag : Byte) (body : List Byte)
  | doorCloseRequest (src dst : Word) (tag : Byte) (body : List Byte)
  | warningExpiry (zone : Fin 8)
  | retryExpiry (door : Fin 32)
  | moveTimerExpiry (door : Fin 32)
  | transitExpiry (door : Fin 32)
  | placeCall (src dst : Word) (tag : Byte) (body : List Byte)
  | withdrawCall (src dst : Word) (tag : Byte) (body : List Byte)
  | playTimerExpiry (area : Fin 16)
  /-- GAP_EXPIRY of the call record that holds this call id. -/
  | gapExpiry (callId : Nat)
  | enable (src dst : Word) (tag : Byte) (body : List Byte)
  | disable (src dst : Word) (tag : Byte) (body : List Byte)
  | monitorRestart (src dst : Word) (tag : Byte) (body : List Byte)
  | staleTimerExpiry (channel : Fin 32)
  | holdTimerExpiry (monitor : Fin 16)
  | timeoutTimerExpiry (monitor : Fin 16)
  /-- RAW_LEVEL_CHANGE: the raw level of a line as it now reads. -/
  | rawLevelChange (line : Fin 14) (active : Bool)
  | lineFilterExpiry (line : Fin 14)
  | readLines (src dst : Word) (tag : Byte) (body : List Byte)
  | linesSetOutput (src dst : Word) (tag : Byte) (body : List Byte)
  | flashPhaseExpiry (gen : FlashGen)
  | shiftEnd
  | lampTestExpiry
  | pageWriteDone
  /-- PAGE_READ_DONE: `none` when the memory returns what it stores, `some bytes` when it
  returns these bytes instead. -/
  | pageReadDone (returned : Option (List Byte))
  | pageTimerExpiry
  | replyWindowOpens (trunk : Fin 4)
deriving DecidableEq, Repr

end Sys2Proof
end

