-- ==== Sys2Proof/Decode.lean ====
section
/-! DEFINITION. The commands that a word spells by the bits of spec/opcode_table.json. -/

namespace Sys2Proof

/-- The command a word spells. The table gives no row any bits (every row's "fields" is empty): a
command of this block is an event, not a word, so no word spells one (log 42). -/
def decodeTableWord (_nbits _w : Nat) : Option Instr := none

end Sys2Proof
end

