-- ==== Sys2Proof/Config.lean ====
section
/-! DEFINITION. What the implementation fixes (the capacities of the block overview) and the free
values: what the manual leaves open and no proof may look into. -/

namespace Sys2Proof.Config

/-- Entries of the outbound console queue (section 1.5). -/
def outboundCapacity : Nat := 32

/-- Frames of a trunk's command queue (R53). -/
def commandQueueCapacity : Nat := 16

/-- Attempts of a frame other than POLL, SETPOINT or HOLD (R55). -/
def frameAttempts : Nat := 3

/-- Non-poll transactions after which a due poll is forced (R49). -/
def forcedPollCount : Nat := 4

/-- Records of the event queue (R174). -/
def eventCapacity : Nat := 64

/-- Records one collection takes (R177). -/
def collectionSize : Nat := 8

/-- Records of the call queue (R130). -/
def callCapacity : Nat := 16

/-- Entries of one monitor within one event (R154). -/
def chainLimit : Nat := 8

/-- Bytes of a page of the external memory (R180). -/
def pageBytes : Nat := 128

/-- Pages of the external memory: 64 KiB (section 11.1). -/
def memoryPages : Nat := 512

/-- Milliseconds the memory has for a page operation (R181). -/
def pageTime : Nat := 20

/-- Seconds a lamp test lasts (R171). -/
def lampTestTime : Nat := 3

/-- Microseconds of one byte on the console link: 1,000,000 bit/s, 8 data bits, no parity, one
stop bit (opening file, "Physical matters"). -/
def consoleByteTime : Nat := 10

/-- Microseconds of one clock or latch pulse of the lamp chain (R170). -/
def shiftPulse : Nat := 10

/-- FREE VALUE (log 13). The bytes a reset leaves in a page whose write it cut short, by address:
the manual says that the page is partly written, not what it then holds (R181). -/
opaque tornByte : Nat → Byte

/-- FREE VALUE (log 28). Which of several timers that run out at one instant is taken first: "when
two events arrive together, either may be taken first" (R175). -/
opaque tieChoice : Nat → Nat

end Sys2Proof.Config
end

