-- ==== Sys2Proof/Machine/Codec.lean ====
section
/-! DEFINITION. Byte encodings shared by both links (chapter 12): multi-byte fields high byte
first, signed fields in two's complement, absent fields as zeros behind a presence byte. -/

namespace Sys2Proof.Machine

/-- One byte holding a number of 0..255. -/
def b1 (n : Nat) : List Byte := [BitVec.ofNat 8 n]

/-- A 16-bit word, high byte first. -/
def w2 (w : Word) : List Byte := [w.extractLsb' 8 8, w.extractLsb' 0 8]

/-- A number in two bytes, high byte first. -/
def b2 (n : Nat) : List Byte := w2 (BitVec.ofNat 16 n)

/-- A 32-bit word, high byte first. -/
def w4 (w : BitVec 32) : List Byte :=
  [w.extractLsb' 24 8, w.extractLsb' 16 8, w.extractLsb' 8 8, w.extractLsb' 0 8]

/-- A signed number in two bytes, in two's complement. -/
def i2 (z : Int) : List Byte := w2 (BitVec.ofInt 16 z)

/-- A signed number in four bytes, in two's complement. -/
def i4 (z : Int) : List Byte := w4 (BitVec.ofInt 32 z)

/-- no 0, yes 1 (section 12.7, "Named values"). -/
def bBool (b : Bool) : List Byte := b1 b.toNat

/-- The 16-bit value of two bytes, the first the higher. -/
def word2 (hi lo : Byte) : Word := hi ++ lo

/-- The signed value of two bytes, the first the higher. -/
def int2 (hi lo : Byte) : Int := (word2 hi lo).toInt

/-- A field that may be absent: a presence byte, then the field, or as many zeros (12.7). -/
def bOpt {α : Type} (zeros : Nat) (enc : α → List Byte) : Option α → List Byte
  | none => b1 0 ++ List.replicate zeros 0
  | some a => b1 1 ++ enc a

/-- A list: a count byte, then its items (12.7, "Lists and payloads"). -/
def bList {α : Type} (enc : α → List Byte) (l : List α) : List Byte :=
  b1 l.length ++ l.flatMap enc

/-- A payload of bytes: a count byte, then the bytes. -/
def bPayload (l : List Byte) : List Byte := b1 l.length ++ l

/-- The union of two sets held as bits. -/
def setUnion {n : Nat} (a b : BitVec n) : BitVec n := a ||| b

/-- The members of `a` that are not in `b`. -/
def setDiff {n : Nat} (a b : BitVec n) : BitVec n := a &&& ~~~b

/-- The set of one member. -/
def setOf {n : Nat} (k : Nat) : BitVec n := BitVec.twoPow n k

/-- Whether the set holds member `k`. -/
def setHas {n : Nat} (a : BitVec n) (k : Nat) : Bool := a.getLsbD k

/-- Set division by microseconds: a number of milliseconds as a timer value. -/
def ms (n : Nat) : Nat := n * 1000

/-- A number of seconds as a timer value. -/
def sec (n : Nat) : Nat := n * 1000000

end Sys2Proof.Machine
end

