-- ==== Sys2Proof/Machine/Frames.lean ====
section
/-! DEFINITION. The two link formats: the CRC-16 of both (R185), the console frame and the console
receiver (R1, section 12.1), the trunk frame and the judging of a reply (R46, section 12.3). -/

namespace Sys2Proof.Machine

/-! ### CRC-16 (R185) -/

/-- One left shift of the register, combined with 1021h when the outgoing top bit was 1. -/
def crcShift (r : Word) : Word :=
  if r.msb then (r <<< 1) ^^^ 0x1021#16 else r <<< 1

/-- `n` shifts of the register. -/
def crcShifts : Nat → Word → Word
  | 0, r => r
  | n + 1, r => crcShifts n (crcShift r)

/-- One covered byte: combined into the high byte of the register, then eight shifts. -/
def crcByte (r : Word) (b : Byte) : Word :=
  crcShifts 8 (r ^^^ (b ++ (0#8)))

/-- The CRC-16 of the covered bytes in order of transmission. -/
def crc16 (bytes : List Byte) : Word :=
  bytes.foldl crcByte 0xFFFF#16

/-! ### Console frames (section 12.1) -/

/-- The fields of a console frame between the length byte and the CRC. -/
structure Frame where
  dst : Word
  src : Word
  tag : Byte
  kind : Byte
  payload : List Byte
deriving DecidableEq, Repr

def kindNodeCommand : Byte := 0x01
def kindFunctionRequest : Byte := 0x02
def kindManagement : Byte := 0x03
def kindPass : Byte := 0x04
def kindAnswer : Byte := 0x81
def kindReport : Byte := 0x82
def kindBeacon : Byte := 0x83

/-- Destination through last payload byte. -/
def Frame.body (f : Frame) : List Byte :=
  w2 f.dst ++ w2 f.src ++ [f.tag, f.kind] ++ f.payload

/-- The bytes from the length byte through the last payload byte: what the CRC covers (R1). -/
def Frame.covered (f : Frame) : List Byte :=
  b1 f.body.length ++ f.body

/-- The frame as it travels: delimiter, length, body, CRC high byte first. -/
def Frame.wire (f : Frame) : List Byte :=
  0x7E#8 :: (f.covered ++ w2 (crc16 f.covered))

/-- The greatest payload of a console frame (section 1.2). -/
def maxConsolePayload : Nat := 240

/-! ### The console receiver (R1) -/

inductive RxPhase where
  | hunt
  | receiving
deriving DecidableEq, Repr

/-- The receiver: its phase and its receive buffer, length byte first (section 1.1). -/
structure Rx where
  phase : RxPhase
  buffer : List Byte
deriving DecidableEq, Repr

def Rx.idle : Rx := { phase := .hunt, buffer := [] }

/-- What one byte brings about in the receiver. -/
inductive RxResult where
  | nothing
  | dropped
  | accepted (f : Frame)
deriving DecidableEq, Repr

/-- The fields of a whole buffer whose CRC matches, or nothing (R1, "a mismatch drops"). -/
def frameOfBuffer (buffer : List Byte) : Option Frame :=
  let covered := buffer.take (buffer.length - 2)
  if w2 (crc16 covered) = buffer.drop (buffer.length - 2) then
    match covered with
    | _ :: d1 :: d2 :: s1 :: s2 :: tag :: kind :: payload =>
      some { dst := word2 d1 d2, src := word2 s1 s2, tag, kind, payload }
    | _ => none
  else none

/-- One byte in RECEIVING with no stop-bit error: `buffer` already ends with it. -/
def rxJudge (buffer : List Byte) : Rx × RxResult :=
  match buffer with
  | [] => ({ phase := .receiving, buffer }, .nothing)
  | len :: rest =>
    if len.toNat < 6 || 246 < len.toNat then (Rx.idle, .dropped)
    else if rest.length < len.toNat + 2 then ({ phase := .receiving, buffer }, .nothing)
    else
      match frameOfBuffer buffer with
      | some f => (Rx.idle, .accepted f)
      | none => (Rx.idle, .dropped)

/-- The receiver takes one byte (R1). -/
def Rx.step (rx : Rx) (b : RxByte) : Rx × RxResult :=
  match rx.phase with
  | .hunt =>
    if !b.stopError && b.byte == 0x7E#8 then ({ phase := .receiving, buffer := [] }, .nothing)
    else (rx, .nothing)
  | .receiving =>
    if b.stopError then (Rx.idle, .dropped)
    else rxJudge (rx.buffer ++ [b.byte])

/-! ### Trunk frames (section 12.3) -/

/-- The local address 1..31 of a slot. -/
def address (slot : Fin 31) : Nat := slot.val + 1

/-- A trunk frame as it travels, with the reply mark set or clear. -/
def trunkWire (slot : Fin 31) (reply : Bool) (code : Byte) (payload : List Byte) : List Byte :=
  let covered := BitVec.ofNat 8 (address slot + (if reply then 128 else 0)) :: code ::
    (b1 payload.length ++ payload)
  0xA5#8 :: (covered ++ w2 (crc16 covered))

/-- The greatest payload of a trunk frame (section 3.3). -/
def maxTrunkPayload : Nat := 16

/-- How R46 judges a reply. -/
inductive ReplyJudgement where
  | missing
  | corrupt
  | good (code : Byte) (payload : List Byte)
deriving DecidableEq, Repr

/-- Bytes before the sync byte are discarded (R46). -/
def afterSync : List Byte → Option (List Byte)
  | [] => none
  | b :: bs => if b = 0xA5#8 then some bs else afterSync bs

/-- R46's table for the bytes that arrived in the reply window of a frame to `slot`. A reply
whose bytes stop short is ended by the gap that follows them and is corrupt. -/
def judgeReply (slot : Fin 31) (bytes : List Byte) : ReplyJudgement :=
  match afterSync bytes with
  | none => .missing
  | some (addr :: code :: len :: rest) =>
    if 16 < len.toNat then .corrupt
    else if rest.length < len.toNat + 2 then .corrupt
    else
      let payload := rest.take len.toNat
      let crc := (rest.drop len.toNat).take 2
      if w2 (crc16 (addr :: code :: len :: payload)) ≠ crc then .corrupt
      else if addr ≠ BitVec.ofNat 8 (address slot + 128) then .corrupt
      else .good code payload
  | some _ => .corrupt

end Sys2Proof.Machine
end

