-- ==== Sys2Proof/Machine/Records.lean ====
section
/-! DEFINITION. The records of every block, as the field tables of the manual give them: first the
configuration of the tables, then the runtime. All of it is plain data. -/

namespace Sys2Proof.Machine

/-! ### Named values -/

/-- The gateway as a whole (opening file, "Gateway states"). -/
inductive GwState where
  | loading
  | unconfigured
  | configured
  | storing
deriving DecidableEq, Repr

/-- Outcome codes of an ANSWER (opening file; section 12.2). -/
inductive Code where
  | ok | clamped | refused | interlock | busy | state | badRequest | noRoute | nodeLost
  | noAnswer | trunkDown | queueFull | unconfigured | storing
deriving DecidableEq, Repr

inductive TrunkState where
  | down | held | settling | running
deriving DecidableEq, Repr

inductive Liveness where
  | unknown | live | missing | lost
deriving DecidableEq, Repr

inductive NodeKind where
  | drive | panel | door | amp | sensor | generic
deriving DecidableEq, Repr

inductive PollClass where
  | fast | slow | none
deriving DecidableEq, Repr

inductive AxisState where
  | offline | locked | unlocking | still | moving | stopping | locking | halted
deriving DecidableEq, Repr

/-- The halt causes, in the order of their event details 1..9 (section 4.9). -/
inductive HaltCause where
  | estop | fire | node | overload | driveFlag | keepalive | unlockTimeout | lockTimeout | prereq
deriving DecidableEq, Repr

inductive Control where
  | bridge | localPanel
deriving DecidableEq, Repr

inductive MoveOrigin where
  | none | bridge | panelRaise | panelLower
deriving DecidableEq, Repr

inductive PanelCommand where
  | none | raise | lower
deriving DecidableEq, Repr

inductive Stage where
  | low | high
deriving DecidableEq, Repr

/-- The causes with which a plan ends (R92), codes 1..7. -/
inductive PlanEnd where
  | halt | offline | stop | derate | refused | cancel | service
deriving DecidableEq, Repr

inductive ZoneState where
  | clear | warning | closing | sealed | incomplete
deriving DecidableEq, Repr

inductive DoorState where
  | offline | opened | opening | closing | closed | obstructed | transit | fault
deriving DecidableEq, Repr

inductive DoorTimer where
  | move | retry | transit
deriving DecidableEq, Repr

inductive DoorPending where
  | none | opened | close | stop
deriving DecidableEq, Repr

inductive DoorPosition where
  | opened | moving | closed | stopped
deriving DecidableEq, Repr

inductive AreaState where
  | idle | playing | unavailable
deriving DecidableEq, Repr

inductive CallPhase where
  | pass | gap | waiting
deriving DecidableEq, Repr

/-- Who placed a call (R133). -/
inductive CallOrigin where
  | bridge
  | axis (a : Fin 6)
  | zone (z : Fin 8)
  | monitor (m : Fin 16)
deriving DecidableEq, Repr

inductive Test where
  | above | below
deriving DecidableEq, Repr

inductive Edge where
  | none | rising | falling | both
deriving DecidableEq, Repr

inductive Style where
  | off | on | slow | fast
deriving DecidableEq, Repr

inductive ReportMode where
  | none | change | every
deriving DecidableEq, Repr

inductive PermitAction where
  | forward | refuse | forwardNote
deriving DecidableEq, Repr

inductive ResetCause where
  | powerOn | pin | restart
deriving DecidableEq, Repr

inductive StorePhase where
  | idle | loading | writing | verifying
deriving DecidableEq, Repr

/-- The event kinds, in the order of their codes 1..31 (section 10.4). -/
inductive EventKind where
  | startUp | nodeLost | nodeBack | trunkState | axisHalted | axisReleased | moveDone | moveEnded
  | overloadNote | driveNote | controlChange | stepDone | planDone | planAborted | zoneState
  | doorObstructed | doorFault | doorForced | callDone | callWithdrawn | callEvicted | callRefused
  | areaUnavailable | areaBack | monitorEvent | monitorStale | lineEdge | serviceMode | permitNote
  | storeDone | storeFailed
deriving DecidableEq, Repr

/-! ### The configuration of the tables -/

/-- What a FUNCTION route reaches (R22). -/
inductive Function where
  | axis (a : Fin 6)
  | plan
  | zone (z : Fin 8)
  | door (d : Fin 32)
  | calls
  | monitor (m : Fin 16)
  | lines
deriving DecidableEq, Repr

inductive RouteTarget where
  | node (n : NodeId)
  | function (f : Function)
deriving DecidableEq, Repr

structure Route where
  station : Word
  target : RouteTarget
deriving DecidableEq, Repr

/-- A condition term of a permit entry (section 2.5). Sets of states hold bit `k` for code `k`. -/
inductive Term where
  | axis (a : Fin 6) (states : BitVec 8)
  | zoneState (z : Fin 8) (states : BitVec 8)
  | zoneFire (z : Fin 8) (set : Bool)
  | door (d : Fin 32) (states : BitVec 8)
  | line (l : Fin 16) (active : Bool)
  | monitor (m : Fin 16) (states : BitVec 8)
  | service (on : Bool)
deriving DecidableEq, Repr

/-- A permit entry in use; `code` is `none` for ANY. -/
structure Permit where
  first : Word
  last : Word
  code : Option Byte
  term1 : Option Term
  term2 : Option Term
  action : PermitAction
deriving DecidableEq, Repr

structure ReportCfg where
  mode : ReportMode
  every : Nat
  interval : Nat
deriving DecidableEq, Repr

structure TrunkCfg where
  configured : Bool
  bitRate : Nat
  replyWindow : Nat
  gap : Nat
  roundInterval : Nat
  slowDivisor : Nat
  settle : Nat
deriving DecidableEq, Repr

structure NodeCfg where
  kind : NodeKind
  poll : PollClass
deriving DecidableEq, Repr

/-- A prerequisite: another axis and a window (R83). -/
structure Prereq where
  axis : Fin 6
  min : Int
  max : Int
deriving DecidableEq, Repr

structure MotionCall where
  message : Nat
  areas : AreaSet
  priority : Nat
  gap : Nat
deriving DecidableEq, Repr

structure AxisCfg where
  configured : Bool
  drive : NodeId
  panel : Option NodeId
  zone : Option (Fin 8)
  posMin : Int
  posMax : Int
  vMax : Nat
  acc : Nat
  kp : Nat
  deadband : Nat
  creepDistance : Nat
  vCreep : Nat
  controlPeriod : Nat
  keepalive : Nat
  lockTimeout : Nat
  stallVelocity : Nat
  overloadLimit : Nat
  /-- Bit `k` for the drive flag of index `k + 2`: OVERTEMP to LOCAL_STOP. -/
  haltMask : BitVec 6
  noteMask : BitVec 6
  stageUp : Nat
  stageDown : Nat
  lowPayload : Option (List Byte)
  highPayload : Option (List Byte)
  prereq1 : Option Prereq
  prereq2 : Option Prereq
  motionCall : Option MotionCall
deriving DecidableEq, Repr

structure Breakpoint where
  position : Int
  speed : Nat
deriving DecidableEq, Repr

structure ZoneCfg where
  warning : Nat
  fireWarning : Nat
  warningMessage : Nat
  fireMessage : Nat
  areas : AreaSet
  callGap : Nat
deriving DecidableEq, Repr

structure DoorCfg where
  configured : Bool
  node : NodeId
  zone1 : Fin 8
  zone2 : Option (Fin 8)
  closeTimeout : Nat
  retryDelay : Nat
  retryLimit : Nat
  transitTime : Nat
  reopenWithZone : Bool
deriving DecidableEq, Repr

structure ChannelCfg where
  configured : Bool
  source : NodeId
  offset : Nat
  width : Nat
  signed : Bool
  staleLimit : Nat
deriving DecidableEq, Repr

structure MonitorCfg where
  configured : Bool
  startEnabled : Bool
deriving DecidableEq, Repr

/-- The entry action of a monitor state (section 8.2). -/
inductive Action where
  | none
  | event (code : Nat)
  | call (message : Nat) (areas : AreaSet) (priority repeats : Nat)
  | closeZone (z : Fin 8) (fire : Bool)
  | derate (value : Nat) (axes : AxisSet)
  | output (o : Fin 4) (high : Bool)
deriving DecidableEq, Repr

/-- A state entry of a monitor; `onStale` is `none` for STAY. -/
structure StateCfg where
  inUse : Bool
  channel : Fin 32
  test : Test
  threshold : Int
  hold : Nat
  onHold : Fin 8
  timeout : Nat
  onTimeout : Fin 8
  onStale : Option (Fin 8)
  action : Action
deriving DecidableEq, Repr

/-- What a lamp shows (section 9.3). -/
inductive LampSource where
  | none
  | axis (a : Fin 6)
  | zone (z : Fin 8)
  | door (d : Fin 32)
  | line (l : Fin 14)
  | monitor (m : Fin 16)
  | trunk (t : Fin 4)
deriving DecidableEq, Repr

structure LampCfg where
  source : LampSource
  styles : List (Nat × Style)
deriving DecidableEq, Repr

structure LineCfg where
  filter : Nat
  edge : Edge
  event : Bool
deriving DecidableEq, Repr

/-- PARAM, in the field order of section 12.7. -/
structure Param where
  beaconPeriod : Nat
  consoleStation : Word
  /-- The permit default: FORWARD when true, REFUSE when false. -/
  permitForward : Bool
  playLimit : Nat
  stageCount : Nat
  slowPeriod : Nat
  fastPeriod : Nat
  duty : Nat
deriving DecidableEq, Repr

/-- The configuration fields of every table: what the configuration image holds (R180). -/
structure Tables where
  routes : List Route
  permits : Vector (Option Permit) 64
  reports : Vector ReportCfg 124
  trunks : Vector TrunkCfg 4
  nodes : Vector (Option NodeCfg) 124
  axes : Vector AxisCfg 6
  profiles : Vector (Option Breakpoint) 48
  zones : Vector ZoneCfg 8
  doors : Vector DoorCfg 32
  areas : Vector (List NodeId) 16
  channels : Vector ChannelCfg 32
  monitors : Vector MonitorCfg 16
  mstates : Vector StateCfg 128
  lamps : Vector LampCfg 64
  lines : Vector LineCfg 14
  param : Param
deriving DecidableEq, Repr

/-! ### Runtime of the console port, the relay and the event queue -/

structure Clock where
  ms : TimeBase
  us : Nat
deriving DecidableEq, Repr

structure EventRec where
  sequence : Word
  time : TimeBase
  kind : EventKind
  index : Nat
  detail : Word
deriving DecidableEq, Repr

structure EventQueue where
  records : List EventRec
  next : Word
  lost : Nat
deriving DecidableEq, Repr

/-- The source station, destination station and tag of a request: what its ANSWER needs (R3). -/
structure Req where
  src : Word
  dst : Word
  tag : Byte
deriving DecidableEq, Repr

/-- The data of an ANSWER: fixed when it is made, or open until its transmission begins, for
COLLECT EVENTS (R10). -/
inductive AnswerData where
  | fixed (data : List Byte)
  | collect
deriving DecidableEq, Repr

structure Answer where
  req : Req
  code : Code
  detail : Word
  data : AnswerData
  /-- The ANSWER of an accepted RESTART, whose end of transmission resets the part (R12). -/
  restart : Bool
deriving DecidableEq, Repr

/-- A REPORT frame as it was offered (R36). -/
structure Report where
  node : NodeId
  dst : Word
  src : Word
  time : TimeBase
  payload : List Byte
deriving DecidableEq, Repr

inductive OutEntry where
  | answer (a : Answer)
  | report (p : Report)
deriving DecidableEq, Repr

/-- The frame in transmission. -/
structure TxFrame where
  frame : Frame
  restart : Bool
deriving DecidableEq, Repr

structure Console where
  rx : Rx
  queue : List OutEntry
  tx : Option TxFrame
  txTimer : Timer
  beaconTimer : Timer
  beaconDue : Bool
  restartPending : Bool
  errors : Nat
  drops : Nat
deriving DecidableEq, Repr

structure ReportRt where
  last : Option (List Byte)
  count : Nat
  timer : Timer
  pending : Option (List Byte × TimeBase)
deriving DecidableEq, Repr

/-! ### Runtime of the trunks and nodes -/

/-- The axis unit's own queue frames. -/
inductive AxisFrame where
  | unlock | lock | stage | deny
deriving DecidableEq, Repr

/-- The door sequencer's own queue frames. -/
inductive DoorFrame where
  | opened | close | stop | deny
deriving DecidableEq, Repr

/-- The originator of a queued frame (section 3.6). A forward record of the relay is held here,
with the frame it belongs to. -/
inductive Origin where
  | relay (req : Req)
  | axis (a : Fin 6) (f : AxisFrame)
  | door (d : Fin 32) (f : DoorFrame)
  | play (area : Fin 16) (serial : Nat)
  | stopPlay (area : Fin 16)
deriving DecidableEq, Repr

structure QFrame where
  node : NodeId
  code : Byte
  payload : List Byte
  origin : Origin
  attempts : Nat
deriving DecidableEq, Repr

structure PassSlot where
  slot : Fin 31
  code : Byte
  payload : List Byte
  req : Req
  attempts : Nat
deriving DecidableEq, Repr

/-- Where the transmitter took the frame on the line from (R49). -/
inductive TxSource where
  | hold
  | poll
  | setPoint (a : Fin 6)
  | queue
  | pass
deriving DecidableEq, Repr

/-- The transaction on a trunk; `awaiting` from the opening of the reply window (R46). -/
structure Transaction where
  slot : Fin 31
  code : Byte
  payload : List Byte
  source : TxSource
  awaiting : Bool
deriving DecidableEq, Repr

structure TrunkRt where
  state : TrunkState
  holdAsserted : Bool
  settleTimer : Timer
  roundPhase : Nat
  roundPosition : Nat
  roundTimer : Timer
  nonPoll : Nat
  transaction : Option Transaction
  windowTimer : Timer
  gapTimer : Timer
  queue : List QFrame
  /-- The hold set, lowest address first, no address twice (R51). -/
  holdSet : List (Fin 31)
  pass : Option PassSlot
deriving DecidableEq, Repr

structure NodeRt where
  liveness : Liveness
  misses : Nat
  payload : Option (List Byte)
  time : Option TimeBase
  mark : Bool
deriving DecidableEq, Repr

/-! ### Runtime of the axis unit -/

/-- What a drive reply shows (section 12.4); bit `k` of `flags` is the flag of index `k`. -/
structure DriveStatus where
  position : Int
  pressure : Nat
  flags : BitVec 8
deriving DecidableEq, Repr

structure Owed where
  unlock : Bool
  lock : Bool
  stage : Bool
deriving DecidableEq, Repr

structure AxisRt where
  state : AxisState
  /-- Bit `k` for the cause of event detail `k + 1`. -/
  causes : BitVec 9
  control : Control
  origin : MoveOrigin
  target : Int
  lockAtEnd : Bool
  sentDemand : Int
  stage : Stage
  bridgeDerate : Nat
  latest : Option DriveStatus
  panel : PanelCommand
  keepaliveTimer : Timer
  lockTimer : Timer
  controlTimer : Timer
  wasActive : Bool
  owed : Owed
  overloadNoted : Bool
  callId : Option Nat
  /-- The set-point slot of the axis on its drive node's trunk (R52). -/
  setPoint : Option Int
deriving DecidableEq, Repr

structure PlanStep where
  axis : Fin 6
  target : Int
  lockAtEnd : Bool
  notify : Bool
deriving DecidableEq, Repr

structure Plan where
  running : Bool
  steps : List PlanStep
  current : Nat
deriving DecidableEq, Repr

/-! ### Runtime of the door sequencer -/

structure ZoneRt where
  active : Bool
  /-- Bit 0 BRIDGE, bit 1 FIRE_LINE, bit `2 + m` MONITOR m. -/
  causes : BitVec 18
  fire : Bool
  override : Bool
  warningTimer : Timer
  callId : Option Nat
  callFire : Bool
  state : ZoneState
deriving DecidableEq, Repr

/-- What a door reply shows (section 12.4). -/
structure DoorStatus where
  position : DoorPosition
  obstruction : Bool
  transitRequest : Bool
  localFault : Bool
deriving DecidableEq, Repr

structure DoorRt where
  state : DoorState
  retriesUsed : Nat
  timer : Option (DoorTimer × Nat)
  transitMark : Bool
  pending : DoorPending
  latest : Option DoorStatus
deriving DecidableEq, Repr

/-! ### Runtime of the call dispatcher -/

/-- An awaited amplifier (section 7.1): its armed mark and the PLAY frame last offered to it, by the
frame's message and the model's number of it (log 36). -/
structure Awaited where
  node : NodeId
  armed : Bool
  message : Nat
  serial : Nat
deriving DecidableEq, Repr

structure AreaRt where
  state : AreaState
  callId : Option Nat
  message : Option Nat
  awaited : List Awaited
  playTimer : Timer
  startMark : Bool
deriving DecidableEq, Repr

structure Call where
  id : Nat
  message : Nat
  areas : AreaSet
  priority : Nat
  repeats : Nat
  gap : Nat
  limit : Nat
  origin : CallOrigin
  phase : CallPhase
  remaining : Nat
  pending : AreaSet
  playing : AreaSet
  gapTimer : Timer
deriving DecidableEq, Repr

/-! ### Runtime of the monitor unit, the line unit, the chain and the store -/

structure ChannelRt where
  value : Option Int
  stale : Bool
  timer : Timer
deriving DecidableEq, Repr

structure MonitorRt where
  enabled : Bool
  current : Fin 8
  holdTimer : Timer
  timeoutTimer : Timer
  callId : Option Nat
  derate : Option (Nat × AxisSet)
deriving DecidableEq, Repr

structure LineRt where
  raw : Bool
  accepted : Bool
  filterTimer : Timer
deriving DecidableEq, Repr

inductive SetBy where
  | reset
  | console
  | monitor (m : Fin 16)
deriving DecidableEq, Repr

structure OutputRt where
  high : Bool
  setBy : SetBy
deriving DecidableEq, Repr

structure FlashRt where
  lit : Bool
  timer : Timer
deriving DecidableEq, Repr

structure Chain where
  /-- The values of the last latch. -/
  shown : List Bool
  /-- The last image made. -/
  last : List Bool
  inShift : Option (List Bool)
  waiting : Option (List Bool)
  shiftTimer : Timer
  slow : FlashRt
  fast : FlashRt
  lampTest : Timer
deriving DecidableEq, Repr

structure Store where
  phase : StorePhase
  snapshot : Option (List Byte)
  page : Nat
  pageTimer : Timer
  /-- Page 0 is being written with the true length and CRC (R181 step 3). -/
  finalPass : Bool
  /-- The bytes of the image read so far (R182). -/
  loadBuffer : List Byte
  cause : ResetCause
deriving DecidableEq, Repr

/-- The runtime of the part: everything but the tables, the external memory and the commands
that wait. -/
structure Run where
  gw : GwState
  clock : Clock
  events : EventQueue
  console : Console
  reports : Vector ReportRt 124
  trunks : Vector TrunkRt 4
  nodes : Vector NodeRt 124
  axes : Vector AxisRt 6
  plan : Plan
  zones : Vector ZoneRt 8
  doors : Vector DoorRt 32
  areas : Vector AreaRt 16
  calls : List Call
  callCounter : Nat
  channels : Vector ChannelRt 32
  monitors : Vector MonitorRt 16
  lines : Vector LineRt 14
  outputs : Vector OutputRt 4
  chain : Chain
  store : Store
  serial : Nat
  entered : List (Fin 16)
  freeCount : Nat
deriving DecidableEq, Repr

/-- Index `31 t + (a - 1)` of a node's slot (R47, section 2.8). -/
def nodeIndex (n : NodeId) : Fin 124 :=
  ⟨31 * n.trunk.val + n.slot.val, by have := n.trunk.isLt; have := n.slot.isLt; omega⟩

/-- The node of slot index `i`. -/
def nodeOfIndex (i : Fin 124) : NodeId :=
  { trunk := ⟨i.val / 31, by have := i.isLt; omega⟩, slot := ⟨i.val % 31, by omega⟩ }

end Sys2Proof.Machine
end

