-- ==== Sys2Proof/Machine/Codes.lean ====
section
/-! DEFINITION. The codes of the named values: outcome codes (section 12.2), state codes (sections
4.2, 6.2, R105, 10.4), event kinds and their subject blocks (section 10.4), origin codes (7.9). -/

namespace Sys2Proof.Machine

def Code.code : Code → Nat
  | .ok => 0x00 | .clamped => 0x01 | .refused => 0x02 | .interlock => 0x03 | .busy => 0x04
  | .state => 0x05 | .badRequest => 0x06 | .noRoute => 0x07 | .nodeLost => 0x08
  | .noAnswer => 0x09 | .trunkDown => 0x0A | .queueFull => 0x0B | .unconfigured => 0x0C
  | .storing => 0x0D

def GwState.code : GwState → Nat
  | .loading => 0 | .unconfigured => 1 | .configured => 2 | .storing => 3

/-- STORING is a sub-state of CONFIGURED (opening file, "Gateway states"). -/
def GwState.inForce : GwState → Bool
  | .configured => true
  | .storing => true
  | .loading => false
  | .unconfigured => false

def TrunkState.code : TrunkState → Nat
  | .down => 0 | .held => 1 | .settling => 2 | .running => 3

def Liveness.code : Liveness → Nat
  | .unknown => 0 | .live => 1 | .missing => 2 | .lost => 3

def NodeKind.code : NodeKind → Nat
  | .drive => 0 | .panel => 1 | .door => 2 | .amp => 3 | .sensor => 4 | .generic => 5

def PollClass.code : PollClass → Nat
  | .fast => 0 | .slow => 1 | .none => 2

def AxisState.code : AxisState → Nat
  | .offline => 0 | .locked => 1 | .unlocking => 2 | .still => 3 | .moving => 4 | .stopping => 5
  | .locking => 6 | .halted => 7

/-- The bit of a cause in a cause set: its place in the Range column. -/
def HaltCause.bit : HaltCause → Nat
  | .estop => 0 | .fire => 1 | .node => 2 | .overload => 3 | .driveFlag => 4 | .keepalive => 5
  | .unlockTimeout => 6 | .lockTimeout => 7 | .prereq => 8

/-- The detail of AXIS_HALTED, 1..9 (section 4.9). -/
def HaltCause.code (c : HaltCause) : Nat := c.bit + 1

def Control.code : Control → Nat
  | .bridge => 0 | .localPanel => 1

def MoveOrigin.code : MoveOrigin → Nat
  | .none => 0 | .bridge => 1 | .panelRaise => 2 | .panelLower => 3

def PanelCommand.code : PanelCommand → Nat
  | .none => 0 | .raise => 1 | .lower => 2

def Stage.code : Stage → Nat
  | .low => 0 | .high => 1

def PlanEnd.code : PlanEnd → Nat
  | .halt => 1 | .offline => 2 | .stop => 3 | .derate => 4 | .refused => 5 | .cancel => 6
  | .service => 7

def ZoneState.code : ZoneState → Nat
  | .clear => 0 | .warning => 1 | .closing => 2 | .sealed => 3 | .incomplete => 4

def DoorState.code : DoorState → Nat
  | .offline => 0 | .opened => 1 | .opening => 2 | .closing => 3 | .closed => 4
  | .obstructed => 5 | .transit => 6 | .fault => 7

def DoorPosition.code : DoorPosition → Nat
  | .opened => 0 | .moving => 1 | .closed => 2 | .stopped => 3

def DoorPending.code : DoorPending → Nat
  | .none => 0 | .opened => 1 | .close => 2 | .stop => 3

def AreaState.code : AreaState → Nat
  | .idle => 0 | .playing => 1 | .unavailable => 2

/-- Kind in the high byte, number in the low byte (section 7.9). -/
def CallOrigin.code : CallOrigin → Word
  | .bridge => 0
  | .axis a => BitVec.ofNat 16 (0x100 + a.val + 1)
  | .zone z => BitVec.ofNat 16 (0x200 + z.val)
  | .monitor m => BitVec.ofNat 16 (0x300 + m.val)

/-- The origin an origin code names, if it names one. -/
def originOfCode (w : Word) : Option CallOrigin :=
  let lo := w.toNat % 256
  match w.toNat / 256 with
  | 0 => if lo = 0 then some .bridge else none
  | 1 => if h : 1 ≤ lo ∧ lo ≤ 6 then some (.axis ⟨lo - 1, by omega⟩) else none
  | 2 => if h : lo < 8 then some (.zone ⟨lo, h⟩) else none
  | 3 => if h : lo < 16 then some (.monitor ⟨lo, h⟩) else none
  | _ => none

def Test.code : Test → Nat
  | .above => 0 | .below => 1

def Edge.code : Edge → Nat
  | .none => 0 | .rising => 1 | .falling => 2 | .both => 3

def Style.code : Style → Nat
  | .off => 0 | .on => 1 | .slow => 2 | .fast => 3

def ReportMode.code : ReportMode → Nat
  | .none => 0 | .change => 1 | .every => 2

def PermitAction.code : PermitAction → Nat
  | .forward => 0 | .refuse => 1 | .forwardNote => 2

/-- The reset cause in the high byte of START_UP (R178). -/
def ResetCause.code : ResetCause → Nat
  | .powerOn => 0 | .pin => 1 | .restart => 2

def SetBy.code : SetBy → Nat
  | .reset => 0
  | .console => 1
  | .monitor m => 2 + m.val

def EventKind.code : EventKind → Nat
  | .startUp => 1 | .nodeLost => 2 | .nodeBack => 3 | .trunkState => 4 | .axisHalted => 5
  | .axisReleased => 6 | .moveDone => 7 | .moveEnded => 8 | .overloadNote => 9 | .driveNote => 10
  | .controlChange => 11 | .stepDone => 12 | .planDone => 13 | .planAborted => 14
  | .zoneState => 15 | .doorObstructed => 16 | .doorFault => 17 | .doorForced => 18
  | .callDone => 19 | .callWithdrawn => 20 | .callEvicted => 21 | .callRefused => 22
  | .areaUnavailable => 23 | .areaBack => 24 | .monitorEvent => 25 | .monitorStale => 26
  | .lineEdge => 27 | .serviceMode => 28 | .permitNote => 29 | .storeDone => 30
  | .storeFailed => 31

/-- The subject block of a kind (sections 10.1, 10.4). -/
def EventKind.block : EventKind → Nat
  | .startUp => 0 | .storeDone => 0 | .storeFailed => 0
  | .permitNote => 1
  | .nodeLost => 2 | .nodeBack => 2 | .trunkState => 2
  | .axisHalted => 3 | .axisReleased => 3 | .moveDone => 3 | .moveEnded => 3
  | .overloadNote => 3 | .driveNote => 3 | .controlChange => 3 | .stepDone => 3
  | .planDone => 3 | .planAborted => 3
  | .zoneState => 4 | .doorObstructed => 4 | .doorFault => 4 | .doorForced => 4
  | .callDone => 5 | .callWithdrawn => 5 | .callEvicted => 5 | .callRefused => 5
  | .areaUnavailable => 5 | .areaBack => 5
  | .monitorEvent => 6 | .monitorStale => 6
  | .lineEdge => 7 | .serviceMode => 7

/-- An event record as a COLLECT EVENTS ANSWER returns it (section 12.5). -/
def EventRec.bytes (e : EventRec) : List Byte :=
  w2 e.sequence ++ w4 e.time ++ b1 e.kind.code ++ b1 e.kind.block ++ b1 e.index ++ w2 e.detail

/-- A number as a 16-bit detail. -/
def det (n : Nat) : Word := BitVec.ofNat 16 n

/-- A signed quantity as a detail, in two's complement (R173). -/
def detInt (z : Int) : Word := BitVec.ofInt 16 z

/-- Two items as a detail: the first in the high byte, the second in the low byte (R173). -/
def det2 (hi lo : Nat) : Word := BitVec.ofNat 16 (256 * (hi % 256) + lo % 256)

end Sys2Proof.Machine
end

