-- ==== Sys2Proof/Machine/Reset.lean ====
section
/-! DEFINITION. The Reset columns of the field tables: the tables before the image is read (and
after CLEAR TABLE, R8), and the runtime right after a reset, with LOADING begun (R182). -/

namespace Sys2Proof.Machine

/-- Node A-1, the reset value of the node fields (sections 4.1, 6.2, 8.1). -/
def nodeA1 : NodeId := { trunk := 0, slot := 0 }

def emptyReport : ReportCfg := { mode := .none, every := 1, interval := 0 }

def emptyTrunk : TrunkCfg :=
  { configured := false, bitRate := 125, replyWindow := 4, gap := 200, roundInterval := 20,
    slowDivisor := 8, settle := 400 }

def emptyAxis : AxisCfg :=
  { configured := false, drive := nodeA1, panel := none, zone := none, posMin := -32000,
    posMax := 32000, vMax := 1, acc := 1, kp := 1, deadband := 0, creepDistance := 0, vCreep := 1,
    controlPeriod := 20, keepalive := 500, lockTimeout := 8, stallVelocity := 0,
    overloadLimit := 0, haltMask := 0, noteMask := 0, stageUp := 1, stageDown := 0,
    lowPayload := none, highPayload := none, prereq1 := none, prereq2 := none,
    motionCall := none }

def emptyZone : ZoneCfg :=
  { warning := 10, fireWarning := 3, warningMessage := 0, fireMessage := 0, areas := 0,
    callGap := 10 }

def emptyDoor : DoorCfg :=
  { configured := false, node := nodeA1, zone1 := 0, zone2 := none, closeTimeout := 40,
    retryDelay := 5, retryLimit := 3, transitTime := 20, reopenWithZone := false }

def emptyChannel : ChannelCfg :=
  { configured := false, source := nodeA1, offset := 0, width := 1, signed := false,
    staleLimit := 1000 }

def emptyMonitor : MonitorCfg := { configured := false, startEnabled := false }

def emptyMstate : StateCfg :=
  { inUse := false, channel := 0, test := .above, threshold := 0, hold := 0, onHold := 0,
    timeout := 0, onTimeout := 0, onStale := none, action := .none }

def emptyLamp : LampCfg := { source := .none, styles := [] }

/-- Filter time 20 ms, ESTOP fixed at 2 (section 9.1). -/
def resetLine (l : Fin 14) : LineCfg :=
  { filter := if l = 0 then 2 else 20, edge := .none, event := false }

def resetParam : Param :=
  { beaconPeriod := 1000, consoleStation := 1, permitForward := false, playLimit := 30,
    stageCount := 8, slowPeriod := 1000, fastPeriod := 250, duty := 50 }

/-- Every table at its empty content, LINE and PARAM at their reset values (R8, R39). -/
def Tables.reset : Tables :=
  { routes := [], permits := Vector.replicate 64 none, reports := Vector.replicate 124 emptyReport,
    trunks := Vector.replicate 4 emptyTrunk, nodes := Vector.replicate 124 none,
    axes := Vector.replicate 6 emptyAxis, profiles := Vector.replicate 48 none,
    zones := Vector.replicate 8 emptyZone, doors := Vector.replicate 32 emptyDoor,
    areas := Vector.replicate 16 [], channels := Vector.replicate 32 emptyChannel,
    monitors := Vector.replicate 16 emptyMonitor, mstates := Vector.replicate 128 emptyMstate,
    lamps := Vector.replicate 64 emptyLamp, lines := Vector.ofFn resetLine, param := resetParam }

def resetReport : ReportRt := { last := none, count := 0, timer := none, pending := none }

def resetNode : NodeRt :=
  { liveness := .unknown, misses := 0, payload := none, time := none, mark := false }

def resetTrunk : TrunkRt :=
  { state := .down, holdAsserted := false, settleTimer := none, roundPhase := 0,
    roundPosition := 0, roundTimer := none, nonPoll := 0, transaction := none,
    windowTimer := none, gapTimer := none, queue := [], holdSet := [], pass := none }

def noOwed : Owed := { unlock := false, lock := false, stage := false }

def resetAxis : AxisRt :=
  { state := .offline, causes := 0, control := .bridge, origin := .none, target := 0,
    lockAtEnd := false, sentDemand := 0, stage := .low, bridgeDerate := 256, latest := none,
    panel := .none, keepaliveTimer := none, lockTimer := none, controlTimer := none,
    wasActive := false, owed := noOwed, overloadNoted := false, callId := none,
    setPoint := none }

def resetPlan : Plan := { running := false, steps := [], current := 1 }

def resetZone : ZoneRt :=
  { active := false, causes := 0, fire := false, override := false, warningTimer := none,
    callId := none, callFire := false, state := .clear }

def resetDoor : DoorRt :=
  { state := .offline, retriesUsed := 0, timer := none, transitMark := false, pending := .none,
    latest := none }

def resetArea : AreaRt :=
  { state := .idle, callId := none, message := none, awaited := [], playTimer := none,
    startMark := false }

def resetChannel : ChannelRt := { value := none, stale := true, timer := none }

def resetMonitor : MonitorRt :=
  { enabled := false, current := 0, holdTimer := none, timeoutTimer := none, callId := none,
    derate := none }

/-- A line whose raw level is active starts its filter timer at the reset (R161). -/
def resetLineRt (raw : BitVec 14) (l : Fin 14) : LineRt :=
  { raw := raw.getLsbD l.val, accepted := false,
    filterTimer := if raw.getLsbD l.val then some (ms (resetLine l).filter) else none }

/-- The lit phase of a generator: the period times the duty by 100, in whole milliseconds
(R168). -/
def litPhase (period duty : Nat) : Nat := period * duty / 100

/-- Both generators start in their lit phase (R168). -/
def startFlash (period duty : Nat) : FlashRt :=
  { lit := true, timer := some (ms (litPhase period duty)) }

/-- A shift of `n` lamps: one clock pulse a lamp and the latch pulse (R170). -/
def shiftTime (n : Nat) : Nat := Config.shiftPulse * n + Config.shiftPulse

/-- The image a reset makes and shifts: 64 unlit lamps (R172). -/
def unlitImage : List Bool := List.replicate 64 false

/-- R172: the images discarded, the reset's own image in shift, the lamp test ended. What the
lamps show is the last latch's until that shift ends. -/
def resetChain (shown : List Bool) : Chain :=
  { shown, last := unlitImage, inShift := some unlitImage, waiting := none,
    shiftTimer := some (shiftTime 64), slow := startFlash 1000 50, fast := startFlash 250 50,
    lampTest := none }

/-- LOADING begins at once, with the read of page 0 under the page timer (R182). -/
def resetStore (cause : ResetCause) : Store :=
  { phase := .loading, snapshot := none, page := 0, pageTimer := some (ms Config.pageTime),
    finalPass := false, loadBuffer := [], cause }

def resetConsole : Console :=
  { rx := Rx.idle, queue := [], tx := none, txTimer := none, beaconTimer := none,
    beaconDue := false, restartPending := false, errors := 0, drops := 0 }

def resetEvents : EventQueue := { records := [], next := 0, lost := 0 }

/-- The runtime right after a reset. `raw` holds the raw levels as they read (R161), `shown` the
values of the lamps' last latch (R170). `serial` and `freeCount` are the model's own counters. -/
def Run.reset (cause : ResetCause) (raw : BitVec 14) (shown : List Bool)
    (serial freeCount : Nat) : Run :=
  { gw := .loading, clock := { ms := 0, us := 0 }, events := resetEvents,
    console := resetConsole, reports := Vector.replicate 124 resetReport,
    trunks := Vector.replicate 4 resetTrunk, nodes := Vector.replicate 124 resetNode,
    axes := Vector.replicate 6 resetAxis, plan := resetPlan, zones := Vector.replicate 8 resetZone,
    doors := Vector.replicate 32 resetDoor, areas := Vector.replicate 16 resetArea, calls := [],
    callCounter := 0, channels := Vector.replicate 32 resetChannel,
    monitors := Vector.replicate 16 resetMonitor, lines := Vector.ofFn (resetLineRt raw),
    outputs := Vector.replicate 4 { high := false, setBy := .reset },
    chain := resetChain shown, store := resetStore cause, serial, entered := [], freeCount }

end Sys2Proof.Machine
end

