-- ==== Sys2Proof/Machine/State.lean ====
section
/-! DEFINITION. The whole state of the machine, as plain data, its stops, and the state right after
reset. -/

namespace Sys2Proof.Machine

/-- The external configuration memory: (address, byte) pairs, addresses strictly rising, no pair
holding what an unlisted address reads as (log 12). -/
abbrev Memory := List Host.Cell

/-- The machine: the commands that wait, the tables, the runtime and the external memory. -/
structure State where
  /-- The commands that wait, first in, first out. -/
  pending : List Instr
  /-- The configuration fields of every table. -/
  cfg : Tables
  /-- The runtime of every block. -/
  run : Run
  /-- The external memory of 64 KiB (section 11.1). -/
  extMem : Memory
  /-- Page 0 of the external memory was left partly written by a reset (R181, log 13). -/
  extTorn : Bool
deriving DecidableEq, Repr

/-- How the machine can stop with a fault. -/
inductive Fault where
  /-- An access to the external memory beyond its 64 KiB, raised by the store's page operations.
  Safe: the manual's memory has no such address, and no run reaches a page number above 511. -/
  | extAddress (page : Nat)
deriving DecidableEq, Repr

/-- How a command can be refused by the model. -/
inductive Refusal where
  /-- A command with no meaning yet, raised by the dispatch only. Safe: the machine stops. No arm
  raises it. -/
  | notModelled (mnemonic : String)
deriving DecidableEq, Repr

/-- The machine right after power-on: every field of a Reset column at that value, LOADING begun,
the external memory with nothing listed, the lamps unlit, no command waiting (logs 12, 14). -/
def State.reset : State :=
  { pending := [], cfg := Tables.reset, run := Run.reset .powerOn 0 unlitImage 0 0, extMem := [],
    extTorn := false }

end Sys2Proof.Machine
end

