-- ==== Sys2Proof/Machine/Updates.lean ====
section
/-! DEFINITION. The named updates of the runtime and of the tables: every meaning changes the state
through these. Their lemmas, one for each field, stand in Sys2Proof/Laws/State.lean. -/

namespace Sys2Proof.Machine

/-- The runtime with its `gw` replaced. -/
def Run.setGw (r : Run) (x : GwState) : Run := { r with gw := x }

/-- The runtime with its `clock` replaced. -/
def Run.setClock (r : Run) (x : Clock) : Run := { r with clock := x }

/-- The runtime with its `events` replaced. -/
def Run.setEvents (r : Run) (x : EventQueue) : Run := { r with events := x }

/-- The runtime with its `console` replaced. -/
def Run.setConsole (r : Run) (x : Console) : Run := { r with console := x }

/-- The runtime with its `plan` replaced. -/
def Run.setPlan (r : Run) (x : Plan) : Run := { r with plan := x }

/-- The runtime with its `calls` replaced. -/
def Run.setCalls (r : Run) (x : List Call) : Run := { r with calls := x }

/-- The runtime with its `callCounter` replaced. -/
def Run.setCallCounter (r : Run) (x : Nat) : Run := { r with callCounter := x }

/-- The runtime with its `chain` replaced. -/
def Run.setChain (r : Run) (x : Chain) : Run := { r with chain := x }

/-- The runtime with its `store` replaced. -/
def Run.setStore (r : Run) (x : Store) : Run := { r with store := x }

/-- The runtime with its `serial` replaced. -/
def Run.setSerial (r : Run) (x : Nat) : Run := { r with serial := x }

/-- The runtime with its `entered` replaced. -/
def Run.setEntered (r : Run) (x : List (Fin 16)) : Run := { r with entered := x }

/-- The runtime with its `freeCount` replaced. -/
def Run.setFreeCount (r : Run) (x : Nat) : Run := { r with freeCount := x }

/-- The runtime with the report entry of index `i` changed by `f`. -/
def Run.modReport (r : Run) (i : Fin 124) (f : ReportRt → ReportRt) : Run :=
  { r with reports := r.reports.set i (f r.reports[i]) }

/-- The runtime with the trunk record of index `i` changed by `f`. -/
def Run.modTrunk (r : Run) (i : Fin 4) (f : TrunkRt → TrunkRt) : Run :=
  { r with trunks := r.trunks.set i (f r.trunks[i]) }

/-- The runtime with the node record of index `i` changed by `f`. -/
def Run.modNode (r : Run) (i : Fin 124) (f : NodeRt → NodeRt) : Run :=
  { r with nodes := r.nodes.set i (f r.nodes[i]) }

/-- The runtime with the axis record of index `i` changed by `f`. -/
def Run.modAxis (r : Run) (i : Fin 6) (f : AxisRt → AxisRt) : Run :=
  { r with axes := r.axes.set i (f r.axes[i]) }

/-- The runtime with the zone record of index `i` changed by `f`. -/
def Run.modZone (r : Run) (i : Fin 8) (f : ZoneRt → ZoneRt) : Run :=
  { r with zones := r.zones.set i (f r.zones[i]) }

/-- The runtime with the door record of index `i` changed by `f`. -/
def Run.modDoor (r : Run) (i : Fin 32) (f : DoorRt → DoorRt) : Run :=
  { r with doors := r.doors.set i (f r.doors[i]) }

/-- The runtime with the area record of index `i` changed by `f`. -/
def Run.modArea (r : Run) (i : Fin 16) (f : AreaRt → AreaRt) : Run :=
  { r with areas := r.areas.set i (f r.areas[i]) }

/-- The runtime with the channel record of index `i` changed by `f`. -/
def Run.modChannel (r : Run) (i : Fin 32) (f : ChannelRt → ChannelRt) : Run :=
  { r with channels := r.channels.set i (f r.channels[i]) }

/-- The runtime with the monitor header of index `i` changed by `f`. -/
def Run.modMonitor (r : Run) (i : Fin 16) (f : MonitorRt → MonitorRt) : Run :=
  { r with monitors := r.monitors.set i (f r.monitors[i]) }

/-- The runtime with the line record of index `i` changed by `f`. -/
def Run.modLine (r : Run) (i : Fin 14) (f : LineRt → LineRt) : Run :=
  { r with lines := r.lines.set i (f r.lines[i]) }

/-- The runtime with the general output of index `i` changed by `f`. -/
def Run.modOutput (r : Run) (i : Fin 4) (f : OutputRt → OutputRt) : Run :=
  { r with outputs := r.outputs.set i (f r.outputs[i]) }

/-- The state with its runtime replaced. -/
def State.setRun (s : State) (r : Run) : State := { s with run := r }

/-- The state with its tables replaced. -/
def State.setCfg (s : State) (c : Tables) : State := { s with cfg := c }

/-- The state with the waiting commands replaced. -/
def State.setPending (s : State) (q : List Instr) : State := { s with pending := q }

/-- The state with the external memory replaced. -/
def State.setMem (s : State) (m : Memory) (torn : Bool) : State :=
  { s with extMem := m, extTorn := torn }

end Sys2Proof.Machine
end

