-- ==== Sys2Proof/Machine/Ops.lean ====
section
/-! DEFINITION. The shared operations over the event queue, the outbound console queue, the console
transmitter and the trunk transmitters. Every unit reaches them through these alone. -/

namespace Sys2Proof.Machine

/-! ### Events (chapter 10) -/

/-- A record offered to the queue: numbered and appended, or lost (R174). -/
def EventQueue.push (q : EventQueue) (time : TimeBase) (kind : EventKind) (index : Nat)
    (detail : Word) : EventQueue :=
  if q.records.length < Config.eventCapacity then
    { q with
      records := q.records ++ [{ sequence := q.next, time, kind, index, detail }]
      next := q.next + 1 }
  else { q with lost := min 65535 (q.lost + 1) }

/-- An event is raised: its record is made with the time base as it stands (R173). -/
def Run.raise (r : Run) (kind : EventKind) (index : Nat) (detail : Word) : Run :=
  r.setEvents (r.events.push r.clock.ms kind index detail)

/-- The queue after a collection (R177). -/
def EventQueue.collected (q : EventQueue) : EventQueue :=
  { q with records := q.records.drop Config.collectionSize, lost := 0 }

/-- The data a collection gives (R10): the number of records, the lost count before, the
records. -/
def EventQueue.collection (q : EventQueue) : List Byte :=
  let taken := q.records.take Config.collectionSize
  b1 taken.length ++ b2 q.lost ++ taken.flatMap EventRec.bytes

/-! ### The console transmitter (R3, R10, R16, R18) -/

/-- The payload of an ANSWER, with the event counts as the queue now stands (R3, 12.2). -/
def answerPayload (q : EventQueue) (code : Code) (detail : Word) (data : List Byte) :
    List Byte :=
  b1 code.code ++ w2 detail ++ b1 q.records.length ++ b2 q.lost ++ data

/-- An ANSWER goes to the request's source, from the request's destination, with its tag (R3). -/
def answerFrame (req : Req) (payload : List Byte) : Frame :=
  { dst := req.src, src := req.dst, tag := req.tag, kind := kindAnswer, payload }

/-- The payload of a REPORT (R36, section 12.2). -/
def reportPayload (p : Report) : List Byte :=
  b1 p.node.trunk.val ++ b1 (address p.node.slot) ++ w4 p.time ++ bPayload p.payload

def reportFrame (p : Report) : Frame :=
  { dst := p.dst, src := p.src, tag := 0, kind := kindReport, payload := reportPayload p }

/-- Service mode is the accepted level of the SERVICE line (R164). -/
def serviceMode (r : Run) : Bool := r.lines[(1 : Fin 14)].accepted

/-- The accepted ESTOP level, active or not (section 9.1). -/
def estopActive (r : Run) : Bool := r.lines[(0 : Fin 14)].accepted

/-- The payload of a BEACON: the status as it stands (R18, section 12.2). -/
def beaconPayload (r : Run) : List Byte :=
  b1 r.gw.code ++ r.axes.toList.flatMap (fun a => b1 a.state.code)
    ++ r.zones.toList.flatMap (fun z => b1 z.state.code)
    ++ r.trunks.toList.flatMap (fun t => b1 t.state.code)
    ++ b1 ((serviceMode r).toNat + 2 * (estopActive r).toNat)
    ++ b1 r.events.records.length ++ b2 r.events.lost

def beaconFrame (c : Tables) (r : Run) : Frame :=
  { dst := c.param.consoleStation, src := 0, tag := 0, kind := kindBeacon,
    payload := beaconPayload r }

/-- The time a console frame takes: delimiter, length, six fixed bytes, payload and CRC. -/
def consoleTime (f : Frame) : Nat := Config.consoleByteTime * (f.payload.length + 10)

/-- The transmission of a frame begins. -/
def Run.beginTx (r : Run) (f : Frame) (restart : Bool) : Run :=
  r.setConsole
    { r.console with tx := some { frame := f, restart }, txTimer := some (consoleTime f) }

/-- An ANSWER's transmission begins: a collection is made first where its data are open (R10), and
the counts are read after it (R3, R176). -/
def Run.beginAnswer (r : Run) (a : Answer) : Run :=
  match a.data with
  | .fixed data =>
    r.beginTx (answerFrame a.req (answerPayload r.events a.code a.detail data)) a.restart
  | .collect =>
    let data := r.events.collection
    let r := r.setEvents r.events.collected
    r.beginTx (answerFrame a.req (answerPayload r.events a.code a.detail data)) a.restart

/-- The oldest ANSWER of the queue. -/
def firstAnswer : List OutEntry → Option Answer
  | [] => none
  | .answer a :: _ => some a
  | .report _ :: q => firstAnswer q

/-- The queue without its oldest ANSWER. -/
def withoutFirstAnswer : List OutEntry → List OutEntry
  | [] => []
  | .answer _ :: q => q
  | .report p :: q => .report p :: withoutFirstAnswer q

/-- The oldest REPORT of the queue. -/
def firstReport : List OutEntry → Option Report
  | [] => none
  | .report p :: _ => some p
  | .answer _ :: q => firstReport q

/-- The queue without its oldest REPORT. -/
def withoutFirstReport : List OutEntry → List OutEntry
  | [] => []
  | .report _ :: q => q
  | .answer a :: q => .answer a :: withoutFirstReport q

/-- The idle transmitter takes the next frame: an ANSWER, a BEACON, a REPORT (R16). -/
def Run.startTx (c : Tables) (r : Run) : Run :=
  match firstAnswer r.console.queue with
  | some a =>
    (r.setConsole { r.console with queue := withoutFirstAnswer r.console.queue }).beginAnswer a
  | none =>
    if r.console.beaconDue then
      let r := r.setConsole { r.console with beaconDue := false }
      r.beginTx (beaconFrame c r) false
    else
      match firstReport r.console.queue with
      | some p =>
        (r.setConsole { r.console with queue := withoutFirstReport r.console.queue }).beginTx
          (reportFrame p) false
      | none => r

/-- Work for the transmitter: taken at once when it is idle (R16). -/
def Run.kickConsole (c : Tables) (r : Run) : Run :=
  if r.console.tx.isNone then Run.startTx c r else r

/-! ### The outbound queue (R15) -/

/-- The drop count rises by one, up to 65535. -/
def Console.dropOne (k : Console) : Console := { k with drops := min 65535 (k.drops + 1) }

/-- R15 for a new ANSWER; the mark says whether the ANSWER was dropped. -/
def Console.offerAnswer (k : Console) (a : Answer) : Console × Bool :=
  if k.queue.length < Config.outboundCapacity then
    ({ k with queue := k.queue ++ [.answer a] }, false)
  else
    match firstReport k.queue with
    | some _ =>
      ({ k.dropOne with queue := withoutFirstReport k.queue ++ [.answer a] }, false)
    | none => (k.dropOne, true)

/-- Whether a queue entry is a REPORT of this node. -/
def OutEntry.reportsNode (n : NodeId) : OutEntry → Bool
  | .answer _ => false
  | .report p => p.node == n

/-- The queue with the newest REPORT of the node replaced in place; `none` when it holds none. -/
def replaceNewest (p : Report) : List OutEntry → Option (List OutEntry)
  | [] => none
  | e :: q =>
    match replaceNewest p q with
    | some q' => some (e :: q')
    | none => if e.reportsNode p.node then some (.report p :: q) else none

/-- R15 for a new REPORT. -/
def Console.offerReport (k : Console) (p : Report) : Console :=
  if k.queue.length < Config.outboundCapacity then { k with queue := k.queue ++ [.report p] }
  else
    match replaceNewest p k.queue with
    | some q => { k with queue := q }
    | none => k.dropOne

/-- An ANSWER is made and offered (R3, R15, R16). -/
def Run.answer (c : Tables) (r : Run) (req : Req) (code : Code) (detail : Word)
    (data : List Byte) : Run :=
  Run.kickConsole c (r.setConsole (r.console.offerAnswer
    { req, code, detail, data := .fixed data, restart := false }).1)

/-- A REPORT is made and offered (R36, R15, R16). -/
def Run.report (c : Tables) (r : Run) (p : Report) : Run :=
  Run.kickConsole c (r.setConsole (r.console.offerReport p))

/-! ### Trunk frames (section 3.3) -/

def codePoll : Byte := 0x00
def codeSetPoint : Byte := 0x01
def codeHold : Byte := 0x02
def codeUnlock : Byte := 0x03
def codeLock : Byte := 0x04
def codeStage : Byte := 0x05
def codeDoorOpen : Byte := 0x08
def codeDoorClose : Byte := 0x09
def codeDoorStop : Byte := 0x0A
def codeDeny : Byte := 0x0B
def codePlay : Byte := 0x10
def codeStopPlay : Byte := 0x11

/-! ### Poll rounds and the trunk transmitter (R49, R50) -/

/-- The node of a trunk's slot. -/
def nodeAt (t : Fin 4) (i : Fin 31) : NodeId := { trunk := t, slot := i }

/-- The record of a node. -/
def nodeRt (r : Run) (n : NodeId) : NodeRt := r.nodes[nodeIndex n]

/-- The configuration of a node's slot, or nothing when the slot is empty. -/
def nodeCfg (c : Tables) (n : NodeId) : Option NodeCfg := c.nodes[nodeIndex n]

/-- The kind of a node, or nothing when the slot is empty. -/
def nodeKind (c : Tables) (n : NodeId) : Option NodeKind := (nodeCfg c n).map (·.kind)

/-- Whether a node is due for a poll in the current round (R50). -/
def pollDue (c : Tables) (r : Run) (t : Fin 4) (i : Fin 31) : Bool :=
  match nodeCfg c (nodeAt t i) with
  | none => false
  | some k =>
    let n := nodeRt r (nodeAt t i)
    let slow := r.trunks[t].roundPhase == 0
    decide (r.trunks[t].roundPosition < address i) && !n.mark &&
      (if n.liveness == .lost then slow
       else match k.poll with
         | .fast => true
         | .slow => slow
         | .none => false)

/-- The due node of lowest address. -/
def duePoll (c : Tables) (r : Run) (t : Fin 4) : Option (Fin 31) :=
  (List.finRange 31).find? (pollDue c r t)

/-- A poll round begins: position 0, every mark clear, the round timer started (R50). -/
def Run.beginRound (c : Tables) (r : Run) (t : Fin 4) (phase : Nat) : Run :=
  let r := r.modTrunk t fun k =>
    { k with roundPhase := phase, roundPosition := 0,
             roundTimer := some (ms c.trunks[t].roundInterval) }
  (List.finRange 31).foldl
    (fun r i => r.modNode (nodeIndex (nodeAt t i)) fun n => { n with mark := false }) r

/-- The next round, when the interval has run and no node is due (R50, log 16). -/
def Run.nextRound (c : Tables) (r : Run) (t : Fin 4) : Run :=
  if r.trunks[t].roundTimer.isNone && (duePoll c r t).isNone then
    Run.beginRound c r t
      (if r.trunks[t].roundPhase + 1 < c.trunks[t].slowDivisor then r.trunks[t].roundPhase + 1
       else 0)
  else r

/-- The transmitter takes a frame: the transaction begins and the non-poll count follows (R46,
R49). -/
def Run.beginTransaction (r : Run) (t : Fin 4) (slot : Fin 31) (code : Byte)
    (payload : List Byte) (source : TxSource) : Run :=
  r.modTrunk t fun k =>
    { k with transaction := some { slot, code, payload, source, awaiting := false },
             nonPoll := if source == .poll then 0
                        else min Config.forcedPollCount (k.nonPoll + 1) }

/-- A due poll is taken: the round position and the mark follow (R50). -/
def Run.takePoll (r : Run) (t : Fin 4) (i : Fin 31) : Run :=
  ((r.modTrunk t fun k => { k with roundPosition := address i }).modNode
    (nodeIndex (nodeAt t i)) fun n => { n with mark := true }).beginTransaction
    t i codePoll [] .poll

/-- A set-point slot is taken: the slot becomes empty and the demand counts as sent (R52, R102). -/
def Run.takeSetPoint (c : Tables) (r : Run) (t : Fin 4) (a : Fin 6) (demand : Int) : Run :=
  (r.modAxis a fun x => { x with setPoint := none, sentDemand := demand }).beginTransaction
    t c.axes[a].drive.slot codeSetPoint (i2 demand) (.setPoint a)

/-- The frame at the head of the command queue is taken: its attempt count rises (R55). -/
def Run.takeQueue (r : Run) (t : Fin 4) (f : QFrame) (rest : List QFrame) : Run :=
  (r.modTrunk t fun k =>
    { k with queue := { f with attempts := f.attempts + 1 } :: rest }).beginTransaction
    t f.node.slot f.code f.payload .queue

/-- The frame in the pass slot is taken (R54, R55). -/
def Run.takePass (r : Run) (t : Fin 4) (p : PassSlot) : Run :=
  (r.modTrunk t fun k =>
    { k with pass := some { p with attempts := p.attempts + 1 } }).beginTransaction
    t p.slot p.code p.payload .pass

/-- The non-empty set-point slot of the lowest-numbered axis whose drive node lies on the trunk. -/
def dueSetPoint (c : Tables) (r : Run) (t : Fin 4) : Option (Fin 6 × Int) :=
  (List.finRange 6).findSome? fun a =>
    if c.axes[a].configured && c.axes[a].drive.trunk == t then
      r.axes[a].setPoint.map fun d => (a, d)
    else none

/-- Steps 3 to 6 of R49. -/
def Run.selectLower (c : Tables) (r : Run) (t : Fin 4) : Run :=
  match dueSetPoint c r t with
  | some (a, d) => Run.takeSetPoint c r t a d
  | none =>
    match r.trunks[t].queue with
    | f :: rest => r.takeQueue t f rest
    | [] =>
      match r.trunks[t].pass with
      | some p => r.takePass t p
      | none =>
        match duePoll c r t with
        | some i => r.takePoll t i
        | none => r

/-- The free transmitter takes the first frame found (R49); a round that has ended is followed by
the next one first (R50). -/
def Run.selectFrame (c : Tables) (r : Run) (t : Fin 4) : Run :=
  let r := Run.nextRound c r t
  match r.trunks[t].holdSet with
  | i :: _ => r.beginTransaction t i codeHold [] .hold
  | [] =>
    if r.trunks[t].nonPoll = Config.forcedPollCount then
      match duePoll c r t with
      | some i => r.takePoll t i
      | none => Run.selectLower c r t
    else Run.selectLower c r t

/-- The transmitter is free: RUNNING, no transaction, no turnaround gap (R48, R49). -/
def trunkFree (k : TrunkRt) : Bool :=
  k.state == .running && k.transaction.isNone && k.gapTimer.isNone

/-- Work for a trunk: selected at its offer when the transmitter is free (R48). -/
def Run.kickTrunk (c : Tables) (r : Run) (t : Fin 4) : Run :=
  if trunkFree r.trunks[t] then Run.selectFrame c r t else r

/-! ### Offers of work (R51, R52, R53) -/

inductive Offer where
  | accepted
  | trunkDown
  | nodeLost
  | queueFull
deriving DecidableEq, Repr

/-- R53: the trunk, the node, the space. -/
def judgeOffer (c : Tables) (r : Run) (n : NodeId) : Offer :=
  if r.trunks[n.trunk].state ≠ .running then .trunkDown
  else if (nodeCfg c n).isNone || (nodeRt r n).liveness == .lost then .nodeLost
  else if Config.commandQueueCapacity ≤ r.trunks[n.trunk].queue.length then .queueFull
  else .accepted

/-- A frame is appended at the tail with 0 attempts made, and the transmitter looks at it. -/
def Run.enqueueFrame (c : Tables) (r : Run) (n : NodeId) (code : Byte) (payload : List Byte)
    (origin : Origin) : Run :=
  Run.kickTrunk c (r.modTrunk n.trunk fun k =>
    { k with queue := k.queue ++ [{ node := n, code, payload, origin, attempts := 0 }] }) n.trunk

/-- A frame offered to the command queue: judged at once (R53). -/
def Run.offerFrame (c : Tables) (r : Run) (n : NodeId) (code : Byte) (payload : List Byte)
    (origin : Origin) : Run × Offer :=
  match judgeOffer c r n with
  | .accepted => (Run.enqueueFrame c r n code payload origin, .accepted)
  | o => (r, o)

/-- A local address joins the hold set in its place; one already there leaves it as it was. -/
def insertSlot (i : Fin 31) : List (Fin 31) → List (Fin 31)
  | [] => [i]
  | j :: js =>
    if i < j then i :: j :: js
    else if i = j then j :: js
    else j :: insertSlot i js

/-- Whether the trunk takes hold-set entries and demands for the node (R51, R52). -/
def nodeReachable (c : Tables) (r : Run) (n : NodeId) : Bool :=
  r.trunks[n.trunk].state == .running && (nodeCfg c n).isSome
    && (nodeRt r n).liveness != .lost

/-- A HOLD becomes owed to a drive node, unless R51 refuses it. -/
def Run.holdNode (c : Tables) (r : Run) (n : NodeId) : Run :=
  if nodeReachable c r n then
    Run.kickTrunk c (r.modTrunk n.trunk fun k =>
      { k with holdSet := insertSlot n.slot k.holdSet }) n.trunk
  else r

/-- A demand is written into an axis's set-point slot, replacing one not yet taken, unless R52
discards it. -/
def Run.writeSetPoint (c : Tables) (r : Run) (a : Fin 6) (demand : Int) : Run :=
  let n := c.axes[a].drive
  if nodeReachable c r n then
    Run.kickTrunk c (r.modAxis a fun x => { x with setPoint := some demand }) n.trunk
  else r.modAxis a fun x => { x with setPoint := none }

/-! ### Requests -/

/-- The frame's own answer fields. -/
def Frame.req (f : Frame) : Req := { src := f.src, dst := f.dst, tag := f.tag }

end Sys2Proof.Machine
end

