-- ==== Sys2Proof/Machine/Flags.lean ====
section
/-! DEFINITION. What the rules derive from other state: drive flags, the effective derate (R76),
prerequisites (R83), zone states (R109), lamp values and lit values (R169). -/

namespace Sys2Proof.Machine

/-! ### Drive flags (R82, section 12.4) -/

/-- LOCKS_ENGAGED, flag index 0. -/
def DriveStatus.locksEngaged (d : DriveStatus) : Bool := d.flags.getLsbD 0

/-- LOCKS_RELEASED, flag index 1. -/
def DriveStatus.locksReleased (d : DriveStatus) : Bool := d.flags.getLsbD 1

/-- The flags as they were last reported; none before a first reply. -/
def latestFlags (x : AxisRt) : BitVec 8 :=
  match x.latest with
  | some d => d.flags
  | none => 0

/-- Whether the latest flags show LOCKS_ENGAGED. -/
def latestEngaged (x : AxisRt) : Bool := (latestFlags x).getLsbD 0

/-- Whether a mask names the flag of this index: bit 0 of a mask is flag index 2 (log 7). -/
def maskHas (mask : BitVec 6) (flag : Nat) : Bool := decide (2 ≤ flag) && mask.getLsbD (flag - 2)

/-- At rest means LOCKED or STILL. -/
def AxisState.atRest : AxisState → Bool
  | .locked | .still => true
  | .offline | .unlocking | .moving | .stopping | .locking | .halted => false

/-- UNLOCKING, MOVING, STOPPING, LOCKING: in motion (R12, R81, R86). -/
def AxisState.inMotion : AxisState → Bool
  | .unlocking | .moving | .stopping | .locking => true
  | .offline | .locked | .still | .halted => false

/-! ### Derates and prerequisites -/

/-- The derate one monitor gives an axis, or 256 when it gives none. -/
def monitorDerate (x : MonitorRt) (a : Fin 6) : Nat :=
  match x.derate with
  | some (v, axes) => if setHas axes a.val then v else 256
  | none => 256

/-- The least of the bridge derate and every monitor's derate that names the axis (R76). -/
def effectiveDerate (r : Run) (a : Fin 6) : Nat :=
  r.monitors.toList.foldl (fun d m => min d (monitorDerate m a)) (min 256 r.axes[a].bridgeDerate)

/-- A prerequisite is satisfied when the other axis is not OFFLINE and its latest position lies in
the window (R83). -/
def prereqMet (r : Run) : Option Prereq → Bool
  | none => true
  | some p =>
    match r.axes[p.axis].latest with
    | some d =>
      r.axes[p.axis].state != .offline && decide (p.min ≤ d.position)
        && decide (d.position ≤ p.max)
    | none => false

/-- Both prerequisites are satisfied. -/
def prereqsMet (c : Tables) (r : Run) (a : Fin 6) : Bool :=
  prereqMet r c.axes[a].prereq1 && prereqMet r c.axes[a].prereq2

/-- Whether a prerequisite names the axis. -/
def namesAxis (p : Option Prereq) (a : Fin 6) : Bool :=
  match p with
  | some q => q.axis == a
  | none => false

/-- The fire flag of the axis's zone is set and its motion override clear (R72, R81). -/
def fireHolds (c : Tables) (r : Run) (a : Fin 6) : Bool :=
  match c.axes[a].zone with
  | some z => r.zones[z].fire && !r.zones[z].override
  | none => false

/-! ### Zones and doors -/

/-- A configured door that names the zone as first or second zone is its member (section 6.1). -/
def memberDoor (c : Tables) (z : Fin 8) (d : Fin 32) : Bool :=
  c.doors[d].configured && (c.doors[d].zone1 == z || c.doors[d].zone2 == some z)

/-- The member doors of a zone, in ascending door index. -/
def memberDoors (c : Tables) (z : Fin 8) : List (Fin 32) :=
  (List.finRange 32).filter (memberDoor c z)

/-- The zones a door names, first zone first. -/
def doorZones (x : DoorCfg) : List (Fin 8) :=
  match x.zone2 with
  | some z => [x.zone1, z]
  | none => [x.zone1]

/-- The lowest zone of a door entry that satisfies a test. -/
def lowestZone (x : DoorCfg) (p : Fin 8 → Bool) : Option (Fin 8) :=
  (List.finRange 8).find? fun z => (doorZones x).contains z && p z

/-- The lowest zone of the door whose closure is active. -/
def lowestActiveZone (r : Run) (x : DoorCfg) : Option (Fin 8) :=
  lowestZone x fun z => r.zones[z].active

/-- R109's table, for the member doors' states. -/
def derivedZoneState (active warning : Bool) (doors : List DoorState) : ZoneState :=
  if !active then .clear
  else if warning then .warning
  else if doors.any fun d => d == .opened || d == .opening || d == .closing || d == .obstructed then
    .closing
  else if doors.any fun d => d == .fault || d == .offline then .incomplete
  else .sealed

/-- The state R109 gives a zone. -/
def zoneStateNow (c : Tables) (r : Run) (z : Fin 8) : ZoneState :=
  if r.zones[z].active then
    derivedZoneState true r.zones[z].warningTimer.isSome
      ((memberDoors c z).map fun d => r.doors[d].state)
  else .clear

/-! ### Lamps (section 9.3, R169) -/

/-- The value a lamp's source reads as; NONE has none. -/
def lampValue (r : Run) : LampSource → Option Nat
  | .none => none
  | .axis a => some r.axes[a].state.code
  | .zone z => some r.zones[z].state.code
  | .door d => some r.doors[d].state.code
  | .line l => some r.lines[l].accepted.toNat
  | .monitor m => some r.monitors[m].current.val
  | .trunk t => some r.trunks[t].state.code

/-- The style a styles list pairs with a value, OFF when it names no such value. -/
def styleOf (styles : List (Nat × Style)) (v : Nat) : Style :=
  match styles with
  | [] => .off
  | (w, s) :: rest => if w = v then s else styleOf rest v

/-- The lit value a lamp map entry gives (R169). -/
def lampLit (r : Run) (x : LampCfg) : Bool :=
  match lampValue r x.source with
  | none => false
  | some v =>
    match styleOf x.styles v with
    | .off => false
    | .on => true
    | .slow => r.chain.slow.lit
    | .fast => r.chain.fast.lit

/-- The chain image: lamps 0 to 8 stages less one; a lamp test lights them all (R169, R171). -/
def chainImage (c : Tables) (r : Run) : List Bool :=
  (c.lamps.toList.take (8 * c.param.stageCount)).map fun x =>
    r.chain.lampTest.isSome || lampLit r x

end Sys2Proof.Machine
end

