-- ==== Sys2Proof/Machine/Calls.lean ====
section
/-! DEFINITION. The call dispatcher (chapter 7): areas and their plays, the call queue, merge,
eviction, passes, withdrawal, and the availability of areas. -/

namespace Sys2Proof.Machine

/-! ### Records of the queue -/

/-- The record that holds an id. -/
def findCall (r : Run) (id : Nat) : Option Call := r.calls.find? fun k => k.id == id

/-- The record of an id changed. -/
def Run.modCall (r : Run) (id : Nat) (f : Call → Call) : Run :=
  r.setCalls (r.calls.map fun k => if k.id = id then f k else k)

/-- The areas of a set, in ascending area index. -/
def areasOf (s : AreaSet) : List (Fin 16) := (List.finRange 16).filter fun i => setHas s i.val

/-- The areas that are not UNAVAILABLE, as a set. -/
def availableAreas (r : Run) : AreaSet :=
  (List.finRange 16).foldl
    (fun s i => if r.areas[i].state ≠ .unavailable then setUnion s (setOf i.val) else s) 0

/-! ### Plays (R137) -/

/-- STOP_PLAY offered to an amplifier; a refused offer is dropped (R136). -/
def Run.offerStopPlay (c : Tables) (r : Run) (area : Fin 16) (n : NodeId) : Run :=
  (Run.offerFrame c r n codeStopPlay [] (.stopPlay area)).1

/-- STOP_PLAY offered to each of several amplifiers in turn. An awaited set is taken in the order of
the area's amplifier list, which is the model's order (R136, R140, log 48). -/
def Run.stopPlays (c : Tables) (r : Run) (area : Fin 16) (nodes : List NodeId) : Run :=
  nodes.foldl (fun r n => Run.offerStopPlay c r area n) r

/-- PLAY offered to one amplifier if it is LIVE; an accepted offer joins the awaited set, unarmed
(R137). -/
def Run.offerPlay (c : Tables) (area : Fin 16) (message : Nat) (acc : Run × List Awaited)
    (n : NodeId) : Run × List Awaited :=
  if (nodeRt acc.1 n).liveness = .live then
    let serial := acc.1.serial
    let o := Run.offerFrame c (acc.1.setSerial (serial + 1)) n codePlay (b2 message)
      (.play area serial)
    if o.2 = .accepted then (o.1, acc.2 ++ [{ node := n, armed := false, message, serial }])
    else (o.1, acc.2)
  else acc

/-- The area's record with no play. -/
def AreaRt.silent (x : AreaRt) (s : AreaState) : AreaRt :=
  { x with state := s, callId := none, message := none, awaited := [], playTimer := none }

/-- A play of a call is started in an area; `former` is the awaited set of the play it preempts
(R137). -/
def Run.startPlay (c : Tables) (r : Run) (area : Fin 16) (k : Call) (former : List Awaited) :
    Run :=
  let o := c.areas[area].foldl (Run.offerPlay c area k.message) (r, [])
  let r := o.1
  let r :=
    if o.2.isEmpty then r.modArea area fun x => x.silent .idle
    else
      (r.modArea area fun x =>
        { x with state := .playing, callId := some k.id, message := some k.message,
                 awaited := o.2, playTimer := some (sec k.limit) }).modCall k.id fun k =>
        { k with pending := setDiff k.pending (setOf area.val),
                 playing := setUnion k.playing (setOf area.val) }
  Run.stopPlays c r area
    (c.areas[area].filter fun n =>
      former.any (fun w => w.node == n) && !o.2.any (fun w => w.node == n))

/-! ### Selection (R134) -/

/-- The first record in queue order in PASS that has the area in its pending set. -/
def candidate (r : Run) (area : Fin 16) : Option Call :=
  r.calls.find? fun k => k.phase == .pass && setHas k.pending area.val

/-- The area is preempted: it returns to the pending set of the call playing (R134). -/
def Run.preempt (r : Run) (area : Fin 16) (id : Nat) : Run :=
  r.modCall id fun k =>
    { k with pending := setUnion k.pending (setOf area.val),
             playing := setDiff k.playing (setOf area.val) }

/-- Selection for one area (R134). -/
def Run.selectArea (c : Tables) (r : Run) (area : Fin 16) : Run :=
  match candidate r area with
  | none => r
  | some k =>
    match r.areas[area].state with
    | .unavailable => r
    | .idle => Run.startPlay c r area k []
    | .playing =>
      match r.areas[area].callId with
      | none => r
      | some id =>
        match findCall r id with
        | none => r
        | some cur =>
          if cur.priority < k.priority then
            Run.startPlay c (r.preempt area id) area k r.areas[area].awaited
          else r

/-- Selection for several areas, in ascending area index (R134). -/
def Run.selectAreas (c : Tables) (r : Run) (s : AreaSet) : Run :=
  (areasOf s).foldl (Run.selectArea c) r

/-! ### Passes (R141, R142) and removal (R136) -/

/-- A pass begins: the pending set is the area set less every UNAVAILABLE area (R142). -/
def Run.beginPass (c : Tables) (r : Run) (id : Nat) : Run :=
  match findCall r id with
  | none => r
  | some k =>
    let owed := k.areas &&& availableAreas r
    if owed = 0 then
      r.modCall id fun k =>
        { k with phase := .waiting, pending := 0, playing := 0, gapTimer := none }
    else
      Run.selectAreas c (r.modCall id fun k =>
        { k with phase := .pass, pending := owed, playing := 0, gapTimer := none }) owed

/-- The originator is told that its call has ended: its call id becomes none (R136). -/
def Run.tellEnded (r : Run) (origin : CallOrigin) (id : Nat) : Run :=
  match origin with
  | .bridge => r
  | .axis a => r.modAxis a fun x => if x.callId = some id then { x with callId := none } else x
  | .zone z => r.modZone z fun x => if x.callId = some id then { x with callId := none } else x
  | .monitor m =>
    r.modMonitor m fun x => if x.callId = some id then { x with callId := none } else x

/-- An area playing a removed call is silenced (R136 step 1). -/
def Run.silenceArea (c : Tables) (r : Run) (area : Fin 16) : Run :=
  (Run.stopPlays c r area (r.areas[area].awaited.map (·.node))).modArea area
    fun x => x.silent .idle

/-- A record is removed from the queue (R136); its areas are silenced in ascending area index, which is
the model's order (log 48). -/
def Run.removeCall (c : Tables) (r : Run) (id : Nat) : Run :=
  match findCall r id with
  | none => r
  | some k =>
    let r := (areasOf k.playing).foldl (Run.silenceArea c) r
    let r := r.setCalls (r.calls.filter fun x => x.id != id)
    Run.selectAreas c (r.tellEnded k.origin id) k.playing

/-- A call's gap begins; a gap of 0 expires at the pass end itself (R141, R142). -/
def Run.beginGap (c : Tables) (r : Run) (k : Call) : Run :=
  if k.gap = 0 then Run.beginPass c r k.id
  else r.modCall k.id fun k => { k with phase := .gap, gapTimer := some (sec k.gap) }

/-- A call's pass is judged (R141). -/
def Run.judgePass (c : Tables) (r : Run) (id : Nat) : Run :=
  match findCall r id with
  | none => r
  | some k =>
    if k.phase = .pass ∧ k.pending = 0 ∧ k.playing = 0 then
      if k.repeats = 0 then Run.beginGap c r k
      else if 1 < k.remaining then
        Run.beginGap c (r.modCall id fun k => { k with remaining := k.remaining - 1 }) k
      else (Run.removeCall c r id).raise .callDone id k.origin.code
    else r

/-- A play in an area ends (R140): `final` is the state the area takes. -/
def Run.endPlay (c : Tables) (r : Run) (area : Fin 16) (final : AreaState) : Run :=
  let id := r.areas[area].callId
  let r := r.modArea area fun x => x.silent final
  let r :=
    match id with
    | none => r
    | some id =>
      Run.judgePass c (r.modCall id fun k =>
        { k with playing := setDiff k.playing (setOf area.val) }) id
  if r.areas[area].state = .idle then Run.selectArea c r area else r

/-- An amplifier leaves the awaited set; an emptied set ends the play (R138, R139, R143). -/
def Run.leaveAwaited (c : Tables) (r : Run) (area : Fin 16) (n : NodeId) : Run :=
  if r.areas[area].awaited.any (fun w => w.node == n) then
    let r := r.modArea area fun x =>
      { x with awaited := x.awaited.filter fun w => w.node != n }
    if r.areas[area].awaited.isEmpty && r.areas[area].state == .playing then
      Run.endPlay c r area .idle
    else r
  else r

/-! ### Offering a call (R129 to R132) -/

/-- A call as its originator offers it (R133). -/
structure CallOffer where
  message : Nat
  areas : AreaSet
  priority : Nat
  repeats : Nat
  gap : Nat
  limit : Nat
  origin : CallOrigin
deriving DecidableEq, Repr

/-- The first id after the counter that no record holds, wrapping from 255 to 1 (R129). -/
def freeId (r : Run) : Nat :=
  let ids := r.calls.map (·.id)
  match (List.range 255).find? fun k => !ids.contains ((r.callCounter + k) % 255 + 1) with
  | some k => (r.callCounter + k) % 255 + 1
  | none => 1

/-- A record goes behind every record whose priority is at or above its own (R130). -/
def insertCall (k : Call) : List Call → List Call
  | [] => [k]
  | x :: xs => if k.priority ≤ x.priority then x :: insertCall k xs else k :: x :: xs

/-- R131: the record takes the offered call. -/
def mergeInto (r : Run) (o : CallOffer) (k : Call) : Call :=
  let added := if k.phase = .pass then setDiff (o.areas &&& availableAreas r) k.playing else 0
  let endless := k.repeats = 0 ∨ o.repeats = 0
  { k with
    areas := setUnion k.areas o.areas
    pending := setUnion k.pending added
    repeats := if endless then 0 else max k.repeats o.repeats
    remaining := if endless then 0 else max k.remaining o.repeats }

/-- A call that meets a record with its own origin and message (R131). -/
def Run.mergeCall (c : Tables) (r : Run) (o : CallOffer) (k : Call) : Run :=
  let k' := mergeInto r o k
  let r := r.modCall k.id fun _ => k'
  match k.phase with
  | .pass => Run.selectAreas c r k'.pending
  | .waiting => if k'.areas &&& availableAreas r = 0 then r else Run.beginPass c r k.id
  | .gap => r

/-- A new record enters the queue and begins its pass (R130 step 4, R129). -/
def Run.enterCall (c : Tables) (r : Run) (o : CallOffer) : Run × Nat :=
  let id := freeId r
  let k : Call :=
    { id, message := o.message, areas := o.areas, priority := o.priority, repeats := o.repeats,
      gap := o.gap, limit := o.limit, origin := o.origin, phase := .waiting,
      remaining := o.repeats, pending := 0, playing := 0, gapTimer := none }
  (Run.beginPass c ((r.setCallCounter id).setCalls (insertCall k r.calls)) id, id)

/-- What becomes of an offered call. -/
inductive CallResult where
  | entered (id : Nat)
  | merged (id : Nat)
  | refused (priority : Nat)
deriving DecidableEq, Repr

/-- An offered call is judged: merge, space, full queue, entry (R130, R132). CALL_REFUSED is the
caller's. -/
def Run.offerCall (c : Tables) (r : Run) (o : CallOffer) : Run × CallResult :=
  match r.calls.find? fun k => k.origin == o.origin && k.message == o.message with
  | some k => (Run.mergeCall c r o k, .merged k.id)
  | none =>
    if r.calls.length < Config.callCapacity then
      let e := Run.enterCall c r o
      (e.1, .entered e.2)
    else
      match r.calls.getLast? with
      | none => (r, .refused 0)
      | some last =>
        if last.priority < o.priority then
          let e := Run.enterCall c
            ((Run.removeCall c r last.id).raise .callEvicted last.id last.origin.code) o
          (e.1, .entered e.2)
        else (r, .refused last.priority)

/-- A call of an axis, a zone or a monitor: the id it holds, or none with CALL_REFUSED raised
(R132). -/
def Run.placeInternal (c : Tables) (r : Run) (o : CallOffer) : Run × Option Nat :=
  let p := Run.offerCall c r o
  match p.2 with
  | .entered id => (p.1, some id)
  | .merged id => (p.1, some id)
  | .refused _ => (p.1.raise .callRefused 0 o.origin.code, none)

/-- An internal originator withdraws its own call by its id; no event is raised (R135). -/
def Run.withdrawInternal (c : Tables) (r : Run) (id : Option Nat) : Run :=
  match id with
  | none => r
  | some id => Run.removeCall c r id

/-- WITHDRAW CALL of one record: removal and CALL_WITHDRAWN (R135). -/
def Run.withdrawByConsole (c : Tables) (r : Run) (k : Call) : Run :=
  (Run.removeCall c r k.id).raise .callWithdrawn k.id k.origin.code

/-! ### Amplifiers (R138, R139, R143) -/

/-- The areas that name an amplifier. -/
def areasNaming (c : Tables) (n : NodeId) : List (Fin 16) :=
  (List.finRange 16).filter fun i => (c.areas[i]).contains n

/-- Whether an amplifier of the area is LIVE. -/
def areaAlive (c : Tables) (r : Run) (area : Fin 16) : Bool :=
  (c.areas[area]).any fun n => (nodeRt r n).liveness == .live

/-- The ids of the records with the area in their pending set, in ascending order. -/
def idsOwing (r : Run) (area : Fin 16) : List Nat :=
  ((r.calls.filter fun k => setHas k.pending area.val).map (·.id)).insertionSort (· ≤ ·)

/-- The area leaves the pending set of every record; a record in PASS whose sets are now both
empty has its pass judged, in ascending call id (R143, R175). -/
def Run.dropArea (c : Tables) (r : Run) (area : Fin 16) : Run :=
  (idsOwing r area).foldl (Run.judgePass c) (r.setCalls (r.calls.map fun k =>
    { k with pending := setDiff k.pending (setOf area.val) }))

/-- The area becomes UNAVAILABLE (R143); a PLAYING area's play ends first (R140). -/
def Run.areaGone (c : Tables) (r : Run) (area : Fin 16) : Run :=
  let r :=
    if r.areas[area].state = .playing then
      let reach := (r.areas[area].awaited.map (·.node)).filter fun n =>
        (nodeRt r n).liveness == .live || (nodeRt r n).liveness == .missing
      Run.endPlay c (Run.stopPlays c r area reach) area .unavailable
    else r.modArea area fun x => x.silent .unavailable
  Run.dropArea c (r.raise .areaUnavailable area.val 0) area

/-- The area leaves UNAVAILABLE (R143): AREA_BACK unless the start mark is set; waiting calls
begin a pass, in queue order, which is the model's (log 49); the area is selected for. -/
def Run.areaBack (c : Tables) (r : Run) (area : Fin 16) : Run :=
  let mark := r.areas[area].startMark
  let r := r.modArea area fun x => { x with state := .idle, startMark := false }
  let r := if mark then r else r.raise .areaBack area.val 0
  let waiting := r.calls.filter fun k => k.phase == .waiting && setHas k.areas area.val
  let r := waiting.foldl (fun r k => Run.beginPass c r k.id) r
  Run.selectArea c r area

/-- The area's availability is judged (R143). -/
def Run.judgeArea (c : Tables) (r : Run) (area : Fin 16) : Run :=
  if areaAlive c r area then
    if r.areas[area].state = .unavailable then Run.areaBack c r area else r
  else
    if r.areas[area].state = .unavailable then r else Run.areaGone c r area

/-- A change of an amplifier's liveness is pushed for one area (R143). -/
def Run.ampChanged (c : Tables) (n : NodeId) (l : Liveness) (r : Run) (area : Fin 16) : Run :=
  let r := if l = .lost ∨ l = .unknown then Run.leaveAwaited c r area n else r
  Run.judgeArea c r area

/-- What an amplifier reply shows (section 12.4). -/
inductive AmpStatus where
  | idle
  | playing (message : Nat)
  | done (message : Nat)
deriving DecidableEq, Repr

/-- Step 1 of R139: an amplifier that returns playing is silenced. -/
def Run.silenceReturn (c : Tables) (n : NodeId) (before : Liveness) (st : AmpStatus) (r : Run)
    (area : Fin 16) : Run :=
  match st with
  | .playing _ =>
    if before = .unknown ∨ before = .lost then Run.offerStopPlay c r area n else r
  | .idle => r
  | .done _ => r

/-- Whether a reply ends the amplifier's part in the play (R139 step 2). -/
def endsPlay (x : AreaRt) (n : NodeId) (st : AmpStatus) : Bool :=
  x.state == .playing && x.awaited.any (fun w => w.node == n && w.armed) &&
    (match st with
     | .playing m => x.message != some m
     | .idle => true
     | .done _ => true)

/-- Steps 2 and 3 of R139. -/
def Run.ampReply (c : Tables) (n : NodeId) (st : AmpStatus) (r : Run) (area : Fin 16) : Run :=
  let r := if endsPlay r.areas[area] n st then Run.leaveAwaited c r area n else r
  if r.areas[area].state = .idle then Run.selectArea c r area else r

/-- The outcome of a completed frame (R56). -/
inductive Completion where
  | ok (code : Byte) (payload : List Byte)
  | noAnswer (attempts : Nat)
  | nodeLost
  | trunkDown
deriving DecidableEq, Repr

/-- The completion of a PLAY frame reaches the dispatcher (R138). -/
def Run.playCompleted (c : Tables) (r : Run) (area : Fin 16) (serial : Nat) (o : Completion) :
    Run :=
  match r.areas[area].awaited.find? fun w => w.serial == serial with
  | none => r
  | some w =>
    match o with
    | .ok _ _ =>
      r.modArea area fun x =>
        { x with awaited := x.awaited.map fun v =>
            if v.serial = serial then { v with armed := true } else v }
    | .noAnswer _ => Run.leaveAwaited c r area w.node
    | .nodeLost => r
    | .trunkDown => r

/-- The play timer expires: STOP_PLAY to the awaited amplifiers, then the play ends (R140). -/
def Run.playTimeout (c : Tables) (r : Run) (area : Fin 16) : Run :=
  Run.endPlay c (Run.stopPlays c r area (r.areas[area].awaited.map (·.node))) area .idle

end Sys2Proof.Machine
end

