-- ==== Sys2Proof/Machine/Axis.lean ====
section
/-! DEFINITION. The axis unit (chapter 4): starts, stops, halts, releases, drive and panel replies, the
control station, the motion call and the plan. -/

namespace Sys2Proof.Machine

/-- What a judged request is answered: an outcome and its detail. -/
abbrev Verdict := Code × Word

/-- Subject index and detail number of an axis, 1..6. -/
def axisNo (a : Fin 6) : Nat := a.val + 1

/-- Stage switching is on when both payloads are present (section 5.9). -/
def stageOn (x : AxisCfg) : Bool := x.lowPayload.isSome && x.highPayload.isSome

/-- The stored payload of a stage. -/
def stagePayload (x : AxisCfg) : Stage → List Byte
  | .low => x.lowPayload.getD []
  | .high => x.highPayload.getD []

/-! ### Frames to the drive (R79) -/

/-- UNLOCK offered to the drive; owed if refused (R73, R79). -/
def Run.offerUnlock (c : Tables) (r : Run) (a : Fin 6) : Run :=
  let o := Run.offerFrame c r c.axes[a].drive codeUnlock [] (.axis a .unlock)
  o.1.modAxis a fun x => { x with owed := { x.owed with unlock := o.2 != .accepted } }

/-- LOCK offered to the drive; owed if refused (R78, R79). -/
def Run.offerLock (c : Tables) (r : Run) (a : Fin 6) : Run :=
  let o := Run.offerFrame c r c.axes[a].drive codeLock [] (.axis a .lock)
  o.1.modAxis a fun x => { x with owed := { x.owed with lock := o.2 != .accepted } }

/-- STAGE offered with the payload of the current stage; an accepted offer takes STAGE out of the
owed set, a refused one puts it there (R79, R103). -/
def Run.offerStage (c : Tables) (r : Run) (a : Fin 6) : Run :=
  let o := Run.offerFrame c r c.axes[a].drive codeStage
    (stagePayload c.axes[a] r.axes[a].stage) (.axis a .stage)
  o.1.modAxis a fun x => { x with owed := { x.owed with stage := o.2 != .accepted } }

/-- The owed frames are offered again (R79), UNLOCK, then LOCK, then STAGE: the order within the set is
the model's (log 44). No STAGE frame is sent with stage switching off
(R103). -/
def Run.offerOwed (c : Tables) (r : Run) (a : Fin 6) : Run :=
  let r := if r.axes[a].owed.unlock then Run.offerUnlock c r a else r
  let r := if r.axes[a].owed.lock then Run.offerLock c r a else r
  if r.axes[a].owed.stage && stageOn c.axes[a] then Run.offerStage c r a else r

/-- DENY offered to the panel node; a refused one is dropped (R79, R87). -/
def Run.offerPanelDeny (c : Tables) (r : Run) (a : Fin 6) : Run :=
  match c.axes[a].panel with
  | none => r
  | some n => (Run.offerFrame c r n codeDeny [] (.axis a .deny)).1

/-- A frame of the axis unit is completed (R77, R78, R79): only NO_ANSWER makes a frame owed. -/
def Run.axisCompleted (r : Run) (a : Fin 6) (f : AxisFrame) (o : Completion) : Run :=
  match o with
  | .noAnswer _ =>
    r.modAxis a fun x =>
      match f with
      | .unlock =>
        if x.state = .unlocking then { x with owed := { x.owed with unlock := true } } else x
      | .lock =>
        if x.state = .locking then { x with owed := { x.owed with lock := true } } else x
      | .stage => { x with owed := { x.owed with stage := true } }
      | .deny => x
  | .ok _ _ => r
  | .nodeLost => r
  | .trunkDown => r

/-! ### The motion call (R89) -/

/-- The motion call is placed at a start from rest. -/
def Run.placeMotionCall (c : Tables) (r : Run) (a : Fin 6) : Run :=
  match c.axes[a].motionCall with
  | none => r
  | some k =>
    let p := Run.placeInternal c r
      { message := k.message, areas := k.areas, priority := k.priority, repeats := 0,
        gap := k.gap, limit := c.param.playLimit, origin := .axis a }
    p.1.modAxis a fun x => { x with callId := p.2 }

/-- The axis withdraws its call by its id; the call id becomes none. -/
def Run.withdrawMotionCall (c : Tables) (r : Run) (a : Fin 6) : Run :=
  (Run.withdrawInternal c r r.axes[a].callId).modAxis a fun x => { x with callId := none }

/-! ### The plan's end (R92) -/

/-- The step being carried out, while a plan runs. -/
def currentStep (r : Run) : Option PlanStep :=
  if r.plan.running then r.plan.steps[r.plan.current - 1]? else none

/-- Whether the axis is the current step axis of a running plan. -/
def isCurrentAxis (r : Run) (a : Fin 6) : Bool :=
  match currentStep r with
  | some s => s.axis == a
  | none => false

/-- A running plan ends: IDLE, its steps discarded, PLAN_ABORTED raised. -/
def Run.endPlan (r : Run) (cause : PlanEnd) : Run :=
  if r.plan.running then
    (r.setPlan { r.plan with running := false, steps := [] }).raise .planAborted 0
      (det2 r.plan.current cause.code)
  else r

/-- The plan ends if the axis is its current step axis. -/
def Run.endPlanOf (r : Run) (a : Fin 6) (cause : PlanEnd) : Run :=
  if isCurrentAxis r a then r.endPlan cause else r

/-! ### Halts (R80) -/

/-- Steps 1 to 4 of R80 in the axis record. -/
def AxisRt.halted (x : AxisRt) (cause : HaltCause) : AxisRt :=
  { x with
    state := .halted, causes := setOf cause.bit
    keepaliveTimer := none, lockTimer := none, controlTimer := none
    owed := { x.owed with unlock := false, lock := false }
    origin := .none, setPoint := none, sentDemand := 0 }

/-- Step 5 of R80: a HIGH stage becomes LOW with a STAGE frame. -/
def Run.haltStage (c : Tables) (r : Run) (a : Fin 6) : Run :=
  if stageOn c.axes[a] && r.axes[a].stage == .high then
    Run.offerStage c (r.modAxis a fun x => { x with stage := .low }) a
  else r

/-- A halt, from a state other than OFFLINE and HALTED (R80); a halt of the current step axis ends
the plan (R92). -/
def Run.haltFresh (c : Tables) (r : Run) (a : Fin 6) (cause : HaltCause) : Run :=
  let r := r.modAxis a fun x => x.halted cause
  let r := Run.holdNode c r c.axes[a].drive
  let r := Run.haltStage c r a
  let r := Run.withdrawMotionCall c r a
  (r.raise .axisHalted (axisNo a) (det cause.code)).endPlanOf a .halt

/-- An axis halts (R80). -/
def Run.halt (c : Tables) (r : Run) (a : Fin 6) (cause : HaltCause) : Run :=
  match r.axes[a].state with
  | .offline => r
  | .halted =>
    (r.modAxis a fun x => { x with causes := setUnion x.causes (setOf cause.bit) }).raise
      .axisHalted (axisNo a) (det cause.code)
  | .locked | .unlocking | .still | .moving | .stopping | .locking =>
    Run.haltFresh c r a cause

/-- Every axis in motion, and every HALTED one, that satisfies a test halts with the cause, in
ascending axis number (R81). -/
def Run.haltWhere (c : Tables) (r : Run) (cause : HaltCause) (p : Fin 6 → Bool) : Run :=
  (List.finRange 6).foldl
    (fun r a =>
      if p a && (r.axes[a].state.inMotion || r.axes[a].state == .halted) then
        Run.halt c r a cause
      else r) r

/-- ESTOP becomes active (R81). -/
def Run.estopPushed (c : Tables) (r : Run) : Run := Run.haltWhere c r .estop fun _ => true

/-- A zone's fire flag becomes set while its override is clear (R81). -/
def Run.firePushed (c : Tables) (r : Run) (z : Fin 8) : Run :=
  if r.zones[z].override then r
  else Run.haltWhere c r .fire fun a => c.axes[a].zone == some z

/-! ### Prerequisites of other axes (R83) -/

/-- The axis has a prerequisite on `other` that is not satisfied. -/
def prereqFails (c : Tables) (r : Run) (a other : Fin 6) : Bool :=
  (namesAxis c.axes[a].prereq1 other && !prereqMet r c.axes[a].prereq1) ||
    (namesAxis c.axes[a].prereq2 other && !prereqMet r c.axes[a].prereq2)

/-- An axis in MOVING or STOPPING halts with PREREQ when a prerequisite of it on another axis of the
list is unsatisfied (R83): once, whichever fail (log 46). -/
def Run.judgePrereq (c : Tables) (others : List (Fin 6)) (r : Run) (b : Fin 6) : Run :=
  if (r.axes[b].state == .moving || r.axes[b].state == .stopping)
      && others.any (fun a => b != a && prereqFails c r b a) then
    Run.halt c r b .prereq
  else r

/-- Every axis in MOVING or STOPPING with a prerequisite on another axis of the list is judged, in
ascending axis number (R83, R175). -/
def Run.judgeOthers (c : Tables) (r : Run) (others : List (Fin 6)) : Run :=
  (List.finRange 6).foldl (Run.judgePrereq c others) r

/-! ### OFFLINE (R85) -/

/-- What R85 clears and stops in the axis record. -/
def AxisRt.offlined (x : AxisRt) (stageSwitching : Bool) : AxisRt :=
  { x with
    wasActive := x.state.inMotion || x.state == .halted
    state := .offline, causes := 0
    keepaliveTimer := none, lockTimer := none, controlTimer := none
    origin := .none, owed := { unlock := false, lock := false, stage := stageSwitching }
    sentDemand := 0, stage := .low, setPoint := none }

/-- The drive node becomes LOST or UNKNOWN (R85). The plan ends here, before the PREREQ halts of
other axes, which the push of the loss adds behind it (R83, log 45). -/
def Run.axisOffline (c : Tables) (r : Run) (a : Fin 6) : Run :=
  let r := r.modAxis a fun x => x.offlined (stageOn c.axes[a])
  (Run.withdrawMotionCall c r a).endPlanOf a .offline

/-! ### Starting a move (R72, R73) -/

/-- The first failing condition of step 5 of R72, by its detail. -/
def moveInterlock (c : Tables) (r : Run) (a : Fin 6) : Option Nat :=
  if estopActive r then some 1
  else if fireHolds c r a then some 2
  else if !prereqMet r c.axes[a].prereq1 then some 3
  else if !prereqMet r c.axes[a].prereq2 then some 4
  else if effectiveDerate r a = 0 then some 6
  else none

/-- Steps 2 to 5 of R72: the refusal, if there is one. -/
def moveJudge (c : Tables) (r : Run) (a : Fin 6) : Option Verdict :=
  if serviceMode r then some (.interlock, det 5)
  else if r.axes[a].control = .localPanel then some (.state, det 8)
  else
    match r.axes[a].state with
    | .offline | .unlocking | .locking | .halted => some (.state, det r.axes[a].state.code)
    | .locked | .still | .moving | .stopping =>
      (moveInterlock c r a).map fun k => (.interlock, det k)

/-- Step 6 of R72: the target brought inside the travel limits. -/
def clampTarget (x : AxisCfg) (t : Int) : Int := max x.posMin (min x.posMax t)

/-- The record of a started or retargeted move. -/
def AxisRt.aimed (x : AxisRt) (target : Int) (lockAtEnd : Bool) (origin : MoveOrigin)
    (keepalive : Nat) : AxisRt :=
  { x with target, lockAtEnd, origin, keepaliveTimer := some (ms keepalive) }

/-- The record of a start from rest: sent demand 0, overload noted no (R73, R102). -/
def AxisRt.fresh (x : AxisRt) (s : AxisState) (lock control : Timer) : AxisRt :=
  { x with state := s, sentDemand := 0, overloadNoted := false, lockTimer := lock,
           controlTimer := control }

/-- An accepted MOVE, panel start or plan step start is carried out (R73). -/
def Run.startMove (c : Tables) (r : Run) (a : Fin 6) (target : Int) (lockAtEnd : Bool)
    (origin : MoveOrigin) : Run :=
  let aim := fun (x : AxisRt) => x.aimed target lockAtEnd origin c.axes[a].keepalive
  match r.axes[a].state with
  | .locked =>
    let r := r.modAxis a fun x =>
      (aim x).fresh .unlocking (some (sec c.axes[a].lockTimeout)) x.controlTimer
    Run.placeMotionCall c (Run.offerUnlock c r a) a
  | .still =>
    let r := r.modAxis a fun x =>
      (aim x).fresh .moving x.lockTimer (some (ms c.axes[a].controlPeriod))
    Run.placeMotionCall c r a
  | .moving => r.modAxis a aim
  | .stopping => r.modAxis a fun x => { aim x with state := .moving }
  | .offline | .unlocking | .locking | .halted => r

/-! ### Plan steps (R91) -/

/-- A plan step is started as an internal MOVE; the refusal is the first component's absence. -/
def Run.startStep (c : Tables) (r : Run) (s : PlanStep) : Run × Option Verdict :=
  match moveJudge c r s.axis with
  | some v => (r, some v)
  | none =>
    (Run.startMove c r s.axis (clampTarget c.axes[s.axis] s.target) s.lockAtEnd .bridge, none)

/-- The plan's next step starts, or the plan is done (R91); a refused start ends it (R92). -/
def Run.advancePlan (c : Tables) (r : Run) : Run :=
  let next := r.plan.current + 1
  match r.plan.steps[r.plan.current]? with
  | none =>
    (r.setPlan { r.plan with running := false }).raise .planDone 0 (det r.plan.steps.length)
  | some s =>
    let o := Run.startStep c (r.setPlan { r.plan with current := next }) s
    match o.2 with
    | none => o.1
    | some _ => o.1.endPlan .refused

/-- The current step is done when its axis raises MOVE_DONE (R91). -/
def Run.stepDone (c : Tables) (r : Run) (a : Fin 6) : Run :=
  match currentStep r with
  | none => r
  | some s =>
    if s.axis = a then
      Run.advancePlan c
        (if s.notify then r.raise .stepDone 0 (det2 r.plan.current (axisNo a)) else r)
    else r

/-- The latest position, 0 before a first reply. -/
def latestPosition (x : AxisRt) : Int :=
  match x.latest with
  | some d => d.position
  | none => 0

/-- A move is done: MOVE_DONE, the motion call withdrawn, the plan advanced (R78, R91). -/
def Run.moveDone (c : Tables) (r : Run) (a : Fin 6) : Run :=
  let r := r.raise .moveDone (axisNo a) (detInt (latestPosition r.axes[a]))
  Run.stepDone c (Run.withdrawMotionCall c r a) a

/-! ### STOP (R74) -/

/-- The axis comes to STILL by STOP: MOVE_ENDED with cause 1, the motion call withdrawn. -/
def Run.endedByStop (c : Tables) (r : Run) (a : Fin 6) : Run :=
  Run.withdrawMotionCall c (r.raise .moveEnded (axisNo a) (det 1)) a

/-- A move is stopped (R74); a stop of the current step axis ends the plan (R92, log 20). -/
def Run.stopAxis (c : Tables) (r : Run) (a : Fin 6) : Run :=
  match r.axes[a].state with
  | .moving =>
    let r := r.endPlanOf a .stop
    if r.axes[a].sentDemand = 0 then
      Run.endedByStop c
        (r.modAxis a fun x =>
          { x with state := .still, keepaliveTimer := none, controlTimer := none,
                   setPoint := none }) a
    else r.modAxis a fun x => { x with state := .stopping, keepaliveTimer := none }
  | .unlocking =>
    let r := r.endPlanOf a .stop
    Run.endedByStop c
      (r.modAxis a fun x =>
        { x with state := .still, keepaliveTimer := none, lockTimer := none,
                 owed := { x.owed with unlock := false } }) a
  | .offline | .locked | .still | .stopping | .locking | .halted => r

/-! ### The drive reply (R70) -/

/-- A drive reply, read when it holds the five bytes of its layout (12.4, R184). -/
def driveStatus : List Byte → Option DriveStatus
  | p1 :: p2 :: q1 :: q2 :: f :: _ =>
    some { position := int2 p1 p2, pressure := (word2 q1 q2).toNat, flags := f }
  | _ => none

/-- LOCKED when the locks are engaged, STILL otherwise. -/
def restState (engaged : Bool) : AxisState := if engaged then .locked else .still

/-- Step 1 of R70: the record, and the way out of OFFLINE (R67, R85). -/
def Run.recordReply (c : Tables) (r : Run) (a : Fin 6) (d : DriveStatus) : Run :=
  let r := r.modAxis a fun x => { x with latest := some d }
  if r.axes[a].state = .offline && c.axes[a].configured then
    let was := r.axes[a].wasActive
    let r := r.modAxis a fun x =>
      { x with state := restState d.locksEngaged, wasActive := false }
    if was then Run.halt c r a .node else r
  else r

/-- One drive flag that has turned active is judged (R82, log 19). -/
def Run.judgeFlag (c : Tables) (r : Run) (a : Fin 6) (k : Nat) : Run :=
  let r := if maskHas c.axes[a].haltMask k then Run.halt c r a .driveFlag else r
  if maskHas c.axes[a].noteMask k then r.raise .driveNote (axisNo a) (det k) else r

/-- Step 2 of R70: the flags in `turned`, in ascending index (R82). -/
def Run.judgeFlags (c : Tables) (r : Run) (a : Fin 6) (turned : BitVec 8) : Run :=
  (List.range 8).foldl (fun r k => if setHas turned k then Run.judgeFlag c r a k else r) r

/-- Step 3 of R70: overload (R104). -/
def Run.judgeOverload (c : Tables) (r : Run) (a : Fin 6) (pressure : Nat) : Run :=
  if r.axes[a].state.inMotion && decide (c.axes[a].overloadLimit < pressure) then
    if c.axes[a].stallVelocity < r.axes[a].sentDemand.natAbs then Run.halt c r a .overload
    else if r.axes[a].overloadNoted then r
    else
      (r.modAxis a fun x => { x with overloadNoted := true }).raise .overloadNote (axisNo a)
        (det pressure)
  else r

/-- The locks are released: UNLOCKING becomes MOVING and both prerequisites are judged (R77); the axis
halts with PREREQ once, also when both are unsatisfied (log 46). -/
def Run.locksReleased (c : Tables) (r : Run) (a : Fin 6) : Run :=
  let r := r.modAxis a fun x =>
    { x with state := .moving, lockTimer := none, owed := { x.owed with unlock := false },
             sentDemand := 0, controlTimer := some (ms c.axes[a].controlPeriod) }
  if prereqsMet c r a then r else Run.halt c r a .prereq

/-- Step 4 of R70: the lock flags (R77, R78, R69). -/
def Run.judgeLocks (c : Tables) (r : Run) (a : Fin 6) (d : DriveStatus) : Run :=
  match r.axes[a].state with
  | .unlocking =>
    if d.locksReleased && !d.locksEngaged then Run.locksReleased c r a else r
  | .locking =>
    if d.locksEngaged then
      Run.moveDone c
        (r.modAxis a fun x =>
          { x with state := .locked, lockTimer := none, owed := { x.owed with lock := false } }) a
    else r
  | .locked | .still => r.modAxis a fun x => { x with state := restState d.locksEngaged }
  | .offline | .moving | .stopping | .halted => r

/-- The flags before the reply: none counts as active at the first reply after OFFLINE (R82). -/
def flagsBefore (x : AxisRt) : BitVec 8 := if x.state = .offline then 0 else latestFlags x

/-- A good reply from the axis's drive node (R70). -/
def Run.driveReply (c : Tables) (r : Run) (a : Fin 6) (d : DriveStatus) : Run :=
  let turned := setDiff d.flags (flagsBefore r.axes[a])
  let r := Run.recordReply c r a d
  let r := Run.judgeFlags c r a turned
  let r := Run.judgeOverload c r a d.pressure
  let r := Run.judgeLocks c r a d
  let r := Run.judgeOthers c r [a]
  Run.offerOwed c r a

/-! ### The local panel (R87) -/

/-- The panel command a panel reply gives; nothing when the payload is too short (R184). -/
def panelCommand : List Byte → Option PanelCommand
  | b :: _ =>
    some (match b.getLsbD 0, b.getLsbD 1 with
      | true, false => .raise
      | false, true => .lower
      | true, true => .none
      | false, false => .none)
  | [] => none

/-- The move origin of a panel command. -/
def PanelCommand.origin : PanelCommand → MoveOrigin
  | .none => .none
  | .raise => .panelRaise
  | .lower => .panelLower

/-- A panel start: toward pos_max or pos_min, or DENY when step 5 of R72 refuses it (R87). -/
def Run.panelStart (c : Tables) (r : Run) (a : Fin 6) (p : PanelCommand) : Run :=
  match moveInterlock c r a with
  | some _ => Run.offerPanelDeny c r a
  | none =>
    Run.startMove c r a (if p = .raise then c.axes[a].posMax else c.axes[a].posMin) false p.origin

/-- Whether the axis is in a panel move that a released button stops. -/
def inPanelMove (x : AxisRt) : Bool :=
  (x.state == .unlocking || x.state == .moving)
    && (x.origin == .panelRaise || x.origin == .panelLower)

/-- A good reply from the axis's panel node (R87). -/
def Run.panelReply (c : Tables) (r : Run) (a : Fin 6) (p : PanelCommand) : Run :=
  let x := r.axes[a]
  let edge := p != .none && p != x.panel
  let r :=
    if x.control = .localPanel && x.state.atRest then
      if edge then Run.panelStart c r a p else r
    else if x.control = .localPanel && inPanelMove x then
      if p.origin = x.origin then
        r.modAxis a fun x => { x with keepaliveTimer := some (ms c.axes[a].keepalive) }
      else Run.stopAxis c r a
    else if edge then Run.offerPanelDeny c r a
    else r
  r.modAxis a fun x => { x with panel := p }

/-- The panel node becomes LOST or UNKNOWN (R85). -/
def Run.panelLost (c : Tables) (r : Run) (a : Fin 6) : Run :=
  let r := r.modAxis a fun x => { x with panel := .none }
  if inPanelMove r.axes[a] then Run.stopAxis c r a else r

/-! ### Service mode (R88) -/

/-- A configured axis under BRIDGE takes LOCAL, with its event. -/
def Run.forceLocal (c : Tables) (r : Run) (a : Fin 6) : Run :=
  if c.axes[a].configured && r.axes[a].control == .bridge then
    (r.modAxis a fun x => { x with control := .localPanel }).raise .controlChange (axisNo a)
      (det 1)
  else r

/-- A bridge move in UNLOCKING or MOVING is stopped as by STOP. -/
def Run.stopBridgeMove (c : Tables) (r : Run) (a : Fin 6) : Run :=
  if r.axes[a].origin = .bridge then Run.stopAxis c r a else r

/-- Service mode turns on (R88). -/
def Run.serviceOn (c : Tables) (r : Run) : Run :=
  let r := r.endPlan .service
  let r := (List.finRange 6).foldl (Run.forceLocal c) r
  (List.finRange 6).foldl (Run.stopBridgeMove c) r

/-! ### Requests (R72 to R76, R84, R86, R90 to R92) -/

/-- Whether the running plan names the axis in its current step or a later one (R72 step 1). -/
def planNames (r : Run) (a : Fin 6) : Bool :=
  r.plan.running && (r.plan.steps.drop (r.plan.current - 1)).any fun s => s.axis == a

/-- MOVE (R72). -/
def Run.requestMove (c : Tables) (r : Run) (a : Fin 6) (target : Int) (lockAtEnd : Bool) :
    Run × Verdict :=
  if planNames r a then (r, .busy, det r.plan.current)
  else
    match moveJudge c r a with
    | some v => (r, v)
    | none =>
      let t := clampTarget c.axes[a] target
      (Run.startMove c r a t lockAtEnd .bridge,
        if t = target then (.ok, 0) else (.clamped, det 1))

/-- STOP (R74): OK in every state. -/
def Run.requestStop (c : Tables) (r : Run) (a : Fin 6) : Run × Verdict :=
  (Run.stopAxis c r a, .ok, 0)

/-- KEEP (R75). -/
def Run.requestKeep (c : Tables) (r : Run) (a : Fin 6) : Run × Verdict :=
  match r.axes[a].state with
  | .unlocking | .moving =>
    if r.axes[a].origin = .bridge then
      (r.modAxis a fun x => { x with keepaliveTimer := some (ms c.axes[a].keepalive) }, .ok, 0)
    else (r, .state, det 8)
  | .stopping | .locking => (r, .ok, 0)
  | .offline | .locked | .still | .halted => (r, .state, det r.axes[a].state.code)

/-- Whether the condition of a cause lets RELEASE clear it (R84). -/
def causeClears (c : Tables) (r : Run) (a : Fin 6) : HaltCause → Bool
  | .estop => !estopActive r
  | .fire => !fireHolds c r a
  | .node => (nodeRt r c.axes[a].drive).liveness == .live
  | .overload =>
    match r.axes[a].latest with
    | some d => decide (d.pressure ≤ c.axes[a].overloadLimit)
    | none => true
  | .driveFlag => (List.range 8).all fun k =>
      !(maskHas c.axes[a].haltMask k && setHas (latestFlags r.axes[a]) k)
  | .prereq => prereqsMet c r a
  | .keepalive | .unlockTimeout | .lockTimeout => true

/-- Every halt cause, in the order of its code. -/
def allCauses : List HaltCause :=
  [.estop, .fire, .node, .overload, .driveFlag, .keepalive, .unlockTimeout, .lockTimeout, .prereq]

/-- The causes of the set that RELEASE leaves (R84). -/
def causesLeft (c : Tables) (r : Run) (a : Fin 6) : BitVec 9 :=
  allCauses.foldl
    (fun s k => if causeClears c r a k then setDiff s (setOf k.bit) else s) r.axes[a].causes

/-- RELEASE (R84). -/
def Run.requestRelease (c : Tables) (r : Run) (a : Fin 6) : Run × Verdict :=
  match r.axes[a].state with
  | .halted =>
    let left := causesLeft c r a
    if left = 0 then
      ((r.modAxis a fun x =>
          { x with causes := 0, state := restState (latestEngaged x) }).raise .axisReleased
        (axisNo a) 0, .ok, 0)
    else (r.modAxis a fun x => { x with causes := left }, .interlock, left.zeroExtend 16)
  | .offline | .locked | .unlocking | .still | .moving | .stopping | .locking =>
    (r, .state, det r.axes[a].state.code)

/-- The control station changes, with its event (R86). -/
def Run.setControl (r : Run) (a : Fin 6) (k : Control) : Run :=
  if r.axes[a].control = k then r
  else (r.modAxis a fun x => { x with control := k }).raise .controlChange (axisNo a) (det k.code)

/-- TAKE (R86). -/
def Run.requestTake (r : Run) (a : Fin 6) : Run × Verdict :=
  if serviceMode r then (r, .interlock, det 5)
  else if r.axes[a].state.inMotion then (r, .busy, det r.axes[a].state.code)
  else (r.setControl a .bridge, .ok, 0)

/-- GRANT_LOCAL (R86). -/
def Run.requestGrant (c : Tables) (r : Run) (a : Fin 6) : Run × Verdict :=
  if c.axes[a].panel.isNone then (r, .state, det 9)
  else if r.axes[a].state.inMotion then (r, .busy, det r.axes[a].state.code)
  else (r.setControl a .localPanel, .ok, 0)

/-- DERATE (R76). -/
def Run.requestDerate (r : Run) (a : Fin 6) (value : Nat) : Run × Verdict :=
  (r.modAxis a fun x => { x with bridgeDerate := min 256 value },
    if value ≤ 256 then (.ok, 0) else (.clamped, det 1))

/-- The index, from 1, of the first step whose axis is under LOCAL (R90 step 4). -/
def firstLocalStep (r : Run) (steps : List PlanStep) : Option Nat :=
  (steps.findIdx? fun s => r.axes[s.axis].control == .localPanel).map (· + 1)

/-- PLAN START after its form (R90). -/
def Run.requestPlanStart (c : Tables) (r : Run) (steps : List PlanStep) : Run × Verdict :=
  if r.plan.running then (r, .busy, det r.plan.current)
  else if serviceMode r then (r, .interlock, det 5)
  else
    match firstLocalStep r steps with
    | some k => (r, .interlock, det k)
    | none =>
      match steps with
      | [] => (r, .badRequest, det 1)
      | s :: _ =>
        let o := Run.startStep c r s
        match o.2 with
        | some v => (r, v)
        | none => (o.1.setPlan { running := true, steps, current := 1 }, .ok, 0)

/-- PLAN KEEP (R91). -/
def Run.requestPlanKeep (c : Tables) (r : Run) : Run × Verdict :=
  match currentStep r with
  | none => (r, .state, 0)
  | some s =>
    (r.modAxis s.axis fun x =>
      if x.state = .unlocking ∨ x.state = .moving then
        { x with keepaliveTimer := some (ms c.axes[s.axis].keepalive) }
      else x, .ok, 0)

/-- PLAN CANCEL (R92). -/
def Run.requestPlanCancel (c : Tables) (r : Run) : Run × Verdict :=
  match currentStep r with
  | none => (r, .state, 0)
  | some s => (Run.stopAxis c (r.endPlan .cancel) s.axis, .ok, 0)

/-! ### Expiries -/

/-- The keep-alive timer expires (R75): the axis halts in UNLOCKING or MOVING. -/
def Run.keepaliveExpired (c : Tables) (r : Run) (a : Fin 6) : Run :=
  let r := r.modAxis a fun x => { x with keepaliveTimer := none }
  match r.axes[a].state with
  | .unlocking | .moving => Run.halt c r a .keepalive
  | .offline | .locked | .still | .stopping | .locking | .halted => r

/-- The lock timer expires (R77, R78). -/
def Run.lockExpired (c : Tables) (r : Run) (a : Fin 6) : Run :=
  let r := r.modAxis a fun x => { x with lockTimer := none }
  match r.axes[a].state with
  | .unlocking => Run.halt c r a .unlockTimeout
  | .locking => Run.halt c r a .lockTimeout
  | .offline | .locked | .still | .moving | .stopping | .halted => r

end Sys2Proof.Machine
end

