-- ==== Sys2Proof/Machine/SetPoint.lean ====
section
/-! DEFINITION. The set-point computation (chapter 5): profile, creep, derate, approach, slew, end of
slew, emit and stage. -/

namespace Sys2Proof.Machine

/-- The breakpoints of an axis, from breakpoint 0 to the last entry in use (section 5.1). -/
def breakpoints (c : Tables) (a : Fin 6) : List Breakpoint :=
  ((List.finRange 8).map fun (k : Fin 8) =>
    c.profiles[(⟨8 * a.val + k.val, by omega⟩ : Fin 48)]).takeWhile (·.isSome)
    |>.filterMap id

/-- The speed on the segment from `p` to `q`; the division truncates toward zero (R95). -/
def segmentSpeed (p q : Breakpoint) (pos : Int) : Int :=
  p.speed + Int.tdiv (((q.speed : Int) - p.speed) * (pos - p.position)) (q.position - p.position)

/-- The speed at a position inside the span: on the first segment whose end is not below it
(R95). -/
def speedAt (pos : Int) : List Breakpoint → Int
  | [] => 0
  | [p] => p.speed
  | p :: q :: rest => if pos ≤ q.position then segmentSpeed p q pos else speedAt pos (q :: rest)

/-- The position clamped into the profile's span (R95). -/
def clampSpan (l : List Breakpoint) (pos : Int) : Int :=
  match l.head?, l.getLast? with
  | some p, some q => max p.position (min q.position pos)
  | _, _ => pos

/-- V_p, the speed the profile allows at a position (R95). -/
def profileSpeed (l : List Breakpoint) (pos : Int) : Int := speedAt (clampSpan l pos) l

/-- Whether the creep limit applies (R96). -/
def creeping (x : AxisCfg) (service : Bool) (pos target : Int) : Bool :=
  (decide (0 < target - pos) && decide (x.posMax - pos < x.creepDistance)) ||
    (decide (target - pos < 0) && decide (pos - x.posMin < x.creepDistance)) || service

/-- The creep stage (R96). -/
def creepSpeed (x : AxisCfg) (service : Bool) (pos target v : Int) : Int :=
  if creeping x service pos target then min v x.vCreep else v

/-- The derate stage: v_cap, rounded down and at most v_max (R97). -/
def capSpeed (x : AxisCfg) (derate : Nat) (v : Int) : Int :=
  min (v * derate / 256) x.vMax

/-- The axis has arrived: |E| at or below the deadband (R98). -/
def arrived (x : AxisCfg) (pos target : Int) : Bool := decide ((target - pos).natAbs ≤ x.deadband)

/-- s_want: the lesser of v_cap and v_app, with the sign of E (R98). -/
def wantedDemand (x : AxisCfg) (pos target cap : Int) : Int :=
  let e := target - pos
  let app : Int := (e.natAbs * x.kp / 16 : Nat)
  let want := min cap app
  if e < 0 then -want else want

/-- The slew stage: s_want within one acceleration step of s_ref (R99). -/
def slewDemand (acc : Nat) (sRef sWant : Int) : Int :=
  max (sRef - acc) (min (sRef + acc) sWant)

/-- v_cap as the chain of R95 to R97 gives it at this expiry (R94). -/
def cappedSpeed (c : Tables) (r : Run) (a : Fin 6) : Int :=
  let x := c.axes[a]
  let pos := latestPosition r.axes[a]
  let target := r.axes[a].target
  capSpeed x (effectiveDerate r a)
    (creepSpeed x (serviceMode r) pos target (profileSpeed (breakpoints c a) pos))

/-- The stage switch is judged on a written demand (R103). -/
def Run.judgeStage (c : Tables) (r : Run) (a : Fin 6) (demand : Int) : Run :=
  if stageOn c.axes[a] then
    match r.axes[a].stage with
    | .low =>
      if c.axes[a].stageUp ≤ demand.natAbs then
        Run.offerStage c (r.modAxis a fun x => { x with stage := .high }) a
      else r
    | .high =>
      if demand.natAbs < c.axes[a].stageDown then
        Run.offerStage c (r.modAxis a fun x => { x with stage := .low }) a
      else r
  else r

/-- The emit and stage stages (R101, R103). -/
def Run.emitDemand (c : Tables) (r : Run) (a : Fin 6) (demand : Int) : Run :=
  Run.judgeStage c (Run.writeSetPoint c r a demand) a demand

/-- The axis goes on from arrival (R78). -/
def Run.arrive (c : Tables) (r : Run) (a : Fin 6) : Run :=
  let r := Run.emitDemand c r a 0
  let r := r.modAxis a fun x => { x with controlTimer := none, keepaliveTimer := none }
  if r.axes[a].lockAtEnd then
    Run.offerLock c
      (r.modAxis a fun x =>
        { x with state := .locking, lockTimer := some (sec c.axes[a].lockTimeout) }) a
  else Run.moveDone c (r.modAxis a fun x => { x with state := .still }) a

/-- A slew to zero ends the move at STILL: MOVE_ENDED with the cause, the motion call withdrawn
(R100). -/
def Run.endSlew (c : Tables) (r : Run) (a : Fin 6) (cause : Nat) : Run :=
  let r := r.modAxis a fun x =>
    { x with state := .still, controlTimer := none, keepaliveTimer := none }
  let r := Run.withdrawMotionCall c (r.raise .moveEnded (axisNo a) (det cause)) a
  if cause = 2 then r.endPlanOf a .derate else r

/-- The control timer starts again with the control period (R73). -/
def Run.restartControl (c : Tables) (r : Run) (a : Fin 6) : Run :=
  r.modAxis a fun x => { x with controlTimer := some (ms c.axes[a].controlPeriod) }

/-- The computation in STOPPING (R94, R98, R100). -/
def Run.computeStopping (c : Tables) (r : Run) (a : Fin 6) : Run :=
  let sNew := slewDemand c.axes[a].acc r.axes[a].sentDemand 0
  let r := if sNew = 0 then Run.endSlew c r a 1 else Run.restartControl c r a
  Run.emitDemand c r a sNew

/-- The computation in MOVING past the approach stage (R99 to R103). -/
def Run.computeSlew (c : Tables) (r : Run) (a : Fin 6) : Run :=
  let cap := cappedSpeed c r a
  let sWant := wantedDemand c.axes[a] (latestPosition r.axes[a]) r.axes[a].target cap
  let sNew := slewDemand c.axes[a].acc r.axes[a].sentDemand sWant
  let r := if cap = 0 ∧ sNew = 0 then Run.endSlew c r a 2 else Run.restartControl c r a
  Run.emitDemand c r a sNew

/-- The set-point computation, at an expiry of the control timer (R94). -/
def Run.controlExpired (c : Tables) (r : Run) (a : Fin 6) : Run :=
  let r := r.modAxis a fun x => { x with controlTimer := none }
  match r.axes[a].state with
  | .stopping => Run.computeStopping c r a
  | .moving =>
    if arrived c.axes[a] (latestPosition r.axes[a]) r.axes[a].target then Run.arrive c r a
    else Run.computeSlew c r a
  | .offline | .locked | .unlocking | .still | .locking | .halted => r

end Sys2Proof.Machine
end

