-- ==== Sys2Proof/Machine/Doors.lean ====
section
/-! DEFINITION. The door sequencer (chapter 6): door commands, closures and fire flags, door replies,
obstructions, transits, and the requests on zones and doors. Zone states are derived and judged
when the event has been dealt with (R109, `judgeZones`). -/

namespace Sys2Proof.Machine

/-! ### Door commands (R115, R116) -/

/-- The frame of a pending command, if there is one. -/
def DoorPending.frame : DoorPending → Option DoorFrame
  | .none => Option.none
  | .opened => some .opened
  | .close => some .close
  | .stop => some .stop

def DoorFrame.code : DoorFrame → Byte
  | .opened => codeDoorOpen
  | .close => codeDoorClose
  | .stop => codeDoorStop
  | .deny => codeDeny

/-- The pending command a frame leaves when it is refused QUEUE_FULL. -/
def DoorFrame.pending : DoorFrame → DoorPending
  | .opened => .opened
  | .close => .close
  | .stop => .stop
  | .deny => .none

/-- A door frame is issued (R115): accepted or lost it leaves nothing pending, refused QUEUE_FULL
it becomes the pending command. -/
def Run.issueDoor (c : Tables) (r : Run) (d : Fin 32) (f : DoorFrame) : Run :=
  let o := Run.offerFrame c r c.doors[d].node f.code [] (.door d f)
  o.1.modDoor d fun x =>
    { x with pending := if o.2 = .queueFull then f.pending else .none }

/-- DENY is offered; a refused one is dropped (R115). -/
def Run.offerDoorDeny (c : Tables) (r : Run) (d : Fin 32) : Run :=
  (Run.offerFrame c r c.doors[d].node codeDeny [] (.door d .deny)).1

/-- The pending command of one door is offered again (R115). -/
def Run.offerPending (c : Tables) (r : Run) (d : Fin 32) : Run :=
  match r.doors[d].pending.frame with
  | some f => Run.issueDoor c r d f
  | none => r

/-- A transaction has ended on the trunk: its doors' pending commands are offered again, in
ascending door index (R48 step 3, R115). -/
def Run.offerDoorsOf (c : Tables) (r : Run) (t : Fin 4) : Run :=
  (List.finRange 32).foldl
    (fun r d => if c.doors[d].node.trunk = t then Run.offerPending c r d else r) r

/-- The state a door frame serves (R116). -/
def DoorFrame.serves : DoorFrame → DoorState → Bool
  | .close, s => s == .closing
  | .opened, s => s == .opening
  | .stop, s => s == .obstructed
  | .deny, _ => false

/-- A door frame is completed (R116). -/
def Run.doorCompleted (r : Run) (d : Fin 32) (f : DoorFrame) (o : Completion) : Run :=
  match o with
  | .noAnswer _ =>
    r.modDoor d fun x =>
      if f.serves x.state && x.pending == .none then { x with pending := f.pending } else x
  | .ok _ _ => r
  | .nodeLost => r
  | .trunkDown => r

/-! ### Closing and opening -/

/-- The record of a fresh close (R112). -/
def DoorRt.freshClose (x : DoorRt) (timeout : Nat) : DoorRt :=
  { x with state := .closing, retriesUsed := 0, transitMark := false,
           timer := some (.move, sec timeout) }

/-- A fresh close of a door (R112). -/
def Run.freshClose (c : Tables) (r : Run) (d : Fin 32) : Run :=
  Run.issueDoor c (r.modDoor d fun x => x.freshClose c.doors[d].closeTimeout) d .close

/-- A door becomes OPENING outside a transit (R123, R124). -/
def Run.openDoor (c : Tables) (r : Run) (d : Fin 32) : Run :=
  Run.issueDoor c
    (r.modDoor d fun x =>
      { x with state := .opening, transitMark := false, retriesUsed := 0,
               timer := some (.move, sec c.doors[d].closeTimeout) }) d .opened

/-- The latest local fault flag, clear before a first reply. -/
def localFault (x : DoorRt) : Bool :=
  match x.latest with
  | some d => d.localFault
  | none => false

/-- A door becomes FAULT with its event (R117, R120). -/
def Run.faultDoor (r : Run) (d : Fin 32) (cause : Nat) : Run :=
  (r.modDoor d fun x => { x with state := .fault, timer := none }).raise .doorFault d.val
    (det cause)

/-! ### Closures (R110 to R113) -/

/-- Whether R112's table gives the door a fresh close at the warning expiry. -/
def closesAtWarning (x : DoorRt) : Bool :=
  match x.state with
  | .opened => true
  | .opening => !x.transitMark
  | .fault => !localFault x
  | .transit | .closing | .obstructed | .closed | .offline => false

/-- The warning expires: the timer stops and the member doors are dealt with (R112). -/
def Run.warningExpired (c : Tables) (r : Run) (z : Fin 8) : Run :=
  (memberDoors c z).foldl
    (fun r d => if closesAtWarning r.doors[d] then Run.freshClose c r d else r)
    (r.modZone z fun x => { x with warningTimer := none })

/-- A warning started with no time expires at the event itself (R110, log 23). -/
def Run.warningIfNone (c : Tables) (r : Run) (z : Fin 8) : Run :=
  if r.zones[z].warningTimer = some 0 then Run.warningExpired c r z else r

/-- The zone places its warning or fire call (R111). -/
def Run.placeZoneCall (c : Tables) (r : Run) (z : Fin 8) : Run :=
  let fire := r.zones[z].fire
  let p := Run.placeInternal c r
    { message := if fire then c.zones[z].fireMessage else c.zones[z].warningMessage
      areas := c.zones[z].areas, priority := if fire then 7 else 6, repeats := 0
      gap := c.zones[z].callGap, limit := c.param.playLimit, origin := .zone z }
  p.1.modZone z fun x =>
    { x with callId := p.2, callFire := if p.2.isSome then fire else x.callFire }

/-- The zone withdraws its call by its id (R111). -/
def Run.withdrawZoneCall (c : Tables) (r : Run) (z : Fin 8) : Run :=
  (Run.withdrawInternal c r r.zones[z].callId).modZone z fun x => { x with callId := none }

/-- Step 3 of R113: every door of the zone in OPENING or TRANSIT gets a fresh close. -/
def Run.fireDoors (c : Tables) (r : Run) (z : Fin 8) : Run :=
  (memberDoors c z).foldl
    (fun r d =>
      if r.doors[d].state = .opening ∨ r.doors[d].state = .transit then Run.freshClose c r d
      else r) r

/-- Steps 3 and 4 of R113. -/
def Run.fireEffects (c : Tables) (r : Run) (z : Fin 8) : Run :=
  Run.firePushed c (Run.fireDoors c r z) z

/-- Step 1 of R113: a longer warning is cut to the fire warning time. -/
def shortenWarning (t : Timer) (fireWarning : Nat) : Timer :=
  match t with
  | some left => if sec fireWarning < left then some (sec fireWarning) else some left
  | none => none

/-- The fire flag becomes set on a zone already under closure (R113). -/
def Run.setFire (c : Tables) (r : Run) (z : Fin 8) : Run :=
  let r := r.modZone z fun x =>
    { x with fire := true, warningTimer := shortenWarning x.warningTimer c.zones[z].fireWarning }
  let r := if r.zones[z].callFire then r else Run.withdrawZoneCall c r z
  let r := Run.placeZoneCall c r z
  Run.warningIfNone c (Run.fireEffects c r z) z

/-- A closure starts (R110 step 2). -/
def Run.startClosure (c : Tables) (r : Run) (z : Fin 8) (fire : Bool) : Run :=
  let time := if fire then c.zones[z].fireWarning else c.zones[z].warning
  let r := r.modZone z fun x =>
    { x with active := true, fire := x.fire || fire, warningTimer := some (sec time) }
  let r := if fire then Run.fireEffects c r z else r
  Run.warningIfNone c (Run.placeZoneCall c r z) z

/-- The bit of a closure cause: BRIDGE 0, FIRE_LINE 1, MONITOR `m` at `2 + m`. -/
def causeBridge : Nat := 0
def causeFireLine : Nat := 1
def causeMonitor (m : Fin 16) : Nat := 2 + m.val

/-- A closure request is taken (R110). -/
def Run.requestClosure (c : Tables) (r : Run) (z : Fin 8) (cause : Nat) (fire : Bool) : Run :=
  let r := r.modZone z fun x => { x with causes := setUnion x.causes (setOf cause) }
  if !r.zones[z].active then Run.startClosure c r z fire
  else if fire && !r.zones[z].fire then Run.setFire c r z
  else r

/-! ### Liveness (R108) -/

/-- The door's node becomes LOST or UNKNOWN (R108). -/
def Run.doorOffline (r : Run) (d : Fin 32) : Run :=
  r.modDoor d fun x =>
    { x with state := .offline, timer := none, transitMark := false, pending := .none,
             retriesUsed := 0 }

/-- The state of a door at its first good reply after OFFLINE (R108). -/
def firstState (st : DoorStatus) : DoorState :=
  if st.localFault then .fault else if st.position = .closed then .closed else .opened

/-- A door leaves OFFLINE (R108). -/
def Run.doorReturns (c : Tables) (r : Run) (d : Fin 32) (st : DoorStatus) : Run :=
  let r := r.modDoor d fun x => { x with state := firstState st, latest := some st }
  match firstState st with
  | .fault => r.raise .doorFault d.val (det 1)
  | .opened =>
    if (lowestActiveZone r c.doors[d]).isSome then Run.freshClose c r d else r
  | .closed | .offline | .opening | .closing | .obstructed | .transit => r

/-! ### Door replies (R117 to R121) -/

/-- A door reply, read when it meets its layout (12.4, R184). -/
def doorStatus : List Byte → Option DoorStatus
  | p :: f :: _ =>
    let read := fun (q : DoorPosition) => some
      { position := q, obstruction := f.getLsbD 0, transitRequest := f.getLsbD 1,
        localFault := f.getLsbD 2 }
    match p.toNat with
    | 0 => read .opened
    | 1 => read .moving
    | 2 => read .closed
    | 3 => read .stopped
    | _ => none
  | _ => none

/-- An obstruction of a CLOSING door (R120). -/
def Run.obstructDoor (c : Tables) (r : Run) (d : Fin 32) : Run :=
  let r := Run.issueDoor c r d .stop
  (r.modDoor d fun x =>
    { x with state := .obstructed, timer := some (.retry, sec c.doors[d].retryDelay) }).raise
    .doorObstructed d.val (det r.doors[d].retriesUsed)

/-- A door reports itself closed: CLOSED, its timer stopped (R118). -/
def DoorRt.closedNow (x : DoorRt) : DoorRt :=
  { x with state := .closed, timer := none, transitMark := false }

/-- Step 3 of R117: the position by the door's state (R118). -/
def Run.judgePosition (c : Tables) (r : Run) (d : Fin 32) (st : DoorStatus) : Run :=
  let stands := st.position == .opened || st.position == .stopped
  match r.doors[d].state with
  | .opened | .obstructed | .transit =>
    if st.position = .closed then r.modDoor d DoorRt.closedNow else r
  | .opening =>
    if stands then
      if r.doors[d].transitMark then r.modDoor d fun x => { x with state := .transit }
      else r.modDoor d fun x => { x with state := .opened, timer := none }
    else r
  | .closing =>
    if st.position = .closed then r.modDoor d DoorRt.closedNow
    else if st.obstruction then Run.obstructDoor c r d
    else r
  | .fault =>
    if st.position = .closed && !st.localFault then r.modDoor d DoorRt.closedNow else r
  | .closed | .offline => r

/-- Step 4 of R117: a forced door (R121). -/
def Run.judgeForced (c : Tables) (r : Run) (d : Fin 32) (st : DoorStatus) : Run :=
  if r.doors[d].state = .closed ∧ st.position ≠ .closed then
    match lowestActiveZone r c.doors[d] with
    | some z => Run.freshClose c (r.raise .doorForced d.val (det z.val)) d
    | none => r.modDoor d fun x => { x with state := .opened }
  else r

/-- An accepted transit (R119). -/
def Run.acceptTransit (c : Tables) (r : Run) (d : Fin 32) : Run :=
  Run.issueDoor c
    (r.modDoor d fun x =>
      { x with state := .opening, transitMark := true,
               timer := some (.transit, sec c.doors[d].transitTime) }) d .opened

/-- Step 5 of R117: a transit request (R119). `closed` is whether the door was CLOSED after step 3;
DENY changes no state, and a transit accepted takes the door from where step 4 left it (log 22). -/
def Run.judgeTransit (c : Tables) (r : Run) (d : Fin 32) (before closed : Bool) (st : DoorStatus) :
    Run :=
  if st.transitRequest && !before && closed && (lowestActiveZone r c.doors[d]).isSome then
    if (doorZones c.doors[d]).any fun z => r.zones[z].fire then Run.offerDoorDeny c r d
    else Run.acceptTransit c r d
  else r

/-- The transit request flag of the preceding reply. -/
def requestBefore (x : DoorRt) : Bool :=
  match x.latest with
  | some d => d.transitRequest
  | none => false

/-- A local fault that has turned active (R117 step 2). -/
def Run.localFaultDoor (r : Run) (d : Fin 32) : Run :=
  (r.modDoor d fun x => { x with transitMark := false, pending := .none }).faultDoor d 1

/-- A good reply of a door that is not OFFLINE (R117). -/
def Run.judgeDoorReply (c : Tables) (r : Run) (d : Fin 32) (st : DoorStatus) : Run :=
  let before := requestBefore r.doors[d]
  let r := r.modDoor d fun x => { x with latest := some st }
  if st.localFault && r.doors[d].state != .fault then
    Run.judgeTransit c (Run.localFaultDoor r d) d before false st
  else
    let r := Run.judgePosition c r d st
    Run.judgeTransit c (Run.judgeForced c r d st) d before (r.doors[d].state == .closed) st

/-- A good reply of a door's node (R107, R108, R117). -/
def Run.doorReply (c : Tables) (r : Run) (d : Fin 32) (st : DoorStatus) : Run :=
  if r.doors[d].state = .offline then Run.doorReturns c r d st else Run.judgeDoorReply c r d st

/-! ### Requests (R123 to R125) -/

/-- The FIRE line of a zone: lines 2 to 9 (section 9.1). -/
def fireLine (z : Fin 8) : Fin 14 := ⟨z.val + 2, by omega⟩

/-- Zone CLOSE (R123). -/
def Run.requestZoneClose (c : Tables) (r : Run) (z : Fin 8) (fire : Bool) : Run × Verdict :=
  (Run.requestClosure c r z causeBridge fire, .ok, 0)

/-- A member door at REOPEN (R123 step 2). -/
def Run.reopenDoor (c : Tables) (r : Run) (d : Fin 32) : Run :=
  let x := r.doors[d]
  let opens := c.doors[d].reopenWithZone
  match x.state with
  | .opening =>
    if x.transitMark then
      r.modDoor d fun x =>
        { x with transitMark := false, timer := some (.move, sec c.doors[d].closeTimeout) }
    else r
  | .transit => r.modDoor d fun x => { x with state := .opened, timer := none, transitMark := false }
  | .closed | .closing | .obstructed => if opens then Run.openDoor c r d else r
  | .fault => if opens && !localFault x then Run.openDoor c r d else r
  | .offline | .opened => r

/-- Whether every zone of the door has its closure inactive. -/
def noClosure (c : Tables) (r : Run) (d : Fin 32) : Bool := (lowestActiveZone r c.doors[d]).isNone

/-- REOPEN (R123). The pushes of a cleared fire flag or override release nothing (R81). -/
def Run.requestReopen (c : Tables) (r : Run) (z : Fin 8) : Run × Verdict :=
  if r.lines[fireLine z].accepted then (r, .state, det 1)
  else
    let r := r.modZone z fun x =>
      { x with causes := 0, active := false, warningTimer := none, fire := false,
               override := false }
    let r := Run.withdrawZoneCall c r z
    ((memberDoors c z).foldl
      (fun r d => if noClosure c r d then Run.reopenDoor c r d else r) r, .ok, 0)

/-- OVERRIDE (R114). -/
def Run.requestOverride (r : Run) (z : Fin 8) : Run × Verdict :=
  (r.modZone z fun x => { x with override := true }, .ok, 0)

/-- Door OPEN (R124). -/
def Run.requestDoorOpen (c : Tables) (r : Run) (d : Fin 32) : Run × Verdict :=
  if r.doors[d].state = .offline then (r, .state, 0)
  else
    match lowestActiveZone r c.doors[d] with
    | some z => (r, .state, det (8 + z.val))
    | none =>
      match r.doors[d].state with
      | .opened | .opening | .transit | .offline => (r, .ok, 0)
      | .closed | .closing | .obstructed | .fault => (Run.openDoor c r d, .ok, 0)

/-- Door CLOSE (R125). -/
def Run.requestDoorClose (c : Tables) (r : Run) (d : Fin 32) : Run × Verdict :=
  if r.doors[d].state = .offline then (r, .state, 0) else (Run.freshClose c r d, .ok, 0)

/-! ### Expiries (R120, R122) -/

/-- The RETRY timer expires (R120). -/
def Run.retryExpired (c : Tables) (r : Run) (d : Fin 32) : Run :=
  let r := r.modDoor d fun x => { x with timer := none }
  if r.doors[d].retriesUsed < c.doors[d].retryLimit then
    Run.issueDoor c
      (r.modDoor d fun x =>
        { x with retriesUsed := x.retriesUsed + 1, state := .closing,
                 timer := some (.move, sec c.doors[d].closeTimeout) }) d .close
  else r.faultDoor d 3

/-- The MOVE timer expires, in CLOSING or in OPENING without the transit mark (R120). -/
def Run.moveTimerExpired (r : Run) (d : Fin 32) : Run :=
  let r := r.modDoor d fun x => { x with timer := none }
  match r.doors[d].state with
  | .closing => r.faultDoor d 2
  | .opening => if r.doors[d].transitMark then r else r.faultDoor d 2
  | .offline | .opened | .closed | .obstructed | .transit | .fault => r

/-- The TRANSIT timer expires, in OPENING with the transit mark or in TRANSIT (R122). -/
def Run.transitExpired (c : Tables) (r : Run) (d : Fin 32) : Run :=
  let r := r.modDoor d fun x => { x with timer := none }
  match r.doors[d].state with
  | .transit => Run.freshClose c r d
  | .opening => if r.doors[d].transitMark then Run.freshClose c r d else r
  | .offline | .opened | .closing | .closed | .obstructed | .fault => r

/-! ### Zone states (R109) -/

/-- A zone's state is judged; a new state is held and raised. -/
def Run.judgeZone (c : Tables) (r : Run) (z : Fin 8) : Run :=
  let now := zoneStateNow c r z
  if r.zones[z].state = now then r
  else (r.modZone z fun x => { x with state := now }).raise .zoneState z.val (det now.code)

/-- Every zone is judged, in ascending zone number, when the event has been dealt with (R109). -/
def Run.judgeZones (c : Tables) (r : Run) : Run := (List.finRange 8).foldl (Run.judgeZone c) r

end Sys2Proof.Machine
end

