-- ==== Sys2Proof/Machine/Monitors.lean ====
section
/-! DEFINITION. The monitor unit (chapter 8): channel renewal and staleness, the graph check, entering a
state with its actions, transitions, and the requests on a monitor. -/

namespace Sys2Proof.Machine

/-- The state entry `s` of monitor `m`: MSTATE entry `8 m + s` (section 8.2). -/
def mstateIndex (m : Fin 16) (s : Fin 8) : Fin 128 := ⟨8 * m.val + s.val, by omega⟩

def mstate (c : Tables) (m : Fin 16) (s : Fin 8) : StateCfg := c.mstates[mstateIndex m s]

/-- The entry of the state a monitor stands in. -/
def currentState (c : Tables) (r : Run) (m : Fin 16) : StateCfg :=
  mstate c m r.monitors[m].current

/-- An enabled monitor whose current state reads the channel. -/
def reads (c : Tables) (r : Run) (m : Fin 16) (ch : Fin 32) : Bool :=
  r.monitors[m].enabled && (currentState c r m).channel == ch

/-! ### The test (R153) -/

/-- A value passes a test; the comparison is of whole numbers (section 8.2). -/
def passes (x : StateCfg) (v : Int) : Bool :=
  match x.test with
  | .above => decide (x.threshold < v)
  | .below => decide (v < x.threshold)

/-- A state's test is met: its channel is not stale and its value passes (R153). -/
def testMet (r : Run) (x : StateCfg) : Bool :=
  match r.channels[x.channel].value with
  | some v => !r.channels[x.channel].stale && passes x v
  | none => false

/-! ### Outputs (R165) -/

/-- A general output is set (R165). -/
def Run.setOutput (r : Run) (o : Fin 4) (high : Bool) (by' : SetBy) : Run :=
  r.modOutput o fun _ => { high, setBy := by' }

/-! ### Actions (R151) -/

/-- The lasting actions in force are withdrawn: the call by its id, the derate (R151). -/
def Run.withdrawActions (c : Tables) (r : Run) (m : Fin 16) : Run :=
  (Run.withdrawInternal c r r.monitors[m].callId).modMonitor m fun x =>
    { x with callId := none, derate := none }

/-- The entry action of a state (R151, R152). -/
def Run.enterAction (c : Tables) (r : Run) (m : Fin 16) (s : Fin 8) : Run :=
  match (mstate c m s).action with
  | .none => r
  | .event code => r.raise .monitorEvent m.val (det2 s.val code)
  | .call message areas priority repeats =>
    let p := Run.placeInternal c r
      { message, areas, priority, repeats, gap := 0, limit := c.param.playLimit,
        origin := .monitor m }
    p.1.modMonitor m fun x => { x with callId := p.2 }
  | .closeZone z fire => Run.requestClosure c r z (causeMonitor m) fire
  | .derate value axes => r.modMonitor m fun x => { x with derate := some (value, axes) }
  | .output o high => r.setOutput o high (.monitor m)

/-! ### Entering a state (R150, R154) -/

/-- Steps 1 to 4 of R150. -/
def Run.enterSteps (c : Tables) (r : Run) (m : Fin 16) (s : Fin 8) : Run :=
  let r := r.modMonitor m fun x => { x with holdTimer := none, timeoutTimer := none }
  let r := Run.withdrawActions c r m
  let r := (r.setEntered (m :: r.entered)).modMonitor m fun x => { x with current := s }
  let r := Run.enterAction c r m s
  if (mstate c m s).timeout = 0 then r
  else r.modMonitor m fun x => { x with timeoutTimer := some (sec (mstate c m s).timeout) }

/-- Step 5 of R150, with the cut of a chain of holds of 0 at its eighth entry (R154, log 40).
`next` enters a state. -/
def Run.startHold (c : Tables) (next : Run → Fin 8 → Run) (r : Run) (m : Fin 16) : Run :=
  let x := currentState c r m
  if testMet r x then
    if x.hold = 0 then
      if Config.chainLimit ≤ r.entered.count m then
        r.raise .monitorEvent m.val (det2 8 r.monitors[m].current.val)
      else next r x.onHold
    else r.modMonitor m fun y => { y with holdTimer := some (ms x.hold) }
  else r

/-- A monitor enters a state, and follows its chain of holds of 0 (R150, R154). The first argument
bounds the entries; `chainLimit` is never reached from it. -/
def Run.enterChain (c : Tables) : Nat → Run → Fin 16 → Fin 8 → Run
  | 0, r, _, _ => r
  | n + 1, r, m, s =>
    Run.startHold c (fun r s => Run.enterChain c n r m s) (Run.enterSteps c r m s) m

/-- A monitor enters a state (R150). -/
def Run.enterState (c : Tables) (r : Run) (m : Fin 16) (s : Fin 8) : Run :=
  Run.enterChain c Config.chainLimit r m s

/-! ### Renewal (R146, R153) -/

/-- The value a payload holds for a channel, if it is long enough (R146). -/
def channelValue (x : ChannelCfg) (payload : List Byte) : Option Int :=
  match (payload.drop x.offset).take x.width with
  | [b] => if x.width = 1 then some (if x.signed then b.toInt else (b.toNat : Int)) else none
  | [b1, b2] => some (if x.signed then int2 b1 b2 else ((word2 b1 b2).toNat : Int))
  | _ => none

/-- One channel takes its value from a reply (R146). -/
def Run.renewChannel (c : Tables) (n : NodeId) (payload : List Byte) (acc : Run × List (Fin 32))
    (ch : Fin 32) : Run × List (Fin 32) :=
  let x := c.channels[ch]
  if x.configured && x.source == n then
    match channelValue x payload with
    | some v =>
      (acc.1.modChannel ch fun _ =>
        { value := some v, stale := false, timer := some (ms x.staleLimit) }, acc.2 ++ [ch])
    | none => acc
  else acc

/-- An enabled monitor whose state reads a renewed channel is judged (R153). -/
def Run.judgeRenewal (c : Tables) (renewed : List (Fin 32)) (r : Run) (m : Fin 16) : Run :=
  let x := currentState c r m
  if r.monitors[m].enabled && renewed.contains x.channel then
    if testMet r x then
      if r.monitors[m].holdTimer.isSome then r
      else Run.startHold c (fun r s => Run.enterState c r m s) r m
    else r.modMonitor m fun y => { y with holdTimer := none }
  else r

/-- A good reply reaches the channel table: all its channels are renewed first, then the monitors
are judged (R146). -/
def Run.channelReply (c : Tables) (r : Run) (n : NodeId) (payload : List Byte) : Run :=
  let p := (List.finRange 32).foldl (Run.renewChannel c n payload) (r, [])
  (List.finRange 16).foldl (Run.judgeRenewal c p.2) p.1

/-! ### Staleness (R147, R156) -/

/-- Channels' stale flags become set and their timers stop; those that turn stale are listed
(R147). -/
def Run.markStale (acc : Run × List (Fin 32)) (ch : Fin 32) : Run × List (Fin 32) :=
  (acc.1.modChannel ch fun x => { x with stale := true, timer := none },
    if acc.1.channels[ch].stale then acc.2 else acc.2 ++ [ch])

/-- A monitor whose current state reads a channel that has turned stale (R156). -/
def Run.judgeStale (c : Tables) (turned : List (Fin 32)) (r : Run) (m : Fin 16) : Run :=
  let x := currentState c r m
  if r.monitors[m].enabled && turned.contains x.channel then
    match x.onStale with
    | some s =>
      (Run.enterState c r m s).raise .monitorStale m.val (det2 x.channel.val s.val)
    | none =>
      (r.modMonitor m fun y => { y with holdTimer := none }).raise .monitorStale m.val
        (det2 x.channel.val 255)
  else r

/-- Channels turn stale: every flag first, then the monitors in ascending number (R147, R156,
log 27). -/
def Run.turnStale (c : Tables) (r : Run) (chans : List (Fin 32)) : Run :=
  let p := chans.foldl Run.markStale (r, [])
  (List.finRange 16).foldl (Run.judgeStale c p.2) p.1

/-- The configured channels whose source satisfies a test. -/
def channelsOf (c : Tables) (p : NodeId → Bool) : List (Fin 32) :=
  (List.finRange 32).filter fun ch => c.channels[ch].configured && p c.channels[ch].source

/-! ### The graph check (R149) -/

/-- Whether every state an in-use state names is in use. -/
def namesInUse (c : Tables) (m : Fin 16) (s : Fin 8) : Bool :=
  let x := mstate c m s
  (mstate c m x.onHold).inUse && (x.timeout == 0 || (mstate c m x.onTimeout).inUse) &&
    (match x.onStale with
     | some t => (mstate c m t).inUse
     | none => true)

/-- The first state that fails the graph check (log 24). -/
def graphFailure (c : Tables) (m : Fin 16) : Option (Fin 8) :=
  if !(mstate c m 0).inUse then some 0
  else (List.finRange 8).find? fun s => (mstate c m s).inUse && !namesInUse c m s

/-- The graph check passes (R149). -/
def graphPasses (c : Tables) (m : Fin 16) : Bool :=
  c.monitors[m].configured && (graphFailure c m).isNone

/-! ### Requests (R157 to R159) -/

/-- ENABLE (R157). -/
def Run.requestEnable (c : Tables) (r : Run) (m : Fin 16) : Run × Verdict :=
  if r.monitors[m].enabled then (r, .ok, det r.monitors[m].current.val)
  else if !c.monitors[m].configured then (r, .state, 0)
  else
    match graphFailure c m with
    | some s => (r, .state, det (16 + s.val))
    | none =>
      let r := Run.enterState c (r.modMonitor m fun x => { x with enabled := true }) m 0
      (r, .ok, det r.monitors[m].current.val)

/-- DISABLE (R158). -/
def Run.requestDisable (c : Tables) (r : Run) (m : Fin 16) : Run × Verdict :=
  let r :=
    if r.monitors[m].enabled then
      (Run.withdrawActions c
        (r.modMonitor m fun x => { x with holdTimer := none, timeoutTimer := none }) m).modMonitor
        m fun x => { x with enabled := false }
    else r
  (r, .ok, det r.monitors[m].current.val)

/-- MONITOR RESTART (R159). -/
def Run.requestMonitorRestart (c : Tables) (r : Run) (m : Fin 16) : Run × Verdict :=
  if r.monitors[m].enabled then
    let r := Run.enterState c r m 0
    (r, .ok, det r.monitors[m].current.val)
  else (r, .state, 0)

/-- A monitor whose start enabled is yes enters state 0 at start-up (R160). -/
def Run.startMonitor (c : Tables) (r : Run) (m : Fin 16) : Run :=
  if c.monitors[m].configured && c.monitors[m].startEnabled then
    Run.enterState c (r.modMonitor m fun x => { x with enabled := true }) m 0
  else r

/-! ### Expiries (R147, R154, R155) -/

/-- The stale timer expires (R147). -/
def Run.staleExpired (c : Tables) (r : Run) (ch : Fin 32) : Run := Run.turnStale c r [ch]

/-- The hold timer expires (R154). -/
def Run.holdExpired (c : Tables) (r : Run) (m : Fin 16) : Run :=
  Run.enterState c r m (currentState c r m).onHold

/-- The timeout timer expires (R155). -/
def Run.timeoutExpired (c : Tables) (r : Run) (m : Fin 16) : Run :=
  Run.enterState c r m (currentState c r m).onTimeout

end Sys2Proof.Machine
end

