-- ==== Sys2Proof/Machine/Lines.lean ====
section
/-! DEFINITION. The line unit (section 9.1): filters, accepted changes and their hand-over, and the data
of READ LINES. -/

namespace Sys2Proof.Machine

def lineEstop : Fin 14 := 0
def lineService : Fin 14 := 1

/-- The raw level of a line changes, or is told again (R163). -/
def Run.rawChanged (c : Tables) (r : Run) (l : Fin 14) (active : Bool) : Run :=
  if r.lines[l].raw = active then r
  else
    r.modLine l fun x =>
      { x with raw := active
               filterTimer := if active = x.accepted then none else some (ms c.lines[l].filter) }

/-- Step 1 of R164: the edge event. -/
def Run.edgeEvent (c : Tables) (r : Run) (l : Fin 14) (active : Bool) : Run :=
  let named :=
    match c.lines[l].edge with
    | .none => false
    | .rising => active
    | .falling => !active
    | .both => true
  if c.lines[l].event && named then r.raise .lineEdge l.val (det active.toNat) else r

/-- The zone of a FIRE line (section 9.1). -/
def fireZone (l : Fin 14) : Option (Fin 8) :=
  if h : 2 ≤ l.val ∧ l.val ≤ 9 then some ⟨l.val - 2, by omega⟩ else none

/-- Step 3 of R164: the hand-over to the owner. -/
def Run.handOver (c : Tables) (r : Run) (l : Fin 14) (active : Bool) : Run :=
  if active then
    if l = lineEstop then Run.estopPushed c r
    else if l = lineService then Run.serviceOn c r
    else
      match fireZone l with
      | some z => Run.requestClosure c r z causeFireLine true
      | none => r
  else r

/-- An accepted change acts (R164); in LOADING it acts on nothing (R161). -/
def Run.acceptedChange (c : Tables) (r : Run) (l : Fin 14) (active : Bool) : Run :=
  if r.gw = .loading then r
  else
    let r := Run.edgeEvent c r l active
    let r := if l = lineService then r.raise .serviceMode l.val (det active.toNat) else r
    if r.gw.inForce then Run.handOver c r l active else r

/-- The filter timer expires: the accepted level takes the raw level (R163). -/
def Run.filterExpired (c : Tables) (r : Run) (l : Fin 14) : Run :=
  let active := r.lines[l].raw
  Run.acceptedChange c
    (r.modLine l fun x => { x with accepted := x.raw, filterTimer := none }) l active

/-- A line is judged anew when the gateway becomes CONFIGURED (R161). -/
def Run.judgeLineAnew (c : Tables) (r : Run) (l : Fin 14) : Run :=
  r.modLine l fun x =>
    { x with accepted := false
             filterTimer := if x.raw then some (ms c.lines[l].filter) else none }

/-- The data of READ LINES (R166, log 6): the raw levels and the accepted levels of lines 0 to 13,
bit `n` of a 16-bit word for line `n`; service mode; level and set by of each output. -/
def linesData (r : Run) : List Byte :=
  let levels := fun (p : LineRt → Bool) =>
    (List.finRange 14).foldl (fun (w : Word) l => if p r.lines[l] then setUnion w (setOf l.val) else w) 0
  w2 (levels (·.raw)) ++ w2 (levels (·.accepted)) ++ bBool (serviceMode r)
    ++ r.outputs.toList.flatMap fun o => bBool o.high ++ b1 o.setBy.code

end Sys2Proof.Machine
end

