-- ==== Sys2Proof/Machine/Chain.lean ====
section
/-! DEFINITION. The indicator chain (sections 9.3 to 9.6): flash generators, images, shifts and the lamp
test. -/

namespace Sys2Proof.Machine

/-- The chain record with a changed content. -/
def Run.modChain (r : Run) (f : Chain → Chain) : Run := r.setChain (f r.chain)

/-- The period of a generator, from PARAM (R168). -/
def flashPeriod (c : Tables) : FlashGen → Nat
  | .slow => c.param.slowPeriod
  | .fast => c.param.fastPeriod

/-- The record of a generator. -/
def Chain.gen (x : Chain) : FlashGen → FlashRt
  | .slow => x.slow
  | .fast => x.fast

/-- The chain with one generator's record replaced. -/
def Chain.setGen (x : Chain) (g : FlashGen) (f : FlashRt) : Chain :=
  match g with
  | .slow => { x with slow := f }
  | .fast => { x with fast := f }

/-- The time of a phase: the lit phase by R168, the unlit phase the rest of the period. -/
def phaseTime (period duty : Nat) (lit : Bool) : Nat :=
  if lit then litPhase period duty else period - litPhase period duty

/-- Each phase's expiry starts the other phase (R168). -/
def Run.flashExpired (c : Tables) (r : Run) (g : FlashGen) : Run :=
  r.modChain fun x =>
    let lit := !(x.gen g).lit
    x.setGen g
      { lit, timer := some (ms (phaseTime (flashPeriod c g) c.param.duty lit)) }

/-- Both generators restart in their lit phase (R168, R171). -/
def Run.restartFlash (c : Tables) (r : Run) : Run :=
  r.modChain fun x =>
    { x with slow := startFlash c.param.slowPeriod c.param.duty
             fast := startFlash c.param.fastPeriod c.param.duty }

/-- A new image is handed to the shifter (R169). -/
def Chain.hand (x : Chain) (image : List Bool) : Chain :=
  match x.inShift with
  | none => { x with last := image, inShift := some image,
                     shiftTimer := some (shiftTime image.length) }
  | some _ => { x with last := image, waiting := some image }

/-- The image is judged when the event has been dealt with (R169). An image equal to the last one made
is not made again, at the start and the end of a lamp test either (R171), which is the model's choice
(log 63). -/
def Run.judgeImage (c : Tables) (r : Run) : Run :=
  let image := chainImage c r
  if image = r.chain.last then r else r.modChain fun x => x.hand image

/-- The levels of the data line in a shift, one for each clock pulse: the last lamp first, high for a
lit lamp (R170). -/
def dataLevels (image : List Bool) : List Bool := image.reverse

/-- What the lamps show when these levels have been clocked in and the latch pulse comes: the level
sent first has reached the last lamp (R170). -/
def latched (levels : List Bool) : List Bool := levels.reverse

/-- The level on the data line now: that of the clock pulse under way, none at the latch pulse and
while no shift runs (R170). -/
def Chain.dataLine (x : Chain) : Option Bool :=
  match x.inShift, x.shiftTimer with
  | some image, some left =>
    (dataLevels image)[(shiftTime image.length - left) / Config.shiftPulse]?
  | some _, none => none
  | none, _ => none

/-- A shift ends: the latch pulse moves the shifted values to the lamps, which show the image, and a waiting image follows (R170). -/
def Chain.shiftEnded (x : Chain) : Chain :=
  let x := { x with shown := match x.inShift with
    | some image => latched (dataLevels image)
    | none => x.shown }
  match x.waiting with
  | some image =>
    { x with inShift := some image, waiting := none, shiftTimer := some (shiftTime image.length) }
  | none => { x with inShift := none, shiftTimer := none }

/-- A lamp test starts, or starts its 3 s again (R171). -/
def Run.lampTest (r : Run) : Run :=
  r.modChain fun x => { x with lampTest := some (sec Config.lampTestTime) }

/-- The lamp test expires (R171). -/
def Run.lampTestEnded (c : Tables) (r : Run) : Run :=
  Run.restartFlash c (r.modChain fun x => { x with lampTest := none })

end Sys2Proof.Machine
end

