-- ==== Sys2Proof/Machine/Relay.lean ====
section
/-! DEFINITION. The relay (chapter 2): route lookup, permit judging, forwarding and its completion, pass
requests, and the report table. -/

namespace Sys2Proof.Machine

/-! ### Routes (R21) -/

/-- The target of a station. -/
def findRoute (c : Tables) (station : Word) : Option RouteTarget :=
  (c.routes.find? fun e => e.station == station).map (·.target)

/-- The station of a node's NODE route (R34, R36). -/
def nodeStation (c : Tables) (n : NodeId) : Option Word :=
  (c.routes.find? fun e => e.target == .node n).map (·.station)

/-! ### Permits (R25 to R27) -/

/-- A condition term read against its subject as it stands (R26). -/
def termHolds (r : Run) : Term → Bool
  | .axis a states => setHas states r.axes[a].state.code
  | .zoneState z states => setHas states r.zones[z].state.code
  | .zoneFire z set => r.zones[z].fire == set
  | .door d states => setHas states r.doors[d].state.code
  | .line l active => (if h : l.val < 14 then r.lines[l.val].accepted else false) == active
  | .monitor m states => r.monitors[m].enabled && setHas states r.monitors[m].current.val
  | .service on => serviceMode r == on

/-- An absent term leaves the entry to the other. -/
def termsHold (r : Run) : Option Term → Bool
  | none => true
  | some t => termHolds r t

/-- Whether an entry in use matches a request (R25). -/
def permitMatches (r : Run) (station : Word) (code : Byte) (p : Permit) : Bool :=
  decide (p.first.toNat ≤ station.toNat) && decide (station.toNat ≤ p.last.toNat) &&
    (match p.code with
     | none => true
     | some k => k == code) &&
    termsHold r p.term1 && termsHold r p.term2

/-- The first entry that matches, with its index (R25). -/
def decidingEntry (c : Tables) (r : Run) (station : Word) (code : Byte) :
    Option (Fin 64 × PermitAction) :=
  (List.finRange 64).findSome? fun i =>
    match c.permits[i] with
    | some p => if permitMatches r station code p then some (i, p.action) else none
    | none => none

/-- What the permit table decides: the detail of REFUSED, or nothing, with PERMIT_NOTE raised
(R27). -/
def Run.judgePermit (c : Tables) (r : Run) (station : Word) (code : Byte) : Run × Option Word :=
  match decidingEntry c r station code with
  | some (_, .forward) => (r, none)
  | some (i, .forwardNote) => (r.raise .permitNote i.val station, none)
  | some (i, .refuse) => (r, some (det i.val))
  | none => (r, if c.param.permitForward then none else some 0xFF#16)

/-! ### Node commands (R23, R28) -/

/-- The permitted command is forwarded, or answered at once (R28). -/
def Run.forward (c : Tables) (r : Run) (req : Req) (n : NodeId) (code : Byte)
    (payload : List Byte) : Run :=
  match judgeOffer c r n with
  | .trunkDown => Run.answer c r req .trunkDown (det r.trunks[n.trunk].state.code) []
  | .nodeLost => Run.answer c r req .nodeLost 0 []
  | .queueFull => Run.answer c r req .queueFull (det n.trunk.val) []
  | .accepted => Run.enqueueFrame c r n code payload (.relay req)

/-- A NODE COMMAND at a NODE entry (R23). -/
def Run.nodeCommand (c : Tables) (r : Run) (req : Req) (n : NodeId) (payload : List Byte) : Run :=
  match payload with
  | [] => Run.answer c r req .badRequest (det 1) []
  | code :: rest =>
    if code.toNat < 0x20 ∨ code.toNat = 0xFF then Run.answer c r req .badRequest (det 1) []
    else if maxTrunkPayload < rest.length then Run.answer c r req .badRequest (det 2) []
    else
      let p := Run.judgePermit c r req.dst code
      match p.2 with
      | some d => Run.answer c p.1 req .refused d []
      | none => Run.forward c p.1 req n code rest

/-! ### Pass requests (R31) -/

/-- The pass slot is taken (R31, R54). -/
def Run.takePassSlot (c : Tables) (r : Run) (req : Req) (n : NodeId) (code : Byte)
    (payload : List Byte) : Run :=
  Run.kickTrunk c (r.modTrunk n.trunk fun k =>
    { k with pass := some { slot := n.slot, code, payload, req, attempts := 0 } }) n.trunk

/-- A permitted PASS REQUEST (R31 steps 3 to 5). An empty slot counts as a LOST node, which is the
model's reading (log 59). -/
def Run.pass (c : Tables) (r : Run) (req : Req) (n : NodeId) (code : Byte)
    (payload : List Byte) : Run :=
  if r.trunks[n.trunk].state ≠ .running then
    Run.answer c r req .trunkDown (det r.trunks[n.trunk].state.code) []
  else if (nodeCfg c n).isNone || (nodeRt r n).liveness == .lost then
    Run.answer c r req .nodeLost 0 []
  else
    match r.trunks[n.trunk].pass with
    | some p => Run.answer c r req .busy (det (address p.slot)) []
    | none => Run.takePassSlot c r req n code payload

/-- A PASS REQUEST at a NODE entry (R31). -/
def Run.passRequest (c : Tables) (r : Run) (req : Req) (n : NodeId) (payload : List Byte) : Run :=
  match payload with
  | [] => Run.answer c r req .badRequest (det 1) []
  | code :: rest =>
    if maxTrunkPayload < rest.length then Run.answer c r req .badRequest (det 2) []
    else
      let p := Run.judgePermit c r req.dst 0xFF#8
      match p.2 with
      | some d => Run.answer c p.1 req .refused d []
      | none => Run.pass c p.1 req n code rest

/-! ### Completion of forward records and pass requests (R29, R30, R32) -/

/-- The ANSWER of a forward record or a pass request, by the outcome of its frame. -/
def Run.answerCompletion (c : Tables) (r : Run) (req : Req) (o : Completion) : Run :=
  match o with
  | .ok code payload => Run.answer c r req .ok (code.zeroExtend 16) payload
  | .noAnswer attempts => Run.answer c r req .noAnswer (det attempts) []
  | .nodeLost => Run.answer c r req .nodeLost 0 []
  | .trunkDown => Run.answer c r req .trunkDown (det TrunkState.held.code) []

/-! ### Reports (R34 to R37) -/

/-- A payload is offered as a REPORT (R35, R36): last reported takes it, the interval timer starts
when the minimum interval is above 0. -/
def Run.offerReport (c : Tables) (r : Run) (n : NodeId) (station : Word) (payload : List Byte)
    (time : TimeBase) : Run :=
  let interval := c.reports[nodeIndex n].interval
  let r := r.modReport (nodeIndex n) fun x =>
    { x with last := some payload, pending := none
             timer := if 0 < interval then some (ms interval) else none }
  Run.report c r
    { node := n, dst := c.param.consoleStation, src := station, time, payload }

/-- A qualifying reply is offered at once or held back (R35). -/
def Run.qualified (c : Tables) (r : Run) (n : NodeId) (station : Word) (payload : List Byte)
    (time : TimeBase) : Run :=
  if r.reports[nodeIndex n].timer.isNone then Run.offerReport c r n station payload time
  else r.modReport (nodeIndex n) fun x => { x with pending := some (payload, time) }

/-- A good reply is judged by its node's report entry (R34). -/
def Run.judgeReport (c : Tables) (r : Run) (n : NodeId) (payload : List Byte) (time : TimeBase) :
    Run :=
  match nodeStation c n with
  | none => r
  | some station =>
    match c.reports[nodeIndex n].mode with
    | .none => r
    | .change =>
      if r.reports[nodeIndex n].last = some payload then
        r.modReport (nodeIndex n) fun x => { x with pending := none }
      else Run.qualified c r n station payload time
    | .every =>
      let count := r.reports[nodeIndex n].count + 1
      if count = c.reports[nodeIndex n].every then
        Run.qualified c (r.modReport (nodeIndex n) fun x => { x with count := 0 }) n station
          payload time
      else r.modReport (nodeIndex n) fun x => { x with count }

/-- The interval timer of a report entry expires (R35, R36). -/
def Run.reportIntervalExpired (c : Tables) (r : Run) (n : NodeId) : Run :=
  let pending := r.reports[nodeIndex n].pending
  let r := r.modReport (nodeIndex n) fun x => { x with timer := none, pending := none }
  match pending, nodeStation c n with
  | some (payload, time), some station => Run.offerReport c r n station payload time
  | _, _ => r

/-- A report entry returns to its runtime reset values (R33, R37). -/
def Run.clearReport (r : Run) (n : NodeId) : Run := r.modReport (nodeIndex n) fun _ => resetReport

end Sys2Proof.Machine
end

