-- ==== Sys2Proof/Machine/Trunk.lean ====
section
/-! DEFINITION. The trunk controllers (chapter 3): the end of a transaction by a reply or a miss, the
loss of a node, the fan-out of replies and liveness, hold, release and settling, poll rounds. The
choice of the next frame stands in Ops.lean. -/

namespace Sys2Proof.Machine

/-! ### Completions (R56) -/

/-- A frame's originator is told the outcome (R56). A STOP_PLAY's completion has no effect
(R138). -/
def Run.tellOrigin (c : Tables) (r : Run) (o : Origin) (k : Completion) : Run :=
  match o with
  | .relay req => Run.answerCompletion c r req k
  | .axis a f => r.axisCompleted a f k
  | .door d f => r.doorCompleted d f k
  | .play area serial => Run.playCompleted c r area serial k
  | .stopPlay _ => r

/-- The head of the command queue leaves it and its originator is told (R56). -/
def Run.completeHead (c : Tables) (r : Run) (t : Fin 4) (k : Completion) : Run :=
  match r.trunks[t].queue with
  | [] => r
  | f :: rest => Run.tellOrigin c (r.modTrunk t fun x => { x with queue := rest }) f.origin k

/-- The pass request leaves its slot and is answered (R32). -/
def Run.completePass (c : Tables) (r : Run) (t : Fin 4) (k : Completion) : Run :=
  match r.trunks[t].pass with
  | none => r
  | some p => Run.answerCompletion c (r.modTrunk t fun x => { x with pass := none }) p.req k

/-- The frame of the transaction is completed, when its source is the queue or the pass slot. -/
def Run.completeSource (c : Tables) (r : Run) (t : Fin 4) (s : TxSource) (k : Completion) : Run :=
  match s with
  | .queue => Run.completeHead c r t k
  | .pass => Run.completePass c r t k
  | .hold => r
  | .poll => r
  | .setPoint _ => r

/-- Attempts made of the frame on the line, when R55 counts them. -/
def attemptsMade (k : TrunkRt) (s : TxSource) : Option Nat :=
  match s with
  | .queue => k.queue.head?.map (·.attempts)
  | .pass => k.pass.map (·.attempts)
  | .hold => none
  | .poll => none
  | .setPoint _ => none

/-! ### Pushes of liveness (R63) -/

/-- The axes whose drive or panel is the node, by a test on the configuration. -/
def axesWith (c : Tables) (p : AxisCfg → Bool) : List (Fin 6) :=
  (List.finRange 6).filter fun a => c.axes[a].configured && p c.axes[a]

/-- The doors whose node it is. -/
def doorsWith (c : Tables) (n : NodeId) : List (Fin 32) :=
  (List.finRange 32).filter fun d => c.doors[d].configured && c.doors[d].node == n

/-- Whether a node is one of these and its slot is of the kind. -/
def goneOf (c : Tables) (k : NodeKind) (gone : List NodeId) (n : NodeId) : Bool :=
  gone.contains n && nodeKind c n == some k

/-- An axis is told what became of its prerequisites' axes and of its panel (R83, R85). No rule orders the
two: the PREREQ halt comes before the panel stop, DESIGN CHOICE, unsafe (log 55). -/
def Run.axisTold (c : Tables) (gone : List NodeId) (off : List (Fin 6)) (r : Run) (a : Fin 6) :
    Run :=
  let r := Run.judgePrereq c off r a
  if c.axes[a].configured && c.axes[a].panel.any (goneOf c .panel gone) then Run.panelLost c r a
  else r

/-- The axis unit is told that nodes are LOST or UNKNOWN: every axis of such a drive becomes OFFLINE,
then every axis is told, in ascending axis number (R83, R85, R175, log 27). -/
def Run.axesDown (c : Tables) (r : Run) (gone : List NodeId) : Run :=
  let off := axesWith c fun x => goneOf c .drive gone x.drive
  (List.finRange 6).foldl (Run.axisTold c gone off) (off.foldl (Run.axisOffline c) r)

/-- An area is told of each of its amplifiers that is LOST or UNKNOWN (R143). -/
def Run.areaTold (c : Tables) (l : Liveness) (gone : List NodeId) (r : Run) (area : Fin 16) : Run :=
  (gone.filter fun n => goneOf c .amp gone n && c.areas[area].contains n).foldl
    (fun r n => Run.ampChanged c n l r area) r

/-- The axis unit, the door sequencer and the call dispatcher, in the order of R62's table, are told
that nodes are LOST or UNKNOWN (R63): each acts on its instances in ascending index (R175, log 27). -/
def Run.pushDown (c : Tables) (l : Liveness) (r : Run) (gone : List NodeId) : Run :=
  let r := Run.axesDown c r gone
  let r := ((List.finRange 32).filter fun d =>
    c.doors[d].configured && goneOf c .door gone c.doors[d].node).foldl Run.doorOffline r
  (List.finRange 16).foldl (Run.areaTold c l gone) r

/-- The dispatcher is told that a node is MISSING; every other user keeps its state (R63). -/
def Run.pushMissing (c : Tables) (r : Run) (n : NodeId) : Run :=
  match nodeKind c n with
  | some .amp => (areasNaming c n).foldl (Run.ampChanged c n .missing) r
  | some .drive => r
  | some .panel => r
  | some .door => r
  | some .sensor => r
  | some .generic => r
  | none => r

/-! ### Fan-out of a good reply (R62) -/

/-- An amplifier reply, read when it meets its layout (12.4, R184). -/
def ampStatus : List Byte → Option AmpStatus
  | s :: m1 :: m2 :: _ =>
    match s.toNat with
    | 0 => some .idle
    | 1 => some (.playing (word2 m1 m2).toNat)
    | 2 => some (.done (word2 m1 m2).toNat)
    | _ => none
  | _ => none

/-- One area's part in an amplifier reply: the silencing, the liveness push, the play (R139,
R143). -/
def Run.ampFanOut (c : Tables) (n : NodeId) (before : Liveness) (payload : List Byte) (r : Run)
    (area : Fin 16) : Run :=
  let st := ampStatus payload
  let r :=
    match st with
    | some st => Run.silenceReturn c n before st r area
    | none => r
  let r := if before = .live then r else Run.ampChanged c n .live r area
  match st with
  | some st => Run.ampReply c n st r area
  | none => r

/-- The unit of a node's kind takes the reply (R62, R184). -/
def Run.fanOutKind (c : Tables) (r : Run) (n : NodeId) (before : Liveness) (payload : List Byte) :
    Run :=
  match nodeKind c n with
  | some .drive =>
    match driveStatus payload with
    | some d =>
      (axesWith c fun x => x.drive == n).foldl (fun r a => Run.driveReply c r a d) r
    | none => r
  | some .panel =>
    match panelCommand payload with
    | some p =>
      (axesWith c fun x => x.panel == some n).foldl (fun r a => Run.panelReply c r a p) r
    | none => r
  | some .door =>
    match doorStatus payload with
    | some st => (doorsWith c n).foldl (fun r d => Run.doorReply c r d st) r
    | none => r
  | some .amp => (areasNaming c n).foldl (Run.ampFanOut c n before payload) r
  | some .sensor => r
  | some .generic => r
  | none => r

/-- A good reply is handed to every user of the node, in the order of R62's table; the frame's
source follows (R56). -/
def Run.fanOut (c : Tables) (r : Run) (n : NodeId) (before : Liveness) (payload : List Byte) :
    Run :=
  let r := Run.fanOutKind c r n before payload
  let r := Run.channelReply c r n payload
  Run.judgeReport c r n payload r.clock.ms

/-! ### The end of a transaction (R48) -/

/-- Steps 3 and 4 of R48: the door sequencer is told, and the turnaround gap starts. -/
def Run.endTransaction (c : Tables) (r : Run) (t : Fin 4) : Run :=
  (Run.offerDoorsOf c r t).modTrunk t fun k =>
    { k with transaction := none, windowTimer := none, gapTimer := some c.trunks[t].gap }

/-- The node record at a good reply (R57). -/
def NodeRt.answered (x : NodeRt) (payload : List Byte) (time : TimeBase) : NodeRt :=
  { x with liveness := .live, misses := 0, payload := some payload, time := some time }

/-- A good reply ends the transaction `k` (R48, R57). -/
def Run.takeReply (c : Tables) (r : Run) (t : Fin 4) (k : Transaction) (code : Byte)
    (payload : List Byte) : Run :=
  let n := nodeAt t k.slot
  let before := (nodeRt r n).liveness
  let r := r.modNode (nodeIndex n) fun x => x.answered payload r.clock.ms
  let r := if before = .lost then r.raise .nodeBack (nodeIndex n).val 0 else r
  let r :=
    if k.source = .hold then
      r.modTrunk t fun x => { x with holdSet := x.holdSet.filter fun i => i != k.slot }
    else r
  let r := Run.fanOut c r n before payload
  let r := Run.completeSource c r t k.source (.ok code payload)
  Run.endTransaction c r t

/-! ### Misses and loss (R58, R59) -/

/-- One queued frame of a lost node is completed and removed (R59 step 2). -/
def Run.dropLostFrame (c : Tables) (t : Fin 4) (r : Run) (f : QFrame) : Run :=
  Run.tellOrigin c
    (r.modTrunk t fun k => { k with queue := k.queue.eraseP fun g => g.node == f.node }) f.origin
    (if f.attempts = 0 then .nodeLost else .noAnswer f.attempts)

/-- Steps 1 to 5 of R59. -/
def Run.lostWork (c : Tables) (r : Run) (t : Fin 4) (k : Transaction) : Run :=
  let n := nodeAt t k.slot
  let r :=
    match attemptsMade r.trunks[t] k.source with
    | some m => Run.completeSource c r t k.source (.noAnswer m)
    | none => r
  let frames := r.trunks[t].queue.filter fun f => f.node == n
  let r := frames.foldl (Run.dropLostFrame c t) r
  let r :=
    match r.trunks[t].pass with
    | some p =>
      if p.slot = k.slot then
        Run.completePass c r t (if p.attempts = 0 then .nodeLost else .noAnswer p.attempts)
      else r
    | none => r
  let r := r.modTrunk t fun x => { x with holdSet := x.holdSet.filter fun i => i != k.slot }
  (axesWith c fun x => x.drive == n).foldl
    (fun r a => r.modAxis a fun x => { x with setPoint := none }) r

/-- A node becomes LOST (R58, R59, R37, R63). -/
def Run.nodeLost (c : Tables) (r : Run) (t : Fin 4) (k : Transaction) : Run :=
  let n := nodeAt t k.slot
  let r := r.raise .nodeLost (nodeIndex n).val (k.code.zeroExtend 16)
  let r := Run.lostWork c r t k
  let r := r.clearReport n
  let r := Run.pushDown c .lost r [n]
  Run.turnStale c r (channelsOf c fun m => m == n)

/-- The node record at a miss (R58). -/
def NodeRt.missed (x : NodeRt) : NodeRt :=
  let misses := min 3 (x.misses + 1)
  { x with misses, liveness := if x.liveness = .lost ∨ misses = 3 then .lost else .missing }

/-- The frame's attempts are judged at a miss that leaves its node on the line (R55). -/
def Run.judgeAttempts (c : Tables) (r : Run) (t : Fin 4) (k : Transaction) : Run :=
  match attemptsMade r.trunks[t] k.source with
  | some m =>
    if Config.frameAttempts ≤ m then Run.completeSource c r t k.source (.noAnswer m) else r
  | none => r

/-- A miss ends the transaction `k` (R48, R58). A door command that a completion makes pending at step 2
of R48 is offered at step 3 of the same end (R115, R116, log 47). MISSING is pushed with the miss's other
effects at step 1 of R48, before a NO_ANSWER completion at step 2; R63 orders the pushes of LOST and
UNKNOWN only: DEDUCED, unsafe (log 54). -/
def Run.takeMiss (c : Tables) (r : Run) (t : Fin 4) (k : Transaction) : Run :=
  let n := nodeAt t k.slot
  let before := (nodeRt r n).liveness
  let r := r.modNode (nodeIndex n) NodeRt.missed
  let after := (nodeRt r n).liveness
  let r :=
    if after = .lost ∧ before ≠ .lost then Run.nodeLost c r t k
    else
      let r := if after = .missing ∧ before ≠ .missing then Run.pushMissing c r n else r
      Run.judgeAttempts c r t k
  Run.endTransaction c r t

/-- What an event does to the transaction whose reply is awaited; bytes outside a reply window are
discarded (R46). -/
def Run.whenAwaiting (r : Run) (t : Fin 4) (f : Transaction → Run) : Run :=
  match r.trunks[t].transaction with
  | some k => if k.awaiting then f k else r
  | none => r

/-- The bytes of a reply are judged (R46). With no sync byte among them they are discarded and the
window stays open. -/
def Run.takeBytes (c : Tables) (r : Run) (t : Fin 4) (k : Transaction) (bytes : List Byte) : Run :=
  match judgeReply k.slot bytes with
  | .good code payload => Run.takeReply c r t k code payload
  | .corrupt => Run.takeMiss c r t k
  | .missing => r

/-! ### Windows, gaps and rounds (R46, R48, R50) -/

/-- The reply window opens when the last CRC byte has been sent (R46). -/
def Run.windowOpens (c : Tables) (r : Run) (t : Fin 4) : Run :=
  match r.trunks[t].transaction with
  | some k =>
    if k.awaiting then r
    else
      r.modTrunk t fun x =>
        { x with transaction := some { k with awaiting := true }
                 windowTimer := some (ms c.trunks[t].replyWindow) }
  | none => r

/-- The turnaround gap expires: the transmitter is free and selects (R48, R49). -/
def Run.gapEnded (c : Tables) (r : Run) (t : Fin 4) : Run :=
  if r.trunks[t].gapTimer.isSome then
    Run.kickTrunk c (r.modTrunk t fun k => { k with gapTimer := none }) t
  else r

/-- The round interval expires: the round timer reads stopped from here until the next round begins,
and a round with no node due, its last poll's reply awaited or not, is followed by the next one at once
(R50, log 16). -/
def Run.roundEnded (c : Tables) (r : Run) (t : Fin 4) : Run :=
  if r.trunks[t].roundTimer.isSome then
    Run.kickTrunk c
      (Run.nextRound c (r.modTrunk t fun k => { k with roundTimer := none }) t) t
  else r

/-! ### Trunk states (R42 to R45, R60, R61) -/

/-- A trunk's state changes, with its event (R45). -/
def Run.setTrunkState (r : Run) (t : Fin 4) (s : TrunkState) : Run :=
  (r.modTrunk t fun k => { k with state := s }).raise .trunkState t.val (det s.code)

/-- The settle timer expires: RUNNING, and the first, slow round begins (R44, R50). -/
def Run.settled (c : Tables) (r : Run) (t : Fin 4) : Run :=
  let r := r.modTrunk t fun k => { k with settleTimer := none, nonPoll := 0 }
  Run.kickTrunk c (Run.beginRound c (r.setTrunkState t .running) t 0) t

/-- The trunk enters SETTLING; a settle time of 0 expires at once (R42, R44, log 34). -/
def Run.settle (c : Tables) (r : Run) (t : Fin 4) : Run :=
  let r := r.modTrunk t fun k =>
    { k with holdAsserted := false, settleTimer := some (ms c.trunks[t].settle) }
  let r := r.setTrunkState t .settling
  if c.trunks[t].settle = 0 then Run.settled c r t else r

/-- The trunk record at a hold (R43). That a turnaround gap under way stops too is the model's choice
(log 62). -/
def TrunkRt.heldNow (k : TrunkRt) : TrunkRt :=
  { k with holdAsserted := true, settleTimer := none, roundTimer := none, roundPhase := 0,
           roundPosition := 0, nonPoll := 0, transaction := none, windowTimer := none,
           gapTimer := none }

/-- The nodes of a trunk, in ascending address. -/
def nodesOf (t : Fin 4) : List NodeId := (List.finRange 31).map (nodeAt t)

/-- Step 2 of R61: every outstanding frame is completed TRUNK_DOWN, the abandoned one first. -/
def Run.holdWork (c : Tables) (r : Run) (t : Fin 4) (onLine : Option TxSource) : Run :=
  let r :=
    match onLine with
    | some s => Run.completeSource c r t s .trunkDown
    | none => r
  let r := r.trunks[t].queue.foldl (fun r _ => Run.completeHead c r t .trunkDown) r
  Run.completePass c r t .trunkDown

/-- Step 3 of R61: the hold set and the set-point slots of the trunk are emptied. -/
def Run.holdSlots (c : Tables) (r : Run) (t : Fin 4) : Run :=
  (axesWith c fun x => x.drive.trunk == t).foldl
    (fun r a => r.modAxis a fun x => { x with setPoint := none })
    (r.modTrunk t fun k => { k with holdSet := [] })

/-- A trunk hold is taken (R43, R61). -/
def Run.holdTrunk (c : Tables) (r : Run) (t : Fin 4) : Run :=
  let onLine := r.trunks[t].transaction.map (·.source)
  let changed := (nodesOf t).filter fun n => (nodeRt r n).liveness != .unknown
  let r := (r.modTrunk t TrunkRt.heldNow).setTrunkState t .held
  let r := (nodesOf t).foldl (fun r n => r.modNode (nodeIndex n) fun _ => resetNode) r
  let r := Run.holdWork c r t onLine
  let r := Run.holdSlots c r t
  let r := (nodesOf t).foldl Run.clearReport r
  let r := Run.pushDown c .unknown r changed
  Run.turnStale c r (channelsOf c fun n => n.trunk == t && changed.contains n)

end Sys2Proof.Machine
end

