-- ==== Sys2Proof/Machine/Operands.lean ====
section
/-! DEFINITION. The operands of requests: reading the fields of a request or of an entry's content in
order, with the number of the first field that is missing or outside its range (R4, R6, R71), the
request forms, and the contents of the sixteen tables (section 12.7). -/

namespace Sys2Proof.Machine

/-! ### Reading fields -/

/-- What is still to be read: the number of the next field, and the bytes. -/
structure Cursor where
  field : Nat
  bytes : List Byte
deriving DecidableEq, Repr

/-- A reader of fields: a value and the cursor behind it, or the number of the offending field. -/
abbrev Parse (α : Type) := StateT Cursor (Except Nat) α

/-- The field being read is refused with its number. -/
def bad {α : Type} : Parse α := fun k => .error k.field

/-- One byte of the field being read; a missing one names the field. -/
def byte : Parse Byte := fun k =>
  match k.bytes with
  | [] => .error k.field
  | b :: bs => .ok (b, { k with bytes := bs })

/-- The field has been read whole. -/
def next : Parse Unit := fun k => .ok ((), { k with field := k.field + 1 })

/-- A value that lies in its range, or a refusal. -/
def need {α : Type} (ok : Bool) (a : α) : Parse α := if ok then pure a else bad

/-- One byte as a number. -/
def num1 : Parse Nat := do
  let b ← byte
  pure b.toNat

/-- Two bytes as a word, high byte first. -/
def word : Parse Word := do
  let hi ← byte
  let lo ← byte
  pure (word2 hi lo)

/-- A number of one byte in a range. -/
def nat1 (lo hi : Nat) : Parse Nat := do
  let n ← num1
  need (decide (lo ≤ n) && decide (n ≤ hi)) n

/-- A number of two bytes in a range. -/
def nat2 (lo hi : Nat) : Parse Nat := do
  let w ← word
  need (decide (lo ≤ w.toNat) && decide (w.toNat ≤ hi)) w.toNat

/-- A signed number of two bytes in a range. -/
def sint2 (lo hi : Int) : Parse Int := do
  let w ← word
  need (decide (lo ≤ w.toInt) && decide (w.toInt ≤ hi)) w.toInt

/-- no 0, yes 1, and every other pair of named values. -/
def bool1 : Parse Bool := do
  let n ← nat1 0 1
  pure (n == 1)

/-- One byte below `n`. -/
def fin1 (n : Nat) : Parse (Fin n) := do
  let b ← num1
  if h : b < n then pure ⟨b, h⟩ else bad

/-- A named value, by its place in the list. -/
def named {α : Type} (l : List α) : Parse α := do
  let b ← num1
  match l[b]? with
  | some a => pure a
  | none => bad

/-- An axis 1..6. -/
def axis1 : Parse (Fin 6) := do
  let b ← num1
  if h : 1 ≤ b ∧ b ≤ 6 then pure ⟨b - 1, by omega⟩ else bad

/-- A node: trunk, then local address (12.7). -/
def node2 : Parse NodeId := do
  let t ← fin1 4
  let a ← num1
  if h : 1 ≤ a ∧ a ≤ 31 then pure { trunk := t, slot := ⟨a - 1, by omega⟩ } else bad

/-- A set of areas 0..15. -/
def areas2 : Parse AreaSet := word

/-- A set of up to eight members held in one byte, with no bit beyond them. -/
def set1 (n : Nat) : Parse (BitVec n) := do
  let b ← num1
  need (decide (b < 2 ^ n)) (BitVec.ofNat n b)

/-- `n` values in turn. -/
def many {α : Type} (p : Parse α) : Nat → Parse (List α)
  | 0 => pure []
  | n + 1 => do
    let a ← p
    let rest ← many p n
    pure (a :: rest)

/-- A list: a count byte of at most `most`, then the items (12.7). -/
def list1 {α : Type} (most : Nat) (p : Parse α) : Parse (List α) := do
  let n ← nat1 0 most
  many p n

/-- A payload of 0..16 bytes. -/
def payload16 : Parse (List Byte) := list1 16 byte

/-- A field that may be absent: a presence byte, then the field; the `width` bytes of an absent
field are passed over (12.7, log 8). -/
def opt {α : Type} (width : Nat) (p : Parse α) : Parse (Option α) := do
  let present ← bool1
  if present then do
    let a ← p
    pure (some a)
  else do
    let _ ← many byte width
    pure none

/-- A whole field: its value, and the cursor at the next field. -/
def fld {α : Type} (p : Parse α) : Parse α := do
  let a ← p
  next
  pure a

/-- No byte beyond the last field; a byte too many is refused with the number of fields (R4). -/
def done : Parse Unit := fun k =>
  if k.bytes.isEmpty then .ok ((), k) else .error k.field

/-- The bytes still to be read do not matter. -/
def skip : Parse Unit := fun k => .ok ((), { k with bytes := [] })

/-- The value of a reader over the bytes that follow field `field - 1`. -/
def Parse.run' {α : Type} (p : Parse α) (field : Nat) (bytes : List Byte) : Except Nat α :=
  match p { field, bytes } with
  | .ok (a, _) => .ok a
  | .error n => .error n

/-- A whole request form: the fields and nothing beyond them. -/
def form {α : Type} (p : Parse α) : Parse α := do
  let a ← p
  done
  pure a

/-! ### Request forms (sections 1.4, 4.3, 4.8, 6.9, 7.2, 8.5, 9.2) -/

/-- No field after the code. -/
def formNone : Parse Unit := form (pure ())

/-- MOVE: the target, never refused as out of range, and lock-at-end (R71, R72). -/
def formMove : Parse (Int × Bool) := form do
  let t ← fld (sint2 (-32768) 32767)
  let l ← fld bool1
  pure (t, l)

/-- DERATE: an unsigned value, never refused as out of range (R71, R76). -/
def formDerate : Parse Nat := form (fld (nat2 0 65535))

/-- One step of a plan. -/
def planStep : Parse PlanStep := do
  let axis ← axis1
  let target ← sint2 (-32768) 32767
  let lockAtEnd ← bool1
  let notify ← bool1
  pure { axis, target, lockAtEnd, notify }

/-- PLAN START: a list of 1..8 steps (R90, log 21). -/
def formPlanStart : Parse (List PlanStep) := form (fld do
  let n ← nat1 1 8
  many planStep n)

/-- Zone CLOSE: the fire option (section 6.9). -/
def formZoneClose : Parse Bool := form (fld bool1)

/-- PLACE CALL (R135): repeats and gap are clamped, never refused. -/
def formPlaceCall : Parse CallOffer := form do
  let message ← fld (nat2 0 511)
  let areas ← fld (do
    let s ← areas2
    need (s != 0) s)
  let priority ← fld (nat1 0 7)
  let repeats ← fld num1
  let gap ← fld num1
  let limit ← fld (nat1 1 120)
  pure { message, areas, priority, repeats, gap, limit, origin := .bridge }

/-- What WITHDRAW CALL names (R135). -/
inductive Selector where
  | byId (id : Nat)
  | byOrigin (o : CallOrigin)
deriving DecidableEq, Repr

/-- WITHDRAW CALL (R135). -/
def formWithdraw : Parse Selector := form do
  let sel ← fld (nat1 0 1)
  let w ← fld (do
    let w ← word
    need (if sel = 0 then decide (1 ≤ w.toNat) && decide (w.toNat ≤ 255)
      else (originOfCode w).isSome) w)
  pure (if sel = 0 then .byId w.toNat else .byOrigin ((originOfCode w).getD .bridge))

/-- SET OUTPUT: output and level (R14, R166). -/
def formSetOutput : Parse (Fin 4 × Bool) := form do
  let o ← fld (fin1 4)
  let h ← fld bool1
  pure (o, h)

/-- TRUNK HOLD and TRUNK RELEASE: a trunk (R13). -/
def formTrunk : Parse (Fin 4) := form (fld (fin1 4))

/-- READ STATUS: the clear flag (R9). -/
def formClear : Parse Bool := form (fld bool1)

/-! ### Tables -/

/-- The sixteen tables (opening file, Conventions; section 12.1). -/
inductive Table where
  | route | permit | report | trunk | node | axis | profile | zone | door | area | channel
  | monitor | mstate | lamp | line | param
deriving DecidableEq, Repr

/-- Every table, in the order of the ids 1..16. -/
def allTables : List Table :=
  [.route, .permit, .report, .trunk, .node, .axis, .profile, .zone, .door, .area, .channel,
    .monitor, .mstate, .lamp, .line, .param]

def Table.id : Table → Nat
  | .route => 1 | .permit => 2 | .report => 3 | .trunk => 4 | .node => 5 | .axis => 6
  | .profile => 7 | .zone => 8 | .door => 9 | .area => 10 | .channel => 11 | .monitor => 12
  | .mstate => 13 | .lamp => 14 | .line => 15 | .param => 16

/-- The number of entries (opening file, Conventions). -/
def Table.entries : Table → Nat
  | .route => 256 | .permit => 64 | .report => 124 | .trunk => 4 | .node => 124 | .axis => 6
  | .profile => 48 | .zone => 8 | .door => 32 | .area => 16 | .channel => 32 | .monitor => 16
  | .mstate => 128 | .lamp => 64 | .line => 16 | .param => 1

/-- The table of an id. -/
def tableOfId (n : Nat) : Option Table := if n = 0 then none else allTables[n - 1]?

/-- A table id, as field 1. -/
def tableId : Parse Table := do
  let n ← num1
  match tableOfId n with
  | some t => pure t
  | none => bad

/-- READ ENTRY: table id and entry index (R5). -/
def formRead : Parse (Table × Nat) := form do
  let t ← fld tableId
  let i ← fld (nat2 0 (t.entries - 1))
  pure (t, i)

/-- CLEAR TABLE: table id (R8). -/
def formTable : Parse Table := form (fld tableId)

/-! ### Entry contents: the configuration fields in the order of the owning table -/

/-- The content of one entry, as WRITE ENTRY and the image carry it; `none` and a cleared mark are
the empty contents. -/
inductive Entry where
  | route (x : Option Route)
  | permit (x : Option Permit)
  | report (x : ReportCfg)
  | trunk (x : TrunkCfg)
  | node (x : Option NodeCfg)
  | axis (x : AxisCfg)
  | profile (x : Option Breakpoint)
  | zone (x : ZoneCfg)
  | door (x : DoorCfg)
  | area (x : List NodeId)
  | channel (x : ChannelCfg)
  | monitor (x : MonitorCfg)
  | mstate (x : StateCfg)
  | lamp (x : LampCfg)
  | line (x : LineCfg)
  | param (x : Param)
deriving DecidableEq, Repr

/-- A station 0001h..FFFEh. -/
def station : Parse Word := do
  let w ← word
  need (decide (1 ≤ w.toNat) && decide (w.toNat ≤ 0xFFFE)) w

/-- A field that the content's kind does not use must be zero (R19). -/
def zero1 : Parse Unit := do
  let n ← num1
  need (n == 0) ()

/-- The function index of a FUNCTION route (R19 step 2). -/
def functionIndex (k : Nat) : Parse Function :=
  match k with
  | 0 => do
    let a ← axis1
    pure (.axis a)
  | 1 => do
    zero1
    pure .plan
  | 2 => do
    let z ← fin1 8
    pure (.zone z)
  | 3 => do
    let d ← fin1 32
    pure (.door d)
  | 4 => do
    zero1
    pure .calls
  | 5 => do
    let m ← fin1 16
    pure (.monitor m)
  | _ => do
    zero1
    pure .lines

/-- A route's target after its kind (R19). -/
def routeTarget (kind : Nat) : Parse RouteTarget :=
  if kind = 1 then do
    let t ← fld (fin1 4)
    let a ← fld (do
      let a ← num1
      if h : 1 ≤ a ∧ a ≤ 31 then pure (⟨a - 1, by omega⟩ : Fin 31) else bad)
    fld zero1
    fld zero1
    pure (.node { trunk := t, slot := a })
  else do
    fld zero1
    fld zero1
    let k ← fld (nat1 0 6)
    let f ← fld (functionIndex k)
    pure (.function f)

/-- A byte further on, without reading it. -/
def peek (n : Nat) : Parse (Option Byte) := fun k => .ok (k.bytes[n]?, k)

/-- ROUTE (section 2.1): a target kind of zero is the empty content (R19, log 5). -/
def contentRoute : Parse (Option Route) := do
  let kind ← peek 2
  if kind = some 0 then do
    let _ ← fld word
    let _ ← fld byte
    pure none
  else do
    let station ← fld station
    let kind ← fld (nat1 1 2)
    let target ← routeTarget kind
    pure (some { station, target })

/-- A non-empty set of states with codes below `n` (R24). -/
def stateSet (n : Nat) : Parse (BitVec 8) := do
  let b ← byte
  need (b != 0 && decide (b.toNat < 2 ^ n)) b

/-- The index and the allowed values of a term, by its subject (R24, 12.7). -/
def termOf (subject : Nat) : Parse Term :=
  match subject with
  | 1 => do
    let a ← axis1
    let s ← stateSet 8
    pure (.axis a s)
  | 2 => do
    let z ← fin1 8
    let s ← stateSet 5
    pure (.zoneState z s)
  | 3 => do
    let z ← fin1 8
    let b ← bool1
    pure (.zoneFire z b)
  | 4 => do
    let d ← fin1 32
    let s ← stateSet 8
    pure (.door d s)
  | 5 => do
    let l ← fin1 16
    let b ← bool1
    pure (.line l b)
  | 6 => do
    let m ← fin1 16
    let s ← stateSet 8
    pure (.monitor m s)
  | 7 => do
    zero1
    let b ← bool1
    pure (.service b)
  | _ => bad

/-- A permit term: three bytes, a subject of 0 marking it absent (12.7). -/
def term3 : Parse (Option Term) := do
  let subject ← num1
  if subject = 0 then do
    let _ ← many byte 2
    pure none
  else do
    let t ← termOf subject
    pure (some t)

/-- A permit code: ANY coded 00h, or 20h..FFh (R24, 12.7). -/
def permitCode : Parse (Option Byte) := do
  let b ← byte
  if b.toNat = 0 then pure none else need (decide (0x20 ≤ b.toNat)) (some b)

/-- PERMIT (section 2.5, R24). -/
def contentPermit : Parse (Option Permit) := do
  let used ← fld bool1
  if used then do
    let first ← fld station
    let last ← fld (do
      let w ← station
      need (decide (first.toNat ≤ w.toNat)) w)
    let code ← fld permitCode
    let term1 ← fld term3
    let term2 ← fld term3
    let action ← fld (named [PermitAction.forward, .refuse, .forwardNote])
    pure (some { first, last, code, term1, term2, action })
  else pure none

/-- REPORT (R33): the every count is checked only in mode EVERY. -/
def contentReport : Parse ReportCfg := do
  let mode ← fld (named [ReportMode.none, .change, .every])
  let every ← fld (do
    let n ← num1
    need (mode != .every || n != 0) n)
  let interval ← fld (nat2 0 10000)
  pure { mode, every, interval }

/-- A bit rate, in kbit/s. -/
def bitRate2 : Parse Nat := do
  let w ← word
  need (w.toNat == 125 || w.toNat == 250 || w.toNat == 500) w.toNat

/-- TRUNK (section 3.1, R41). -/
def contentTrunk : Parse TrunkCfg := do
  let configured ← fld bool1
  if configured then do
    let bitRate ← fld bitRate2
    let replyWindow ← fld (nat1 1 20)
    let gap ← fld (nat2 100 2000)
    let roundInterval ← fld (nat2 5 500)
    let slowDivisor ← fld (nat1 2 32)
    let settle ← fld (nat2 0 2000)
    pure { configured, bitRate, replyWindow, gap, roundInterval, slowDivisor, settle }
  else pure emptyTrunk

/-- A node kind, or empty, which is coded behind the kinds (section 3.4, log 5). -/
def nodeKind1 : Parse (Option NodeKind) :=
  named [some .drive, some .panel, some .door, some .amp, some .sensor, some .generic, none]

/-- NODE (section 3.4, R47). -/
def contentNode : Parse (Option NodeCfg) := do
  let kind ← fld nodeKind1
  match kind with
  | none => pure none
  | some kind => do
    let poll ← fld (named [PollClass.fast, .slow, .none])
    pure (some { kind, poll })

/-- A zone 0..7, or none, which is coded 8. -/
def zoneOrNone : Parse (Option (Fin 8)) := do
  let n ← nat1 0 8
  pure (if h : n < 8 then some ⟨n, h⟩ else none)

/-- A prerequisite: axis and window (R83). -/
def prereq5 : Parse Prereq := do
  let axis ← axis1
  let min ← sint2 (-32000) 32000
  let max ← sint2 (-32000) 32000
  pure { axis, min, max }

/-- A motion call: message, area set, priority, gap (section 4.1). -/
def motionCall6 : Parse MotionCall := do
  let message ← nat2 0 511
  let areas ← areas2
  let priority ← nat1 0 7
  let gap ← nat1 0 60
  pure { message, areas, priority, gap }

/-- The fields of an axis from its limits to its timing (section 4.1). -/
structure AxisMotion where
  posMin : Int
  posMax : Int
  vMax : Nat
  acc : Nat
  kp : Nat
  deadband : Nat
  creepDistance : Nat
  vCreep : Nat
  controlPeriod : Nat
  keepalive : Nat
  lockTimeout : Nat
  stallVelocity : Nat
  overloadLimit : Nat
deriving DecidableEq, Repr

/-- Fields 7 to 19 of an AXIS content; R68's rules between two of them are judged at the later one
(log 26). -/
def axisMotion : Parse AxisMotion := do
  let posMin ← fld (sint2 (-32000) 32000)
  let posMax ← fld (do
    let p ← sint2 (-32000) 32000
    need (decide (posMin < p)) p)
  let vMax ← fld (nat2 1 4000)
  let acc ← fld (nat2 1 4000)
  let kp ← fld (nat1 1 255)
  let deadband ← fld (nat2 0 500)
  let creepDistance ← fld (nat2 0 5000)
  let vCreep ← fld (nat2 1 vMax)
  let controlPeriod ← fld (nat1 20 200)
  let keepalive ← fld (nat2 100 2000)
  let lockTimeout ← fld (nat1 1 30)
  let stallVelocity ← fld (nat2 0 4000)
  let overloadLimit ← fld (nat2 0 4000)
  pure { posMin, posMax, vMax, acc, kp, deadband, creepDistance, vCreep, controlPeriod, keepalive,
         lockTimeout, stallVelocity, overloadLimit }

/-- A prerequisite names an axis other than the entry's own and has window min ≤ max (R68). -/
def prereqApart (i : Nat) : Option Prereq → Bool
  | none => true
  | some p => decide (p.axis.val ≠ i) && decide (p.min ≤ p.max)

/-- A prerequisite of AXIS entry `i`. -/
def prereqOf (i : Nat) : Parse (Option Prereq) := do
  let p ← opt 5 prereq5
  need (prereqApart i p) p

/-- Fields 20 to 28 of the content of AXIS entry `i`, into the record that holds the fields before
them. That an absent LOW or HIGH payload takes one byte, its count, behind the presence byte is the
model's choice (log 65). -/
def axisRest (i : Nat) (x : AxisCfg) : Parse AxisCfg := do
  let haltMask ← fld (set1 6)
  let noteMask ← fld (set1 6)
  let stageUp ← fld (nat2 0 4000)
  let stageDown ← fld (do
    let d ← nat2 0 4000
    need (decide (d < stageUp)) d)
  let lowPayload ← fld (opt 1 payload16)
  let highPayload ← fld (opt 1 payload16)
  let prereq1 ← fld (prereqOf i)
  let prereq2 ← fld (prereqOf i)
  let motionCall ← fld (opt 6 motionCall6)
  pure { x with haltMask, noteMask, stageUp, stageDown, lowPayload, highPayload, prereq1, prereq2,
                motionCall }

/-- AXIS entry `i` (section 4.1, R68): field by field, the ranges and the rules within the entry. -/
def contentAxis (i : Nat) : Parse AxisCfg := do
  let configured ← fld bool1
  if configured then do
    let drive ← fld node2
    let panel ← fld (do
      let p ← opt 2 node2
      need (p != some drive) p)
    let zone ← fld zoneOrNone
    let k ← axisMotion
    axisRest i
      { emptyAxis with
        configured, drive, panel, zone, posMin := k.posMin, posMax := k.posMax, vMax := k.vMax
        acc := k.acc, kp := k.kp, deadband := k.deadband, creepDistance := k.creepDistance
        vCreep := k.vCreep, controlPeriod := k.controlPeriod, keepalive := k.keepalive
        lockTimeout := k.lockTimeout, stallVelocity := k.stallVelocity
        overloadLimit := k.overloadLimit }
  else pure emptyAxis

/-- PROFILE (section 5.1, R93 step 1): the ranges bind the position and the speed in use or not, and
an entry written not in use stores neither. -/
def contentProfile : Parse (Option Breakpoint) := do
  let used ← fld bool1
  let position ← fld (sint2 (-32000) 32000)
  let speed ← fld (nat2 0 4000)
  pure (if used then some { position, speed } else none)

/-- ZONE (section 6.1, R105). -/
def contentZone : Parse ZoneCfg := do
  let warning ← fld (nat1 0 60)
  let fireWarning ← fld (nat1 0 60)
  let warningMessage ← fld (nat2 0 511)
  let fireMessage ← fld (nat2 0 511)
  let areas ← fld areas2
  let callGap ← fld (nat1 0 60)
  pure { warning, fireWarning, warningMessage, fireMessage, areas, callGap }

/-- DOOR (section 6.2, R106): the second zone differs from the first. -/
def contentDoor : Parse DoorCfg := do
  let configured ← fld bool1
  if configured then do
    let node ← fld node2
    let zone1 ← fld (fin1 8)
    let zone2 ← fld (do
      let z ← opt 1 (fin1 8)
      need (z != some zone1) z)
    let closeTimeout ← fld (nat1 5 120)
    let retryDelay ← fld (nat1 1 30)
    let retryLimit ← fld (nat1 0 5)
    let transitTime ← fld (nat1 5 120)
    let reopenWithZone ← fld bool1
    pure { configured, node, zone1, zone2, closeTimeout, retryDelay, retryLimit, transitTime,
           reopenWithZone }
  else pure emptyDoor

/-- Whether no node stands twice in a list. -/
def noTwice : List NodeId → Bool
  | [] => true
  | n :: ns => !ns.contains n && noTwice ns

/-- AREA (section 7.1, R128). -/
def contentArea : Parse (List NodeId) := fld do
  let l ← list1 4 node2
  need (noTwice l) l

/-- CHANNEL (section 8.1, R145): offset plus width is at most 16. -/
def contentChannel : Parse ChannelCfg := do
  let configured ← fld bool1
  if configured then do
    let source ← fld node2
    let offset ← fld (nat1 0 15)
    let width ← fld (nat1 1 2)
    let signed ← fld bool1
    let staleLimit ← fld (nat2 50 60000)
    pure { configured, source, offset, width, signed, staleLimit }
  else pure emptyChannel

/-- MONITOR (section 8.2, R148). -/
def contentMonitor : Parse MonitorCfg := do
  let configured ← fld bool1
  if configured then do
    let startEnabled ← fld bool1
    pure { configured, startEnabled }
  else pure emptyMonitor

/-- The arguments of an action, in the order of the action table (section 8.2). -/
def actionOf (k : Nat) : Parse Action :=
  match k with
  | 0 => pure .none
  | 1 => do
    let code ← num1
    pure (.event code)
  | 2 => do
    let message ← nat2 0 511
    let areas ← areas2
    let priority ← nat1 0 7
    let repeats ← nat1 0 15
    pure (.call message areas priority repeats)
  | 3 => do
    let z ← fin1 8
    let fire ← bool1
    pure (.closeZone z fire)
  | 4 => do
    let value ← nat2 0 256
    let axes ← set1 6
    need (axes != 0) (.derate value axes)
  | 5 => do
    let o ← fin1 4
    let high ← bool1
    pure (.output o high)
  | _ => bad

/-- A monitor action: an action byte, then its arguments (12.7). -/
def action1 : Parse Action := do
  let k ← num1
  actionOf k

/-- A state 0..7, or STAY, which is coded 8. -/
def stateOrStay : Parse (Option (Fin 8)) := zoneOrNone

/-- MSTATE (section 8.2, R148). -/
def contentMstate : Parse StateCfg := do
  let inUse ← fld bool1
  if inUse then do
    let channel ← fld (fin1 32)
    let test ← fld (named [Test.above, .below])
    let threshold ← fld (sint2 (-32768) 32767)
    let hold ← fld (nat2 0 65535)
    let onHold ← fld (fin1 8)
    let timeout ← fld (nat2 0 65535)
    let onTimeout ← fld (fin1 8)
    let onStale ← fld stateOrStay
    let action ← fld action1
    pure { inUse, channel, test, threshold, hold, onHold, timeout, onTimeout, onStale, action }
  else pure emptyMstate

/-- The index of a lamp's source (section 9.3): 0 for NONE. -/
def lampSource (k : Nat) : Parse LampSource :=
  match k with
  | 0 => do
    zero1
    pure .none
  | 1 => do
    let a ← axis1
    pure (.axis a)
  | 2 => do
    let z ← fin1 8
    pure (.zone z)
  | 3 => do
    let d ← fin1 32
    pure (.door d)
  | 4 => do
    let l ← fin1 14
    pure (.line l)
  | 5 => do
    let m ← fin1 16
    pure (.monitor m)
  | 6 => do
    let t ← fin1 4
    pure (.trunk t)
  | _ => bad

/-- The number of values a source takes (section 9.3). -/
def lampValues : LampSource → Nat
  | .none => 0
  | .axis _ => 8
  | .zone _ => 5
  | .door _ => 8
  | .line _ => 2
  | .monitor _ => 8
  | .trunk _ => 4

/-- One pair of a styles list. -/
def stylePair (values : Nat) : Parse (Nat × Style) := do
  let v ← num1
  let s ← named [Style.off, .on, .slow, .fast]
  need (decide (v < values)) (v, s)

/-- Whether no value stands twice in a styles list. -/
def noValueTwice : List (Nat × Style) → Bool
  | [] => true
  | p :: ps => !ps.any (fun q => q.1 == p.1) && noValueTwice ps

/-- LAMP (section 9.3, R167). Every content is judged by both steps; source NONE has the one index
0 and takes no value (log 60), so one that passes is the empty content. -/
def contentLamp : Parse LampCfg := do
  let k ← fld (nat1 0 6)
  let source ← fld (lampSource k)
  let styles ← fld (do
    let l ← list1 8 (stylePair (lampValues source))
    need (noValueTwice l) l)
  pure { source, styles }

/-- LINE (section 9.1, R162): for line 0 the filter time is stored as 2, whatever is carried. -/
def contentLine (estop : Bool) : Parse LineCfg := do
  let filter ← fld (if estop then do
      let _ ← byte
      pure 2
    else nat1 1 255)
  let edge ← fld (named [Edge.none, .rising, .falling, .both])
  let event ← fld bool1
  pure { filter, edge, event }

/-- The permit default: FORWARD 0, REFUSE 1. -/
def permitDefault : Parse Bool := named [true, false]

/-- PARAM, with the beacon period as it is carried; it is clamped and never refused (R7). -/
def contentParam : Parse Param := do
  let beaconPeriod ← fld (nat2 0 65535)
  let consoleStation ← fld station
  let permitForward ← fld permitDefault
  let playLimit ← fld (nat1 1 120)
  let stageCount ← fld (nat1 1 8)
  let slowPeriod ← fld (nat2 200 4000)
  let fastPeriod ← fld (nat2 100 2000)
  let duty ← fld (nat1 10 90)
  pure { beaconPeriod, consoleStation, permitForward, playLimit, stageCount, slowPeriod, fastPeriod,
         duty }

/-- The content of an entry of a table (R6 step 3): the ranges, and R68's rules field by field. -/
def content (t : Table) (index : Nat) : Parse Entry :=
  match t with
  | .route => .route <$> contentRoute
  | .permit => .permit <$> contentPermit
  | .report => .report <$> contentReport
  | .trunk => .trunk <$> contentTrunk
  | .node => .node <$> contentNode
  | .axis => .axis <$> contentAxis index
  | .profile => .profile <$> contentProfile
  | .zone => .zone <$> contentZone
  | .door => .door <$> contentDoor
  | .area => .area <$> contentArea
  | .channel => .channel <$> contentChannel
  | .monitor => .monitor <$> contentMonitor
  | .mstate => .mstate <$> contentMstate
  | .lamp => .lamp <$> contentLamp
  | .line => .line <$> contentLine (index == 0)
  | .param => .param <$> contentParam

/-- Whether an entry's deciding field makes it the empty content: what follows that field does not
matter (log 8). A PROFILE entry written not in use and a LAMP entry with source NONE are read to
their end all the same (R93 step 1, R167). -/
def Entry.cutShort : Entry → Bool
  | .route x => x.isNone
  | .permit x => x.isNone
  | .node x => x.isNone
  | .trunk x => !x.configured
  | .axis x => !x.configured
  | .door x => !x.configured
  | .channel x => !x.configured
  | .monitor x => !x.configured
  | .mstate x => !x.inUse
  | .lamp _ => false
  | .report _ => false
  | .profile _ => false
  | .zone _ => false
  | .area _ => false
  | .line _ => false
  | .param _ => false

/-- The content of a WRITE ENTRY: nothing beyond its last field, unless it is cut short. Bytes beyond
the last field are judged before the rules among the entries of a table (R19, R93) and the channel's on
offset plus width (R145), which is the model's choice (log 61). -/
def contentForm (t : Table) (index : Nat) : Parse Entry := do
  let e ← content t index
  if e.cutShort then skip else done
  pure e

/-! ### Encodings of the contents (12.7) -/

def encNode (n : NodeId) : List Byte := b1 n.trunk.val ++ b1 (address n.slot)

def encAxis (a : Fin 6) : List Byte := b1 (a.val + 1)

def Function.kind : Function → Nat
  | .axis _ => 0 | .plan => 1 | .zone _ => 2 | .door _ => 3 | .calls => 4 | .monitor _ => 5
  | .lines => 6

def Function.index : Function → Nat
  | .axis a => a.val + 1
  | .plan => 0
  | .zone z => z.val
  | .door d => d.val
  | .calls => 0
  | .monitor m => m.val
  | .lines => 0

def encTarget : RouteTarget → List Byte
  | .node n => b1 1 ++ encNode n ++ b1 0 ++ b1 0
  | .function f => b1 2 ++ b1 0 ++ b1 0 ++ b1 f.kind ++ b1 f.index

def encRoute : Option Route → List Byte
  | none => b2 0 ++ b1 0
  | some x => w2 x.station ++ encTarget x.target

def encTerm : Option Term → List Byte
  | none => b1 0 ++ b1 0 ++ b1 0
  | some (.axis a s) => b1 1 ++ encAxis a ++ [s]
  | some (.zoneState z s) => b1 2 ++ b1 z.val ++ [s]
  | some (.zoneFire z b) => b1 3 ++ b1 z.val ++ bBool b
  | some (.door d s) => b1 4 ++ b1 d.val ++ [s]
  | some (.line l b) => b1 5 ++ b1 l.val ++ bBool b
  | some (.monitor m s) => b1 6 ++ b1 m.val ++ [s]
  | some (.service b) => b1 7 ++ b1 0 ++ bBool b

def encPermit : Option Permit → List Byte
  | none => b1 0
  | some x =>
    b1 1 ++ w2 x.first ++ w2 x.last ++ [x.code.getD 0] ++ encTerm x.term1 ++ encTerm x.term2
      ++ b1 x.action.code

def encReport (x : ReportCfg) : List Byte := b1 x.mode.code ++ b1 x.every ++ b2 x.interval

def encTrunk (x : TrunkCfg) : List Byte :=
  bBool x.configured ++ b2 x.bitRate ++ b1 x.replyWindow ++ b2 x.gap ++ b2 x.roundInterval
    ++ b1 x.slowDivisor ++ b2 x.settle

def encNodeCfg : Option NodeCfg → List Byte
  | none => b1 6
  | some x => b1 x.kind.code ++ b1 x.poll.code

def encZoneOrNone : Option (Fin 8) → List Byte
  | some z => b1 z.val
  | none => b1 8

def encPrereq (p : Prereq) : List Byte := encAxis p.axis ++ i2 p.min ++ i2 p.max

def encMotionCall (k : MotionCall) : List Byte :=
  b2 k.message ++ w2 k.areas ++ b1 k.priority ++ b1 k.gap

/-- The content of an AXIS entry; an absent payload is one zero byte (log 65). -/
def encAxisCfg (x : AxisCfg) : List Byte :=
  bBool x.configured ++ encNode x.drive ++ bOpt 2 encNode x.panel ++ encZoneOrNone x.zone
    ++ (i2 x.posMin ++ i2 x.posMax ++ b2 x.vMax ++ b2 x.acc ++ b1 x.kp ++ b2 x.deadband
    ++ b2 x.creepDistance ++ b2 x.vCreep ++ b1 x.controlPeriod ++ b2 x.keepalive
    ++ b1 x.lockTimeout ++ b2 x.stallVelocity ++ b2 x.overloadLimit)
    ++ (b1 x.haltMask.toNat ++ b1 x.noteMask.toNat ++ b2 x.stageUp ++ b2 x.stageDown
    ++ bOpt 1 bPayload x.lowPayload ++ bOpt 1 bPayload x.highPayload
    ++ bOpt 5 encPrereq x.prereq1 ++ bOpt 5 encPrereq x.prereq2
    ++ bOpt 6 encMotionCall x.motionCall)

def encProfile : Option Breakpoint → List Byte
  | none => b1 0 ++ i2 0 ++ b2 0
  | some x => b1 1 ++ i2 x.position ++ b2 x.speed

def encZone (x : ZoneCfg) : List Byte :=
  b1 x.warning ++ b1 x.fireWarning ++ b2 x.warningMessage ++ b2 x.fireMessage ++ w2 x.areas
    ++ b1 x.callGap

def encDoor (x : DoorCfg) : List Byte :=
  bBool x.configured ++ encNode x.node ++ b1 x.zone1.val
    ++ bOpt 1 (fun (z : Fin 8) => b1 z.val) x.zone2
    ++ b1 x.closeTimeout ++ b1 x.retryDelay ++ b1 x.retryLimit ++ b1 x.transitTime
    ++ bBool x.reopenWithZone

def encArea (l : List NodeId) : List Byte := bList encNode l

def encChannel (x : ChannelCfg) : List Byte :=
  bBool x.configured ++ encNode x.source ++ b1 x.offset ++ b1 x.width ++ bBool x.signed
    ++ b2 x.staleLimit

def encMonitor (x : MonitorCfg) : List Byte := bBool x.configured ++ bBool x.startEnabled

def encAction : Action → List Byte
  | .none => b1 0
  | .event code => b1 1 ++ b1 code
  | .call message areas priority repeats =>
    b1 2 ++ b2 message ++ w2 areas ++ b1 priority ++ b1 repeats
  | .closeZone z fire => b1 3 ++ b1 z.val ++ bBool fire
  | .derate value axes => b1 4 ++ b2 value ++ b1 axes.toNat
  | .output o high => b1 5 ++ b1 o.val ++ bBool high

def encMstate (x : StateCfg) : List Byte :=
  bBool x.inUse ++ b1 x.channel.val ++ b1 x.test.code ++ i2 x.threshold ++ b2 x.hold
    ++ b1 x.onHold.val ++ b2 x.timeout ++ b1 x.onTimeout.val ++ encZoneOrNone x.onStale
    ++ encAction x.action

def LampSource.kind : LampSource → Nat
  | .none => 0 | .axis _ => 1 | .zone _ => 2 | .door _ => 3 | .line _ => 4 | .monitor _ => 5
  | .trunk _ => 6

def LampSource.index : LampSource → Nat
  | .none => 0
  | .axis a => a.val + 1
  | .zone z => z.val
  | .door d => d.val
  | .line l => l.val
  | .monitor m => m.val
  | .trunk t => t.val

def encStyle (p : Nat × Style) : List Byte := b1 p.1 ++ b1 p.2.code

def encLamp (x : LampCfg) : List Byte :=
  b1 x.source.kind ++ b1 x.source.index ++ bList encStyle x.styles

def encLine (x : LineCfg) : List Byte := b1 x.filter ++ b1 x.edge.code ++ bBool x.event

def encParam (x : Param) : List Byte :=
  b2 x.beaconPeriod ++ w2 x.consoleStation ++ bBool (!x.permitForward) ++ b1 x.playLimit
    ++ b1 x.stageCount ++ b2 x.slowPeriod ++ b2 x.fastPeriod ++ b1 x.duty

/-- The configuration fields of an entry, as READ ENTRY returns them and the image holds them. -/
def Entry.bytes : Entry → List Byte
  | .route x => encRoute x
  | .permit x => encPermit x
  | .report x => encReport x
  | .trunk x => encTrunk x
  | .node x => encNodeCfg x
  | .axis x => encAxisCfg x
  | .profile x => encProfile x
  | .zone x => encZone x
  | .door x => encDoor x
  | .area x => encArea x
  | .channel x => encChannel x
  | .monitor x => encMonitor x
  | .mstate x => encMstate x
  | .lamp x => encLamp x
  | .line x => encLine x
  | .param x => encParam x

end Sys2Proof.Machine
end

