-- ==== Sys2Proof/Machine/Validate.lean ====
section
/-! DEFINITION. Entries of the tables: reading one, putting one in with its in-table checks (R6 step 3),
the validation of all tables (R183), and the cross-reference checks of a write (R6 step 4). -/

namespace Sys2Proof.Machine

/-! ### Reading an entry -/

/-- The content of an entry; nothing at LINE 14 and 15, which hold no line, and beyond a table. -/
def getEntry (c : Tables) (t : Table) (i : Nat) : Option Entry :=
  match t with
  | .route => some (.route c.routes[i]?)
  | .permit => c.permits[i]?.map .permit
  | .report => c.reports[i]?.map .report
  | .trunk => c.trunks[i]?.map .trunk
  | .node => c.nodes[i]?.map .node
  | .axis => c.axes[i]?.map .axis
  | .profile => c.profiles[i]?.map .profile
  | .zone => c.zones[i]?.map .zone
  | .door => c.doors[i]?.map .door
  | .area => c.areas[i]?.map .area
  | .channel => c.channels[i]?.map .channel
  | .monitor => c.monitors[i]?.map .monitor
  | .mstate => c.mstates[i]?.map .mstate
  | .lamp => c.lamps[i]?.map .lamp
  | .line => c.lines[i]?.map .line
  | .param => some (.param c.param)

/-- Whether an entry's content is the empty content of its table (R5, R180, log 9). -/
def Entry.empty : Entry → Bool
  | .report x => x.mode == .none
  | .zone x => x == emptyZone
  | .area x => x.isEmpty
  | .line _ => false
  | .param _ => false
  | .route x => x.isNone
  | .permit x => x.isNone
  | .node x => x.isNone
  | .profile x => x.isNone
  | .trunk x => !x.configured
  | .axis x => !x.configured
  | .door x => !x.configured
  | .channel x => !x.configured
  | .monitor x => !x.configured
  | .mstate x => !x.inUse
  | .lamp x => x.source == .none

/-! ### The route list (R19, R20) -/

/-- An entry goes to the place its station takes in station order. -/
def insertRoute (x : Route) : List Route → List Route
  | [] => [x]
  | y :: ys => if x.station.toNat ≤ y.station.toNat then x :: y :: ys else y :: insertRoute x ys

/-- Steps 3 and 4 of R19 against the other entries: the field that is a duplicate. -/
def routeDuplicate (others : List Route) (x : Route) : Option Nat :=
  if others.any fun y => y.station == x.station then some 3
  else
    match x.target with
    | .node n => if others.any fun y => y.target == .node n then some 5 else none
    | .function _ => none

/-- A ROUTE write (R19, R20): the new list and the ANSWER's detail, or the refusal's field. -/
def putRoute (l : List Route) (i : Nat) (x : Option Route) : Except Nat (List Route × Nat) :=
  match x with
  | none => if l.length < i then .error 2 else .ok (l.eraseIdx i, i)
  | some x =>
    let others := l.eraseIdx i
    match routeDuplicate others x with
    | some k => .error k
    | none =>
      if l.length < i then .error 2
      else
        let new := insertRoute x others
        .ok (new, new.idxOf x)

/-! ### Rules within an entry and within a table -/

/-- The breakpoint before and after an entry of the same axis, when in use. -/
def profileBefore (c : Tables) (i : Nat) : Option Breakpoint :=
  if i % 8 = 0 then none else (c.profiles[i - 1]?).join

def profileAfter (c : Tables) (i : Nat) : Option Breakpoint :=
  if i % 8 = 7 then none else (c.profiles[i + 1]?).join

/-- Steps 2 and 3 of R93: the field that breaks one. -/
def profileRules (c : Tables) (i : Nat) (x : Option Breakpoint) : Option Nat :=
  match x with
  | none => if (profileAfter c i).isSome then some 3 else none
  | some b =>
    if i % 8 ≠ 0 ∧ (profileBefore c i).isNone then some 3
    else
      let low := match profileBefore c i with
        | some p => decide (p.position < b.position)
        | none => true
      let high := match profileAfter c i with
        | some p => decide (b.position < p.position)
        | none => true
      if low && high then none else some 4

/-- A beacon period brought inside 100..5000 (R7). -/
def clampBeacon (n : Nat) : Nat := max 100 (min 5000 n)

/-- An entry goes into its table, past its in-table checks: the new tables and the detail of the
ANSWER, or the field that fails (R6 step 3). The detail is a ROUTE's position (R20); where no rule names
the detail of an OK, here and for every other request, it is 0: DESIGN CHOICE, unsafe (log 53). -/
def putEntry (c : Tables) (i : Nat) (e : Entry) : Except Nat (Tables × Nat) :=
  match e with
  | .route x =>
    match putRoute c.routes i x with
    | .ok (l, d) => .ok ({ c with routes := l }, d)
    | .error k => .error k
  | .permit x => .ok ({ c with permits := c.permits.setIfInBounds i x }, 0)
  | .report x => .ok ({ c with reports := c.reports.setIfInBounds i x }, 0)
  | .trunk x => .ok ({ c with trunks := c.trunks.setIfInBounds i x }, 0)
  | .node x => .ok ({ c with nodes := c.nodes.setIfInBounds i x }, 0)
  | .axis x => .ok ({ c with axes := c.axes.setIfInBounds i x }, 0)
  | .profile x =>
    match profileRules c i x with
    | some k => .error k
    | none => .ok ({ c with profiles := c.profiles.setIfInBounds i x }, 0)
  | .zone x => .ok ({ c with zones := c.zones.setIfInBounds i x }, 0)
  | .door x => .ok ({ c with doors := c.doors.setIfInBounds i x }, 0)
  | .area x => .ok ({ c with areas := c.areas.setIfInBounds i x }, 0)
  | .channel x =>
    if x.configured && decide (16 < x.offset + x.width) then .error 6
    else .ok ({ c with channels := c.channels.setIfInBounds i x }, 0)
  | .monitor x => .ok ({ c with monitors := c.monitors.setIfInBounds i x }, 0)
  | .mstate x => .ok ({ c with mstates := c.mstates.setIfInBounds i x }, 0)
  | .lamp x => .ok ({ c with lamps := c.lamps.setIfInBounds i x }, 0)
  | .line x =>
    if i < 14 then .ok ({ c with lines := c.lines.setIfInBounds i x }, 0) else .error 2
  | .param x => .ok ({ c with param := { x with beaconPeriod := clampBeacon x.beaconPeriod } }, 0)

/-- CLEAR TABLE's content of a table (R8). -/
def clearTable (c : Tables) (t : Table) : Tables :=
  let k := Tables.reset
  match t with
  | .route => { c with routes := k.routes }
  | .permit => { c with permits := k.permits }
  | .report => { c with reports := k.reports }
  | .trunk => { c with trunks := k.trunks }
  | .node => { c with nodes := k.nodes }
  | .axis => { c with axes := k.axes }
  | .profile => { c with profiles := k.profiles }
  | .zone => { c with zones := k.zones }
  | .door => { c with doors := k.doors }
  | .area => { c with areas := k.areas }
  | .channel => { c with channels := k.channels }
  | .monitor => { c with monitors := k.monitors }
  | .mstate => { c with mstates := k.mstates }
  | .lamp => { c with lamps := k.lamps }
  | .line => { c with lines := k.lines }
  | .param => { c with param := k.param }

/-! ### The validation (R183) -/

/-- Whether a node names a slot of a kind. -/
def slotIs (c : Tables) (n : NodeId) (k : NodeKind) : Bool := nodeKind c n == some k

/-- A ROUTE entry's reference. -/
def routeSound (c : Tables) (x : Route) : Bool :=
  match x.target with
  | .node n => (nodeCfg c n).isSome
  | .function _ => true

/-- A term's subject is configured. -/
def termSound (c : Tables) : Option Term → Bool
  | some (.axis a _) => c.axes[a].configured
  | some (.door d _) => c.doors[d].configured
  | some (.monitor m _) => c.monitors[m].configured
  | some (.zoneState _ _) => true
  | some (.zoneFire _ _) => true
  | some (.line _ _) => true
  | some (.service _) => true
  | none => true

def permitSound (c : Tables) (x : Option Permit) : Bool :=
  match x with
  | some p => termSound c p.term1 && termSound c p.term2
  | none => true

/-- A prerequisite names a configured axis. -/
def prereqSound (c : Tables) : Option Prereq → Bool
  | some p => c.axes[p.axis].configured
  | none => true

/-- The panel node, when present, is a slot of kind PANEL. -/
def panelSound (c : Tables) : Option NodeId → Bool
  | some n => slotIs c n .panel
  | none => true

/-- Another configured axis that satisfies `p` names the same drive node. -/
def driveShared (c : Tables) (a : Fin 6) (p : Fin 6 → Bool) : Bool :=
  (List.finRange 6).any fun b =>
    p b && c.axes[b].configured && c.axes[b].drive == c.axes[a].drive

def axisSound (c : Tables) (a : Fin 6) : Bool :=
  !c.axes[a].configured ||
    (slotIs c c.axes[a].drive .drive && !driveShared c a (fun b => decide (b < a))
      && panelSound c c.axes[a].panel && prereqSound c c.axes[a].prereq1
      && prereqSound c c.axes[a].prereq2)

/-- A configured axis has at least 2 breakpoints (R93). -/
def profileSound (c : Tables) (a : Fin 6) : Bool :=
  !c.axes[a].configured || decide (2 ≤ (breakpoints c a).length)

/-- Another configured door that satisfies `p` names the same node. -/
def doorShared (c : Tables) (d : Fin 32) (p : Fin 32 → Bool) : Bool :=
  (List.finRange 32).any fun b =>
    p b && c.doors[b].configured && c.doors[b].node == c.doors[d].node

def doorSound (c : Tables) (d : Fin 32) : Bool :=
  !c.doors[d].configured ||
    (slotIs c c.doors[d].node .door && !doorShared c d (fun b => decide (b < d)))

/-- Another area that satisfies `p` names one of the area's amplifiers. -/
def ampShared (c : Tables) (i : Fin 16) (p : Fin 16 → Bool) : Bool :=
  (List.finRange 16).any fun j => p j && (c.areas[j]).any fun n => (c.areas[i]).contains n

def areaSound (c : Tables) (i : Fin 16) : Bool :=
  (c.areas[i]).all (fun n => slotIs c n .amp) && !ampShared c i (fun j => decide (j < i))

def channelSound (c : Tables) (ch : Fin 32) : Bool :=
  !c.channels[ch].configured || (nodeCfg c c.channels[ch].source).isSome

def monitorSound (c : Tables) (m : Fin 16) : Bool :=
  !(c.monitors[m].configured && c.monitors[m].startEnabled) || graphPasses c m

/-- The monitor of an MSTATE entry. -/
def mstateMonitor (i : Fin 128) : Fin 16 := ⟨i.val / 8, by omega⟩

def mstateSound (c : Tables) (i : Fin 128) : Bool :=
  !(c.monitors[mstateMonitor i].configured && c.mstates[i].inUse)
    || c.channels[c.mstates[i].channel].configured

/-- The first index that fails a table's check, with the table. -/
def firstUnsound {n : Nat} (t : Table) (index : Fin n → Nat) (p : Fin n → Bool) :
    Option (Table × Nat) :=
  ((List.finRange n).find? fun i => !p i).map fun i => (t, index i)

/-- The first entry that fails the validation (R183). -/
def validate (c : Tables) : Option (Table × Nat) :=
  ((c.routes.findIdx? fun x => !routeSound c x).map fun i => (Table.route, i))
    <|> firstUnsound .permit (·.val) (fun (i : Fin 64) => permitSound c c.permits[i])
    <|> firstUnsound .axis (·.val) (axisSound c)
    <|> firstUnsound .profile (fun a => 8 * a.val) (profileSound c)
    <|> firstUnsound .door (·.val) (doorSound c)
    <|> firstUnsound .area (·.val) (areaSound c)
    <|> firstUnsound .channel (·.val) (channelSound c)
    <|> firstUnsound .monitor (·.val) (monitorSound c)
    <|> firstUnsound .mstate (·.val) (mstateSound c)

/-! ### Cross-reference checks of a write (R6 step 4) -/

/-- The written AXIS entry's own references, in `c` as the write leaves it. -/
def axisFailure (c : Tables) (a : Fin 6) : Option Nat :=
  let x := c.axes[a]
  if !x.configured then none
  else if !slotIs c x.drive .drive || driveShared c a (fun b => b != a) then some 4
  else if !panelSound c x.panel then some 5
  else if !prereqSound c x.prereq1 then some 26
  else if !prereqSound c x.prereq2 then some 27
  else if !profileSound c a then some 3
  else none

def doorFailure (c : Tables) (d : Fin 32) : Option Nat :=
  if !c.doors[d].configured then none
  else if !slotIs c c.doors[d].node .door || doorShared c d (fun b => b != d) then some 4
  else none

/-- The written MSTATE entry: its channel (R148), then the states it names when its monitor starts
enabled (log 25). -/
def mstateFailure (c : Tables) (i : Fin 128) : Option Nat :=
  let x := c.mstates[i]
  let m := mstateMonitor i
  if !x.inUse then none
  else if !c.channels[x.channel].configured then some 4
  else if c.monitors[m].configured && c.monitors[m].startEnabled then
    if !(mstate c m x.onHold).inUse then some 8
    else if x.timeout != 0 && !(mstate c m x.onTimeout).inUse then some 10
    else
      match x.onStale with
      | some s => if !(mstate c m s).inUse then some 11 else none
      | none => none
  else none

/-- The field of the written entry that fails a reference the entry makes itself. A MONITOR header with
start enabled whose graph check fails names start enabled, which is the model's choice (R149, log 50). -/
def ownFailure (c : Tables) (i : Nat) : Entry → Option Nat
  | .route (some x) => if routeSound c x then none else some 5
  | .permit (some x) =>
    if !termSound c x.term1 then some 7 else if !termSound c x.term2 then some 8 else none
  | .axis _ => if h : i < 6 then axisFailure c ⟨i, h⟩ else none
  | .door _ => if h : i < 32 then doorFailure c ⟨i, h⟩ else none
  | .channel x => if x.configured && (nodeCfg c x.source).isNone then some 4 else none
  | .monitor _ =>
    if h : i < 16 then (if monitorSound c ⟨i, h⟩ then none else some 4) else none
  | .mstate _ => if h : i < 128 then mstateFailure c ⟨i, h⟩ else none
  | .route none => none
  | .permit none => none
  | .report _ => none
  | .trunk _ => none
  | .node _ => none
  | .profile _ => none
  | .zone _ => none
  | .area _ => none
  | .lamp _ => none
  | .line _ => none
  | .param _ => none

/-- The cross-reference checks of a write, over the tables as it would leave them: the entry's own
references, then any entry the write would leave failing R183, which names field 3: the configured,
in use, kind or amplifiers field (R6 step 4, log 26). -/
def crossFailure (c : Tables) (i : Nat) (e : Entry) : Option Nat :=
  match ownFailure c i e with
  | some k => some k
  | none => if (validate c).isSome then some 3 else none

end Sys2Proof.Machine
end

