-- ==== Sys2Proof/Machine/Write.lean ====
section
/-! DEFINITION. WRITE ENTRY (R6): the owners' write restrictions, the checks, what a write that passes does
to the owner's runtime; and the data of READ ENTRY (R5). -/

namespace Sys2Proof.Machine

/-! ### Write restrictions (R6 step 2) -/

/-- SETTLING and RUNNING hold off writes to a trunk and its nodes (R41, R47). -/
def trunkRestriction (r : Run) (t : Fin 4) : Option Verdict :=
  match r.trunks[t].state with
  | .down | .held => none
  | .settling | .running => some (.state, det r.trunks[t].state.code)

/-- Axis and profile writes are taken in OFFLINE, LOCKED and STILL (R68). -/
def axisRestriction (r : Run) (a : Fin 6) : Option Verdict :=
  match r.axes[a].state with
  | .offline | .locked | .still => none
  | .unlocking | .moving | .stopping | .locking | .halted =>
    some (.state, det r.axes[a].state.code)

/-- The zones a DOOR content names, read from its bytes: configured, node, first zone, second
zone (R106 step 2, log 38). -/
def zonesInContent : List Byte → List (Fin 8)
  | used :: _ :: _ :: z1 :: rest =>
    let zone := fun (b : Byte) => if h : b.toNat < 8 then [(⟨b.toNat, h⟩ : Fin 8)] else []
    if used = 1 then
      zone z1 ++ (match rest with
        | p :: z2 :: _ => if p = 1 then zone z2 else []
        | _ => [])
    else []
  | _ => []

/-- The zones a door entry names; an unconfigured door names none (R107). -/
def zonesNamed (x : DoorCfg) : List (Fin 8) := if x.configured then doorZones x else []

/-- Steps 1 and 2 of R106. -/
def doorRestriction (c : Tables) (r : Run) (d : Fin 32) (body : List Byte) : Option Verdict :=
  match r.doors[d].state with
  | .opening | .closing | .obstructed | .transit => some (.state, det r.doors[d].state.code)
  | .offline | .opened | .closed | .fault =>
    let zones := zonesNamed c.doors[d] ++ zonesInContent body
    ((List.finRange 8).find? fun z => zones.contains z && r.zones[z].active).map fun z =>
      (.state, det (8 + z.val))

/-- An enabled monitor's current state reads the channel (R145). -/
def channelRestriction (c : Tables) (r : Run) (ch : Fin 32) : Option Verdict :=
  ((List.finRange 16).find? fun m => reads c r m ch).map fun m => (.state, det m.val)

/-- A monitor is written only while it is disabled (R148). -/
def monitorRestriction (r : Run) (m : Fin 16) : Option Verdict :=
  if r.monitors[m].enabled then some (.state, det 1) else none

/-- The owner's write restriction for the entry at an index (R6 step 2); `body` is the content. -/
def restriction (c : Tables) (r : Run) (t : Table) (i : Nat) (body : List Byte) :
    Option Verdict :=
  match t with
  | .trunk => if h : i < 4 then trunkRestriction r ⟨i, h⟩ else none
  | .node => if h : i < 124 then trunkRestriction r (nodeOfIndex ⟨i, h⟩).trunk else none
  | .axis => if h : i < 6 then axisRestriction r ⟨i, h⟩ else none
  | .profile => if h : i < 48 then axisRestriction r ⟨i / 8, by omega⟩ else none
  | .zone =>
    if h : i < 8 then
      (if r.zones[i].active then some (.state, det r.zones[i].state.code) else none)
    else none
  | .door => if h : i < 32 then doorRestriction c r ⟨i, h⟩ body else none
  | .area =>
    if h : i < 16 then (if r.areas[i].state = .playing then some (.state, det 1) else none)
    else none
  | .channel => if h : i < 32 then channelRestriction c r ⟨i, h⟩ else none
  | .monitor => if h : i < 16 then monitorRestriction r ⟨i, h⟩ else none
  | .mstate => if h : i < 128 then monitorRestriction r (mstateMonitor ⟨i, h⟩) else none
  | .route | .permit | .report | .lamp | .line | .param => none

/-! ### What a write does at once -/

/-- A TRUNK write changes the trunk's state in CONFIGURED (R41). -/
def Run.trunkWritten (r : Run) (t : Fin 4) (configured : Bool) : Run :=
  if r.gw.inForce then
    match r.trunks[t].state, configured with
    | .down, true => (r.modTrunk t fun k => { k with holdAsserted := true }).setTrunkState t .held
    | .held, false => (r.modTrunk t fun k => { k with holdAsserted := false }).setTrunkState t .down
    | .down, false => r
    | .held, true => r
    | .settling, _ => r
    | .running, _ => r
  else r

/-- The axis record when a write unconfigures the axis or changes its drive node (R68, log 29). -/
def AxisRt.unbound (x : AxisRt) : AxisRt :=
  { x with state := .offline, causes := 0, latest := none, panel := .none, owed := noOwed,
           wasActive := false, setPoint := none }

/-- An AXIS write takes effect (R68); an axis that becomes OFFLINE is judged by the axes with a
prerequisite on it (R83). -/
def Run.axisWritten (c c' : Tables) (r : Run) (a : Fin 6) : Run :=
  let was := r.axes[a].state
  let r :=
    if !c'.axes[a].configured || c'.axes[a].drive != c.axes[a].drive then
      let r := r.modAxis a AxisRt.unbound
      if was = .offline then r else Run.judgeOthers c' (r.endPlanOf a .offline) [a]
    else r
  if stageOn c'.axes[a] then r else r.modAxis a fun x => { x with stage := .low }

/-- A DOOR write takes effect (R106). -/
def Run.doorWritten (c c' : Tables) (r : Run) (d : Fin 32) : Run :=
  if !c'.doors[d].configured || c'.doors[d].node != c.doors[d].node then
    r.modDoor d fun _ => resetDoor
  else r

/-- A change of the PARAM fields of the console port and the chain takes effect (R7, R168). A write
that leaves the beacon period as it was leaves the beacon timer running: R7 restarts it at a change,
R17 at a write, and the model follows R7 (log 43). -/
def Run.paramWritten (c c' : Tables) (r : Run) : Run :=
  let r :=
    if c'.param.beaconPeriod ≠ c.param.beaconPeriod then
      r.setConsole { r.console with beaconTimer := some (ms c'.param.beaconPeriod) }
    else r
  if c'.param.slowPeriod ≠ c.param.slowPeriod ∨ c'.param.fastPeriod ≠ c.param.fastPeriod
      ∨ c'.param.duty ≠ c.param.duty then Run.restartFlash c' r
  else r

/-- What a write that passes does to its owner's runtime; `c` are the tables before it. -/
def Run.written (c c' : Tables) (r : Run) (t : Table) (i : Nat) : Run :=
  match t with
  | .report => if h : i < 124 then r.modReport ⟨i, h⟩ fun _ => resetReport else r
  | .trunk => if h : i < 4 then r.trunkWritten ⟨i, h⟩ c'.trunks[i].configured else r
  | .node => if h : i < 124 then r.modNode ⟨i, h⟩ fun _ => resetNode else r
  | .axis => if h : i < 6 then Run.axisWritten c c' r ⟨i, h⟩ else r
  | .door => if h : i < 32 then Run.doorWritten c c' r ⟨i, h⟩ else r
  | .area =>
    if h : i < 16 then (if r.gw.inForce then Run.judgeArea c' r ⟨i, h⟩ else r) else r
  | .channel => if h : i < 32 then r.modChannel ⟨i, h⟩ fun _ => resetChannel else r
  | .param => Run.paramWritten c c' r
  | .route | .permit | .profile | .zone | .monitor | .mstate | .lamp | .line => r

/-- Whether a content carries a beacon period that is clamped (R7). -/
def Entry.clamped : Entry → Bool
  | .param x => clampBeacon x.beaconPeriod != x.beaconPeriod
  | .route _ | .permit _ | .report _ | .trunk _ | .node _ | .axis _ | .profile _ | .zone _
  | .door _ | .area _ | .channel _ | .monitor _ | .mstate _ | .lamp _ | .line _ => false

/-- The field a refused write names in CONFIGURED: R20 refuses a ROUTE position beyond the count only
behind R19 step 5, the node slot. -/
def slotFirst (c : Tables) (e : Entry) (k : Nat) : Nat :=
  match e with
  | .route (some x) => if k = 2 ∧ routeSound c x = false then 5 else k
  | .route none | .permit _ | .report _ | .trunk _ | .node _ | .axis _ | .profile _ | .zone _
  | .door _ | .area _ | .channel _ | .monitor _ | .mstate _ | .lamp _ | .line _ | .param _ => k

/-- The content of a WRITE ENTRY is judged and put in (R6 steps 3 and 4). -/
def putContent (c : Tables) (r : Run) (i : Nat) (e : Entry) : Except Nat (Tables × Nat) :=
  match putEntry c i e with
  | .error k => .error (if r.gw.inForce then slotFirst c e k else k)
  | .ok (c', d) =>
    if r.gw.inForce then
      match crossFailure c' i e with
      | some k => .error k
      | none => .ok (c', d)
    else .ok (c', d)

/-- WRITE ENTRY past its index (R6 steps 2 to 4). -/
def writeAt (c : Tables) (r : Run) (t : Table) (i : Nat) (k : Cursor) : Tables × Run × Verdict :=
  match restriction c r t i k.bytes with
  | some v => (c, r, v)
  | none =>
    match contentForm t i k with
    | .error f => (c, r, .badRequest, det f)
    | .ok (e, _) =>
      match putContent c r i e with
      | .error f => (c, r, .badRequest, det f)
      | .ok (c', d) =>
        (c', Run.written c c' r t i, if e.clamped then (.clamped, det 3) else (.ok, det d))

/-- WRITE ENTRY to one table, from its entry index on (R6). LINE 14 and 15 hold no line. -/
def writeEntry (c : Tables) (r : Run) (t : Table) (body : List Byte) : Tables × Run × Verdict :=
  match (fld (nat2 0 (t.entries - 1)) : Parse Nat) { field := 2, bytes := body } with
  | .error f => (c, r, .badRequest, det f)
  | .ok (i, k) =>
    if t = .line ∧ 14 ≤ i then (c, r, .badRequest, det 2) else writeAt c r t i k

/-! ### READ ENTRY (R5): the runtime fields, in the order of the owners' field tables (log 6); an absent
payload is one zero byte behind its presence byte (log 65) -/

/-- running 0, stopped 1. -/
def bTimer (t : Timer) : List Byte := bBool t.isNone

/-- A call id 1..255, or none, which is coded 256. -/
def bCallId (id : Option Nat) : List Byte := b2 (id.getD 256)

def rtReport (x : ReportRt) : List Byte :=
  bOpt 1 bPayload x.last ++ b1 x.count ++ bTimer x.timer
    ++ bOpt 5 (fun p => bPayload p.1 ++ w4 p.2) x.pending

def bSource : TxSource → List Byte
  | .hold => b1 0
  | .poll => b1 1
  | .setPoint _ => b1 2
  | .queue => b1 3
  | .pass => b1 4

def bTransaction (k : Transaction) : List Byte :=
  b1 (address k.slot) ++ [k.code] ++ bPayload k.payload ++ bSource k.source

def rtTrunk (x : TrunkRt) : List Byte :=
  b1 x.state.code ++ bBool x.holdAsserted ++ bTimer x.settleTimer ++ b1 x.roundPhase
    ++ b1 x.roundPosition ++ bTimer x.roundTimer ++ b1 x.nonPoll
    ++ bOpt 4 bTransaction x.transaction

def rtNode (x : NodeRt) : List Byte :=
  b1 x.liveness.code ++ b1 x.misses ++ bOpt 1 bPayload x.payload ++ bOpt 4 w4 x.time
    ++ bBool x.mark

def bDriveStatus (d : DriveStatus) : List Byte := i2 d.position ++ b2 d.pressure ++ [d.flags]

def bOwed (x : Owed) : List Byte := b1 (x.unlock.toNat + 2 * x.lock.toNat + 4 * x.stage.toNat)

def rtAxis (x : AxisRt) : List Byte :=
  b1 x.state.code ++ w2 (x.causes.zeroExtend 16) ++ b1 x.control.code ++ b1 x.origin.code
    ++ i2 x.target ++ bBool x.lockAtEnd ++ i2 x.sentDemand ++ b1 x.stage.code
    ++ b2 x.bridgeDerate ++ bOpt 5 bDriveStatus x.latest ++ b1 x.panel.code
    ++ bTimer x.keepaliveTimer ++ bTimer x.lockTimer ++ bTimer x.controlTimer
    ++ bBool x.wasActive ++ bOwed x.owed ++ bBool x.overloadNoted ++ bCallId x.callId

def rtZone (x : ZoneRt) : List Byte :=
  bBool x.active ++ b1 (x.causes.toNat / 65536) ++ b2 (x.causes.toNat % 65536) ++ bBool x.fire
    ++ bBool x.override ++ bTimer x.warningTimer ++ bCallId x.callId ++ bBool x.callFire
    ++ b1 x.state.code

def bDoorStatus (d : DoorStatus) : List Byte :=
  b1 d.position.code
    ++ b1 (d.obstruction.toNat + 2 * d.transitRequest.toNat + 4 * d.localFault.toNat)

/-- stopped 0, MOVE 1, RETRY 2, TRANSIT 3. -/
def bDoorTimer : Option (DoorTimer × Nat) → List Byte
  | none => b1 0
  | some (.move, _) => b1 1
  | some (.retry, _) => b1 2
  | some (.transit, _) => b1 3

def rtDoor (x : DoorRt) : List Byte :=
  b1 x.state.code ++ b1 x.retriesUsed ++ bDoorTimer x.timer ++ bBool x.transitMark
    ++ b1 x.pending.code ++ bOpt 2 bDoorStatus x.latest

/-- An awaited amplifier: node, armed mark, and the PLAY frame's code and payload. -/
def bAwaited (w : Awaited) : List Byte :=
  encNode w.node ++ bBool w.armed ++ [codePlay] ++ bPayload (b2 w.message)

def rtArea (x : AreaRt) : List Byte :=
  b1 x.state.code ++ bCallId x.callId ++ bOpt 2 b2 x.message
    ++ bList bAwaited x.awaited ++ bTimer x.playTimer ++ bBool x.startMark

def rtChannel (x : ChannelRt) : List Byte :=
  bOpt 4 i4 x.value ++ bBool x.stale ++ bTimer x.timer

def rtMonitor (x : MonitorRt) : List Byte :=
  bBool x.enabled ++ b1 x.current.val ++ bTimer x.holdTimer ++ bTimer x.timeoutTimer
    ++ bCallId x.callId ++ bOpt 3 (fun p => b2 p.1 ++ b1 p.2.toNat) x.derate

def rtLine (x : LineRt) : List Byte := bBool x.raw ++ bBool x.accepted ++ bTimer x.filterTimer

/-- The runtime fields of an entry, as READ ENTRY returns them behind the configuration fields. -/
def runtimeBytes (r : Run) (t : Table) (i : Nat) : List Byte :=
  let at' := fun {α : Type} (x : Option α) (enc : α → List Byte) => (x.map enc).getD []
  match t with
  | .report => at' r.reports[i]? rtReport
  | .trunk => at' r.trunks[i]? rtTrunk
  | .node => at' r.nodes[i]? rtNode
  | .axis => at' r.axes[i]? rtAxis
  | .zone => at' r.zones[i]? rtZone
  | .door => at' r.doors[i]? rtDoor
  | .area => at' r.areas[i]? rtArea
  | .channel => at' r.channels[i]? rtChannel
  | .monitor => at' r.monitors[i]? rtMonitor
  | .line => at' r.lines[i]? rtLine
  | .route | .permit | .profile | .mstate | .lamp | .param => []

/-- The data of a READ ENTRY: the fields of the entry, or none for an entry held as empty (R5). -/
def entryData (c : Tables) (r : Run) (t : Table) (i : Nat) : List Byte :=
  match getEntry c t i with
  | none => []
  | some e => if e.empty then [] else e.bytes ++ runtimeBytes r t i

/-- READ ENTRY (R5). -/
def readEntry (c : Tables) (r : Run) (body : List Byte) : Verdict × List Byte :=
  match formRead.run' 1 body with
  | .error f => ((.badRequest, det f), [])
  | .ok (t, i) => ((.ok, 0), entryData c r t i)

/-- CLEAR TABLE (R8): the table's empty content; PARAM's timers follow its fields (log 30). -/
def clearRequest (c : Tables) (r : Run) (body : List Byte) : Tables × Run × Verdict :=
  match formTable.run' 1 body with
  | .error f => (c, r, .badRequest, det f)
  | .ok t =>
    let c' := clearTable c t
    (c', if t = .param then Run.paramWritten c c' r else r, .ok, 0)

end Sys2Proof.Machine
end

