-- ==== Sys2Proof/Machine/Memory.lean ====
section
/-! DEFINITION. The external memory of 64 KiB (sections 11.1, 11.2): reading and writing its bytes and its
pages of 128 bytes, in one canonical form. -/

namespace Sys2Proof.Machine

/-- What an unlisted address reads as (log 12). -/
def unlistedByte : Byte := 0

/-- Addresses strictly rise from `low` on, lie in the 64 KiB, and no entry equals what an unlisted
address reads as. -/
def Memory.wfFrom (low : Nat) : Memory → Bool
  | [] => true
  | (a, b) :: m =>
    decide (low ≤ a) && decide (a < Config.memoryPages * Config.pageBytes) && b != unlistedByte
      && Memory.wfFrom (a + 1) m

/-- The canonical form. -/
def Memory.wf (m : Memory) : Bool := Memory.wfFrom 0 m

/-- The byte at an address. -/
def Memory.read (m : Memory) (a : Nat) : Byte :=
  match m with
  | [] => unlistedByte
  | (k, b) :: m => if a = k then b else if a < k then unlistedByte else Memory.read m a

/-- An entry for a byte, or none for the byte an unlisted address reads as. -/
def Memory.cell (a : Nat) (b : Byte) : Memory := if b = unlistedByte then [] else [(a, b)]

/-- A byte is written; the canonical form is kept. -/
def Memory.write (m : Memory) (a : Nat) (b : Byte) : Memory :=
  match m with
  | [] => Memory.cell a b
  | (k, x) :: m =>
    if a < k then Memory.cell a b ++ (k, x) :: m
    else if a = k then Memory.cell a b ++ m
    else (k, x) :: Memory.write m a b

/-- Bytes are written from an address on. -/
def Memory.writeAll (m : Memory) (a : Nat) : List Byte → Memory
  | [] => m
  | b :: bs => Memory.writeAll (m.write a b) (a + 1) bs

/-- `n` bytes from an address on. -/
def Memory.readAll (m : Memory) (a : Nat) : Nat → List Byte
  | 0 => []
  | n + 1 => m.read a :: Memory.readAll m (a + 1) n

/-- The bytes of a page (R180). -/
def Memory.page (m : Memory) (p : Nat) : List Byte :=
  m.readAll (Config.pageBytes * p) Config.pageBytes

/-- A page written with bytes of a page (R181); the memory has no page beyond its 512. -/
def Memory.writePage (m : Memory) (p : Nat) (bytes : List Byte) : Memory :=
  if p < Config.memoryPages then m.writeAll (Config.pageBytes * p) (bytes.take Config.pageBytes)
  else m

/-- A page whose write was cut short: its bytes are free values (R181, log 13). -/
def Memory.tearPage (m : Memory) (p : Nat) : Memory :=
  m.writePage p ((List.range Config.pageBytes).map fun k =>
    Config.tornByte (Config.pageBytes * p + k))

end Sys2Proof.Machine
end

