-- ==== Sys2Proof/Machine/Store.lean ====
section
/-! DEFINITION. The configuration store (chapter 11): the image, saving, loading, the change to CONFIGURED,
and the reset. These act on the whole state. -/

namespace Sys2Proof.Machine

/-! ### The image (R180, log 10) -/

/-- One record: table id, entry index, the entry's configuration fields. -/
def imageRecord (t : Table) (i : Nat) (e : Entry) : List Byte := b1 t.id ++ b2 i ++ e.bytes

/-- The records of one table, ascending, without its empty entries. -/
def tableRecords (c : Tables) (t : Table) : List Byte :=
  (List.range t.entries).flatMap fun i =>
    match getEntry c t i with
    | some e => if e.empty then [] else imageRecord t i e
    | none => []

/-- The end mark. -/
def endMark : Byte := 0xFF

/-- The tables whose records stand before PARAM's fields. -/
def recordTables : List Table := allTables.filter fun t => t != .param

/-- The records, PARAM's fields and the end mark. -/
def imageBody (c : Tables) : List Byte :=
  recordTables.flatMap (tableRecords c) ++ imageRecord .param 0 (.param c.param) ++ [endMark]

/-- Bytes of the header: length and CRC-16. -/
def headerBytes : Nat := 4

/-- The number of pages an image of `n` bytes takes. -/
def pagesFor (n : Nat) : Nat := (n + Config.pageBytes - 1) / Config.pageBytes

/-- The image: header, body, and zero bytes to the end of the last page. -/
def image (c : Tables) : List Byte :=
  let body := imageBody c
  let pages := pagesFor (headerBytes + body.length)
  let rest := body ++ List.replicate (Config.pageBytes * pages - headerBytes - body.length) 0
  b2 pages ++ w2 (crc16 rest) ++ rest

/-- The pages of an image. -/
def imagePages (bytes : List Byte) : Nat := bytes.length / Config.pageBytes

/-- One page of an image. -/
def imagePage (bytes : List Byte) (p : Nat) : List Byte :=
  (bytes.drop (Config.pageBytes * p)).take Config.pageBytes

/-- Page 0 with its header length set to 0 (R181 step 1). -/
def clearedFirst (page : List Byte) : List Byte := b2 0 ++ page.drop 2

/-! ### Reading an image back (R182) -/

/-- The length an image's header gives, in pages. -/
def headerLength (bytes : List Byte) : Nat :=
  match bytes with
  | h :: l :: _ => (word2 h l).toNat
  | _ => 0

/-- The CRC-16 of the header matches the bytes behind it. -/
def headerGood (bytes : List Byte) : Bool :=
  match bytes with
  | _ :: _ :: h :: l :: rest => crc16 rest == word2 h l
  | _ => false

/-- A record's content is taken into its table, past the field ranges and the table's own write
checks (R182). -/
def takeRecord (c : Tables) (t : Table) : Parse Tables := do
  let i ← nat2 0 (t.entries - 1)
  let e ← content t i
  match putEntry c i e with
  | .ok (c', _) => if e.clamped then bad else pure c'
  | .error _ => bad

/-- The records of an image, up to the end mark; nothing when one is refused. The first argument
bounds the records. R182's table names neither an image that lacks the end mark, refused here, nor one
that lacks PARAM's record, taken here with PARAM at its reset values: DESIGN CHOICE, unsafe (log 56). -/
def takeRecords : Nat → Tables → List Byte → Option Tables
  | 0, _, _ => none
  | n + 1, c, bytes =>
    match bytes with
    | [] => none
    | b :: rest =>
      if b = endMark then some c
      else
        match tableOfId b.toNat with
        | none => none
        | some t =>
          match takeRecord c t { field := 0, bytes := rest } with
          | .error _ => none
          | .ok (c', k) => takeRecords n c' k.bytes

/-- The tables after the whole records at the head of these bytes: a record that is refused, or whose
last bytes are still to be read, ends the taking (R182). The first argument bounds the records. -/
def takeWhole : Nat → Tables → List Byte → Tables
  | 0, c, _ => c
  | n + 1, c, bytes =>
    match bytes with
    | [] => c
    | b :: rest =>
      match tableOfId b.toNat with
      | none => c
      | some t =>
        match takeRecord c t { field := 0, bytes := rest } with
        | .error _ => c
        | .ok (c', k) => takeWhole n c' k.bytes

/-- The tables while LOADING goes on, with the records read so far in them (R182); LAMP and PARAM take
their values when the image is found good (R172, log 11). -/
def tablesSoFar (bytes : List Byte) : Tables :=
  { takeWhole bytes.length Tables.reset (bytes.drop headerBytes) with
    lamps := Tables.reset.lamps, param := Tables.reset.param }

/-- The tables an image gives, when every record is accepted (R182). -/
def loadTables (bytes : List Byte) : Option Tables :=
  takeRecords bytes.length Tables.reset (bytes.drop headerBytes)

/-! ### The change to CONFIGURED (R42, R127, R160, R161, R183) -/

/-- A configured trunk enters SETTLING (R42). -/
def Run.startTrunk (c : Tables) (r : Run) (t : Fin 4) : Run :=
  if c.trunks[t].configured then Run.settle c r t else r

/-- Every area becomes UNAVAILABLE with its start mark set (R127). -/
def Run.startAreas (r : Run) : Run :=
  (List.finRange 16).foldl
    (fun r i => r.modArea i fun x => { x with state := .unavailable, startMark := true }) r

/-- The gateway becomes CONFIGURED: trunks, areas, monitors and lines begin from their tables, in this
order of the model's choice (log 51). -/
def Run.becomeConfigured (c : Tables) (r : Run) : Run :=
  let r := r.setGw .configured
  let r := (List.finRange 4).foldl (Run.startTrunk c) r
  let r := r.startAreas
  let r := (List.finRange 16).foldl (Run.startMonitor c) r
  (List.finRange 14).foldl (Run.judgeLineAnew c) r

/-! ### LOADING (R182) -/

/-- What LOADING finds, by the low byte of START_UP: the tables with outcome 0. -/
inductive LoadResult where
  | good (c : Tables)
  | unreadable
  | refused

/-- The image's finding once its last page has been read (R178, R182). -/
def judgeImageBytes (torn : Bool) (bytes : List Byte) : LoadResult :=
  if torn || !headerGood bytes then .unreadable
  else
    match loadTables bytes with
    | none => .refused
    | some c => if (validate c).isNone then .good c else .refused

/-- The store after LOADING or a save: IDLE, nothing held. R181 and R182 name only the snapshot and
the phase; that the page is 0 again is the model's choice (log 57). -/
def Store.idle (x : Store) : Store :=
  { x with phase := .idle, snapshot := none, page := 0, pageTimer := none, finalPass := false,
           loadBuffer := [] }

/-- LOADING ends: START_UP, the beacon timer, and the tables in force or empty (R17, R178,
R182). -/
def Run.loadingEnds (c : Tables) (r : Run) (outcome : Nat) (gw : GwState) : Run :=
  let cause := r.store.cause
  let r := ((r.setStore r.store.idle).setGw gw).raise .startUp 0 (det2 cause.code outcome)
  r.setConsole { r.console with beaconTimer := some (ms c.param.beaconPeriod) }

/-- LOADING ends with a finding. The flash phases under way run on with the time they have, whatever
period and duty a good image brings (R172), which is the model's choice (log 64). -/
def State.endLoading (s : State) (k : LoadResult) : State :=
  match k with
  | .good c =>
    (s.setCfg c).setRun
      (Run.becomeConfigured c (Run.loadingEnds c s.run 0 .configured))
  | .unreadable =>
    (s.setCfg Tables.reset).setRun (Run.loadingEnds Tables.reset s.run 1 .unconfigured)
  | .refused =>
    (s.setCfg Tables.reset).setRun (Run.loadingEnds Tables.reset s.run 2 .unconfigured)

/-- The page operation goes on with a page, under the page timer. -/
def Store.toPage (x : Store) (p : Nat) : Store :=
  { x with page := p, pageTimer := some (ms Config.pageTime) }

/-- A page has been read in LOADING: its records enter their tables, and the next page is read; after
the last one the image is judged (R182). -/
def State.pageLoaded (s : State) (bytes : List Byte) : State :=
  let x := s.run.store
  let buffer := x.loadBuffer ++ bytes
  let pages := headerLength buffer
  if pages = 0 ∨ Config.memoryPages < pages then s.endLoading .unreadable
  else if x.page + 1 < pages then
    (s.setCfg (tablesSoFar buffer)).setRun
      (s.run.setStore ({ x with loadBuffer := buffer }.toPage (x.page + 1)))
  else s.endLoading (judgeImageBytes s.extTorn buffer)

/-! ### Saving (R181) -/

/-- SAVE CONFIG starts a save (R11, R181). -/
def Run.startSave (c : Tables) (r : Run) : Run :=
  (r.setGw .storing).setStore
    ({ r.store with phase := .writing, snapshot := some (image c), finalPass := false }.toPage 0)

/-- The save ends with its event; the gateway returns to CONFIGURED (R181). -/
def Run.endSave (r : Run) (kind : EventKind) (detail : Word) : Run :=
  ((r.setStore r.store.idle).setGw .configured).raise kind 0 detail

/-- The bytes the store writes to its present page. -/
def Store.pageToWrite (x : Store) : List Byte :=
  let page := imagePage (x.snapshot.getD []) x.page
  if x.page = 0 && !x.finalPass then clearedFirst page else page

/-- The pages of the snapshot. -/
def Store.pages (x : Store) : Nat := imagePages (x.snapshot.getD [])

/-- What follows the write of a page: the next page, page 0 again, then VERIFYING (R181). -/
def Store.afterWrite (x : Store) : Store :=
  if x.finalPass then { x with phase := .verifying, finalPass := false }.toPage 0
  else if x.page + 1 < x.pages then x.toPage (x.page + 1)
  else { x with finalPass := true }.toPage 0

/-- The memory has finished a page write. -/
def State.pageWritten (s : State) : State :=
  let x := s.run.store
  (s.setMem (s.extMem.writePage x.page x.pageToWrite) (s.extTorn && x.page != 0)).setRun
    (s.run.setStore x.afterWrite)

/-- A page has been read back in VERIFYING. -/
def Run.pageVerified (r : Run) (bytes : List Byte) : Run :=
  let x := r.store
  if bytes ≠ imagePage (x.snapshot.getD []) x.page then r.endSave .storeFailed (det 1)
  else if x.page + 1 < x.pages then r.setStore (x.toPage (x.page + 1))
  else r.endSave .storeDone (det x.pages)

/-- The page timer expires (R181, R182). A write that did not finish leaves its page partly
written (log 13). -/
def State.pageExpired (s : State) : State :=
  match s.run.store.phase with
  | .idle => s
  | .loading => s.endLoading .unreadable
  | .writing =>
    (s.setMem (s.extMem.tearPage s.run.store.page) s.extTorn).setRun
      (s.run.endSave .storeFailed (det 2))
  | .verifying => s.setRun (s.run.endSave .storeFailed (det 3))

/-! ### Reset (R12, R39, R42, R66, R67, R105, R107, R127, R145, R160, R161, R165, R172, R179, R182) -/

/-- What a reset leaves in the external memory: a page being written is partly written; before
the last write of page 0 begins, the header length is 0 (R181, log 13). -/
def State.memAfterReset (s : State) : Memory × Bool :=
  let x := s.run.store
  if x.phase = .writing then
    let m := s.extMem.tearPage x.page
    if x.finalPass then (m, true) else ((m.write 0 0).write 1 0, false)
  else (s.extMem, s.extTorn)

/-- The raw levels of the lines, bit `n` for line `n`. -/
def rawLevels (r : Run) : BitVec 14 :=
  (List.finRange 14).foldl
    (fun w l => if r.lines[l].raw then setUnion w (setOf l.val) else w) 0

/-- A reset: every block at its reset values, LOADING begun. The commands that wait stay. -/
def State.resetBy (s : State) (cause : ResetCause) (raw : BitVec 14) : State :=
  let m := s.memAfterReset
  ((s.setCfg Tables.reset).setMem m.1 m.2).setRun
    (Run.reset cause raw s.run.chain.shown s.run.serial s.run.freeCount)

end Sys2Proof.Machine
end

