-- ==== Sys2Proof/Machine/Functions.lean ====
section
/-! DEFINITION. Function requests (R22): the request codes each function takes, their forms (R71), and the
requests on calls (R135). -/

namespace Sys2Proof.Machine

/-- What a function request comes to: the runtime, the outcome with its detail, the data. -/
abbrev Reply := Run × Verdict × List Byte

/-- A refused form: BAD_REQUEST with the field's number (R71). -/
def badForm (r : Run) (field : Nat) : Reply := (r, (.badRequest, det field), [])

/-- A request is judged first on its form (R71). -/
def withForm {α : Type} (p : Parse α) (body : List Byte) (r : Run) (k : α → Reply) : Reply :=
  match p.run' 1 body with
  | .error f => badForm r f
  | .ok a => k a

/-- A judged request without data. -/
def plain (o : Run × Verdict) : Reply := (o.1, o.2, [])

/-- The requests on an axis (section 4.3). -/
def axisRequest (c : Tables) (r : Run) (a : Fin 6) (code : Nat) (body : List Byte) : Reply :=
  match code with
  | 1 => withForm formMove body r fun m => plain (Run.requestMove c r a m.1 m.2)
  | 2 => withForm formNone body r fun _ => plain (Run.requestStop c r a)
  | 3 => withForm formNone body r fun _ => plain (Run.requestKeep c r a)
  | 4 => withForm formNone body r fun _ => plain (Run.requestRelease c r a)
  | 5 => withForm formNone body r fun _ => plain (r.requestTake a)
  | 6 => withForm formNone body r fun _ => plain (Run.requestGrant c r a)
  | 7 => withForm formDerate body r fun v => plain (r.requestDerate a v)
  | _ => badForm r 0

/-- The requests on the plan (section 4.8). -/
def planRequest (c : Tables) (r : Run) (code : Nat) (body : List Byte) : Reply :=
  match code with
  | 1 => withForm formPlanStart body r fun steps => plain (Run.requestPlanStart c r steps)
  | 2 => withForm formNone body r fun _ => plain (Run.requestPlanKeep c r)
  | 3 => withForm formNone body r fun _ => plain (Run.requestPlanCancel c r)
  | _ => badForm r 0

/-- The requests on a zone (section 6.9). -/
def zoneRequest (c : Tables) (r : Run) (z : Fin 8) (code : Nat) (body : List Byte) : Reply :=
  match code with
  | 1 => withForm formZoneClose body r fun fire => plain (Run.requestZoneClose c r z fire)
  | 2 => withForm formNone body r fun _ => plain (Run.requestReopen c r z)
  | 3 => withForm formNone body r fun _ => plain (r.requestOverride z)
  | _ => badForm r 0

/-- The requests on a door (section 6.9). -/
def doorRequest (c : Tables) (r : Run) (d : Fin 32) (code : Nat) (body : List Byte) : Reply :=
  match code with
  | 1 => withForm formNone body r fun _ => plain (Run.requestDoorOpen c r d)
  | 2 => withForm formNone body r fun _ => plain (Run.requestDoorClose c r d)
  | _ => badForm r 0

/-- The call a PLACE CALL offers: repeats above 15 are taken as 15, a gap above 60 as 60 (R135). -/
def clampCall (o : CallOffer) : CallOffer := { o with repeats := min 15 o.repeats, gap := min 60 o.gap }

/-- The outcome of a call that is taken: CLAMPED names the first clamped field (R135). -/
def callVerdict (o : CallOffer) : Verdict :=
  if 15 < o.repeats then (.clamped, det 4)
  else if 60 < o.gap then (.clamped, det 5)
  else (.ok, 0)

/-- PLACE CALL (R130, R132, R135). -/
def Run.requestPlace (c : Tables) (r : Run) (o : CallOffer) : Reply :=
  let p := Run.offerCall c r (clampCall o)
  match p.2 with
  | .entered id => (p.1, callVerdict o, b1 id ++ b1 0)
  | .merged id => (p.1, callVerdict o, b1 id ++ b1 1)
  | .refused priority => (p.1, (.queueFull, det priority), [])

/-- WITHDRAW CALL (R135). -/
def Run.requestWithdraw (c : Tables) (r : Run) (s : Selector) : Run × Verdict :=
  match s with
  | .byId id =>
    match findCall r id with
    | some k => (Run.withdrawByConsole c r k, .ok, det 1)
    | none => (r, .state, 0)
  | .byOrigin o =>
    let found := r.calls.filter fun k => k.origin == o
    (found.foldl (Run.withdrawByConsole c) r, .ok, det found.length)

/-- The requests on calls (section 7.2). -/
def callRequest (c : Tables) (r : Run) (code : Nat) (body : List Byte) : Reply :=
  match code with
  | 1 => withForm formPlaceCall body r fun o => Run.requestPlace c r o
  | 2 => withForm formWithdraw body r fun s => plain (Run.requestWithdraw c r s)
  | _ => badForm r 0

/-- The requests on a monitor (section 8.5). -/
def monitorRequest (c : Tables) (r : Run) (m : Fin 16) (code : Nat) (body : List Byte) : Reply :=
  match code with
  | 1 => withForm formNone body r fun _ => plain (Run.requestEnable c r m)
  | 2 => withForm formNone body r fun _ => plain (Run.requestDisable c r m)
  | 3 => withForm formNone body r fun _ => plain (Run.requestMonitorRestart c r m)
  | _ => badForm r 0

/-- The requests at the LINES function (R166). -/
def lineRequest (r : Run) (code : Nat) (body : List Byte) : Reply :=
  match code with
  | 1 => withForm formNone body r fun _ => (r, (.ok, 0), linesData r)
  | 2 => withForm formSetOutput body r fun o => plain (r.setOutput o.1 o.2 .console, .ok, 0)
  | _ => badForm r 0

/-- A function request is handed to the unit that owns the function (R22). -/
def functionRequest (c : Tables) (r : Run) (f : Function) (code : Nat) (body : List Byte) : Reply :=
  match f with
  | .axis a => axisRequest c r a code body
  | .plan => planRequest c r code body
  | .zone z => zoneRequest c r z code body
  | .door d => doorRequest c r d code body
  | .calls => callRequest c r code body
  | .monitor m => monitorRequest c r m code body
  | .lines => lineRequest r code body

/-- The ANSWER of a function request is made (R3, R22). -/
def Run.answerReply (c : Tables) (o : Reply) (req : Req) : Run :=
  Run.answer c o.1 req o.2.1.1 o.2.1.2 o.2.2

/-- A FUNCTION REQUEST handed over by R2 (R21, R22); an empty payload lacks its code, field 0. -/
def Run.functionFrame (c : Tables) (r : Run) (req : Req) (payload : List Byte) : Run :=
  match findRoute c req.dst with
  | none => Run.answer c r req .noRoute 0 []
  | some (.node _) => Run.answer c r req .badRequest 0 []
  | some (.function f) =>
    match payload with
    | [] => Run.answer c r req .badRequest 0 []
    | code :: body => Run.answerReply c (functionRequest c r f code.toNat body) req

/-- A NODE COMMAND handed over by R2 (R21, R23). -/
def Run.commandFrame (c : Tables) (r : Run) (req : Req) (payload : List Byte) : Run :=
  match findRoute c req.dst with
  | none => Run.answer c r req .noRoute 0 []
  | some (.node n) => Run.nodeCommand c r req n payload
  | some (.function _) => Run.answer c r req .badRequest 0 []

/-- A PASS REQUEST handed over by R2 (R21, R31). -/
def Run.passFrame (c : Tables) (r : Run) (req : Req) (payload : List Byte) : Run :=
  match findRoute c req.dst with
  | none => Run.answer c r req .noRoute 0 []
  | some (.node n) => Run.passRequest c r req n payload
  | some (.function _) => Run.answer c r req .badRequest 0 []

end Sys2Proof.Machine
end

