-- ==== Sys2Proof/Machine/Manage.lean ====
section
/-! DEFINITION. The judging of console frames (R2), the management requests (R4 to R14), the console
receiver and transmitter at the level of the whole state, and the close of an event (R109, R169). -/

namespace Sys2Proof.Machine

/-- The ANSWER of a request is made. -/
def State.answer (s : State) (req : Req) (v : Verdict) (data : List Byte) : State :=
  s.setRun (Run.answer s.cfg s.run req v.1 v.2 data)

/-! ### R2 -/

/-- Steps 1 and 2 of R2. -/
def busyNow (r : Run) : Bool := r.gw == .loading || r.console.restartPending

/-- A request to a station other than 0000h: steps 1 to 4 of R2, then the hand-over. -/
def State.deckFrame (s : State) (req : Req) (k : Tables → Run → Run) : State :=
  if busyNow s.run then s.answer req (.busy, 0) []
  else if req.dst = 0 then s.answer req (.badRequest, 0) []
  else if s.run.gw = .unconfigured then s.answer req (.unconfigured, 0) []
  else s.setRun (k s.cfg s.run)

/-- A MANAGEMENT REQUEST's own answer fields: it is addressed to 0000h (R2). -/
def manageReq (src : Word) (tag : Byte) : Req := { src, dst := 0, tag }

/-! ### The gating of R4 -/

/-- The management requests, with their codes (section 12.7). -/
inductive Management where
  | readEntry | writeEntry | clearTable | readStatus | collectEvents | saveConfig | start
  | restart | trunkHold | trunkRelease | lampTest | setOutput
deriving DecidableEq, Repr

/-- The request of a code; none for an unknown one (R4 step 1). -/
def managementOfCode (n : Nat) : Option Management :=
  match n with
  | 1 => some .readEntry | 2 => some .writeEntry | 3 => some .clearTable | 4 => some .readStatus
  | 5 => some .collectEvents | 6 => some .saveConfig | 7 => some .start | 8 => some .restart
  | 9 => some .trunkHold | 10 => some .trunkRelease | 11 => some .lampTest
  | 12 => some .setOutput | _ => none

/-- Step 2 of R4: how the gateway state turns a request away. -/
def gated (m : Management) (gw : GwState) : Option Verdict :=
  match m, gw with
  | .clearTable, .configured | .start, .configured => some (.state, det GwState.configured.code)
  | .saveConfig, .unconfigured => some (.state, det GwState.unconfigured.code)
  | .writeEntry, .storing | .clearTable, .storing | .saveConfig, .storing | .start, .storing
  | .restart, .storing => some (.storing, 0)
  | _, _ => none

/-- A management request past R2 and R4's first two steps. -/
def State.manage (s : State) (req : Req) (m : Management) (k : State → State) : State :=
  if busyNow s.run then s.answer req (.busy, 0) []
  else
    match gated m s.run.gw with
    | some v => s.answer req v []
    | none => k s

/-- A form is judged, or answered BAD_REQUEST with its field (R4 step 3). -/
def State.formed {α : Type} (s : State) (req : Req) (p : Parse α) (body : List Byte)
    (k : α → State) : State :=
  match p.run' 1 body with
  | .error f => s.answer req (.badRequest, det f) []
  | .ok a => k a

/-! ### The management requests -/

/-- READ ENTRY (R5). -/
def State.doReadEntry (s : State) (req : Req) (body : List Byte) : State :=
  let o := readEntry s.cfg s.run body
  s.answer req o.1 o.2

/-- WRITE ENTRY to a table (R6). -/
def State.doWriteEntry (s : State) (req : Req) (t : Table) (body : List Byte) : State :=
  let o := writeEntry s.cfg s.run t body
  ((s.setCfg o.1).setRun o.2.1).answer req o.2.2 []

/-- CLEAR TABLE (R8). -/
def State.doClearTable (s : State) (req : Req) (body : List Byte) : State :=
  let o := clearRequest s.cfg s.run body
  ((s.setCfg o.1).setRun o.2.1).answer req o.2.2 []

/-- The data of READ STATUS (R9, log 6). -/
def statusData (r : Run) : List Byte :=
  b1 r.gw.code ++ b2 r.console.errors ++ b2 r.console.drops ++ b1 r.console.queue.length
    ++ r.trunks.toList.flatMap (fun t => b1 t.state.code)

/-- READ STATUS (R9). -/
def State.doReadStatus (s : State) (req : Req) (body : List Byte) : State :=
  s.formed req formClear body fun clear =>
    let data := statusData s.run
    let s :=
      if clear then s.setRun (s.run.setConsole { s.run.console with errors := 0, drops := 0 })
      else s
    s.answer req (.ok, 0) data

/-- COLLECT EVENTS: the ANSWER's data stay open until its transmission begins (R10). -/
def State.doCollect (s : State) (req : Req) (body : List Byte) : State :=
  s.formed req formNone body fun _ =>
    s.setRun (Run.kickConsole s.cfg (s.run.setConsole (s.run.console.offerAnswer
      { req, code := .ok, detail := 0, data := .collect, restart := false }).1))

/-- SAVE CONFIG (R11). -/
def State.doSave (s : State) (req : Req) (body : List Byte) : State :=
  s.formed req formNone body fun _ =>
    (s.setRun (Run.startSave s.cfg s.run)).answer req (.ok, 0) []

/-- START (R11, R183). -/
def State.doStart (s : State) (req : Req) (body : List Byte) : State :=
  s.formed req formNone body fun _ =>
    match validate s.cfg with
    | some (t, i) => s.answer req (.badRequest, det2 t.id i) []
    | none => (s.setRun (Run.becomeConfigured s.cfg s.run)).answer req (.ok, 0) []

/-- The lowest axis in motion, which holds off RESTART (R12). -/
def movingAxis (r : Run) : Option (Fin 6) :=
  (List.finRange 6).find? fun a => r.axes[a].state.inMotion

/-- An accepted RESTART: restart pending is set; a dropped ANSWER resets at once (R12). -/
def State.acceptRestart (s : State) (req : Req) : State :=
  let o := { s.run.console with restartPending := true }.offerAnswer
    { req, code := .ok, detail := 0, data := .fixed [], restart := true }
  if o.2 then s.resetBy .restart (rawLevels s.run)
  else s.setRun (Run.kickConsole s.cfg (s.run.setConsole o.1))

/-- RESTART (R12). -/
def State.doRestart (s : State) (req : Req) (body : List Byte) : State :=
  s.formed req formNone body fun _ =>
    match if s.run.gw.inForce then movingAxis s.run else none with
    | some a => s.answer req (.busy, det (axisNo a)) []
    | none => s.acceptRestart req

/-- TRUNK HOLD (R13, R43). -/
def State.doTrunkHold (s : State) (req : Req) (body : List Byte) : State :=
  s.formed req formTrunk body fun t =>
    match s.run.trunks[t].state with
    | .settling | .running => (s.setRun (Run.holdTrunk s.cfg s.run t)).answer req (.ok, 0) []
    | .down | .held => s.answer req (.state, det s.run.trunks[t].state.code) []

/-- TRUNK RELEASE (R13, R44). -/
def State.doTrunkRelease (s : State) (req : Req) (body : List Byte) : State :=
  s.formed req formTrunk body fun t =>
    match s.run.trunks[t].state with
    | .held => (s.setRun (Run.settle s.cfg s.run t)).answer req (.ok, 0) []
    | .down | .settling | .running => s.answer req (.state, det s.run.trunks[t].state.code) []

/-- LAMP TEST (R14, R171). -/
def State.doLampTest (s : State) (req : Req) (body : List Byte) : State :=
  s.formed req formNone body fun _ => (s.setRun s.run.lampTest).answer req (.ok, 0) []

/-- SET OUTPUT (R14, R165). -/
def State.doSetOutput (s : State) (req : Req) (body : List Byte) : State :=
  s.formed req formSetOutput body fun o =>
    (s.setRun (s.run.setOutput o.1 o.2 .console)).answer req (.ok, 0) []

/-- A WRITE ENTRY frame whose table is still to be read from its payload. -/
def State.doWriteAny (s : State) (req : Req) (body : List Byte) : State :=
  match (fld tableId : Parse Table) { field := 1, bytes := body } with
  | .error f => s.answer req (.badRequest, det f) []
  | .ok (t, k) => s.doWriteEntry req t k.bytes

/-- The handler of a management request (section 1.4). -/
def State.handle (s : State) (req : Req) (body : List Byte) : Management → State
  | .readEntry => s.doReadEntry req body
  | .writeEntry => s.doWriteAny req body
  | .clearTable => s.doClearTable req body
  | .readStatus => s.doReadStatus req body
  | .collectEvents => s.doCollect req body
  | .saveConfig => s.doSave req body
  | .start => s.doStart req body
  | .restart => s.doRestart req body
  | .trunkHold => s.doTrunkHold req body
  | .trunkRelease => s.doTrunkRelease req body
  | .lampTest => s.doLampTest req body
  | .setOutput => s.doSetOutput req body

/-! ### Any accepted frame (R2, R4) -/

/-- A MANAGEMENT REQUEST frame, from its payload. -/
def State.manageFrame (s : State) (req : Req) (payload : List Byte) : State :=
  if busyNow s.run then s.answer req (.busy, 0) []
  else if req.dst ≠ 0 then s.answer req (.badRequest, 0) []
  else
    match payload with
    | [] => s.answer req (.badRequest, 0) []
    | code :: body =>
      match managementOfCode code.toNat with
      | none => s.answer req (.badRequest, 0) []
      | some m => s.manage req m fun s => s.handle req body m

/-- A frame of no request kind: BUSY by steps 1 and 2 of R2, BAD_REQUEST by step 3. -/
def State.otherFrame (s : State) (req : Req) : State :=
  if busyNow s.run then s.answer req (.busy, 0) [] else s.answer req (.badRequest, 0) []

/-- An accepted frame is judged (R2). -/
def State.judgeFrame (s : State) (f : Frame) : State :=
  if f.kind = kindManagement then s.manageFrame f.req f.payload
  else if f.kind = kindFunctionRequest then
    s.deckFrame f.req fun c r => Run.functionFrame c r f.req f.payload
  else if f.kind = kindNodeCommand then
    s.deckFrame f.req fun c r => Run.commandFrame c r f.req f.payload
  else if f.kind = kindPass then
    s.deckFrame f.req fun c r => Run.passFrame c r f.req f.payload
  else s.otherFrame f.req

/-! ### The receiver (R1) -/

/-- A dropped frame raises the console error count (R1). -/
def State.dropFrame (s : State) : State :=
  s.setRun (s.run.setConsole { s.run.console with errors := min 65535 (s.run.console.errors + 1) })

/-- The receiver's record replaced. -/
def State.setRx (s : State) (rx : Rx) : State :=
  s.setRun (s.run.setConsole { s.run.console with rx })

/-- One byte arrives on the console link (R1). -/
def State.receive (s : State) (b : RxByte) : State :=
  let o := s.run.console.rx.step b
  let s := s.setRx o.1
  match o.2 with
  | .nothing => s
  | .dropped => s.dropFrame
  | .accepted f => s.judgeFrame f

/-- Bytes arrive one after another. -/
def State.receiveAll (s : State) (bytes : List RxByte) : State := bytes.foldl State.receive s

/-- More than 2 ms pass inside a frame (R1). -/
def State.byteGap (s : State) : State :=
  match s.run.console.rx.phase with
  | .receiving => (s.setRx Rx.idle).dropFrame
  | .hunt => s

/-- The bytes of a frame, with no stop-bit error. -/
def Frame.rxBytes (f : Frame) : List RxByte := f.wire.map fun b => { byte := b, stopError := false }

/-- A frame arrives whole. Met in HUNT it is accepted and `k` is its judging; met in RECEIVING its
bytes go on with the frame under way. A payload no length byte can give is dropped (log 35). -/
def State.arrive (s : State) (f : Frame) (k : State → State) : State :=
  if maxConsolePayload < f.payload.length then s.dropFrame
  else
    match s.run.console.rx.phase with
    | .hunt => k s
    | .receiving => s.receiveAll f.rxBytes

/-! ### The transmitter (R16, R17) -/

/-- The transmission in progress ends (R12, R16). -/
def State.transmissionEnds (s : State) : State :=
  match s.run.console.tx with
  | none => s
  | some t =>
    let s := s.setRun (s.run.setConsole { s.run.console with tx := none, txTimer := none })
    if t.restart then s.resetBy .restart (rawLevels s.run)
    else s.setRun (Run.startTx s.cfg s.run)

/-- The beacon timer expires (R17). -/
def Run.beaconExpired (c : Tables) (r : Run) : Run :=
  if r.console.beaconTimer.isSome then
    Run.kickConsole c (r.setConsole
      { r.console with beaconDue := true, beaconTimer := some (ms c.param.beaconPeriod) })
  else r

/-! ### The close of an event -/

/-- When an event has been dealt with: zones are judged (R109), then the lamps (R169), at a CLEAR TABLE
too, which R169 does not list (logs 15, 52); the entries counted for R154 end with the event. -/
def Run.settleEvent (c : Tables) (r : Run) : Run :=
  (Run.judgeImage c (Run.judgeZones c r)).setEntered []

/-- The close of an event, on the whole state. -/
def State.settle (s : State) : State := s.setRun (Run.settleEvent s.cfg s.run)

/-- A whole event that completes. -/
abbrev Out := Host.Outcome State Fault Refusal

/-- An event on the whole state, dealt with and closed. -/
def State.event (s : State) (f : State → State) : Out := .next (f s).settle

/-- An event on the runtime, dealt with and closed. -/
def State.runEvent (s : State) (f : Tables → Run → Run) : Out :=
  s.event fun s => s.setRun (f s.cfg s.run)

/-- An expiry that takes effect only while its timer runs (log 2). -/
def State.expiry (s : State) (running : Bool) (f : Tables → Run → Run) : Out :=
  s.event fun s => if running then s.setRun (f s.cfg s.run) else s

/-- A management request arrives as a frame: `code`, then `body`. -/
def State.managed (s : State) (src : Word) (tag : Byte) (code : Byte) (body : List Byte)
    (m : Management) (k : State → State) : Out :=
  s.event fun s =>
    s.arrive { dst := 0, src, tag, kind := kindManagement, payload := code :: body } fun s =>
      s.manage (manageReq src tag) m k

/-- A WRITE ENTRY to a table arrives as a frame. -/
def State.writing (s : State) (src : Word) (tag : Byte) (t : Table) (body : List Byte) : Out :=
  s.event fun s =>
    s.arrive { dst := 0, src, tag, kind := kindManagement,
               payload := 2 :: BitVec.ofNat 8 t.id :: body } fun s =>
      s.manage (manageReq src tag) .writeEntry fun s => s.doWriteEntry (manageReq src tag) t body

/-- A FUNCTION REQUEST arrives as a frame: `code`, then `body`. -/
def State.requested (s : State) (src dst : Word) (tag : Byte) (code : Byte) (body : List Byte) :
    Out :=
  s.event fun s =>
    s.arrive { dst, src, tag, kind := kindFunctionRequest, payload := code :: body } fun s =>
      s.deckFrame { src, dst, tag } fun c r =>
        Run.functionFrame c r { src, dst, tag } (code :: body)

end Sys2Proof.Machine
end

