-- ==== Sys2Proof/Machine/Clock.lean ====
section
/-! DEFINITION. The part's own clock, for the step on an empty queue (log 1): which expiries are due, and
one microsecond passing. -/

namespace Sys2Proof.Machine

/-! ### Expiries that are due -/

/-- A timer that has run out. -/
def due (t : Timer) : Bool := t == some 0

/-- The commands of those indices whose timer has run out. -/
def dueOf {n : Nat} (p : Fin n → Bool) (k : Fin n → Instr) : List Instr :=
  ((List.finRange n).filter p).map k

def dueConsole (r : Run) : List Instr :=
  (if due r.console.txTimer then [.transmissionEnd] else [])
    ++ (if due r.console.beaconTimer then [.beaconExpiry] else [])

def dueTrunks (r : Run) : List Instr :=
  dueOf (fun t => due r.trunks[t].windowTimer) .replyWindowExpiry
    ++ dueOf (fun t => due r.trunks[t].gapTimer) .turnaroundGapExpiry
    ++ dueOf (fun t => due r.trunks[t].roundTimer) .roundIntervalExpiry
    ++ dueOf (fun t => due r.trunks[t].settleTimer) .settleExpiry

def dueAxes (r : Run) : List Instr :=
  dueOf (fun a => due r.axes[a].keepaliveTimer) .keepaliveExpiry
    ++ dueOf (fun a => due r.axes[a].lockTimer) .lockTimerExpiry
    ++ dueOf (fun a => due r.axes[a].controlTimer) .controlPeriodExpiry

def dueDoors (r : Run) : List Instr :=
  dueOf (fun z => due r.zones[z].warningTimer) .warningExpiry
    ++ dueOf (fun d => r.doors[d].timer == some (.retry, 0)) .retryExpiry
    ++ dueOf (fun d => r.doors[d].timer == some (.move, 0)) .moveTimerExpiry
    ++ dueOf (fun d => r.doors[d].timer == some (.transit, 0)) .transitExpiry

def dueCalls (r : Run) : List Instr :=
  dueOf (fun a => due r.areas[a].playTimer) .playTimerExpiry
    ++ ((r.calls.filter fun k => due k.gapTimer).map fun k => .gapExpiry k.id)

def dueMonitors (r : Run) : List Instr :=
  dueOf (fun ch => due r.channels[ch].timer) .staleTimerExpiry
    ++ dueOf (fun m => due r.monitors[m].holdTimer) .holdTimerExpiry
    ++ dueOf (fun m => due r.monitors[m].timeoutTimer) .timeoutTimerExpiry

def dueChain (r : Run) : List Instr :=
  dueOf (fun l => due r.lines[l].filterTimer) .lineFilterExpiry
    ++ (if due r.chain.slow.timer then [.flashPhaseExpiry .slow] else [])
    ++ (if due r.chain.fast.timer then [.flashPhaseExpiry .fast] else [])
    ++ (if due r.chain.shiftTimer then [.shiftEnd] else [])
    ++ (if due r.chain.lampTest then [.lampTestExpiry] else [])
    ++ (if due r.store.pageTimer then [.pageTimerExpiry] else [])

/-- Every expiry that is due. -/
def dueExpiries (r : Run) : List Instr :=
  dueConsole r ++ dueOf (fun i => due r.reports[i].timer) (fun i => .reportIntervalExpiry (nodeOfIndex i))
    ++ dueTrunks r ++ dueAxes r ++ dueDoors r ++ dueCalls r ++ dueMonitors r ++ dueChain r

/-- The expiry taken now: the one that is due, or one of several by a free choice (R175, log 28). -/
def nextExpiry (r : Run) : Option Instr :=
  match dueExpiries r with
  | [] => none
  | [i] => some i
  | i :: j :: rest =>
    let l := i :: j :: rest
    l[Config.tieChoice r.freeCount % l.length]?

/-! ### One microsecond passes -/

/-- A running timer has one microsecond less left. -/
def down (t : Timer) : Timer := t.map (· - 1)

def Clock.tick (k : Clock) : Clock :=
  if k.us + 1 < 1000 then { k with us := k.us + 1 } else { ms := k.ms + 1, us := 0 }

def Console.tick (k : Console) : Console :=
  { k with txTimer := down k.txTimer, beaconTimer := down k.beaconTimer }

def TrunkRt.tick (k : TrunkRt) : TrunkRt :=
  { k with windowTimer := down k.windowTimer, gapTimer := down k.gapTimer,
           roundTimer := down k.roundTimer, settleTimer := down k.settleTimer }

def AxisRt.tick (x : AxisRt) : AxisRt :=
  { x with keepaliveTimer := down x.keepaliveTimer, lockTimer := down x.lockTimer,
           controlTimer := down x.controlTimer }

def MonitorRt.tick (x : MonitorRt) : MonitorRt :=
  { x with holdTimer := down x.holdTimer, timeoutTimer := down x.timeoutTimer }

def FlashRt.tick (x : FlashRt) : FlashRt := { x with timer := down x.timer }

def Chain.tick (x : Chain) : Chain :=
  { x with slow := x.slow.tick, fast := x.fast.tick, shiftTimer := down x.shiftTimer,
           lampTest := down x.lampTest }

/-- The time base and every timer of every block advance by one microsecond. -/
def Run.tick (r : Run) : Run :=
  { r with
    clock := r.clock.tick, console := r.console.tick
    reports := r.reports.map fun x => { x with timer := down x.timer }
    trunks := r.trunks.map TrunkRt.tick, axes := r.axes.map AxisRt.tick
    zones := r.zones.map fun x => { x with warningTimer := down x.warningTimer }
    doors := r.doors.map fun x => { x with timer := x.timer.map fun t => (t.1, t.2 - 1) }
    areas := r.areas.map fun x => { x with playTimer := down x.playTimer }
    calls := r.calls.map fun k => { k with gapTimer := down k.gapTimer }
    channels := r.channels.map fun x => { x with timer := down x.timer }
    monitors := r.monitors.map MonitorRt.tick
    lines := r.lines.map fun x => { x with filterTimer := down x.filterTimer }
    chain := r.chain.tick
    store := { r.store with pageTimer := down r.store.pageTimer } }

/-- The state before an expiry is taken: the free choice has been used. -/
def State.chosen (s : State) : State := s.setRun (s.run.setFreeCount (s.run.freeCount + 1))

/-- The state one microsecond later. -/
def State.tick (s : State) : State := s.setRun s.run.tick

end Sys2Proof.Machine
end

