-- ==== Sys2Proof/Machine/ExecAxes.lean ====
section
/-! DEFINITION. The meanings of the requests on axes and the plan, and of the axis timers (chapters 4 and 5). A
request is read by the function its station is routed to (R22, log 3). -/

namespace Sys2Proof.Machine

/-- MOVE (R72, R73). -/
def execMove (src dst : Word) (tag : Byte) (body : List Byte) (s : State) : Out :=
  s.requested src dst tag 0x01#8 body

/-- STOP (R74). -/
def execStop (src dst : Word) (tag : Byte) (body : List Byte) (s : State) : Out :=
  s.requested src dst tag 0x02#8 body

/-- KEEP (R75). -/
def execKeep (src dst : Word) (tag : Byte) (body : List Byte) (s : State) : Out :=
  s.requested src dst tag 0x03#8 body

/-- RELEASE (R84). -/
def execRelease (src dst : Word) (tag : Byte) (body : List Byte) (s : State) : Out :=
  s.requested src dst tag 0x04#8 body

/-- TAKE (R86). -/
def execTake (src dst : Word) (tag : Byte) (body : List Byte) (s : State) : Out :=
  s.requested src dst tag 0x05#8 body

/-- GRANT_LOCAL (R86). -/
def execGrantLocal (src dst : Word) (tag : Byte) (body : List Byte) (s : State) : Out :=
  s.requested src dst tag 0x06#8 body

/-- DERATE (R76). -/
def execDerate (src dst : Word) (tag : Byte) (body : List Byte) (s : State) : Out :=
  s.requested src dst tag 0x07#8 body

/-- PLAN_START (R90, R91). -/
def execPlanStart (src dst : Word) (tag : Byte) (body : List Byte) (s : State) : Out :=
  s.requested src dst tag 0x01#8 body

/-- PLAN_KEEP (R91). -/
def execPlanKeep (src dst : Word) (tag : Byte) (body : List Byte) (s : State) : Out :=
  s.requested src dst tag 0x02#8 body

/-- PLAN_CANCEL (R92). -/
def execPlanCancel (src dst : Word) (tag : Byte) (body : List Byte) (s : State) : Out :=
  s.requested src dst tag 0x03#8 body

/-- KEEPALIVE_EXPIRY (R75). -/
def execKeepaliveExpiry (axis : Fin 6) (s : State) : Out :=
  s.expiry s.run.axes[axis].keepaliveTimer.isSome fun c r => Run.keepaliveExpired c r axis

/-- LOCK_TIMER_EXPIRY (R77, R78). -/
def execLockTimerExpiry (axis : Fin 6) (s : State) : Out :=
  s.expiry s.run.axes[axis].lockTimer.isSome fun c r => Run.lockExpired c r axis

/-- CONTROL_PERIOD_EXPIRY (R94 to R103). -/
def execControlPeriodExpiry (axis : Fin 6) (s : State) : Out :=
  s.expiry s.run.axes[axis].controlTimer.isSome fun c r => Run.controlExpired c r axis

end Sys2Proof.Machine
end

