-- ==== Sys2Proof/Machine/ExecCalls.lean ====
section
/-! DEFINITION. The meanings of the requests on calls and of the call timers (chapter 7). -/

namespace Sys2Proof.Machine

/-- PLACE_CALL (R130, R135). -/
def execPlaceCall (src dst : Word) (tag : Byte) (body : List Byte) (s : State) : Out :=
  s.requested src dst tag 0x01#8 body

/-- WITHDRAW_CALL (R135). -/
def execWithdrawCall (src dst : Word) (tag : Byte) (body : List Byte) (s : State) : Out :=
  s.requested src dst tag 0x02#8 body

/-- PLAY_TIMER_EXPIRY (R140). -/
def execPlayTimerExpiry (area : Fin 16) (s : State) : Out :=
  s.expiry s.run.areas[area].playTimer.isSome fun c r => Run.playTimeout c r area

/-- Whether the record that holds the id runs its gap timer. -/
def gapRuns (r : Run) (id : Nat) : Bool :=
  match findCall r id with
  | some k => k.gapTimer.isSome
  | none => false

/-- GAP_EXPIRY (R142). -/
def execGapExpiry (callId : Nat) (s : State) : Out :=
  s.expiry (gapRuns s.run callId) fun c r => Run.beginPass c r callId

end Sys2Proof.Machine
end

