-- ==== Sys2Proof/Machine/ExecDoors.lean ====
section
/-! DEFINITION. The meanings of the requests on zones and doors, and of the zone and door timers (chapter 6). -/

namespace Sys2Proof.Machine

/-- ZONE_CLOSE (R110, R123). -/
def execZoneClose (src dst : Word) (tag : Byte) (body : List Byte) (s : State) : Out :=
  s.requested src dst tag 0x01#8 body

/-- REOPEN (R123). -/
def execReopen (src dst : Word) (tag : Byte) (body : List Byte) (s : State) : Out :=
  s.requested src dst tag 0x02#8 body

/-- OVERRIDE (R114). -/
def execOverride (src dst : Word) (tag : Byte) (body : List Byte) (s : State) : Out :=
  s.requested src dst tag 0x03#8 body

/-- DOOR_OPEN_REQUEST (R124). -/
def execDoorOpenRequest (src dst : Word) (tag : Byte) (body : List Byte) (s : State) : Out :=
  s.requested src dst tag 0x01#8 body

/-- DOOR_CLOSE_REQUEST (R125). -/
def execDoorCloseRequest (src dst : Word) (tag : Byte) (body : List Byte) (s : State) : Out :=
  s.requested src dst tag 0x02#8 body

/-- WARNING_EXPIRY (R112). -/
def execWarningExpiry (zone : Fin 8) (s : State) : Out :=
  s.expiry s.run.zones[zone].warningTimer.isSome fun c r => Run.warningExpired c r zone

/-- Whether the door's one timer runs as this kind. -/
def doorTimerRuns (x : DoorRt) (k : DoorTimer) : Bool :=
  match x.timer with
  | some t => t.1 == k
  | none => false

/-- RETRY_EXPIRY (R120). -/
def execRetryExpiry (door : Fin 32) (s : State) : Out :=
  s.expiry (doorTimerRuns s.run.doors[door] .retry) fun c r => Run.retryExpired c r door

/-- MOVE_TIMER_EXPIRY (R120). -/
def execMoveTimerExpiry (door : Fin 32) (s : State) : Out :=
  s.expiry (doorTimerRuns s.run.doors[door] .move) fun _ r => r.moveTimerExpired door

/-- TRANSIT_EXPIRY (R122). -/
def execTransitExpiry (door : Fin 32) (s : State) : Out :=
  s.expiry (doorTimerRuns s.run.doors[door] .transit) fun c r => Run.transitExpired c r door

end Sys2Proof.Machine
end

