-- ==== Sys2Proof/Machine/ExecLines.lean ====
section
/-! DEFINITION. The meanings of the line events, the LINES requests and the indicator chain's events (chapter 9). -/

namespace Sys2Proof.Machine

/-- RAW_LEVEL_CHANGE (R163). -/
def execRawLevelChange (line : Fin 14) (active : Bool) (s : State) : Out :=
  s.runEvent fun c r => Run.rawChanged c r line active

/-- LINE_FILTER_EXPIRY (R163, R164). -/
def execLineFilterExpiry (line : Fin 14) (s : State) : Out :=
  s.expiry s.run.lines[line].filterTimer.isSome fun c r => Run.filterExpired c r line

/-- READ_LINES (R166). -/
def execReadLines (src dst : Word) (tag : Byte) (body : List Byte) (s : State) : Out :=
  s.requested src dst tag 0x01#8 body

/-- LINES_SET_OUTPUT (R165, R166). -/
def execLinesSetOutput (src dst : Word) (tag : Byte) (body : List Byte) (s : State) : Out :=
  s.requested src dst tag 0x02#8 body

/-- FLASH_PHASE_EXPIRY (R168, R169). -/
def execFlashPhaseExpiry (gen : FlashGen) (s : State) : Out :=
  s.expiry (s.run.chain.gen gen).timer.isSome fun c r => Run.flashExpired c r gen

/-- SHIFT_END (R170). -/
def execShiftEnd (s : State) : Out :=
  s.expiry s.run.chain.shiftTimer.isSome fun _ r => r.modChain Chain.shiftEnded

/-- LAMP_TEST_EXPIRY (R171). -/
def execLampTestExpiry (s : State) : Out :=
  s.expiry s.run.chain.lampTest.isSome Run.lampTestEnded

end Sys2Proof.Machine
end

