-- ==== Sys2Proof/Machine/ExecLink.lean ====
section
/-! DEFINITION. The meanings of the reset commands and of the console link: receiver and transmitter (chapters 1
and 11). -/

namespace Sys2Proof.Machine

/-- POWER_ON (R182): every block at its reset values with the raw levels as read, LOADING begun. -/
def execPowerOn (raw : BitVec 14) (s : State) : Out := s.event fun s => s.resetBy .powerOn raw

/-- RESET_PIN (R182): the reset of the reset pin; the raw levels stay as they read. -/
def execResetPin (s : State) : Out := s.event fun s => s.resetBy .pin (rawLevels s.run)

/-- CONSOLE_FRAME_DROPPED (R1): the receiver takes the bytes, and drops the frame they fail. -/
def execConsoleFrameDropped (bytes : List RxByte) (s : State) : Out :=
  s.event fun s => s.receiveAll bytes

/-- CONSOLE_BYTE_GAP_EXPIRY (R1): the bytes before the gap, then the drop of the frame under way. -/
def execConsoleByteGapExpiry (bytes : List RxByte) (s : State) : Out :=
  s.event fun s => (s.receiveAll bytes).byteGap

/-- INVALID_KIND_FRAME (R2): an accepted frame whose kind is none of the four, or disagrees with
its destination, is judged. -/
def execInvalidKindFrame (kind : Byte) (src dst : Word) (tag : Byte) (payload : List Byte)
    (s : State) : Out :=
  s.event fun s =>
    s.arrive { dst, src, tag, kind, payload } fun s =>
      s.judgeFrame { dst, src, tag, kind, payload }

/-- TRANSMISSION_END (R16): the end of a console transmission; the reset of R12 when it was the
ANSWER of an accepted RESTART. -/
def execTransmissionEnd (s : State) : Out := s.event State.transmissionEnds

/-- BEACON_EXPIRY (R17). -/
def execBeaconExpiry (s : State) : Out := s.runEvent Run.beaconExpired

end Sys2Proof.Machine
end

