-- ==== Sys2Proof/Machine/ExecManage.lean ====
section
/-! DEFINITION. The meanings of the other management requests (sections 1.4.2 to 1.4.4). -/

namespace Sys2Proof.Machine

/-- READ_STATUS (R9). -/
def execReadStatus (src : Word) (tag : Byte) (body : List Byte) (s : State) : Out :=
  s.managed src tag 0x04#8 body .readStatus fun s => s.doReadStatus (manageReq src tag) body

/-- COLLECT_EVENTS (R10, R177). -/
def execCollectEvents (src : Word) (tag : Byte) (body : List Byte) (s : State) : Out :=
  s.managed src tag 0x05#8 body .collectEvents fun s => s.doCollect (manageReq src tag) body

/-- SAVE_CONFIG (R11, R181). -/
def execSaveConfig (src : Word) (tag : Byte) (body : List Byte) (s : State) : Out :=
  s.managed src tag 0x06#8 body .saveConfig fun s => s.doSave (manageReq src tag) body

/-- START (R11, R183). -/
def execStart (src : Word) (tag : Byte) (body : List Byte) (s : State) : Out :=
  s.managed src tag 0x07#8 body .start fun s => s.doStart (manageReq src tag) body

/-- RESTART (R12). -/
def execRestart (src : Word) (tag : Byte) (body : List Byte) (s : State) : Out :=
  s.managed src tag 0x08#8 body .restart fun s => s.doRestart (manageReq src tag) body

/-- TRUNK_HOLD (R13, R43, R61). -/
def execTrunkHold (src : Word) (tag : Byte) (body : List Byte) (s : State) : Out :=
  s.managed src tag 0x09#8 body .trunkHold fun s => s.doTrunkHold (manageReq src tag) body

/-- TRUNK_RELEASE (R13, R44). -/
def execTrunkRelease (src : Word) (tag : Byte) (body : List Byte) (s : State) : Out :=
  s.managed src tag 0x0A#8 body .trunkRelease fun s => s.doTrunkRelease (manageReq src tag) body

/-- LAMP_TEST (R14, R171). -/
def execLampTest (src : Word) (tag : Byte) (body : List Byte) (s : State) : Out :=
  s.managed src tag 0x0B#8 body .lampTest fun s => s.doLampTest (manageReq src tag) body

/-- SET_OUTPUT (R14, R165). -/
def execSetOutput (src : Word) (tag : Byte) (body : List Byte) (s : State) : Out :=
  s.managed src tag 0x0C#8 body .setOutput fun s => s.doSetOutput (manageReq src tag) body

end Sys2Proof.Machine
end

