-- ==== Sys2Proof/Machine/ExecMonitors.lean ====
section
/-! DEFINITION. The meanings of the requests on monitors and of the channel and monitor timers (chapter 8). -/

namespace Sys2Proof.Machine

/-- ENABLE (R157). -/
def execEnable (src dst : Word) (tag : Byte) (body : List Byte) (s : State) : Out :=
  s.requested src dst tag 0x01#8 body

/-- DISABLE (R158). -/
def execDisable (src dst : Word) (tag : Byte) (body : List Byte) (s : State) : Out :=
  s.requested src dst tag 0x02#8 body

/-- MONITOR_RESTART (R159). -/
def execMonitorRestart (src dst : Word) (tag : Byte) (body : List Byte) (s : State) : Out :=
  s.requested src dst tag 0x03#8 body

/-- STALE_TIMER_EXPIRY (R147, R156). -/
def execStaleTimerExpiry (channel : Fin 32) (s : State) : Out :=
  s.expiry s.run.channels[channel].timer.isSome fun c r => Run.staleExpired c r channel

/-- HOLD_TIMER_EXPIRY (R154). -/
def execHoldTimerExpiry (monitor : Fin 16) (s : State) : Out :=
  s.expiry s.run.monitors[monitor].holdTimer.isSome fun c r => Run.holdExpired c r monitor

/-- TIMEOUT_TIMER_EXPIRY (R155). -/
def execTimeoutTimerExpiry (monitor : Fin 16) (s : State) : Out :=
  s.expiry s.run.monitors[monitor].timeoutTimer.isSome fun c r => Run.timeoutExpired c r monitor

end Sys2Proof.Machine
end

