-- ==== Sys2Proof/Machine/ExecRelay.lean ====
section
/-! DEFINITION. The meanings of node commands, pass requests and the report interval (chapter 2). -/

namespace Sys2Proof.Machine

/-- NODE_COMMAND (R21, R23, R28): routed, judged by the permit table and forwarded. -/
def execNodeCommand (src dst : Word) (tag : Byte) (payload : List Byte) (s : State) : Out :=
  s.event fun s =>
    s.arrive { dst, src, tag, kind := kindNodeCommand, payload } fun s =>
      s.deckFrame { src, dst, tag } fun c r => Run.commandFrame c r { src, dst, tag } payload

/-- PASS_REQUEST (R21, R31): routed, judged, and placed in the trunk's pass slot. -/
def execPassRequest (src dst : Word) (tag : Byte) (payload : List Byte) (s : State) : Out :=
  s.event fun s =>
    s.arrive { dst, src, tag, kind := kindPass, payload } fun s =>
      s.deckFrame { src, dst, tag } fun c r => Run.passFrame c r { src, dst, tag } payload

/-- REPORT_INTERVAL_EXPIRY (R35, R36). -/
def execReportIntervalExpiry (node : NodeId) (s : State) : Out :=
  s.expiry s.run.reports[nodeIndex node].timer.isSome fun c r => Run.reportIntervalExpired c r node

end Sys2Proof.Machine
end

