-- ==== Sys2Proof/Machine/ExecStore.lean ====
section
/-! DEFINITION. The meanings of the external memory's completions and of the page timer (chapter 11). -/

namespace Sys2Proof.Machine

/-- A page operation: a page the memory does not have is a fault. -/
def State.pageEvent (s : State) (f : State → State) : Out :=
  if s.run.store.page < Config.memoryPages then s.event f else .fault (.extAddress s.run.store.page)

/-- PAGE_WRITE_DONE (R181): a page write of a save is finished. With no page write under way it
changes nothing, which is the model's choice (log 58). -/
def execPageWriteDone (s : State) : Out :=
  match s.run.store.phase with
  | .writing => s.pageEvent State.pageWritten
  | .idle | .loading | .verifying => s.event id

/-- PAGE_READ_DONE (R181, R182): a page is read, in LOADING or in VERIFYING. With no page read under
way it changes nothing, which is the model's choice (log 58). -/
def execPageReadDone (returned : Option (List Byte)) (s : State) : Out :=
  let bytes := returned.getD (s.extMem.page s.run.store.page)
  match s.run.store.phase with
  | .loading => s.pageEvent fun s => s.pageLoaded bytes
  | .verifying => s.pageEvent fun s => s.setRun (s.run.pageVerified bytes)
  | .idle | .writing => s.event id

/-- PAGE_TIMER_EXPIRY (R181, R182): the memory has not finished in time. -/
def execPageTimerExpiry (s : State) : Out :=
  s.event fun s => if s.run.store.pageTimer.isSome then s.pageExpired else s

end Sys2Proof.Machine
end

