-- ==== Sys2Proof/Machine/ExecTables.lean ====
section
/-! DEFINITION. The meanings of the table requests: READ ENTRY, WRITE ENTRY of each table, CLEAR TABLE (section
1.4.1). -/

namespace Sys2Proof.Machine

/-- READ_ENTRY (R5). -/
def execReadEntry (src : Word) (tag : Byte) (body : List Byte) (s : State) : Out :=
  s.managed src tag 0x01#8 body .readEntry fun s => s.doReadEntry (manageReq src tag) body

/-- WRITE_ENTRY_ROUTE (R6, R19, R20): `body` runs from the entry index on. -/
def execWriteEntryRoute (src : Word) (tag : Byte) (body : List Byte) (s : State) : Out :=
  s.writing src tag .route body

/-- WRITE_ENTRY_PERMIT (R6, R24): `body` runs from the entry index on. -/
def execWriteEntryPermit (src : Word) (tag : Byte) (body : List Byte) (s : State) : Out :=
  s.writing src tag .permit body

/-- WRITE_ENTRY_REPORT (R6, R33): `body` runs from the entry index on. -/
def execWriteEntryReport (src : Word) (tag : Byte) (body : List Byte) (s : State) : Out :=
  s.writing src tag .report body

/-- WRITE_ENTRY_TRUNK (R6, R41): `body` runs from the entry index on. -/
def execWriteEntryTrunk (src : Word) (tag : Byte) (body : List Byte) (s : State) : Out :=
  s.writing src tag .trunk body

/-- WRITE_ENTRY_NODE (R6, R47): `body` runs from the entry index on. -/
def execWriteEntryNode (src : Word) (tag : Byte) (body : List Byte) (s : State) : Out :=
  s.writing src tag .node body

/-- WRITE_ENTRY_AXIS (R6, R68): `body` runs from the entry index on. -/
def execWriteEntryAxis (src : Word) (tag : Byte) (body : List Byte) (s : State) : Out :=
  s.writing src tag .axis body

/-- WRITE_ENTRY_PROFILE (R6, R93): `body` runs from the entry index on. -/
def execWriteEntryProfile (src : Word) (tag : Byte) (body : List Byte) (s : State) : Out :=
  s.writing src tag .profile body

/-- WRITE_ENTRY_ZONE (R6, R105): `body` runs from the entry index on. -/
def execWriteEntryZone (src : Word) (tag : Byte) (body : List Byte) (s : State) : Out :=
  s.writing src tag .zone body

/-- WRITE_ENTRY_DOOR (R6, R106): `body` runs from the entry index on. -/
def execWriteEntryDoor (src : Word) (tag : Byte) (body : List Byte) (s : State) : Out :=
  s.writing src tag .door body

/-- WRITE_ENTRY_AREA (R6, R128): `body` runs from the entry index on. -/
def execWriteEntryArea (src : Word) (tag : Byte) (body : List Byte) (s : State) : Out :=
  s.writing src tag .area body

/-- WRITE_ENTRY_CHANNEL (R6, R145): `body` runs from the entry index on. -/
def execWriteEntryChannel (src : Word) (tag : Byte) (body : List Byte) (s : State) : Out :=
  s.writing src tag .channel body

/-- WRITE_ENTRY_MONITOR (R6, R148): `body` runs from the entry index on. -/
def execWriteEntryMonitor (src : Word) (tag : Byte) (body : List Byte) (s : State) : Out :=
  s.writing src tag .monitor body

/-- WRITE_ENTRY_MSTATE (R6, R148): `body` runs from the entry index on. -/
def execWriteEntryMstate (src : Word) (tag : Byte) (body : List Byte) (s : State) : Out :=
  s.writing src tag .mstate body

/-- WRITE_ENTRY_LAMP (R6, R167): `body` runs from the entry index on. -/
def execWriteEntryLamp (src : Word) (tag : Byte) (body : List Byte) (s : State) : Out :=
  s.writing src tag .lamp body

/-- WRITE_ENTRY_LINE (R6, R162): `body` runs from the entry index on. -/
def execWriteEntryLine (src : Word) (tag : Byte) (body : List Byte) (s : State) : Out :=
  s.writing src tag .line body

/-- WRITE_ENTRY_PARAM (R6, R7, R27, R133, R168): `body` runs from the entry index on. -/
def execWriteEntryParam (src : Word) (tag : Byte) (body : List Byte) (s : State) : Out :=
  s.writing src tag .param body

/-- CLEAR_TABLE (R8). -/
def execClearTable (src : Word) (tag : Byte) (body : List Byte) (s : State) : Out :=
  s.managed src tag 0x03#8 body .clearTable fun s => s.doClearTable (manageReq src tag) body

end Sys2Proof.Machine
end

