-- ==== Sys2Proof/Machine/ExecTrunks.lean ====
section
/-! DEFINITION. The meanings of the trunk events (chapter 3). -/

namespace Sys2Proof.Machine

/-- GOOD_REPLY (R46, R57): the awaited node's good reply ends the transaction and is fanned out. -/
def execGoodReply (trunk : Fin 4) (code : Byte) (payload : List Byte) (s : State) : Out :=
  s.runEvent fun c r => r.whenAwaiting trunk fun k => Run.takeReply c r trunk k code payload

/-- CORRUPT_REPLY (R46, R58): the bytes that arrived in the reply window are judged. -/
def execCorruptReply (trunk : Fin 4) (bytes : List Byte) (s : State) : Out :=
  s.runEvent fun c r => r.whenAwaiting trunk fun k => Run.takeBytes c r trunk k bytes

/-- REPLY_WINDOW_EXPIRY (R46, R58): no sync byte within the reply window; a missing reply. -/
def execReplyWindowExpiry (trunk : Fin 4) (s : State) : Out :=
  s.runEvent fun c r => r.whenAwaiting trunk fun k => Run.takeMiss c r trunk k

/-- REPLY_GAP_EXPIRY (R46, R58): a gap longer than the reply window inside the reply; corrupt. -/
def execReplyGapExpiry (trunk : Fin 4) (s : State) : Out :=
  s.runEvent fun c r => r.whenAwaiting trunk (Run.takeMiss c r trunk)

/-- TURNAROUND_GAP_EXPIRY (R48, R49). -/
def execTurnaroundGapExpiry (trunk : Fin 4) (s : State) : Out :=
  s.runEvent fun c r => Run.gapEnded c r trunk

/-- ROUND_INTERVAL_EXPIRY (R50). -/
def execRoundIntervalExpiry (trunk : Fin 4) (s : State) : Out :=
  s.runEvent fun c r => Run.roundEnded c r trunk

/-- SETTLE_EXPIRY (R44). -/
def execSettleExpiry (trunk : Fin 4) (s : State) : Out :=
  s.expiry s.run.trunks[trunk].settleTimer.isSome fun c r => Run.settled c r trunk

/-- REPLY_WINDOW_OPENS (R46): the last CRC byte of the frame on the line has been sent. -/
def execReplyWindowOpens (trunk : Fin 4) (s : State) : Out :=
  s.runEvent fun c r => Run.windowOpens c r trunk

end Sys2Proof.Machine
end

