-- ==== Sys2Proof/Machine/Dispatch.lean ====
section
/-! DEFINITION. What each command does to everything but the queue: one arm a constructor, each one call of
its meaning. -/

namespace Sys2Proof.Machine

def exec (i : Instr) (s : State) : Host.Outcome State Fault Refusal :=
  match i with
  | .powerOn raw => Sys2Proof.Machine.execPowerOn raw s
  | .resetPin => Sys2Proof.Machine.execResetPin s
  | .consoleFrameDropped bytes => Sys2Proof.Machine.execConsoleFrameDropped bytes s
  | .consoleByteGapExpiry bytes => Sys2Proof.Machine.execConsoleByteGapExpiry bytes s
  | .invalidKindFrame kind src dst tag payload => Sys2Proof.Machine.execInvalidKindFrame kind src dst tag payload s
  | .readEntry src tag body => Sys2Proof.Machine.execReadEntry src tag body s
  | .writeEntryRoute src tag body => Sys2Proof.Machine.execWriteEntryRoute src tag body s
  | .writeEntryPermit src tag body => Sys2Proof.Machine.execWriteEntryPermit src tag body s
  | .writeEntryReport src tag body => Sys2Proof.Machine.execWriteEntryReport src tag body s
  | .writeEntryTrunk src tag body => Sys2Proof.Machine.execWriteEntryTrunk src tag body s
  | .writeEntryNode src tag body => Sys2Proof.Machine.execWriteEntryNode src tag body s
  | .writeEntryAxis src tag body => Sys2Proof.Machine.execWriteEntryAxis src tag body s
  | .writeEntryProfile src tag body => Sys2Proof.Machine.execWriteEntryProfile src tag body s
  | .writeEntryZone src tag body => Sys2Proof.Machine.execWriteEntryZone src tag body s
  | .writeEntryDoor src tag body => Sys2Proof.Machine.execWriteEntryDoor src tag body s
  | .writeEntryArea src tag body => Sys2Proof.Machine.execWriteEntryArea src tag body s
  | .writeEntryChannel src tag body => Sys2Proof.Machine.execWriteEntryChannel src tag body s
  | .writeEntryMonitor src tag body => Sys2Proof.Machine.execWriteEntryMonitor src tag body s
  | .writeEntryMstate src tag body => Sys2Proof.Machine.execWriteEntryMstate src tag body s
  | .writeEntryLamp src tag body => Sys2Proof.Machine.execWriteEntryLamp src tag body s
  | .writeEntryLine src tag body => Sys2Proof.Machine.execWriteEntryLine src tag body s
  | .writeEntryParam src tag body => Sys2Proof.Machine.execWriteEntryParam src tag body s
  | .clearTable src tag body => Sys2Proof.Machine.execClearTable src tag body s
  | .readStatus src tag body => Sys2Proof.Machine.execReadStatus src tag body s
  | .collectEvents src tag body => Sys2Proof.Machine.execCollectEvents src tag body s
  | .saveConfig src tag body => Sys2Proof.Machine.execSaveConfig src tag body s
  | .start src tag body => Sys2Proof.Machine.execStart src tag body s
  | .restart src tag body => Sys2Proof.Machine.execRestart src tag body s
  | .trunkHold src tag body => Sys2Proof.Machine.execTrunkHold src tag body s
  | .trunkRelease src tag body => Sys2Proof.Machine.execTrunkRelease src tag body s
  | .lampTest src tag body => Sys2Proof.Machine.execLampTest src tag body s
  | .setOutput src tag body => Sys2Proof.Machine.execSetOutput src tag body s
  | .transmissionEnd => Sys2Proof.Machine.execTransmissionEnd s
  | .beaconExpiry => Sys2Proof.Machine.execBeaconExpiry s
  | .nodeCommand src dst tag payload => Sys2Proof.Machine.execNodeCommand src dst tag payload s
  | .passRequest src dst tag payload => Sys2Proof.Machine.execPassRequest src dst tag payload s
  | .reportIntervalExpiry node => Sys2Proof.Machine.execReportIntervalExpiry node s
  | .goodReply trunk code payload => Sys2Proof.Machine.execGoodReply trunk code payload s
  | .corruptReply trunk bytes => Sys2Proof.Machine.execCorruptReply trunk bytes s
  | .replyWindowExpiry trunk => Sys2Proof.Machine.execReplyWindowExpiry trunk s
  | .replyGapExpiry trunk => Sys2Proof.Machine.execReplyGapExpiry trunk s
  | .turnaroundGapExpiry trunk => Sys2Proof.Machine.execTurnaroundGapExpiry trunk s
  | .roundIntervalExpiry trunk => Sys2Proof.Machine.execRoundIntervalExpiry trunk s
  | .settleExpiry trunk => Sys2Proof.Machine.execSettleExpiry trunk s
  | .move src dst tag body => Sys2Proof.Machine.execMove src dst tag body s
  | .stop src dst tag body => Sys2Proof.Machine.execStop src dst tag body s
  | .keep src dst tag body => Sys2Proof.Machine.execKeep src dst tag body s
  | .release src dst tag body => Sys2Proof.Machine.execRelease src dst tag body s
  | .take src dst tag body => Sys2Proof.Machine.execTake src dst tag body s
  | .grantLocal src dst tag body => Sys2Proof.Machine.execGrantLocal src dst tag body s
  | .derate src dst tag body => Sys2Proof.Machine.execDerate src dst tag body s
  | .planStart src dst tag body => Sys2Proof.Machine.execPlanStart src dst tag body s
  | .planKeep src dst tag body => Sys2Proof.Machine.execPlanKeep src dst tag body s
  | .planCancel src dst tag body => Sys2Proof.Machine.execPlanCancel src dst tag body s
  | .keepaliveExpiry axis => Sys2Proof.Machine.execKeepaliveExpiry axis s
  | .lockTimerExpiry axis => Sys2Proof.Machine.execLockTimerExpiry axis s
  | .controlPeriodExpiry axis => Sys2Proof.Machine.execControlPeriodExpiry axis s
  | .zoneClose src dst tag body => Sys2Proof.Machine.execZoneClose src dst tag body s
  | .reopen src dst tag body => Sys2Proof.Machine.execReopen src dst tag body s
  | .override src dst tag body => Sys2Proof.Machine.execOverride src dst tag body s
  | .doorOpenRequest src dst tag body => Sys2Proof.Machine.execDoorOpenRequest src dst tag body s
  | .doorCloseRequest src dst tag body => Sys2Proof.Machine.execDoorCloseRequest src dst tag body s
  | .warningExpiry zone => Sys2Proof.Machine.execWarningExpiry zone s
  | .retryExpiry door => Sys2Proof.Machine.execRetryExpiry door s
  | .moveTimerExpiry door => Sys2Proof.Machine.execMoveTimerExpiry door s
  | .transitExpiry door => Sys2Proof.Machine.execTransitExpiry door s
  | .placeCall src dst tag body => Sys2Proof.Machine.execPlaceCall src dst tag body s
  | .withdrawCall src dst tag body => Sys2Proof.Machine.execWithdrawCall src dst tag body s
  | .playTimerExpiry area => Sys2Proof.Machine.execPlayTimerExpiry area s
  | .gapExpiry callId => Sys2Proof.Machine.execGapExpiry callId s
  | .enable src dst tag body => Sys2Proof.Machine.execEnable src dst tag body s
  | .disable src dst tag body => Sys2Proof.Machine.execDisable src dst tag body s
  | .monitorRestart src dst tag body => Sys2Proof.Machine.execMonitorRestart src dst tag body s
  | .staleTimerExpiry channel => Sys2Proof.Machine.execStaleTimerExpiry channel s
  | .holdTimerExpiry monitor => Sys2Proof.Machine.execHoldTimerExpiry monitor s
  | .timeoutTimerExpiry monitor => Sys2Proof.Machine.execTimeoutTimerExpiry monitor s
  | .rawLevelChange line active => Sys2Proof.Machine.execRawLevelChange line active s
  | .lineFilterExpiry line => Sys2Proof.Machine.execLineFilterExpiry line s
  | .readLines src dst tag body => Sys2Proof.Machine.execReadLines src dst tag body s
  | .linesSetOutput src dst tag body => Sys2Proof.Machine.execLinesSetOutput src dst tag body s
  | .flashPhaseExpiry gen => Sys2Proof.Machine.execFlashPhaseExpiry gen s
  | .shiftEnd => Sys2Proof.Machine.execShiftEnd s
  | .lampTestExpiry => Sys2Proof.Machine.execLampTestExpiry s
  | .pageWriteDone => Sys2Proof.Machine.execPageWriteDone s
  | .pageReadDone returned => Sys2Proof.Machine.execPageReadDone returned s
  | .pageTimerExpiry => Sys2Proof.Machine.execPageTimerExpiry s
  | .replyWindowOpens trunk => Sys2Proof.Machine.execReplyWindowOpens trunk s

end Sys2Proof.Machine
end

