-- ==== Sys2Proof/Machine/Step.lean ====
section
/-! DEFINITION. One step of the machine: the command at the front of the queue, or, on an empty queue, an
expiry that is due or one microsecond (log 1). -/

namespace Sys2Proof.Machine

/-- The step on an empty queue: an expiry that is due is taken, otherwise a microsecond passes. -/
def idle (s : State) : Host.Outcome State Fault Refusal :=
  match nextExpiry s.run with
  | some i => exec i s.chosen
  | none => .next s.tick

/-- One step. -/
def step (s : State) : Host.Outcome State Fault Refusal :=
  match s.pending with
  | [] => idle s
  | i :: rest => exec i (s.setPending rest)

/-- The state with the command a word spells put at the front of its queue. -/
def State.withFetchWord (s : State) (nbits w : Nat) : State :=
  match decodeTableWord nbits w with
  | some i => s.setPending (i :: s.pending)
  | none => s

end Sys2Proof.Machine
end

