-- ==== Sys2Proof/Machine/Wire.lean ====
section
/-! DEFINITION. The console frame each command of the console arrives as (sections 1.2, 12.1, 12.7): the
wire form that the receiver of R1 turns into the command. -/

namespace Sys2Proof.Machine

/-- A MANAGEMENT REQUEST frame, addressed to 0000h. -/
def managementFrame (src : Word) (tag : Byte) (payload : List Byte) : Frame :=
  { dst := 0, src, tag, kind := kindManagement, payload }

/-- A WRITE ENTRY frame: the code, the table id, then the body. -/
def writeFrame (src : Word) (tag : Byte) (t : Table) (body : List Byte) : Frame :=
  managementFrame src tag (0x02 :: BitVec.ofNat 8 t.id :: body)

/-- A FUNCTION REQUEST frame. -/
def functionFrame (src dst : Word) (tag : Byte) (payload : List Byte) : Frame :=
  { dst, src, tag, kind := kindFunctionRequest, payload }

end Sys2Proof.Machine

namespace Sys2Proof

open Sys2Proof.Machine

/-- The console frame a command arrives as; nothing for the commands that are no console frame. -/
def Instr.frame : Instr → Option Frame
  | .powerOn _ => none
  | .resetPin => none
  | .consoleFrameDropped _ => none
  | .consoleByteGapExpiry _ => none
  | .invalidKindFrame kind src dst tag payload => some { dst, src, tag, kind, payload }
  | .readEntry src tag body => some (managementFrame src tag (0x01 :: body))
  | .writeEntryRoute src tag body => some (writeFrame src tag .route body)
  | .writeEntryPermit src tag body => some (writeFrame src tag .permit body)
  | .writeEntryReport src tag body => some (writeFrame src tag .report body)
  | .writeEntryTrunk src tag body => some (writeFrame src tag .trunk body)
  | .writeEntryNode src tag body => some (writeFrame src tag .node body)
  | .writeEntryAxis src tag body => some (writeFrame src tag .axis body)
  | .writeEntryProfile src tag body => some (writeFrame src tag .profile body)
  | .writeEntryZone src tag body => some (writeFrame src tag .zone body)
  | .writeEntryDoor src tag body => some (writeFrame src tag .door body)
  | .writeEntryArea src tag body => some (writeFrame src tag .area body)
  | .writeEntryChannel src tag body => some (writeFrame src tag .channel body)
  | .writeEntryMonitor src tag body => some (writeFrame src tag .monitor body)
  | .writeEntryMstate src tag body => some (writeFrame src tag .mstate body)
  | .writeEntryLamp src tag body => some (writeFrame src tag .lamp body)
  | .writeEntryLine src tag body => some (writeFrame src tag .line body)
  | .writeEntryParam src tag body => some (writeFrame src tag .param body)
  | .clearTable src tag body => some (managementFrame src tag (0x03 :: body))
  | .readStatus src tag body => some (managementFrame src tag (0x04 :: body))
  | .collectEvents src tag body => some (managementFrame src tag (0x05 :: body))
  | .saveConfig src tag body => some (managementFrame src tag (0x06 :: body))
  | .start src tag body => some (managementFrame src tag (0x07 :: body))
  | .restart src tag body => some (managementFrame src tag (0x08 :: body))
  | .trunkHold src tag body => some (managementFrame src tag (0x09 :: body))
  | .trunkRelease src tag body => some (managementFrame src tag (0x0a :: body))
  | .lampTest src tag body => some (managementFrame src tag (0x0b :: body))
  | .setOutput src tag body => some (managementFrame src tag (0x0c :: body))
  | .transmissionEnd => none
  | .beaconExpiry => none
  | .nodeCommand src dst tag payload => some { dst, src, tag, kind := kindNodeCommand, payload }
  | .passRequest src dst tag payload => some { dst, src, tag, kind := kindPass, payload }
  | .reportIntervalExpiry _ => none
  | .goodReply _ _ _ => none
  | .corruptReply _ _ => none
  | .replyWindowExpiry _ => none
  | .replyGapExpiry _ => none
  | .turnaroundGapExpiry _ => none
  | .roundIntervalExpiry _ => none
  | .settleExpiry _ => none
  | .move src dst tag body => some (functionFrame src dst tag (0x01 :: body))
  | .stop src dst tag body => some (functionFrame src dst tag (0x02 :: body))
  | .keep src dst tag body => some (functionFrame src dst tag (0x03 :: body))
  | .release src dst tag body => some (functionFrame src dst tag (0x04 :: body))
  | .take src dst tag body => some (functionFrame src dst tag (0x05 :: body))
  | .grantLocal src dst tag body => some (functionFrame src dst tag (0x06 :: body))
  | .derate src dst tag body => some (functionFrame src dst tag (0x07 :: body))
  | .planStart src dst tag body => some (functionFrame src dst tag (0x01 :: body))
  | .planKeep src dst tag body => some (functionFrame src dst tag (0x02 :: body))
  | .planCancel src dst tag body => some (functionFrame src dst tag (0x03 :: body))
  | .keepaliveExpiry _ => none
  | .lockTimerExpiry _ => none
  | .controlPeriodExpiry _ => none
  | .zoneClose src dst tag body => some (functionFrame src dst tag (0x01 :: body))
  | .reopen src dst tag body => some (functionFrame src dst tag (0x02 :: body))
  | .override src dst tag body => some (functionFrame src dst tag (0x03 :: body))
  | .doorOpenRequest src dst tag body => some (functionFrame src dst tag (0x01 :: body))
  | .doorCloseRequest src dst tag body => some (functionFrame src dst tag (0x02 :: body))
  | .warningExpiry _ => none
  | .retryExpiry _ => none
  | .moveTimerExpiry _ => none
  | .transitExpiry _ => none
  | .placeCall src dst tag body => some (functionFrame src dst tag (0x01 :: body))
  | .withdrawCall src dst tag body => some (functionFrame src dst tag (0x02 :: body))
  | .playTimerExpiry _ => none
  | .gapExpiry _ => none
  | .enable src dst tag body => some (functionFrame src dst tag (0x01 :: body))
  | .disable src dst tag body => some (functionFrame src dst tag (0x02 :: body))
  | .monitorRestart src dst tag body => some (functionFrame src dst tag (0x03 :: body))
  | .staleTimerExpiry _ => none
  | .holdTimerExpiry _ => none
  | .timeoutTimerExpiry _ => none
  | .rawLevelChange _ _ => none
  | .lineFilterExpiry _ => none
  | .readLines src dst tag body => some (functionFrame src dst tag (0x01 :: body))
  | .linesSetOutput src dst tag body => some (functionFrame src dst tag (0x02 :: body))
  | .flashPhaseExpiry _ => none
  | .shiftEnd => none
  | .lampTestExpiry => none
  | .pageWriteDone => none
  | .pageReadDone _ => none
  | .pageTimerExpiry => none
  | .replyWindowOpens _ => none

end Sys2Proof
end

