-- ==== Sys2Proof/Machine/Ranges.lean ====
section
/-! DEFINITION. The Range columns of the field tables: which entry contents a WRITE ENTRY can carry
(sections 1.4, 2.1, 2.5, 2.8, 3.1, 3.4, 4.1, 5.1, 6.1, 6.2, 7.1, 8.1, 8.2, 9.1, 9.3, 9.4). -/

namespace Sys2Proof.Machine

/-- A number that lies in a range, both ends included. -/
def within (lo hi n : Nat) : Bool := decide (lo ≤ n) && decide (n ≤ hi)

/-- A signed number that lies in a range, both ends included. -/
def withinInt (lo hi n : Int) : Bool := decide (lo ≤ n) && decide (n ≤ hi)

/-- A station 0001h..FFFEh. -/
def stationFits (w : Word) : Bool := within 1 0xFFFE w.toNat

/-- ROUTE (section 2.1). -/
def routeFits : Option Route → Bool
  | none => true
  | some x => stationFits x.station

/-- A set of state codes below `n`, not empty (R24). -/
def statesFit (n : Nat) (s : BitVec 8) : Bool := s != 0 && decide (s.toNat < 2 ^ n)

/-- A condition term (section 2.5). -/
def termFits : Option Term → Bool
  | none => true
  | some (.axis _ s) => statesFit 8 s
  | some (.zoneState _ s) => statesFit 5 s
  | some (.zoneFire _ _) => true
  | some (.door _ s) => statesFit 8 s
  | some (.line _ _) => true
  | some (.monitor _ s) => statesFit 8 s
  | some (.service _) => true

/-- PERMIT (section 2.5, R24). -/
def permitFits : Option Permit → Bool
  | none => true
  | some x =>
    stationFits x.first && stationFits x.last && decide (x.first.toNat ≤ x.last.toNat)
      && (match x.code with
        | none => true
        | some k => decide (0x20 ≤ k.toNat))
      && termFits x.term1 && termFits x.term2

/-- REPORT (R33). -/
def reportFits (x : ReportCfg) : Bool :=
  within 0 255 x.every && (x.mode != .every || x.every != 0) && within 0 10000 x.interval

/-- TRUNK (section 3.1). -/
def trunkFits (x : TrunkCfg) : Bool :=
  if x.configured then
    (x.bitRate == 125 || x.bitRate == 250 || x.bitRate == 500) && within 1 20 x.replyWindow
      && within 100 2000 x.gap && within 5 500 x.roundInterval && within 2 32 x.slowDivisor
      && within 0 2000 x.settle
  else x == emptyTrunk

/-- A stored stage payload, when present. -/
def payloadFits : Option (List Byte) → Bool
  | none => true
  | some p => decide (p.length ≤ 16)

/-- A prerequisite's window, when present. -/
def prereqFits : Option Prereq → Bool
  | none => true
  | some p => withinInt (-32000) 32000 p.min && withinInt (-32000) 32000 p.max

/-- A motion call, when present. -/
def motionCallFits : Option MotionCall → Bool
  | none => true
  | some k => within 0 511 k.message && within 0 7 k.priority && within 0 60 k.gap

/-- AXIS entry `i` (section 4.1, R68). -/
def axisFits (i : Nat) (x : AxisCfg) : Bool :=
  if x.configured then
    x.panel != some x.drive
      && withinInt (-32000) 32000 x.posMin && withinInt (-32000) 32000 x.posMax
      && decide (x.posMin < x.posMax)
      && within 1 4000 x.vMax && within 1 4000 x.acc && within 1 255 x.kp
      && within 0 500 x.deadband && within 0 5000 x.creepDistance && within 1 x.vMax x.vCreep
      && within 20 200 x.controlPeriod && within 100 2000 x.keepalive
      && within 1 30 x.lockTimeout && within 0 4000 x.stallVelocity
      && within 0 4000 x.overloadLimit && within 0 4000 x.stageUp && within 0 4000 x.stageDown
      && decide (x.stageDown < x.stageUp)
      && payloadFits x.lowPayload && payloadFits x.highPayload && prereqFits x.prereq1
      && prereqFits x.prereq2 && prereqApart i x.prereq1 && prereqApart i x.prereq2
      && motionCallFits x.motionCall
  else x == emptyAxis

/-- PROFILE (section 5.1). -/
def profileFits : Option Breakpoint → Bool
  | none => true
  | some b => withinInt (-32000) 32000 b.position && within 0 4000 b.speed

/-- ZONE (section 6.1). -/
def zoneFits (x : ZoneCfg) : Bool :=
  within 0 60 x.warning && within 0 60 x.fireWarning && within 0 511 x.warningMessage
    && within 0 511 x.fireMessage && within 0 60 x.callGap

/-- DOOR (section 6.2). -/
def doorFits (x : DoorCfg) : Bool :=
  if x.configured then
    x.zone2 != some x.zone1 && within 5 120 x.closeTimeout && within 1 30 x.retryDelay
      && within 0 5 x.retryLimit && within 5 120 x.transitTime
  else x == emptyDoor

/-- AREA (section 7.1, R128). -/
def areaFits (l : List NodeId) : Bool := decide (l.length ≤ 4) && noTwice l

/-- CHANNEL (section 8.1). -/
def channelFits (x : ChannelCfg) : Bool :=
  if x.configured then
    within 0 15 x.offset && within 1 2 x.width && within 50 60000 x.staleLimit
  else x == emptyChannel

/-- MONITOR (section 8.2). -/
def monitorFits (x : MonitorCfg) : Bool := x.configured || x == emptyMonitor

/-- An entry action (section 8.2). -/
def actionFits : Action → Bool
  | .none => true
  | .event code => within 0 255 code
  | .call message _ priority repeats =>
    within 0 511 message && within 0 7 priority && within 0 15 repeats
  | .closeZone _ _ => true
  | .derate value axes => within 0 256 value && axes != 0
  | .output _ _ => true

/-- MSTATE (section 8.2). -/
def mstateFits (x : StateCfg) : Bool :=
  if x.inUse then
    withinInt (-32768) 32767 x.threshold && within 0 65535 x.hold && within 0 65535 x.timeout
      && actionFits x.action
  else x == emptyMstate

/-- LAMP (section 9.3, R167). -/
def lampFits (x : LampCfg) : Bool :=
  if x.source == .none then x == emptyLamp
  else
    decide (x.styles.length ≤ 8) && x.styles.all (fun p => decide (p.1 < lampValues x.source))
      && noValueTwice x.styles

/-- LINE (section 9.1, R162). -/
def lineFits (i : Nat) (x : LineCfg) : Bool :=
  if i = 0 then x.filter == 2 else within 1 255 x.filter

/-- PARAM, with the beacon period as a request carries it (R7, section 9.4). -/
def paramFits (x : Param) : Bool :=
  within 0 65535 x.beaconPeriod && stationFits x.consoleStation && within 1 120 x.playLimit
    && within 1 8 x.stageCount && within 200 4000 x.slowPeriod && within 100 2000 x.fastPeriod
    && within 10 90 x.duty

/-- Whether a content is one a WRITE ENTRY to this table and index can carry: of the table's own
form, each field in its range. -/
def Entry.fits (t : Table) (i : Nat) : Entry → Bool
  | .route x => t == .route && routeFits x
  | .permit x => t == .permit && permitFits x
  | .report x => t == .report && reportFits x
  | .trunk x => t == .trunk && trunkFits x
  | .node _ => t == .node
  | .axis x => t == .axis && axisFits i x
  | .profile x => t == .profile && profileFits x
  | .zone x => t == .zone && zoneFits x
  | .door x => t == .door && doorFits x
  | .area x => t == .area && areaFits x
  | .channel x => t == .channel && channelFits x
  | .monitor x => t == .monitor && monitorFits x
  | .mstate x => t == .mstate && mstateFits x
  | .lamp x => t == .lamp && lampFits x
  | .line x => t == .line && lineFits i x
  | .param x => t == .param && paramFits x

end Sys2Proof.Machine

namespace Sys2Proof

/-- The WRITE ENTRY command of a table. -/
def writeCommand (src : Word) (tag : Byte) (body : List Byte) : Machine.Table → Instr
  | .route => .writeEntryRoute src tag body
  | .permit => .writeEntryPermit src tag body
  | .report => .writeEntryReport src tag body
  | .trunk => .writeEntryTrunk src tag body
  | .node => .writeEntryNode src tag body
  | .axis => .writeEntryAxis src tag body
  | .profile => .writeEntryProfile src tag body
  | .zone => .writeEntryZone src tag body
  | .door => .writeEntryDoor src tag body
  | .area => .writeEntryArea src tag body
  | .channel => .writeEntryChannel src tag body
  | .monitor => .writeEntryMonitor src tag body
  | .mstate => .writeEntryMstate src tag body
  | .lamp => .writeEntryLamp src tag body
  | .line => .writeEntryLine src tag body
  | .param => .writeEntryParam src tag body

end Sys2Proof
end

