-- ==== Sys2Proof/Safety.lean ====
section
/-! DEFINITION. The words the statements are made of: the states in which a frame is listened to and a
request reaches its unit, the outcome of an event that ends in a closed state or in an ANSWER, and the
invariants of the whole machine. -/

namespace Sys2Proof.Machine

/-! ### Where a request gets through (R1, R2, R4, R21) -/

/-- The receiver hunts and steps 1 and 2 of R2 let a frame by. -/
abbrev Listening (s : State) : Prop :=
  s.run.console.rx.phase = .hunt ∧ s.run.gw ≠ .loading ∧ s.run.console.restartPending = false

/-- A management request is listened to and served by the table of R4. -/
abbrev Serves (s : State) (m : Management) : Prop := Listening s ∧ gated m s.run.gw = none

/-- A function request to this station reaches this function (R2, R21, R22). -/
abbrev Reaches (s : State) (dst : Word) (f : Function) : Prop :=
  Listening s ∧ s.run.gw ≠ .unconfigured ∧ dst ≠ 0 ∧ findRoute s.cfg dst = some (.function f)

/-- A node command or pass request to this station reaches this node (R2, R21). -/
abbrev ReachesNode (s : State) (dst : Word) (n : NodeId) : Prop :=
  Listening s ∧ s.run.gw ≠ .unconfigured ∧ dst ≠ 0 ∧ findRoute s.cfg dst = some (.node n)

/-! ### How an event ends -/

/-- The event has left the runtime `r` behind and is closed: the zones, then the lamps, are judged
(R109, R169). That they come behind everything else of the event is the model's choice (log 15). -/
def closed (s : State) (r : Run) : Out := .next (s.setRun r).settle

/-- The same, with the ANSWER of a request made before the close. That the ANSWER comes behind the
request's own effects, and before the zones and the lamps are judged, is the model's choice (log 15). -/
def answered (s : State) (r : Run) (req : Req) (v : Verdict) (data : List Byte) : Out :=
  .next ((s.setRun r).answer req v data).settle

/-- A frame has been dropped: the receiver hunts and the console error count has risen (R1). -/
def droppedFrame (s : State) : Out :=
  closed s (s.run.setConsole
    { s.run.console with rx := Rx.idle, errors := min 65535 (s.run.console.errors + 1) })

/-- Bytes on the console link with no stop-bit error. -/
def plainBytes (l : List Byte) : List RxByte := l.map fun b => { byte := b, stopError := false }

/-- The bytes of a frame under way behind its delimiter: none, or a length byte in 6..246 and fewer
than length and CRC need. -/
def underWay : List Byte → Prop
  | [] => True
  | len :: rest => 6 ≤ len.toNat ∧ len.toNat ≤ 246 ∧ rest.length < len.toNat + 2

/-! ### Where a move may start (R72) -/

/-- The running plan names the axis in its current step or a later one. -/
abbrev InPlan (r : Run) (a : Fin 6) : Prop :=
  r.plan.running = true ∧ ∃ k ∈ r.plan.steps.drop (r.plan.current - 1), k.axis = a

/-- The accepted SERVICE level is active: service mode. -/
abbrev InService (r : Run) : Prop := r.lines[(1 : Fin 14)].accepted = true

/-- The accepted ESTOP level is active. -/
abbrev EstopHolds (r : Run) : Prop := r.lines[(0 : Fin 14)].accepted = true

/-- The zone of an axis has its fire flag set and its motion override clear. -/
abbrev FireHolds (c : Tables) (r : Run) (a : Fin 6) : Prop :=
  ∃ z, c.axes[a].zone = some z ∧ r.zones[z].fire = true ∧ r.zones[z].override = false

/-- A prerequisite, when present, names an axis that is not OFFLINE and lies in its window (R83). -/
abbrev Satisfied (r : Run) (q : Option Prereq) : Prop :=
  ∀ p, q = some p → r.axes[p.axis].state ≠ .offline ∧
    ∃ d, r.axes[p.axis].latest = some d ∧ p.min ≤ d.position ∧ d.position ≤ p.max

/-- Neither ESTOP, fire, a prerequisite nor a derate of 0 holds the axis (R72 step 5). -/
abbrev NoInterlock (c : Tables) (r : Run) (a : Fin 6) : Prop :=
  ¬EstopHolds r ∧ ¬FireHolds c r a ∧ Satisfied r c.axes[a].prereq1 ∧ Satisfied r c.axes[a].prereq2
    ∧ effectiveDerate r a ≠ 0

/-- UNLOCKING, MOVING, STOPPING or LOCKING. -/
abbrev InMotion (x : AxisRt) : Prop :=
  x.state = .unlocking ∨ x.state = .moving ∨ x.state = .stopping ∨ x.state = .locking

/-- A zone of the door has its closure active. -/
abbrev UnderClosure (c : Tables) (r : Run) (d : Fin 32) : Prop :=
  ∃ z ∈ doorZones c.doors[d], r.zones[z].active = true

/-- One step of a PLAN START as its request carries it (section 4.8). -/
def planStepBytes (k : PlanStep) : List Byte :=
  encAxis k.axis ++ i2 k.target ++ bBool k.lockAtEnd ++ bBool k.notify

/-! ### The tables -/

/-- The entry fails its check in the table of R183. -/
def Unsound (c : Tables) : Table → Nat → Prop
  | .route, i => ∃ x n, c.routes[i]? = some x ∧ x.target = .node n ∧ nodeCfg c n = none
  | .permit, i => ∃ (k : Fin 64) (p : Permit) (u : Term), k.val = i ∧ c.permits[k] = some p ∧
      (p.term1 = some u ∨ p.term2 = some u) ∧
      ((∃ a s, u = .axis a s ∧ c.axes[a].configured = false) ∨
        (∃ d s, u = .door d s ∧ c.doors[d].configured = false) ∨
        (∃ m s, u = .monitor m s ∧ c.monitors[m].configured = false))
  | .axis, i => ∃ a : Fin 6, a.val = i ∧ c.axes[a].configured = true ∧
      (nodeKind c c.axes[a].drive ≠ some .drive ∨
        (∃ b : Fin 6, b < a ∧ c.axes[b].configured = true ∧ c.axes[b].drive = c.axes[a].drive) ∨
        (∃ n, c.axes[a].panel = some n ∧ nodeKind c n ≠ some .panel) ∨
        (∃ p, (c.axes[a].prereq1 = some p ∨ c.axes[a].prereq2 = some p) ∧
          c.axes[p.axis].configured = false))
  | .profile, i => ∃ a : Fin 6, 8 * a.val = i ∧ c.axes[a].configured = true ∧
      (breakpoints c a).length < 2
  | .door, i => ∃ d : Fin 32, d.val = i ∧ c.doors[d].configured = true ∧
      (nodeKind c c.doors[d].node ≠ some .door ∨
        ∃ b : Fin 32, b < d ∧ c.doors[b].configured = true ∧ c.doors[b].node = c.doors[d].node)
  | .area, i => ∃ k : Fin 16, k.val = i ∧ ∃ n ∈ c.areas[k],
      nodeKind c n ≠ some .amp ∨ ∃ j : Fin 16, j < k ∧ n ∈ c.areas[j]
  | .channel, i => ∃ ch : Fin 32, ch.val = i ∧ c.channels[ch].configured = true ∧
      nodeCfg c c.channels[ch].source = none
  | .monitor, i => ∃ m : Fin 16, m.val = i ∧ c.monitors[m].configured = true ∧
      c.monitors[m].startEnabled = true ∧ graphPasses c m = false
  | .mstate, i => ∃ (m : Fin 16) (k : Fin 8), 8 * m.val + k.val = i ∧
      c.monitors[m].configured = true ∧ (mstate c m k).inUse = true ∧
      c.channels[(mstate c m k).channel].configured = false
  | .report, _ | .trunk, _ | .node, _ | .zone, _ | .lamp, _ | .line, _ | .param, _ => False

/-- Every entry is one a WRITE ENTRY can carry, an empty one with nothing in it, and the tables keep
the rules between their own entries (R7, R19, R20, R93, R145). A REPORT of mode NONE is empty and keeps
its other fields as written (R33). -/
abbrev TablesFit (c : Tables) : Prop :=
  (∀ (t : Table) (i : Nat) (e : Entry), i < t.entries → getEntry c t i = some e →
      e.fits t i = true ∧ (e.empty = true → t = .report ∨ getEntry Tables.reset t i = some e))
    ∧ c.routes.length ≤ 256
    ∧ c.routes.Pairwise (fun x y => x.station.toNat < y.station.toNat ∧
        ∀ n, x.target = .node n → y.target ≠ .node n)
    ∧ (∀ (i : Fin 47) (b : Breakpoint), (i.val + 1) % 8 ≠ 0 →
        c.profiles[i.val + 1]? = some (some b) →
        ∃ a : Breakpoint, c.profiles[i.val]? = some (some a) ∧ a.position < b.position)
    ∧ (∀ ch : Fin 32, c.channels[ch].configured = true →
        c.channels[ch].offset + c.channels[ch].width ≤ 16)
    ∧ 100 ≤ c.param.beaconPeriod ∧ c.param.beaconPeriod ≤ 5000

/-! ### The invariants of the machine -/

/-- Zones and lamps stand as the rest of the state makes them (R109, R169). -/
abbrev Settled (s : State) : Prop :=
  (∀ z : Fin 8, s.run.zones[z].state = zoneStateNow s.cfg s.run z)
    ∧ s.run.chain.last = chainImage s.cfg s.run ∧ s.run.entered = []

/-- The sequence numbers of the records count up by one from `first`, to `next` behind the last. -/
def numbered (first next : Word) : List EventRec → Prop
  | [] => first = next
  | e :: l => e.sequence = first ∧ numbered (first + 1) next l

/-- The event queue: at most 64 records, numbered consecutively up to the counter; a lost count of at
most 65535 (R174). -/
abbrev EventsInOrder (s : State) : Prop :=
  s.run.events.records.length ≤ 64 ∧ s.run.events.lost ≤ 65535
    ∧ ∃ first, numbered first s.run.events.next s.run.events.records

/-- The console port: at most 32 entries in the outbound queue, counts of at most 65535 (R1, R15). -/
abbrev ConsoleInBounds (s : State) : Prop :=
  s.run.console.queue.length ≤ 32 ∧ s.run.console.errors ≤ 65535 ∧ s.run.console.drops ≤ 65535

/-- An axis holds halt causes exactly while it is HALTED (R69). -/
abbrev HaltedHaveCauses (s : State) : Prop :=
  ∀ a : Fin 6, s.run.axes[a].state = .halted ↔ s.run.axes[a].causes ≠ 0

/-- The call queue: at most 16 records, priorities falling, ids 1..255 with none twice, and no two
records of one origin and message (R129, R130). -/
abbrev CallsInOrder (s : State) : Prop :=
  s.run.calls.length ≤ 16
    ∧ s.run.calls.Pairwise (fun x y => y.priority ≤ x.priority ∧ x.id ≠ y.id
        ∧ ¬(x.origin = y.origin ∧ x.message = y.message))
    ∧ ∀ k ∈ s.run.calls, 1 ≤ k.id ∧ k.id ≤ 255

/-- The external memory has its canonical form. -/
abbrev MemoryCanonical (s : State) : Prop := s.extMem.wf = true

/-- With ESTOP accepted active, or with its zone's fire flag set and the override clear, no axis is in
motion (R81). While no table is in force every axis is OFFLINE and every trunk DOWN with nothing on
it (R42, R67). The store is LOADING exactly while the gateway is (R182). -/
abbrev StoppedBySafety (s : State) : Prop :=
  (∀ a : Fin 6, EstopHolds s.run ∨ FireHolds s.cfg s.run a → ¬InMotion s.run.axes[a])
    ∧ (s.run.gw.inForce = false → (∀ a : Fin 6, s.run.axes[a].state = .offline) ∧
        ∀ t : Fin 4, s.run.trunks[t].state = .down ∧ s.run.trunks[t].settleTimer = none ∧
          s.run.trunks[t].transaction = none)
    ∧ (s.run.store.phase = .loading ↔ s.run.gw = .loading)

/-- Every table holds what a WRITE ENTRY can have put there; the tables in force pass the validation
(R6 steps 3 and 4, R183), a save is under way only in STORING (R181), and records are read only in LOADING
(R182). -/
abbrev TablesSound (s : State) : Prop :=
  TablesFit s.cfg
    ∧ (s.run.gw.inForce = true → validate s.cfg = none)
    ∧ (s.run.store.phase = .writing ∨ s.run.store.phase = .verifying → s.run.gw = .storing)
    ∧ (s.run.store.phase = .loading → s.run.gw = .loading)

/-- Every command queue holds at most 16 frames (R53). -/
abbrev QueuesInBounds (s : State) : Prop := ∀ t : Fin 4, s.run.trunks[t].queue.length ≤ 16

end Sys2Proof.Machine
end

