-- ==== Sys2Proof/WellFormed.lean ====
section
/-! DEFINITION. Which commands are well formed: the operands that a frame, a reply or an instance of
the named kind can have. An ill-formed command still has a meaning (log 35). -/

namespace Sys2Proof

open Sys2Proof.Machine

/-- The receiver's course over bytes from HUNT: where it ends, how many frames it dropped, how many
it accepted. -/
structure RxCourse where
  rx : Rx
  dropped : Nat
  accepted : Nat
deriving DecidableEq, Repr

/-- One more byte of a course. -/
def RxCourse.step (k : RxCourse) (b : RxByte) : RxCourse :=
  match k.rx.step b with
  | (rx, .nothing) => { k with rx }
  | (rx, .dropped) => { k with rx, dropped := k.dropped + 1 }
  | (rx, .accepted _) => { k with rx, accepted := k.accepted + 1 }

/-- The course of bytes from HUNT. -/
def rxCourse (bytes : List RxByte) : RxCourse :=
  bytes.foldl RxCourse.step { rx := Rx.idle, dropped := 0, accepted := 0 }

/-- The bytes hold exactly one frame that fails, and nothing after it (R1). -/
def dropsFrame (bytes : List RxByte) : Bool :=
  let k := rxCourse bytes
  k.dropped == 1 && k.accepted == 0 && k.rx == Rx.idle

/-- The bytes leave a frame under way and no other frame (R1). -/
def leavesFrame (bytes : List RxByte) : Bool :=
  let k := rxCourse bytes
  k.dropped == 0 && k.accepted == 0 && k.rx.phase == .receiving

/-- A kind that is none of the four request kinds, or disagrees with its destination (R2 step 3). -/
def invalidKind (kind : Byte) (dst : Word) : Bool :=
  if kind = kindManagement then dst != 0
  else if kind = kindNodeCommand ∨ kind = kindFunctionRequest ∨ kind = kindPass then dst == 0
  else true

/-- A management request's payload is its code and a body (section 1.2). -/
def managementFits (body : List Byte) : Bool := decide (body.length + 1 ≤ maxConsolePayload)

/-- A WRITE ENTRY's payload is its code, its table id and a body. -/
def writeFits (body : List Byte) : Bool := decide (body.length + 2 ≤ maxConsolePayload)

/-- A function request goes to a station other than 0000h; its payload is its code and a body. -/
def requestFits (dst : Word) (body : List Byte) : Bool :=
  dst != 0 && decide (body.length + 1 ≤ maxConsolePayload)

/-- A frame to a node goes to a station other than 0000h. -/
def frameFits (dst : Word) (payload : List Byte) : Bool :=
  dst != 0 && decide (payload.length ≤ maxConsolePayload)

/-- Whether a command's operands are those its frame, its reply or its instance can have. -/
def Instr.wf : Instr → Bool
  | .powerOn _ => true
  | .resetPin => true
  | .consoleFrameDropped bytes => dropsFrame bytes
  | .consoleByteGapExpiry bytes => leavesFrame bytes
  | .invalidKindFrame kind _ dst _ payload =>
    invalidKind kind dst && decide (payload.length ≤ maxConsolePayload)
  | .readEntry _ _ body => managementFits body
  | .writeEntryRoute _ _ body => writeFits body
  | .writeEntryPermit _ _ body => writeFits body
  | .writeEntryReport _ _ body => writeFits body
  | .writeEntryTrunk _ _ body => writeFits body
  | .writeEntryNode _ _ body => writeFits body
  | .writeEntryAxis _ _ body => writeFits body
  | .writeEntryProfile _ _ body => writeFits body
  | .writeEntryZone _ _ body => writeFits body
  | .writeEntryDoor _ _ body => writeFits body
  | .writeEntryArea _ _ body => writeFits body
  | .writeEntryChannel _ _ body => writeFits body
  | .writeEntryMonitor _ _ body => writeFits body
  | .writeEntryMstate _ _ body => writeFits body
  | .writeEntryLamp _ _ body => writeFits body
  | .writeEntryLine _ _ body => writeFits body
  | .writeEntryParam _ _ body => writeFits body
  | .clearTable _ _ body => managementFits body
  | .readStatus _ _ body => managementFits body
  | .collectEvents _ _ body => managementFits body
  | .saveConfig _ _ body => managementFits body
  | .start _ _ body => managementFits body
  | .restart _ _ body => managementFits body
  | .trunkHold _ _ body => managementFits body
  | .trunkRelease _ _ body => managementFits body
  | .lampTest _ _ body => managementFits body
  | .setOutput _ _ body => managementFits body
  | .transmissionEnd => true
  | .beaconExpiry => true
  | .nodeCommand _ dst _ payload => frameFits dst payload
  | .passRequest _ dst _ payload => frameFits dst payload
  | .reportIntervalExpiry _ => true
  | .goodReply _ _ payload => decide (payload.length ≤ maxTrunkPayload)
  | .corruptReply _ bytes => bytes.head? == some 0xA5#8
  | .replyWindowExpiry _ => true
  | .replyGapExpiry _ => true
  | .turnaroundGapExpiry _ => true
  | .roundIntervalExpiry _ => true
  | .settleExpiry _ => true
  | .move _ dst _ body => requestFits dst body
  | .stop _ dst _ body => requestFits dst body
  | .keep _ dst _ body => requestFits dst body
  | .release _ dst _ body => requestFits dst body
  | .take _ dst _ body => requestFits dst body
  | .grantLocal _ dst _ body => requestFits dst body
  | .derate _ dst _ body => requestFits dst body
  | .planStart _ dst _ body => requestFits dst body
  | .planKeep _ dst _ body => requestFits dst body
  | .planCancel _ dst _ body => requestFits dst body
  | .keepaliveExpiry _ => true
  | .lockTimerExpiry _ => true
  | .controlPeriodExpiry _ => true
  | .zoneClose _ dst _ body => requestFits dst body
  | .reopen _ dst _ body => requestFits dst body
  | .override _ dst _ body => requestFits dst body
  | .doorOpenRequest _ dst _ body => requestFits dst body
  | .doorCloseRequest _ dst _ body => requestFits dst body
  | .warningExpiry _ => true
  | .retryExpiry _ => true
  | .moveTimerExpiry _ => true
  | .transitExpiry _ => true
  | .placeCall _ dst _ body => requestFits dst body
  | .withdrawCall _ dst _ body => requestFits dst body
  | .playTimerExpiry _ => true
  | .gapExpiry callId => decide (1 ≤ callId) && decide (callId ≤ 255)
  | .enable _ dst _ body => requestFits dst body
  | .disable _ dst _ body => requestFits dst body
  | .monitorRestart _ dst _ body => requestFits dst body
  | .staleTimerExpiry _ => true
  | .holdTimerExpiry _ => true
  | .timeoutTimerExpiry _ => true
  | .rawLevelChange _ _ => true
  | .lineFilterExpiry _ => true
  | .readLines _ dst _ body => requestFits dst body
  | .linesSetOutput _ dst _ body => requestFits dst body
  | .flashPhaseExpiry _ => true
  | .shiftEnd => true
  | .lampTestExpiry => true
  | .pageWriteDone => true
  | .pageReadDone returned =>
    match returned with
    | some bytes => bytes.length == Config.pageBytes
    | none => true
  | .pageTimerExpiry => true
  | .replyWindowOpens _ => true

end Sys2Proof
end

