-- ==== Sys2Proof/Certificates/Slice0/Obligations.lean ====
section
/-! DEFINITION. The statements for the provers, chapter by chapter of the manual. A request's ANSWER and
the close of its event stand in `answered` and `closed` (Sys2Proof/Safety.lean), whose order (effects,
ANSWER, zones, lamps) is the model's choice (log 15); what those two do is a statement of its own,
AnswersAreSentAndEventsClosed. -/

open Sys2Proof Sys2Proof.Machine

/-! ### The step, and time -/

/-- A step takes the command at the front of the queue and runs it with the queue's rest. -/
def Obligations.StepTakesTheFrontCommand : Prop :=
  ∀ (s : State) (i : Instr) (rest : List Instr), s.pending = i :: rest →
    step s = exec i (s.setPending rest)

/-- On an empty queue the machine's own clock goes on (the model's choice, log 1): with no timer run
out a microsecond passes, the time base rises by one each 1000 of them and every running timer of every
block has a microsecond less left, and nothing else changes; with one run out its expiry is taken; of
several, one of them, left open (log 28).
The expiries that are due are those of the timers, of every block, that have run down to 0. -/
def Obligations.EmptyQueueLetsTimePass : Prop :=
  (
  ∀ s : State, s.pending = [] →
    (dueExpiries s.run = [] → step s = .next s.tick ∧ s.tick.run.clock =
      if s.run.clock.us < 999 then { s.run.clock with us := s.run.clock.us + 1 }
      else { ms := s.run.clock.ms + 1, us := 0 }) ∧
    (∀ i, dueExpiries s.run = [i] → step s = exec i s.chosen) ∧
    (∀ i j l, dueExpiries s.run = i :: j :: l →
      ∃ k ∈ dueExpiries s.run, step s = exec k s.chosen)) ∧
  (∀ s : State,
    let less := fun (t : Timer) => t.map (· - 1)
    let r := s.run
    let u := s.tick.run
    s.tick = { s with run := u } ∧
    u = { r with clock := u.clock, console := u.console, reports := u.reports, trunks := u.trunks
                 axes := u.axes, zones := u.zones, doors := u.doors, areas := u.areas
                 calls := u.calls, channels := u.channels, monitors := u.monitors
                 lines := u.lines, chain := u.chain, store := u.store } ∧
    u.console = { r.console with txTimer := less r.console.txTimer
                                 beaconTimer := less r.console.beaconTimer } ∧
    (∀ i : Fin 124, u.reports[i] = { r.reports[i] with timer := less r.reports[i].timer }) ∧
    (∀ t : Fin 4, u.trunks[t] = { r.trunks[t] with
      windowTimer := less r.trunks[t].windowTimer, gapTimer := less r.trunks[t].gapTimer
      roundTimer := less r.trunks[t].roundTimer, settleTimer := less r.trunks[t].settleTimer }) ∧
    (∀ a : Fin 6, u.axes[a] = { r.axes[a] with
      keepaliveTimer := less r.axes[a].keepaliveTimer, lockTimer := less r.axes[a].lockTimer
      controlTimer := less r.axes[a].controlTimer }) ∧
    (∀ z : Fin 8, u.zones[z] = { r.zones[z] with warningTimer := less r.zones[z].warningTimer }) ∧
    (∀ d : Fin 32, u.doors[d] = { r.doors[d] with
      timer := r.doors[d].timer.map fun t => (t.1, t.2 - 1) }) ∧
    (∀ i : Fin 16, u.areas[i] = { r.areas[i] with playTimer := less r.areas[i].playTimer }) ∧
    u.calls = r.calls.map (fun k => { k with gapTimer := less k.gapTimer }) ∧
    (∀ ch : Fin 32, u.channels[ch] = { r.channels[ch] with timer := less r.channels[ch].timer }) ∧
    (∀ m : Fin 16, u.monitors[m] = { r.monitors[m] with
      holdTimer := less r.monitors[m].holdTimer
      timeoutTimer := less r.monitors[m].timeoutTimer }) ∧
    (∀ l : Fin 14, u.lines[l] = { r.lines[l] with filterTimer := less r.lines[l].filterTimer }) ∧
    u.chain = { r.chain with
      slow := { r.chain.slow with timer := less r.chain.slow.timer }
      fast := { r.chain.fast with timer := less r.chain.fast.timer }
      shiftTimer := less r.chain.shiftTimer, lampTest := less r.chain.lampTest } ∧
    u.store = { r.store with pageTimer := less r.store.pageTimer }) ∧
  (∀ (r : Run) (i : Instr), i ∈ dueExpiries r ↔
    match i with
    | .transmissionEnd => r.console.txTimer = some 0
    | .beaconExpiry => r.console.beaconTimer = some 0
    | .reportIntervalExpiry n => r.reports[nodeIndex n].timer = some 0
    | .replyWindowExpiry t => r.trunks[t].windowTimer = some 0
    | .turnaroundGapExpiry t => r.trunks[t].gapTimer = some 0
    | .roundIntervalExpiry t => r.trunks[t].roundTimer = some 0
    | .settleExpiry t => r.trunks[t].settleTimer = some 0
    | .keepaliveExpiry a => r.axes[a].keepaliveTimer = some 0
    | .lockTimerExpiry a => r.axes[a].lockTimer = some 0
    | .controlPeriodExpiry a => r.axes[a].controlTimer = some 0
    | .warningExpiry z => r.zones[z].warningTimer = some 0
    | .retryExpiry d => r.doors[d].timer = some (.retry, 0)
    | .moveTimerExpiry d => r.doors[d].timer = some (.move, 0)
    | .transitExpiry d => r.doors[d].timer = some (.transit, 0)
    | .playTimerExpiry x => r.areas[x].playTimer = some 0
    | .gapExpiry id => ∃ k ∈ r.calls, k.id = id ∧ k.gapTimer = some 0
    | .staleTimerExpiry ch => r.channels[ch].timer = some 0
    | .holdTimerExpiry m => r.monitors[m].holdTimer = some 0
    | .timeoutTimerExpiry m => r.monitors[m].timeoutTimer = some 0
    | .lineFilterExpiry l => r.lines[l].filterTimer = some 0
    | .flashPhaseExpiry .slow => r.chain.slow.timer = some 0
    | .flashPhaseExpiry .fast => r.chain.fast.timer = some 0
    | .shiftEnd => r.chain.shiftTimer = some 0
    | .lampTestExpiry => r.chain.lampTest = some 0
    | .pageTimerExpiry => r.store.pageTimer = some 0
    | _ => False)

/-- Every command in every state completes, but a page command on a page the memory does not have;
the commands that wait stay as they are, and when the event has been dealt with every zone and every
lamp stands as the state makes it. -/
def Obligations.EveryCommandCompletesSettled : Prop :=
  ∀ (s : State) (i : Instr), s.run.store.page < 512 →
    ∃ t, exec i s = .next t ∧ t.pending = s.pending ∧ Settled t

/-- PAGE_WRITE_DONE writes the present page and goes on to the next one, to page 0 again and to
VERIFYING; PAGE_READ_DONE goes on with a save's read-back or with LOADING, whose records enter their
tables as they are read (log 11), and ends it with its outcome; PAGE_TIMER_EXPIRY ends either. In no
other command does the memory change, a reset in a page write apart, and a page write changes no other
byte. A page operation on a page beyond the memory's 512 is the machine's one fault. The bytes of a page whose write
is cut short, the fault, page 0 in a store that is idle again, the want of effect of a memory report that
no page operation waits for and of an expiry whose timer does not run are the model's choices (log 13,
log 12, log 57, log 58, log 2).
That the flash phases run on as they are when LOADING ends is the model's choice (log 64). -/
def Obligations.PageOperationsGoOn : Prop :=
  ((∀ (s : State) (returned : Option (List Byte)), s.run.store.page < 512 →
     let x := s.run.store
     let p := x.page
     let held := x.snapshot.getD []
     let pages := held.length / 128
     let own := (held.drop (128 * p)).take 128
     let written := if p = 0 ∧ x.finalPass = false then 0 :: 0 :: own.drop 2 else own
     let bytes := returned.getD (s.extMem.readAll (128 * p) 128)
     let buffer := x.loadBuffer ++ bytes
     let at' := fun (x : Store) (p : Nat) => { x with page := p, pageTimer := some 20000 }
     let idle : Store := { x with phase := .idle, snapshot := none, page := 0, pageTimer := none
                                  finalPass := false, loadBuffer := [] }
     let saved := fun (kind : EventKind) (detail : Word) =>
       closed s (((s.run.setStore idle).setGw .configured).raise kind 0 detail)
     let ended := fun (k : LoadResult) => (Host.Outcome.next (s.endLoading k).settle : Out)
     let done := exec (.pageReadDone returned) s
     (x.phase ≠ .writing → exec .pageWriteDone s = closed s s.run) ∧
     (x.phase = .writing → exec .pageWriteDone s = Host.Outcome.next
       ((s.setMem (s.extMem.writePage p written) (s.extTorn && p != 0)).setRun (s.run.setStore
         (if x.finalPass then at' { x with phase := .verifying, finalPass := false } 0
          else if p + 1 < pages then at' x (p + 1)
          else at' { x with finalPass := true } 0))).settle) ∧
     (x.phase = .idle ∨ x.phase = .writing → done = closed s s.run) ∧
     (x.phase = .verifying → bytes ≠ own → done = saved .storeFailed 1) ∧
     (x.phase = .verifying → bytes = own →
       (p + 1 < pages → done = closed s (s.run.setStore (at' x (p + 1)))) ∧
       (pages ≤ p + 1 → done = saved .storeDone (det pages))) ∧
     (x.phase = .loading → ∀ hi lo rest, buffer = hi :: lo :: rest →
       let n := 256 * hi.toNat + lo.toNat
       (n = 0 ∨ 512 < n → done = ended .unreadable) ∧
       (0 < n → n ≤ 512 →
         (p + 1 < n → done = closed (s.setCfg (tablesSoFar buffer))
           (s.run.setStore (at' { x with loadBuffer := buffer } (p + 1)))) ∧
         (n ≤ p + 1 → done = ended (judgeImageBytes s.extTorn buffer)))) ∧
     (x.pageTimer = none → exec .pageTimerExpiry s = closed s s.run) ∧
     (x.pageTimer.isSome = true →
       (x.phase = .loading → exec .pageTimerExpiry s = ended .unreadable) ∧
       (x.phase = .verifying → exec .pageTimerExpiry s = saved .storeFailed 3) ∧
       (x.phase = .writing → ∃ m, exec .pageTimerExpiry s = Host.Outcome.next
         ((s.setMem m s.extTorn).setRun
           (((s.run.setStore idle).setGw .configured).raise .storeFailed 0 2)).settle ∧
         (s.extMem.wf = true → ∀ a, a < 128 * p ∨ 128 * p + 128 ≤ a → m.read a = s.extMem.read a)))) ∧
   (∀ (s : State),
     let x := s.run.store
     let start := fun (c : Tables) (outcome : Nat) (gw : GwState) =>
       (let r := ((s.run.setStore { x with phase := .idle, snapshot := none, page := 0
                                           pageTimer := none, finalPass := false
                                           loadBuffer := [] }).setGw gw).raise .startUp 0
           (det2 x.cause.code outcome)
        r.setConsole { r.console with beaconTimer := some (ms c.param.beaconPeriod) })
     s.endLoading .unreadable =
       (s.setCfg Tables.reset).setRun (start Tables.reset 1 .unconfigured) ∧
     s.endLoading .refused =
       (s.setCfg Tables.reset).setRun (start Tables.reset 2 .unconfigured) ∧
     (∀ c, s.endLoading (.good c) =
       (s.setCfg c).setRun (Run.becomeConfigured c (start c 0 .configured)))) ∧
   (∀ (m : Memory) (p : Nat) (bytes : List Byte) (a : Nat), m.wf = true → p < 512 →
     bytes.length = 128 →
     (a < 128 * p ∨ 128 * p + 128 ≤ a → (m.writePage p bytes).read a = m.read a) ∧
     (∀ i b, bytes[i]? = some b → (m.writePage p bytes).read (128 * p + i) = b)) ∧
   (∀ (s t : State) (i : Instr),
     (s.run.store.phase = .writing → s.run.gw = .storing ∧ i ≠ .pageWriteDone ∧
       i ≠ .pageTimerExpiry ∧ i ≠ .resetPin ∧ (∀ raw, i ≠ .powerOn raw) ∧
       (i = .transmissionEnd → ∀ x, s.run.console.tx = some x → x.restart = false)) →
     exec i s = .next t → t.extMem = s.extMem ∧ t.extTorn = s.extTorn)) ∧
  (∀ (s : State) (returned : Option (List Byte)), 512 ≤ s.run.store.page →
     (s.run.store.phase = .writing → exec .pageWriteDone s = .fault (.extAddress s.run.store.page)) ∧
     (s.run.store.phase = .loading ∨ s.run.store.phase = .verifying →
       exec (.pageReadDone returned) s = .fault (.extAddress s.run.store.page)))

/-! ### Reset (chapter 11) -/

/-- POWER_ON, RESET_PIN and the reset of a RESTART (which OutboundQueueAndTransmitter and
RestartLampTestAndOutputs start) put every table and every block at its reset values with LOADING begun; the
lamps keep what they showed, the raw levels are those of the pins, and outside a save the external
memory stays. The commands that wait stay (log 3), and so do the model's own two counters (log 37).
What the Reset columns give every block's record and every table, in full.
A reset during a save leaves no image that loads: before the last write of page 0 begins its
length reads 0 and the next LOADING ends UNCONFIGURED with outcome 1; during that write the image no
longer passes its CRC-16 (the mark of log 13). -/
def Obligations.ResetsGiveTheResetValues : Prop :=
  (∀ (s : State) (raw : BitVec 14), s.run.store.phase ≠ .writing →
     exec (.powerOn raw) s = .next
       { s with cfg := Tables.reset,
                run := Run.reset .powerOn raw s.run.chain.shown s.run.serial s.run.freeCount } ∧
     ∃ levels : BitVec 14, (∀ l : Fin 14, levels.getLsbD l.val = s.run.lines[l].raw) ∧
       exec .resetPin s = .next
         { s with cfg := Tables.reset,
                  run := Run.reset .pin levels s.run.chain.shown s.run.serial s.run.freeCount }) ∧
  (∀ (s : State) (cause : ResetCause) (raw : BitVec 14),
     let t := s.resetBy cause raw
     t.pending = s.pending ∧ t.cfg = Tables.reset ∧
     t.run = Run.reset cause raw s.run.chain.shown s.run.serial s.run.freeCount ∧ t.settle = t ∧
     (s.run.store.phase ≠ .writing → t.extMem = s.extMem ∧ t.extTorn = s.extTorn) ∧
     exec (.powerOn raw) s = .next (s.resetBy .powerOn raw) ∧
     exec .resetPin s = .next (s.resetBy .pin (rawLevels s.run)) ∧
     (∀ l : Fin 14, (rawLevels s.run).getLsbD l.val = s.run.lines[l].raw)) ∧
  (∀ (cause : ResetCause) (raw : BitVec 14) (shown : List Bool) (a b : Nat),
     let r := Run.reset cause raw shown a b
     r.gw = .loading ∧ r.clock = { ms := 0, us := 0 } ∧ r.serial = a ∧ r.freeCount = b ∧
     r.entered = [] ∧
     (r.events.records = [] ∧ r.events.next = 0 ∧ r.events.lost = 0) ∧
     r.console = { rx := { phase := .hunt, buffer := [] }, queue := [], tx := none, txTimer := none
                   beaconTimer := none, beaconDue := false, restartPending := false, errors := 0
                   drops := 0 } ∧
     (∀ i : Fin 124, r.reports[i] = { last := none, count := 0, timer := none, pending := none } ∧
       r.nodes[i] = { liveness := .unknown, misses := 0, payload := none, time := none,
                      mark := false }) ∧
     (∀ t : Fin 4, r.trunks[t] =
       { state := .down, holdAsserted := false, settleTimer := none, roundPhase := 0
         roundPosition := 0, roundTimer := none, nonPoll := 0, transaction := none
         windowTimer := none, gapTimer := none, queue := [], holdSet := [], pass := none }) ∧
     (∀ x : Fin 6, r.axes[x] =
       { state := .offline, causes := 0, control := .bridge, origin := .none, target := 0
         lockAtEnd := false, sentDemand := 0, stage := .low, bridgeDerate := 256, latest := none
         panel := .none, keepaliveTimer := none, lockTimer := none, controlTimer := none
         wasActive := false, owed := { unlock := false, lock := false, stage := false }
         overloadNoted := false, callId := none, setPoint := none }) ∧
     r.plan = { running := false, steps := [], current := 1 } ∧
     (∀ z : Fin 8, r.zones[z] =
       { active := false, causes := 0, fire := false, override := false, warningTimer := none
         callId := none, callFire := false, state := .clear }) ∧
     (∀ d : Fin 32, r.doors[d] =
       { state := .offline, retriesUsed := 0, timer := none, transitMark := false
         pending := .none, latest := none }) ∧
     (∀ i : Fin 16, r.areas[i] =
       { state := .idle, callId := none, message := none, awaited := [], playTimer := none
         startMark := false }) ∧
     r.callCounter = 0 ∧
     r.calls = [] ∧
     (∀ ch : Fin 32, r.channels[ch] = { value := none, stale := true, timer := none }) ∧
     (∀ m : Fin 16, r.monitors[m] =
       { enabled := false, current := 0, holdTimer := none, timeoutTimer := none, callId := none
         derate := none }) ∧
     (∀ l : Fin 14, r.lines[l].accepted = false ∧ r.lines[l].raw = raw.getLsbD l.val ∧
       r.lines[l].filterTimer =
         if raw.getLsbD l.val then some (ms Tables.reset.lines[l].filter) else none) ∧
     (∀ o : Fin 4, r.outputs[o] = { high := false, setBy := .reset }) ∧
     r.chain = { shown, last := List.replicate 64 false, inShift := some (List.replicate 64 false)
                 waiting := none, shiftTimer := some 650, lampTest := none
                 slow := { lit := true, timer := some (ms 500) }
                 fast := { lit := true, timer := some (ms 125) } } ∧
     r.store = { phase := .loading, snapshot := none, page := 0, pageTimer := some (ms 20)
                 finalPass := false, loadBuffer := [], cause }) ∧
  (let c := Tables.reset
   let first : NodeId := { trunk := 0, slot := 0 }
   c.routes = [] ∧ (∀ i : Fin 64, c.permits[i] = none) ∧
   (∀ i : Fin 124, c.reports[i] = { mode := .none, every := 1, interval := 0 } ∧
     c.nodes[i] = none) ∧
   (∀ t : Fin 4, c.trunks[t] =
     { configured := false, bitRate := 125, replyWindow := 4, gap := 200, roundInterval := 20
       slowDivisor := 8, settle := 400 }) ∧
   (∀ a : Fin 6, c.axes[a] =
     { configured := false, drive := first, panel := none, zone := none, posMin := -32000
       posMax := 32000, vMax := 1, acc := 1, kp := 1, deadband := 0, creepDistance := 0
       vCreep := 1, controlPeriod := 20, keepalive := 500, lockTimeout := 8, stallVelocity := 0
       overloadLimit := 0, haltMask := 0, noteMask := 0, stageUp := 1, stageDown := 0
       lowPayload := none, highPayload := none, prereq1 := none, prereq2 := none
       motionCall := none }) ∧
   (∀ i : Fin 48, c.profiles[i] = none) ∧
   (∀ z : Fin 8, c.zones[z] =
     { warning := 10, fireWarning := 3, warningMessage := 0, fireMessage := 0, areas := 0
       callGap := 10 }) ∧
   (∀ d : Fin 32, c.doors[d] =
     { configured := false, node := first, zone1 := 0, zone2 := none, closeTimeout := 40
       retryDelay := 5, retryLimit := 3, transitTime := 20, reopenWithZone := false }) ∧
   (∀ i : Fin 16, c.areas[i] = []) ∧
   (∀ ch : Fin 32, c.channels[ch] =
     { configured := false, source := first, offset := 0, width := 1, signed := false
       staleLimit := 1000 }) ∧
   (∀ m : Fin 16, c.monitors[m] = { configured := false, startEnabled := false }) ∧
   (∀ i : Fin 128, c.mstates[i] =
     { inUse := false, channel := 0, test := .above, threshold := 0, hold := 0, onHold := 0
       timeout := 0, onTimeout := 0, onStale := none, action := .none }) ∧
   (∀ i : Fin 64, c.lamps[i] = { source := .none, styles := [] }) ∧
   (∀ l : Fin 14, c.lines[l] =
     { filter := if l = 0 then 2 else 20, edge := .none, event := false }) ∧
   c.param = { beaconPeriod := 1000, consoleStation := 1, permitForward := false, playLimit := 30
               stageCount := 8, slowPeriod := 1000, fastPeriod := 250, duty := 50 }) ∧
  (∀ (s t : State) (raw : BitVec 14), s.extMem.wf = true → s.run.store.phase = .writing →
     (exec (.powerOn raw) s = .next t ∨ exec .resetPin s = .next t ∨
       t = s.resetBy .restart raw) →
       (s.run.store.finalPass = true → t.extTorn = true) ∧
       (s.run.store.finalPass = false →
         t.extMem.read 0 = 0 ∧ t.extMem.read 1 = 0 ∧
         ∃ u, exec (.pageReadDone none) t = .next u ∧ u.run.gw = .unconfigured ∧
           u.cfg = Tables.reset ∧
           u.run.events.records.head? = some
             { sequence := 0, time := 0, kind := .startUp, index := 0,
               detail := det2 t.run.store.cause.code 1 }))

/-! ### The console link (chapter 1, R185) -/

/-- The receiver hunting for a delimiter reads every frame's bytes back as the frame: it arrives
whole, nothing is dropped, and the receiver hunts again when the frame is judged. -/
def Obligations.ReceiverReadsBackEveryFrame : Prop :=
  ∀ (s : State) (f : Frame), f.payload.length ≤ 240 → s.run.console.rx = Rx.idle →
    s.receiveAll f.rxBytes = s.judgeFrame f

/-- A frame whose CRC is wrong, whose length byte lies outside 6..246, that a stop-bit error meets or
that a gap interrupts is dropped: the error count rises by one up to 65535, the receiver hunts, and
nothing else of the state changes.
A console command that meets the receiver in the middle of a frame is taken as its bytes, which go on
with that frame: a stop-bit error or a length outside 6..246 drops it, a byte short of length and CRC
joins it, and the last one has it judged, or dropped when its CRC is wrong. -/
def Obligations.BrokenFramesAreDroppedAndCounted : Prop :=
  (
  ∀ s : State, s.run.console.rx.phase = .hunt →
    (∀ (f : Frame) (w : Word), f.payload.length ≤ 240 → w ≠ crc16 f.covered →
      exec (.consoleFrameDropped (plainBytes (0x7E :: (f.covered ++ w2 w)))) s = droppedFrame s) ∧
    (∀ len : Byte, len.toNat < 6 ∨ 246 < len.toNat →
      exec (.consoleFrameDropped (plainBytes [0x7E, len])) s = droppedFrame s) ∧
    (∀ (l : List Byte) (b : Byte), underWay l →
      exec (.consoleFrameDropped (plainBytes (0x7E :: l) ++ [{ byte := b, stopError := true }])) s
        = droppedFrame s) ∧
    (∀ l : List Byte, underWay l →
      exec (.consoleByteGapExpiry (plainBytes (0x7E :: l))) s = droppedFrame s)) ∧
  (∀ (s : State) (i : Instr) (f : Frame), i.frame = some f → f.payload.length ≤ 240 →
     s.run.console.rx.phase = .receiving →
     exec i s = .next (s.receiveAll (plainBytes f.wire)).settle) ∧
  (∀ (s : State) (b : RxByte) (rest : List RxByte),
     s.receiveAll [] = s ∧ s.receiveAll (b :: rest) = (s.receive b).receiveAll rest) ∧
  (∀ (s : State) (b : RxByte),
     let k := s.run.console
     let with' := fun (rx : Rx) => s.setRun (s.run.setConsole { k with rx })
     let dropped := s.setRun (s.run.setConsole
       { k with rx := Rx.idle, errors := min 65535 (k.errors + 1) })
     (k.rx.phase = .hunt →
       (b.byte = 0x7E → b.stopError = false →
         s.receive b = with' { phase := .receiving, buffer := [] }) ∧
       (b.byte ≠ 0x7E ∨ b.stopError = true → s.receive b = s)) ∧
     (k.rx.phase = .receiving →
       (b.stopError = true → s.receive b = dropped) ∧
       (b.stopError = false → ∀ len got, k.rx.buffer ++ [b.byte] = len :: got →
         (len.toNat < 6 ∨ 246 < len.toNat → s.receive b = dropped) ∧
         (6 ≤ len.toNat → len.toNat ≤ 246 →
           (got.length < len.toNat + 2 → s.receive b =
             with' { phase := .receiving, buffer := k.rx.buffer ++ [b.byte] }) ∧
           (∀ (f : Frame) (w : Word), f.payload.length ≤ 240 → len :: got = f.covered ++ w2 w →
             (w = crc16 f.covered → s.receive b = (with' Rx.idle).judgeFrame f) ∧
             (w ≠ crc16 f.covered → s.receive b = dropped))))))

/-- Every command that is a console frame does what the judging of its frame does.
R2 for every command that is a console frame: BUSY in LOADING and with a restart pending,
BAD_REQUEST for a kind that is none of the four or disagrees with its destination, UNCONFIGURED, and
otherwise the hand-over by its kind.
INVALID_KIND_FRAME: a frame of no request kind, or of one that disagrees with its destination, is
answered BAD_REQUEST with detail 0.
The management requests by their codes and the table of R4: no code at all and an unknown one (both
BAD_REQUEST with detail 0), and what the gateway state turns away.
Past the gateway state the form of a management request is judged: a field that is missing or outside its
range is refused with its number, the request code being field 0, and bytes behind the last field with the
number of fields, the code counted (the model's reading of the numbers, log 4). The bytes behind a WRITE
ENTRY's index are its content, which WritesAreJudgedInOrder judges. -/
def Obligations.FramesAndManagementAreJudgedInOrder : Prop :=
  (
  (∀ (s : State) (i : Instr) (f : Frame), i.frame = some f → f.payload.length ≤ 240 →
     s.run.console.rx.phase = .hunt → exec i s = .next (s.judgeFrame f).settle) ∧
  (∀ (s : State) (i : Instr) (f : Frame), i.frame = some f → f.payload.length ≤ 240 →
     s.run.console.rx.phase = .hunt →
     (s.run.gw = .loading ∨ s.run.console.restartPending = true →
       exec i s = answered s s.run f.req (.busy, 0) []) ∧
     (Listening s → invalidKind f.kind f.dst = true →
       exec i s = answered s s.run f.req (.badRequest, 0) []) ∧
     (Listening s → f.dst ≠ 0 → s.run.gw = .unconfigured →
       f.kind = kindNodeCommand ∨ f.kind = kindFunctionRequest ∨ f.kind = kindPass →
       exec i s = answered s s.run f.req (.unconfigured, 0) []) ∧
     (Listening s → f.dst = 0 → f.kind = kindManagement →
       exec i s = .next (s.manageFrame f.req f.payload).settle) ∧
     (Listening s → f.dst ≠ 0 → s.run.gw ≠ .unconfigured →
       (f.kind = kindFunctionRequest →
         exec i s = closed s (Run.functionFrame s.cfg s.run f.req f.payload)) ∧
       (f.kind = kindNodeCommand →
         exec i s = closed s (Run.commandFrame s.cfg s.run f.req f.payload)) ∧
       (f.kind = kindPass → exec i s = closed s (Run.passFrame s.cfg s.run f.req f.payload)))) ∧
  (∀ (s : State) (kind : Byte) (src dst : Word) (tag : Byte) (payload : List Byte),
     Listening s → invalidKind kind dst = true → payload.length ≤ 240 →
     exec (.invalidKindFrame kind src dst tag payload) s =
       answered s s.run { src, dst, tag } (.badRequest, 0) [])) ∧
  (
  (∀ (s : State) (f : Frame), f.kind = kindManagement → f.dst = 0 → f.payload = [] → Listening s →
    s.judgeFrame f = s.answer f.req (.badRequest, 0) [] ∧
    ∀ i : Instr, i.frame = some f → exec i s = answered s s.run f.req (.badRequest, 0) []) ∧
  (∀ (s : State) (i : Instr) (f : Frame) (code : Byte) (body : List Byte), i.frame = some f →
    f.kind = kindManagement → f.dst = 0 → f.payload = code :: body → body.length ≤ 239 →
    Listening s →
    (managementOfCode code.toNat = none → exec i s = answered s s.run f.req (.badRequest, 0) []) ∧
    (∀ m v, managementOfCode code.toNat = some m → gated m s.run.gw = some v →
      exec i s = answered s s.run f.req v [])) ∧
  (∀ m : Management,
    gated m .unconfigured = (if m = .saveConfig then some (.state, 1) else none) ∧
    gated m .configured =
      (if m = .clearTable ∨ m = .start then some (.state, 2) else none) ∧
    gated m .storing =
      (if m = .writeEntry ∨ m = .clearTable ∨ m = .saveConfig ∨ m = .start ∨ m = .restart
       then some (.storing, 0) else none))) ∧
  (∀ (s : State) (src : Word) (tag : Byte) (b x y hi lo : Byte) (more : List Byte),
    more.length ≤ 235 →
    let no := fun (i : Instr) (field : Nat) =>
      exec i s = answered s s.run { src, dst := 0, tag } (.badRequest, det field) []
    let unknown := b.toNat = 0 ∨ 16 < b.toNat
    -- the requests without a field
    (Serves s .collectEvents → no (.collectEvents src tag (b :: more)) 1) ∧
    (Serves s .saveConfig → no (.saveConfig src tag (b :: more)) 1) ∧
    (Serves s .start → no (.start src tag (b :: more)) 1) ∧
    (Serves s .restart → no (.restart src tag (b :: more)) 1) ∧
    (Serves s .lampTest → no (.lampTest src tag (b :: more)) 1) ∧
    -- one field: the clear flag, a trunk, a table
    (Serves s .readStatus → no (.readStatus src tag []) 1 ∧
      (1 < b.toNat → no (.readStatus src tag (b :: more)) 1) ∧
      (b.toNat ≤ 1 → no (.readStatus src tag (b :: x :: more)) 2)) ∧
    (Serves s .trunkHold → no (.trunkHold src tag []) 1 ∧
      (4 ≤ b.toNat → no (.trunkHold src tag (b :: more)) 1) ∧
      (b.toNat < 4 → no (.trunkHold src tag (b :: x :: more)) 2)) ∧
    (Serves s .trunkRelease → no (.trunkRelease src tag []) 1 ∧
      (4 ≤ b.toNat → no (.trunkRelease src tag (b :: more)) 1) ∧
      (b.toNat < 4 → no (.trunkRelease src tag (b :: x :: more)) 2)) ∧
    (Serves s .clearTable → no (.clearTable src tag []) 1 ∧
      (unknown → no (.clearTable src tag (b :: more)) 1) ∧
      (¬unknown → no (.clearTable src tag (b :: x :: more)) 2)) ∧
    -- two fields: output and level, table and index
    (Serves s .setOutput → no (.setOutput src tag []) 1 ∧
      (4 ≤ b.toNat → no (.setOutput src tag (b :: more)) 1) ∧
      (b.toNat < 4 → no (.setOutput src tag [b]) 2 ∧
        (1 < x.toNat → no (.setOutput src tag (b :: x :: more)) 2) ∧
        (x.toNat ≤ 1 → no (.setOutput src tag (b :: x :: y :: more)) 3))) ∧
    (Serves s .readEntry → no (.readEntry src tag []) 1 ∧
      (unknown → no (.readEntry src tag (b :: more)) 1) ∧
      (∀ t : Table, b.toNat = t.id →
        no (.readEntry src tag [b]) 2 ∧ no (.readEntry src tag [b, hi]) 2 ∧
        (t.entries ≤ (word2 hi lo).toNat → no (.readEntry src tag (b :: hi :: lo :: more)) 2) ∧
        ((word2 hi lo).toNat < t.entries →
          no (.readEntry src tag (b :: hi :: lo :: x :: more)) 3))) ∧
    (Serves s .writeEntry →
      (∀ t : Table, no (writeCommand src tag [] t) 2 ∧ no (writeCommand src tag [hi] t) 2 ∧
        (t.entries ≤ (word2 hi lo).toNat → no (writeCommand src tag (hi :: lo :: more) t) 2)) ∧
      (let req : Req := { src, dst := 0, tag }
       s.manageFrame req [2] = s.answer req (.badRequest, 1) [] ∧
       (unknown → s.manageFrame req (2 :: b :: more) = s.answer req (.badRequest, 1) []))))

/-- The outbound queue takes a frame as R15 states, and a full one makes room as R15 states. The
transmitter at the end of a transmission: the oldest ANSWER, else a BEACON that is due, else the
oldest REPORT, else idle; the ANSWER of an accepted RESTART resets the part. An ANSWER carries the
event counts of that moment, that of COLLECT EVENTS after its own collection. The beacon timer's
expiry owes a BEACON and starts the timer again with the beacon period; an idle transmitter with no
ANSWER waiting sends it at once, with the status as it stands. An expiry whose timer does not run
changes nothing, which is the model's choice (log 2). -/
def Obligations.OutboundQueueAndTransmitter : Prop :=
  (∀ (k : Console) (a : Answer) (p : Report),
     (k.queue.length < 32 →
       k.offerAnswer a = ({ k with queue := k.queue ++ [.answer a] }, false) ∧
       k.offerReport p = { k with queue := k.queue ++ [.report p] }) ∧
     (32 ≤ k.queue.length →
       (∀ (pre post : List OutEntry) (old : Report), k.queue = pre ++ .report old :: post →
         (∀ q, OutEntry.report q ∉ pre) →
         k.offerAnswer a = ({ k with queue := pre ++ post ++ [.answer a]
                                     drops := min 65535 (k.drops + 1) }, false)) ∧
       ((∀ q, OutEntry.report q ∉ k.queue) →
         k.offerAnswer a = ({ k with drops := min 65535 (k.drops + 1) }, true)) ∧
       (∀ (pre post : List OutEntry) (old : Report), k.queue = pre ++ .report old :: post →
         old.node = p.node → (∀ q : Report, q.node = p.node → OutEntry.report q ∉ post) →
         k.offerReport p = { k with queue := pre ++ .report p :: post }) ∧
       ((∀ q : Report, q.node = p.node → OutEntry.report q ∉ k.queue) →
         k.offerReport p = { k with drops := min 65535 (k.drops + 1) }))) ∧
  (∀ (s : State) (t : TxFrame),
     let k := s.run.console
     let idle := { k with tx := none, txTimer := none }
     let q := s.run.events
     (k.tx = none → exec .transmissionEnd s = closed s s.run) ∧
     (k.tx = some t → t.restart = false →
       (∀ (pre post : List OutEntry) (a : Answer), k.queue = pre ++ .answer a :: post →
         (∀ b, OutEntry.answer b ∉ pre) →
         (∀ data, a.data = .fixed data →
           exec .transmissionEnd s = closed s
             ((s.run.setConsole { idle with queue := pre ++ post }).beginTx
               { dst := a.req.src, src := a.req.dst, tag := a.req.tag, kind := 0x81
                 payload := b1 a.code.code ++ w2 a.detail ++ b1 q.records.length ++ b2 q.lost
                   ++ data } a.restart)) ∧
         (a.data = .collect →
           exec .transmissionEnd s = closed s
             (((s.run.setConsole { idle with queue := pre ++ post }).setEvents
               { q with records := q.records.drop 8, lost := 0 }).beginTx
               { dst := a.req.src, src := a.req.dst, tag := a.req.tag, kind := 0x81
                 payload := b1 a.code.code ++ w2 a.detail ++ b1 (q.records.length - 8) ++ b2 0
                   ++ (b1 (min 8 q.records.length) ++ b2 q.lost
                   ++ (q.records.take 8).flatMap EventRec.bytes) } a.restart))) ∧
       ((∀ b, OutEntry.answer b ∉ k.queue) →
         (k.beaconDue = true →
           exec .transmissionEnd s = closed s
             ((s.run.setConsole { idle with beaconDue := false }).beginTx
               { dst := s.cfg.param.consoleStation, src := 0, tag := 0, kind := 0x83
                 payload := beaconPayload s.run } false)) ∧
         (k.beaconDue = false →
           (∀ (pre post : List OutEntry) (p : Report), k.queue = pre ++ .report p :: post →
             (∀ b, OutEntry.report b ∉ pre) →
             exec .transmissionEnd s = closed s
               ((s.run.setConsole { idle with queue := pre ++ post }).beginTx
                 { dst := p.dst, src := p.src, tag := 0, kind := 0x82
                   payload := reportPayload p } false)) ∧
           (k.queue = [] → exec .transmissionEnd s = closed s (s.run.setConsole idle))))) ∧
     (k.tx = some t → t.restart = true →
       exec .transmissionEnd s =
         .next ((s.setRun (s.run.setConsole idle)).resetBy .restart (rawLevels s.run)).settle)) ∧
  (∀ s : State,
     (s.run.console.beaconTimer = none → exec .beaconExpiry s = closed s s.run) ∧
     (s.run.console.beaconTimer.isSome = true →
       let k := { s.run.console with beaconTimer := some (ms s.cfg.param.beaconPeriod) }
       (k.tx.isSome = true →
         exec .beaconExpiry s = closed s (s.run.setConsole { k with beaconDue := true })) ∧
       (k.tx = none → (∀ b, OutEntry.answer b ∉ k.queue) →
         exec .beaconExpiry s = closed s
           ((s.run.setConsole { k with beaconDue := false }).beginTx
             { dst := s.cfg.param.consoleStation, src := 0, tag := 0, kind := 0x83
               payload := b1 s.run.gw.code ++ s.run.axes.toList.flatMap (fun a => b1 a.state.code)
                 ++ s.run.zones.toList.flatMap (fun z => b1 z.state.code)
                 ++ s.run.trunks.toList.flatMap (fun t => b1 t.state.code)
                 ++ b1 (s.run.lines[(1 : Fin 14)].accepted.toNat
                     + 2 * s.run.lines[(0 : Fin 14)].accepted.toNat)
                 ++ b1 s.run.events.records.length ++ b2 s.run.events.lost } false))))

/-- An ANSWER enters the outbound queue as R15 has it; an idle transmitter begins the oldest ANSWER at
once, with the event counts of that moment and, for COLLECT EVENTS, its collection, and a busy one
leaves it waiting. The close of an event gives each zone the state its doors make, raises one
ZONE_STATE for each zone whose state changes, in ascending zone number, and then judges the lamps; the
order, effects before ANSWER before zones before lamps, is the model's choice (log 15). Neither changes
anything else. -/
def Obligations.AnswersAreSentAndEventsClosed : Prop :=
  (∀ (c : Tables) (r : Run) (req : Req) (code : Code) (detail : Word) (data : List Byte),
    let a : Answer := { req, code, detail, data := .fixed data, restart := false }
    let k := (r.console.offerAnswer a).1
    let q := r.events
    let made := Run.answer c r req code detail data
    (r.console.tx.isSome = true → made = r.setConsole k) ∧
    (r.console.tx = none →
      (∀ b, OutEntry.answer b ∉ r.console.queue) → r.console.queue.length < 32 → made = r.beginTx
        { dst := req.src, src := req.dst, tag := req.tag, kind := 0x81
          payload := b1 code.code ++ w2 detail ++ b1 q.records.length ++ b2 q.lost ++ data } false) ∧
    (r.console.tx = none → ∀ (pre post : List OutEntry) (b : Answer),
      k.queue = pre ++ .answer b :: post → (∀ x, OutEntry.answer x ∉ pre) →
      (∀ held, b.data = .fixed held → made = (r.setConsole { k with queue := pre ++ post }).beginTx
        { dst := b.req.src, src := b.req.dst, tag := b.req.tag, kind := 0x81
          payload := b1 b.code.code ++ w2 b.detail ++ b1 q.records.length ++ b2 q.lost ++ held }
        b.restart) ∧
      (b.data = .collect → made = ((r.setConsole { k with queue := pre ++ post }).setEvents
          { q with records := q.records.drop 8, lost := 0 }).beginTx
        { dst := b.req.src, src := b.req.dst, tag := b.req.tag, kind := 0x81
          payload := b1 b.code.code ++ w2 b.detail ++ b1 (q.records.length - 8) ++ b2 0
            ++ (b1 (min 8 q.records.length) ++ b2 q.lost
            ++ (q.records.take 8).flatMap EventRec.bytes) } b.restart)) ∧
    (∃ k q, made = (r.setConsole k).setEvents q ∧ k.rx = r.console.rx ∧
      k.errors = r.console.errors ∧ k.beaconTimer = r.console.beaconTimer ∧
      k.restartPending = r.console.restartPending ∧ q.next = r.events.next) ∧
    (∀ (f : Frame) (restart : Bool), r.beginTx f restart = r.setConsole
      { r.console with tx := some { frame := f, restart }
                       txTimer := some (10 * (f.payload.length + 10)) })) ∧
  (∀ (c : Tables) (r : Run),
    let changed := (List.finRange 8).filter fun z => r.zones[z].state ≠ zoneStateNow c r z
    let judged := changed.foldl
      (fun u z => u.raise .zoneState z.val (det (zoneStateNow c r z).code))
      { r with zones := Vector.ofFn fun z => { r.zones[z] with state := zoneStateNow c r z } }
    Run.settleEvent c r = (Run.judgeImage c judged).setEntered [] ∧
    ∃ x, Run.judgeImage c judged = judged.setChain x ∧ x.slow = r.chain.slow ∧
      x.fast = r.chain.fast ∧ x.lampTest = r.chain.lampTest ∧ x.shown = r.chain.shown) ∧
  (∀ (r : Run) (kind : EventKind) (index : Nat) (detail : Word),
    let q := r.events
    r.raise kind index detail = r.setEvents
      (if q.records.length < 64 then
        { q with records := q.records ++ [{ sequence := q.next, time := r.clock.ms, kind, index
                                            detail }]
                 next := q.next + 1 }
      else { q with lost := min 65535 (q.lost + 1) }))

/-! ### Management requests (section 1.4) and the tables -/

/-- READ_ENTRY answers OK with the entry's configuration and runtime fields, with no data for an
entry held as empty, and BAD_REQUEST 1 or 2 for a table or an index that is not there. Which entries are
held as empty is the model's reading (log 9), and the bytes of the runtime fields, which chapter 12 does
not lay out, are its choice (log 6).
CLEAR_TABLE gives one table its empty content, or for LINE and PARAM its reset values, and leaves
every other table; it is answered OK, an unknown table BAD_REQUEST 1. That the timers of PARAM's fields
start again with them is the model's reading (log 30).
That the close of a CLEAR TABLE judges the lamps is log 52.
The runtime fields of the ten tables that have some stand in the order of their field tables, laid out
as log 6 says; the others have none. The detail 0 of the OK is the model's choice (log 53).
That an absent payload takes one zero byte, its count, is the model's choice (log 65). -/
def Obligations.EntriesAreReadAndTablesCleared : Prop :=
  (
  ∀ (s : State) (src : Word) (tag : Byte) (t : Table) (i : Nat), Serves s .readEntry →
    let req : Req := { src, dst := 0, tag }
    let go := fun body => exec (.readEntry src tag body) s
    (i < t.entries →
      ((∀ e, getEntry s.cfg t i = some e → e.empty = true) →
        go (b1 t.id ++ b2 i) = answered s s.run req (.ok, 0) []) ∧
      (∀ e, getEntry s.cfg t i = some e → e.empty = false →
        go (b1 t.id ++ b2 i) =
          answered s s.run req (.ok, 0) (e.bytes ++ runtimeBytes s.run t i))) ∧
    (t.entries ≤ i → i < 65536 →
      go (b1 t.id ++ b2 i) = answered s s.run req (.badRequest, 2) []) ∧
    (∀ (b : Byte) (rest : List Byte), b = 0 ∨ 16 < b.toNat → rest.length ≤ 238 →
      go (b :: rest) = answered s s.run req (.badRequest, 1) [])) ∧
  (
  (∀ (s : State) (src : Word) (tag : Byte), Serves s .clearTable →
    let req : Req := { src, dst := 0, tag }
    (∀ t : Table, exec (.clearTable src tag (b1 t.id)) s =
      .next (((s.setCfg (clearTable s.cfg t)).setRun
        (if t = .param then Run.written s.cfg (clearTable s.cfg t) s.run .param 0 else s.run)).answer
          req (.ok, 0) []).settle) ∧
    (∀ b : Byte, b = 0 ∨ 16 < b.toNat →
      exec (.clearTable src tag [b]) s = answered s s.run req (.badRequest, 1) [])) ∧
  (∀ (c : Tables) (t t' : Table) (i : Nat),
    getEntry (clearTable c t) t i = getEntry Tables.reset t i ∧
    (t' ≠ t → getEntry (clearTable c t) t' i = getEntry c t' i))) ∧
  (∀ r : Run,
    let yes := fun (b : Bool) => ([if b then 1 else 0] : List Byte)
    let stopped := fun (t : Timer) => ([if t.isSome then 0 else 1] : List Byte)
    let callId := fun (id : Option Nat) => b2 (match id with | some n => n | none => 256)
    let sized := fun (p : List Byte) => b1 p.length ++ p
    let payload := fun (p : Option (List Byte)) =>
      (match p with | some p => 1 :: sized p | none => [0, 0] : List Byte)
    let node := fun (n : NodeId) => b1 n.trunk.val ++ b1 (n.slot.val + 1)
    (∀ i : Fin 124,
      let x := r.reports[i]
      runtimeBytes r .report i.val = payload x.last ++ b1 x.count ++ stopped x.timer ++
        (match x.pending with
          | some (p, time) => 1 :: (sized p ++ w4 time)
          | none => [0, 0, 0, 0, 0, 0])) ∧
    (∀ t : Fin 4,
      let x := r.trunks[t]
      runtimeBytes r .trunk t.val = b1 x.state.code ++ yes x.holdAsserted ++
        stopped x.settleTimer ++ b1 x.roundPhase ++ b1 x.roundPosition ++ stopped x.roundTimer ++
        b1 x.nonPoll ++ (match x.transaction with
          | some k => 1 :: (b1 (k.slot.val + 1) ++ [k.code] ++ sized k.payload ++
              (match k.source with
                | .hold => [0] | .poll => [1] | .setPoint _ => [2] | .queue => [3] | .pass => [4]))
          | none => [0, 0, 0, 0, 0])) ∧
    (∀ i : Fin 124,
      let x := r.nodes[i]
      runtimeBytes r .node i.val = b1 x.liveness.code ++ b1 x.misses ++ payload x.payload ++
        (match x.time with | some u => 1 :: w4 u | none => [0, 0, 0, 0, 0]) ++ yes x.mark) ∧
    (∀ a : Fin 6,
      let x := r.axes[a]
      runtimeBytes r .axis a.val = b1 x.state.code ++ b2 x.causes.toNat ++ b1 x.control.code ++
        b1 x.origin.code ++ i2 x.target ++ yes x.lockAtEnd ++ i2 x.sentDemand ++ b1 x.stage.code ++
        b2 x.bridgeDerate ++ (match x.latest with
          | some d => 1 :: (i2 d.position ++ b2 d.pressure ++ [d.flags])
          | none => [0, 0, 0, 0, 0, 0]) ++
        b1 x.panel.code ++ stopped x.keepaliveTimer ++ stopped x.lockTimer ++
        stopped x.controlTimer ++ yes x.wasActive ++
        b1 (x.owed.unlock.toNat + 2 * x.owed.lock.toNat + 4 * x.owed.stage.toNat) ++
        yes x.overloadNoted ++ callId x.callId) ∧
    (∀ z : Fin 8,
      let x := r.zones[z]
      runtimeBytes r .zone z.val = yes x.active ++ b1 (x.causes.toNat / 65536) ++
        b2 (x.causes.toNat % 65536) ++ yes x.fire ++ yes x.override ++ stopped x.warningTimer ++
        callId x.callId ++ yes x.callFire ++ b1 x.state.code) ∧
    (∀ d : Fin 32,
      let x := r.doors[d]
      runtimeBytes r .door d.val = b1 x.state.code ++ b1 x.retriesUsed ++
        (match x.timer with
          | none => [0] | some (.move, _) => [1] | some (.retry, _) => [2]
          | some (.transit, _) => [3]) ++
        yes x.transitMark ++ b1 x.pending.code ++ (match x.latest with
          | some q => 1 :: (b1 q.position.code ++ b1 (q.obstruction.toNat +
              2 * q.transitRequest.toNat + 4 * q.localFault.toNat))
          | none => [0, 0, 0])) ∧
    (∀ i : Fin 16,
      let x := r.areas[i]
      runtimeBytes r .area i.val = b1 x.state.code ++ callId x.callId ++
        (match x.message with | some m => 1 :: b2 m | none => [0, 0, 0]) ++
        b1 x.awaited.length ++ (x.awaited.flatMap fun w =>
          node w.node ++ yes w.armed ++ (0x10 :: sized (b2 w.message))) ++
        stopped x.playTimer ++ yes x.startMark) ∧
    (∀ ch : Fin 32,
      let x := r.channels[ch]
      runtimeBytes r .channel ch.val =
        (match x.value with | some v => 1 :: i4 v | none => [0, 0, 0, 0, 0]) ++
        yes x.stale ++ stopped x.timer) ∧
    (∀ m : Fin 16,
      let x := r.monitors[m]
      runtimeBytes r .monitor m.val = yes x.enabled ++ b1 x.current.val ++ stopped x.holdTimer ++
        stopped x.timeoutTimer ++ callId x.callId ++ (match x.derate with
          | some (v, l) => 1 :: (b2 v ++ b1 l.toNat)
          | none => [0, 0, 0, 0])) ∧
    (∀ l : Fin 14,
      let x := r.lines[l]
      runtimeBytes r .line l.val = yes x.raw ++ yes x.accepted ++ stopped x.filterTimer) ∧
    (∀ i, runtimeBytes r .route i = [] ∧ runtimeBytes r .permit i = [] ∧
      runtimeBytes r .profile i = [] ∧ runtimeBytes r .mstate i = [] ∧
      runtimeBytes r .lamp i = [] ∧ runtimeBytes r .param i = []))

/-- Every content that a WRITE ENTRY can carry, each field at every value of its range, is read back
from its bytes, for all sixteen tables. The numbers that stand for named values with no number of their
own in the spec are the model's (log 5), and so is what follows the deciding field of an empty content
(log 8).
That an absent payload takes one zero byte, its count, is the model's choice (log 65). -/
def Obligations.ContentsAreReadBack : Prop :=
  ∀ (t : Table) (i : Nat) (e : Entry), e.fits t i = true →
    (contentForm t i).run' 3 e.bytes = .ok e

/-- WRITE ENTRY to each of the sixteen tables (WRITE_ENTRY_ROUTE to WRITE_ENTRY_PARAM): the owner's
restriction, the content field by field, in CONFIGURED the cross-references, and then the entry is
replaced, the owner acts on it, and the write is answered OK or CLAMPED; refused at any step it leaves
the tables and the runtime as they were. A ROUTE position behind the count is refused after the node
slot, which is R19's last step.
The cross-references of a written entry, table by table: the references it makes itself, and then the
validation of the tables as the write leaves them. The field numbers and the field a failed reference
names are the model's reading (log 4, log 26, log 50), and so are the references an MSTATE write is held
to (log 25).
The detail of the OK of a table other than ROUTE, 0, is the model's choice (log 53).
Bytes beyond the content's last field are judged before the rules among the entries of the table, the
model's choice (log 61). -/
def Obligations.WritesAreJudgedInOrder : Prop :=
  (
  ∀ (s : State) (src : Word) (tag : Byte) (t : Table) (i : Nat) (body : List Byte),
    Serves s .writeEntry → body.length ≤ 236 →
    let req : Req := { src, dst := 0, tag }
    let go := exec (writeCommand src tag (b2 i ++ body) t) s
    let refused := fun k => answered s s.run req (.badRequest, det k) []
    (i < 65536 → (t.entries ≤ i ∨ t = .line ∧ 14 ≤ i) → go = refused 2) ∧
    (i < t.entries → ¬(t = .line ∧ 14 ≤ i) →
      (∀ v, restriction s.cfg s.run t i body = some v → go = answered s s.run req v []) ∧
      (restriction s.cfg s.run t i body = none →
        (∀ k, (contentForm t i).run' 3 body = .error k → go = refused k) ∧
        (∀ e, (contentForm t i).run' 3 body = .ok e →
          (∀ k, putEntry s.cfg i e = .error k →
            let late := s.run.gw.inForce = true ∧ k = 2 ∧
              ∃ x n, e = .route (some x) ∧ x.target = .node n ∧ nodeCfg s.cfg n = none
            (late → go = refused 5) ∧ (¬late → go = refused k)) ∧
          (∀ c d, putEntry s.cfg i e = .ok (c, d) →
            (∀ k, s.run.gw.inForce = true → crossFailure c i e = some k → go = refused k) ∧
            (s.run.gw.inForce = false ∨ crossFailure c i e = none →
              go = .next (((s.setCfg c).setRun (Run.written s.cfg c s.run t i)).answer req
                (if e.clamped then (.clamped, 3) else (.ok, det d)) []).settle)))))) ∧
  (∀ c : Tables,
    let rest : Option Nat := if (validate c).isSome then some 3 else none
    (∀ (i : Nat) (x : Route),
      (∀ n, x.target = .node n → crossFailure c i (.route (some x)) =
        if (nodeCfg c n).isSome then rest else some 5) ∧
      (∀ f, x.target = .function f → crossFailure c i (.route (some x)) = rest)) ∧
    (∀ (i : Nat) (x : Permit),
      (termSound c x.term1 = false → crossFailure c i (.permit (some x)) = some 7) ∧
      (termSound c x.term1 = true → crossFailure c i (.permit (some x)) =
        if termSound c x.term2 then rest else some 8)) ∧
    (∀ u : Term, (termSound c (some u) = true ↔
      (∀ a k, u = .axis a k → c.axes[a].configured = true) ∧
      (∀ d k, u = .door d k → c.doors[d].configured = true) ∧
      (∀ m k, u = .monitor m k → c.monitors[m].configured = true)) ∧ termSound c none = true) ∧
    (∀ a : Fin 6,
      let x := c.axes[a]
      let go := crossFailure c a.val (.axis x)
      let driveBad := nodeKind c x.drive ≠ some .drive ∨
        ∃ b : Fin 6, b ≠ a ∧ c.axes[b].configured = true ∧ c.axes[b].drive = x.drive
      let panelBad := ∃ n, x.panel = some n ∧ nodeKind c n ≠ some .panel
      let bad := fun (q : Option Prereq) => ∃ p, q = some p ∧ c.axes[p.axis].configured = false
      (x.configured = false → go = rest) ∧
      (x.configured = true → (driveBad → go = some 4) ∧
        (¬driveBad → (panelBad → go = some 5) ∧
          (¬panelBad → (bad x.prereq1 → go = some 26) ∧
            (¬bad x.prereq1 → (bad x.prereq2 → go = some 27) ∧
              (¬bad x.prereq2 →
                go = if 2 ≤ (breakpoints c a).length then rest else some 3)))))) ∧
    (∀ d : Fin 32,
      let bad := nodeKind c c.doors[d].node ≠ some .door ∨
        ∃ b : Fin 32, b ≠ d ∧ c.doors[b].configured = true ∧ c.doors[b].node = c.doors[d].node
      (c.doors[d].configured = true → bad → crossFailure c d.val (.door c.doors[d]) = some 4) ∧
      (c.doors[d].configured = false ∨ ¬bad →
        crossFailure c d.val (.door c.doors[d]) = rest)) ∧
    (∀ (i : Nat) (x : ChannelCfg), crossFailure c i (.channel x) =
      if x.configured = true ∧ (nodeCfg c x.source).isNone then some 4 else rest) ∧
    (∀ m : Fin 16, crossFailure c m.val (.monitor c.monitors[m]) =
      if c.monitors[m].configured = true ∧ c.monitors[m].startEnabled = true ∧
        graphPasses c m = false then some 4 else rest) ∧
    (∀ (m : Fin 16) (k : Fin 8),
      let x := mstate c m k
      let go := crossFailure c (8 * m.val + k.val) (.mstate x)
      let used := fun (j : Fin 8) => (mstate c m j).inUse = true
      let held := c.monitors[m].configured = true ∧ c.monitors[m].startEnabled = true
      (x.inUse = false → go = rest) ∧
      (x.inUse = true → (c.channels[x.channel].configured = false → go = some 4) ∧
        (c.channels[x.channel].configured = true → (¬held → go = rest) ∧
          (held → (¬used x.onHold → go = some 8) ∧
            (used x.onHold → (x.timeout ≠ 0 → ¬used x.onTimeout → go = some 10) ∧
              (x.timeout = 0 ∨ used x.onTimeout →
                (∀ j, x.onStale = some j → ¬used j → go = some 11) ∧
                ((∀ j, x.onStale = some j → used j) → go = rest))))))) ∧
    (∀ (i : Nat) (e : Entry), (match e with
        | .route none | .permit none | .report _ | .trunk _ | .node _ | .profile _ | .zone _
        | .area _ | .lamp _ | .line _ | .param _ => True
        | _ => False) → crossFailure c i e = rest))

/-- A write that passes puts its content in its own entry (a beacon period brought inside 100..5000)
and leaves every other entry of every table as it was.
The route table keeps its station order under every write, takes the new entry at the place its
ANSWER names, and loses the entry it replaces; duplicates and positions behind the count are
refused, by the model's field numbers (log 4).
The owners' write restrictions, table by table: STATE with the detail the owner names.
That a door that is not configured names no zone, and that a written door's zones are read before its
content is judged, is the model's choice (log 38). -/
def Obligations.WritesKeepTheOtherEntriesAndTheirOwners : Prop :=
  (
  (∀ (c c' : Tables) (t : Table) (i d : Nat) (e : Entry), e.fits t i = true → i < t.entries →
     putEntry c i e = .ok (c', d) →
     (t ≠ .route → t ≠ .param → getEntry c' t i = some e) ∧
     (∀ x, e = .param x →
       c'.param = { x with beaconPeriod := max 100 (min 5000 x.beaconPeriod) }) ∧
     (∀ t' j, t' ≠ t ∨ (j ≠ i ∧ t ≠ .route ∧ t ≠ .param) → getEntry c' t' j = getEntry c t' j)) ∧
  (∀ (l : List Route) (i : Nat), l.Pairwise (fun x y => x.station.toNat < y.station.toNat) →
     (∀ x l' d, putRoute l i x = .ok (l', d) →
       l'.Pairwise (fun x y => x.station.toNat < y.station.toNat)) ∧
     (i ≤ l.length → putRoute l i none = .ok (l.eraseIdx i, i)) ∧
     (l.length < i → putRoute l i none = .error 2) ∧
     (∀ x : Route,
       ((∃ y ∈ l.eraseIdx i, y.station = x.station) → putRoute l i (some x) = .error 3) ∧
       ((∀ y ∈ l.eraseIdx i, y.station ≠ x.station) →
         (∀ n, x.target = .node n → (∃ y ∈ l.eraseIdx i, y.target = .node n) →
           putRoute l i (some x) = .error 5) ∧
         ((∀ n, x.target = .node n → ∀ y ∈ l.eraseIdx i, y.target ≠ .node n) →
           (l.length < i → putRoute l i (some x) = .error 2) ∧
           (i ≤ l.length → ∃ l' d, putRoute l i (some x) = .ok (l', d) ∧ l'[d]? = some x ∧
             l'.eraseIdx d = l.eraseIdx i)))))) ∧
  (
  ∀ (c : Tables) (r : Run) (body : List Byte),
    (∀ t : Fin 4, restriction c r .trunk t.val body =
      if r.trunks[t].state = .settling ∨ r.trunks[t].state = .running then
        some (.state, det r.trunks[t].state.code) else none) ∧
    (∀ n : Fin 124, restriction c r .node n.val body =
      restriction c r .trunk (n.val / 31) body) ∧
    (∀ a : Fin 6, restriction c r .axis a.val body =
      if r.axes[a].state = .offline ∨ r.axes[a].state = .locked ∨ r.axes[a].state = .still then
        none else some (.state, det r.axes[a].state.code)) ∧
    (∀ k : Fin 48, restriction c r .profile k.val body =
      restriction c r .axis (k.val / 8) body) ∧
    (∀ z : Fin 8, restriction c r .zone z.val body =
      if r.zones[z].active then some (.state, det r.zones[z].state.code) else none) ∧
    (∀ i : Fin 16, restriction c r .area i.val body =
      if r.areas[i].state = .playing then some (.state, 1) else none) ∧
    (∀ (ch : Fin 32) (m : Fin 16), reads c r m ch = true →
      (∀ m' : Fin 16, m' < m → reads c r m' ch = false) →
      restriction c r .channel ch.val body = some (.state, det m.val)) ∧
    (∀ ch : Fin 32, (∀ m, reads c r m ch = false) →
      restriction c r .channel ch.val body = none) ∧
    (∀ m : Fin 16, restriction c r .monitor m.val body =
      if r.monitors[m].enabled then some (.state, 1) else none) ∧
    (∀ i : Fin 128, restriction c r .mstate i.val body =
      restriction c r .monitor (i.val / 8) body) ∧
    (∀ d : Fin 32,
      (r.doors[d].state = .opening ∨ r.doors[d].state = .closing ∨
          r.doors[d].state = .obstructed ∨ r.doors[d].state = .transit →
        restriction c r .door d.val body = some (.state, det r.doors[d].state.code)) ∧
      (∀ x : DoorCfg, r.doors[d].state = .offline ∨ r.doors[d].state = .opened ∨
          r.doors[d].state = .closed ∨ r.doors[d].state = .fault →
        let named := fun z => z ∈ zonesNamed c.doors[d] ∨ z ∈ zonesNamed x
        (∀ z, named z → r.zones[z].active = true →
          (∀ z' < z, ¬(named z' ∧ r.zones[z'].active = true)) →
          restriction c r .door d.val (encDoor x) = some (.state, det (8 + z.val))) ∧
        ((∀ z, named z → r.zones[z].active = false) →
          restriction c r .door d.val (encDoor x) = none))) ∧
    (∀ (t : Table) (i : Nat), t = .route ∨ t = .permit ∨ t = .report ∨ t = .lamp ∨ t = .line ∨
      t = .param → restriction c r t i body = none))

/-- What a write that passes does to its owner's runtime.
That an axis unbound by a write empties its set-point slot and its halt causes and keeps its sent demand
and stage is the model's reading (log 18, log 29).
A PARAM write that leaves the beacon period as it was leaves the timer running (log 43). -/
def Obligations.WrittenEntriesActOnTheirOwner : Prop :=
  ∀ (c c' : Tables) (r : Run),
    (∀ i : Fin 124, Run.written c c' r .report i.val =
      r.modReport i fun _ => { last := none, count := 0, timer := none, pending := none }) ∧
    (∀ i : Fin 124, Run.written c c' r .node i.val =
      r.modNode i fun _ =>
        { liveness := .unknown, misses := 0, payload := none, time := none, mark := false }) ∧
    (∀ ch : Fin 32, Run.written c c' r .channel ch.val =
      r.modChannel ch fun _ => { value := none, stale := true, timer := none }) ∧
    (∀ t : Fin 4,
      (r.gw = .unconfigured → Run.written c c' r .trunk t.val = r) ∧
      (r.gw = .configured →
        (r.trunks[t].state = .down → c'.trunks[t].configured = true →
          Run.written c c' r .trunk t.val =
            (r.modTrunk t fun k => { k with holdAsserted := true, state := .held }).raise
              .trunkState t.val 1) ∧
        (r.trunks[t].state = .held → c'.trunks[t].configured = false →
          Run.written c c' r .trunk t.val =
            (r.modTrunk t fun k => { k with holdAsserted := false, state := .down }).raise
              .trunkState t.val 0) ∧
        (r.trunks[t].state = .down → c'.trunks[t].configured = false →
          Run.written c c' r .trunk t.val = r) ∧
        (r.trunks[t].state = .held → c'.trunks[t].configured = true →
          Run.written c c' r .trunk t.val = r))) ∧
    (∀ a : Fin 6,
      let low := fun (r : Run) =>
        if stageOn c'.axes[a] then r else r.modAxis a fun x => { x with stage := .low }
      let unbound := r.modAxis a fun x =>
        { x with state := .offline, causes := 0, latest := none, panel := .none
                 owed := { unlock := false, lock := false, stage := false }
                 wasActive := false, setPoint := none }
      (c'.axes[a].configured = true → c'.axes[a].drive = c.axes[a].drive →
        Run.written c c' r .axis a.val = low r) ∧
      (c'.axes[a].configured = false ∨ c'.axes[a].drive ≠ c.axes[a].drive →
        Run.written c c' r .axis a.val = low
          (if r.axes[a].state = .offline then unbound
           else Run.judgeOthers c' (unbound.endPlanOf a .offline) [a]))) ∧
    (∀ d : Fin 32, Run.written c c' r .door d.val =
      if c'.doors[d].configured = false ∨ c'.doors[d].node ≠ c.doors[d].node then
        r.modDoor d fun _ =>
          { state := .offline, retriesUsed := 0, timer := none, transitMark := false
            pending := .none, latest := none }
      else r) ∧
    (∀ i : Fin 16, Run.written c c' r .area i.val =
      if r.gw.inForce then Run.judgeArea c' r i else r) ∧
    (let flash := c'.param.slowPeriod ≠ c.param.slowPeriod ∨
        c'.param.fastPeriod ≠ c.param.fastPeriod ∨ c'.param.duty ≠ c.param.duty
      let beacon := c'.param.beaconPeriod ≠ c.param.beaconPeriod
      let timed := r.setConsole
        { r.console with beaconTimer := some (ms c'.param.beaconPeriod) }
      (¬flash → beacon → Run.written c c' r .param 0 = timed) ∧
      (flash → beacon → Run.written c c' r .param 0 = timed.restartFlash c') ∧
      (flash → ¬beacon → Run.written c c' r .param 0 = r.restartFlash c') ∧
      (¬flash → ¬beacon → Run.written c c' r .param 0 = r)) ∧
    (∀ (t : Table) (i : Nat), t = .route ∨ t = .permit ∨ t = .profile ∨ t = .zone ∨
      t = .monitor ∨ t = .mstate ∨ t = .lamp ∨ t = .line → Run.written c c' r t i = r)

/-- READ_STATUS answers the snapshot of R9, clears the two counts behind it with the clear flag 1,
and refuses any other flag. COLLECT_EVENTS is answered OK with its data open: an idle transmitter
collects and sends at once, a busy one leaves the ANSWER in the queue and the events where they are,
and at a full queue the oldest REPORT makes room for it; with no REPORT to make room the ANSWER is dropped
and collects nothing. The layout of the snapshot is the model's
choice (log 6).
The detail 0 of the OK is the model's choice (log 53). -/
def Obligations.StatusAndEventsAreReadOut : Prop :=
  (∀ (s : State) (src : Word) (tag : Byte), Serves s .readStatus →
     let req : Req := { src, dst := 0, tag }
     let data := b1 s.run.gw.code ++ b2 s.run.console.errors ++ b2 s.run.console.drops
       ++ b1 s.run.console.queue.length ++ s.run.trunks.toList.flatMap (fun t => b1 t.state.code)
     exec (.readStatus src tag [0]) s = answered s s.run req (.ok, 0) data ∧
     exec (.readStatus src tag [1]) s =
       answered s (s.run.setConsole { s.run.console with errors := 0, drops := 0 }) req (.ok, 0)
         data ∧
     (∀ (b : Byte) (rest : List Byte), b ≠ 0 → b ≠ 1 → rest.length ≤ 238 →
       exec (.readStatus src tag (b :: rest)) s = answered s s.run req (.badRequest, 1) [])) ∧
  (∀ (s : State) (src : Word) (tag : Byte), Serves s .collectEvents →
     let k := s.run.console
     let q := s.run.events
     let a : Answer := { req := { src, dst := 0, tag }, code := .ok, detail := 0,
                         data := .collect, restart := false }
     let dropped := min 65535 (k.drops + 1)
     let begun := fun (k : Console) => closed s
       (((s.run.setConsole k).setEvents { q with records := q.records.drop 8, lost := 0 }).beginTx
         { dst := src, src := 0, tag, kind := 0x81
           payload := b1 0 ++ w2 0 ++ b1 (q.records.length - 8) ++ b2 0
             ++ (b1 (min 8 q.records.length) ++ b2 q.lost
             ++ (q.records.take 8).flatMap EventRec.bytes) } false)
     (k.tx = none → (∀ b, OutEntry.answer b ∉ k.queue) → k.queue.length < 32 →
       exec (.collectEvents src tag []) s = begun k) ∧
     (32 ≤ k.queue.length → ∀ (pre post : List OutEntry) (old : Report),
       k.queue = pre ++ .report old :: post → (∀ p, OutEntry.report p ∉ pre) →
       (k.tx.isSome = true → exec (.collectEvents src tag []) s =
         closed s (s.run.setConsole
           { k with queue := pre ++ post ++ [.answer a], drops := dropped })) ∧
       (k.tx = none → (∀ b, OutEntry.answer b ∉ k.queue) →
         exec (.collectEvents src tag []) s =
           begun { k with queue := pre ++ post, drops := dropped })) ∧
     (k.tx.isSome = true → k.queue.length < 32 →
       exec (.collectEvents src tag []) s =
         closed s (s.run.setConsole { k with queue := k.queue ++ [.answer a] })) ∧
     (k.tx.isSome = true → 32 ≤ k.queue.length → (∀ p, OutEntry.report p ∉ k.queue) →
       exec (.collectEvents src tag []) s =
         closed s (s.run.setConsole { k with drops := dropped })))

/-- SAVE_CONFIG enters STORING with the image of the tables as its snapshot, the store WRITING page
0 under its 20 ms timer, and is answered OK. The image is whole pages, opens with its length in
pages and the CRC-16 of everything behind the CRC field, and holds the records, PARAM's fields and
the end mark, filled out with zero bytes. What LOADING finds in the bytes of an image: a header that
does not match or a torn page is unreadable; a record that is refused, or tables the validation
fails, are refused; and else the tables are good. The places of the bytes of the header and of a
record are the model's choice (log 10).
The mark of a torn page is the model's device (log 13). That the image of sound tables loads back is
the statement SavedImagesLoadBack.
The detail 0 of the OK is the model's choice (log 53). -/
def Obligations.ImagesAreFormedAndJudged : Prop :=
  (∀ (s : State) (src : Word) (tag : Byte), Serves s .saveConfig →
     exec (.saveConfig src tag []) s = answered s
       { s.run with
         gw := .storing
         store := { s.run.store with phase := .writing, snapshot := some (image s.cfg)
                                     page := 0, pageTimer := some (ms 20), finalPass := false } }
       { src, dst := 0, tag } (.ok, 0) []) ∧
  (∀ c : Tables, imageBody c ≠ [] ∧ ∃ (pages fill : Nat),
     (image c).length = 128 * pages ∧ 1 ≤ pages ∧ fill < 128 ∧
     image c = b2 pages ++ w2 (crc16 (imageBody c ++ List.replicate fill 0))
       ++ (imageBody c ++ List.replicate fill 0) ∧
     imageBody c = recordTables.flatMap (tableRecords c)
       ++ (b1 16 ++ b2 0 ++ encParam c.param) ++ [0xFF]) ∧
  (∀ (torn : Bool) (a b h l : Byte) (rest : List Byte),
     let bytes := a :: b :: h :: l :: rest
     (torn = true ∨ crc16 rest ≠ h ++ l → judgeImageBytes torn bytes = .unreadable) ∧
     (torn = false → crc16 rest = h ++ l →
       (takeRecords bytes.length Tables.reset rest = none →
         judgeImageBytes torn bytes = .refused) ∧
       (∀ c, takeRecords bytes.length Tables.reset rest = some c →
         (validate c = none → judgeImageBytes torn bytes = .good c) ∧
         (validate c ≠ none → judgeImageBytes torn bytes = .refused))))

/-- LOADING gives a saved configuration back: the image of tables that fit and that the validation passes
is judged good with those same tables, but for the fields of a REPORT of mode NONE, which is empty and
leaves no record (R33, R180, log 9). Read record by record, each record goes into its table; until the
image is found good, LAMP and PARAM stay at their reset values (log 11), and the tables read so far end
at the first byte that begins no whole record. The record's form (table id in one byte, index in two),
the end mark FFh and the header of four bytes are the model's choice of layout (log 10); that an image
that ends without the end mark is refused is the model's choice too (log 56).
That an absent payload takes one zero byte, its count, is the model's choice (log 65). -/
def Obligations.SavedImagesLoadBack : Prop :=
  (∀ c : Tables, TablesFit c → validate c = none →
    judgeImageBytes false (image c) =
      .good { c with reports := c.reports.map fun x => if x.mode = .none then emptyReport else x } ∧
    ((∀ i : Fin 124, c.reports[i].mode = .none → c.reports[i] = emptyReport) →
      judgeImageBytes false (image c) = .good c)) ∧
  (∀ (n i d : Nat) (c c' : Tables) (t : Table) (e : Entry) (rest : List Byte),
    e.fits t i = true → i < t.entries → e.cutShort = false → e.clamped = false →
    putEntry c i e = .ok (c', d) →
    takeRecords (n + 1) c (b1 t.id ++ b2 i ++ e.bytes ++ rest) = takeRecords n c' rest ∧
    takeWhole (n + 1) c (b1 t.id ++ b2 i ++ e.bytes ++ rest) = takeWhole n c' rest) ∧
  (∀ (n : Nat) (c : Tables) (b : Byte) (rest : List Byte),
    takeWhole n c [] = c ∧ takeRecords (n + 1) c [] = none ∧
    takeRecords (n + 1) c (0xFF :: rest) = some c ∧
    (b = 0 ∨ 16 < b.toNat → takeWhole n c (b :: rest) = c ∧
      (b ≠ 0xFF → takeRecords (n + 1) c (b :: rest) = none))) ∧
  (∀ (c : Tables) (bytes : List Byte), takeRecords bytes.length Tables.reset (bytes.drop 4) = some c →
    tablesSoFar bytes = { c with lamps := Tables.reset.lamps, param := Tables.reset.param })

/-- START runs the validation: it names the failing table and entry, or brings the tables into force.
The entry named is the first that fails, in the order of R183: the lowest table id, and in it the lowest
index. The validation passes exactly when the tables agree with one another as the table of R183 says.
At the change to CONFIGURED the configured trunks enter SETTLING, every area is UNAVAILABLE with its
start mark set, the monitors with start enabled enter state 0 and every line is judged anew; the order
of the four is the model's choice (log 51), and so is a settle time of 0 running out at once (log 34).
The detail 0 of the OK is the model's choice (log 53). -/
def Obligations.StartValidatesTheTables : Prop :=
  (
  (∀ (s : State) (src : Word) (tag : Byte), Serves s .start →
     let req : Req := { src, dst := 0, tag }
     (∀ t i, validate s.cfg = some (t, i) →
       exec (.start src tag []) s = answered s s.run req (.badRequest, det2 t.id i) []) ∧
     (validate s.cfg = none →
       exec (.start src tag []) s =
         answered s (Run.becomeConfigured s.cfg s.run) req (.ok, 0) [] ∧
       (Run.becomeConfigured s.cfg s.run).gw = .configured ∧
       ∀ l : Fin 14, (Run.becomeConfigured s.cfg s.run).lines[l] =
         { raw := s.run.lines[l].raw, accepted := false
           filterTimer := if s.run.lines[l].raw then some (ms s.cfg.lines[l].filter) else none })) ∧
  (∀ c : Tables, validate c = none ↔
     (∀ x ∈ c.routes, ∀ n, x.target = .node n → (nodeCfg c n).isSome = true) ∧
     (∀ (i : Fin 64) (p : Permit), c.permits[i] = some p → ∀ u, u = p.term1 ∨ u = p.term2 →
       (∀ a k, u = some (.axis a k) → c.axes[a].configured = true) ∧
       (∀ d k, u = some (.door d k) → c.doors[d].configured = true) ∧
       (∀ m k, u = some (.monitor m k) → c.monitors[m].configured = true)) ∧
     (∀ a : Fin 6, c.axes[a].configured = true →
       nodeKind c c.axes[a].drive = some .drive ∧
       (∀ b : Fin 6, b < a → c.axes[b].configured = true → c.axes[b].drive ≠ c.axes[a].drive) ∧
       (∀ n, c.axes[a].panel = some n → nodeKind c n = some .panel) ∧
       (∀ p : Prereq, c.axes[a].prereq1 = some p ∨ c.axes[a].prereq2 = some p →
         c.axes[p.axis].configured = true) ∧
       2 ≤ (breakpoints c a).length) ∧
     (∀ d : Fin 32, c.doors[d].configured = true →
       nodeKind c c.doors[d].node = some .door ∧
       ∀ b : Fin 32, b < d → c.doors[b].configured = true → c.doors[b].node ≠ c.doors[d].node) ∧
     (∀ i : Fin 16, ∀ n ∈ c.areas[i], nodeKind c n = some .amp ∧
       ∀ j : Fin 16, j < i → n ∉ c.areas[j]) ∧
     (∀ ch : Fin 32, c.channels[ch].configured = true →
       (nodeCfg c c.channels[ch].source).isSome = true) ∧
     (∀ m : Fin 16, c.monitors[m].configured = true →
       (c.monitors[m].startEnabled = true → graphPasses c m = true) ∧
       ∀ k : Fin 8, (mstate c m k).inUse = true →
         c.channels[(mstate c m k).channel].configured = true))) ∧
  (∀ c : Tables, (validate c = none ↔ ∀ t i, ¬Unsound c t i) ∧
    ∀ t i, validate c = some (t, i) ↔ Unsound c t i ∧
      ∀ t' j, t'.id < t.id ∨ t'.id = t.id ∧ j < i → ¬Unsound c t' j) ∧
  (∀ (c : Tables) (r : Run),
    let trunks := (List.finRange 4).foldl (fun u t =>
      if c.trunks[t].configured = true then Run.settle c u t else u) (r.setGw .configured)
    let areas := { trunks with areas := Vector.ofFn fun i : Fin 16 =>
      { trunks.areas[i] with state := .unavailable, startMark := true } }
    let monitors := (List.finRange 16).foldl (fun u m =>
      if c.monitors[m].configured = true ∧ c.monitors[m].startEnabled = true then
        Run.enterState c (u.modMonitor m fun x => { x with enabled := true }) m 0 else u) areas
    Run.becomeConfigured c r = (List.finRange 14).foldl (fun u l => u.modLine l fun x =>
      { x with accepted := false
               filterTimer := if x.raw then some (ms c.lines[l].filter) else none }) monitors ∧
    (∀ t : Fin 4,
      let on := (r.modTrunk t fun k => { k with
        state := .settling, holdAsserted := false
        settleTimer := some (ms c.trunks[t].settle) }).raise .trunkState t.val 2
      Run.settle c r t = if c.trunks[t].settle = 0 then Run.settled c on t else on) ∧
    (∀ t : Fin 4, (Run.becomeConfigured c r).trunks[t].state =
      if c.trunks[t].configured = false then r.trunks[t].state
      else if c.trunks[t].settle = 0 then .running else .settling))

/-- RESTART is answered BUSY with the lowest axis in motion while the tables are in force; otherwise
restart pending is set and its ANSWER, whose end of transmission resets the part, enters the outbound
queue, a full one in the place of its oldest REPORT; dropped there, the reset takes place at once.
LAMP_TEST starts or restarts its 3 s; SET_OUTPUT and the LINES function's SET OUTPUT drive the
carried level at once with set by CONSOLE; READ_LINES answers levels, service mode and outputs; and
an output or level that is not one is refused. The layout of READ_LINES' data is the model's choice
(log 6).
The detail 0 of the OK is the model's choice (log 53). -/
def Obligations.RestartLampTestAndOutputs : Prop :=
  (
  ∀ (s : State) (src : Word) (tag : Byte), Serves s .restart →
    let moving := fun (a : Fin 6) => s.run.axes[a].state.inMotion = true
    let k := { s.run.console with restartPending := true }
    let a : Answer := { req := { src, dst := 0, tag }, code := .ok, detail := 0,
                        data := .fixed [], restart := true }
    let begun := fun (k : Console) => closed s ((s.run.setConsole k).beginTx
      { dst := src, src := 0, tag, kind := 0x81
        payload := b1 0 ++ w2 0 ++ b1 s.run.events.records.length ++ b2 s.run.events.lost } true)
    (∀ a : Fin 6, s.run.gw.inForce = true → moving a → (∀ b < a, ¬moving b) →
      exec (.restart src tag []) s =
        answered s s.run { src, dst := 0, tag } (.busy, det (a.val + 1)) []) ∧
    ((s.run.gw.inForce = true → ∀ a, ¬moving a) →
      (k.tx.isSome = true → k.queue.length < 32 →
        exec (.restart src tag []) s =
          closed s (s.run.setConsole { k with queue := k.queue ++ [.answer a] })) ∧
      (k.tx = none → (∀ b, OutEntry.answer b ∉ k.queue) → k.queue.length < 32 →
        exec (.restart src tag []) s = begun k) ∧
      (32 ≤ k.queue.length → ∀ (pre post : List OutEntry) (old : Report),
        k.queue = pre ++ .report old :: post → (∀ p, OutEntry.report p ∉ pre) →
        let drops := min 65535 (k.drops + 1)
        (k.tx.isSome = true → exec (.restart src tag []) s =
          closed s (s.run.setConsole { k with queue := pre ++ post ++ [.answer a], drops })) ∧
        (k.tx = none → (∀ b, OutEntry.answer b ∉ k.queue) →
          exec (.restart src tag []) s = begun { k with queue := pre ++ post, drops })) ∧
      (32 ≤ k.queue.length → (∀ p, OutEntry.report p ∉ k.queue) →
        exec (.restart src tag []) s =
          .next (s.resetBy .restart (rawLevels s.run)).settle))) ∧
  (
  ∀ (s : State) (src dst : Word) (tag : Byte) (o : Fin 4) (high : Bool),
    let out := { s.run with outputs := s.run.outputs.set o { high, setBy := .console } }
    let req : Req := { src, dst := 0, tag }
    (Serves s .lampTest → exec (.lampTest src tag []) s =
      answered s { s.run with chain := { s.run.chain with lampTest := some (sec 3) } } req
        (.ok, 0) []) ∧
    (Serves s .setOutput →
      exec (.setOutput src tag (b1 o.val ++ bBool high)) s = answered s out req (.ok, 0) [] ∧
      (∀ b l : Byte, 4 ≤ b.toNat →
        exec (.setOutput src tag [b, l]) s = answered s s.run req (.badRequest, 1) []) ∧
      (∀ l : Byte, 2 ≤ l.toNat → exec (.setOutput src tag (b1 o.val ++ [l])) s =
        answered s s.run req (.badRequest, 2) [])) ∧
    (Reaches s dst .lines →
      exec (.linesSetOutput src dst tag (b1 o.val ++ bBool high)) s =
        answered s out { src, dst, tag } (.ok, 0) [] ∧
      (∀ b l : Byte, 4 ≤ b.toNat → exec (.linesSetOutput src dst tag [b, l]) s =
        answered s s.run { src, dst, tag } (.badRequest, 1) []) ∧
      (∀ l : Byte, 2 ≤ l.toNat → exec (.linesSetOutput src dst tag (b1 o.val ++ [l])) s =
        answered s s.run { src, dst, tag } (.badRequest, 2) []) ∧
      ∃ raw accepted : Word,
        (∀ l : Fin 14, raw.getLsbD l.val = s.run.lines[l].raw ∧
          accepted.getLsbD l.val = s.run.lines[l].accepted) ∧
        exec (.readLines src dst tag []) s = answered s s.run { src, dst, tag } (.ok, 0)
          (w2 raw ++ w2 accepted ++ bBool (serviceMode s.run)
            ++ s.run.outputs.toList.flatMap fun o => bBool o.high ++ b1 o.setBy.code)))

/-- TRUNK_HOLD is taken in SETTLING and RUNNING, TRUNK_RELEASE in HELD only; any other state is
answered STATE with its code, and a trunk other than A..D BAD_REQUEST 1.
A trunk hold: the trunk is HELD with its hold line asserted and nothing left on it, every node of
it UNKNOWN with its record and its report entry at the reset values, the set-point slots of its drives
empty, and the other trunks' states as they were. In the order of R43, R45 and R61: TRUNK_STATE; the nodes;
TRUNK_DOWN for the frame on the line, for the command queue in queue order and for the pass slot; the hold
set and the slots; the report entries; and UNKNOWN to the users of every node that was not UNKNOWN, whose
channels turn stale. The detail 0 of the OK is the model's choice (log 53), as is the order among the
users (log 27).
That a turnaround gap under way stops with the hold is the model's choice (log 62). -/
def Obligations.TrunkRequestsByState : Prop :=
  (∀ (s : State) (src : Word) (tag : Byte) (t : Fin 4), Serves s .trunkHold →
     let req : Req := { src, dst := 0, tag }
     let x := s.run.trunks[t].state
     (x = .settling ∨ x = .running → exec (.trunkHold src tag (b1 t.val)) s =
       answered s (Run.holdTrunk s.cfg s.run t) req (.ok, 0) []) ∧
     (x = .down ∨ x = .held → exec (.trunkHold src tag (b1 t.val)) s =
       answered s s.run req (.state, det x.code) []) ∧
     (x = .held → s.cfg.trunks[t].settle ≠ 0 → exec (.trunkRelease src tag (b1 t.val)) s =
       answered s ((s.run.modTrunk t fun k =>
         { k with holdAsserted := false, state := .settling
                  settleTimer := some (ms s.cfg.trunks[t].settle) }).raise .trunkState t.val 2)
         req (.ok, 0) []) ∧
     (x = .held → s.cfg.trunks[t].settle = 0 → exec (.trunkRelease src tag (b1 t.val)) s =
       answered s (Run.settled s.cfg ((s.run.modTrunk t fun k =>
         { k with holdAsserted := false, state := .settling
                  settleTimer := some 0 }).raise .trunkState t.val 2) t) req (.ok, 0) []) ∧
     (x ≠ .held → exec (.trunkRelease src tag (b1 t.val)) s =
       answered s s.run req (.state, det x.code) []) ∧
     (∀ b : Byte, 4 ≤ b.toNat →
       exec (.trunkHold src tag [b]) s = answered s s.run req (.badRequest, 1) [] ∧
       exec (.trunkRelease src tag [b]) s = answered s s.run req (.badRequest, 1) [])) ∧
  (∀ (c : Tables) (r : Run) (t : Fin 4),
     let r' := Run.holdTrunk c r t
     r'.trunks[t] = { r.trunks[t] with
       state := .held, holdAsserted := true, settleTimer := none, roundTimer := none
       roundPhase := 0, roundPosition := 0, nonPoll := 0, transaction := none
       windowTimer := none, gapTimer := none, queue := [], holdSet := [], pass := none } ∧
     (∀ u, r'.trunks[u].state = if u = t then .held else r.trunks[u].state) ∧
     (∀ i : Fin 31, nodeRt r' (nodeAt t i) =
         { liveness := .unknown, misses := 0, payload := none, time := none, mark := false } ∧
       r'.reports[nodeIndex (nodeAt t i)] =
         { last := none, count := 0, timer := none, pending := none }) ∧
     (∀ a : Fin 6, c.axes[a].configured = true → c.axes[a].drive.trunk = t →
       r'.axes[a].setPoint = none)) ∧
  (∀ (c : Tables) (r : Run) (t : Fin 4),
     let nodes := (List.finRange 31).map (nodeAt t)
     let known := nodes.filter fun n => (nodeRt r n).liveness ≠ .unknown
     let held := (r.modTrunk t fun k =>
       { k with state := .held, holdAsserted := true, settleTimer := none, roundTimer := none
                roundPhase := 0, roundPosition := 0, nonPoll := 0, transaction := none
                windowTimer := none, gapTimer := none }).raise .trunkState t.val 1
     let unknown := nodes.foldl (fun u n => u.modNode (nodeIndex n) fun _ =>
       { liveness := .unknown, misses := 0, payload := none, time := none, mark := false }) held
     let onLine :=
       match r.trunks[t].transaction.map (·.source), r.trunks[t].queue, r.trunks[t].pass with
       | some .queue, f :: rest, _ => Run.tellOrigin c
           (unknown.modTrunk t fun y => { y with queue := rest }) f.origin .trunkDown
       | some .pass, _, some p => Run.answerCompletion c
           (unknown.modTrunk t fun y => { y with pass := none }) p.req .trunkDown
       | _, _, _ => unknown
     let queue := onLine.trunks[t].queue.foldl (fun u f => Run.tellOrigin c
       (u.modTrunk t fun y => { y with queue := y.queue.tail }) f.origin .trunkDown) onLine
     let pass := match queue.trunks[t].pass with
       | some p => Run.answerCompletion c
           (queue.modTrunk t fun y => { y with pass := none }) p.req .trunkDown
       | none => queue
     let slots := ((List.finRange 6).filter fun a =>
         c.axes[a].configured = true ∧ c.axes[a].drive.trunk = t).foldl
       (fun u a => u.modAxis a fun y => { y with setPoint := none })
       (pass.modTrunk t fun y => { y with holdSet := [] })
     let reports := nodes.foldl (fun u n => u.modReport (nodeIndex n) fun _ =>
       { last := none, count := 0, timer := none, pending := none }) slots
     Run.holdTrunk c r t = Run.turnStale c (Run.pushDown c .unknown reports known)
       ((List.finRange 32).filter fun ch =>
         c.channels[ch].configured = true ∧ c.channels[ch].source ∈ known)) ∧
  (∀ (c : Tables) (r : Run) (o : Completion),
     (∀ req, Run.tellOrigin c r (.relay req) o = Run.answerCompletion c r req o) ∧
     (∀ req, Run.answerCompletion c r req .trunkDown = Run.answer c r req .trunkDown 1 []) ∧
     (∀ a f, Run.tellOrigin c r (.axis a f) o = r.axisCompleted a f o) ∧
     (∀ d f, Run.tellOrigin c r (.door d f) o = r.doorCompleted d f o) ∧
     (∀ area serial,
       Run.tellOrigin c r (.play area serial) o = Run.playCompleted c r area serial o) ∧
     (∀ area, Run.tellOrigin c r (.stopPlay area) o = r))

/-! ### Routing, permits and reports (chapter 2) -/

/-- NODE_COMMAND: no route, a function's route, the code, the length, the permit table, the trunk,
the node and the queue's space are judged in this order; a command that passes is queued with 0
attempts made and its forward record. PASS_REQUEST: the payload, the permit table with code FFh, the
trunk, the node and the pass slot are judged in this order; a request that passes takes the slot. A
slot that is empty counts as lost: R53 says so for a frame offered to the command queue; that it holds
for a PASS_REQUEST too is the model's reading of R47 and R53 (log 59). -/
def Obligations.NodeCommandsAndPassRequestsAreJudged : Prop :=
  (∀ (s : State) (src dst : Word) (tag : Byte) (n : NodeId),
     let req : Req := { src, dst, tag }
     let go := fun payload => exec (.nodeCommand src dst tag payload) s
     (Listening s → s.run.gw ≠ .unconfigured → dst ≠ 0 → ∀ payload : List Byte,
       payload.length ≤ 240 →
       (findRoute s.cfg dst = none → go payload = answered s s.run req (.noRoute, 0) []) ∧
       (∀ f, findRoute s.cfg dst = some (.function f) →
         go payload = answered s s.run req (.badRequest, 0) [])) ∧
     (ReachesNode s dst n →
       go [] = answered s s.run req (.badRequest, 1) [] ∧
       ∀ (code : Byte) (rest : List Byte), rest.length ≤ 239 →
         (code.toNat < 0x20 ∨ code = 0xFF →
           go (code :: rest) = answered s s.run req (.badRequest, 1) []) ∧
         (0x20 ≤ code.toNat → code ≠ 0xFF →
           (16 < rest.length → go (code :: rest) = answered s s.run req (.badRequest, 2) []) ∧
           (rest.length ≤ 16 →
             let p := Run.judgePermit s.cfg s.run dst code
             let k := s.run.trunks[n.trunk]
             let gone := nodeCfg s.cfg n = none ∨ (nodeRt s.run n).liveness = .lost
             (∀ d, p.2 = some d → go (code :: rest) = answered s p.1 req (.refused, d) []) ∧
             (p.2 = none →
               (k.state ≠ .running → go (code :: rest) =
                 answered s p.1 req (.trunkDown, det k.state.code) []) ∧
               (k.state = .running → gone → go (code :: rest) =
                 answered s p.1 req (.nodeLost, 0) []) ∧
               (k.state = .running → ¬gone → 16 ≤ k.queue.length → go (code :: rest) =
                 answered s p.1 req (.queueFull, det n.trunk.val) []) ∧
               (k.state = .running → ¬gone → k.queue.length < 16 → go (code :: rest) =
                 closed s (Run.kickTrunk s.cfg (p.1.modTrunk n.trunk fun x =>
                   { x with queue := x.queue ++ [{ node := n, code, payload := rest,
                                                   origin := .relay req, attempts := 0 }] })
                   n.trunk))))))) ∧
  (∀ (s : State) (src dst : Word) (tag : Byte) (n : NodeId),
     let req : Req := { src, dst, tag }
     let go := fun payload => exec (.passRequest src dst tag payload) s
     (Listening s → s.run.gw ≠ .unconfigured → dst ≠ 0 → ∀ payload : List Byte,
       payload.length ≤ 240 →
       (findRoute s.cfg dst = none → go payload = answered s s.run req (.noRoute, 0) []) ∧
       (∀ f, findRoute s.cfg dst = some (.function f) →
         go payload = answered s s.run req (.badRequest, 0) [])) ∧
     (ReachesNode s dst n →
       go [] = answered s s.run req (.badRequest, 1) [] ∧
       ∀ (code : Byte) (rest : List Byte), rest.length ≤ 239 →
         (16 < rest.length → go (code :: rest) = answered s s.run req (.badRequest, 2) []) ∧
         (rest.length ≤ 16 →
           let p := Run.judgePermit s.cfg s.run dst 0xFF
           let k := s.run.trunks[n.trunk]
           let gone := nodeCfg s.cfg n = none ∨ (nodeRt s.run n).liveness = .lost
           (∀ d, p.2 = some d → go (code :: rest) = answered s p.1 req (.refused, d) []) ∧
           (p.2 = none →
             (k.state ≠ .running → go (code :: rest) =
               answered s p.1 req (.trunkDown, det k.state.code) []) ∧
             (k.state = .running → gone → go (code :: rest) =
               answered s p.1 req (.nodeLost, 0) []) ∧
             (k.state = .running → ¬gone → ∀ x, k.pass = some x → go (code :: rest) =
               answered s p.1 req (.busy, det (x.slot.val + 1)) []) ∧
             (k.state = .running → ¬gone → k.pass = none → go (code :: rest) =
               closed s (Run.kickTrunk s.cfg (p.1.modTrunk n.trunk fun x =>
                 { x with pass := some { slot := n.slot, code, payload := rest, req,
                                         attempts := 0 } }) n.trunk))))))

/-- The permit table: the first entry that matches decides, in index order; its action, or the permit
default, forwards, notes or refuses; each term reads its subject as it stands, and a term that names
line 14 or 15 reads INACTIVE. -/
def Obligations.PermitTableDecides : Prop :=
  ∀ (c : Tables) (r : Run) (st : Word) (code : Byte),
    let fits := fun (p : Permit) =>
      p.first.toNat ≤ st.toNat ∧ st.toNat ≤ p.last.toNat ∧ (p.code = none ∨ p.code = some code) ∧
        ∀ u, p.term1 = some u ∨ p.term2 = some u → termHolds r u = true
    (∀ i a, decidingEntry c r st code = some (i, a) ↔
      ∃ p, c.permits[i] = some p ∧ p.action = a ∧ fits p ∧
        ∀ j : Fin 64, j < i → ∀ q, c.permits[j] = some q → ¬fits q) ∧
    (decidingEntry c r st code = none ↔ ∀ (i : Fin 64) p, c.permits[i] = some p → ¬fits p) ∧
    (∀ i, decidingEntry c r st code = some (i, .forward) →
      Run.judgePermit c r st code = (r, none)) ∧
    (∀ i, decidingEntry c r st code = some (i, .forwardNote) →
      Run.judgePermit c r st code = (r.raise .permitNote i.val st, none)) ∧
    (∀ i, decidingEntry c r st code = some (i, .refuse) →
      Run.judgePermit c r st code = (r, some (det i.val))) ∧
    (decidingEntry c r st code = none → Run.judgePermit c r st code =
      (r, if c.param.permitForward then none else some 0xFF)) ∧
    (∀ a k, termHolds r (.axis a k) = k.getLsbD r.axes[a].state.code) ∧
    (∀ z k, termHolds r (.zoneState z k) = k.getLsbD r.zones[z].state.code) ∧
    (∀ z b, termHolds r (.zoneFire z b) = (r.zones[z].fire == b)) ∧
    (∀ d k, termHolds r (.door d k) = k.getLsbD r.doors[d].state.code) ∧
    (∀ (l : Fin 14) b, termHolds r (.line ⟨l.val, by omega⟩ b) = (r.lines[l].accepted == b)) ∧
    (∀ (l : Fin 16) b, 14 ≤ l.val → termHolds r (.line l b) = !b) ∧
    (∀ m k, termHolds r (.monitor m k) =
      (r.monitors[m].enabled && k.getLsbD r.monitors[m].current.val)) ∧
    (∀ b, termHolds r (.service b) = (r.lines[(1 : Fin 14)].accepted == b))

/-- A good reply is judged by its node's report entry: without a NODE route, or in mode NONE,
nothing changes; CHANGE compares with last reported, EVERY counts; a qualifying reply is offered
with the interval timer stopped and held back with it running. REPORT_INTERVAL_EXPIRY: a pending
payload of a node with a NODE route is offered and the timer starts again; without one, or with no
route, the timer stops. An expiry whose timer does not run changes nothing, which is the model's
choice (log 2). A REPORT offered enters the outbound queue (OutboundQueueAndTransmitter says how); a
transmitter that is busy leaves it waiting, and an idle one takes its next frame at once: the oldest
ANSWER, else a BEACON that is due, else the oldest REPORT. -/
def Obligations.RepliesAreReported : Prop :=
  (∀ (c : Tables) (r : Run) (n : NodeId) (payload : List Byte) (time : TimeBase),
     let x := r.reports[nodeIndex n]
     let mode := c.reports[nodeIndex n].mode
     let every := c.reports[nodeIndex n].every
     let interval := c.reports[nodeIndex n].interval
     let offered := fun (st : Word) (count : Nat) => Run.report c
       (r.modReport (nodeIndex n) fun _ =>
         { last := some payload, count, pending := none
           timer := if 0 < interval then some (ms interval) else none })
       { node := n, dst := c.param.consoleStation, src := st, time, payload }
     let go := Run.judgeReport c r n payload time
     (nodeStation c n = none → go = r) ∧
     (∀ st, nodeStation c n = some st →
       (mode = .none → go = r) ∧
       (mode = .change → x.last = some payload →
         go = r.modReport (nodeIndex n) fun y => { y with pending := none }) ∧
       (mode = .change → x.last ≠ some payload →
         (x.timer = none → go = offered st x.count) ∧
         (x.timer.isSome = true → go = r.modReport (nodeIndex n) fun y =>
           { y with pending := some (payload, time) })) ∧
       (mode = .every → x.count + 1 ≠ every →
         go = r.modReport (nodeIndex n) fun y => { y with count := x.count + 1 }) ∧
       (mode = .every → x.count + 1 = every →
         (x.timer = none → go = offered st 0) ∧
         (x.timer.isSome = true → go = r.modReport (nodeIndex n) fun y =>
           { y with count := 0, pending := some (payload, time) })))) ∧
  (∀ (s : State) (n : NodeId),
     let x := s.run.reports[nodeIndex n]
     let interval := s.cfg.reports[nodeIndex n].interval
     let go := exec (.reportIntervalExpiry n) s
     (x.timer = none → go = closed s s.run) ∧
     (x.timer.isSome = true →
       (x.pending = none ∨ nodeStation s.cfg n = none → go = closed s
         (s.run.modReport (nodeIndex n) fun y => { y with timer := none, pending := none })) ∧
       (∀ payload time st, x.pending = some (payload, time) → nodeStation s.cfg n = some st →
         go = closed s (Run.report s.cfg
           (s.run.modReport (nodeIndex n) fun y =>
             { y with last := some payload, pending := none
                      timer := if 0 < interval then some (ms interval) else none })
           { node := n, dst := s.cfg.param.consoleStation, src := st, time, payload })))) ∧
  (∀ (c : Tables) (r : Run) (p : Report),
     let k := r.console.offerReport p
     let q := r.events
     let go := Run.report c r p
     (r.console.tx.isSome = true → go = r.setConsole k) ∧
     (r.console.tx = none →
       (∀ (pre post : List OutEntry) (b : Answer), k.queue = pre ++ .answer b :: post →
         (∀ x, OutEntry.answer x ∉ pre) →
         (∀ held, b.data = .fixed held → go = (r.setConsole { k with queue := pre ++ post }).beginTx
           { dst := b.req.src, src := b.req.dst, tag := b.req.tag, kind := 0x81
             payload := b1 b.code.code ++ w2 b.detail ++ b1 q.records.length ++ b2 q.lost ++ held }
           b.restart) ∧
         (b.data = .collect → go = ((r.setConsole { k with queue := pre ++ post }).setEvents
             { q with records := q.records.drop 8, lost := 0 }).beginTx
           { dst := b.req.src, src := b.req.dst, tag := b.req.tag, kind := 0x81
             payload := b1 b.code.code ++ w2 b.detail ++ b1 (q.records.length - 8) ++ b2 0
               ++ (b1 (min 8 q.records.length) ++ b2 q.lost
               ++ (q.records.take 8).flatMap EventRec.bytes) } b.restart)) ∧
       ((∀ x, OutEntry.answer x ∉ k.queue) →
         (k.beaconDue = true → go = (r.setConsole { k with beaconDue := false }).beginTx
           { dst := c.param.consoleStation, src := 0, tag := 0, kind := 0x83
             payload := beaconPayload r } false) ∧
         (k.beaconDue = false → ∀ (pre post : List OutEntry) (x : Report),
           k.queue = pre ++ .report x :: post → (∀ y, OutEntry.report y ∉ pre) →
           go = (r.setConsole { k with queue := pre ++ post }).beginTx
             { dst := x.dst, src := x.src, tag := 0, kind := 0x82
               payload := b1 x.node.trunk.val ++ b1 (x.node.slot.val + 1) ++ w4 x.time
                 ++ b1 x.payload.length ++ x.payload } false))))

/-! ### Deck trunks and nodes (chapter 3) -/

/-- A reply is judged as the table of R46 says: good with the reply mark, the addressed node's address,
a length of at most 16 and its CRC-16, whatever comes before its sync byte; corrupt otherwise, so with any
other address byte (bit 5 or 6 set, address 0, another node's, no reply mark) and when it ends short;
missing without a sync byte.
A frame's completion: the head of the queue or the pass request leaves its place and the relay
answers OK with the reply, NO_ANSWER with the attempts, NODE_LOST or TRUNK_DOWN with HELD; a missed
frame is completed at its third attempt and stays before it; a POLL, SETPOINT or HOLD completes
nothing. -/
def Obligations.RepliesAreJudgedAndFramesComplete : Prop :=
  (
  ∀ (slot : Fin 31) (before : List Byte), (∀ b ∈ before, b ≠ 0xA5) →
    judgeReply slot before = .missing ∧
    (∀ (code : Byte) (payload : List Byte), payload.length ≤ 16 →
      judgeReply slot (before ++ trunkWire slot true code payload) = .good code payload ∧
      judgeReply slot (before ++ trunkWire slot false code payload) = .corrupt ∧
      (∀ other, other ≠ slot →
        judgeReply slot (before ++ trunkWire other true code payload) = .corrupt) ∧
      (∀ (a : Byte) (w : Word), w ≠ crc16 (a :: code :: (b1 payload.length ++ payload)) →
        judgeReply slot (before ++ 0xA5 :: a :: code :: (b1 payload.length ++ payload ++ w2 w))
          = .corrupt)) ∧
    (∀ (a code : Byte) (payload : List Byte), payload.length ≤ 16 →
      a ≠ BitVec.ofNat 8 (slot.val + 1 + 128) →
      let covered := a :: code :: (b1 payload.length ++ payload)
      judgeReply slot (before ++ 0xA5 :: (covered ++ w2 (crc16 covered))) = .corrupt) ∧
    (∀ rest : List Byte, rest.length < 3 → judgeReply slot (before ++ 0xA5 :: rest) = .corrupt) ∧
    (∀ (a code len : Byte) (rest : List Byte), 16 < len.toNat →
      judgeReply slot (before ++ 0xA5 :: a :: code :: len :: rest) = .corrupt) ∧
    (∀ (a code len : Byte) (rest : List Byte), rest.length < len.toNat + 2 →
      judgeReply slot (before ++ 0xA5 :: a :: code :: len :: rest) = .corrupt)) ∧
  (
  ∀ (c : Tables) (r : Run) (t : Fin 4) (o : Completion) (req : Req),
    let told := fun (r : Run) => match o with
      | .ok code payload => Run.answer c r req .ok (code.zeroExtend 16) payload
      | .noAnswer m => Run.answer c r req .noAnswer (det m) []
      | .nodeLost => Run.answer c r req .nodeLost 0 []
      | .trunkDown => Run.answer c r req .trunkDown 1 []
    (∀ f l, r.trunks[t].queue = f :: l → f.origin = .relay req →
      Run.completeSource c r t .queue o = told (r.modTrunk t fun x => { x with queue := l })) ∧
    (∀ p, r.trunks[t].pass = some p → p.req = req →
      Run.completeSource c r t .pass o = told (r.modTrunk t fun x => { x with pass := none })) ∧
    (∀ a, Run.completeSource c r t .hold o = r ∧ Run.completeSource c r t .poll o = r ∧
      Run.completeSource c r t (.setPoint a) o = r) ∧
    (∀ (k : Transaction) f l, k.source = .queue → r.trunks[t].queue = f :: l →
      (f.attempts < 3 → Run.judgeAttempts c r t k = r) ∧
      (f.attempts = 3 → Run.judgeAttempts c r t k =
        Run.completeSource c r t .queue (.noAnswer 3))) ∧
    (∀ (k : Transaction) p, k.source = .pass → r.trunks[t].pass = some p →
      (p.attempts < 3 → Run.judgeAttempts c r t k = r) ∧
      (p.attempts = 3 → Run.judgeAttempts c r t k =
        Run.completeSource c r t .pass (.noAnswer 3))))

/-- GOOD_REPLY ends the awaited transaction in the order of R48: the node's record, NODE_BACK from
LOST, a HOLD leaves the hold set, the users, the frame's source, the doors, the turnaround gap. With
no reply awaited its bytes are discarded. CORRUPT_REPLY, REPLY_WINDOW_EXPIRY and REPLY_GAP_EXPIRY
are a miss of the awaited node: its count rises to at most 3, the third miss makes it LOST, and the
transaction ends; bytes that hold no sync byte, or that come when no reply is awaited, change
nothing. Those two are the model's choice (log 2, log 35).
That a HOLD's node leaves the hold set before the users have the reply is the model's reading (log 32),
and so is the offer of a door's command at the end that made it pending (log 47).
At a miss the push of MISSING comes before the frame's NO_ANSWER completion, which is the model's reading
(log 54). What the end of a transaction does, after a reply or a miss, stands last. -/
def Obligations.GoodRepliesEndTheTransaction : Prop :=
  (∀ (s : State) (t : Fin 4) (code : Byte) (payload : List Byte),
     let go := exec (.goodReply t code payload) s
     (s.run.trunks[t].transaction = none → go = closed s s.run) ∧
     (∀ k, s.run.trunks[t].transaction = some k →
       (k.awaiting = false → go = closed s s.run) ∧
       (k.awaiting = true →
         let n := nodeAt t k.slot
         let before := (nodeRt s.run n).liveness
         let r := s.run.modNode (nodeIndex n) fun x =>
           { x with liveness := .live, misses := 0, payload := some payload
                    time := some s.run.clock.ms }
         let r := if before = .lost then r.raise .nodeBack (nodeIndex n).val 0 else r
         let r := if k.source = .hold then r.modTrunk t fun x =>
             { x with holdSet := x.holdSet.filter fun i => i != k.slot } else r
         let r := Run.completeSource s.cfg (Run.fanOut s.cfg r n before payload) t k.source
           (.ok code payload)
         go = closed s ((Run.offerDoorsOf s.cfg r t).modTrunk t fun x =>
           { x with transaction := none, windowTimer := none
                    gapTimer := some s.cfg.trunks[t].gap })))) ∧
  (∀ (s : State) (t : Fin 4) (bytes : List Byte),
     (∀ i ∈ [Instr.corruptReply t bytes, .replyWindowExpiry t, .replyGapExpiry t],
       (s.run.trunks[t].transaction = none → exec i s = closed s s.run) ∧
       ∀ k, s.run.trunks[t].transaction = some k →
         (k.awaiting = false → exec i s = closed s s.run) ∧
         (k.awaiting = true → judgeReply k.slot bytes = .corrupt →
           let n := nodeAt t k.slot
           let x := nodeRt s.run n
           let m := min 3 (x.misses + 1)
           let missed := fun (l : Liveness) => s.run.modNode (nodeIndex n) fun y =>
             { y with misses := m, liveness := l }
           (x.liveness = .lost → exec i s = closed s (Run.endTransaction s.cfg
             (Run.judgeAttempts s.cfg (missed .lost) t k) t)) ∧
           (x.liveness ≠ .lost → m = 3 → exec i s = closed s (Run.endTransaction s.cfg
             (Run.nodeLost s.cfg (missed .lost) t k) t)) ∧
           (x.liveness = .missing → m ≠ 3 → exec i s = closed s (Run.endTransaction s.cfg
             (Run.judgeAttempts s.cfg (missed .missing) t k) t)) ∧
           (x.liveness = .live ∨ x.liveness = .unknown → m ≠ 3 →
             exec i s = closed s (Run.endTransaction s.cfg
               (Run.judgeAttempts s.cfg (Run.pushMissing s.cfg (missed .missing) n) t k) t)))) ∧
     (∀ k code payload, s.run.trunks[t].transaction = some k →
       judgeReply k.slot bytes = .good code payload →
       exec (.corruptReply t bytes) s = exec (.goodReply t code payload) s) ∧
     (∀ k, s.run.trunks[t].transaction = some k → judgeReply k.slot bytes = .missing →
       exec (.corruptReply t bytes) s = closed s s.run)) ∧
  (∀ (c : Tables) (r : Run) (t : Fin 4), Run.endTransaction c r t =
     (Run.offerDoorsOf c r t).modTrunk t fun x =>
       { x with transaction := none, windowTimer := none, gapTimer := some c.trunks[t].gap })

/-- REPLY_WINDOW_OPENS, TURNAROUND_GAP_EXPIRY, ROUND_INTERVAL_EXPIRY and SETTLE_EXPIRY: the window
opens once for the frame on the line, the gap frees the transmitter, the interval begins the next
round when no node is due, and a settled trunk is RUNNING with round phase 0, non-poll count 0 and
its first round begun. A node is due in the current round as R50 says, and a round begins with
position 0, its timer started and every mark of the trunk clear. An expiry whose timer does not run
changes nothing, which is the model's choice (log 2).
A round has ended as soon as no node is due, so the interval's expiry begins the next one also while the
reply to the last poll is awaited, and from an expiry that finds a node due the round timer reads
stopped: the model's reading (log 16).
The transmitter looks for work when it is free, in RUNNING with no transaction and no gap, and a
selection that finds the round ended begins the next one first. -/
def Obligations.TrunkTimersAndPollRounds : Prop :=
  (∀ (s : State) (t : Fin 4),
     let k := s.run.trunks[t]
     let c := s.cfg
     (k.transaction = none → exec (.replyWindowOpens t) s = closed s s.run) ∧
     (∀ x, k.transaction = some x →
       (x.awaiting = true → exec (.replyWindowOpens t) s = closed s s.run) ∧
       (x.awaiting = false → exec (.replyWindowOpens t) s = closed s
         (s.run.modTrunk t fun k =>
           { k with transaction := some { x with awaiting := true }
                    windowTimer := some (ms c.trunks[t].replyWindow) }))) ∧
     (k.gapTimer = none → exec (.turnaroundGapExpiry t) s = closed s s.run) ∧
     (k.gapTimer.isSome = true → exec (.turnaroundGapExpiry t) s = closed s
       (Run.kickTrunk c (s.run.modTrunk t fun k => { k with gapTimer := none }) t)) ∧
     (k.roundTimer = none → exec (.roundIntervalExpiry t) s = closed s s.run) ∧
     (k.roundTimer.isSome = true →
       let r := s.run.modTrunk t fun k => { k with roundTimer := none }
       (duePoll c r t ≠ none →
         exec (.roundIntervalExpiry t) s = closed s (Run.kickTrunk c r t)) ∧
       (duePoll c r t = none → exec (.roundIntervalExpiry t) s = closed s
         (Run.kickTrunk c (Run.beginRound c r t
           (if k.roundPhase + 1 < c.trunks[t].slowDivisor then k.roundPhase + 1 else 0)) t))) ∧
     (k.settleTimer = none → exec (.settleExpiry t) s = closed s s.run) ∧
     (k.settleTimer.isSome = true → exec (.settleExpiry t) s = closed s
       (Run.kickTrunk c (Run.beginRound c
         ((s.run.modTrunk t fun k =>
           { k with settleTimer := none, nonPoll := 0, state := .running }).raise
             .trunkState t.val 3) t 0) t))) ∧
  (∀ (c : Tables) (r : Run) (t : Fin 4),
     (∀ i : Fin 31, pollDue c r t i = true ↔ ∃ k, nodeCfg c (nodeAt t i) = some k ∧
       r.trunks[t].roundPosition < i.val + 1 ∧ (nodeRt r (nodeAt t i)).mark = false ∧
       (((nodeRt r (nodeAt t i)).liveness ≠ .lost ∧
           (k.poll = .fast ∨ k.poll = .slow ∧ r.trunks[t].roundPhase = 0)) ∨
         ((nodeRt r (nodeAt t i)).liveness = .lost ∧ r.trunks[t].roundPhase = 0))) ∧
     (∀ i, duePoll c r t = some i ↔
       pollDue c r t i = true ∧ ∀ j, j < i → pollDue c r t j = false) ∧
     (∀ phase,
       let r' := Run.beginRound c r t phase
       r'.trunks[t] = { r.trunks[t] with
         roundPhase := phase, roundPosition := 0
         roundTimer := some (ms c.trunks[t].roundInterval) } ∧
       (∀ u, u ≠ t → r'.trunks[u] = r.trunks[u]) ∧
       (∀ n : NodeId, nodeRt r' n =
         if n.trunk = t then { nodeRt r n with mark := false } else nodeRt r n))) ∧
  (∀ (c : Tables) (r : Run) (t : Fin 4),
     let k := r.trunks[t]
     let phase := if k.roundPhase + 1 < c.trunks[t].slowDivisor then k.roundPhase + 1 else 0
     let next := Run.beginRound c r t phase
     (k.state = .running → k.transaction = none → k.gapTimer = none →
       Run.kickTrunk c r t = Run.selectFrame c r t) ∧
     (k.state ≠ .running ∨ k.transaction.isSome = true ∨ k.gapTimer.isSome = true →
       Run.kickTrunk c r t = r) ∧
     (k.roundTimer.isSome = true ∨ (duePoll c r t).isSome = true →
       Run.nextRound c r t = r) ∧
     (k.roundTimer = none → duePoll c r t = none →
       Run.nextRound c r t = next ∧ Run.nextRound c next t = next ∧
       Run.selectFrame c r t = Run.selectFrame c next t))

/-- The free transmitter takes the first frame found: a HOLD of the lowest address, a forced poll,
the set-point of the lowest axis, the head of the queue, the pass slot, a due poll; the non-poll
count and the attempt counts follow. The premise sets apart a selection that finds the round ended: it is
the selection made once the next round has begun, as TrunkTimersAndPollRounds says (R50, log 16). -/
def Obligations.TransmitterSelectsInOrder : Prop :=
  ∀ (c : Tables) (r : Run) (t : Fin 4), Run.nextRound c r t = r →
    let k := r.trunks[t]
    let rest := k.holdSet = [] ∧ (k.nonPoll = 4 → duePoll c r t = none)
    let line := fun slot code payload source => some
      ({ slot, code, payload, source, awaiting := false } : Transaction)
    let polled := fun (i : Fin 31) =>
      (r.modTrunk t fun x =>
        { x with roundPosition := i.val + 1, nonPoll := 0, transaction := line i 0 [] .poll }).modNode
        (nodeIndex (nodeAt t i)) fun n => { n with mark := true }
    (∀ i l, k.holdSet = i :: l → Run.selectFrame c r t = r.modTrunk t fun x =>
      { x with nonPoll := min 4 (x.nonPoll + 1), transaction := line i 2 [] .hold }) ∧
    (∀ i, k.holdSet = [] → k.nonPoll = 4 → duePoll c r t = some i →
      Run.selectFrame c r t = polled i) ∧
    (∀ a d, rest → dueSetPoint c r t = some (a, d) → Run.selectFrame c r t =
      (r.modAxis a fun x => { x with setPoint := none, sentDemand := d }).modTrunk t fun x =>
        { x with nonPoll := min 4 (x.nonPoll + 1)
                 transaction := line c.axes[a].drive.slot 1 (i2 d) (.setPoint a) }) ∧
    (∀ f l, rest → dueSetPoint c r t = none → k.queue = f :: l →
      Run.selectFrame c r t = r.modTrunk t fun x =>
        { x with queue := { f with attempts := f.attempts + 1 } :: l
                 nonPoll := min 4 (x.nonPoll + 1)
                 transaction := line f.node.slot f.code f.payload .queue }) ∧
    (∀ p, rest → dueSetPoint c r t = none → k.queue = [] → k.pass = some p →
      Run.selectFrame c r t = r.modTrunk t fun x =>
        { x with pass := some { p with attempts := p.attempts + 1 }
                 nonPoll := min 4 (x.nonPoll + 1)
                 transaction := line p.slot p.code p.payload .pass }) ∧
    (rest → dueSetPoint c r t = none → k.queue = [] → k.pass = none →
      (∀ i, duePoll c r t = some i → Run.selectFrame c r t = polled i) ∧
      (duePoll c r t = none → Run.selectFrame c r t = r)) ∧
    (∀ a d, dueSetPoint c r t = some (a, d) ↔
      (c.axes[a].configured = true ∧ c.axes[a].drive.trunk = t ∧ r.axes[a].setPoint = some d ∧
        ∀ b : Fin 6, b < a → c.axes[b].configured = true → c.axes[b].drive.trunk = t →
          r.axes[b].setPoint = none))

/-- A loss: NODE_LOST, the node's outstanding work completed in the order of R59 and gone from the trunk,
its report entry at the reset values, and then the push to its users and its channels turned stale. The
push of a loss or of a hold reaches the axis unit, the door sequencer and the call dispatcher, each over
its instances in ascending index, and the axes go OFFLINE before any other is judged on them: the model's
choice where no rule orders them (log 27). Where one event takes both, an axis is judged on its
prerequisites before its own lost panel, the model's choice (log 55); only configured axes and doors are
told, the model's reading (log 39). A good reply reaches the unit of the node's kind when its
layout is met, then the channels, then the report table. -/
def Obligations.LossesAndRepliesReachTheUsers : Prop :=
  (∀ (c : Tables) (r : Run) (t : Fin 4) (k : Transaction),
    let n := nodeAt t k.slot
    let noted := r.raise .nodeLost (nodeIndex n).val (k.code.zeroExtend 16)
    let worked := Run.lostWork c noted t k
    let forgot := worked.modReport (nodeIndex n) fun _ =>
      { last := none, count := 0, timer := none, pending := none }
    Run.nodeLost c r t k = Run.turnStale c (Run.pushDown c .lost forgot [n])
      ((List.finRange 32).filter fun ch =>
        c.channels[ch].configured = true ∧ c.channels[ch].source = n)) ∧
  (∀ (c : Tables) (r : Run) (t : Fin 4) (k : Transaction),
    let n := nodeAt t k.slot
    let x := r.trunks[t]
    let outcome := fun (m : Nat) => if m = 0 then Completion.nodeLost else .noAnswer m
    let missed :=
      match k.source, x.queue, x.pass with
      | .queue, f :: rest, _ => Run.tellOrigin c
          (r.modTrunk t fun y => { y with queue := rest }) f.origin (.noAnswer f.attempts)
      | .pass, _, some q => Run.answerCompletion c
          (r.modTrunk t fun y => { y with pass := none }) q.req (.noAnswer q.attempts)
      | _, _, _ => r
    let queue := (missed.trunks[t].queue.filter fun f => f.node = n).foldl
      (fun u f => Run.tellOrigin c (u.modTrunk t fun y =>
        { y with queue := y.queue.eraseP fun g => g.node = n }) f.origin (outcome f.attempts)) missed
    let pass :=
      match queue.trunks[t].pass with
      | some q => if q.slot = k.slot then Run.answerCompletion c
          (queue.modTrunk t fun y => { y with pass := none }) q.req (outcome q.attempts) else queue
      | none => queue
    let held := pass.modTrunk t fun y => { y with holdSet := y.holdSet.filter fun i => i ≠ k.slot }
    Run.lostWork c r t k = ((List.finRange 6).filter fun a =>
        c.axes[a].configured = true ∧ c.axes[a].drive = n).foldl
      (fun u a => u.modAxis a fun y => { y with setPoint := none }) held) ∧
  (∀ (c : Tables) (l : Liveness) (r : Run) (gone : List NodeId),
    let is := fun (kind : NodeKind) (n : NodeId) => n ∈ gone ∧ nodeKind c n = some kind
    let off := (List.finRange 6).filter fun a =>
      c.axes[a].configured = true ∧ is .drive c.axes[a].drive
    let axes := (List.finRange 6).foldl (fun u a =>
      let judged := Run.judgePrereq c off u a
      if c.axes[a].configured = true ∧ ∃ n ∈ gone, c.axes[a].panel = some n ∧ is .panel n then
        Run.panelLost c judged a else judged) (off.foldl (Run.axisOffline c) r)
    let doors := ((List.finRange 32).filter fun d =>
      c.doors[d].configured = true ∧ is .door c.doors[d].node).foldl Run.doorOffline axes
    Run.pushDown c l r gone = (List.finRange 16).foldl (fun u i =>
      (gone.filter fun n => nodeKind c n = some .amp ∧ n ∈ c.areas[i]).foldl
        (fun u n => Run.ampChanged c n l u i) u) doors) ∧
  (∀ (c : Tables) (r : Run) (n : NodeId), Run.pushMissing c r n =
    if nodeKind c n = some .amp then ((List.finRange 16).filter fun i => n ∈ c.areas[i]).foldl
      (fun u i => Run.ampChanged c n .missing u i) r else r) ∧
  (∀ (c : Tables) (r : Run) (n : NodeId) (before : Liveness) (payload : List Byte),
    let go := Run.fanOutKind c r n before payload
    let kind := nodeKind c n
    let axes := fun (p : AxisCfg → Prop) [DecidablePred p] =>
      (List.finRange 6).filter fun a => c.axes[a].configured = true ∧ p c.axes[a]
    let doors := (List.finRange 32).filter fun d =>
      c.doors[d].configured = true ∧ c.doors[d].node = n
    Run.fanOut c r n before payload =
      Run.judgeReport c (Run.channelReply c go n payload) n payload
        (Run.channelReply c go n payload).clock.ms ∧
    (kind = some .drive → (payload.length < 5 → go = r) ∧
      ∀ p1 p2 q1 q2 f rest, payload = p1 :: p2 :: q1 :: q2 :: f :: rest →
        go = (axes fun x => x.drive = n).foldl (fun u a => Run.driveReply c u a
          { position := (p1 ++ p2 : Word).toInt, pressure := (q1 ++ q2 : Word).toNat
            flags := f }) r) ∧
    (kind = some .panel → (payload = [] → go = r) ∧
      ∀ b rest, payload = b :: rest → go = (axes fun x => x.panel = some n).foldl (fun u a =>
        Run.panelReply c u a (if b.getLsbD 0 = true ∧ b.getLsbD 1 = false then .raise
          else if b.getLsbD 0 = false ∧ b.getLsbD 1 = true then .lower else .none)) r) ∧
    (kind = some .door → (payload.length < 2 → go = r) ∧
      ∀ q f rest, payload = q :: f :: rest → (3 < q.toNat → go = r) ∧
        ∀ position : DoorPosition, q.toNat = position.code → go = doors.foldl (fun u d =>
          Run.doorReply c u d { position, obstruction := f.getLsbD 0
                                transitRequest := f.getLsbD 1, localFault := f.getLsbD 2 }) r) ∧
    (kind = some .amp → go = ((List.finRange 16).filter fun i => n ∈ c.areas[i]).foldl
      (fun u i => Run.ampFanOut c n before payload u i) r) ∧
    (kind = some .sensor ∨ kind = some .generic ∨ kind = none → go = r)) ∧
  (∀ (c : Tables) (r : Run) (l : List (Fin 32)), l.Nodup → ∃ marked : Run,
    marked = { r with channels := marked.channels } ∧
    (∀ ch : Fin 32, marked.channels[ch] =
      if ch ∈ l then { r.channels[ch] with stale := true, timer := none } else r.channels[ch]) ∧
    Run.turnStale c r l = (List.finRange 16).foldl
      (Run.judgeStale c (l.filter fun ch => r.channels[ch].stale = false)) marked) ∧
  (∀ (c : Tables) (l : List (Fin 32)) (r : Run) (m : Fin 16),
    let k := mstate c m r.monitors[m].current
    let read := r.monitors[m].enabled = true ∧ k.channel ∈ l
    (¬read → Run.judgeStale c l r m = r) ∧
    (read → (∀ j, k.onStale = some j → Run.judgeStale c l r m =
        (Run.enterState c r m j).raise .monitorStale m.val (det2 k.channel.val j.val)) ∧
      (k.onStale = none → Run.judgeStale c l r m =
        (r.modMonitor m fun x => { x with holdTimer := none }).raise .monitorStale m.val
          (det2 k.channel.val 255))))

/-- A frame offered to a command queue: the trunk, the node, the space are judged at once; a frame that
passes is appended at the tail with 0 attempts made, a refused one changes nothing.
The hold set keeps its addresses in ascending order with none twice; HOLDs and demands for a node
that is lost, whose slot is empty or whose trunk is not RUNNING are discarded. -/
def Obligations.OffersAreJudgedAtOnce : Prop :=
  (∀ (c : Tables) (r : Run) (n : NodeId) (code : Byte) (payload : List Byte) (o : Origin),
     let k := r.trunks[n.trunk]
     let gone := nodeCfg c n = none ∨ (nodeRt r n).liveness = .lost
     (k.state ≠ .running → Run.offerFrame c r n code payload o = (r, .trunkDown)) ∧
     (k.state = .running → gone → Run.offerFrame c r n code payload o = (r, .nodeLost)) ∧
     (k.state = .running → ¬gone → 16 ≤ k.queue.length →
       Run.offerFrame c r n code payload o = (r, .queueFull)) ∧
     (k.state = .running → ¬gone → k.queue.length < 16 →
       Run.offerFrame c r n code payload o =
         (Run.kickTrunk c (r.modTrunk n.trunk fun x =>
           { x with queue := x.queue ++ [{ node := n, code, payload, origin := o, attempts := 0 }] })
           n.trunk, .accepted))) ∧
  ((∀ (i : Fin 31) (l : List (Fin 31)), l.Pairwise (· < ·) →
     (insertSlot i l).Pairwise (· < ·) ∧ ∀ j, j ∈ insertSlot i l ↔ j = i ∨ j ∈ l) ∧
   ∀ (c : Tables) (r : Run) (a : Fin 6) (demand : Int),
     let n := c.axes[a].drive
     let reached := r.trunks[n.trunk].state = .running ∧ nodeCfg c n ≠ none ∧
       (nodeRt r n).liveness ≠ .lost
     (reached →
       Run.holdNode c r n = Run.kickTrunk c (r.modTrunk n.trunk fun k =>
         { k with holdSet := insertSlot n.slot k.holdSet }) n.trunk ∧
       Run.writeSetPoint c r a demand = Run.kickTrunk c (r.modAxis a fun x =>
         { x with setPoint := some demand }) n.trunk) ∧
     (¬reached →
       Run.holdNode c r n = r ∧
       Run.writeSetPoint c r a demand = r.modAxis a fun x => { x with setPoint := none }))

/-! ### Motion axes and set points (chapters 4 and 5) -/

/-- MOVE: a running plan that names the axis, service mode, the control station, the state, ESTOP,
fire, the prerequisites and the derate turn it away in this order, each with its detail.
MOVE past its judging: the target is brought inside the travel limits, and the axis goes from
LOCKED to UNLOCKING with UNLOCK offered, from STILL to MOVING, and from MOVING or STOPPING on or back to
MOVING with its control timer and sent demand running on; OK, or CLAMPED with detail 1.
The detail 0 of the OK is the model's choice (log 53). -/
def Obligations.MovesAreJudgedAndStarted : Prop :=
  (∀ (s : State) (src dst : Word) (tag : Byte) (a : Fin 6) (target : Int) (lock : Bool),
     Reaches s dst (.axis a) →
     let c := s.cfg
     let r := s.run
     let x := r.axes[a]
     let no := fun v =>
       exec (.move src dst tag (i2 target ++ bBool lock)) s = answered s r { src, dst, tag } v []
     (InPlan r a → no (.busy, det r.plan.current)) ∧
     (¬InPlan r a → InService r → no (.interlock, 5)) ∧
     (¬InPlan r a → ¬InService r → x.control = .localPanel → no (.state, 8)) ∧
     (¬InPlan r a → ¬InService r → x.control = .bridge →
       (x.state = .offline ∨ x.state = .unlocking ∨ x.state = .locking ∨ x.state = .halted →
         no (.state, det x.state.code)) ∧
       (x.state = .locked ∨ x.state = .still ∨ x.state = .moving ∨ x.state = .stopping →
         (EstopHolds r → no (.interlock, 1)) ∧
         (¬EstopHolds r → FireHolds c r a → no (.interlock, 2)) ∧
         (¬EstopHolds r → ¬FireHolds c r a →
           (¬Satisfied r c.axes[a].prereq1 → no (.interlock, 3)) ∧
           (Satisfied r c.axes[a].prereq1 →
             (¬Satisfied r c.axes[a].prereq2 → no (.interlock, 4)) ∧
             (Satisfied r c.axes[a].prereq2 → effectiveDerate r a = 0 → no (.interlock, 6))))))) ∧
  (∀ (s : State) (src dst : Word) (tag : Byte) (a : Fin 6) (target : Int) (lock : Bool),
     Reaches s dst (.axis a) → -32768 ≤ target → target ≤ 32767 →
     ¬InPlan s.run a → ¬InService s.run → s.run.axes[a].control = .bridge →
     NoInterlock s.cfg s.run a →
     let c := s.cfg
     let r := s.run
     let k := c.axes[a]
     let t := max k.posMin (min k.posMax target)
     let done := fun r => exec (.move src dst tag (i2 target ++ bBool lock)) s =
       answered s r { src, dst, tag } (if t = target then (.ok, 0) else (.clamped, 1)) []
     let aim := fun (x : AxisRt) =>
       { x with target := t, lockAtEnd := lock, origin := .bridge
                keepaliveTimer := some (ms k.keepalive) }
     (r.axes[a].state = .locked → done (Run.placeMotionCall c (Run.offerUnlock c
       (r.modAxis a fun x => { aim x with
         state := .unlocking, sentDemand := 0, overloadNoted := false
         lockTimer := some (sec k.lockTimeout) }) a) a)) ∧
     (r.axes[a].state = .still → done (Run.placeMotionCall c
       (r.modAxis a fun x => { aim x with
         state := .moving, sentDemand := 0, overloadNoted := false
         controlTimer := some (ms k.controlPeriod) }) a)) ∧
     (r.axes[a].state = .moving → done (r.modAxis a aim)) ∧
     (r.axes[a].state = .stopping → done (r.modAxis a fun x => { aim x with state := .moving })))

/-- STOP is answered OK in every state: a MOVING axis slews to zero, or with a sent demand of 0
comes to STILL at once, and so does an UNLOCKING one, with MOVE_ENDED and the motion call withdrawn;
a plan whose current axis it is ends first. KEEP restarts the keep-alive of a bridge move. That a
plan ends before its axis stops is the model's choice (log 20).
The detail 0 of the OK is the model's choice (log 53). -/
def Obligations.StopAndKeepByState : Prop :=
  ∀ (s : State) (src dst : Word) (tag : Byte) (a : Fin 6), Reaches s dst (.axis a) →
    let c := s.cfg
    let r := s.run
    let x := r.axes[a]
    let stopped := fun r =>
      exec (.stop src dst tag []) s = answered s r { src, dst, tag } (.ok, 0) []
    let kept := fun r v => exec (.keep src dst tag []) s = answered s r { src, dst, tag } v []
    let ended := r.endPlanOf a .stop
    (x.state = .moving → x.sentDemand ≠ 0 → stopped (ended.modAxis a fun x =>
      { x with state := .stopping, keepaliveTimer := none })) ∧
    (x.state = .moving → x.sentDemand = 0 → stopped (Run.withdrawMotionCall c
      ((ended.modAxis a fun x =>
        { x with state := .still, keepaliveTimer := none, controlTimer := none
                 setPoint := none }).raise .moveEnded (a.val + 1) 1) a)) ∧
    (x.state = .unlocking → stopped (Run.withdrawMotionCall c
      ((ended.modAxis a fun x =>
        { x with state := .still, keepaliveTimer := none, lockTimer := none
                 owed := { x.owed with unlock := false } }).raise .moveEnded (a.val + 1) 1) a)) ∧
    (x.state ≠ .moving → x.state ≠ .unlocking → stopped r) ∧
    (x.state = .moving ∨ x.state = .unlocking →
      (x.origin = .bridge → kept (r.modAxis a fun x =>
        { x with keepaliveTimer := some (ms c.axes[a].keepalive) }) (.ok, 0)) ∧
      (x.origin ≠ .bridge → kept r (.state, 8))) ∧
    (x.state = .stopping ∨ x.state = .locking → kept r (.ok, 0)) ∧
    (x.state = .offline ∨ x.state = .locked ∨ x.state = .still ∨ x.state = .halted →
      kept r (.state, det x.state.code))

/-- RELEASE clears the causes whose conditions hold and takes the axis out of HALTED when none remain;
TAKE and GRANT_LOCAL set the control station at rest; DERATE sets the bridge derate, at most 256.
That bit k of a mask stands for flag k + 2 is the model's reading (log 7).
The detail 0 of the OK is the model's choice (log 53). -/
def Obligations.ReleaseTakeGrantAndDerate : Prop :=
  ∀ (s : State) (src dst : Word) (tag : Byte) (a : Fin 6), Reaches s dst (.axis a) →
    let c := s.cfg
    let r := s.run
    let x := r.axes[a]
    let req : Req := { src, dst, tag }
    let clears := fun (k : HaltCause) => match k with
      | .estop => ¬EstopHolds r
      | .fire => ¬FireHolds c r a
      | .node => (nodeRt r c.axes[a].drive).liveness = .live
      | .overload => ∀ d, x.latest = some d → d.pressure ≤ c.axes[a].overloadLimit
      | .driveFlag => ∀ d, x.latest = some d → ∀ k : Fin 6,
          ¬(c.axes[a].haltMask.getLsbD k.val = true ∧ d.flags.getLsbD (k.val + 2) = true)
      | .prereq => Satisfied r c.axes[a].prereq1 ∧ Satisfied r c.axes[a].prereq2
      | .keepalive => True
      | .unlockTimeout => True
      | .lockTimeout => True
    (x.state ≠ .halted → exec (.release src dst tag []) s =
      answered s r req (.state, det x.state.code) []) ∧
    (x.state = .halted → ∃ left : BitVec 9,
      (∀ k : HaltCause, left.getLsbD k.bit = true ↔ x.causes.getLsbD k.bit = true ∧ ¬clears k) ∧
      (left ≠ 0 → exec (.release src dst tag []) s =
        answered s (r.modAxis a fun x => { x with causes := left }) req
          (.interlock, left.zeroExtend 16) []) ∧
      (left = 0 → exec (.release src dst tag []) s =
        answered s ((r.modAxis a fun x =>
          { x with causes := 0, state := if latestEngaged x then .locked else .still }).raise
            .axisReleased (a.val + 1) 0) req (.ok, 0) [])) ∧
    (InService r → exec (.take src dst tag []) s = answered s r req (.interlock, 5) []) ∧
    (¬InService r → InMotion x →
      exec (.take src dst tag []) s = answered s r req (.busy, det x.state.code) []) ∧
    (¬InService r → ¬InMotion x →
      (x.control = .bridge → exec (.take src dst tag []) s = answered s r req (.ok, 0) []) ∧
      (x.control = .localPanel → exec (.take src dst tag []) s =
        answered s ((r.modAxis a fun x => { x with control := .bridge }).raise
          .controlChange (a.val + 1) 0) req (.ok, 0) [])) ∧
    (c.axes[a].panel = none →
      exec (.grantLocal src dst tag []) s = answered s r req (.state, 9) []) ∧
    (c.axes[a].panel ≠ none → InMotion x →
      exec (.grantLocal src dst tag []) s = answered s r req (.busy, det x.state.code) []) ∧
    (c.axes[a].panel ≠ none → ¬InMotion x →
      (x.control = .localPanel →
        exec (.grantLocal src dst tag []) s = answered s r req (.ok, 0) []) ∧
      (x.control = .bridge → exec (.grantLocal src dst tag []) s =
        answered s ((r.modAxis a fun x => { x with control := .localPanel }).raise
          .controlChange (a.val + 1) 1) req (.ok, 0) [])) ∧
    (∀ v : Nat, v < 65536 → exec (.derate src dst tag (b2 v)) s =
      answered s (r.modAxis a fun x => { x with bridgeDerate := min 256 v }) req
        (if v ≤ 256 then (.ok, 0) else (.clamped, 1)) []) ∧
    (effectiveDerate r a ≤ 256 ∧ effectiveDerate r a ≤ x.bridgeDerate ∧
      (∀ (m : Fin 16) v k, r.monitors[m].derate = some (v, k) → k.getLsbD a.val = true →
        effectiveDerate r a ≤ v) ∧
      (effectiveDerate r a = 256 ∨ effectiveDerate r a = x.bridgeDerate ∨
        ∃ (m : Fin 16) (k : AxisSet), r.monitors[m].derate = some (effectiveDerate r a, k) ∧
          k.getLsbD a.val = true))

/-- PLAN_START is judged on a running plan, service mode, a LOCAL axis among its steps and the start of
step 1, and then runs; PLAN_KEEP renews the current axis; PLAN_CANCEL ends the plan and stops its axis;
a done step starts the next one or ends the plan.
The detail 0 of the OK is the model's choice (log 53). -/
def Obligations.PlansRunStepByStep : Prop :=
  ∀ (s : State) (src dst : Word) (tag : Byte) (k : PlanStep) (l : List PlanStep),
    Reaches s dst .plan → l.length ≤ 7 →
    (∀ x ∈ k :: l, -32768 ≤ x.target ∧ x.target ≤ 32767) →
    let c := s.cfg
    let r := s.run
    let req : Req := { src, dst, tag }
    let body := b1 (l.length + 1) ++ (k :: l).flatMap planStepBytes
    let go := exec (.planStart src dst tag body) s
    let at1 := fun (k : PlanStep) => max c.axes[k.axis].posMin (min c.axes[k.axis].posMax k.target)
    let isLocal := fun (x : PlanStep) => r.axes[x.axis].control = .localPanel
    (r.plan.running = true → go = answered s r req (.busy, det r.plan.current) []) ∧
    (r.plan.running = false → InService r → go = answered s r req (.interlock, 5) []) ∧
    (r.plan.running = false → ¬InService r →
      (∀ i x, (k :: l)[i]? = some x → isLocal x →
        (∀ j y, j < i → (k :: l)[j]? = some y → ¬isLocal y) →
        go = answered s r req (.interlock, det (i + 1)) []) ∧
      ((∀ x ∈ k :: l, ¬isLocal x) →
        (∀ v, moveJudge c r k.axis = some v → go = answered s r req v []) ∧
        (moveJudge c r k.axis = none → go =
          answered s ((Run.startMove c r k.axis (at1 k) k.lockAtEnd .bridge).setPlan
            { running := true, steps := k :: l, current := 1 }) req (.ok, 0) []))) ∧
    (r.plan.running = false →
      exec (.planKeep src dst tag []) s = answered s r req (.state, 0) [] ∧
      exec (.planCancel src dst tag []) s = answered s r req (.state, 0) []) ∧
    (∀ x : PlanStep, r.plan.running = true → r.plan.steps[r.plan.current - 1]? = some x →
      (r.axes[x.axis].state = .unlocking ∨ r.axes[x.axis].state = .moving →
        exec (.planKeep src dst tag []) s = answered s (r.modAxis x.axis fun y =>
          { y with keepaliveTimer := some (ms c.axes[x.axis].keepalive) }) req (.ok, 0) []) ∧
      (r.axes[x.axis].state ≠ .unlocking → r.axes[x.axis].state ≠ .moving →
        exec (.planKeep src dst tag []) s = answered s r req (.ok, 0) []) ∧
      exec (.planCancel src dst tag []) s = answered s (Run.stopAxis c
        ((r.setPlan { r.plan with running := false, steps := [] }).raise .planAborted 0
          (det2 r.plan.current 6)) x.axis) req (.ok, 0) [] ∧
      (let noted := (if x.notify then
          r.raise .stepDone 0 (det2 r.plan.current (x.axis.val + 1)) else r);
        (r.plan.steps[r.plan.current]? = none → Run.stepDone c r x.axis =
          (noted.setPlan { r.plan with running := false }).raise .planDone 0
            (det r.plan.steps.length)) ∧
        (∀ y, r.plan.steps[r.plan.current]? = some y →
          let on := noted.setPlan { r.plan with current := r.plan.current + 1 }
          (moveJudge c on y.axis = none → Run.stepDone c r x.axis =
            Run.startMove c on y.axis (at1 y) y.lockAtEnd .bridge) ∧
          (moveJudge c on y.axis ≠ none → Run.stepDone c r x.axis =
            (on.setPlan { on.plan with running := false, steps := [] }).raise .planAborted 0
              (det2 (r.plan.current + 1) 5)))))

/-- A halt: nothing in OFFLINE, one cause more in HALTED, and elsewhere the seven steps of R80 and
the end of a plan whose current axis it is. KEEPALIVE_EXPIRY halts in UNLOCKING and MOVING,
LOCK_TIMER_EXPIRY in UNLOCKING and LOCKING. An expiry whose timer does not run changes nothing,
which is the model's choice (log 2).
That a halt of a HALTED axis raises AXIS_HALTED for a cause it already holds too is the model's choice
(log 19). -/
def Obligations.HaltsLatchTheirCause : Prop :=
  (∀ (c : Tables) (r0 : Run) (a : Fin 6) (k : HaltCause),
    let x := r0.axes[a]
    (x.state = .offline → Run.halt c r0 a k = r0) ∧
    (x.state = .halted → ∃ more : BitVec 9,
      (∀ j : HaltCause, more.getLsbD j.bit = (x.causes.getLsbD j.bit || j == k)) ∧
      Run.halt c r0 a k = (r0.modAxis a fun x => { x with causes := more }).raise .axisHalted
        (a.val + 1) (det (k.bit + 1))) ∧
    (x.state ≠ .offline → x.state ≠ .halted → ∃ one : BitVec 9,
      (∀ j : HaltCause, one.getLsbD j.bit = (j == k)) ∧
      let r := r0.modAxis a fun x =>
        { x with state := .halted, causes := one, keepaliveTimer := none, lockTimer := none
                 controlTimer := none, owed := { x.owed with unlock := false, lock := false }
                 origin := .none, setPoint := none, sentDemand := 0 }
      let r := Run.holdNode c r c.axes[a].drive
      let r := if stageOn c.axes[a] = true ∧ r.axes[a].stage = .high then
          Run.offerStage c (r.modAxis a fun x => { x with stage := .low }) a else r
      Run.halt c r0 a k = ((Run.withdrawMotionCall c r a).raise .axisHalted (a.val + 1)
        (det (k.bit + 1))).endPlanOf a .halt)) ∧
  (∀ (s : State) (a : Fin 6),
    let x := s.run.axes[a]
    let c := s.cfg
    let kept := s.run.modAxis a fun x => { x with keepaliveTimer := none }
    let unlocked := s.run.modAxis a fun x => { x with lockTimer := none }
    (x.keepaliveTimer = none → exec (.keepaliveExpiry a) s = closed s s.run) ∧
    (x.keepaliveTimer.isSome = true →
      (x.state = .unlocking ∨ x.state = .moving →
        exec (.keepaliveExpiry a) s = closed s (Run.halt c kept a .keepalive)) ∧
      (x.state ≠ .unlocking → x.state ≠ .moving →
        exec (.keepaliveExpiry a) s = closed s kept)) ∧
    (x.lockTimer = none → exec (.lockTimerExpiry a) s = closed s s.run) ∧
    (x.lockTimer.isSome = true →
      (x.state = .unlocking → exec (.lockTimerExpiry a) s =
        closed s (Run.halt c unlocked a .unlockTimeout)) ∧
      (x.state = .locking → exec (.lockTimerExpiry a) s =
        closed s (Run.halt c unlocked a .lockTimeout)) ∧
      (x.state ≠ .unlocking → x.state ≠ .locking →
        exec (.lockTimerExpiry a) s = closed s unlocked)))

/-- The motion call is placed at a start from rest and withdrawn by its id, and a call that the queue
refuses raises CALL_REFUSED and leaves no id. A demand at or above stage up makes the stage HIGH and one
below stage down LOW, each with its STAGE frame, which becomes owed where it is refused. Steps 2 to 5 of
R72 judge the start of a plan's step as they judge a MOVE, and a start acts by the state of its axis.
UNLOCK and LOCK are offered to the drive and owed where they are refused. A move that is done raises
MOVE_DONE with the latest position, withdraws its motion call and ends the plan's step, if the axis is the
plan's current one. What a step's end does then stands in PlansRunStepByStep. -/
def Obligations.MotionCallsStagesAndStarts : Prop :=
  (∀ (c : Tables) (r : Run) (a : Fin 6),
    (c.axes[a].motionCall = none → Run.placeMotionCall c r a = r) ∧
    (∀ k, c.axes[a].motionCall = some k → Run.placeMotionCall c r a =
      (let p := Run.placeInternal c r { message := k.message, areas := k.areas
                                        priority := k.priority, repeats := 0, gap := k.gap
                                        limit := c.param.playLimit, origin := .axis a }
      p.1.modAxis a fun x => { x with callId := p.2 })) ∧
    (r.axes[a].callId = none → Run.withdrawMotionCall c r a = r) ∧
    (∀ id, r.axes[a].callId = some id → Run.withdrawMotionCall c r a =
      (Run.removeCall c r id).modAxis a fun x => { x with callId := none })) ∧
  (∀ (c : Tables) (r : Run) (o : CallOffer),
    let go := Run.placeInternal c r o
    let same := r.calls.find? fun k => k.origin = o.origin ∧ k.message = o.message
    (∀ k, same = some k → go = (Run.mergeCall c r o k, some k.id)) ∧
    (same = none → r.calls.length < 16 →
      go = ((Run.enterCall c r o).1, some (Run.enterCall c r o).2)) ∧
    (∀ k, same = none → 16 ≤ r.calls.length → r.calls.getLast? = some k →
      (k.priority < o.priority →
        let room := (Run.removeCall c r k.id).raise .callEvicted k.id k.origin.code
        go = ((Run.enterCall c room o).1, some (Run.enterCall c room o).2)) ∧
      (o.priority ≤ k.priority → go = (r.raise .callRefused 0 o.origin.code, none)))) ∧
  (∀ (c : Tables) (r : Run) (a : Fin 6) (demand : Int),
    let k := c.axes[a]
    let on := k.lowPayload.isSome = true ∧ k.highPayload.isSome = true
    let go := Run.judgeStage c r a demand
    let turned := fun (s : Stage) => Run.offerStage c (r.modAxis a fun x => { x with stage := s }) a
    (¬on → go = r) ∧
    (on → r.axes[a].stage = .low →
      (k.stageUp ≤ demand.natAbs → go = turned .high) ∧ (demand.natAbs < k.stageUp → go = r)) ∧
    (on → r.axes[a].stage = .high →
      (demand.natAbs < k.stageDown → go = turned .low) ∧ (k.stageDown ≤ demand.natAbs → go = r)) ∧
    (∀ v, (match r.axes[a].stage with | .low => k.lowPayload | .high => k.highPayload) = some v →
      let o := Run.offerFrame c r k.drive 0x05 v (.axis a .stage)
      (o.2 = .accepted → Run.offerStage c r a =
        o.1.modAxis a fun x => { x with owed := { x.owed with stage := false } }) ∧
      (o.2 ≠ .accepted → Run.offerStage c r a =
        o.1.modAxis a fun x => { x with owed := { x.owed with stage := true } }))) ∧
  (∀ (c : Tables) (r : Run) (a : Fin 6),
    let x := r.axes[a]
    let go := moveJudge c r a
    (InService r → go = some (.interlock, 5)) ∧
    (¬InService r → x.control = .localPanel → go = some (.state, 8)) ∧
    (¬InService r → x.control = .bridge →
      (x.state = .offline ∨ x.state = .unlocking ∨ x.state = .locking ∨ x.state = .halted →
        go = some (.state, det x.state.code)) ∧
      (x.state = .locked ∨ x.state = .still ∨ x.state = .moving ∨ x.state = .stopping →
        (NoInterlock c r a → go = none) ∧
        (EstopHolds r → go = some (.interlock, 1)) ∧
        (¬EstopHolds r → FireHolds c r a → go = some (.interlock, 2)) ∧
        (¬EstopHolds r → ¬FireHolds c r a →
          (¬Satisfied r c.axes[a].prereq1 → go = some (.interlock, 3)) ∧
          (Satisfied r c.axes[a].prereq1 →
            (¬Satisfied r c.axes[a].prereq2 → go = some (.interlock, 4)) ∧
            (Satisfied r c.axes[a].prereq2 → effectiveDerate r a = 0 →
              go = some (.interlock, 6))))))) ∧
  (∀ (c : Tables) (r : Run) (a : Fin 6) (target : Int) (lock : Bool) (origin : MoveOrigin),
    let k := c.axes[a]
    let go := Run.startMove c r a target lock origin
    let aim := fun (x : AxisRt) => { x with
      target, lockAtEnd := lock, origin, keepaliveTimer := some (ms k.keepalive) }
    (r.axes[a].state = .locked → go = Run.placeMotionCall c (Run.offerUnlock c
      (r.modAxis a fun x => { aim x with
        state := .unlocking, sentDemand := 0, overloadNoted := false
        lockTimer := some (sec k.lockTimeout) }) a) a) ∧
    (r.axes[a].state = .still → go = Run.placeMotionCall c
      (r.modAxis a fun x => { aim x with
        state := .moving, sentDemand := 0, overloadNoted := false
        controlTimer := some (ms k.controlPeriod) }) a) ∧
    (r.axes[a].state = .moving → go = r.modAxis a aim) ∧
    (r.axes[a].state = .stopping → go = r.modAxis a fun x => { aim x with state := .moving }) ∧
    (r.axes[a].state = .offline ∨ r.axes[a].state = .unlocking ∨ r.axes[a].state = .locking ∨
      r.axes[a].state = .halted → go = r)) ∧
  (∀ (c : Tables) (r : Run) (a : Fin 6),
    let k := c.axes[a]
    let unlock := Run.offerFrame c r k.drive 0x03 [] (.axis a .unlock)
    let lock := Run.offerFrame c r k.drive 0x04 [] (.axis a .lock)
    let position := match r.axes[a].latest with
      | some d => d.position
      | none => 0
    (unlock.2 = .accepted → Run.offerUnlock c r a =
      unlock.1.modAxis a fun x => { x with owed := { x.owed with unlock := false } }) ∧
    (unlock.2 ≠ .accepted → Run.offerUnlock c r a =
      unlock.1.modAxis a fun x => { x with owed := { x.owed with unlock := true } }) ∧
    (lock.2 = .accepted → Run.offerLock c r a =
      lock.1.modAxis a fun x => { x with owed := { x.owed with lock := false } }) ∧
    (lock.2 ≠ .accepted → Run.offerLock c r a =
      lock.1.modAxis a fun x => { x with owed := { x.owed with lock := true } }) ∧
    Run.moveDone c r a = Run.stepDone c (Run.withdrawMotionCall c
      (r.raise .moveDone (a.val + 1) (BitVec.ofInt 16 position)) a) a ∧
    (r.plan.running = false → Run.stepDone c r a = r) ∧
    (∀ x : PlanStep, r.plan.running = true → r.plan.steps[r.plan.current - 1]? = some x →
      x.axis ≠ a → Run.stepDone c r a = r))

/-- An axis whose drive is LOST or UNKNOWN goes OFFLINE, with its plan ended before any other axis is
judged on it (log 45), and a MOVING or STOPPING axis whose prerequisite on one of the axes named is
unsatisfied halts with PREREQ, once (log 46). A lost panel stops its move, and a panel's reply starts,
renews or stops a panel move, or is denied, as the table of R87 says. Owed frames are offered again,
UNLOCK, LOCK, STAGE (log 44), and a frame unanswered is owed again. A door whose node is LOST or UNKNOWN
goes OFFLINE, a door frame unanswered in the state it served becomes pending, and the pending commands
of a trunk's doors are offered at its transaction's end, that of the completion included (log 47). -/
def Obligations.AxesAndDoorsFollowTheirNodes : Prop :=
  (∀ (c : Tables) (r : Run) (a : Fin 6),
    let x := r.axes[a]
    let on := c.axes[a].lowPayload.isSome && c.axes[a].highPayload.isSome
    let off := r.modAxis a fun x => { x with
      state := .offline, causes := 0, keepaliveTimer := none, lockTimer := none
      controlTimer := none, origin := .none, sentDemand := 0, stage := .low, setPoint := none
      owed := { unlock := false, lock := false, stage := on }
      wasActive := decide (InMotion x ∨ x.state = .halted) }
    Run.axisOffline c r a = (Run.withdrawMotionCall c off a).endPlanOf a .offline ∧
    (let quiet := r.modAxis a fun x => { x with panel := .none }
      let moves := (x.state = .unlocking ∨ x.state = .moving) ∧
        (x.origin = .panelRaise ∨ x.origin = .panelLower)
      (moves → Run.panelLost c r a = Run.stopAxis c quiet a) ∧
      (¬moves → Run.panelLost c r a = quiet)) ∧
    (∀ cause : PlanEnd,
      let mine := r.plan.running = true ∧ ∃ k, r.plan.steps[r.plan.current - 1]? = some k ∧
        k.axis = a
      (mine → r.endPlanOf a cause = (r.setPlan { r.plan with running := false, steps := [] }).raise
        .planAborted 0 (det2 r.plan.current cause.code)) ∧
      (¬mine → r.endPlanOf a cause = r))) ∧
  (∀ (c : Tables) (r : Run) (others : List (Fin 6)) (b : Fin 6),
    let moves := r.axes[b].state = .moving ∨ r.axes[b].state = .stopping
    let fails := ∃ p, (c.axes[b].prereq1 = some p ∨ c.axes[b].prereq2 = some p) ∧
      p.axis ∈ others ∧ p.axis ≠ b ∧ ¬Satisfied r (some p)
    (moves → fails → Run.judgePrereq c others r b = Run.halt c r b .prereq) ∧
    (¬moves ∨ ¬fails → Run.judgePrereq c others r b = r) ∧
    Run.judgeOthers c r others = (List.finRange 6).foldl (Run.judgePrereq c others) r) ∧
  (∀ (c : Tables) (r : Run) (a : Fin 6) (p : PanelCommand),
    let x := r.axes[a]
    let edge := p ≠ .none ∧ p ≠ x.panel
    let taken := fun (u : Run) => Run.panelReply c r a p = u.modAxis a fun x => { x with panel := p }
    let deny := match c.axes[a].panel with
      | some n => (Run.offerFrame c r n 0x0B [] (.axis a .deny)).1
      | none => r
    let rest := x.state = .locked ∨ x.state = .still
    let moves := (x.state = .unlocking ∨ x.state = .moving) ∧
      (x.origin = .panelRaise ∨ x.origin = .panelLower)
    let held := p = .raise ∧ x.origin = .panelRaise ∨ p = .lower ∧ x.origin = .panelLower
    let clear := ¬EstopHolds r ∧ ¬FireHolds c r a ∧ Satisfied r c.axes[a].prereq1 ∧
      Satisfied r c.axes[a].prereq2 ∧ effectiveDerate r a ≠ 0
    (x.control = .localPanel → rest →
      (¬edge → taken r) ∧ (edge → ¬clear → taken deny) ∧
      (edge → clear → p = .raise →
        taken (Run.startMove c r a c.axes[a].posMax false .panelRaise)) ∧
      (edge → clear → p = .lower →
        taken (Run.startMove c r a c.axes[a].posMin false .panelLower))) ∧
    (x.control = .localPanel → moves →
      (held → taken (r.modAxis a fun x =>
        { x with keepaliveTimer := some (ms c.axes[a].keepalive) })) ∧
      (¬held → taken (Run.stopAxis c r a))) ∧
    (x.control = .bridge ∨ ¬rest ∧ ¬moves → (edge → taken deny) ∧ (¬edge → taken r))) ∧
  (∀ (c : Tables) (r : Run) (a : Fin 6),
    let unlock := if r.axes[a].owed.unlock then Run.offerUnlock c r a else r
    let lock := if unlock.axes[a].owed.lock then Run.offerLock c unlock a else unlock
    (lock.axes[a].owed.stage = true → c.axes[a].lowPayload ≠ none → c.axes[a].highPayload ≠ none →
      Run.offerOwed c r a = Run.offerStage c lock a) ∧
    (lock.axes[a].owed.stage = false ∨ c.axes[a].lowPayload = none ∨ c.axes[a].highPayload = none →
      Run.offerOwed c r a = lock) ∧
    (∀ (f : AxisFrame) (k : Completion),
      ((∀ m, k ≠ .noAnswer m) → r.axisCompleted a f k = r) ∧
      (∀ m, k = .noAnswer m →
        (f = .unlock → r.axisCompleted a f k = if r.axes[a].state = .unlocking then
          r.modAxis a fun x => { x with owed := { x.owed with unlock := true } } else r) ∧
        (f = .lock → r.axisCompleted a f k = if r.axes[a].state = .locking then
          r.modAxis a fun x => { x with owed := { x.owed with lock := true } } else r) ∧
        (f = .stage → r.axisCompleted a f k =
          r.modAxis a fun x => { x with owed := { x.owed with stage := true } }) ∧
        (f = .deny → r.axisCompleted a f k = r)))) ∧
  (∀ (c : Tables) (r : Run) (d : Fin 32) (t : Fin 4),
    let x := r.doors[d]
    (r.doorOffline d = r.modDoor d fun x => { x with
      state := .offline, timer := none, transitMark := false, pending := .none
      retriesUsed := 0 }) ∧
    (∀ (f : DoorFrame) (k : Completion),
      let served := (f = .close ∧ x.state = .closing) ∨ (f = .opened ∧ x.state = .opening) ∨
        (f = .stop ∧ x.state = .obstructed)
      ((∀ m, k ≠ .noAnswer m) → r.doorCompleted d f k = r) ∧
      (∀ m, k = .noAnswer m →
        (¬served ∨ x.pending ≠ .none → r.doorCompleted d f k = r) ∧
        (served → x.pending = .none → r.doorCompleted d f k =
          r.modDoor d fun x => { x with pending := match f with
            | .close => .close
            | .opened => .opened
            | .stop => .stop
            | .deny => .none }))) ∧
    (Run.offerDoorsOf c r t = ((List.finRange 32).filter fun d =>
      c.doors[d].node.trunk = t).foldl (Run.offerPending c) r) ∧
    (x.pending = .none → Run.offerPending c r d = r) ∧
    (x.pending = .close → Run.offerPending c r d = Run.issueDoor c r d .close) ∧
    (x.pending = .opened → Run.offerPending c r d = Run.issueDoor c r d .opened) ∧
    (x.pending = .stop → Run.offerPending c r d = Run.issueDoor c r d .stop))

/-- The stages of the set-point computation: the profile's speed by its lowest segment, with the
correction truncated toward zero, between the speeds of its ends (R95); creep (R96); the derate, the
quotient by 256 rounded down and at most v_max (R97); arrival and the wanted demand (R98); and the
wanted demand clamped to one acceleration step about the last, of magnitude at most v_max (R99). -/
def Obligations.DemandsKeepTheirBounds : Prop :=
  (∀ (l : List Breakpoint) (pos : Int) (first last : Breakpoint), l.head? = some first →
    l.getLast? = some last → l.Pairwise (fun p q => p.position < q.position) →
    let A := max first.position (min last.position pos)
    (∀ i p q, l[i]? = some p → l[i + 1]? = some q → p.position ≤ A → A ≤ q.position →
      (∀ j u v, j < i → l[j]? = some u → l[j + 1]? = some v → v.position < A) →
      profileSpeed l pos =
        p.speed + Int.tdiv (((q.speed : Int) - p.speed) * (A - p.position))
          (q.position - p.position) ∧
      min (p.speed : Int) q.speed ≤ profileSpeed l pos ∧
      profileSpeed l pos ≤ max (p.speed : Int) q.speed) ∧
    (∀ p ∈ l, pos = p.position → profileSpeed l pos = p.speed)) ∧
  (∀ (x : AxisCfg) (service : Bool) (derate : Nat) (pos target v cap sRef : Int),
    (creepSpeed x service pos target v =
      if (pos < target ∧ x.posMax - pos < x.creepDistance) ∨
          (target < pos ∧ pos - x.posMin < x.creepDistance) ∨ service = true
        then min v x.vCreep else v) ∧
    capSpeed x derate v = min (v * derate / 256) x.vMax ∧
    (∀ q : Int, 256 * q ≤ v * derate → v * derate < 256 * (q + 1) →
      capSpeed x derate v = if (x.vMax : Int) < q then (x.vMax : Int) else q) ∧
    (0 ≤ v → 0 ≤ capSpeed x derate v) ∧
    (arrived x pos target = true ↔ (target - pos).natAbs ≤ x.deadband) ∧
    (let lesser := min cap ((target - pos).natAbs * x.kp / 16 : Nat)
     wantedDemand x pos target cap = if target < pos then -lesser else lesser) ∧
    (0 ≤ cap → cap ≤ x.vMax →
      let want := wantedDemand x pos target cap
      (want.natAbs : Int) = min cap ((target - pos).natAbs * x.kp / 16 : Nat) ∧
      (0 ≤ want ∨ target < pos) ∧ (want ≤ 0 ∨ pos < target) ∧
      (sRef.natAbs ≤ x.vMax → (slewDemand x.acc sRef want).natAbs ≤ x.vMax)) ∧
    (∀ want : Int,
      let demand := slewDemand x.acc sRef want
      demand = max (sRef - x.acc) (min (sRef + x.acc) want) ∧
      (want < sRef - x.acc → demand = sRef - x.acc) ∧
      (sRef + x.acc < want → demand = sRef + x.acc) ∧
      (sRef - x.acc ≤ want → want ≤ sRef + x.acc → demand = want)))

/-- CONTROL_PERIOD_EXPIRY: in MOVING, arrival within the deadband writes a zero demand and goes to
STILL or LOCKING; otherwise the slewed demand is written and the timer starts again, or the move
ends with a demand and a cap of 0; in STOPPING the demand slews to zero and the move ends there;
elsewhere the timer stops. An expiry whose timer does not run changes nothing, which is the model's
choice (log 2). -/
def Obligations.ControlPeriodsComputeTheDemand : Prop :=
  ∀ (s : State) (a : Fin 6),
    let c := s.cfg
    let k := c.axes[a]
    let x := s.run.axes[a]
    let pos := match x.latest with
      | some d => d.position
      | none => 0
    let r := s.run.modAxis a fun x => { x with controlTimer := none }
    let emit := fun (r : Run) (d : Int) => Run.judgeStage c (Run.writeSetPoint c r a d) a d
    let rest := fun (r : Run) (state : AxisState) (lock : Timer) => r.modAxis a fun x =>
      { x with controlTimer := none, keepaliveTimer := none, state
               lockTimer := if lock.isSome then lock else x.lockTimer }
    let again := r.modAxis a fun x => { x with controlTimer := some (ms k.controlPeriod) }
    let cap := capSpeed k (effectiveDerate s.run a) (creepSpeed k (serviceMode s.run) pos x.target
      (profileSpeed (breakpoints c a) pos))
    let moved := slewDemand k.acc x.sentDemand (wantedDemand k pos x.target cap)
    let slowed := slewDemand k.acc x.sentDemand 0
    let ended := fun (cause : Nat) =>
      Run.withdrawMotionCall c ((rest r .still none).raise .moveEnded (a.val + 1) (det cause)) a
    (x.controlTimer = none → exec (.controlPeriodExpiry a) s = closed s s.run) ∧
    (x.controlTimer.isSome = true →
      (x.state = .moving → (x.target - pos).natAbs ≤ k.deadband →
        ((emit r 0).axes[a].lockAtEnd = false → exec (.controlPeriodExpiry a) s =
          closed s (Run.moveDone c (rest (emit r 0) .still none) a)) ∧
        ((emit r 0).axes[a].lockAtEnd = true → exec (.controlPeriodExpiry a) s =
          closed s (Run.offerLock c (rest (emit r 0) .locking (some (sec k.lockTimeout))) a))) ∧
      (x.state = .moving → k.deadband < (x.target - pos).natAbs →
        (cap = 0 → moved = 0 → exec (.controlPeriodExpiry a) s =
          closed s (emit ((ended 2).endPlanOf a .derate) 0)) ∧
        (¬(cap = 0 ∧ moved = 0) → exec (.controlPeriodExpiry a) s = closed s (emit again moved))) ∧
      (x.state = .stopping →
        (slowed = 0 → exec (.controlPeriodExpiry a) s = closed s (emit (ended 1) 0)) ∧
        (slowed ≠ 0 → exec (.controlPeriodExpiry a) s = closed s (emit again slowed))) ∧
      (x.state ≠ .moving → x.state ≠ .stopping →
        exec (.controlPeriodExpiry a) s = closed s r))

/-- A good drive reply is taken in the order of R70: the record and the way out of OFFLINE, the
flags that have turned active, overload, the lock flags, the other axes' prerequisites, the owed
frames. The order among the flags is the model's choice (log 19).
That bit k of a mask stands for flag k + 2 is the model's reading (log 7).
That an axis leaving UNLOCKING halts once with PREREQ, also where both its prerequisites fail, is the
model's choice (log 46). -/
def Obligations.DriveRepliesAreTakenInOrder : Prop :=
  ∀ (c : Tables) (r : Run) (a : Fin 6) (d : DriveStatus),
    let x := r.axes[a]
    (Run.driveReply c r a d =
      let before : BitVec 8 := if x.state = .offline then 0 else match x.latest with
        | some d => d.flags
        | none => 0
      let r := Run.recordReply c r a d
      let r := (List.range 8).foldl (fun r k =>
        if d.flags.getLsbD k = true ∧ before.getLsbD k = false then Run.judgeFlag c r a k else r) r
      Run.offerOwed c (Run.judgeOthers c
        (Run.judgeLocks c (Run.judgeOverload c r a d.pressure) a d) [a]) a) ∧
    (x.state ≠ .offline ∨ c.axes[a].configured = false →
      Run.recordReply c r a d = r.modAxis a fun x => { x with latest := some d }) ∧
    (x.state = .offline → c.axes[a].configured = true →
      let out := r.modAxis a fun x =>
        { x with latest := some d, wasActive := false
                 state := if d.flags.getLsbD 0 then .locked else .still }
      (x.wasActive = false → Run.recordReply c r a d = out) ∧
      (x.wasActive = true → Run.recordReply c r a d = Run.halt c out a .node)) ∧
    (∀ k : Fin 6,
      (c.axes[a].haltMask.getLsbD k.val = false → c.axes[a].noteMask.getLsbD k.val = false →
        Run.judgeFlag c r a (k.val + 2) = r) ∧
      (c.axes[a].haltMask.getLsbD k.val = true → c.axes[a].noteMask.getLsbD k.val = false →
        Run.judgeFlag c r a (k.val + 2) = Run.halt c r a .driveFlag) ∧
      (c.axes[a].haltMask.getLsbD k.val = false → c.axes[a].noteMask.getLsbD k.val = true →
        Run.judgeFlag c r a (k.val + 2) =
          r.raise .driveNote (a.val + 1) (det (k.val + 2))) ∧
      (c.axes[a].haltMask.getLsbD k.val = true → c.axes[a].noteMask.getLsbD k.val = true →
        Run.judgeFlag c r a (k.val + 2) =
          (Run.halt c r a .driveFlag).raise .driveNote (a.val + 1) (det (k.val + 2)))) ∧
    (Run.judgeFlag c r a 0 = r ∧ Run.judgeFlag c r a 1 = r) ∧
    (∀ p : Nat,
      (¬InMotion x ∨ p ≤ c.axes[a].overloadLimit → Run.judgeOverload c r a p = r) ∧
      (InMotion x → c.axes[a].overloadLimit < p →
        (c.axes[a].stallVelocity < x.sentDemand.natAbs →
          Run.judgeOverload c r a p = Run.halt c r a .overload) ∧
        (x.sentDemand.natAbs ≤ c.axes[a].stallVelocity →
          (x.overloadNoted = true → Run.judgeOverload c r a p = r) ∧
          (x.overloadNoted = false → Run.judgeOverload c r a p =
            (r.modAxis a fun x => { x with overloadNoted := true }).raise .overloadNote
              (a.val + 1) (det p))))) ∧
    (let engaged := d.flags.getLsbD 0
      let released := d.flags.getLsbD 1
      let moving := r.modAxis a fun x =>
        { x with state := .moving, lockTimer := none, owed := { x.owed with unlock := false }
                 sentDemand := 0, controlTimer := some (ms c.axes[a].controlPeriod) }
      (x.state = .unlocking → ¬(released = true ∧ engaged = false) →
        Run.judgeLocks c r a d = r) ∧
      (x.state = .unlocking → released = true → engaged = false →
        (Satisfied r c.axes[a].prereq1 ∧ Satisfied r c.axes[a].prereq2 →
          Run.judgeLocks c r a d = moving) ∧
        (¬(Satisfied r c.axes[a].prereq1 ∧ Satisfied r c.axes[a].prereq2) →
          Run.judgeLocks c r a d = Run.halt c moving a .prereq)) ∧
      (x.state = .locking → engaged = true → Run.judgeLocks c r a d =
        Run.moveDone c (r.modAxis a fun x =>
          { x with state := .locked, lockTimer := none
                   owed := { x.owed with lock := false } }) a) ∧
      (x.state = .locking → engaged = false → Run.judgeLocks c r a d = r) ∧
      (x.state = .locked ∨ x.state = .still → Run.judgeLocks c r a d = r.modAxis a fun x =>
        { x with state := if engaged then .locked else .still }) ∧
      (x.state = .offline ∨ x.state = .moving ∨ x.state = .stopping ∨ x.state = .halted →
        Run.judgeLocks c r a d = r))

/-! ### Zones and doors (chapter 6) -/

/-- ZONE_CLOSE makes a closure request with cause BRIDGE; REOPEN is refused under the zone's active FIRE
line and otherwise lifts the closure and deals with every member door that no closure holds; OVERRIDE
sets the motion override.
The withdrawal of the zone's call stands in ClosureRequestsActOnTheirZone. -/
def Obligations.ZoneRequestsActByState : Prop :=
  ∀ (s : State) (src dst : Word) (tag : Byte) (z : Fin 8), Reaches s dst (.zone z) →
    let c := s.cfg
    let r := s.run
    let req : Req := { src, dst, tag }
    let freed := r.modZone z fun x =>
      { x with causes := 0, active := false, warningTimer := none, fire := false
               override := false }
    let door := fun (r : Run) (d : Fin 32) =>
      if ∀ y ∈ doorZones c.doors[d], r.zones[y].active = false then Run.reopenDoor c r d else r
    (∀ fire : Bool, exec (.zoneClose src dst tag (bBool fire)) s =
      answered s (Run.requestClosure c r z 0 fire) req (.ok, 0) []) ∧
    (r.lines[(⟨z.val + 2, by omega⟩ : Fin 14)].accepted = true →
      exec (.reopen src dst tag []) s = answered s r req (.state, 1) []) ∧
    (r.lines[(⟨z.val + 2, by omega⟩ : Fin 14)].accepted = false →
      exec (.reopen src dst tag []) s =
        answered s ((memberDoors c z).foldl door (Run.withdrawZoneCall c freed z)) req (.ok, 0) []) ∧
    exec (.override src dst tag []) s =
      answered s (r.modZone z fun x => { x with override := true }) req (.ok, 0) [] ∧
    (∀ (r : Run) (d : Fin 32),
      let x := r.doors[d]
      let opens := c.doors[d].reopenWithZone
      let opened := Run.issueDoor c (r.modDoor d fun x =>
        { x with state := .opening, transitMark := false, retriesUsed := 0
                 timer := some (.move, sec c.doors[d].closeTimeout) }) d .opened
      (x.state = .opening → x.transitMark = true → Run.reopenDoor c r d = r.modDoor d fun x =>
        { x with transitMark := false, timer := some (.move, sec c.doors[d].closeTimeout) }) ∧
      (x.state = .transit → Run.reopenDoor c r d = r.modDoor d fun x =>
        { x with state := .opened, timer := none, transitMark := false }) ∧
      (x.state = .closed ∨ x.state = .closing ∨ x.state = .obstructed ∨
          x.state = .fault ∧ (∀ y, x.latest = some y → y.localFault = false) →
        Run.reopenDoor c r d = if opens then opened else r) ∧
      (x.state = .offline ∨ x.state = .opened ∨ x.state = .opening ∧ x.transitMark = false ∨
          x.state = .fault ∧ (∃ y, x.latest = some y ∧ y.localFault = true) →
        Run.reopenDoor c r d = r))

/-- A closure request adds its cause. On a zone with no closure it starts one, with the warning or
the fire warning time, the fire effects and the zone's call; on one under closure it sets the fire
flag when it carries the option first. A warning of no time expires at the request. WARNING_EXPIRY
gives every member door that stands open, opens outside a transit or stands in FAULT with no local
fault a fresh close, in ascending index; and the state of a zone by its closure, its warning and its
member doors: SEALED only with every one of them CLOSED or in TRANSIT. An expiry whose timer does
not run changes nothing, which is the model's choice (log 2).
That a warning of 0 runs out behind the call and the fire effects of its own event is the model's choice
(log 23).
A zone withdraws its call by its id, and its call id is then none; without an id nothing is withdrawn. -/
def Obligations.ClosureRequestsActOnTheirZone : Prop :=
  (∀ (c : Tables) (r : Run) (z : Fin 8) (cause : Fin 18) (fire : Bool),
     let k := c.zones[z]
     let x := r.zones[z]
     let doors := fun (r : Run) => (memberDoors c z).foldl (fun r d =>
       if r.doors[d].state = .opening ∨ r.doors[d].state = .transit then Run.freshClose c r d
       else r) r
     let go := Run.requestClosure c r z cause.val fire
     let call := fun (r : Run) => Run.placeZoneCall c r z
     ∃ more : BitVec 18,
       (∀ j : Fin 18, more.getLsbD j.val = (x.causes.getLsbD j.val || j == cause)) ∧
       (x.active = false → fire = false →
         go = (let on := call (r.modZone z fun x =>
             { x with causes := more, active := true, warningTimer := some (sec k.warning) })
           if k.warning = 0 then Run.warningExpired c on z else on)) ∧
       (x.active = false → fire = true →
         go = (let on := call (Run.firePushed c (doors (r.modZone z fun x =>
             { x with causes := more, active := true, fire := true
                      warningTimer := some (sec k.fireWarning) })) z)
           if k.fireWarning = 0 then Run.warningExpired c on z else on)) ∧
       (x.active = true → fire = false ∨ x.fire = true →
         go = r.modZone z fun x => { x with causes := more }) ∧
       (x.active = true → fire = true → x.fire = false →
         go = (let left := x.warningTimer.map fun n => min n (sec k.fireWarning)
           let cut := r.modZone z fun x =>
             { x with causes := more, fire := true, warningTimer := left }
           let on := Run.firePushed c
             (doors (call (if x.callFire then cut else Run.withdrawZoneCall c cut z))) z
           if left = some 0 then Run.warningExpired c on z else on)) ∧
       (Run.placeZoneCall c r z =
         (let p := Run.placeInternal c r
           { message := if x.fire then k.fireMessage else k.warningMessage, areas := k.areas
             priority := if x.fire then 7 else 6, repeats := 0, gap := k.callGap
             limit := c.param.playLimit, origin := .zone z }
         p.1.modZone z fun y =>
           { y with callId := p.2, callFire := if p.2.isSome then x.fire else y.callFire })) ∧
       (x.callId = none → Run.withdrawZoneCall c r z = r) ∧
       (∀ id, x.callId = some id → Run.withdrawZoneCall c r z =
         (Run.removeCall c r id).modZone z fun y => { y with callId := none }) ∧
       (Run.firePushed c r z = if x.override then r else
         (List.finRange 6).foldl (fun r a =>
           if c.axes[a].zone = some z ∧ (InMotion r.axes[a] ∨ r.axes[a].state = .halted) then
             Run.halt c r a .fire else r) r)) ∧
  ((∀ (s : State) (z : Fin 8),
     let c := s.cfg
     (s.run.zones[z].warningTimer = none → exec (.warningExpiry z) s = closed s s.run) ∧
     (s.run.zones[z].warningTimer.isSome = true → exec (.warningExpiry z) s =
       closed s ((memberDoors c z).foldl (fun r d =>
         let x := r.doors[d]
         if x.state = .opened ∨ x.state = .opening ∧ x.transitMark = false ∨
             x.state = .fault ∧ x.latest.map (·.localFault) ≠ some true
           then Run.freshClose c r d else r)
         (s.run.modZone z fun x => { x with warningTimer := none })))) ∧
   (∀ (c : Tables) (r : Run) (d : Fin 32), Run.freshClose c r d =
     Run.issueDoor c (r.modDoor d fun x =>
       { x with state := .closing, retriesUsed := 0, transitMark := false
                timer := some (.move, sec c.doors[d].closeTimeout) }) d .close) ∧
   (∀ (c : Tables) (z : Fin 8),
     (memberDoors c z).Pairwise (· < ·) ∧
     ∀ d : Fin 32, d ∈ memberDoors c z ↔
       c.doors[d].configured = true ∧ (c.doors[d].zone1 = z ∨ c.doors[d].zone2 = some z)) ∧
   (∀ (c : Tables) (r : Run) (z : Fin 8),
     let x := r.zones[z]
     let some' := fun (p : DoorState → Prop) => ∃ d ∈ memberDoors c z, p r.doors[d].state
     let moving := some' fun q => q = .opened ∨ q = .opening ∨ q = .closing ∨ q = .obstructed
     let missing := some' fun q => q = .fault ∨ q = .offline
     (x.active = false → zoneStateNow c r z = .clear) ∧
     (x.active = true → x.warningTimer.isSome = true → zoneStateNow c r z = .warning) ∧
     (x.active = true → x.warningTimer = none →
       (moving → zoneStateNow c r z = .closing) ∧
       (¬moving → missing → zoneStateNow c r z = .incomplete) ∧
       (¬moving → ¬missing → zoneStateNow c r z = .sealed)) ∧
     (zoneStateNow c r z = .sealed →
       x.active = true ∧ ∀ d ∈ memberDoors c z,
         r.doors[d].state = .closed ∨ r.doors[d].state = .transit)))

/-- DOOR_OPEN is refused in OFFLINE and under closure, with the lowest zone that is closed, and
otherwise opens the door unless it stands open or opens; DOOR_CLOSE gives a fresh close in every
state but OFFLINE. A door frame that is refused for want of space becomes the pending command.
RETRY_EXPIRY closes the door again while retries are left and else faults it with cause 3;
MOVE_TIMER_EXPIRY faults a door with cause 2 in CLOSING and in OPENING outside a transit;
TRANSIT_EXPIRY gives a fresh close in TRANSIT and in a transit's OPENING. An expiry whose timer does
not run changes nothing, which is the model's choice (log 2).
That an OPEN in TRANSIT is OK and changes nothing is the model's choice (log 35). -/
def Obligations.DoorRequestsAreJudgedInOrder : Prop :=
  ((∀ (s : State) (src dst : Word) (tag : Byte) (d : Fin 32), Reaches s dst (.door d) →
     let c := s.cfg
     let r := s.run
     let x := r.doors[d]
     let opens := fun r v => exec (.doorOpenRequest src dst tag []) s =
       answered s r { src, dst, tag } v []
     let closes := fun r v => exec (.doorCloseRequest src dst tag []) s =
       answered s r { src, dst, tag } v []
     (x.state = .offline → opens r (.state, 0) ∧ closes r (.state, 0)) ∧
     (x.state ≠ .offline → closes (Run.freshClose c r d) (.ok, 0)) ∧
     (x.state ≠ .offline →
       (∀ z ∈ doorZones c.doors[d], r.zones[z].active = true →
         (∀ y ∈ doorZones c.doors[d], r.zones[y].active = true → z ≤ y) →
         opens r (.state, det (8 + z.val))) ∧
       (¬UnderClosure c r d →
         (x.state = .opened ∨ x.state = .opening ∨ x.state = .transit → opens r (.ok, 0)) ∧
         (x.state = .closed ∨ x.state = .closing ∨ x.state = .obstructed ∨ x.state = .fault →
           opens (Run.issueDoor c (r.modDoor d fun x =>
             { x with state := .opening, transitMark := false, retriesUsed := 0
                      timer := some (.move, sec c.doors[d].closeTimeout) }) d .opened)
             (.ok, 0))))) ∧
   (∀ (c : Tables) (r : Run) (d : Fin 32) (f : DoorFrame),
     let n := c.doors[d].node
     let left := fun (r : Run) (p : DoorPending) => r.modDoor d fun x => { x with pending := p }
     (judgeOffer c r n = .accepted → Run.issueDoor c r d f =
       left (Run.enqueueFrame c r n f.code [] (.door d f)) .none) ∧
     (judgeOffer c r n = .queueFull → Run.issueDoor c r d f = left r f.pending) ∧
     (judgeOffer c r n = .nodeLost ∨ judgeOffer c r n = .trunkDown →
       Run.issueDoor c r d f = left r .none))) ∧
  (∀ (s : State) (d : Fin 32),
     let c := s.cfg
     let x := s.run.doors[d]
     let r := s.run.modDoor d fun x => { x with timer := none }
     let fault := fun (cause : Nat) => closed s ((s.run.modDoor d fun x =>
       { x with state := .fault, timer := none }).raise .doorFault d.val (det cause))
     ((∀ n, x.timer ≠ some (.retry, n)) → exec (.retryExpiry d) s = closed s s.run) ∧
     ((∀ n, x.timer ≠ some (.move, n)) → exec (.moveTimerExpiry d) s = closed s s.run) ∧
     ((∀ n, x.timer ≠ some (.transit, n)) → exec (.transitExpiry d) s = closed s s.run) ∧
     (∀ n, x.timer = some (.retry, n) →
       (x.retriesUsed < c.doors[d].retryLimit → exec (.retryExpiry d) s =
         closed s (Run.issueDoor c (s.run.modDoor d fun x =>
           { x with retriesUsed := x.retriesUsed + 1, state := .closing
                    timer := some (.move, sec c.doors[d].closeTimeout) }) d .close)) ∧
       (c.doors[d].retryLimit ≤ x.retriesUsed → exec (.retryExpiry d) s = fault 3)) ∧
     (∀ n, x.timer = some (.move, n) →
       (x.state = .closing ∨ x.state = .opening ∧ x.transitMark = false →
         exec (.moveTimerExpiry d) s = fault 2) ∧
       (¬(x.state = .closing ∨ x.state = .opening ∧ x.transitMark = false) →
         exec (.moveTimerExpiry d) s = closed s r)) ∧
     (∀ n, x.timer = some (.transit, n) →
       (x.state = .transit ∨ x.state = .opening ∧ x.transitMark = true →
         exec (.transitExpiry d) s = closed s (Run.freshClose c s.run d)) ∧
       (¬(x.state = .transit ∨ x.state = .opening ∧ x.transitMark = true) →
         exec (.transitExpiry d) s = closed s r)))

/-- A good door reply: out of OFFLINE by its position and fault, and else local fault, position,
forced door and transit request in this order. A transit request is judged for a door that was CLOSED
after the position (step 3 of R117). That DENY then leaves the door as the forced door of step 4 left
it, and that a transit accepted opens it from there, is the model's reading (log 22). -/
def Obligations.DoorRepliesAreJudgedInOrder : Prop :=
  ∀ (c : Tables) (r : Run) (d : Fin 32) (st : DoorStatus),
    let x := r.doors[d]
    let back := fun (q : DoorState) =>
      r.modDoor d fun x => { x with state := q, latest := some st }
    let seen := r.modDoor d fun x => { x with latest := some st }
    let before := match x.latest with
      | some y => y.transitRequest
      | none => false
    let closedNow := r.modDoor d fun x =>
      { x with state := .closed, timer := none, transitMark := false }
    (x.state = .offline → st.localFault = true →
      Run.doorReply c r d st = (back .fault).raise .doorFault d.val 1) ∧
    (x.state = .offline → st.localFault = false →
      (st.position = .closed → Run.doorReply c r d st = back .closed) ∧
      (st.position ≠ .closed → ¬UnderClosure c r d → Run.doorReply c r d st = back .opened) ∧
      (st.position ≠ .closed → UnderClosure c r d →
        Run.doorReply c r d st = Run.freshClose c (back .opened) d)) ∧
    (x.state ≠ .offline →
      (st.localFault = true → x.state ≠ .fault → Run.doorReply c r d st =
        Run.judgeTransit c ((r.modDoor d fun x =>
          { x with latest := some st, transitMark := false, pending := .none
                   state := .fault, timer := none }).raise .doorFault d.val 1) d before false st) ∧
      (st.localFault = false ∨ x.state = .fault → Run.doorReply c r d st =
        Run.judgeTransit c (Run.judgeForced c (Run.judgePosition c seen d st) d st) d before
          (decide ((Run.judgePosition c seen d st).doors[d].state = .closed)) st)) ∧
    (x.state = .opened ∨ x.state = .obstructed ∨ x.state = .transit →
      Run.judgePosition c r d st = if st.position = .closed then closedNow else r) ∧
    (x.state = .opening →
      (st.position = .opened ∨ st.position = .stopped →
        (x.transitMark = true →
          Run.judgePosition c r d st = r.modDoor d fun x => { x with state := .transit }) ∧
        (x.transitMark = false → Run.judgePosition c r d st =
          r.modDoor d fun x => { x with state := .opened, timer := none })) ∧
      (st.position = .moving ∨ st.position = .closed → Run.judgePosition c r d st = r)) ∧
    (x.state = .closing →
      (st.position = .closed → Run.judgePosition c r d st = closedNow) ∧
      (st.position ≠ .closed → st.obstruction = true → Run.judgePosition c r d st =
        ((Run.issueDoor c r d .stop).modDoor d fun x =>
          { x with state := .obstructed, timer := some (.retry, sec c.doors[d].retryDelay) }).raise
          .doorObstructed d.val (det x.retriesUsed)) ∧
      (st.position ≠ .closed → st.obstruction = false → Run.judgePosition c r d st = r)) ∧
    (x.state = .fault → Run.judgePosition c r d st =
      if st.position = .closed ∧ st.localFault = false then closedNow else r) ∧
    (x.state = .closed → Run.judgePosition c r d st = r) ∧
    (x.state ≠ .closed ∨ st.position = .closed → Run.judgeForced c r d st = r) ∧
    (x.state = .closed → st.position ≠ .closed →
      (¬UnderClosure c r d →
        Run.judgeForced c r d st = r.modDoor d fun x => { x with state := .opened }) ∧
      (∀ z ∈ doorZones c.doors[d], r.zones[z].active = true →
        (∀ y ∈ doorZones c.doors[d], r.zones[y].active = true → z ≤ y) →
        Run.judgeForced c r d st =
          Run.freshClose c (r.raise .doorForced d.val (det z.val)) d)) ∧
    (∀ held closed : Bool,
      let edge := st.transitRequest = true ∧ held = false ∧ closed = true ∧ UnderClosure c r d
      (¬edge → Run.judgeTransit c r d held closed st = r) ∧
      (edge → (∃ z ∈ doorZones c.doors[d], r.zones[z].fire = true) →
        Run.judgeTransit c r d held closed st =
          (Run.offerFrame c r c.doors[d].node 0x0B [] (.door d .deny)).1) ∧
      (edge → (∀ z ∈ doorZones c.doors[d], r.zones[z].fire = false) →
        Run.judgeTransit c r d held closed st = Run.issueDoor c (r.modDoor d fun x =>
          { x with state := .opening, transitMark := true
                   timer := some (.transit, sec c.doors[d].transitTime) }) d .opened))

/-! ### Passenger calls (chapter 7) -/

/-- PLACE_CALL offers a call of the bridge, with repeats and gap clamped: merged into a record of its
origin and message, entered where there is space, entered in the place of the last record where its
priority is above that record's, and else refused with that record's priority. A new record takes the
first free id behind the counter and its place behind every record of its priority or more.
The detail 0 of an OK that clamps nothing is the model's choice (log 53). -/
def Obligations.CallsMergeEnterOrAreRefused : Prop :=
  (∀ (s : State) (src dst : Word) (tag : Byte) (message priority repeats gap limit : Nat)
      (areas : AreaSet), Reaches s dst .calls → message ≤ 511 → areas ≠ 0 → priority ≤ 7 →
    repeats ≤ 255 → gap ≤ 255 → 1 ≤ limit → limit ≤ 120 →
    let c := s.cfg
    let r := s.run
    let o : CallOffer := { message, areas, priority, repeats := min 15 repeats, gap := min 60 gap
                           limit, origin := .bridge }
    let v : Verdict := if 15 < repeats then (.clamped, 4) else if 60 < gap then (.clamped, 5)
      else (.ok, 0)
    let go := exec (.placeCall src dst tag (b2 message ++ w2 areas ++ b1 priority ++ b1 repeats
      ++ b1 gap ++ b1 limit)) s
    let same := r.calls.find? fun k => k.origin == .bridge && k.message == message
    let enters := fun (r : Run) => go = answered s (Run.enterCall c r o).1 { src, dst, tag } v
      (b1 (Run.enterCall c r o).2 ++ b1 0)
    (∀ k, same = some k →
      go = answered s (Run.mergeCall c r o k) { src, dst, tag } v (b1 k.id ++ b1 1)) ∧
    (same = none → r.calls.length < 16 → enters r) ∧
    (∀ k, same = none → 16 ≤ r.calls.length → r.calls.getLast? = some k →
      (k.priority < priority →
        enters ((Run.removeCall c r k.id).raise .callEvicted k.id k.origin.code)) ∧
      (priority ≤ k.priority → go =
        answered s r { src, dst, tag } (.queueFull, det k.priority) []))) ∧
  (∀ (c : Tables) (r : Run) (o : CallOffer), r.calls.length < 255 →
    let id := (Run.enterCall c r o).2
    let k : Call :=
      { id, message := o.message, areas := o.areas, priority := o.priority, repeats := o.repeats
        gap := o.gap, limit := o.limit, origin := o.origin, phase := .waiting
        remaining := o.repeats, pending := 0, playing := 0, gapTimer := none }
    (1 ≤ id ∧ id ≤ 255 ∧ ∀ x ∈ r.calls, x.id ≠ id) ∧
    (∃ n : Nat, n < 255 ∧ id = (r.callCounter + n) % 255 + 1 ∧
      ∀ m : Nat, m < n → ∃ x ∈ r.calls, x.id = (r.callCounter + m) % 255 + 1) ∧
    (r.calls.Pairwise (fun x y => y.priority ≤ x.priority) → (Run.enterCall c r o).1 =
      Run.beginPass c ((r.setCallCounter id).setCalls
        (r.calls.filter (fun x => o.priority ≤ x.priority) ++
          k :: r.calls.filter (fun x => x.priority < o.priority))) id))

/-- A merge joins the sets and the repeats and keeps every other field. WITHDRAW_CALL removes the
record of an id or every record of an origin, each with CALL_WITHDRAWN, and answers their number; a
removal silences the areas that play the call, tells its originator and selects for the areas freed.
A merge selects for every area of the record's pending set.
The order in which a removal silences areas and amplifiers is the model's (log 48).
An originator told of a removal (axis, zone or monitor) has no call id any more where it held the id of
the record removed. -/
def Obligations.MergesAndWithdrawals : Prop :=
  (∀ (c : Tables) (r : Run) (o : CallOffer) (k : Call),
    let k' := mergeInto r o k
    let endless := k.repeats = 0 ∨ o.repeats = 0
    k' = { k with areas := k'.areas, pending := k'.pending, repeats := k'.repeats
                  remaining := k'.remaining } ∧
    (∀ i : Fin 16, (k'.areas.getLsbD i.val = true ↔
        k.areas.getLsbD i.val = true ∨ o.areas.getLsbD i.val = true) ∧
      (k'.pending.getLsbD i.val = true ↔ k.pending.getLsbD i.val = true ∨
        k.phase = .pass ∧ o.areas.getLsbD i.val = true ∧ r.areas[i].state ≠ .unavailable ∧
          k.playing.getLsbD i.val = false)) ∧
    (endless → k'.repeats = 0 ∧ k'.remaining = 0) ∧
    (¬endless → k'.repeats = max k.repeats o.repeats ∧
      k'.remaining = max k.remaining o.repeats) ∧
    (let r' := r.setCalls (r.calls.map fun x => if x.id = k.id then k' else x);
      (k.phase = .gap → Run.mergeCall c r o k = r') ∧
      (k.phase = .pass →
        Run.mergeCall c r o k = Run.selectAreas c r' k'.pending) ∧
      (k.phase = .waiting → (∀ i : Fin 16, k'.areas.getLsbD i.val = true →
        r.areas[i].state = .unavailable) → Run.mergeCall c r o k = r') ∧
      (k.phase = .waiting → (∃ i : Fin 16, k'.areas.getLsbD i.val = true ∧
        r.areas[i].state ≠ .unavailable) →
        Run.mergeCall c r o k = Run.beginPass c r' k.id))) ∧
  (∀ (s : State) (src dst : Word) (tag : Byte), Reaches s dst .calls →
    let c := s.cfg
    let r := s.run
    let req : Req := { src, dst, tag }
    let drop := fun (r : Run) (k : Call) =>
      (Run.removeCall c r k.id).raise .callWithdrawn k.id k.origin.code
    (∀ id : Nat, 1 ≤ id → id ≤ 255 →
      (∀ k, findCall r id = some k → exec (.withdrawCall src dst tag (b1 0 ++ b2 id)) s =
        answered s (drop r k) req (.ok, 1) []) ∧
      (findCall r id = none → exec (.withdrawCall src dst tag (b1 0 ++ b2 id)) s =
        answered s r req (.state, 0) [])) ∧
    (∀ (o : CallOrigin),
      let found := r.calls.filter fun k => k.origin = o
      exec (.withdrawCall src dst tag (b1 1 ++ w2 o.code)) s =
        answered s (found.foldl drop r) req (.ok, det found.length) [])) ∧
  (∀ (c : Tables) (r : Run) (id : Nat),
    (findCall r id = none → Run.removeCall c r id = r) ∧
    (∀ k, findCall r id = some k →
      let quiet := (areasOf k.playing).foldl (fun r i =>
        ((r.areas[i].awaited.map (·.node)).foldl
          (fun r n => (Run.offerFrame c r n 0x11 [] (.stopPlay i)).1) r).modArea i fun x =>
          { x with state := .idle, callId := none, message := none, awaited := []
                   playTimer := none }) r
      Run.removeCall c r id = Run.selectAreas c
        ((quiet.setCalls (quiet.calls.filter fun x => x.id ≠ id)).tellEnded k.origin id)
        k.playing)) ∧
  (∀ (r : Run) (id : Nat),
    r.tellEnded .bridge id = r ∧
    (∀ a : Fin 6,
      (r.axes[a].callId = some id → r.tellEnded (.axis a) id =
        r.modAxis a fun x => { x with callId := none }) ∧
      (r.axes[a].callId ≠ some id → r.tellEnded (.axis a) id = r)) ∧
    (∀ z : Fin 8,
      (r.zones[z].callId = some id → r.tellEnded (.zone z) id =
        r.modZone z fun x => { x with callId := none }) ∧
      (r.zones[z].callId ≠ some id → r.tellEnded (.zone z) id = r)) ∧
    (∀ m : Fin 16,
      (r.monitors[m].callId = some id → r.tellEnded (.monitor m) id =
        r.modMonitor m fun x => { x with callId := none }) ∧
      (r.monitors[m].callId ≠ some id → r.tellEnded (.monitor m) id = r)))

/-- PLAY_TIMER_EXPIRY stops the amplifiers and ends the play: the area idles, leaves the playing set
of its call, the pass of the call is judged and the area is selected for. A pass that is done takes
the call into its gap, for as long as repeats remain, or removes it with CALL_DONE. GAP_EXPIRY
begins the call's next pass: its areas that are not UNAVAILABLE are owed a play and selected for, or
the call waits when there is none. Selection starts the first owed call in an IDLE area and preempts
a play of lower priority. An expiry whose timer does not run changes nothing, which is the model's
choice (log 2).
The order of several STOP_PLAY frames is the model's (log 48). -/
def Obligations.PlaysAndPassesFollow : Prop :=
  ((∀ (s : State) (i : Fin 16),
     let c := s.cfg
     let r := s.run
     (r.areas[i].playTimer = none → exec (.playTimerExpiry i) s = closed s r) ∧
     (r.areas[i].playTimer.isSome = true → exec (.playTimerExpiry i) s =
       closed s (Run.endPlay c ((r.areas[i].awaited.map (·.node)).foldl
        (fun r n => (Run.offerFrame c r n 0x11 [] (.stopPlay i)).1) r) i .idle))) ∧
   (∀ (c : Tables) (r : Run) (i : Fin 16) (final : AreaState), final ≠ .playing →
     let ended := r.modArea i fun x =>
       { x with state := final, callId := none, message := none, awaited := [], playTimer := none }
     let next := fun (r : Run) => if r.areas[i].state = .idle then Run.selectArea c r i else r
     (r.areas[i].callId = none → Run.endPlay c r i final = next ended) ∧
     (∀ id, r.areas[i].callId = some id → Run.endPlay c r i final =
       next (Run.judgePass c (ended.setCalls (ended.calls.map fun k =>
         if k.id = id then { k with playing := k.playing &&& ~~~(BitVec.twoPow 16 i.val) }
         else k)) id))) ∧
   (∀ (c : Tables) (r : Run) (id : Nat) (k : Call), findCall r id = some k →
     let counted := r.setCalls (r.calls.map fun k =>
       if k.id = id then { k with remaining := k.remaining - 1 } else k)
     (¬(k.phase = .pass ∧ k.pending = 0 ∧ k.playing = 0) → Run.judgePass c r id = r) ∧
     (k.phase = .pass → k.pending = 0 → k.playing = 0 →
       (k.repeats = 0 → Run.judgePass c r id = Run.beginGap c r k) ∧
       (k.repeats ≠ 0 → 1 < k.remaining → Run.judgePass c r id = Run.beginGap c counted k) ∧
       (k.repeats ≠ 0 → k.remaining ≤ 1 → Run.judgePass c r id =
         (Run.removeCall c r id).raise .callDone id k.origin.code)) ∧
     (k.gap = 0 → Run.beginGap c r k = Run.beginPass c r id) ∧
     (k.gap ≠ 0 → Run.beginGap c r k = r.setCalls (r.calls.map fun x =>
       if x.id = id then { x with phase := .gap, gapTimer := some (sec k.gap) } else x)))) ∧
  ((∀ (s : State) (id : Nat),
     (∀ k, findCall s.run id = some k → k.gapTimer.isSome = true →
       exec (.gapExpiry id) s = closed s (Run.beginPass s.cfg s.run id)) ∧
     (findCall s.run id = none ∨ (∃ k, findCall s.run id = some k ∧ k.gapTimer = none) →
       exec (.gapExpiry id) s = closed s s.run)) ∧
   (∀ (c : Tables) (r : Run) (id : Nat) (k : Call), findCall r id = some k → ∃ owed : AreaSet,
     (∀ i : Fin 16, owed.getLsbD i.val = true ↔
       k.areas.getLsbD i.val = true ∧ r.areas[i].state ≠ .unavailable) ∧
     (owed = 0 → Run.beginPass c r id = r.setCalls (r.calls.map fun x => if x.id = id then
       { x with phase := .waiting, pending := 0, playing := 0, gapTimer := none } else x)) ∧
     (owed ≠ 0 → Run.beginPass c r id =
       ((List.finRange 16).filter fun i => owed.getLsbD i.val).foldl (Run.selectArea c)
         (r.setCalls (r.calls.map fun x => if x.id = id then
           { x with phase := .pass, pending := owed, playing := 0, gapTimer := none } else x)))) ∧
   (∀ (c : Tables) (r : Run) (i : Fin 16),
     let first := r.calls.find? fun k => k.phase == .pass && k.pending.getLsbD i.val
     (first = none ∨ r.areas[i].state = .unavailable → Run.selectArea c r i = r) ∧
     (∀ k, first = some k → r.areas[i].state = .idle →
       Run.selectArea c r i = Run.startPlay c r i k []) ∧
     (∀ k id x, first = some k → r.areas[i].state = .playing → r.areas[i].callId = some id →
       findCall r id = some x →
       (k.priority ≤ x.priority → Run.selectArea c r i = r) ∧
       (x.priority < k.priority → Run.selectArea c r i =
         Run.startPlay c (r.setCalls (r.calls.map fun y => if y.id = id then
           { y with pending := y.pending ||| BitVec.twoPow 16 i.val
                    playing := y.playing &&& ~~~(BitVec.twoPow 16 i.val) } else y))
           i k r.areas[i].awaited))))

/-- A play is started by PLAY to every LIVE amplifier of the area, and STOP_PLAY to those of a preempted
play that did not take it. The completion of the PLAY last offered arms its amplifier or takes it out of
the awaited set, whose emptying ends the play. An amplifier that returns playing is silenced, and an armed
one that no longer plays the message leaves the play. With no amplifier LIVE the area becomes
UNAVAILABLE, with AREA_UNAVAILABLE, and leaves every pending set, the passes judged in ascending call id
(R175); with one LIVE again it comes back, with AREA_BACK unless its start mark is set, and the waiting
calls begin their passes in queue order, which is the model's (log 49). -/
def Obligations.AreasFollowTheirAmplifiers : Prop :=
  (∀ (c : Tables) (r : Run) (i : Fin 16) (k : Call) (former : List Awaited),
    let offered := c.areas[i].foldl (Run.offerPlay c i k.message) (r, [])
    let stops := fun (u : Run) => (c.areas[i].filter fun n =>
        (∃ w ∈ former, w.node = n) ∧ ∀ w ∈ offered.2, w.node ≠ n).foldl
      (fun u n => (Run.offerFrame c u n 0x11 [] (.stopPlay i)).1) u
    let go := Run.startPlay c r i k former
    (offered.2 = [] → go = stops (offered.1.modArea i fun x =>
      { x with state := .idle, callId := none, message := none, awaited := []
               playTimer := none })) ∧
    (offered.2 ≠ [] → go = stops
      (let u := offered.1.modArea i fun x =>
        { x with state := .playing, callId := some k.id, message := some k.message
                 awaited := offered.2, playTimer := some (sec k.limit) }
      u.setCalls (u.calls.map fun x => if x.id = k.id then
        { x with pending := x.pending &&& ~~~(BitVec.twoPow 16 i.val)
                 playing := x.playing ||| BitVec.twoPow 16 i.val } else x))) ∧
    (∀ (message : Nat) (acc : Run × List Awaited) (n : NodeId),
      let o := Run.offerFrame c (acc.1.setSerial (acc.1.serial + 1)) n 0x10 (b2 message)
        (.play i acc.1.serial)
      ((nodeRt acc.1 n).liveness ≠ .live → Run.offerPlay c i message acc n = acc) ∧
      ((nodeRt acc.1 n).liveness = .live →
        (o.2 = .accepted → Run.offerPlay c i message acc n =
          (o.1, acc.2 ++ [{ node := n, armed := false, message, serial := acc.1.serial }])) ∧
        (o.2 ≠ .accepted → Run.offerPlay c i message acc n = (o.1, acc.2))))) ∧
  (∀ (c : Tables) (r : Run) (i : Fin 16),
    (∀ (serial : Nat) (k : Completion),
      let last := r.areas[i].awaited.find? fun w => w.serial = serial
      let go := Run.playCompleted c r i serial k
      (last = none → go = r) ∧
      (∀ w, last = some w →
        (∀ code payload, k = .ok code payload → go = r.modArea i fun x =>
          { x with awaited := x.awaited.map fun v =>
              if v.serial = serial then { v with armed := true } else v }) ∧
        (∀ m, k = .noAnswer m → go = Run.leaveAwaited c r i w.node) ∧
        (k = .nodeLost ∨ k = .trunkDown → go = r))) ∧
    (∀ n : NodeId,
      let there := ∃ w ∈ r.areas[i].awaited, w.node = n
      let left := r.areas[i].awaited.filter fun w => w.node ≠ n
      let u := r.modArea i fun x => { x with awaited := left }
      (¬there → Run.leaveAwaited c r i n = r) ∧
      (there → left = [] → r.areas[i].state = .playing →
        Run.leaveAwaited c r i n = Run.endPlay c u i .idle) ∧
      (there → left ≠ [] ∨ r.areas[i].state ≠ .playing → Run.leaveAwaited c r i n = u)) ∧
    (∀ (n : NodeId) (before : Liveness) (st : AmpStatus),
      let returns := (before = .unknown ∨ before = .lost) ∧ ∃ m, st = .playing m
      let ends := r.areas[i].state = .playing ∧ (∃ w ∈ r.areas[i].awaited, w.node = n ∧
        w.armed = true) ∧ ∀ m, st = .playing m → r.areas[i].message ≠ some m
      let chosen := fun (u : Run) =>
        if u.areas[i].state = .idle then Run.selectArea c u i else u
      (returns → Run.silenceReturn c n before st r i =
        (Run.offerFrame c r n 0x11 [] (.stopPlay i)).1) ∧
      (¬returns → Run.silenceReturn c n before st r i = r) ∧
      (ends → Run.ampReply c n st r i = chosen (Run.leaveAwaited c r i n)) ∧
      (¬ends → Run.ampReply c n st r i = chosen r)) ∧
    (∀ (n : NodeId) (before : Liveness) (payload : List Byte),
      let pushed := fun (u : Run) => if before = .live then u else Run.ampChanged c n .live u i
      let go := Run.ampFanOut c n before payload r i
      (payload.length < 3 → go = pushed r) ∧
      ∀ s m1 m2 rest, payload = s :: m1 :: m2 :: rest →
        let m := (m1 ++ m2 : Word).toNat
        let reads := fun (st : AmpStatus) =>
          go = Run.ampReply c n st (pushed (Run.silenceReturn c n before st r i)) i
        (s.toNat = 0 → reads .idle) ∧ (s.toNat = 1 → reads (.playing m)) ∧
        (s.toNat = 2 → reads (.done m)) ∧ (2 < s.toNat → go = pushed r)) ∧
    (∀ (n : NodeId) (l : Liveness),
      (l = .lost ∨ l = .unknown → Run.ampChanged c n l r i =
        Run.judgeArea c (Run.leaveAwaited c r i n) i) ∧
      (l = .live ∨ l = .missing → Run.ampChanged c n l r i = Run.judgeArea c r i))) ∧
  (∀ (c : Tables) (r : Run) (i : Fin 16),
    let alive := ∃ n ∈ c.areas[i], (nodeRt r n).liveness = .live
    let x := r.areas[i]
    let go := Run.judgeArea c r i
    let gone := fun (u : Run) => Run.dropArea c (u.raise .areaUnavailable i.val 0) i
    (alive → x.state ≠ .unavailable → go = r) ∧
    (¬alive → x.state = .unavailable → go = r) ∧
    (¬alive → x.state = .idle → go = gone (r.modArea i fun x =>
      { x with state := .unavailable, callId := none, message := none, awaited := []
               playTimer := none })) ∧
    (¬alive → x.state = .playing → go = gone (Run.endPlay c
      (((x.awaited.map (·.node)).filter fun n => (nodeRt r n).liveness = .live ∨
          (nodeRt r n).liveness = .missing).foldl
        (fun u n => (Run.offerFrame c u n 0x11 [] (.stopPlay i)).1) r) i .unavailable)) ∧
    (alive → x.state = .unavailable →
      let back := r.modArea i fun x => { x with state := .idle, startMark := false }
      let told := if x.startMark then back else back.raise .areaBack i.val 0
      go = Run.selectArea c ((told.calls.filter fun k => k.phase = .waiting ∧
        k.areas.getLsbD i.val = true).foldl (fun u k => Run.beginPass c u k.id) told) i) ∧
    ∃ ids : List Nat, ids.Pairwise (· ≤ ·) ∧
      (∀ id, id ∈ ids ↔ ∃ k ∈ r.calls, k.id = id ∧ k.pending.getLsbD i.val = true) ∧
      Run.dropArea c r i = ids.foldl (Run.judgePass c) (r.setCalls (r.calls.map fun k =>
        { k with pending := k.pending &&& ~~~(BitVec.twoPow 16 i.val) })))

/-! ### Channels and monitors (chapter 8) -/

/-- ENABLE, DISABLE and MONITOR_RESTART by the monitor's state, and the graph check that ENABLE
makes: a state fails it that is in use and names one that is not, or state 0 when it is not in use, and
the detail names the first that fails; that a failed reference counts to the state that names it is the
model's choice (log 24). The withdrawal of the monitor's call stands in StatesAreEnteredInOrder. HOLD_TIMER_EXPIRY
and TIMEOUT_TIMER_EXPIRY enter the next state. An expiry whose timer does not run changes nothing,
which is the model's choice (log 2). -/
def Obligations.MonitorRequestsAndTimers : Prop :=
  (∀ (s : State) (src dst : Word) (tag : Byte) (m : Fin 16), Reaches s dst (.monitor m) →
    let c := s.cfg
    let r := s.run
    let x := r.monitors[m]
    let done := fun (i : Instr) (r : Run) (v : Verdict) =>
      exec i s = answered s r { src, dst, tag } v []
    let enable : Instr := .enable src dst tag []
    let disable : Instr := .disable src dst tag []
    let restart : Instr := .monitorRestart src dst tag []
    let stands := fun (r : Run) => det r.monitors[m].current.val
    let entered := Run.enterState c (r.modMonitor m fun x => { x with enabled := true }) m 0
    let again := Run.enterState c r m 0
    (x.enabled = true → done enable r (.ok, stands r)) ∧
    (x.enabled = false → c.monitors[m].configured = false → done enable r (.state, 0)) ∧
    (x.enabled = false → c.monitors[m].configured = true →
      (graphFailure c m = none → done enable entered (.ok, stands entered)) ∧
      (∀ k, graphFailure c m = some k → done enable r (.state, det (16 + k.val)))) ∧
    (x.enabled = true → done disable ((Run.withdrawInternal c (r.modMonitor m fun x =>
        { x with holdTimer := none, timeoutTimer := none }) x.callId).modMonitor m fun x =>
        { x with callId := none, derate := none, enabled := false }) (.ok, stands r)) ∧
    (x.enabled = false → done disable r (.ok, stands r)) ∧
    (x.enabled = true → done restart again (.ok, stands again)) ∧
    (x.enabled = false → done restart r (.state, 0))) ∧
  (∀ (c : Tables) (m : Fin 16),
    let used := fun (k : Fin 8) => (mstate c m k).inUse = true
    let sound := fun (k : Fin 8) => used (mstate c m k).onHold ∧
      ((mstate c m k).timeout ≠ 0 → used (mstate c m k).onTimeout) ∧
      ∀ j, (mstate c m k).onStale = some j → used j
    (graphFailure c m = none ↔ used 0 ∧ ∀ k, used k → sound k) ∧
    ∀ k, graphFailure c m = some k ↔
      ¬used 0 ∧ k = 0 ∨ used 0 ∧ used k ∧ ¬sound k ∧ ∀ j < k, used j → sound j) ∧
  (∀ (s : State) (m : Fin 16),
    let x := s.run.monitors[m]
    let k := mstate s.cfg m x.current
    let goes := fun (j : Fin 8) => closed s (Run.enterState s.cfg s.run m j)
    (x.holdTimer = none → exec (.holdTimerExpiry m) s = closed s s.run) ∧
    (x.holdTimer.isSome = true → exec (.holdTimerExpiry m) s = goes k.onHold) ∧
    (x.timeoutTimer = none → exec (.timeoutTimerExpiry m) s = closed s s.run) ∧
    (x.timeoutTimer.isSome = true → exec (.timeoutTimerExpiry m) s = goes k.onTimeout))

/-- The entry of a state: timers stopped and lasting actions withdrawn, the state, its action, its
timeout, and its hold when its test is met; a hold of 0 moves on at once, up to eight entries of one
monitor in one event.
That the limit counts a monitor's entries within one command, and that MONITOR_EVENT is raised only
where a hold of 0 is cut, is the model's reading (log 40).
A monitor's call is withdrawn by its id, as its record is removed and with no event of its own; without an
id nothing is withdrawn. -/
def Obligations.StatesAreEnteredInOrder : Prop :=
  ∀ (c : Tables) (r : Run) (m : Fin 16) (j : Fin 8),
    let k := mstate c m j
    let left := (((Run.withdrawInternal c (r.modMonitor m fun x =>
      { x with holdTimer := none, timeoutTimer := none }) r.monitors[m].callId).modMonitor m fun x =>
      { x with callId := none, derate := none, current := j }))
    let stood := left.setEntered (m :: r.entered)
    let acted := Run.enterAction c stood m j
    let steps := if k.timeout = 0 then acted else acted.modMonitor m fun x =>
      { x with timeoutTimer := some (sec k.timeout) }
    let met := ∃ v, steps.channels[k.channel].value = some v ∧
      steps.channels[k.channel].stale = false ∧
      ((k.test = .above ∧ k.threshold < v) ∨ (k.test = .below ∧ v < k.threshold))
    let go := Run.enterState c r m j
    (¬met → go = steps) ∧
    (met → k.hold ≠ 0 → go = steps.modMonitor m fun x => { x with holdTimer := some (ms k.hold) }) ∧
    (met → k.hold = 0 → 8 ≤ (m :: r.entered).count m →
      go = steps.raise .monitorEvent m.val (det2 8 j.val)) ∧
    (met → k.hold = 0 → (m :: r.entered).count m < 8 →
      go = Run.enterState c steps m k.onHold) ∧
    go.entered.count m ≤ max 8 (r.entered.count m + 1) ∧
    (k.action = .none → Run.enterAction c r m j = r) ∧
    (∀ code, k.action = .event code →
      Run.enterAction c r m j = r.raise .monitorEvent m.val (det2 j.val code)) ∧
    (∀ message areas priority repeats, k.action = .call message areas priority repeats →
      Run.enterAction c r m j =
        (let p := Run.placeInternal c r
          { message, areas, priority, repeats, gap := 0, limit := c.param.playLimit
            origin := .monitor m }
        p.1.modMonitor m fun x => { x with callId := p.2 })) ∧
    (∀ z fire, k.action = .closeZone z fire →
      Run.enterAction c r m j = Run.requestClosure c r z (2 + m.val) fire) ∧
    (∀ v axes, k.action = .derate v axes → Run.enterAction c r m j =
      r.modMonitor m fun x => { x with derate := some (v, axes) }) ∧
    (∀ o high, k.action = .output o high → Run.enterAction c r m j =
      r.modOutput o fun _ => { high, setBy := .monitor m }) ∧
    (Run.withdrawInternal c r none = r ∧
      ∀ id, Run.withdrawInternal c r (some id) = Run.removeCall c r id)

/-- STALE_TIMER_EXPIRY turns a channel stale and moves the monitors that read it. A good reply
renews every channel whose field it holds, and then the monitors that read one of them are judged on
its new value: the hold starts, runs on or stops. An expiry whose timer does not run changes
nothing, which is the model's choice (log 2).
That MONITOR_STALE follows the events of the entry it reports is the model's choice (log 27), and the cut
of a hold of 0 at a monitor's eighth entry its reading (log 40). -/
def Obligations.ChannelsRenewAndTurnStale : Prop :=
  (∀ (s : State) (ch : Fin 32),
    let c := s.cfg
    let r := s.run.modChannel ch fun x => { x with stale := true, timer := none }
    let judge := fun (r : Run) (m : Fin 16) =>
      let k := mstate c m r.monitors[m].current
      if r.monitors[m].enabled = true ∧ k.channel = ch then
        match k.onStale with
        | some j =>
          (Run.enterState c r m j).raise .monitorStale m.val (det2 ch.val j.val)
        | none =>
          (r.modMonitor m fun x => { x with holdTimer := none }).raise .monitorStale m.val
            (det2 ch.val 255)
      else r
    (s.run.channels[ch].timer = none → exec (.staleTimerExpiry ch) s = closed s s.run) ∧
    (s.run.channels[ch].timer.isSome = true → s.run.channels[ch].stale = true →
      exec (.staleTimerExpiry ch) s = closed s r) ∧
    (s.run.channels[ch].timer.isSome = true → s.run.channels[ch].stale = false →
      exec (.staleTimerExpiry ch) s = closed s ((List.finRange 16).foldl judge r))) ∧
  (∀ (c : Tables) (r : Run) (n : NodeId) (payload : List Byte),
    (∀ ch : Fin 32, c.channels[ch].width = 1 ∨ c.channels[ch].width = 2) →
    let shown := fun (ch : Fin 32) => c.channels[ch].configured = true ∧
      c.channels[ch].source = n ∧ c.channels[ch].offset + c.channels[ch].width ≤ payload.length
    ∃ renewed : Run, (∀ ch : Fin 32,
        (¬shown ch → renewed.channels[ch] = r.channels[ch]) ∧
        (shown ch → ∃ v : Int, renewed.channels[ch] = (ChannelRt.mk (some v) false
            (some (ms c.channels[ch].staleLimit))) ∧
          ∀ hi lo : Byte, payload[c.channels[ch].offset]? = some hi →
            (c.channels[ch].width = 1 →
              v = if c.channels[ch].signed then hi.toInt else (hi.toNat : Int)) ∧
            (c.channels[ch].width = 2 → payload[c.channels[ch].offset + 1]? = some lo →
              v = if c.channels[ch].signed then (hi ++ lo).toInt else ((hi ++ lo).toNat : Int)))) ∧
      renewed = { r with channels := renewed.channels } ∧
      Run.channelReply c r n payload = (List.finRange 16).foldl
        (Run.judgeRenewal c ((List.finRange 32).filter fun ch => shown ch)) renewed) ∧
  (∀ (c : Tables) (r : Run) (l : List (Fin 32)) (m : Fin 16),
    let x := r.monitors[m]
    let k := mstate c m x.current
    let met := ∃ v, r.channels[k.channel].value = some v ∧ r.channels[k.channel].stale = false ∧
      ((k.test = .above ∧ k.threshold < v) ∨ (k.test = .below ∧ v < k.threshold))
    (x.enabled = false ∨ k.channel ∉ l → Run.judgeRenewal c l r m = r) ∧
    (x.enabled = true → k.channel ∈ l →
      (¬met → Run.judgeRenewal c l r m = r.modMonitor m fun x => { x with holdTimer := none }) ∧
      (met → x.holdTimer.isSome = true → Run.judgeRenewal c l r m = r) ∧
      (met → x.holdTimer = none → k.hold ≠ 0 → Run.judgeRenewal c l r m =
        r.modMonitor m fun x => { x with holdTimer := some (ms k.hold) }) ∧
      (met → x.holdTimer = none → k.hold = 0 → r.entered.count m < 8 →
        Run.judgeRenewal c l r m = Run.enterState c r m k.onHold) ∧
      (met → x.holdTimer = none → k.hold = 0 → 8 ≤ r.entered.count m →
        Run.judgeRenewal c l r m = r.raise .monitorEvent m.val (det2 8 x.current.val))))

/-! ### Lines and lamps (chapter 9) -/

/-- RAW_LEVEL_CHANGE starts the filter toward the new level or stops it; LINE_FILTER_EXPIRY accepts
the level, raises LINE_EDGE and, for line 1, SERVICE_MODE, and in CONFIGURED hands an active level
to the line's owner. An expiry whose timer does not run changes nothing, which is the model's choice
(log 2). -/
def Obligations.LinesAreFilteredAndHandedOver : Prop :=
  (∀ (s : State) (l : Fin 14) (active : Bool),
    let x := s.run.lines[l]
    (x.raw = active → exec (.rawLevelChange l active) s = closed s s.run) ∧
    (x.raw ≠ active → x.accepted = active → exec (.rawLevelChange l active) s =
      closed s (s.run.modLine l fun x => { x with raw := active, filterTimer := none })) ∧
    (x.raw ≠ active → x.accepted ≠ active → exec (.rawLevelChange l active) s =
      closed s (s.run.modLine l fun x =>
        { x with raw := active, filterTimer := some (ms s.cfg.lines[l].filter) }))) ∧
  (∀ (s : State) (l : Fin 14),
    let c := s.cfg
    let k := c.lines[l]
    let level := s.run.lines[l].raw
    let r := s.run.modLine l fun x => { x with accepted := level, filterTimer := none }
    let told := k.event = true ∧ (k.edge = .both ∨ k.edge = .rising ∧ level = true ∨
      k.edge = .falling ∧ level = false)
    let edged := if told then r.raise .lineEdge l.val (if level then 1 else 0) else r
    let moded := if l = 1 then edged.raise .serviceMode 1 (if level then 1 else 0) else edged
    let goes := fun r => exec (.lineFilterExpiry l) s = closed s r
    (s.run.lines[l].filterTimer = none → goes s.run) ∧
    (s.run.lines[l].filterTimer.isSome = true →
      (s.run.gw = .loading → goes r) ∧
      (s.run.gw = .unconfigured → goes moded) ∧
      (s.run.gw = .configured ∨ s.run.gw = .storing →
        (level = false → goes moded) ∧
        (level = true → l = 0 → goes (Run.estopPushed c moded)) ∧
        (level = true → l = 1 → goes (Run.serviceOn c moded)) ∧
        (∀ z : Fin 8, level = true → l.val = z.val + 2 →
          goes (Run.requestClosure c moded z 1 true)) ∧
        (level = true → 10 ≤ l.val → goes moded)))) ∧
  (∀ (c : Tables) (r : Run),
    Run.estopPushed c r = (List.finRange 6).foldl (fun r a =>
      if InMotion r.axes[a] ∨ r.axes[a].state = .halted then Run.halt c r a .estop else r) r ∧
    (let ended := (if r.plan.running then
        (r.setPlan { r.plan with running := false, steps := [] }).raise .planAborted 0
          (det2 r.plan.current 7) else r);
      Run.serviceOn c r = (List.finRange 6).foldl (fun r a =>
          if r.axes[a].origin = .bridge then Run.stopAxis c r a else r)
        ((List.finRange 6).foldl (fun r a =>
          if c.axes[a].configured = true ∧ r.axes[a].control = .bridge then
            (r.modAxis a fun x => { x with control := .localPanel }).raise .controlChange
              (a.val + 1) 1 else r) ended)))

/-- FLASH_PHASE_EXPIRY starts the other phase of its generator; SHIFT_END shows the image in shift
and shifts a waiting one; LAMP_TEST_EXPIRY starts both generators again. Each lamp is lit by its
source and style, or by the test, and a changed image goes to the shifter. An expiry whose timer
does not run changes nothing, which is the model's choice (log 2).
A shift carries the lamps' levels on the data line, one clock pulse of 10 microseconds each and the last
lamp first, and none during the latch pulse.
The value a lamp reads from its source is the one of the table of section 9.3.
An image equal to the last one made is not handed to the shifter again, at a lamp test's start or end
either: the model's choice (log 63). -/
def Obligations.LampsFollowTheirSources : Prop :=
  (
  (∀ s : State,
    let c := s.cfg
    let x := s.run.chain
    let lit := fun (period : Nat) => period * c.param.duty / 100
    let phase := fun (period : Nat) (on : Bool) =>
      ({ lit := on, timer := some (ms (if on then lit period else period - lit period)) } : FlashRt)
    let goes := fun (i : Instr) (x : Chain) => exec i s = closed s (s.run.setChain x)
    (x.slow.timer = none → goes (.flashPhaseExpiry .slow) x) ∧
    (x.slow.timer.isSome = true → goes (.flashPhaseExpiry .slow)
      { x with slow := phase c.param.slowPeriod (!x.slow.lit) }) ∧
    (x.fast.timer = none → goes (.flashPhaseExpiry .fast) x) ∧
    (x.fast.timer.isSome = true → goes (.flashPhaseExpiry .fast)
      { x with fast := phase c.param.fastPeriod (!x.fast.lit) }) ∧
    (x.shiftTimer = none → goes .shiftEnd x) ∧
    (∀ w, x.shiftTimer.isSome = true → x.inShift = some w →
      (x.waiting = none → goes .shiftEnd { x with shown := w, inShift := none, shiftTimer := none }) ∧
      (∀ v, x.waiting = some v → goes .shiftEnd
        { x with shown := w, inShift := some v, waiting := none
                 shiftTimer := some (10 * v.length + 10)})) ∧
    (x.lampTest = none → goes .lampTestExpiry x) ∧
    (x.lampTest.isSome = true → goes .lampTestExpiry
      { x with lampTest := none, slow := phase c.param.slowPeriod true
               fast := phase c.param.fastPeriod true })) ∧
  (∀ (c : Tables) (r : Run),
    let w := chainImage c r
    (w = r.chain.last → Run.judgeImage c r = r) ∧
    (w ≠ r.chain.last → r.chain.inShift = none → Run.judgeImage c r = r.setChain
      { r.chain with last := w, inShift := some w, shiftTimer := some (10 * w.length + 10) }) ∧
    (w ≠ r.chain.last → r.chain.inShift ≠ none → Run.judgeImage c r = r.setChain
      { r.chain with last := w, waiting := some w }) ∧
    (c.param.stageCount ≤ 8 → w.length = 8 * c.param.stageCount) ∧
    (∀ i : Fin 64, i.val < 8 * c.param.stageCount → ∃ b : Bool, w[i.val]? = some b ∧
      (b = true ↔ r.chain.lampTest ≠ none ∨ ∃ v k, lampValue r c.lamps[i].source = some v ∧
        c.lamps[i].styles.find? (fun p => p.1 == v) = some (v, k) ∧
        (k = .on ∨ k = .slow ∧ r.chain.slow.lit = true ∨ k = .fast ∧ r.chain.fast.lit = true))))) ∧
  (∀ (x : Chain) (w : List Bool) (left : Nat), x.inShift = some w → x.shiftTimer = some left →
    (∀ i lit, w[i]? = some lit → 10 * (i + 1) < left → left ≤ 10 * (i + 2) →
      x.dataLine = some lit) ∧
    (left ≤ 10 → left ≤ 10 * w.length + 10 → x.dataLine = none)) ∧
  (∀ x : Chain, x.inShift = none ∨ x.shiftTimer = none → x.dataLine = none) ∧
  (∀ r : Run,
    lampValue r .none = none ∧
    (∀ a : Fin 6, lampValue r (.axis a) = some (match r.axes[a].state with
      | .offline => 0 | .locked => 1 | .unlocking => 2 | .still => 3 | .moving => 4
      | .stopping => 5 | .locking => 6 | .halted => 7)) ∧
    (∀ z : Fin 8, lampValue r (.zone z) = some (match r.zones[z].state with
      | .clear => 0 | .warning => 1 | .closing => 2 | .sealed => 3 | .incomplete => 4)) ∧
    (∀ d : Fin 32, lampValue r (.door d) = some (match r.doors[d].state with
      | .offline => 0 | .opened => 1 | .opening => 2 | .closing => 3 | .closed => 4
      | .obstructed => 5 | .transit => 6 | .fault => 7)) ∧
    (∀ l : Fin 14, lampValue r (.line l) = some (if r.lines[l].accepted = true then 1 else 0)) ∧
    (∀ m : Fin 16, lampValue r (.monitor m) = some r.monitors[m].current.val) ∧
    (∀ t : Fin 4, lampValue r (.trunk t) = some (match r.trunks[t].state with
      | .down => 0 | .held => 1 | .settling => 2 | .running => 3)))

/-! ### The external memory (chapter 11) -/

/-- A request that reaches a function is judged on its form first, field by field: a code the function
does not take, and a request without a code, is refused with detail 0; a field that is missing or
outside its range with its number, counted from 1 behind the code; bytes behind the last field with
the number that the next field would have. The list of steps of a PLAN START is one field, and so is
the origin or id of a WITHDRAW CALL. Which number each field has is the model's reading of the
layouts (log 4, log 21), that a request is read by the function its station is routed to is
log 3, and that a WITHDRAW CALL with an origin code that chapter 7 does not list is refused with the
origin's number is log 6.
A function request whose station has no route is answered NO_ROUTE, and one whose station is routed to a
node BAD_REQUEST, both with detail 0. -/
def Obligations.FormsAreJudgedFirst : Prop :=
  (
  ∀ (s : State) (src dst : Word) (tag : Byte) (f : Function), Reaches s dst f →
    let no := fun (i : Instr) (field : Nat) =>
      exec i s = answered s s.run { src, dst, tag } (.badRequest, det field) []
    let taken : Nat := match f with
      | .axis _ => 7
      | .plan | .zone _ | .monitor _ => 3
      | .door _ | .calls | .lines => 2
    -- a code the function does not take, and no code
    (∀ body : List Byte, body.length ≤ 239 →
      (taken < 3 → no (.keep src dst tag body) 0 ∧ no (.planCancel src dst tag body) 0 ∧
        no (.override src dst tag body) 0 ∧ no (.monitorRestart src dst tag body) 0) ∧
      (taken < 4 → no (.release src dst tag body) 0) ∧
      (taken < 5 → no (.take src dst tag body) 0) ∧
      (taken < 6 → no (.grantLocal src dst tag body) 0) ∧
      (taken < 7 → no (.derate src dst tag body) 0)) ∧
    (∀ (code : Nat) (body : List Byte), code = 0 ∨ taken < code →
      functionRequest s.cfg s.run f code body = (s.run, (.badRequest, det 0), [])) ∧
    (Run.functionFrame s.cfg s.run { src, dst, tag } [] =
      Run.answer s.cfg s.run { src, dst, tag } .badRequest 0 []) ∧
    -- the requests without a field
    (∀ (b : Byte) (more : List Byte), more.length ≤ 238 →
      (∀ a, f = .axis a → no (.stop src dst tag (b :: more)) 1 ∧
        no (.keep src dst tag (b :: more)) 1 ∧ no (.release src dst tag (b :: more)) 1 ∧
        no (.take src dst tag (b :: more)) 1 ∧ no (.grantLocal src dst tag (b :: more)) 1) ∧
      (f = .plan → no (.planKeep src dst tag (b :: more)) 1 ∧
        no (.planCancel src dst tag (b :: more)) 1) ∧
      (∀ z, f = .zone z → no (.reopen src dst tag (b :: more)) 1 ∧
        no (.override src dst tag (b :: more)) 1) ∧
      (∀ d, f = .door d → no (.doorOpenRequest src dst tag (b :: more)) 1 ∧
        no (.doorCloseRequest src dst tag (b :: more)) 1) ∧
      (∀ m, f = .monitor m → no (.enable src dst tag (b :: more)) 1 ∧
        no (.disable src dst tag (b :: more)) 1 ∧
        no (.monitorRestart src dst tag (b :: more)) 1) ∧
      (f = .lines → no (.readLines src dst tag (b :: more)) 1)) ∧
    -- MOVE and DERATE
    (∀ (a : Fin 6) (b b' k : Byte) (more : List Byte), f = .axis a → more.length ≤ 235 →
      no (.move src dst tag []) 1 ∧ no (.move src dst tag [b]) 1 ∧ no (.move src dst tag [b, b']) 2 ∧
      (2 ≤ k.toNat → no (.move src dst tag (b :: b' :: k :: more)) 2) ∧
      (k.toNat ≤ 1 → more ≠ [] → no (.move src dst tag (b :: b' :: k :: more)) 3) ∧
      no (.derate src dst tag []) 1 ∧ no (.derate src dst tag [b]) 1 ∧
      (more ≠ [] → no (.derate src dst tag (b :: b' :: more)) 2)) ∧
    -- PLAN START: a count, then five bytes for each step
    (f = .plan → no (.planStart src dst tag []) 1 ∧
      ∀ (n : Byte) (more : List Byte), more.length ≤ 238 →
        (n.toNat = 0 ∨ 8 < n.toNat → no (.planStart src dst tag (n :: more)) 1) ∧
        (more.length < 5 * n.toNat → no (.planStart src dst tag (n :: more)) 1) ∧
        (∀ i, i < n.toNat →
          (∀ x : Byte, more[5 * i]? = some x → x.toNat = 0 ∨ 6 < x.toNat →
            no (.planStart src dst tag (n :: more)) 1) ∧
          (∀ x : Byte, more[5 * i + 3]? = some x → 2 ≤ x.toNat →
            no (.planStart src dst tag (n :: more)) 1) ∧
          (∀ x : Byte, more[5 * i + 4]? = some x → 2 ≤ x.toNat →
            no (.planStart src dst tag (n :: more)) 1)) ∧
        (1 ≤ n.toNat → n.toNat ≤ 8 → 5 * n.toNat < more.length →
          (∀ i, i < n.toNat → ∃ x l k : Byte, more[5 * i]? = some x ∧ 1 ≤ x.toNat ∧ x.toNat ≤ 6 ∧
            more[5 * i + 3]? = some l ∧ l.toNat ≤ 1 ∧ more[5 * i + 4]? = some k ∧ k.toNat ≤ 1) →
          no (.planStart src dst tag (n :: more)) 2)) ∧
    -- zone CLOSE
    (∀ (z : Fin 8) (b b' : Byte) (more : List Byte), f = .zone z → more.length ≤ 237 →
      no (.zoneClose src dst tag []) 1 ∧
      (2 ≤ b.toNat → no (.zoneClose src dst tag (b :: more)) 1) ∧
      (b.toNat ≤ 1 → no (.zoneClose src dst tag (b :: b' :: more)) 2)) ∧
    -- LINES SET OUTPUT
    (∀ (b b' x : Byte) (more : List Byte), f = .lines → more.length ≤ 236 →
      no (.linesSetOutput src dst tag []) 1 ∧
      (4 ≤ b.toNat → no (.linesSetOutput src dst tag (b :: more)) 1) ∧
      (b.toNat < 4 → no (.linesSetOutput src dst tag [b]) 2 ∧
        (2 ≤ b'.toNat → no (.linesSetOutput src dst tag (b :: b' :: more)) 2) ∧
        (b'.toNat ≤ 1 → no (.linesSetOutput src dst tag (b :: b' :: x :: more)) 3))) ∧
    -- WITHDRAW CALL
    (∀ (b hi lo x : Byte) (more : List Byte), f = .calls → more.length ≤ 235 →
      no (.withdrawCall src dst tag []) 1 ∧
      (1 < b.toNat → no (.withdrawCall src dst tag (b :: more)) 1) ∧
      (b.toNat ≤ 1 → no (.withdrawCall src dst tag [b]) 2 ∧
        no (.withdrawCall src dst tag [b, hi]) 2) ∧
      let good := b.toNat = 0 ∧ 1 ≤ (word2 hi lo).toNat ∧ (word2 hi lo).toNat ≤ 255 ∨
        b.toNat = 1 ∧ originOfCode (word2 hi lo) ≠ none
      (b.toNat ≤ 1 → ¬good → no (.withdrawCall src dst tag (b :: hi :: lo :: more)) 2) ∧
      (good → no (.withdrawCall src dst tag (b :: hi :: lo :: x :: more)) 3)) ∧
    -- PLACE CALL: message, areas, priority, repeats, gap, time limit
    (∀ (m1 m2 a1 a2 p n g t x : Byte) (more : List Byte), f = .calls → more.length ≤ 230 →
      no (.placeCall src dst tag []) 1 ∧ no (.placeCall src dst tag [m1]) 1 ∧
      (511 < (word2 m1 m2).toNat → no (.placeCall src dst tag (m1 :: m2 :: more)) 1) ∧
      ((word2 m1 m2).toNat ≤ 511 →
        no (.placeCall src dst tag [m1, m2]) 2 ∧ no (.placeCall src dst tag [m1, m2, a1]) 2 ∧
        (word2 a1 a2 = 0 → no (.placeCall src dst tag (m1 :: m2 :: a1 :: a2 :: more)) 2) ∧
        (word2 a1 a2 ≠ 0 →
          no (.placeCall src dst tag [m1, m2, a1, a2]) 3 ∧
          (7 < p.toNat → no (.placeCall src dst tag (m1 :: m2 :: a1 :: a2 :: p :: more)) 3) ∧
          (p.toNat ≤ 7 →
            no (.placeCall src dst tag [m1, m2, a1, a2, p]) 4 ∧
            no (.placeCall src dst tag [m1, m2, a1, a2, p, n]) 5 ∧
            no (.placeCall src dst tag [m1, m2, a1, a2, p, n, g]) 6 ∧
            (t.toNat = 0 ∨ 120 < t.toNat →
              no (.placeCall src dst tag (m1 :: m2 :: a1 :: a2 :: p :: n :: g :: t :: more)) 6) ∧
            (1 ≤ t.toNat → t.toNat ≤ 120 →
              no (.placeCall src dst tag
                (m1 :: m2 :: a1 :: a2 :: p :: n :: g :: t :: x :: more)) 7)))))) ∧
  (∀ (s : State) (i : Instr) (f : Frame), i.frame = some f → f.kind = kindFunctionRequest →
    f.payload.length ≤ 240 → Listening s → s.run.gw ≠ .unconfigured → f.dst ≠ 0 →
    (findRoute s.cfg f.dst = none → exec i s = answered s s.run f.req (.noRoute, 0) []) ∧
    (∀ n, findRoute s.cfg f.dst = some (.node n) →
      exec i s = answered s s.run f.req (.badRequest, 0) []) ∧
    (∀ g code body, findRoute s.cfg f.dst = some (.function g) → f.payload = code :: body →
      let o := functionRequest s.cfg s.run g code.toNat body
      exec i s = answered s o.1 f.req o.2.1 o.2.2))

/-! ### Invariants of the machine -/

/-- The machine after reset meets every invariant below. -/
def Obligations.ResetMeetsTheInvariants : Prop :=
  Settled State.reset ∧ EventsInOrder State.reset ∧ ConsoleInBounds State.reset ∧
    HaltedHaveCauses State.reset ∧ CallsInOrder State.reset ∧ QueuesInBounds State.reset ∧
    MemoryCanonical State.reset ∧ StoppedBySafety State.reset ∧ TablesSound State.reset ∧
    State.reset.pending = []

/-- Every step leaves the event queue with at most 64 records, numbered consecutively up to the
counter, and a lost count of at most 65535.
Every step leaves at most 32 entries in the outbound queue and at most 16 frames in every command
queue, the two console counts in their range, and the external memory in its canonical form. -/
def Obligations.StepsKeepEventsAndQueuesInBounds : Prop :=
  (
  ∀ s t : State, EventsInOrder s → step s = .next t → EventsInOrder t) ∧
  (
  ∀ s t : State, step s = .next t →
    (ConsoleInBounds s → ConsoleInBounds t) ∧ (QueuesInBounds s → QueuesInBounds t) ∧
      (MemoryCanonical s → MemoryCanonical t))

/-- Every step leaves at most 16 calls, in falling priority, with ids of 1..255 and no id and no pair of
origin and message twice. -/
def Obligations.StepsKeepCallsInOrder : Prop :=
  ∀ s t : State, CallsInOrder s → step s = .next t → CallsInOrder t

/-- Every step leaves an axis with halt causes exactly when it is HALTED. -/
def Obligations.StepsKeepHaltCauses : Prop :=
  ∀ s t : State, HaltedHaveCauses s → step s = .next t → HaltedHaveCauses t

/-- Every step leaves no axis in motion under an accepted ESTOP or under a fire flag that is not
overridden, and every axis OFFLINE and every trunk DOWN while no table is in force. -/
def Obligations.StepsKeepAxesStoppedBySafety : Prop :=
  ∀ s t : State, StoppedBySafety s → step s = .next t → StoppedBySafety t

/-- Every step leaves tables that hold only what a WRITE ENTRY can have put there, each field in its range
and each table's own rules kept, so that an image of them loads back; and tables in force that pass the
validation, so that no write, load or start brings an entry into force that fails R183, a save under way
only in STORING, and the store's LOADING only in the gateway's. -/
def Obligations.StepsKeepTheTablesSound : Prop :=
  ∀ s t : State, TablesSound s → step s = .next t → TablesSound t
end

