-- ==== Sys2Proof/Laws/Frames.lean ====
section
/-! SUPPORT. Laws of the byte encodings and of the console frame: two bytes give their word back, the
lengths of a frame's parts, and the reading of a whole buffer. -/

namespace Sys2Proof.Machine

/-- A word's two bytes, read again, are the word. -/
@[simp] theorem word2_extract (w : Word) : word2 (w.extractLsb' 8 8) (w.extractLsb' 0 8) = w := by
  unfold word2
  ext i hi
  simp only [BitVec.getElem_append, BitVec.getElem_extractLsb']
  split
  · simp [BitVec.getLsbD_eq_getElem hi]
  · rename_i h
    have : 8 + (i - 8) = i := by omega
    simp [this, BitVec.getLsbD_eq_getElem hi]

@[simp] theorem w2_length (w : Word) : (w2 w).length = 2 := rfl

@[simp] theorem b1_length (n : Nat) : (b1 n).length = 1 := rfl

@[simp] theorem b2_length (n : Nat) : (b2 n).length = 2 := rfl

theorem Frame.body_length (f : Frame) : f.body.length = f.payload.length + 6 := by
  simp [Frame.body, w2]

theorem Frame.covered_length (f : Frame) : f.covered.length = f.payload.length + 7 := by
  simp [Frame.covered, Frame.body_length]; omega

/-- The covered bytes, one by one. -/
theorem Frame.covered_eq (f : Frame) :
    f.covered = BitVec.ofNat 8 (f.payload.length + 6) :: f.dst.extractLsb' 8 8 ::
      f.dst.extractLsb' 0 8 :: f.src.extractLsb' 8 8 :: f.src.extractLsb' 0 8 :: f.tag ::
      f.kind :: f.payload := by
  simp [Frame.covered, Frame.body, w2, b1]

/-- A whole buffer with its own CRC gives its frame back. -/
theorem frameOfBuffer_covered (f : Frame) :
    frameOfBuffer (f.covered ++ w2 (crc16 f.covered)) = some f := by
  have hlen : (f.covered ++ w2 (crc16 f.covered)).length - 2 = f.covered.length := by simp
  unfold frameOfBuffer
  simp only [hlen, List.take_left, List.drop_left, if_true]
  rw [Frame.covered_eq]
  simp

/-- A whole buffer with another CRC gives no frame. -/
theorem frameOfBuffer_wrong (f : Frame) (w : Word) (h : w ≠ crc16 f.covered) :
    frameOfBuffer (f.covered ++ w2 w) = none := by
  have hlen : (f.covered ++ w2 w).length - 2 = f.covered.length := by simp
  have hw : w2 (crc16 f.covered) ≠ w2 w := by
    intro e
    apply h
    have := congrArg (fun l : List Byte => word2 (l.headD 0) (l.getLastD 0)) e
    simpa [w2] using this.symm
  unfold frameOfBuffer
  simp only [hlen, List.take_left, List.drop_left, if_neg hw]

end Sys2Proof.Machine
end

