-- ==== Sys2Proof/Laws/Memory.lean ====
section
/-! SUPPORT. Laws of the external memory: every operation keeps the canonical form, and a read after
a write. -/

namespace Sys2Proof.Machine

/-- Addresses the memory has. -/
theorem wfFrom_mono {low low' : Nat} (h : low' ≤ low) :
    ∀ {m : Memory}, Memory.wfFrom low m = true → Memory.wfFrom low' m = true
  | [], _ => rfl
  | (a, b) :: m, hm => by
    simp only [Memory.wfFrom, Bool.and_eq_true, decide_eq_true_eq] at hm ⊢
    exact ⟨⟨⟨by omega, hm.1.1.2⟩, hm.1.2⟩, hm.2⟩

theorem wfFrom_cell_append {a : Nat} {b : Byte} {low : Nat} {m : Memory} (hl : low ≤ a)
    (ha : a < Config.memoryPages * Config.pageBytes) (hm : Memory.wfFrom (a + 1) m = true) :
    Memory.wfFrom low (Memory.cell a b ++ m) = true := by
  unfold Memory.cell
  split
  · exact wfFrom_mono (by omega) hm
  · rename_i hb
    simp [Memory.wfFrom, hl, ha, hm, hb]

/-- A write keeps the canonical form. -/
theorem write_wfFrom {a : Nat} {b : Byte} (ha : a < Config.memoryPages * Config.pageBytes) :
    ∀ {low : Nat} {m : Memory}, low ≤ a → Memory.wfFrom low m = true →
      Memory.wfFrom low (m.write a b) = true
  | low, [], hl, _ => by simpa [Memory.write] using wfFrom_cell_append (m := []) (b := b) hl ha rfl
  | low, (k, x) :: m, hl, hm => by
    simp only [Memory.wfFrom, Bool.and_eq_true, decide_eq_true_eq] at hm
    unfold Memory.write
    split
    · refine wfFrom_cell_append hl ha ?_
      simp [Memory.wfFrom, hm.1.1.2, hm.2]
      exact ⟨by omega, by simpa using hm.1.2⟩
    · split
      · subst_vars
        exact wfFrom_cell_append hl ha hm.2
      · have := write_wfFrom (b := b) ha (low := k + 1) (m := m) (by omega) hm.2
        simp [Memory.wfFrom, hm.1.1.1, hm.1.1.2, this]
        simpa using hm.1.2

theorem write_wf {m : Memory} {a : Nat} (b : Byte)
    (ha : a < Config.memoryPages * Config.pageBytes) (h : m.wf = true) :
    (m.write a b).wf = true :=
  write_wfFrom ha (Nat.zero_le _) h

theorem writeAll_wf : ∀ {bs : List Byte} {m : Memory} {a : Nat},
    a + bs.length ≤ Config.memoryPages * Config.pageBytes → m.wf = true →
      (m.writeAll a bs).wf = true
  | [], _, _, _, h => h
  | b :: bs, m, a, hl, h => by
    simp only [List.length_cons] at hl
    exact writeAll_wf (m := m.write a b) (a := a + 1) (by omega) (write_wf b (by omega) h)

theorem writePage_wf {m : Memory} (p : Nat) (bs : List Byte) (h : m.wf = true) :
    (m.writePage p bs).wf = true := by
  unfold Memory.writePage
  split
  · rename_i hp
    apply writeAll_wf _ h
    have : (bs.take Config.pageBytes).length ≤ Config.pageBytes := by simp
    simp only [Config.memoryPages, Config.pageBytes] at *
    omega
  · exact h

theorem tearPage_wf {m : Memory} (p : Nat) (h : m.wf = true) : (m.tearPage p).wf = true :=
  writePage_wf p _ h

/-- Reading below everything a memory lists. -/
theorem read_below {low a : Nat} (hl : a < low) :
    ∀ {m : Memory}, Memory.wfFrom low m = true → m.read a = unlistedByte
  | [], _ => rfl
  | (k, x) :: m, hm => by
    simp only [Memory.wfFrom, Bool.and_eq_true, decide_eq_true_eq] at hm
    unfold Memory.read
    rw [if_neg (by omega), if_pos (by omega)]

theorem read_cell_append (a c : Nat) (b : Byte) (m : Memory) :
    (Memory.cell a b ++ m).read c =
      if b = unlistedByte then m.read c
      else if c = a then b else if c < a then unlistedByte else m.read c := by
  unfold Memory.cell
  split <;> simp [Memory.read]

/-- A read after a write: the byte written at its address, what was there at every other. -/
theorem read_write {a : Nat} (b : Byte) (c : Nat) :
    ∀ {low : Nat} {m : Memory}, Memory.wfFrom low m = true →
      (m.write a b).read c = if c = a then b else m.read c
  | low, [], _ => by
    have := read_cell_append a c b []
    simp only [List.append_nil] at this
    rw [Memory.write, this]
    by_cases hb : b = unlistedByte <;> by_cases hc : c = a <;> simp [Memory.read, hb, hc]
  | low, (k, x) :: m, hm => by
    simp only [Memory.wfFrom, Bool.and_eq_true, decide_eq_true_eq] at hm
    unfold Memory.write
    split
    · rename_i hk
      rw [read_cell_append]
      by_cases hb : b = unlistedByte <;> by_cases hc : c = a <;> simp [hb, hc, Memory.read]
      · rw [if_neg (by omega), if_pos hk]
      · intro h1
        rw [if_neg (by omega), if_pos (by omega)]
    · split
      · rename_i hk
        subst hk
        rw [read_cell_append]
        by_cases hb : b = unlistedByte <;> by_cases hc : c = a <;> simp [hb, hc, Memory.read]
        · exact read_below (by omega) hm.2
        · intro h1
          exact read_below (by omega) hm.2
      · rename_i h1 h2
        have ih := read_write (a := a) b c (m := m) hm.2
        simp only [Memory.read, ih]
        by_cases hc : c = a
        · subst hc
          rw [if_neg (by omega), if_neg (by omega)]
          simp
        · simp [hc]

end Sys2Proof.Machine
end

