-- ==== Sys2Proof/Laws/Operands.lean ====
section
/-! SUPPORT. Laws of the readers of fields: what each reads from the bytes its encoding gives, once for
each reader. The cursor goes on behind the bytes read. -/

namespace Sys2Proof.Machine

/-- The reader `p` reads `a` from these bytes, whatever follows them and whatever its field number. -/
def Reads {α : Type} (p : Parse α) (bytes : List Byte) (a : α) : Prop :=
  ∀ (field : Nat) (rest : List Byte),
    p { field, bytes := bytes ++ rest } = .ok (a, { field, bytes := rest })

/-- The same over `n` whole fields: the field number advances by `n`. -/
def ReadsFields {α : Type} (n : Nat) (p : Parse α) (bytes : List Byte) (a : α) : Prop :=
  ∀ (field : Nat) (rest : List Byte),
    p { field, bytes := bytes ++ rest } = .ok (a, { field := field + n, bytes := rest })

theorem Reads.fields {α : Type} {p : Parse α} {bytes : List Byte} {a : α} (h : Reads p bytes a) :
    ReadsFields 0 p bytes a := h

theorem reads_pure {α : Type} (a : α) : Reads (pure a) [] a := fun _ _ => rfl

theorem readsFields_pure {α : Type} (a : α) : ReadsFields 0 (pure a) [] a := fun _ _ => rfl

theorem bind_ok {α β : Type} {p : Parse α} {f : α → Parse β} {k k' : Cursor} {a : α}
    (h : p k = .ok (a, k')) : (p >>= f) k = f a k' := by
  show Except.bind (p k) (fun x => f x.1 x.2) = _
  rw [h]
  rfl

theorem Reads.bind {α β : Type} {p : Parse α} {f : α → Parse β} {as bs : List Byte} {a : α} {b : β}
    (h : Reads p as a) (h' : Reads (f a) bs b) : Reads (p >>= f) (as ++ bs) b := by
  intro field rest
  rw [List.append_assoc, bind_ok (h field (bs ++ rest))]
  exact h' field rest

theorem ReadsFields.bind {α β : Type} {m n : Nat} {p : Parse α} {f : α → Parse β}
    {as bs : List Byte} {a : α} {b : β} (h : ReadsFields m p as a)
    (h' : ReadsFields n (f a) bs b) : ReadsFields (m + n) (p >>= f) (as ++ bs) b := by
  intro field rest
  rw [List.append_assoc, bind_ok (h field (bs ++ rest)), h' (field + m) rest, Nat.add_assoc]

/-- The last reader of a chain, with nothing read behind it. -/
theorem ReadsFields.bind_pure {α β : Type} {m : Nat} {p : Parse α} {f : α → Parse β}
    {as : List Byte} {a : α} {b : β} (h : ReadsFields m p as a)
    (h' : ReadsFields 0 (f a) [] b) : ReadsFields m (p >>= f) as b := by
  have := h.bind h'
  simpa using this

theorem Reads.bind_pure {α β : Type} {p : Parse α} {f : α → Parse β} {as : List Byte} {a : α}
    {b : β} (h : Reads p as a) (h' : Reads (f a) [] b) : Reads (p >>= f) as b := by
  have := h.bind h'
  simpa using this

/-- A whole field advances the field number by one. -/
theorem Reads.fld {α : Type} {p : Parse α} {bytes : List Byte} {a : α} (h : Reads p bytes a) :
    ReadsFields 1 (fld p) bytes a := by
  intro field rest
  unfold Machine.fld
  rw [bind_ok (h field rest)]
  rfl

theorem reads_byte (b : Byte) : Reads byte [b] b := fun _ _ => rfl

theorem reads_num1 {n : Nat} (h : n < 256) : Reads num1 (b1 n) n := by
  intro field rest
  show Except.ok ((BitVec.ofNat 8 n).toNat, _) = _
  rw [BitVec.toNat_ofNat, Nat.mod_eq_of_lt h]
  rfl

theorem reads_word (w : Word) : Reads word (w2 w) w := by
  intro field rest
  show Except.ok (word2 _ _, _) = _
  rw [word2_extract]
  rfl

theorem need_true {α : Type} {ok : Bool} (h : ok = true) (a : α) : need ok a = pure a := by
  rw [need, if_pos h]

theorem reads_nat1 {lo hi n : Nat} (h : within lo hi n = true) (hn : n < 256) :
    Reads (nat1 lo hi) (b1 n) n :=
  (reads_num1 hn).bind_pure (by
    rw [need_true (show (decide (lo ≤ n) && decide (n ≤ hi)) = true from h)]
    exact reads_pure n)

theorem reads_nat2 {lo hi n : Nat} (h : within lo hi n = true) (hn : n < 65536) :
    Reads (nat2 lo hi) (b2 n) n := by
  refine (reads_word _).bind_pure ?_
  have e : (BitVec.ofNat 16 n).toNat = n := by rw [BitVec.toNat_ofNat]; exact Nat.mod_eq_of_lt hn
  rw [e, need_true (show (decide (lo ≤ n) && decide (n ≤ hi)) = true from h)]
  exact reads_pure n

theorem toInt_ofInt16 {z : Int} (h : withinInt (-32768) 32767 z = true) :
    (BitVec.ofInt 16 z).toInt = z := by
  simp only [withinInt, Bool.and_eq_true, decide_eq_true_eq] at h
  rw [BitVec.toInt_ofInt]
  exact Int.bmod_eq_of_le (by omega) (by omega)

theorem reads_sint2 {lo hi z : Int} (h : withinInt lo hi z = true)
    (hz : withinInt (-32768) 32767 z = true) : Reads (sint2 lo hi) (i2 z) z := by
  refine (reads_word _).bind_pure ?_
  rw [toInt_ofInt16 hz,
    need_true (show (decide (lo ≤ z) && decide (z ≤ hi)) = true from h)]
  exact reads_pure z

theorem reads_bool1 (b : Bool) : Reads bool1 (bBool b) b := by
  intro field rest
  cases b <;> rfl

theorem reads_fin1 {n : Nat} (hn : n ≤ 256) (k : Fin n) : Reads (fin1 n) (b1 k.val) k := by
  refine (reads_num1 (by omega)).bind_pure ?_
  rw [dif_pos k.isLt]
  exact reads_pure k

theorem reads_axis1 (a : Fin 6) : Reads axis1 (encAxis a) a := by
  intro field rest
  revert a
  intro a
  fin_cases a <;> rfl

theorem reads_node2 (n : NodeId) : Reads node2 (encNode n) n := by
  refine (reads_fin1 (n := 4) (by omega) n.trunk).bind ?_
  refine (reads_num1 (n := address n.slot) (by unfold address; omega)).bind_pure ?_
  rw [dif_pos (by unfold address; omega)]
  exact reads_pure _

theorem reads_named {α : Type} {l : List α} {k : Nat} {a : α} (hk : k < 256) (h : l[k]? = some a) :
    Reads (named l) (b1 k) a := by
  refine (reads_num1 hk).bind_pure ?_
  rw [h]
  exact reads_pure a

theorem reads_many {α : Type} {p : Parse α} {enc : α → List Byte} {l : List α}
    (h : ∀ a ∈ l, Reads p (enc a) a) : Reads (many p l.length) (l.flatMap enc) l := by
  induction l with
  | nil => exact reads_pure []
  | cons a l ih =>
    rw [List.flatMap_cons]
    refine (h a (by simp)).bind ?_
    exact (ih fun b hb => h b (by simp [hb])).bind_pure (reads_pure _)

theorem reads_list1 {α : Type} {most : Nat} {p : Parse α} {enc : α → List Byte} {l : List α}
    (hl : l.length ≤ most) (hm : most < 256) (h : ∀ a ∈ l, Reads p (enc a) a) :
    Reads (list1 most p) (bList enc l) l :=
  (reads_nat1 (by simp [within, hl]) (by omega)).bind (reads_many h)

theorem reads_payload16 {l : List Byte} (h : l.length ≤ 16) : Reads payload16 (bPayload l) l := by
  have := reads_list1 (enc := fun b => [b]) (p := byte) (l := l) h (by omega)
    fun b _ => reads_byte b
  rwa [bList, List.flatMap_singleton'] at this

theorem reads_skipped (n : Nat) (bytes : List Byte) (h : bytes.length = n) :
    Reads (many byte n) bytes bytes := by
  have := reads_many (enc := fun b => [b]) (p := byte) (l := bytes) fun b _ => reads_byte b
  rwa [List.flatMap_singleton', h] at this

theorem reads_opt {α : Type} {width : Nat} {p : Parse α} {enc : α → List Byte} {x : Option α}
    (h : ∀ a, x = some a → Reads p (enc a) a) : Reads (opt width p) (bOpt width enc x) x := by
  cases x with
  | none =>
    exact (reads_bool1 false).bind
      ((reads_skipped width _ (by simp)).bind_pure (reads_pure none))
  | some a => exact (reads_bool1 true).bind ((h a rfl).bind_pure (reads_pure _))

theorem reads_set1 {n : Nat} (hn : n ≤ 8) (s : BitVec n) : Reads (set1 n) (b1 s.toNat) s := by
  have hs : s.toNat < 2 ^ n := s.isLt
  have h8 : 2 ^ n ≤ 2 ^ 8 := Nat.pow_le_pow_right (by omega) hn
  refine (reads_num1 (by omega)).bind_pure ?_
  rw [need_true (by simpa using hs), BitVec.ofNat_toNat, BitVec.setWidth_eq]
  exact reads_pure s

theorem reads_zoneOrNone (z : Option (Fin 8)) : Reads zoneOrNone (encZoneOrNone z) z := by
  intro field rest
  cases z with
  | none => rfl
  | some z => fin_cases z <;> rfl

theorem reads_zero1 : Reads zero1 (b1 0) () := fun _ _ => rfl

end Sys2Proof.Machine
end

