-- ==== Sys2Proof/Laws/State.lean ====
section
/-! SUPPORT. One lemma for each field of each update of Machine/Updates.lean, true by rfl and in the
simp set, so that no later proof unfolds a record update. -/

namespace Sys2Proof.Machine

section
variable (r : Run) (x : GwState)
@[simp] theorem Run.setGw_gw : (r.setGw x).gw = x := rfl
@[simp] theorem Run.setGw_clock : (r.setGw x).clock = r.clock := rfl
@[simp] theorem Run.setGw_events : (r.setGw x).events = r.events := rfl
@[simp] theorem Run.setGw_console : (r.setGw x).console = r.console := rfl
@[simp] theorem Run.setGw_reports : (r.setGw x).reports = r.reports := rfl
@[simp] theorem Run.setGw_trunks : (r.setGw x).trunks = r.trunks := rfl
@[simp] theorem Run.setGw_nodes : (r.setGw x).nodes = r.nodes := rfl
@[simp] theorem Run.setGw_axes : (r.setGw x).axes = r.axes := rfl
@[simp] theorem Run.setGw_plan : (r.setGw x).plan = r.plan := rfl
@[simp] theorem Run.setGw_zones : (r.setGw x).zones = r.zones := rfl
@[simp] theorem Run.setGw_doors : (r.setGw x).doors = r.doors := rfl
@[simp] theorem Run.setGw_areas : (r.setGw x).areas = r.areas := rfl
@[simp] theorem Run.setGw_calls : (r.setGw x).calls = r.calls := rfl
@[simp] theorem Run.setGw_callCounter : (r.setGw x).callCounter = r.callCounter := rfl
@[simp] theorem Run.setGw_channels : (r.setGw x).channels = r.channels := rfl
@[simp] theorem Run.setGw_monitors : (r.setGw x).monitors = r.monitors := rfl
@[simp] theorem Run.setGw_lines : (r.setGw x).lines = r.lines := rfl
@[simp] theorem Run.setGw_outputs : (r.setGw x).outputs = r.outputs := rfl
@[simp] theorem Run.setGw_chain : (r.setGw x).chain = r.chain := rfl
@[simp] theorem Run.setGw_store : (r.setGw x).store = r.store := rfl
@[simp] theorem Run.setGw_serial : (r.setGw x).serial = r.serial := rfl
@[simp] theorem Run.setGw_entered : (r.setGw x).entered = r.entered := rfl
@[simp] theorem Run.setGw_freeCount : (r.setGw x).freeCount = r.freeCount := rfl
end

section
variable (r : Run) (x : Clock)
@[simp] theorem Run.setClock_gw : (r.setClock x).gw = r.gw := rfl
@[simp] theorem Run.setClock_clock : (r.setClock x).clock = x := rfl
@[simp] theorem Run.setClock_events : (r.setClock x).events = r.events := rfl
@[simp] theorem Run.setClock_console : (r.setClock x).console = r.console := rfl
@[simp] theorem Run.setClock_reports : (r.setClock x).reports = r.reports := rfl
@[simp] theorem Run.setClock_trunks : (r.setClock x).trunks = r.trunks := rfl
@[simp] theorem Run.setClock_nodes : (r.setClock x).nodes = r.nodes := rfl
@[simp] theorem Run.setClock_axes : (r.setClock x).axes = r.axes := rfl
@[simp] theorem Run.setClock_plan : (r.setClock x).plan = r.plan := rfl
@[simp] theorem Run.setClock_zones : (r.setClock x).zones = r.zones := rfl
@[simp] theorem Run.setClock_doors : (r.setClock x).doors = r.doors := rfl
@[simp] theorem Run.setClock_areas : (r.setClock x).areas = r.areas := rfl
@[simp] theorem Run.setClock_calls : (r.setClock x).calls = r.calls := rfl
@[simp] theorem Run.setClock_callCounter : (r.setClock x).callCounter = r.callCounter := rfl
@[simp] theorem Run.setClock_channels : (r.setClock x).channels = r.channels := rfl
@[simp] theorem Run.setClock_monitors : (r.setClock x).monitors = r.monitors := rfl
@[simp] theorem Run.setClock_lines : (r.setClock x).lines = r.lines := rfl
@[simp] theorem Run.setClock_outputs : (r.setClock x).outputs = r.outputs := rfl
@[simp] theorem Run.setClock_chain : (r.setClock x).chain = r.chain := rfl
@[simp] theorem Run.setClock_store : (r.setClock x).store = r.store := rfl
@[simp] theorem Run.setClock_serial : (r.setClock x).serial = r.serial := rfl
@[simp] theorem Run.setClock_entered : (r.setClock x).entered = r.entered := rfl
@[simp] theorem Run.setClock_freeCount : (r.setClock x).freeCount = r.freeCount := rfl
end

section
variable (r : Run) (x : EventQueue)
@[simp] theorem Run.setEvents_gw : (r.setEvents x).gw = r.gw := rfl
@[simp] theorem Run.setEvents_clock : (r.setEvents x).clock = r.clock := rfl
@[simp] theorem Run.setEvents_events : (r.setEvents x).events = x := rfl
@[simp] theorem Run.setEvents_console : (r.setEvents x).console = r.console := rfl
@[simp] theorem Run.setEvents_reports : (r.setEvents x).reports = r.reports := rfl
@[simp] theorem Run.setEvents_trunks : (r.setEvents x).trunks = r.trunks := rfl
@[simp] theorem Run.setEvents_nodes : (r.setEvents x).nodes = r.nodes := rfl
@[simp] theorem Run.setEvents_axes : (r.setEvents x).axes = r.axes := rfl
@[simp] theorem Run.setEvents_plan : (r.setEvents x).plan = r.plan := rfl
@[simp] theorem Run.setEvents_zones : (r.setEvents x).zones = r.zones := rfl
@[simp] theorem Run.setEvents_doors : (r.setEvents x).doors = r.doors := rfl
@[simp] theorem Run.setEvents_areas : (r.setEvents x).areas = r.areas := rfl
@[simp] theorem Run.setEvents_calls : (r.setEvents x).calls = r.calls := rfl
@[simp] theorem Run.setEvents_callCounter : (r.setEvents x).callCounter = r.callCounter := rfl
@[simp] theorem Run.setEvents_channels : (r.setEvents x).channels = r.channels := rfl
@[simp] theorem Run.setEvents_monitors : (r.setEvents x).monitors = r.monitors := rfl
@[simp] theorem Run.setEvents_lines : (r.setEvents x).lines = r.lines := rfl
@[simp] theorem Run.setEvents_outputs : (r.setEvents x).outputs = r.outputs := rfl
@[simp] theorem Run.setEvents_chain : (r.setEvents x).chain = r.chain := rfl
@[simp] theorem Run.setEvents_store : (r.setEvents x).store = r.store := rfl
@[simp] theorem Run.setEvents_serial : (r.setEvents x).serial = r.serial := rfl
@[simp] theorem Run.setEvents_entered : (r.setEvents x).entered = r.entered := rfl
@[simp] theorem Run.setEvents_freeCount : (r.setEvents x).freeCount = r.freeCount := rfl
end

section
variable (r : Run) (x : Console)
@[simp] theorem Run.setConsole_gw : (r.setConsole x).gw = r.gw := rfl
@[simp] theorem Run.setConsole_clock : (r.setConsole x).clock = r.clock := rfl
@[simp] theorem Run.setConsole_events : (r.setConsole x).events = r.events := rfl
@[simp] theorem Run.setConsole_console : (r.setConsole x).console = x := rfl
@[simp] theorem Run.setConsole_reports : (r.setConsole x).reports = r.reports := rfl
@[simp] theorem Run.setConsole_trunks : (r.setConsole x).trunks = r.trunks := rfl
@[simp] theorem Run.setConsole_nodes : (r.setConsole x).nodes = r.nodes := rfl
@[simp] theorem Run.setConsole_axes : (r.setConsole x).axes = r.axes := rfl
@[simp] theorem Run.setConsole_plan : (r.setConsole x).plan = r.plan := rfl
@[simp] theorem Run.setConsole_zones : (r.setConsole x).zones = r.zones := rfl
@[simp] theorem Run.setConsole_doors : (r.setConsole x).doors = r.doors := rfl
@[simp] theorem Run.setConsole_areas : (r.setConsole x).areas = r.areas := rfl
@[simp] theorem Run.setConsole_calls : (r.setConsole x).calls = r.calls := rfl
@[simp] theorem Run.setConsole_callCounter : (r.setConsole x).callCounter = r.callCounter := rfl
@[simp] theorem Run.setConsole_channels : (r.setConsole x).channels = r.channels := rfl
@[simp] theorem Run.setConsole_monitors : (r.setConsole x).monitors = r.monitors := rfl
@[simp] theorem Run.setConsole_lines : (r.setConsole x).lines = r.lines := rfl
@[simp] theorem Run.setConsole_outputs : (r.setConsole x).outputs = r.outputs := rfl
@[simp] theorem Run.setConsole_chain : (r.setConsole x).chain = r.chain := rfl
@[simp] theorem Run.setConsole_store : (r.setConsole x).store = r.store := rfl
@[simp] theorem Run.setConsole_serial : (r.setConsole x).serial = r.serial := rfl
@[simp] theorem Run.setConsole_entered : (r.setConsole x).entered = r.entered := rfl
@[simp] theorem Run.setConsole_freeCount : (r.setConsole x).freeCount = r.freeCount := rfl
end

section
variable (r : Run) (x : Plan)
@[simp] theorem Run.setPlan_gw : (r.setPlan x).gw = r.gw := rfl
@[simp] theorem Run.setPlan_clock : (r.setPlan x).clock = r.clock := rfl
@[simp] theorem Run.setPlan_events : (r.setPlan x).events = r.events := rfl
@[simp] theorem Run.setPlan_console : (r.setPlan x).console = r.console := rfl
@[simp] theorem Run.setPlan_reports : (r.setPlan x).reports = r.reports := rfl
@[simp] theorem Run.setPlan_trunks : (r.setPlan x).trunks = r.trunks := rfl
@[simp] theorem Run.setPlan_nodes : (r.setPlan x).nodes = r.nodes := rfl
@[simp] theorem Run.setPlan_axes : (r.setPlan x).axes = r.axes := rfl
@[simp] theorem Run.setPlan_plan : (r.setPlan x).plan = x := rfl
@[simp] theorem Run.setPlan_zones : (r.setPlan x).zones = r.zones := rfl
@[simp] theorem Run.setPlan_doors : (r.setPlan x).doors = r.doors := rfl
@[simp] theorem Run.setPlan_areas : (r.setPlan x).areas = r.areas := rfl
@[simp] theorem Run.setPlan_calls : (r.setPlan x).calls = r.calls := rfl
@[simp] theorem Run.setPlan_callCounter : (r.setPlan x).callCounter = r.callCounter := rfl
@[simp] theorem Run.setPlan_channels : (r.setPlan x).channels = r.channels := rfl
@[simp] theorem Run.setPlan_monitors : (r.setPlan x).monitors = r.monitors := rfl
@[simp] theorem Run.setPlan_lines : (r.setPlan x).lines = r.lines := rfl
@[simp] theorem Run.setPlan_outputs : (r.setPlan x).outputs = r.outputs := rfl
@[simp] theorem Run.setPlan_chain : (r.setPlan x).chain = r.chain := rfl
@[simp] theorem Run.setPlan_store : (r.setPlan x).store = r.store := rfl
@[simp] theorem Run.setPlan_serial : (r.setPlan x).serial = r.serial := rfl
@[simp] theorem Run.setPlan_entered : (r.setPlan x).entered = r.entered := rfl
@[simp] theorem Run.setPlan_freeCount : (r.setPlan x).freeCount = r.freeCount := rfl
end

section
variable (r : Run) (x : List Call)
@[simp] theorem Run.setCalls_gw : (r.setCalls x).gw = r.gw := rfl
@[simp] theorem Run.setCalls_clock : (r.setCalls x).clock = r.clock := rfl
@[simp] theorem Run.setCalls_events : (r.setCalls x).events = r.events := rfl
@[simp] theorem Run.setCalls_console : (r.setCalls x).console = r.console := rfl
@[simp] theorem Run.setCalls_reports : (r.setCalls x).reports = r.reports := rfl
@[simp] theorem Run.setCalls_trunks : (r.setCalls x).trunks = r.trunks := rfl
@[simp] theorem Run.setCalls_nodes : (r.setCalls x).nodes = r.nodes := rfl
@[simp] theorem Run.setCalls_axes : (r.setCalls x).axes = r.axes := rfl
@[simp] theorem Run.setCalls_plan : (r.setCalls x).plan = r.plan := rfl
@[simp] theorem Run.setCalls_zones : (r.setCalls x).zones = r.zones := rfl
@[simp] theorem Run.setCalls_doors : (r.setCalls x).doors = r.doors := rfl
@[simp] theorem Run.setCalls_areas : (r.setCalls x).areas = r.areas := rfl
@[simp] theorem Run.setCalls_calls : (r.setCalls x).calls = x := rfl
@[simp] theorem Run.setCalls_callCounter : (r.setCalls x).callCounter = r.callCounter := rfl
@[simp] theorem Run.setCalls_channels : (r.setCalls x).channels = r.channels := rfl
@[simp] theorem Run.setCalls_monitors : (r.setCalls x).monitors = r.monitors := rfl
@[simp] theorem Run.setCalls_lines : (r.setCalls x).lines = r.lines := rfl
@[simp] theorem Run.setCalls_outputs : (r.setCalls x).outputs = r.outputs := rfl
@[simp] theorem Run.setCalls_chain : (r.setCalls x).chain = r.chain := rfl
@[simp] theorem Run.setCalls_store : (r.setCalls x).store = r.store := rfl
@[simp] theorem Run.setCalls_serial : (r.setCalls x).serial = r.serial := rfl
@[simp] theorem Run.setCalls_entered : (r.setCalls x).entered = r.entered := rfl
@[simp] theorem Run.setCalls_freeCount : (r.setCalls x).freeCount = r.freeCount := rfl
end

section
variable (r : Run) (x : Nat)
@[simp] theorem Run.setCallCounter_gw : (r.setCallCounter x).gw = r.gw := rfl
@[simp] theorem Run.setCallCounter_clock : (r.setCallCounter x).clock = r.clock := rfl
@[simp] theorem Run.setCallCounter_events : (r.setCallCounter x).events = r.events := rfl
@[simp] theorem Run.setCallCounter_console : (r.setCallCounter x).console = r.console := rfl
@[simp] theorem Run.setCallCounter_reports : (r.setCallCounter x).reports = r.reports := rfl
@[simp] theorem Run.setCallCounter_trunks : (r.setCallCounter x).trunks = r.trunks := rfl
@[simp] theorem Run.setCallCounter_nodes : (r.setCallCounter x).nodes = r.nodes := rfl
@[simp] theorem Run.setCallCounter_axes : (r.setCallCounter x).axes = r.axes := rfl
@[simp] theorem Run.setCallCounter_plan : (r.setCallCounter x).plan = r.plan := rfl
@[simp] theorem Run.setCallCounter_zones : (r.setCallCounter x).zones = r.zones := rfl
@[simp] theorem Run.setCallCounter_doors : (r.setCallCounter x).doors = r.doors := rfl
@[simp] theorem Run.setCallCounter_areas : (r.setCallCounter x).areas = r.areas := rfl
@[simp] theorem Run.setCallCounter_calls : (r.setCallCounter x).calls = r.calls := rfl
@[simp] theorem Run.setCallCounter_callCounter : (r.setCallCounter x).callCounter = x := rfl
@[simp] theorem Run.setCallCounter_channels : (r.setCallCounter x).channels = r.channels := rfl
@[simp] theorem Run.setCallCounter_monitors : (r.setCallCounter x).monitors = r.monitors := rfl
@[simp] theorem Run.setCallCounter_lines : (r.setCallCounter x).lines = r.lines := rfl
@[simp] theorem Run.setCallCounter_outputs : (r.setCallCounter x).outputs = r.outputs := rfl
@[simp] theorem Run.setCallCounter_chain : (r.setCallCounter x).chain = r.chain := rfl
@[simp] theorem Run.setCallCounter_store : (r.setCallCounter x).store = r.store := rfl
@[simp] theorem Run.setCallCounter_serial : (r.setCallCounter x).serial = r.serial := rfl
@[simp] theorem Run.setCallCounter_entered : (r.setCallCounter x).entered = r.entered := rfl
@[simp] theorem Run.setCallCounter_freeCount : (r.setCallCounter x).freeCount = r.freeCount := rfl
end

section
variable (r : Run) (x : Chain)
@[simp] theorem Run.setChain_gw : (r.setChain x).gw = r.gw := rfl
@[simp] theorem Run.setChain_clock : (r.setChain x).clock = r.clock := rfl
@[simp] theorem Run.setChain_events : (r.setChain x).events = r.events := rfl
@[simp] theorem Run.setChain_console : (r.setChain x).console = r.console := rfl
@[simp] theorem Run.setChain_reports : (r.setChain x).reports = r.reports := rfl
@[simp] theorem Run.setChain_trunks : (r.setChain x).trunks = r.trunks := rfl
@[simp] theorem Run.setChain_nodes : (r.setChain x).nodes = r.nodes := rfl
@[simp] theorem Run.setChain_axes : (r.setChain x).axes = r.axes := rfl
@[simp] theorem Run.setChain_plan : (r.setChain x).plan = r.plan := rfl
@[simp] theorem Run.setChain_zones : (r.setChain x).zones = r.zones := rfl
@[simp] theorem Run.setChain_doors : (r.setChain x).doors = r.doors := rfl
@[simp] theorem Run.setChain_areas : (r.setChain x).areas = r.areas := rfl
@[simp] theorem Run.setChain_calls : (r.setChain x).calls = r.calls := rfl
@[simp] theorem Run.setChain_callCounter : (r.setChain x).callCounter = r.callCounter := rfl
@[simp] theorem Run.setChain_channels : (r.setChain x).channels = r.channels := rfl
@[simp] theorem Run.setChain_monitors : (r.setChain x).monitors = r.monitors := rfl
@[simp] theorem Run.setChain_lines : (r.setChain x).lines = r.lines := rfl
@[simp] theorem Run.setChain_outputs : (r.setChain x).outputs = r.outputs := rfl
@[simp] theorem Run.setChain_chain : (r.setChain x).chain = x := rfl
@[simp] theorem Run.setChain_store : (r.setChain x).store = r.store := rfl
@[simp] theorem Run.setChain_serial : (r.setChain x).serial = r.serial := rfl
@[simp] theorem Run.setChain_entered : (r.setChain x).entered = r.entered := rfl
@[simp] theorem Run.setChain_freeCount : (r.setChain x).freeCount = r.freeCount := rfl
end

section
variable (r : Run) (x : Store)
@[simp] theorem Run.setStore_gw : (r.setStore x).gw = r.gw := rfl
@[simp] theorem Run.setStore_clock : (r.setStore x).clock = r.clock := rfl
@[simp] theorem Run.setStore_events : (r.setStore x).events = r.events := rfl
@[simp] theorem Run.setStore_console : (r.setStore x).console = r.console := rfl
@[simp] theorem Run.setStore_reports : (r.setStore x).reports = r.reports := rfl
@[simp] theorem Run.setStore_trunks : (r.setStore x).trunks = r.trunks := rfl
@[simp] theorem Run.setStore_nodes : (r.setStore x).nodes = r.nodes := rfl
@[simp] theorem Run.setStore_axes : (r.setStore x).axes = r.axes := rfl
@[simp] theorem Run.setStore_plan : (r.setStore x).plan = r.plan := rfl
@[simp] theorem Run.setStore_zones : (r.setStore x).zones = r.zones := rfl
@[simp] theorem Run.setStore_doors : (r.setStore x).doors = r.doors := rfl
@[simp] theorem Run.setStore_areas : (r.setStore x).areas = r.areas := rfl
@[simp] theorem Run.setStore_calls : (r.setStore x).calls = r.calls := rfl
@[simp] theorem Run.setStore_callCounter : (r.setStore x).callCounter = r.callCounter := rfl
@[simp] theorem Run.setStore_channels : (r.setStore x).channels = r.channels := rfl
@[simp] theorem Run.setStore_monitors : (r.setStore x).monitors = r.monitors := rfl
@[simp] theorem Run.setStore_lines : (r.setStore x).lines = r.lines := rfl
@[simp] theorem Run.setStore_outputs : (r.setStore x).outputs = r.outputs := rfl
@[simp] theorem Run.setStore_chain : (r.setStore x).chain = r.chain := rfl
@[simp] theorem Run.setStore_store : (r.setStore x).store = x := rfl
@[simp] theorem Run.setStore_serial : (r.setStore x).serial = r.serial := rfl
@[simp] theorem Run.setStore_entered : (r.setStore x).entered = r.entered := rfl
@[simp] theorem Run.setStore_freeCount : (r.setStore x).freeCount = r.freeCount := rfl
end

section
variable (r : Run) (x : Nat)
@[simp] theorem Run.setSerial_gw : (r.setSerial x).gw = r.gw := rfl
@[simp] theorem Run.setSerial_clock : (r.setSerial x).clock = r.clock := rfl
@[simp] theorem Run.setSerial_events : (r.setSerial x).events = r.events := rfl
@[simp] theorem Run.setSerial_console : (r.setSerial x).console = r.console := rfl
@[simp] theorem Run.setSerial_reports : (r.setSerial x).reports = r.reports := rfl
@[simp] theorem Run.setSerial_trunks : (r.setSerial x).trunks = r.trunks := rfl
@[simp] theorem Run.setSerial_nodes : (r.setSerial x).nodes = r.nodes := rfl
@[simp] theorem Run.setSerial_axes : (r.setSerial x).axes = r.axes := rfl
@[simp] theorem Run.setSerial_plan : (r.setSerial x).plan = r.plan := rfl
@[simp] theorem Run.setSerial_zones : (r.setSerial x).zones = r.zones := rfl
@[simp] theorem Run.setSerial_doors : (r.setSerial x).doors = r.doors := rfl
@[simp] theorem Run.setSerial_areas : (r.setSerial x).areas = r.areas := rfl
@[simp] theorem Run.setSerial_calls : (r.setSerial x).calls = r.calls := rfl
@[simp] theorem Run.setSerial_callCounter : (r.setSerial x).callCounter = r.callCounter := rfl
@[simp] theorem Run.setSerial_channels : (r.setSerial x).channels = r.channels := rfl
@[simp] theorem Run.setSerial_monitors : (r.setSerial x).monitors = r.monitors := rfl
@[simp] theorem Run.setSerial_lines : (r.setSerial x).lines = r.lines := rfl
@[simp] theorem Run.setSerial_outputs : (r.setSerial x).outputs = r.outputs := rfl
@[simp] theorem Run.setSerial_chain : (r.setSerial x).chain = r.chain := rfl
@[simp] theorem Run.setSerial_store : (r.setSerial x).store = r.store := rfl
@[simp] theorem Run.setSerial_serial : (r.setSerial x).serial = x := rfl
@[simp] theorem Run.setSerial_entered : (r.setSerial x).entered = r.entered := rfl
@[simp] theorem Run.setSerial_freeCount : (r.setSerial x).freeCount = r.freeCount := rfl
end

section
variable (r : Run) (x : List (Fin 16))
@[simp] theorem Run.setEntered_gw : (r.setEntered x).gw = r.gw := rfl
@[simp] theorem Run.setEntered_clock : (r.setEntered x).clock = r.clock := rfl
@[simp] theorem Run.setEntered_events : (r.setEntered x).events = r.events := rfl
@[simp] theorem Run.setEntered_console : (r.setEntered x).console = r.console := rfl
@[simp] theorem Run.setEntered_reports : (r.setEntered x).reports = r.reports := rfl
@[simp] theorem Run.setEntered_trunks : (r.setEntered x).trunks = r.trunks := rfl
@[simp] theorem Run.setEntered_nodes : (r.setEntered x).nodes = r.nodes := rfl
@[simp] theorem Run.setEntered_axes : (r.setEntered x).axes = r.axes := rfl
@[simp] theorem Run.setEntered_plan : (r.setEntered x).plan = r.plan := rfl
@[simp] theorem Run.setEntered_zones : (r.setEntered x).zones = r.zones := rfl
@[simp] theorem Run.setEntered_doors : (r.setEntered x).doors = r.doors := rfl
@[simp] theorem Run.setEntered_areas : (r.setEntered x).areas = r.areas := rfl
@[simp] theorem Run.setEntered_calls : (r.setEntered x).calls = r.calls := rfl
@[simp] theorem Run.setEntered_callCounter : (r.setEntered x).callCounter = r.callCounter := rfl
@[simp] theorem Run.setEntered_channels : (r.setEntered x).channels = r.channels := rfl
@[simp] theorem Run.setEntered_monitors : (r.setEntered x).monitors = r.monitors := rfl
@[simp] theorem Run.setEntered_lines : (r.setEntered x).lines = r.lines := rfl
@[simp] theorem Run.setEntered_outputs : (r.setEntered x).outputs = r.outputs := rfl
@[simp] theorem Run.setEntered_chain : (r.setEntered x).chain = r.chain := rfl
@[simp] theorem Run.setEntered_store : (r.setEntered x).store = r.store := rfl
@[simp] theorem Run.setEntered_serial : (r.setEntered x).serial = r.serial := rfl
@[simp] theorem Run.setEntered_entered : (r.setEntered x).entered = x := rfl
@[simp] theorem Run.setEntered_freeCount : (r.setEntered x).freeCount = r.freeCount := rfl
end

section
variable (r : Run) (x : Nat)
@[simp] theorem Run.setFreeCount_gw : (r.setFreeCount x).gw = r.gw := rfl
@[simp] theorem Run.setFreeCount_clock : (r.setFreeCount x).clock = r.clock := rfl
@[simp] theorem Run.setFreeCount_events : (r.setFreeCount x).events = r.events := rfl
@[simp] theorem Run.setFreeCount_console : (r.setFreeCount x).console = r.console := rfl
@[simp] theorem Run.setFreeCount_reports : (r.setFreeCount x).reports = r.reports := rfl
@[simp] theorem Run.setFreeCount_trunks : (r.setFreeCount x).trunks = r.trunks := rfl
@[simp] theorem Run.setFreeCount_nodes : (r.setFreeCount x).nodes = r.nodes := rfl
@[simp] theorem Run.setFreeCount_axes : (r.setFreeCount x).axes = r.axes := rfl
@[simp] theorem Run.setFreeCount_plan : (r.setFreeCount x).plan = r.plan := rfl
@[simp] theorem Run.setFreeCount_zones : (r.setFreeCount x).zones = r.zones := rfl
@[simp] theorem Run.setFreeCount_doors : (r.setFreeCount x).doors = r.doors := rfl
@[simp] theorem Run.setFreeCount_areas : (r.setFreeCount x).areas = r.areas := rfl
@[simp] theorem Run.setFreeCount_calls : (r.setFreeCount x).calls = r.calls := rfl
@[simp] theorem Run.setFreeCount_callCounter : (r.setFreeCount x).callCounter = r.callCounter := rfl
@[simp] theorem Run.setFreeCount_channels : (r.setFreeCount x).channels = r.channels := rfl
@[simp] theorem Run.setFreeCount_monitors : (r.setFreeCount x).monitors = r.monitors := rfl
@[simp] theorem Run.setFreeCount_lines : (r.setFreeCount x).lines = r.lines := rfl
@[simp] theorem Run.setFreeCount_outputs : (r.setFreeCount x).outputs = r.outputs := rfl
@[simp] theorem Run.setFreeCount_chain : (r.setFreeCount x).chain = r.chain := rfl
@[simp] theorem Run.setFreeCount_store : (r.setFreeCount x).store = r.store := rfl
@[simp] theorem Run.setFreeCount_serial : (r.setFreeCount x).serial = r.serial := rfl
@[simp] theorem Run.setFreeCount_entered : (r.setFreeCount x).entered = r.entered := rfl
@[simp] theorem Run.setFreeCount_freeCount : (r.setFreeCount x).freeCount = x := rfl
end

section
variable (r : Run) (i j : Fin 124) (f : ReportRt → ReportRt)
@[simp] theorem Run.modReport_gw : (r.modReport i f).gw = r.gw := rfl
@[simp] theorem Run.modReport_clock : (r.modReport i f).clock = r.clock := rfl
@[simp] theorem Run.modReport_events : (r.modReport i f).events = r.events := rfl
@[simp] theorem Run.modReport_console : (r.modReport i f).console = r.console := rfl
@[simp] theorem Run.modReport_trunks : (r.modReport i f).trunks = r.trunks := rfl
@[simp] theorem Run.modReport_nodes : (r.modReport i f).nodes = r.nodes := rfl
@[simp] theorem Run.modReport_axes : (r.modReport i f).axes = r.axes := rfl
@[simp] theorem Run.modReport_plan : (r.modReport i f).plan = r.plan := rfl
@[simp] theorem Run.modReport_zones : (r.modReport i f).zones = r.zones := rfl
@[simp] theorem Run.modReport_doors : (r.modReport i f).doors = r.doors := rfl
@[simp] theorem Run.modReport_areas : (r.modReport i f).areas = r.areas := rfl
@[simp] theorem Run.modReport_calls : (r.modReport i f).calls = r.calls := rfl
@[simp] theorem Run.modReport_callCounter : (r.modReport i f).callCounter = r.callCounter := rfl
@[simp] theorem Run.modReport_channels : (r.modReport i f).channels = r.channels := rfl
@[simp] theorem Run.modReport_monitors : (r.modReport i f).monitors = r.monitors := rfl
@[simp] theorem Run.modReport_lines : (r.modReport i f).lines = r.lines := rfl
@[simp] theorem Run.modReport_outputs : (r.modReport i f).outputs = r.outputs := rfl
@[simp] theorem Run.modReport_chain : (r.modReport i f).chain = r.chain := rfl
@[simp] theorem Run.modReport_store : (r.modReport i f).store = r.store := rfl
@[simp] theorem Run.modReport_serial : (r.modReport i f).serial = r.serial := rfl
@[simp] theorem Run.modReport_entered : (r.modReport i f).entered = r.entered := rfl
@[simp] theorem Run.modReport_freeCount : (r.modReport i f).freeCount = r.freeCount := rfl
@[simp] theorem Run.modReport_self : (r.modReport i f).reports[i] = f r.reports[i] := by simp [Run.modReport]
theorem Run.modReport_ne (h : j ≠ i) : (r.modReport i f).reports[j] = r.reports[j] := by
  have : i.val ≠ j.val := fun e => h (Fin.ext e.symm)
  simp [Run.modReport, this]
end

section
variable (r : Run) (i j : Fin 4) (f : TrunkRt → TrunkRt)
@[simp] theorem Run.modTrunk_gw : (r.modTrunk i f).gw = r.gw := rfl
@[simp] theorem Run.modTrunk_clock : (r.modTrunk i f).clock = r.clock := rfl
@[simp] theorem Run.modTrunk_events : (r.modTrunk i f).events = r.events := rfl
@[simp] theorem Run.modTrunk_console : (r.modTrunk i f).console = r.console := rfl
@[simp] theorem Run.modTrunk_reports : (r.modTrunk i f).reports = r.reports := rfl
@[simp] theorem Run.modTrunk_nodes : (r.modTrunk i f).nodes = r.nodes := rfl
@[simp] theorem Run.modTrunk_axes : (r.modTrunk i f).axes = r.axes := rfl
@[simp] theorem Run.modTrunk_plan : (r.modTrunk i f).plan = r.plan := rfl
@[simp] theorem Run.modTrunk_zones : (r.modTrunk i f).zones = r.zones := rfl
@[simp] theorem Run.modTrunk_doors : (r.modTrunk i f).doors = r.doors := rfl
@[simp] theorem Run.modTrunk_areas : (r.modTrunk i f).areas = r.areas := rfl
@[simp] theorem Run.modTrunk_calls : (r.modTrunk i f).calls = r.calls := rfl
@[simp] theorem Run.modTrunk_callCounter : (r.modTrunk i f).callCounter = r.callCounter := rfl
@[simp] theorem Run.modTrunk_channels : (r.modTrunk i f).channels = r.channels := rfl
@[simp] theorem Run.modTrunk_monitors : (r.modTrunk i f).monitors = r.monitors := rfl
@[simp] theorem Run.modTrunk_lines : (r.modTrunk i f).lines = r.lines := rfl
@[simp] theorem Run.modTrunk_outputs : (r.modTrunk i f).outputs = r.outputs := rfl
@[simp] theorem Run.modTrunk_chain : (r.modTrunk i f).chain = r.chain := rfl
@[simp] theorem Run.modTrunk_store : (r.modTrunk i f).store = r.store := rfl
@[simp] theorem Run.modTrunk_serial : (r.modTrunk i f).serial = r.serial := rfl
@[simp] theorem Run.modTrunk_entered : (r.modTrunk i f).entered = r.entered := rfl
@[simp] theorem Run.modTrunk_freeCount : (r.modTrunk i f).freeCount = r.freeCount := rfl
@[simp] theorem Run.modTrunk_self : (r.modTrunk i f).trunks[i] = f r.trunks[i] := by simp [Run.modTrunk]
theorem Run.modTrunk_ne (h : j ≠ i) : (r.modTrunk i f).trunks[j] = r.trunks[j] := by
  have : i.val ≠ j.val := fun e => h (Fin.ext e.symm)
  simp [Run.modTrunk, this]
end

section
variable (r : Run) (i j : Fin 124) (f : NodeRt → NodeRt)
@[simp] theorem Run.modNode_gw : (r.modNode i f).gw = r.gw := rfl
@[simp] theorem Run.modNode_clock : (r.modNode i f).clock = r.clock := rfl
@[simp] theorem Run.modNode_events : (r.modNode i f).events = r.events := rfl
@[simp] theorem Run.modNode_console : (r.modNode i f).console = r.console := rfl
@[simp] theorem Run.modNode_reports : (r.modNode i f).reports = r.reports := rfl
@[simp] theorem Run.modNode_trunks : (r.modNode i f).trunks = r.trunks := rfl
@[simp] theorem Run.modNode_axes : (r.modNode i f).axes = r.axes := rfl
@[simp] theorem Run.modNode_plan : (r.modNode i f).plan = r.plan := rfl
@[simp] theorem Run.modNode_zones : (r.modNode i f).zones = r.zones := rfl
@[simp] theorem Run.modNode_doors : (r.modNode i f).doors = r.doors := rfl
@[simp] theorem Run.modNode_areas : (r.modNode i f).areas = r.areas := rfl
@[simp] theorem Run.modNode_calls : (r.modNode i f).calls = r.calls := rfl
@[simp] theorem Run.modNode_callCounter : (r.modNode i f).callCounter = r.callCounter := rfl
@[simp] theorem Run.modNode_channels : (r.modNode i f).channels = r.channels := rfl
@[simp] theorem Run.modNode_monitors : (r.modNode i f).monitors = r.monitors := rfl
@[simp] theorem Run.modNode_lines : (r.modNode i f).lines = r.lines := rfl
@[simp] theorem Run.modNode_outputs : (r.modNode i f).outputs = r.outputs := rfl
@[simp] theorem Run.modNode_chain : (r.modNode i f).chain = r.chain := rfl
@[simp] theorem Run.modNode_store : (r.modNode i f).store = r.store := rfl
@[simp] theorem Run.modNode_serial : (r.modNode i f).serial = r.serial := rfl
@[simp] theorem Run.modNode_entered : (r.modNode i f).entered = r.entered := rfl
@[simp] theorem Run.modNode_freeCount : (r.modNode i f).freeCount = r.freeCount := rfl
@[simp] theorem Run.modNode_self : (r.modNode i f).nodes[i] = f r.nodes[i] := by simp [Run.modNode]
theorem Run.modNode_ne (h : j ≠ i) : (r.modNode i f).nodes[j] = r.nodes[j] := by
  have : i.val ≠ j.val := fun e => h (Fin.ext e.symm)
  simp [Run.modNode, this]
end

section
variable (r : Run) (i j : Fin 6) (f : AxisRt → AxisRt)
@[simp] theorem Run.modAxis_gw : (r.modAxis i f).gw = r.gw := rfl
@[simp] theorem Run.modAxis_clock : (r.modAxis i f).clock = r.clock := rfl
@[simp] theorem Run.modAxis_events : (r.modAxis i f).events = r.events := rfl
@[simp] theorem Run.modAxis_console : (r.modAxis i f).console = r.console := rfl
@[simp] theorem Run.modAxis_reports : (r.modAxis i f).reports = r.reports := rfl
@[simp] theorem Run.modAxis_trunks : (r.modAxis i f).trunks = r.trunks := rfl
@[simp] theorem Run.modAxis_nodes : (r.modAxis i f).nodes = r.nodes := rfl
@[simp] theorem Run.modAxis_plan : (r.modAxis i f).plan = r.plan := rfl
@[simp] theorem Run.modAxis_zones : (r.modAxis i f).zones = r.zones := rfl
@[simp] theorem Run.modAxis_doors : (r.modAxis i f).doors = r.doors := rfl
@[simp] theorem Run.modAxis_areas : (r.modAxis i f).areas = r.areas := rfl
@[simp] theorem Run.modAxis_calls : (r.modAxis i f).calls = r.calls := rfl
@[simp] theorem Run.modAxis_callCounter : (r.modAxis i f).callCounter = r.callCounter := rfl
@[simp] theorem Run.modAxis_channels : (r.modAxis i f).channels = r.channels := rfl
@[simp] theorem Run.modAxis_monitors : (r.modAxis i f).monitors = r.monitors := rfl
@[simp] theorem Run.modAxis_lines : (r.modAxis i f).lines = r.lines := rfl
@[simp] theorem Run.modAxis_outputs : (r.modAxis i f).outputs = r.outputs := rfl
@[simp] theorem Run.modAxis_chain : (r.modAxis i f).chain = r.chain := rfl
@[simp] theorem Run.modAxis_store : (r.modAxis i f).store = r.store := rfl
@[simp] theorem Run.modAxis_serial : (r.modAxis i f).serial = r.serial := rfl
@[simp] theorem Run.modAxis_entered : (r.modAxis i f).entered = r.entered := rfl
@[simp] theorem Run.modAxis_freeCount : (r.modAxis i f).freeCount = r.freeCount := rfl
@[simp] theorem Run.modAxis_self : (r.modAxis i f).axes[i] = f r.axes[i] := by simp [Run.modAxis]
theorem Run.modAxis_ne (h : j ≠ i) : (r.modAxis i f).axes[j] = r.axes[j] := by
  have : i.val ≠ j.val := fun e => h (Fin.ext e.symm)
  simp [Run.modAxis, this]
end

section
variable (r : Run) (i j : Fin 8) (f : ZoneRt → ZoneRt)
@[simp] theorem Run.modZone_gw : (r.modZone i f).gw = r.gw := rfl
@[simp] theorem Run.modZone_clock : (r.modZone i f).clock = r.clock := rfl
@[simp] theorem Run.modZone_events : (r.modZone i f).events = r.events := rfl
@[simp] theorem Run.modZone_console : (r.modZone i f).console = r.console := rfl
@[simp] theorem Run.modZone_reports : (r.modZone i f).reports = r.reports := rfl
@[simp] theorem Run.modZone_trunks : (r.modZone i f).trunks = r.trunks := rfl
@[simp] theorem Run.modZone_nodes : (r.modZone i f).nodes = r.nodes := rfl
@[simp] theorem Run.modZone_axes : (r.modZone i f).axes = r.axes := rfl
@[simp] theorem Run.modZone_plan : (r.modZone i f).plan = r.plan := rfl
@[simp] theorem Run.modZone_doors : (r.modZone i f).doors = r.doors := rfl
@[simp] theorem Run.modZone_areas : (r.modZone i f).areas = r.areas := rfl
@[simp] theorem Run.modZone_calls : (r.modZone i f).calls = r.calls := rfl
@[simp] theorem Run.modZone_callCounter : (r.modZone i f).callCounter = r.callCounter := rfl
@[simp] theorem Run.modZone_channels : (r.modZone i f).channels = r.channels := rfl
@[simp] theorem Run.modZone_monitors : (r.modZone i f).monitors = r.monitors := rfl
@[simp] theorem Run.modZone_lines : (r.modZone i f).lines = r.lines := rfl
@[simp] theorem Run.modZone_outputs : (r.modZone i f).outputs = r.outputs := rfl
@[simp] theorem Run.modZone_chain : (r.modZone i f).chain = r.chain := rfl
@[simp] theorem Run.modZone_store : (r.modZone i f).store = r.store := rfl
@[simp] theorem Run.modZone_serial : (r.modZone i f).serial = r.serial := rfl
@[simp] theorem Run.modZone_entered : (r.modZone i f).entered = r.entered := rfl
@[simp] theorem Run.modZone_freeCount : (r.modZone i f).freeCount = r.freeCount := rfl
@[simp] theorem Run.modZone_self : (r.modZone i f).zones[i] = f r.zones[i] := by simp [Run.modZone]
theorem Run.modZone_ne (h : j ≠ i) : (r.modZone i f).zones[j] = r.zones[j] := by
  have : i.val ≠ j.val := fun e => h (Fin.ext e.symm)
  simp [Run.modZone, this]
end

section
variable (r : Run) (i j : Fin 32) (f : DoorRt → DoorRt)
@[simp] theorem Run.modDoor_gw : (r.modDoor i f).gw = r.gw := rfl
@[simp] theorem Run.modDoor_clock : (r.modDoor i f).clock = r.clock := rfl
@[simp] theorem Run.modDoor_events : (r.modDoor i f).events = r.events := rfl
@[simp] theorem Run.modDoor_console : (r.modDoor i f).console = r.console := rfl
@[simp] theorem Run.modDoor_reports : (r.modDoor i f).reports = r.reports := rfl
@[simp] theorem Run.modDoor_trunks : (r.modDoor i f).trunks = r.trunks := rfl
@[simp] theorem Run.modDoor_nodes : (r.modDoor i f).nodes = r.nodes := rfl
@[simp] theorem Run.modDoor_axes : (r.modDoor i f).axes = r.axes := rfl
@[simp] theorem Run.modDoor_plan : (r.modDoor i f).plan = r.plan := rfl
@[simp] theorem Run.modDoor_zones : (r.modDoor i f).zones = r.zones := rfl
@[simp] theorem Run.modDoor_areas : (r.modDoor i f).areas = r.areas := rfl
@[simp] theorem Run.modDoor_calls : (r.modDoor i f).calls = r.calls := rfl
@[simp] theorem Run.modDoor_callCounter : (r.modDoor i f).callCounter = r.callCounter := rfl
@[simp] theorem Run.modDoor_channels : (r.modDoor i f).channels = r.channels := rfl
@[simp] theorem Run.modDoor_monitors : (r.modDoor i f).monitors = r.monitors := rfl
@[simp] theorem Run.modDoor_lines : (r.modDoor i f).lines = r.lines := rfl
@[simp] theorem Run.modDoor_outputs : (r.modDoor i f).outputs = r.outputs := rfl
@[simp] theorem Run.modDoor_chain : (r.modDoor i f).chain = r.chain := rfl
@[simp] theorem Run.modDoor_store : (r.modDoor i f).store = r.store := rfl
@[simp] theorem Run.modDoor_serial : (r.modDoor i f).serial = r.serial := rfl
@[simp] theorem Run.modDoor_entered : (r.modDoor i f).entered = r.entered := rfl
@[simp] theorem Run.modDoor_freeCount : (r.modDoor i f).freeCount = r.freeCount := rfl
@[simp] theorem Run.modDoor_self : (r.modDoor i f).doors[i] = f r.doors[i] := by simp [Run.modDoor]
theorem Run.modDoor_ne (h : j ≠ i) : (r.modDoor i f).doors[j] = r.doors[j] := by
  have : i.val ≠ j.val := fun e => h (Fin.ext e.symm)
  simp [Run.modDoor, this]
end

section
variable (r : Run) (i j : Fin 16) (f : AreaRt → AreaRt)
@[simp] theorem Run.modArea_gw : (r.modArea i f).gw = r.gw := rfl
@[simp] theorem Run.modArea_clock : (r.modArea i f).clock = r.clock := rfl
@[simp] theorem Run.modArea_events : (r.modArea i f).events = r.events := rfl
@[simp] theorem Run.modArea_console : (r.modArea i f).console = r.console := rfl
@[simp] theorem Run.modArea_reports : (r.modArea i f).reports = r.reports := rfl
@[simp] theorem Run.modArea_trunks : (r.modArea i f).trunks = r.trunks := rfl
@[simp] theorem Run.modArea_nodes : (r.modArea i f).nodes = r.nodes := rfl
@[simp] theorem Run.modArea_axes : (r.modArea i f).axes = r.axes := rfl
@[simp] theorem Run.modArea_plan : (r.modArea i f).plan = r.plan := rfl
@[simp] theorem Run.modArea_zones : (r.modArea i f).zones = r.zones := rfl
@[simp] theorem Run.modArea_doors : (r.modArea i f).doors = r.doors := rfl
@[simp] theorem Run.modArea_calls : (r.modArea i f).calls = r.calls := rfl
@[simp] theorem Run.modArea_callCounter : (r.modArea i f).callCounter = r.callCounter := rfl
@[simp] theorem Run.modArea_channels : (r.modArea i f).channels = r.channels := rfl
@[simp] theorem Run.modArea_monitors : (r.modArea i f).monitors = r.monitors := rfl
@[simp] theorem Run.modArea_lines : (r.modArea i f).lines = r.lines := rfl
@[simp] theorem Run.modArea_outputs : (r.modArea i f).outputs = r.outputs := rfl
@[simp] theorem Run.modArea_chain : (r.modArea i f).chain = r.chain := rfl
@[simp] theorem Run.modArea_store : (r.modArea i f).store = r.store := rfl
@[simp] theorem Run.modArea_serial : (r.modArea i f).serial = r.serial := rfl
@[simp] theorem Run.modArea_entered : (r.modArea i f).entered = r.entered := rfl
@[simp] theorem Run.modArea_freeCount : (r.modArea i f).freeCount = r.freeCount := rfl
@[simp] theorem Run.modArea_self : (r.modArea i f).areas[i] = f r.areas[i] := by simp [Run.modArea]
theorem Run.modArea_ne (h : j ≠ i) : (r.modArea i f).areas[j] = r.areas[j] := by
  have : i.val ≠ j.val := fun e => h (Fin.ext e.symm)
  simp [Run.modArea, this]
end

section
variable (r : Run) (i j : Fin 32) (f : ChannelRt → ChannelRt)
@[simp] theorem Run.modChannel_gw : (r.modChannel i f).gw = r.gw := rfl
@[simp] theorem Run.modChannel_clock : (r.modChannel i f).clock = r.clock := rfl
@[simp] theorem Run.modChannel_events : (r.modChannel i f).events = r.events := rfl
@[simp] theorem Run.modChannel_console : (r.modChannel i f).console = r.console := rfl
@[simp] theorem Run.modChannel_reports : (r.modChannel i f).reports = r.reports := rfl
@[simp] theorem Run.modChannel_trunks : (r.modChannel i f).trunks = r.trunks := rfl
@[simp] theorem Run.modChannel_nodes : (r.modChannel i f).nodes = r.nodes := rfl
@[simp] theorem Run.modChannel_axes : (r.modChannel i f).axes = r.axes := rfl
@[simp] theorem Run.modChannel_plan : (r.modChannel i f).plan = r.plan := rfl
@[simp] theorem Run.modChannel_zones : (r.modChannel i f).zones = r.zones := rfl
@[simp] theorem Run.modChannel_doors : (r.modChannel i f).doors = r.doors := rfl
@[simp] theorem Run.modChannel_areas : (r.modChannel i f).areas = r.areas := rfl
@[simp] theorem Run.modChannel_calls : (r.modChannel i f).calls = r.calls := rfl
@[simp] theorem Run.modChannel_callCounter : (r.modChannel i f).callCounter = r.callCounter := rfl
@[simp] theorem Run.modChannel_monitors : (r.modChannel i f).monitors = r.monitors := rfl
@[simp] theorem Run.modChannel_lines : (r.modChannel i f).lines = r.lines := rfl
@[simp] theorem Run.modChannel_outputs : (r.modChannel i f).outputs = r.outputs := rfl
@[simp] theorem Run.modChannel_chain : (r.modChannel i f).chain = r.chain := rfl
@[simp] theorem Run.modChannel_store : (r.modChannel i f).store = r.store := rfl
@[simp] theorem Run.modChannel_serial : (r.modChannel i f).serial = r.serial := rfl
@[simp] theorem Run.modChannel_entered : (r.modChannel i f).entered = r.entered := rfl
@[simp] theorem Run.modChannel_freeCount : (r.modChannel i f).freeCount = r.freeCount := rfl
@[simp] theorem Run.modChannel_self : (r.modChannel i f).channels[i] = f r.channels[i] := by simp [Run.modChannel]
theorem Run.modChannel_ne (h : j ≠ i) : (r.modChannel i f).channels[j] = r.channels[j] := by
  have : i.val ≠ j.val := fun e => h (Fin.ext e.symm)
  simp [Run.modChannel, this]
end

section
variable (r : Run) (i j : Fin 16) (f : MonitorRt → MonitorRt)
@[simp] theorem Run.modMonitor_gw : (r.modMonitor i f).gw = r.gw := rfl
@[simp] theorem Run.modMonitor_clock : (r.modMonitor i f).clock = r.clock := rfl
@[simp] theorem Run.modMonitor_events : (r.modMonitor i f).events = r.events := rfl
@[simp] theorem Run.modMonitor_console : (r.modMonitor i f).console = r.console := rfl
@[simp] theorem Run.modMonitor_reports : (r.modMonitor i f).reports = r.reports := rfl
@[simp] theorem Run.modMonitor_trunks : (r.modMonitor i f).trunks = r.trunks := rfl
@[simp] theorem Run.modMonitor_nodes : (r.modMonitor i f).nodes = r.nodes := rfl
@[simp] theorem Run.modMonitor_axes : (r.modMonitor i f).axes = r.axes := rfl
@[simp] theorem Run.modMonitor_plan : (r.modMonitor i f).plan = r.plan := rfl
@[simp] theorem Run.modMonitor_zones : (r.modMonitor i f).zones = r.zones := rfl
@[simp] theorem Run.modMonitor_doors : (r.modMonitor i f).doors = r.doors := rfl
@[simp] theorem Run.modMonitor_areas : (r.modMonitor i f).areas = r.areas := rfl
@[simp] theorem Run.modMonitor_calls : (r.modMonitor i f).calls = r.calls := rfl
@[simp] theorem Run.modMonitor_callCounter : (r.modMonitor i f).callCounter = r.callCounter := rfl
@[simp] theorem Run.modMonitor_channels : (r.modMonitor i f).channels = r.channels := rfl
@[simp] theorem Run.modMonitor_lines : (r.modMonitor i f).lines = r.lines := rfl
@[simp] theorem Run.modMonitor_outputs : (r.modMonitor i f).outputs = r.outputs := rfl
@[simp] theorem Run.modMonitor_chain : (r.modMonitor i f).chain = r.chain := rfl
@[simp] theorem Run.modMonitor_store : (r.modMonitor i f).store = r.store := rfl
@[simp] theorem Run.modMonitor_serial : (r.modMonitor i f).serial = r.serial := rfl
@[simp] theorem Run.modMonitor_entered : (r.modMonitor i f).entered = r.entered := rfl
@[simp] theorem Run.modMonitor_freeCount : (r.modMonitor i f).freeCount = r.freeCount := rfl
@[simp] theorem Run.modMonitor_self : (r.modMonitor i f).monitors[i] = f r.monitors[i] := by simp [Run.modMonitor]
theorem Run.modMonitor_ne (h : j ≠ i) : (r.modMonitor i f).monitors[j] = r.monitors[j] := by
  have : i.val ≠ j.val := fun e => h (Fin.ext e.symm)
  simp [Run.modMonitor, this]
end

section
variable (r : Run) (i j : Fin 14) (f : LineRt → LineRt)
@[simp] theorem Run.modLine_gw : (r.modLine i f).gw = r.gw := rfl
@[simp] theorem Run.modLine_clock : (r.modLine i f).clock = r.clock := rfl
@[simp] theorem Run.modLine_events : (r.modLine i f).events = r.events := rfl
@[simp] theorem Run.modLine_console : (r.modLine i f).console = r.console := rfl
@[simp] theorem Run.modLine_reports : (r.modLine i f).reports = r.reports := rfl
@[simp] theorem Run.modLine_trunks : (r.modLine i f).trunks = r.trunks := rfl
@[simp] theorem Run.modLine_nodes : (r.modLine i f).nodes = r.nodes := rfl
@[simp] theorem Run.modLine_axes : (r.modLine i f).axes = r.axes := rfl
@[simp] theorem Run.modLine_plan : (r.modLine i f).plan = r.plan := rfl
@[simp] theorem Run.modLine_zones : (r.modLine i f).zones = r.zones := rfl
@[simp] theorem Run.modLine_doors : (r.modLine i f).doors = r.doors := rfl
@[simp] theorem Run.modLine_areas : (r.modLine i f).areas = r.areas := rfl
@[simp] theorem Run.modLine_calls : (r.modLine i f).calls = r.calls := rfl
@[simp] theorem Run.modLine_callCounter : (r.modLine i f).callCounter = r.callCounter := rfl
@[simp] theorem Run.modLine_channels : (r.modLine i f).channels = r.channels := rfl
@[simp] theorem Run.modLine_monitors : (r.modLine i f).monitors = r.monitors := rfl
@[simp] theorem Run.modLine_outputs : (r.modLine i f).outputs = r.outputs := rfl
@[simp] theorem Run.modLine_chain : (r.modLine i f).chain = r.chain := rfl
@[simp] theorem Run.modLine_store : (r.modLine i f).store = r.store := rfl
@[simp] theorem Run.modLine_serial : (r.modLine i f).serial = r.serial := rfl
@[simp] theorem Run.modLine_entered : (r.modLine i f).entered = r.entered := rfl
@[simp] theorem Run.modLine_freeCount : (r.modLine i f).freeCount = r.freeCount := rfl
@[simp] theorem Run.modLine_self : (r.modLine i f).lines[i] = f r.lines[i] := by simp [Run.modLine]
theorem Run.modLine_ne (h : j ≠ i) : (r.modLine i f).lines[j] = r.lines[j] := by
  have : i.val ≠ j.val := fun e => h (Fin.ext e.symm)
  simp [Run.modLine, this]
end

section
variable (r : Run) (i j : Fin 4) (f : OutputRt → OutputRt)
@[simp] theorem Run.modOutput_gw : (r.modOutput i f).gw = r.gw := rfl
@[simp] theorem Run.modOutput_clock : (r.modOutput i f).clock = r.clock := rfl
@[simp] theorem Run.modOutput_events : (r.modOutput i f).events = r.events := rfl
@[simp] theorem Run.modOutput_console : (r.modOutput i f).console = r.console := rfl
@[simp] theorem Run.modOutput_reports : (r.modOutput i f).reports = r.reports := rfl
@[simp] theorem Run.modOutput_trunks : (r.modOutput i f).trunks = r.trunks := rfl
@[simp] theorem Run.modOutput_nodes : (r.modOutput i f).nodes = r.nodes := rfl
@[simp] theorem Run.modOutput_axes : (r.modOutput i f).axes = r.axes := rfl
@[simp] theorem Run.modOutput_plan : (r.modOutput i f).plan = r.plan := rfl
@[simp] theorem Run.modOutput_zones : (r.modOutput i f).zones = r.zones := rfl
@[simp] theorem Run.modOutput_doors : (r.modOutput i f).doors = r.doors := rfl
@[simp] theorem Run.modOutput_areas : (r.modOutput i f).areas = r.areas := rfl
@[simp] theorem Run.modOutput_calls : (r.modOutput i f).calls = r.calls := rfl
@[simp] theorem Run.modOutput_callCounter : (r.modOutput i f).callCounter = r.callCounter := rfl
@[simp] theorem Run.modOutput_channels : (r.modOutput i f).channels = r.channels := rfl
@[simp] theorem Run.modOutput_monitors : (r.modOutput i f).monitors = r.monitors := rfl
@[simp] theorem Run.modOutput_lines : (r.modOutput i f).lines = r.lines := rfl
@[simp] theorem Run.modOutput_chain : (r.modOutput i f).chain = r.chain := rfl
@[simp] theorem Run.modOutput_store : (r.modOutput i f).store = r.store := rfl
@[simp] theorem Run.modOutput_serial : (r.modOutput i f).serial = r.serial := rfl
@[simp] theorem Run.modOutput_entered : (r.modOutput i f).entered = r.entered := rfl
@[simp] theorem Run.modOutput_freeCount : (r.modOutput i f).freeCount = r.freeCount := rfl
@[simp] theorem Run.modOutput_self : (r.modOutput i f).outputs[i] = f r.outputs[i] := by simp [Run.modOutput]
theorem Run.modOutput_ne (h : j ≠ i) : (r.modOutput i f).outputs[j] = r.outputs[j] := by
  have : i.val ≠ j.val := fun e => h (Fin.ext e.symm)
  simp [Run.modOutput, this]
end

@[simp] theorem State.setRun_pending (s : State) (r : Run) : (s.setRun r).pending = s.pending := rfl
@[simp] theorem State.setRun_cfg (s : State) (r : Run) : (s.setRun r).cfg = s.cfg := rfl
@[simp] theorem State.setRun_run (s : State) (r : Run) : (s.setRun r).run = r := rfl
@[simp] theorem State.setRun_extMem (s : State) (r : Run) : (s.setRun r).extMem = s.extMem := rfl
@[simp] theorem State.setRun_extTorn (s : State) (r : Run) : (s.setRun r).extTorn = s.extTorn := rfl
@[simp] theorem State.setCfg_pending (s : State) (c : Tables) : (s.setCfg c).pending = s.pending := rfl
@[simp] theorem State.setCfg_cfg (s : State) (c : Tables) : (s.setCfg c).cfg = c := rfl
@[simp] theorem State.setCfg_run (s : State) (c : Tables) : (s.setCfg c).run = s.run := rfl
@[simp] theorem State.setCfg_extMem (s : State) (c : Tables) : (s.setCfg c).extMem = s.extMem := rfl
@[simp] theorem State.setCfg_extTorn (s : State) (c : Tables) : (s.setCfg c).extTorn = s.extTorn := rfl
@[simp] theorem State.setPending_pending (s : State) (q : List Instr) : (s.setPending q).pending = q := rfl
@[simp] theorem State.setPending_cfg (s : State) (q : List Instr) : (s.setPending q).cfg = s.cfg := rfl
@[simp] theorem State.setPending_run (s : State) (q : List Instr) : (s.setPending q).run = s.run := rfl
@[simp] theorem State.setPending_extMem (s : State) (q : List Instr) : (s.setPending q).extMem = s.extMem := rfl
@[simp] theorem State.setPending_extTorn (s : State) (q : List Instr) : (s.setPending q).extTorn = s.extTorn := rfl
@[simp] theorem State.setMem_pending (s : State) (m : Memory) (b : Bool) : (s.setMem m b).pending = s.pending := rfl
@[simp] theorem State.setMem_cfg (s : State) (m : Memory) (b : Bool) : (s.setMem m b).cfg = s.cfg := rfl
@[simp] theorem State.setMem_run (s : State) (m : Memory) (b : Bool) : (s.setMem m b).run = s.run := rfl
@[simp] theorem State.setMem_extMem (s : State) (m : Memory) (b : Bool) : (s.setMem m b).extMem = m := rfl
@[simp] theorem State.setMem_extTorn (s : State) (m : Memory) (b : Bool) : (s.setMem m b).extTorn = b := rfl

end Sys2Proof.Machine
end

