-- ==== Sys2Proof/Laws/Ops.lean ====
section
/-! SUPPORT. What each shared operation does, said once: the arrival of a request, the forms, expiries,
offers, and the readings of the state that the rules name. -/

namespace Sys2Proof.Machine

/-! ### Updates of one record, twice and back -/

section
variable (r : Run)

theorem Run.modAxis_modAxis (i : Fin 6) (f g : AxisRt → AxisRt) :
    (r.modAxis i f).modAxis i g = r.modAxis i fun x => g (f x) := by simp [Run.modAxis]

theorem Run.modDoor_modDoor (i : Fin 32) (f g : DoorRt → DoorRt) :
    (r.modDoor i f).modDoor i g = r.modDoor i fun x => g (f x) := by simp [Run.modDoor]

theorem Run.modZone_modZone (i : Fin 8) (f g : ZoneRt → ZoneRt) :
    (r.modZone i f).modZone i g = r.modZone i fun x => g (f x) := by simp [Run.modZone]

theorem Run.modMonitor_modMonitor (i : Fin 16) (f g : MonitorRt → MonitorRt) :
    (r.modMonitor i f).modMonitor i g = r.modMonitor i fun x => g (f x) := by simp [Run.modMonitor]

theorem Run.modTrunk_modTrunk (i : Fin 4) (f g : TrunkRt → TrunkRt) :
    (r.modTrunk i f).modTrunk i g = r.modTrunk i fun x => g (f x) := by simp [Run.modTrunk]

/-- Two changes of one record that agree on it are one. -/
theorem Run.modAxis_congr (i : Fin 6) {f g : AxisRt → AxisRt} (h : f r.axes[i] = g r.axes[i]) :
    r.modAxis i f = r.modAxis i g := by unfold Run.modAxis; rw [h]

theorem Run.modDoor_congr (i : Fin 32) {f g : DoorRt → DoorRt} (h : f r.doors[i] = g r.doors[i]) :
    r.modDoor i f = r.modDoor i g := by unfold Run.modDoor; rw [h]

theorem Run.modZone_congr (i : Fin 8) {f g : ZoneRt → ZoneRt} (h : f r.zones[i] = g r.zones[i]) :
    r.modZone i f = r.modZone i g := by unfold Run.modZone; rw [h]

theorem Run.modMonitor_congr (i : Fin 16) {f g : MonitorRt → MonitorRt}
    (h : f r.monitors[i] = g r.monitors[i]) : r.modMonitor i f = r.modMonitor i g := by
  unfold Run.modMonitor; rw [h]
end

/-! ### Arrival of requests -/

/-- A function request that reaches its function is that unit's reply, answered (R2, R21, R22). -/
theorem requested_reaches {s : State} {dst : Word} {f : Function} (h : Reaches s dst f) (src : Word)
    (tag code : Byte) {body : List Byte} (hl : body.length ≤ 239) :
    s.requested src dst tag code body =
      (let o := functionRequest s.cfg s.run f code.toNat body
       answered s o.1 { src, dst, tag } o.2.1 o.2.2) := by
  obtain ⟨⟨hp, hg, hr⟩, hu, hd, hf⟩ := h
  have hb : busyNow s.run = false := by simp [busyNow, hg, hr]
  have hl' : ¬ maxConsolePayload < (code :: body).length := by
    simp only [maxConsolePayload, List.length_cons]; omega
  unfold State.requested State.event State.arrive answered
  dsimp only
  rw [if_neg hl']
  simp only [hp]
  simp only [State.deckFrame, hb, hd, hu, if_false, Bool.false_eq_true]
  simp only [Run.functionFrame, hf, Run.answerReply]
  rfl

/-- A management request that is listened to and served is handled (R2, R4). -/
theorem managed_serves {s : State} {m : Management} (h : Serves s m) (src : Word) (tag code : Byte)
    {body : List Byte} (k : State → State) (hl : body.length ≤ 239) :
    s.managed src tag code body m k = .next (k s).settle := by
  obtain ⟨⟨hp, hg, hr⟩, hm⟩ := h
  have hb : busyNow s.run = false := by simp [busyNow, hg, hr]
  have hl' : ¬ maxConsolePayload < (code :: body).length := by
    simp only [maxConsolePayload, List.length_cons]; omega
  unfold State.managed State.event State.arrive
  dsimp only
  rw [if_neg hl']
  simp only [hp, State.manage, hb, hm, if_false, Bool.false_eq_true]

/-! ### Expiries -/

/-- A timer that runs: the expiry acts, and the event closes (log 2). -/
theorem expiry_running {s : State} {t : Timer} (f : Tables → Run → Run) (h : t.isSome = true) :
    s.expiry t.isSome f = closed s (f s.cfg s.run) := by
  simp [State.expiry, State.event, closed, h]

/-- A stopped timer: the expiry changes nothing, and the event closes (log 2). -/
theorem expiry_stopped {s : State} {t : Timer} (f : Tables → Run → Run) (h : t = none) :
    s.expiry t.isSome f = closed s s.run := by
  subst h; rfl

theorem expiry_true {s : State} {b : Bool} (f : Tables → Run → Run) (h : b = true) :
    s.expiry b f = closed s (f s.cfg s.run) := by
  subst h; rfl

theorem expiry_false {s : State} {b : Bool} (f : Tables → Run → Run) (h : b = false) :
    s.expiry b f = closed s s.run := by
  subst h; rfl

/-! ### Forms -/

/-- A form that reads its fields whole takes the request. -/
theorem withForm_reads {α : Type} {n : Nat} {p : Parse α} {body : List Byte} {a : α}
    (h : ReadsFields n p body a) (r : Run) (k : α → Reply) : withForm (form p) body r k = k a := by
  have := h 1 []
  simp only [List.append_nil] at this
  unfold withForm Parse.run' form
  rw [show (p >>= fun a => done >>= fun _ => pure a) { field := 1, bytes := body }
      = (done >>= fun _ => pure a) { field := 1 + n, bytes := [] } from bind_ok this]
  rfl

theorem withForm_none (r : Run) (k : Unit → Reply) : withForm formNone [] r k = k () := rfl

/-- Bytes behind a request without fields are refused as its one field, the code (R71, log 4). -/
theorem withForm_none_more (b : Byte) (l : List Byte) (r : Run) (k : Unit → Reply) :
    withForm formNone (b :: l) r k = badForm r 1 := rfl

theorem formMove_reads {t : Int} (l : Bool) (h : -32768 ≤ t) (h' : t ≤ 32767) :
    ReadsFields 2 (do let t ← fld (sint2 (-32768) 32767); let l ← fld bool1; pure (t, l))
      (i2 t ++ bBool l) (t, l) :=
  have hw : withinInt (-32768) 32767 t = true := by simp [withinInt, h, h']
  ReadsFields.bind (m := 1) (n := 1) (reads_sint2 hw hw).fld ((reads_bool1 l).fld.bind_pure (readsFields_pure _))

/-! ### What the rules read -/

theorem inMotion_iff (x : AxisRt) : x.state.inMotion = true ↔ InMotion x := by
  unfold InMotion; cases x.state <;> simp [AxisState.inMotion]

theorem fireHolds_iff (c : Tables) (r : Run) (a : Fin 6) : fireHolds c r a = true ↔ FireHolds c r a := by
  unfold fireHolds FireHolds
  cases h : c.axes[a].zone <;> simp

theorem prereqMet_iff (r : Run) (q : Option Prereq) : prereqMet r q = true ↔ Satisfied r q := by
  unfold prereqMet Satisfied
  cases q with
  | none => simp
  | some p =>
    cases h : r.axes[p.axis].latest with
    | none => simp_all
    | some d => simp_all [and_assoc]

theorem prereqsMet_iff (c : Tables) (r : Run) (a : Fin 6) :
    prereqsMet c r a = true ↔ Satisfied r c.axes[a].prereq1 ∧ Satisfied r c.axes[a].prereq2 := by
  simp only [prereqsMet, Bool.and_eq_true, prereqMet_iff]

theorem planNames_iff (r : Run) (a : Fin 6) : planNames r a = true ↔ InPlan r a := by
  simp [planNames, InPlan]

/-- No closure on any zone of the door. -/
theorem lowestActiveZone_none (c : Tables) (r : Run) (d : Fin 32) :
    lowestActiveZone r c.doors[d] = none ↔ ¬UnderClosure c r d := by
  unfold lowestActiveZone lowestZone UnderClosure
  rw [List.find?_eq_none]
  simp

/-- The lowest index that satisfies a test is the first one found. -/
theorem find_lowest {n : Nat} {p : Fin n → Bool} {z : Fin n} (hz : p z = true)
    (hm : ∀ y, p y = true → z ≤ y) : (List.finRange n).find? p = some z := by
  rw [List.find?_eq_some_iff_getElem]
  refine ⟨hz, z.val, by simp, by simp, fun j hj => ?_⟩
  rw [List.getElem_finRange]
  by_contra hc
  have := hm _ (by simpa using hc)
  simp only [Fin.le_def] at this
  omega

/-- The lowest zone of the door with its closure active. -/
theorem lowestActiveZone_some {c : Tables} {r : Run} {d : Fin 32} {z : Fin 8}
    (hz : z ∈ doorZones c.doors[d]) (ha : r.zones[z].active = true)
    (hm : ∀ y ∈ doorZones c.doors[d], r.zones[y].active = true → z ≤ y) :
    lowestActiveZone r c.doors[d] = some z :=
  find_lowest (by simp only [List.contains_eq_mem, hz, ha, decide_true, Bool.and_self]) fun y hy => by
    simp only [List.contains_eq_mem, Bool.and_eq_true, decide_eq_true_eq] at hy
    exact hm y hy.1 hy.2

end Sys2Proof.Machine
end

