-- ==== Sys2Proof/Laws/PerInstr.lean ====
section
/-! SUPPORT. A law of every command as syntax, one lemma a constructor: the console frame that a
well-formed command arrives as fits the link and is read back whole by the receiver. -/

/-- A well-formed command's frame has a payload the length byte can give, and its buffer with its
CRC gives the frame back (R1, R185). -/
def Sys2Proof.Laws.Wire.Statement (i : Sys2Proof.Instr) : Prop :=
  i.wf = true → ∀ f, i.frame = some f →
    f.payload.length ≤ Sys2Proof.Machine.maxConsolePayload ∧
    Sys2Proof.Machine.frameOfBuffer
        (f.covered ++ Sys2Proof.Machine.w2 (Sys2Proof.Machine.crc16 f.covered)) = some f

open Sys2Proof Sys2Proof.Machine

/-- A command that is no console frame. -/
theorem Sys2Proof.Laws.no_wire {i : Instr} (h : i.frame = none) : Laws.Wire.Statement i := by
  intro _ f hf
  rw [h] at hf
  cases hf

/-- A command whose frame fits. -/
theorem Sys2Proof.Laws.wire_of_fits {i : Instr} {g : Frame} (hg : i.frame = some g)
    (hl : i.wf = true → g.payload.length ≤ maxConsolePayload) : Laws.Wire.Statement i := by
  intro hw f hf
  rw [hg] at hf
  cases hf
  exact ⟨hl hw, frameOfBuffer_covered _⟩

theorem Sys2Proof.Laws.manage_wire {i : Instr} {src : Word} {tag c : Byte} {body : List Byte}
    (hg : i.frame = some (managementFrame src tag (c :: body)))
    (hw : i.wf = managementFits body) : Laws.Wire.Statement i :=
  Laws.wire_of_fits hg fun h => by simpa [hw, managementFits, managementFrame] using h

theorem Sys2Proof.Laws.write_wire {i : Instr} {src : Word} {tag : Byte} {t : Table}
    {body : List Byte} (hg : i.frame = some (writeFrame src tag t body))
    (hw : i.wf = writeFits body) : Laws.Wire.Statement i :=
  Laws.wire_of_fits hg fun h => by
    simp only [hw, writeFits, decide_eq_true_eq] at h
    exact h

theorem Sys2Proof.Laws.request_wire {i : Instr} {src dst : Word} {tag c : Byte}
    {body : List Byte} (hg : i.frame = some (functionFrame src dst tag (c :: body)))
    (hw : i.wf = requestFits dst body) : Laws.Wire.Statement i :=
  Laws.wire_of_fits hg fun h => by
    rw [hw, requestFits, Bool.and_eq_true] at h
    simpa [functionFrame] using h.2

theorem Sys2Proof.Laws.deck_wire {i : Instr} {src dst : Word} {tag k : Byte}
    {payload : List Byte} (hg : i.frame = some { dst, src, tag, kind := k, payload })
    (hw : i.wf = frameFits dst payload) : Laws.Wire.Statement i :=
  Laws.wire_of_fits hg fun h => by
    rw [hw, frameFits, Bool.and_eq_true] at h
    simpa using h.2

theorem Sys2Proof.Laws.invalid_wire {i : Instr} {src dst : Word} {tag k : Byte}
    {payload : List Byte} (hg : i.frame = some { dst, src, tag, kind := k, payload })
    (hw : i.wf = (invalidKind k dst && decide (payload.length ≤ maxConsolePayload))) :
    Laws.Wire.Statement i :=
  Laws.wire_of_fits hg fun h => by
    rw [hw, Bool.and_eq_true] at h
    simpa using h.2

theorem Sys2Proof.Laws.Wire.powerOn (raw : BitVec 14) :
    Sys2Proof.Laws.Wire.Statement (.powerOn raw) := Sys2Proof.Laws.no_wire rfl

theorem Sys2Proof.Laws.Wire.resetPin :
    Sys2Proof.Laws.Wire.Statement (.resetPin) := Sys2Proof.Laws.no_wire rfl

theorem Sys2Proof.Laws.Wire.consoleFrameDropped (bytes : List RxByte) :
    Sys2Proof.Laws.Wire.Statement (.consoleFrameDropped bytes) := Sys2Proof.Laws.no_wire rfl

theorem Sys2Proof.Laws.Wire.consoleByteGapExpiry (bytes : List RxByte) :
    Sys2Proof.Laws.Wire.Statement (.consoleByteGapExpiry bytes) := Sys2Proof.Laws.no_wire rfl

theorem Sys2Proof.Laws.Wire.invalidKindFrame (kind : Byte) (src dst : Word) (tag : Byte) (payload : List Byte) :
    Sys2Proof.Laws.Wire.Statement (.invalidKindFrame kind src dst tag payload) := Sys2Proof.Laws.invalid_wire rfl rfl

theorem Sys2Proof.Laws.Wire.readEntry (src : Word) (tag : Byte) (body : List Byte) :
    Sys2Proof.Laws.Wire.Statement (.readEntry src tag body) := Sys2Proof.Laws.manage_wire rfl rfl

theorem Sys2Proof.Laws.Wire.writeEntryRoute (src : Word) (tag : Byte) (body : List Byte) :
    Sys2Proof.Laws.Wire.Statement (.writeEntryRoute src tag body) := Sys2Proof.Laws.write_wire rfl rfl

theorem Sys2Proof.Laws.Wire.writeEntryPermit (src : Word) (tag : Byte) (body : List Byte) :
    Sys2Proof.Laws.Wire.Statement (.writeEntryPermit src tag body) := Sys2Proof.Laws.write_wire rfl rfl

theorem Sys2Proof.Laws.Wire.writeEntryReport (src : Word) (tag : Byte) (body : List Byte) :
    Sys2Proof.Laws.Wire.Statement (.writeEntryReport src tag body) := Sys2Proof.Laws.write_wire rfl rfl

theorem Sys2Proof.Laws.Wire.writeEntryTrunk (src : Word) (tag : Byte) (body : List Byte) :
    Sys2Proof.Laws.Wire.Statement (.writeEntryTrunk src tag body) := Sys2Proof.Laws.write_wire rfl rfl

theorem Sys2Proof.Laws.Wire.writeEntryNode (src : Word) (tag : Byte) (body : List Byte) :
    Sys2Proof.Laws.Wire.Statement (.writeEntryNode src tag body) := Sys2Proof.Laws.write_wire rfl rfl

theorem Sys2Proof.Laws.Wire.writeEntryAxis (src : Word) (tag : Byte) (body : List Byte) :
    Sys2Proof.Laws.Wire.Statement (.writeEntryAxis src tag body) := Sys2Proof.Laws.write_wire rfl rfl

theorem Sys2Proof.Laws.Wire.writeEntryProfile (src : Word) (tag : Byte) (body : List Byte) :
    Sys2Proof.Laws.Wire.Statement (.writeEntryProfile src tag body) := Sys2Proof.Laws.write_wire rfl rfl

theorem Sys2Proof.Laws.Wire.writeEntryZone (src : Word) (tag : Byte) (body : List Byte) :
    Sys2Proof.Laws.Wire.Statement (.writeEntryZone src tag body) := Sys2Proof.Laws.write_wire rfl rfl

theorem Sys2Proof.Laws.Wire.writeEntryDoor (src : Word) (tag : Byte) (body : List Byte) :
    Sys2Proof.Laws.Wire.Statement (.writeEntryDoor src tag body) := Sys2Proof.Laws.write_wire rfl rfl

theorem Sys2Proof.Laws.Wire.writeEntryArea (src : Word) (tag : Byte) (body : List Byte) :
    Sys2Proof.Laws.Wire.Statement (.writeEntryArea src tag body) := Sys2Proof.Laws.write_wire rfl rfl

theorem Sys2Proof.Laws.Wire.writeEntryChannel (src : Word) (tag : Byte) (body : List Byte) :
    Sys2Proof.Laws.Wire.Statement (.writeEntryChannel src tag body) := Sys2Proof.Laws.write_wire rfl rfl

theorem Sys2Proof.Laws.Wire.writeEntryMonitor (src : Word) (tag : Byte) (body : List Byte) :
    Sys2Proof.Laws.Wire.Statement (.writeEntryMonitor src tag body) := Sys2Proof.Laws.write_wire rfl rfl

theorem Sys2Proof.Laws.Wire.writeEntryMstate (src : Word) (tag : Byte) (body : List Byte) :
    Sys2Proof.Laws.Wire.Statement (.writeEntryMstate src tag body) := Sys2Proof.Laws.write_wire rfl rfl

theorem Sys2Proof.Laws.Wire.writeEntryLamp (src : Word) (tag : Byte) (body : List Byte) :
    Sys2Proof.Laws.Wire.Statement (.writeEntryLamp src tag body) := Sys2Proof.Laws.write_wire rfl rfl

theorem Sys2Proof.Laws.Wire.writeEntryLine (src : Word) (tag : Byte) (body : List Byte) :
    Sys2Proof.Laws.Wire.Statement (.writeEntryLine src tag body) := Sys2Proof.Laws.write_wire rfl rfl

theorem Sys2Proof.Laws.Wire.writeEntryParam (src : Word) (tag : Byte) (body : List Byte) :
    Sys2Proof.Laws.Wire.Statement (.writeEntryParam src tag body) := Sys2Proof.Laws.write_wire rfl rfl

theorem Sys2Proof.Laws.Wire.clearTable (src : Word) (tag : Byte) (body : List Byte) :
    Sys2Proof.Laws.Wire.Statement (.clearTable src tag body) := Sys2Proof.Laws.manage_wire rfl rfl

theorem Sys2Proof.Laws.Wire.readStatus (src : Word) (tag : Byte) (body : List Byte) :
    Sys2Proof.Laws.Wire.Statement (.readStatus src tag body) := Sys2Proof.Laws.manage_wire rfl rfl

theorem Sys2Proof.Laws.Wire.collectEvents (src : Word) (tag : Byte) (body : List Byte) :
    Sys2Proof.Laws.Wire.Statement (.collectEvents src tag body) := Sys2Proof.Laws.manage_wire rfl rfl

theorem Sys2Proof.Laws.Wire.saveConfig (src : Word) (tag : Byte) (body : List Byte) :
    Sys2Proof.Laws.Wire.Statement (.saveConfig src tag body) := Sys2Proof.Laws.manage_wire rfl rfl

theorem Sys2Proof.Laws.Wire.start (src : Word) (tag : Byte) (body : List Byte) :
    Sys2Proof.Laws.Wire.Statement (.start src tag body) := Sys2Proof.Laws.manage_wire rfl rfl

theorem Sys2Proof.Laws.Wire.restart (src : Word) (tag : Byte) (body : List Byte) :
    Sys2Proof.Laws.Wire.Statement (.restart src tag body) := Sys2Proof.Laws.manage_wire rfl rfl

theorem Sys2Proof.Laws.Wire.trunkHold (src : Word) (tag : Byte) (body : List Byte) :
    Sys2Proof.Laws.Wire.Statement (.trunkHold src tag body) := Sys2Proof.Laws.manage_wire rfl rfl

theorem Sys2Proof.Laws.Wire.trunkRelease (src : Word) (tag : Byte) (body : List Byte) :
    Sys2Proof.Laws.Wire.Statement (.trunkRelease src tag body) := Sys2Proof.Laws.manage_wire rfl rfl

theorem Sys2Proof.Laws.Wire.lampTest (src : Word) (tag : Byte) (body : List Byte) :
    Sys2Proof.Laws.Wire.Statement (.lampTest src tag body) := Sys2Proof.Laws.manage_wire rfl rfl

theorem Sys2Proof.Laws.Wire.setOutput (src : Word) (tag : Byte) (body : List Byte) :
    Sys2Proof.Laws.Wire.Statement (.setOutput src tag body) := Sys2Proof.Laws.manage_wire rfl rfl

theorem Sys2Proof.Laws.Wire.transmissionEnd :
    Sys2Proof.Laws.Wire.Statement (.transmissionEnd) := Sys2Proof.Laws.no_wire rfl

theorem Sys2Proof.Laws.Wire.beaconExpiry :
    Sys2Proof.Laws.Wire.Statement (.beaconExpiry) := Sys2Proof.Laws.no_wire rfl

theorem Sys2Proof.Laws.Wire.nodeCommand (src dst : Word) (tag : Byte) (payload : List Byte) :
    Sys2Proof.Laws.Wire.Statement (.nodeCommand src dst tag payload) := Sys2Proof.Laws.deck_wire rfl rfl

theorem Sys2Proof.Laws.Wire.passRequest (src dst : Word) (tag : Byte) (payload : List Byte) :
    Sys2Proof.Laws.Wire.Statement (.passRequest src dst tag payload) := Sys2Proof.Laws.deck_wire rfl rfl

theorem Sys2Proof.Laws.Wire.reportIntervalExpiry (node : NodeId) :
    Sys2Proof.Laws.Wire.Statement (.reportIntervalExpiry node) := Sys2Proof.Laws.no_wire rfl

theorem Sys2Proof.Laws.Wire.goodReply (trunk : Fin 4) (code : Byte) (payload : List Byte) :
    Sys2Proof.Laws.Wire.Statement (.goodReply trunk code payload) := Sys2Proof.Laws.no_wire rfl

theorem Sys2Proof.Laws.Wire.corruptReply (trunk : Fin 4) (bytes : List Byte) :
    Sys2Proof.Laws.Wire.Statement (.corruptReply trunk bytes) := Sys2Proof.Laws.no_wire rfl

theorem Sys2Proof.Laws.Wire.replyWindowExpiry (trunk : Fin 4) :
    Sys2Proof.Laws.Wire.Statement (.replyWindowExpiry trunk) := Sys2Proof.Laws.no_wire rfl

theorem Sys2Proof.Laws.Wire.replyGapExpiry (trunk : Fin 4) :
    Sys2Proof.Laws.Wire.Statement (.replyGapExpiry trunk) := Sys2Proof.Laws.no_wire rfl

theorem Sys2Proof.Laws.Wire.turnaroundGapExpiry (trunk : Fin 4) :
    Sys2Proof.Laws.Wire.Statement (.turnaroundGapExpiry trunk) := Sys2Proof.Laws.no_wire rfl

theorem Sys2Proof.Laws.Wire.roundIntervalExpiry (trunk : Fin 4) :
    Sys2Proof.Laws.Wire.Statement (.roundIntervalExpiry trunk) := Sys2Proof.Laws.no_wire rfl

theorem Sys2Proof.Laws.Wire.settleExpiry (trunk : Fin 4) :
    Sys2Proof.Laws.Wire.Statement (.settleExpiry trunk) := Sys2Proof.Laws.no_wire rfl

theorem Sys2Proof.Laws.Wire.move (src dst : Word) (tag : Byte) (body : List Byte) :
    Sys2Proof.Laws.Wire.Statement (.move src dst tag body) := Sys2Proof.Laws.request_wire rfl rfl

theorem Sys2Proof.Laws.Wire.stop (src dst : Word) (tag : Byte) (body : List Byte) :
    Sys2Proof.Laws.Wire.Statement (.stop src dst tag body) := Sys2Proof.Laws.request_wire rfl rfl

theorem Sys2Proof.Laws.Wire.keep (src dst : Word) (tag : Byte) (body : List Byte) :
    Sys2Proof.Laws.Wire.Statement (.keep src dst tag body) := Sys2Proof.Laws.request_wire rfl rfl

theorem Sys2Proof.Laws.Wire.release (src dst : Word) (tag : Byte) (body : List Byte) :
    Sys2Proof.Laws.Wire.Statement (.release src dst tag body) := Sys2Proof.Laws.request_wire rfl rfl

theorem Sys2Proof.Laws.Wire.take (src dst : Word) (tag : Byte) (body : List Byte) :
    Sys2Proof.Laws.Wire.Statement (.take src dst tag body) := Sys2Proof.Laws.request_wire rfl rfl

theorem Sys2Proof.Laws.Wire.grantLocal (src dst : Word) (tag : Byte) (body : List Byte) :
    Sys2Proof.Laws.Wire.Statement (.grantLocal src dst tag body) := Sys2Proof.Laws.request_wire rfl rfl

theorem Sys2Proof.Laws.Wire.derate (src dst : Word) (tag : Byte) (body : List Byte) :
    Sys2Proof.Laws.Wire.Statement (.derate src dst tag body) := Sys2Proof.Laws.request_wire rfl rfl

theorem Sys2Proof.Laws.Wire.planStart (src dst : Word) (tag : Byte) (body : List Byte) :
    Sys2Proof.Laws.Wire.Statement (.planStart src dst tag body) := Sys2Proof.Laws.request_wire rfl rfl

theorem Sys2Proof.Laws.Wire.planKeep (src dst : Word) (tag : Byte) (body : List Byte) :
    Sys2Proof.Laws.Wire.Statement (.planKeep src dst tag body) := Sys2Proof.Laws.request_wire rfl rfl

theorem Sys2Proof.Laws.Wire.planCancel (src dst : Word) (tag : Byte) (body : List Byte) :
    Sys2Proof.Laws.Wire.Statement (.planCancel src dst tag body) := Sys2Proof.Laws.request_wire rfl rfl

theorem Sys2Proof.Laws.Wire.keepaliveExpiry (axis : Fin 6) :
    Sys2Proof.Laws.Wire.Statement (.keepaliveExpiry axis) := Sys2Proof.Laws.no_wire rfl

theorem Sys2Proof.Laws.Wire.lockTimerExpiry (axis : Fin 6) :
    Sys2Proof.Laws.Wire.Statement (.lockTimerExpiry axis) := Sys2Proof.Laws.no_wire rfl

theorem Sys2Proof.Laws.Wire.controlPeriodExpiry (axis : Fin 6) :
    Sys2Proof.Laws.Wire.Statement (.controlPeriodExpiry axis) := Sys2Proof.Laws.no_wire rfl

theorem Sys2Proof.Laws.Wire.zoneClose (src dst : Word) (tag : Byte) (body : List Byte) :
    Sys2Proof.Laws.Wire.Statement (.zoneClose src dst tag body) := Sys2Proof.Laws.request_wire rfl rfl

theorem Sys2Proof.Laws.Wire.reopen (src dst : Word) (tag : Byte) (body : List Byte) :
    Sys2Proof.Laws.Wire.Statement (.reopen src dst tag body) := Sys2Proof.Laws.request_wire rfl rfl

theorem Sys2Proof.Laws.Wire.override (src dst : Word) (tag : Byte) (body : List Byte) :
    Sys2Proof.Laws.Wire.Statement (.override src dst tag body) := Sys2Proof.Laws.request_wire rfl rfl

theorem Sys2Proof.Laws.Wire.doorOpenRequest (src dst : Word) (tag : Byte) (body : List Byte) :
    Sys2Proof.Laws.Wire.Statement (.doorOpenRequest src dst tag body) := Sys2Proof.Laws.request_wire rfl rfl

theorem Sys2Proof.Laws.Wire.doorCloseRequest (src dst : Word) (tag : Byte) (body : List Byte) :
    Sys2Proof.Laws.Wire.Statement (.doorCloseRequest src dst tag body) := Sys2Proof.Laws.request_wire rfl rfl

theorem Sys2Proof.Laws.Wire.warningExpiry (zone : Fin 8) :
    Sys2Proof.Laws.Wire.Statement (.warningExpiry zone) := Sys2Proof.Laws.no_wire rfl

theorem Sys2Proof.Laws.Wire.retryExpiry (door : Fin 32) :
    Sys2Proof.Laws.Wire.Statement (.retryExpiry door) := Sys2Proof.Laws.no_wire rfl

theorem Sys2Proof.Laws.Wire.moveTimerExpiry (door : Fin 32) :
    Sys2Proof.Laws.Wire.Statement (.moveTimerExpiry door) := Sys2Proof.Laws.no_wire rfl

theorem Sys2Proof.Laws.Wire.transitExpiry (door : Fin 32) :
    Sys2Proof.Laws.Wire.Statement (.transitExpiry door) := Sys2Proof.Laws.no_wire rfl

theorem Sys2Proof.Laws.Wire.placeCall (src dst : Word) (tag : Byte) (body : List Byte) :
    Sys2Proof.Laws.Wire.Statement (.placeCall src dst tag body) := Sys2Proof.Laws.request_wire rfl rfl

theorem Sys2Proof.Laws.Wire.withdrawCall (src dst : Word) (tag : Byte) (body : List Byte) :
    Sys2Proof.Laws.Wire.Statement (.withdrawCall src dst tag body) := Sys2Proof.Laws.request_wire rfl rfl

theorem Sys2Proof.Laws.Wire.playTimerExpiry (area : Fin 16) :
    Sys2Proof.Laws.Wire.Statement (.playTimerExpiry area) := Sys2Proof.Laws.no_wire rfl

theorem Sys2Proof.Laws.Wire.gapExpiry (callId : Nat) :
    Sys2Proof.Laws.Wire.Statement (.gapExpiry callId) := Sys2Proof.Laws.no_wire rfl

theorem Sys2Proof.Laws.Wire.enable (src dst : Word) (tag : Byte) (body : List Byte) :
    Sys2Proof.Laws.Wire.Statement (.enable src dst tag body) := Sys2Proof.Laws.request_wire rfl rfl

theorem Sys2Proof.Laws.Wire.disable (src dst : Word) (tag : Byte) (body : List Byte) :
    Sys2Proof.Laws.Wire.Statement (.disable src dst tag body) := Sys2Proof.Laws.request_wire rfl rfl

theorem Sys2Proof.Laws.Wire.monitorRestart (src dst : Word) (tag : Byte) (body : List Byte) :
    Sys2Proof.Laws.Wire.Statement (.monitorRestart src dst tag body) := Sys2Proof.Laws.request_wire rfl rfl

theorem Sys2Proof.Laws.Wire.staleTimerExpiry (channel : Fin 32) :
    Sys2Proof.Laws.Wire.Statement (.staleTimerExpiry channel) := Sys2Proof.Laws.no_wire rfl

theorem Sys2Proof.Laws.Wire.holdTimerExpiry (monitor : Fin 16) :
    Sys2Proof.Laws.Wire.Statement (.holdTimerExpiry monitor) := Sys2Proof.Laws.no_wire rfl

theorem Sys2Proof.Laws.Wire.timeoutTimerExpiry (monitor : Fin 16) :
    Sys2Proof.Laws.Wire.Statement (.timeoutTimerExpiry monitor) := Sys2Proof.Laws.no_wire rfl

theorem Sys2Proof.Laws.Wire.rawLevelChange (line : Fin 14) (active : Bool) :
    Sys2Proof.Laws.Wire.Statement (.rawLevelChange line active) := Sys2Proof.Laws.no_wire rfl

theorem Sys2Proof.Laws.Wire.lineFilterExpiry (line : Fin 14) :
    Sys2Proof.Laws.Wire.Statement (.lineFilterExpiry line) := Sys2Proof.Laws.no_wire rfl

theorem Sys2Proof.Laws.Wire.readLines (src dst : Word) (tag : Byte) (body : List Byte) :
    Sys2Proof.Laws.Wire.Statement (.readLines src dst tag body) := Sys2Proof.Laws.request_wire rfl rfl

theorem Sys2Proof.Laws.Wire.linesSetOutput (src dst : Word) (tag : Byte) (body : List Byte) :
    Sys2Proof.Laws.Wire.Statement (.linesSetOutput src dst tag body) := Sys2Proof.Laws.request_wire rfl rfl

theorem Sys2Proof.Laws.Wire.flashPhaseExpiry (gen : FlashGen) :
    Sys2Proof.Laws.Wire.Statement (.flashPhaseExpiry gen) := Sys2Proof.Laws.no_wire rfl

theorem Sys2Proof.Laws.Wire.shiftEnd :
    Sys2Proof.Laws.Wire.Statement (.shiftEnd) := Sys2Proof.Laws.no_wire rfl

theorem Sys2Proof.Laws.Wire.lampTestExpiry :
    Sys2Proof.Laws.Wire.Statement (.lampTestExpiry) := Sys2Proof.Laws.no_wire rfl

theorem Sys2Proof.Laws.Wire.pageWriteDone :
    Sys2Proof.Laws.Wire.Statement (.pageWriteDone) := Sys2Proof.Laws.no_wire rfl

theorem Sys2Proof.Laws.Wire.pageReadDone (returned : Option (List Byte)) :
    Sys2Proof.Laws.Wire.Statement (.pageReadDone returned) := Sys2Proof.Laws.no_wire rfl

theorem Sys2Proof.Laws.Wire.pageTimerExpiry :
    Sys2Proof.Laws.Wire.Statement (.pageTimerExpiry) := Sys2Proof.Laws.no_wire rfl

theorem Sys2Proof.Laws.Wire.replyWindowOpens (trunk : Fin 4) :
    Sys2Proof.Laws.Wire.Statement (.replyWindowOpens trunk) := Sys2Proof.Laws.no_wire rfl
end

