-- ==== Sys2Proof/Tests/Slice0.lean ====
section
/-! SUPPORT. Tests: the checks of WellFormed on ill-formed terms, the spec's own check values and worked
cases, one small step for each command, and for the statements with hypotheses the states that meet
them. -/

namespace Sys2Proof.Tests

open Sys2Proof.Machine

set_option Elab.async false

/-! ### A small configuration and a part at rest -/

/-- A vector with some places replaced. -/
def upd {α : Type} {n : Nat} (v : Vector α n) (l : List (Nat × α)) : Vector α n :=
  l.foldl (fun v p => v.setIfInBounds p.1 p.2) v

/-- The node of a slot. -/
def nd (t : Fin 4) (slot : Fin 31) : NodeId := { trunk := t, slot }

/-- Axis 1 with the figures of section 5.12. -/
def axis1 : AxisCfg :=
  { emptyAxis with
    configured := true, drive := nd 0 0, panel := some (nd 0 2), zone := some 0, posMin := -500
    posMax := 8200, vMax := 450, acc := 50, kp := 32, deadband := 5, creepDistance := 600
    vCreep := 60, controlPeriod := 50, stallVelocity := 20, overloadLimit := 2500
    haltMask := 0b000001, noteMask := 0b000010, stageUp := 250, stageDown := 150
    lowPayload := some [1], highPayload := some [2]
    motionCall := some { message := 5, areas := 1, priority := 3, gap := 0 } }

/-- One function or node for each kind of route, axis 1, one door, one area, one channel and one
monitor, all on trunk A. -/
def demo : Tables :=
  let k := Tables.reset
  { k with
    routes := [{ station := 0x101, target := .function (.axis 0) },
      { station := 0x110, target := .function .plan },
      { station := 0x120, target := .function (.zone 0) },
      { station := 0x130, target := .function (.door 0) },
      { station := 0x140, target := .function .calls },
      { station := 0x150, target := .function (.monitor 0) },
      { station := 0x160, target := .function .lines },
      { station := 0x209, target := .node (nd 0 8) }]
    trunks := upd k.trunks [(0, { emptyTrunk with configured := true })]
    nodes := upd k.nodes [(0, some { kind := .drive, poll := .fast }),
      (2, some { kind := .panel, poll := .fast }), (8, some { kind := .door, poll := .fast }),
      (9, some { kind := .amp, poll := .slow }), (10, some { kind := .sensor, poll := .none })]
    reports := upd k.reports [(8, { mode := .change, every := 1, interval := 100 })]
    axes := upd k.axes [(0, axis1)]
    profiles := upd k.profiles [(0, some { position := -500, speed := 100 }),
      (1, some { position := 0, speed := 300 }), (2, some { position := 3000, speed := 500 }),
      (3, some { position := 8000, speed := 200 })]
    doors := upd k.doors [(0, { emptyDoor with configured := true, node := nd 0 8 })]
    areas := upd k.areas [(0, [nd 0 9])]
    channels := upd k.channels [(0, { emptyChannel with configured := true, source := nd 0 10 })]
    monitors := upd k.monitors [(0, { configured := true, startEnabled := false })]
    mstates := upd k.mstates [
      (0, { emptyMstate with inUse := true, threshold := 99, hold := 500, onHold := 1
                             onStale := some 1 }),
      (1, { emptyMstate with inUse := true, test := .below, threshold := 50, timeout := 5
                             action := .derate 192 1 })]
    lines := upd k.lines [(3, { filter := 20, edge := .both, event := true })]
    lamps := upd k.lamps [(3, { source := .axis 0, styles := [(4, .on)] })]
    param := { k.param with permitForward := true } }

/-- CONFIGURED and at rest: trunk A RUNNING and idle, every node UNKNOWN, the console silent. -/
def calm : Run :=
  let r := Run.reset .powerOn 0 [] 0 0
  { r with
    gw := .configured, store := { r.store with phase := .idle, pageTimer := none }
    trunks := r.trunks.set 0 { resetTrunk with state := .running }
    chain := { r.chain with inShift := none, shiftTimer := none } }

/-- The part with its calm runtime changed. -/
def at' (f : Run → Run) : State := { State.reset with cfg := demo, run := f calm }

/-- The part with axis 1 changed. -/
def withAxis (f : AxisRt → AxisRt) : State := at' fun r => r.modAxis 0 f

/-- The part with door 0 changed. -/
def withDoor (f : DoorRt → DoorRt) : State := at' fun r => r.modDoor 0 f

/-- A reply of the drive of axis 1. -/
def drive (position : Int) (flags : BitVec 8) : DriveStatus := { position, pressure := 0, flags }

/-- Axis 1 in MOVING towards 4000 with its control timer run out, as in section 5.12. -/
def travelling (position sRef : Int) (derate : Nat) : State := withAxis fun x =>
  { x with state := .moving, target := 4000, origin := .bridge, sentDemand := sRef
           bridgeDerate := derate, latest := some (drive position 2), controlTimer := some 0
           keepaliveTimer := some 5 }

/-- Trunk A awaits the reply of a slot. -/
def awaitingA (r : Run) (slot : Fin 31) (source : TxSource) : Run := r.modTrunk 0 fun k =>
  { k with transaction := some { slot, code := 0, payload := [], source, awaiting := true }
           windowTimer := some 0, gapTimer := none }

/-- Trunk A is quiet while its turnaround gap runs. -/
def quietA (r : Run) : Run := r.modTrunk 0 fun k => { k with gapTimer := some 200 }

/-- A call record in PASS. -/
def call (id message priority : Nat) (origin : CallOrigin) : Call :=
  { id, message, areas := 1, priority, repeats := 2, gap := 3, limit := 30, origin, phase := .pass
    remaining := 2, pending := 1, playing := 0, gapTimer := none }

/-- What a completed command leaves. -/
def ran {α : Type} (o : Out) (f : State → α) : Option α :=
  match o with
  | .next s => some (f s)
  | _ => none

/-- The payload of the console frame in transmission. -/
def sent (s : State) : Option (List Byte) := s.run.console.tx.map (·.frame.payload)

/-- The events in the queue: kind, subject index, detail. -/
def raised (s : State) : List (List Nat) :=
  s.run.events.records.map fun e => [e.kind.code, e.index, e.detail.toNat]

/-- One event as `raised` gives it. -/
def ev (kind : EventKind) (index detail : Nat) : List Nat := [kind.code, index, detail]

/-- The codes of the frames that wait on trunk A. -/
def queuedA (s : State) : List Byte := s.run.trunks[(0 : Fin 4)].queue.map (·.code)

/-- The frame on the line of trunk A: address, code, payload. -/
def onLineA (s : State) : List Nat :=
  match s.run.trunks[(0 : Fin 4)].transaction with
  | none => []
  | some k => address k.slot :: k.code.toNat :: k.payload.map BitVec.toNat

/-- An ANSWER's payload with no event waiting. -/
def ans (code : Byte) (hi lo : Byte) : Option (List Byte) := some [code, hi, lo, 0, 0, 0]

/-- Axis 1 of a state. -/
def ax (s : State) : AxisRt := s.run.axes[(0 : Fin 6)]

/-- Door 0 of a state. -/
def dr (s : State) : DoorRt := s.run.doors[(0 : Fin 32)]

/-! ### WellFormed: each check refuses an ill-formed term -/

theorem test_wf_refuses_receiver_bytes :
    [Instr.consoleFrameDropped [], .consoleFrameDropped (plainBytes [0x7E, 6]),
      .consoleByteGapExpiry (plainBytes [0x7E, 5]), .consoleByteGapExpiry [],
      .invalidKindFrame 1 9 9 0 [], .invalidKindFrame 3 9 0 0 [],
      .invalidKindFrame 9 9 0 0 (List.replicate 241 0)].map Instr.wf = List.replicate 7 false := by
  decide +kernel

theorem test_wf_refuses_long_management :
    ([Instr.readEntry, .clearTable, .readStatus, .collectEvents, .saveConfig, .start, .restart,
      .trunkHold, .trunkRelease, .lampTest, .setOutput].map fun k =>
        (k 1 0 (List.replicate 240 0)).wf) = List.replicate 11 false := by decide +kernel

theorem test_wf_refuses_long_writes :
    ([Instr.writeEntryRoute, .writeEntryPermit, .writeEntryReport, .writeEntryTrunk,
      .writeEntryNode, .writeEntryAxis, .writeEntryProfile, .writeEntryZone, .writeEntryDoor,
      .writeEntryArea, .writeEntryChannel, .writeEntryMonitor, .writeEntryMstate, .writeEntryLamp,
      .writeEntryLine, .writeEntryParam].map fun k => (k 1 0 (List.replicate 239 0)).wf)
      = List.replicate 16 false := by decide +kernel

/-- The requests of the functions. -/
def functionRequests : List (Word → Word → Byte → List Byte → Instr) :=
  [.move, .stop, .keep, .release, .take, .grantLocal, .derate, .planStart, .planKeep, .planCancel,
    .zoneClose, .reopen, .override, .doorOpenRequest, .doorCloseRequest, .placeCall, .withdrawCall,
    .enable, .disable, .monitorRestart, .readLines, .linesSetOutput]

theorem test_wf_refuses_requests :
    (functionRequests.all fun k => !(k 1 0 0 []).wf && !(k 1 9 0 (List.replicate 240 0)).wf)
      = true := by decide +kernel

theorem test_wf_refuses_node_frames :
    [Instr.nodeCommand 1 0 0 [0x20], .nodeCommand 1 9 0 (List.replicate 241 0),
      .passRequest 1 0 0 [0], .passRequest 1 9 0 (List.replicate 241 0),
      .goodReply 0 0 (List.replicate 17 0), .corruptReply 0 [0x5A], .corruptReply 0 []].map Instr.wf
      = List.replicate 7 false := by decide +kernel

theorem test_wf_refuses_call_ids_and_pages :
    [Instr.gapExpiry 0, .gapExpiry 256, .pageReadDone (some (List.replicate 127 0))].map Instr.wf
      = [false, false, false] := by decide +kernel

/-- And it lets well-formed ones pass. -/
theorem test_wf_admits :
    [Instr.consoleFrameDropped (plainBytes [0x7E, 5]), .consoleByteGapExpiry (plainBytes [0x7E, 6]),
      .invalidKindFrame 9 9 9 0 [], .move 1 0x101 0 [], .nodeCommand 1 9 0 [], .gapExpiry 255,
      .corruptReply 0 [0xA5], .pageReadDone none].map Instr.wf = List.replicate 8 true := by
  decide +kernel

/-! ### The spec's check values (section 12.6) -/

theorem test_crc_of_nine_digits :
    crc16 [0x31, 0x32, 0x33, 0x34, 0x35, 0x36, 0x37, 0x38, 0x39] = 0x29B1 := by decide +kernel

theorem test_poll_frame_of_address_5 :
    trunkWire 4 false 0 [] = [0xA5, 0x05, 0x00, 0x00, 0x27, 0x6C] := by decide +kernel

/-! ### Worked cases of section 5.12 -/

/-- Case 2: the profile speed by position. -/
theorem test_profile_values :
    ([-250, 5000, 3001, 3000, -700, 8100].map (profileSpeed (breakpoints demo 0)))
      = [200, 380, 500, 500, 100, 200] := by decide +kernel

/-- Case 3, periods a to d: cap, wanted and slewed demand. -/
theorem test_approach_values :
    ([(3930, 190), (3960, 140), (3980, 90), (3992, 40)].map fun (p : Int × Int) =>
      let cap := capSpeed axis1 192 (creepSpeed axis1 false p.1 4000
        (profileSpeed (breakpoints demo 0) p.1))
      (cap, slewDemand 50 p.2 (wantedDemand axis1 p.1 4000 cap)))
      = [(333, 140), (332, 90), (331, 40), (330, 16)] := by decide +kernel

/-! ### One step for each command -/

theorem test_power_on :
    ran (exec (.powerOn 2) (at' id)) (fun s => (s.run.gw, s.cfg == Tables.reset,
      s.run.lines[(1 : Fin 14)].filterTimer, s.run.store.cause))
      = some (.loading, true, some 20000, .powerOn) := by decide +kernel

theorem test_reset_pin :
    ran (exec .resetPin (at' fun r => r.modTrunk 0 fun k => { k with holdAsserted := true }))
      (fun s => (s.run.gw, s.run.store.cause, s.run.trunks[(0 : Fin 4)].state,
        s.run.trunks[(0 : Fin 4)].holdAsserted))
      = some (.loading, .pin, .down, false) := by decide +kernel

theorem test_console_frame_dropped :
    ran (exec (.consoleFrameDropped (plainBytes [0x7E, 5])) (at' id))
      (fun s => (s.run.console.errors, s.run.console.rx.phase)) = some (1, .hunt) := by
  decide +kernel

theorem test_console_byte_gap :
    ran (exec (.consoleByteGapExpiry (plainBytes [0x7E, 6, 0])) (at' id))
      (fun s => (s.run.console.errors, s.run.console.rx)) = some (1, Rx.idle) := by decide +kernel

theorem test_invalid_kind_frame :
    ran (exec (.invalidKindFrame 5 1 0x101 7 []) (at' id)) sent = some (ans 6 0 0) := by
  decide +kernel

theorem test_read_entry_param :
    ran (exec (.readEntry 1 7 [16, 0, 0]) (at' id)) sent
      = some (some [0, 0, 0, 0, 0, 0, 0x03, 0xE8, 0, 1, 0, 30, 8, 0x03, 0xE8, 0, 250, 50]) := by
  decide +kernel

theorem test_write_entry_route :
    ran (exec (.writeEntryRoute 1 7 [0, 8, 0x01, 0x05, 1, 0, 11, 0, 0]) (at' id))
      (fun s => (sent s, s.cfg.routes.length)) = some (ans 0 0 1, 9) := by decide +kernel

/-- Behind the count, R19's node slot is judged before R20's position. -/
theorem test_write_entry_route_late :
    ran (exec (.writeEntryRoute 1 7 [0, 200, 0x03, 0, 1, 1, 1, 0, 0]) (at' id)) sent
      = some (ans 6 0 5) := by decide +kernel

theorem test_write_entry_permit :
    ran (exec (.writeEntryPermit 1 7 [0, 0, 1, 2, 0, 2, 9, 0, 1, 1, 6, 0, 0, 0, 1]) (at' id))
      (fun s => (sent s, s.cfg.permits[(0 : Fin 64)])) = some (ans 0 0 0, some
        { first := 0x200, last := 0x209, code := none, term1 := some (.axis 0 6), term2 := none
          action := .refuse }) := by decide +kernel

theorem test_write_entry_report :
    ran (exec (.writeEntryReport 1 7 [0, 8, 2, 0, 0, 0]) (at' id)) sent = some (ans 6 0 4) := by
  decide +kernel

theorem test_write_entry_trunk :
    ran (exec (.writeEntryTrunk 1 7 [0, 1, 1, 0, 125, 4, 0, 200, 0, 20, 8, 1, 144]) (at' id))
      (fun s => (s.run.trunks[(1 : Fin 4)].state, s.run.trunks[(1 : Fin 4)].holdAsserted, raised s))
      = some (.held, true, [ev .trunkState 1 1]) := by decide +kernel

theorem test_write_entry_node :
    ran (exec (.writeEntryNode 1 7 [0, 0, 6]) (at' id)) sent = some (ans 5 0 3) := by decide +kernel

theorem test_write_entry_axis :
    ran (exec (.writeEntryAxis 1 7 [0, 0, 0]) (at' id))
      (fun s => (sent s, s.cfg.axes[(0 : Fin 6)].configured)) = some (ans 0 0 0, false) := by
  decide +kernel

/-- The first offending field is named: the panel before the travel limits, the creep speed before the
control period (R6 step 3, R68). -/
theorem test_write_entry_axis_first_field :
    ([{ axis1 with panel := some (nd 0 0), posMin := 9, posMax := 9 },
      { axis1 with vCreep := 451, controlPeriod := 0 }].map fun x =>
        ran (exec (.writeEntryAxis 1 7 ([0, 0] ++ (Entry.axis x).bytes)) (at' id)) sent)
      = [some (ans 6 0 5), some (ans 6 0 14)] := by decide +kernel

theorem test_write_entry_profile :
    ran (exec (.writeEntryProfile 1 7 [0, 4, 1, 0x1F, 0x40, 0, 9]) (at' id)) sent
      = some (ans 6 0 4) := by decide +kernel

/-- R93 step 1 binds an entry written not in use too. -/
theorem test_write_entry_profile_not_in_use :
    ([[0, 7, 0, 0, 0, 0x13, 0x88], [0, 7, 0, 0x7F, 0xFF, 0, 0], [0, 7, 0], [0, 7, 0, 0, 1, 0, 1]].map
      fun b => ran (exec (.writeEntryProfile 1 7 b) (at' id)) sent)
      = [some (ans 6 0 5), some (ans 6 0 4), some (ans 6 0 4), some (ans 0 0 0)] := by decide +kernel

theorem test_write_entry_zone :
    ran (exec (.writeEntryZone 1 7 [0, 3, 60, 0, 0, 7, 1, 0xFF, 0, 1, 4]) (at' id))
      (fun s => s.cfg.zones[(3 : Fin 8)]) = some
        { warning := 60, fireWarning := 0, warningMessage := 7, fireMessage := 511, areas := 1
          callGap := 4 } := by decide +kernel

theorem test_write_entry_door :
    ran (exec (.writeEntryDoor 1 7 [0, 1, 1, 0, 9, 0, 1, 0, 40, 5, 3, 20, 0]) (at' id)) sent
      = some (ans 6 0 6) := by decide +kernel

theorem test_write_entry_area :
    ran (exec (.writeEntryArea 1 7 [0, 1, 1, 0, 10]) (at' id)) sent = some (ans 6 0 3) := by
  decide +kernel

theorem test_write_entry_channel :
    ran (exec (.writeEntryChannel 1 7 [0, 1, 1, 0, 11, 15, 2, 0, 1, 244]) (at' id)) sent
      = some (ans 6 0 6) := by decide +kernel

theorem test_write_entry_monitor :
    ran (exec (.writeEntryMonitor 1 7 [0, 0, 1, 1])
      (at' fun r => r.modMonitor 0 fun x => { x with enabled := true })) sent = some (ans 5 0 1) := by
  decide +kernel

theorem test_write_entry_mstate :
    ran (exec (.writeEntryMstate 1 7 [0, 2, 1, 0, 1, 0xFF, 0xFB, 0, 0, 1, 0, 0, 0, 8, 5, 1, 1])
      (at' id)) (fun s => s.cfg.mstates[(2 : Fin 128)]) = some
        { inUse := true, channel := 0, test := .below, threshold := -5, hold := 0, onHold := 1
          timeout := 0, onTimeout := 0, onStale := none, action := .output 1 true } := by
  decide +kernel

theorem test_write_entry_lamp :
    ran (exec (.writeEntryLamp 1 7 [0, 5, 1, 1, 1, 4, 2]) (at' id))
      (fun s => s.cfg.lamps[(5 : Fin 64)]) = some { source := .axis 0, styles := [(4, .slow)] } := by
  decide +kernel

/-- R167 judges a content with source NONE as well: its index is field 4, its styles field 5, and a
byte beyond the last field gives 6. -/
theorem test_write_entry_lamp_none :
    [[0, 1, 0, 0, 0], [0, 1, 0, 9, 0], [0, 1, 0, 0, 1, 0, 1], [0, 1, 0, 0], [0, 1, 0, 0, 0, 0]].map
      (fun p => ran (exec (.writeEntryLamp 1 7 p) (at' id |>.setCfg
          { demo with lamps := demo.lamps.set 1 { source := .zone 2, styles := [] } }))
        fun s => (s.cfg.lamps[(1 : Fin 64)].source, sent s))
      = [some (.none, ans 0 0 0), some (.zone 2, ans 6 0 4), some (.zone 2, ans 6 0 5),
         some (.zone 2, ans 6 0 5), some (.zone 2, ans 6 0 6)] := by decide +kernel

theorem test_write_entry_line :
    ran (exec (.writeEntryLine 1 7 [0, 0, 9, 3, 1]) (at' id))
      (fun s => s.cfg.lines[(0 : Fin 14)]) = some { filter := 2, edge := .both, event := true } := by
  decide +kernel

theorem test_write_entry_param :
    ran (exec (.writeEntryParam 1 7 [0, 0, 0, 50, 0, 1, 1, 30, 8, 0x03, 0xE8, 0, 250, 50]) (at' id))
      (fun s => (sent s, s.cfg.param.beaconPeriod, s.run.console.beaconTimer))
      = some (ans 1 0 3, 100, some 100000) := by decide +kernel

theorem test_clear_table :
    ran (exec (.clearTable 1 7 [1]) (at' fun r => r.setGw .unconfigured))
      (fun s => (sent s, s.cfg.routes.length)) = some (ans 0 0 0, 0) := by decide +kernel

theorem test_read_status :
    ran (exec (.readStatus 1 7 [1]) (at' fun r => r.setConsole { r.console with errors := 258 }))
      (fun s => (sent s, s.run.console.errors))
      = some (some [0, 0, 0, 0, 0, 0, 2, 1, 2, 0, 0, 0, 3, 0, 0, 0], 0) := by decide +kernel

theorem test_collect_events :
    ran (exec (.collectEvents 1 7 []) (at' fun r => (r.raise .axisHalted 1 6).setEvents
      { (r.raise .axisHalted 1 6).events with lost := 2 }))
      (fun s => (sent s, s.run.events.records.length, s.run.events.lost))
      = some (some [0, 0, 0, 0, 0, 0, 1, 0, 2, 0, 0, 0, 0, 0, 0, 5, 3, 1, 0, 6], 0, 0) := by
  decide +kernel

theorem test_save_config :
    ran (exec (.saveConfig 1 7 []) (at' id))
      (fun s => (s.run.gw, s.run.store.phase, s.run.store.pageTimer, sent s))
      = some (.storing, .writing, some 20000, ans 0 0 0) := by decide +kernel

theorem test_start :
    ran (exec (.start 1 7 []) (at' fun r => (r.setGw .unconfigured).modTrunk 0 fun _ => resetTrunk))
      (fun s => (s.run.gw, s.run.trunks[(0 : Fin 4)].settleTimer, raised s))
      = some (.configured, some 400000, [ev .trunkState 0 2]) := by decide +kernel

theorem test_restart :
    ran (exec (.restart 1 7 []) (travelling 0 0 256)) sent = some (ans 4 0 1) := by decide +kernel

theorem test_trunk_hold :
    ran (exec (.trunkHold 1 7 [0]) (at' id))
      (fun s => (s.run.trunks[(0 : Fin 4)].state, s.run.trunks[(0 : Fin 4)].holdAsserted, raised s))
      = some (.held, true, [ev .trunkState 0 1]) := by decide +kernel

theorem test_trunk_release :
    ran (exec (.trunkRelease 1 7 [0]) (at' id)) sent = some (ans 5 0 3) := by decide +kernel

theorem test_lamp_test :
    ran (exec (.lampTest 1 7 []) (at' id))
      (fun s => (s.run.chain.inShift, s.run.chain.shiftTimer, s.run.chain.lampTest))
      = some (some (List.replicate 64 true), some 650, some 3000000) := by decide +kernel

theorem test_set_output :
    ran (exec (.setOutput 1 7 [3, 1]) (at' id)) (fun s => s.run.outputs[(3 : Fin 4)])
      = some { high := true, setBy := .console } := by decide +kernel

theorem test_transmission_end :
    ran (exec .transmissionEnd (at' fun r => r.setConsole
      { r.console with tx := some { frame := { dst := 1, src := 0, tag := 0, kind := 0x81
                                               payload := [] }, restart := true } }))
      (fun s => (s.run.gw, s.run.store.cause)) = some (.loading, .restart) := by decide +kernel

theorem test_beacon_expiry :
    ran (exec .beaconExpiry (at' fun r => r.setConsole { r.console with beaconTimer := some 0 }))
      (fun s => (sent s, s.run.console.beaconTimer))
      = some (some ([2] ++ List.replicate 14 0 ++ [3, 0, 0, 0, 0, 0, 0, 0]), some 1000000) := by
  decide +kernel

theorem test_node_command :
    ran (exec (.nodeCommand 1 0x209 7 [0x20, 9]) (at' id)) onLineA = some [9, 0x20, 9] := by
  decide +kernel

theorem test_pass_request :
    ran (exec (.passRequest 1 0x209 7 [0]) (at' quietA))
      (fun s => s.run.trunks[(0 : Fin 4)].pass.map fun p => (p.slot, p.code, p.attempts))
      = some (some (8, 0, 0)) := by decide +kernel

theorem test_report_interval_expiry :
    ran (exec (.reportIntervalExpiry (nd 0 8)) (at' fun r => r.modReport 8 fun x =>
      { x with timer := some 0, pending := some ([2, 0], 5) })) (fun s => (sent s,
        s.run.reports[(8 : Fin 124)].timer))
      = some (some [0, 9, 0, 0, 0, 5, 2, 2, 0], some 100000) := by decide +kernel

theorem test_good_reply_of_a_drive :
    ran (exec (.goodReply 0 0 [0, 9, 0, 0, 1]) (at' fun r => awaitingA r 0 .poll))
      (fun s => ((ax s).state, (ax s).latest, s.run.trunks[(0 : Fin 4)].gapTimer))
      = some (.locked, some (drive 9 1), some 200) := by decide +kernel

theorem test_corrupt_reply :
    ran (exec (.corruptReply 0 [0xA5, 1, 0, 17]) (at' fun r => awaitingA r 0 .poll))
      (fun s => (s.run.nodes[(0 : Fin 124)].misses, s.run.nodes[(0 : Fin 124)].liveness))
      = some (1, .missing) := by decide +kernel

theorem test_reply_window_expiry :
    ran (exec (.replyWindowExpiry 0) (at' fun r => (awaitingA r 0 .poll).modNode 0 fun n =>
      { n with liveness := .missing, misses := 2 }))
      (fun s => (s.run.nodes[(0 : Fin 124)].liveness, raised s))
      = some (.lost, [ev .nodeLost 0 0]) := by decide +kernel

theorem test_reply_gap_expiry :
    ran (exec (.replyGapExpiry 0) (at' fun r => (awaitingA r 8 .queue).modTrunk 0 fun k =>
      { k with queue := [{ node := nd 0 8, code := 0x20, payload := [], attempts := 3
                           origin := .relay { src := 1, dst := 0x209, tag := 7 } }] }))
      (fun s => (sent s, queuedA s)) = some (ans 9 0 3, []) := by decide +kernel

theorem test_turnaround_gap_expiry :
    ran (exec (.turnaroundGapExpiry 0) (at' fun r => (quietA r).modTrunk 0 fun k =>
      { k with holdSet := [0], nonPoll := 4, roundTimer := some 9 }))
      (fun s => (onLineA s, s.run.trunks[(0 : Fin 4)].nonPoll)) = some ([1, 2], 4) := by
  decide +kernel

theorem test_round_interval_expiry :
    ran (exec (.roundIntervalExpiry 0) (at' fun r => r.modTrunk 0 fun k =>
      { k with roundTimer := some 0, roundPosition := 31, roundPhase := 7 }))
      (fun s => (s.run.trunks[(0 : Fin 4)].roundPhase, onLineA s)) = some (0, [1, 0]) := by
  decide +kernel

theorem test_settle_expiry :
    ran (exec (.settleExpiry 0) (at' fun r => r.modTrunk 0 fun k =>
      { k with state := .settling, settleTimer := some 0 }))
      (fun s => (s.run.trunks[(0 : Fin 4)].state, onLineA s, raised s))
      = some (.running, [1, 0], [ev .trunkState 0 3]) := by decide +kernel

theorem test_reply_window_opens :
    ran (exec (.replyWindowOpens 0) (at' fun r => (awaitingA r 0 .poll).modTrunk 0 fun k =>
      { k with transaction := k.transaction.map fun x => { x with awaiting := false } }))
      (fun s => s.run.trunks[(0 : Fin 4)].windowTimer) = some (some 4000) := by decide +kernel

theorem test_move_is_clamped :
    ran (exec (.move 1 0x101 7 (i2 9000 ++ [0])) (withAxis fun x => { x with state := .still }))
      (fun s => ((ax s).state, (ax s).target, (ax s).keepaliveTimer, sent s))
      = some (.moving, 8200, some 500000, ans 1 0 1) := by decide +kernel

theorem test_move_is_refused_under_estop :
    ran (exec (.move 1 0x101 7 (i2 9 ++ [0])) (at' fun r =>
      (r.modAxis 0 fun x => { x with state := .still }).modLine 0 fun l =>
        { l with accepted := true, raw := true })) sent = some (ans 3 0 1) := by decide +kernel

theorem test_stop :
    ran (exec (.stop 1 0x101 7 []) (travelling 0 9 256))
      (fun s => ((ax s).state, (ax s).keepaliveTimer)) = some (.stopping, none) := by decide +kernel

theorem test_keep :
    ran (exec (.keep 1 0x101 7 []) (travelling 0 9 256))
      (fun s => ((ax s).keepaliveTimer, sent s)) = some (some 500000, ans 0 0 0) := by
  decide +kernel

theorem test_release :
    ran (exec (.release 1 0x101 7 []) (withAxis fun x =>
      { x with state := .halted, causes := 0b100100, latest := some (drive 0 1) }))
      (fun s => ((ax s).state, (ax s).causes, sent s)) = some (.halted, 0b100, ans 3 0 4) := by
  decide +kernel

theorem test_take :
    ran (exec (.take 1 0x101 7 []) (withAxis fun x => { x with control := .localPanel }))
      (fun s => ((ax s).control, raised s)) = some (.bridge, [ev .controlChange 1 0]) := by
  decide +kernel

theorem test_grant_local :
    ran (exec (.grantLocal 1 0x101 7 []) (travelling 0 9 256)) sent = some (ans 4 0 4) := by
  decide +kernel

theorem test_derate :
    ran (exec (.derate 1 0x101 7 [1, 1]) (at' id)) (fun s => ((ax s).bridgeDerate, sent s))
      = some (256, ans 1 0 1) := by decide +kernel

theorem test_plan_start :
    ran (exec (.planStart 1 0x110 7 [1, 1, 0, 9, 0, 1]) (withAxis fun x => { x with state := .still }))
      (fun s => (s.run.plan.running, s.run.plan.current, (ax s).state, sent s))
      = some (true, 1, .moving, ans 0 0 0) := by decide +kernel

/-- A plan that runs its first step on axis 1. -/
def planning (s : State) : State := s.setRun (s.run.setPlan
  { running := true, steps := [{ axis := 0, target := 4000, lockAtEnd := false, notify := true }]
    current := 1 })

theorem test_plan_keep :
    ran (exec (.planKeep 1 0x110 7 []) (planning (travelling 0 9 256)))
      (fun s => ((ax s).keepaliveTimer, sent s)) = some (some 500000, ans 0 0 0) := by
  decide +kernel

theorem test_plan_cancel :
    ran (exec (.planCancel 1 0x110 7 []) (planning (travelling 0 9 256)))
      (fun s => (s.run.plan.running, (ax s).state, raised s))
      = some (false, .stopping, [ev .planAborted 0 0x106]) := by decide +kernel

theorem test_keepalive_expiry :
    ran (exec (.keepaliveExpiry 0) (travelling 0 9 256))
      (fun s => ((ax s).state, (ax s).causes, onLineA s, raised s))
      = some (.halted, 0b100000, [1, 2], [ev .axisHalted 1 6]) := by decide +kernel

theorem test_lock_timer_expiry :
    ran (exec (.lockTimerExpiry 0) (withAxis fun x =>
      { x with state := .locking, lockTimer := some 0 })) (fun s => ((ax s).causes, raised s))
      = some (0b10000000, [ev .axisHalted 1 8]) := by decide +kernel

/-- Section 5.12, case 1, period 2: 230 slewed towards 300. -/
theorem test_control_period_expiry :
    ran (exec (.controlPeriodExpiry 0) (travelling 1512 230 192))
      (fun s => ((ax s).stage, (ax s).sentDemand, onLineA s, queuedA s, (ax s).controlTimer))
      = some (.high, 280, [1, 1, 1, 24], [5], some 50000) := by decide +kernel

/-- Section 5.12, case 3, period e: arrival. -/
theorem test_control_period_arrival :
    ran (exec (.controlPeriodExpiry 0) (travelling 3997 16 192))
      (fun s => ((ax s).state, (ax s).controlTimer, onLineA s, raised s))
      = some (.still, none, [1, 1, 0, 0], [ev .moveDone 1 3997]) := by decide +kernel

theorem test_zone_close :
    ran (exec (.zoneClose 1 0x120 7 [1]) (withDoor fun x => { x with state := .opening }))
      (fun s => (s.run.zones[(0 : Fin 8)].warningTimer, s.run.zones[(0 : Fin 8)].fire, (dr s).state,
        s.run.calls.map fun k => (k.priority, k.origin.code)))
      = some (some 3000000, true, .closing, [(7, 0x200)]) := by decide +kernel

theorem test_reopen :
    ran (exec (.reopen 1 0x120 7 []) (at' fun r => (r.modZone 0 fun x =>
      { x with active := true, causes := 1, state := .sealed }).modDoor 0 fun x =>
        { x with state := .transit, timer := some (.transit, 5), transitMark := true }))
      (fun s => ((dr s).state, (dr s).timer, raised s)) = some (.opened, none, [ev .zoneState 0 0]) := by decide +kernel

theorem test_override :
    ran (exec (.override 1 0x120 7 []) (at' id))
      (fun s => (s.run.zones[(0 : Fin 8)].override, sent s)) = some (true, ans 0 0 0) := by
  decide +kernel

theorem test_door_open_request :
    ran (exec (.doorOpenRequest 1 0x130 7 []) (at' fun r =>
      (r.modZone 0 fun x => { x with active := true, state := .sealed }).modDoor 0 fun x =>
        { x with state := .closed })) sent = some (ans 5 0 8) := by decide +kernel

theorem test_door_close_request :
    ran (exec (.doorCloseRequest 1 0x130 7 []) (withDoor fun x =>
      { x with state := .obstructed, retriesUsed := 2 }))
      (fun s => ((dr s).state, (dr s).retriesUsed, (dr s).timer, onLineA s))
      = some (.closing, 0, some (.move, 40000000), [9, 9]) := by decide +kernel

/-- A door CLOSED after step 3 of R117 and found forced by the same reply: its transit request is judged
all the same, by DENY with fire and by a transit without (R119, log 22). -/
theorem test_transit_of_a_forced_door :
    ([true, false].map fun fire =>
      let r := ((at' id).run.modZone 0 fun x => { x with active := true, fire }).modDoor 0 fun x =>
        { x with state := .closed }
      let r := Run.doorReply demo r 0
        { position := .moving, obstruction := false, transitRequest := true, localFault := false }
      (r.doors[(0 : Fin 32)].state, r.doors[(0 : Fin 32)].transitMark))
      = [(.closing, false), (.opening, true)] := by decide +kernel

theorem test_warning_expiry :
    ran (exec (.warningExpiry 0) (at' fun r => (r.modZone 0 fun x =>
      { x with active := true, warningTimer := some 0, state := .warning }).modDoor 0 fun x =>
        { x with state := .opened })) (fun s => ((dr s).state, s.run.zones[(0 : Fin 8)].state))
      = some (.closing, .closing) := by decide +kernel

theorem test_retry_expiry :
    ran (exec (.retryExpiry 0) (withDoor fun x =>
      { x with state := .obstructed, retriesUsed := 3, timer := some (.retry, 0) }))
      (fun s => ((dr s).state, raised s)) = some (.fault, [ev .doorFault 0 3]) := by decide +kernel

theorem test_move_timer_expiry :
    ran (exec (.moveTimerExpiry 0) (withDoor fun x =>
      { x with state := .closing, timer := some (.move, 0) }))
      (fun s => ((dr s).state, raised s)) = some (.fault, [ev .doorFault 0 2]) := by decide +kernel

theorem test_transit_expiry :
    ran (exec (.transitExpiry 0) (withDoor fun x =>
      { x with state := .transit, timer := some (.transit, 0), transitMark := true }))
      (fun s => ((dr s).state, (dr s).transitMark)) = some (.closing, false) := by decide +kernel

theorem test_place_call :
    ran (exec (.placeCall 1 0x140 7 [0, 7, 0, 1, 3, 16, 0, 30]) (at' fun r => r.setCallCounter 255))
      (fun s => (sent s, s.run.calls.map fun k => (k.id, k.repeats, k.pending)))
      = some (some [1, 0, 4, 0, 0, 0, 1, 0], [(1, 15, 1)]) := by decide +kernel

theorem test_withdraw_call :
    ran (exec (.withdrawCall 1 0x140 7 [1, 0, 0]) (at' fun r => r.setCalls
      [call 4 7 3 .bridge, call 9 7 3 (.axis 0), call 5 8 2 .bridge]))
      (fun s => (s.run.calls.map (·.id), (sent s).map (·.take 3), raised s))
      = some ([9], some [0, 0, 2], [ev .callWithdrawn 4 0, ev .callWithdrawn 5 0]) := by
  decide +kernel

/-- Area 0 plays call 4. -/
def playing (r : Run) : Run :=
  (r.setCalls [{ call 4 7 3 .bridge with pending := 0, playing := 1, remaining := 1 }]).modArea 0
    fun x => { x with state := .playing, callId := some 4, message := some 7, playTimer := some 0
                      awaited := [{ node := nd 0 9, armed := true, message := 5, serial := 0 }] }

theorem test_play_timer_expiry :
    ran (exec (.playTimerExpiry 0) (at' fun r => quietA (playing r)))
      (fun s => (s.run.areas[(0 : Fin 16)].state, s.run.calls.length, queuedA s, raised s))
      = some (.idle, 0, [0x11], [ev .callDone 4 0]) := by decide +kernel

theorem test_gap_expiry :
    ran (exec (.gapExpiry 4) (at' fun r => (quietA r).setCalls
      [{ call 4 7 3 .bridge with phase := .gap, gapTimer := some 0, pending := 0 }] |>.modArea 0
        fun x => { x with state := .unavailable }))
      (fun s => s.run.calls.map fun k => (k.phase, k.remaining)) = some [(.waiting, 2)] := by
  decide +kernel

theorem test_enable :
    ran (exec (.enable 1 0x150 7 []) (at' id))
      (fun s => (s.run.monitors[(0 : Fin 16)].enabled, sent s)) = some (true, ans 0 0 0) := by
  decide +kernel

/-- Monitor 0 enabled in a state. -/
def monitoring (state : Fin 8) (f : MonitorRt → MonitorRt) (r : Run) : Run :=
  r.modMonitor 0 fun x => f { x with enabled := true, current := state }

theorem test_disable :
    ran (exec (.disable 1 0x150 7 []) (at' (monitoring 1 fun x =>
      { x with derate := some (192, 1), timeoutTimer := some 5 })))
      (fun s => (s.run.monitors[(0 : Fin 16)], sent s))
      = some ({ resetMonitor with current := 1 }, ans 0 0 1) := by decide +kernel

theorem test_monitor_restart :
    ran (exec (.monitorRestart 1 0x150 7 []) (at' id)) sent = some (ans 5 0 0) := by decide +kernel

theorem test_stale_timer_expiry :
    ran (exec (.staleTimerExpiry 0) (at' fun r => monitoring 0 id (r.modChannel 0 fun x =>
      { x with value := some 5, stale := false, timer := some 0 })))
      (fun s => (s.run.monitors[(0 : Fin 16)].derate, s.run.channels[(0 : Fin 32)].stale, raised s))
      = some (some (192, 1), true, [ev .monitorStale 0 1]) := by decide +kernel

theorem test_hold_timer_expiry :
    ran (exec (.holdTimerExpiry 0) (at' (monitoring 0 fun x => { x with holdTimer := some 0 })))
      (fun s => (s.run.monitors[(0 : Fin 16)].current,
        s.run.monitors[(0 : Fin 16)].timeoutTimer)) = some (1, some 5000000) := by decide +kernel

theorem test_timeout_timer_expiry :
    ran (exec (.timeoutTimerExpiry 0) (at' (monitoring 1 fun x =>
      { x with timeoutTimer := some 0, derate := some (192, 1) })))
      (fun s => (s.run.monitors[(0 : Fin 16)].current, s.run.monitors[(0 : Fin 16)].derate))
      = some (0, none) := by decide +kernel

theorem test_raw_level_change :
    ran (exec (.rawLevelChange 0 true) (at' id)) (fun s => s.run.lines[(0 : Fin 14)])
      = some { raw := true, accepted := false, filterTimer := some 2000 } := by decide +kernel

theorem test_line_filter_expiry :
    ran (exec (.lineFilterExpiry 3) (at' fun r => r.modLine 3 fun l =>
      { l with raw := true, filterTimer := some 0 }))
      (fun s => (s.run.zones[(1 : Fin 8)].active, s.run.zones[(1 : Fin 8)].fire, raised s))
      = some (true, true, [ev .lineEdge 3 1, ev .zoneState 1 1]) := by decide +kernel

theorem test_read_lines :
    ran (exec (.readLines 1 0x160 7 []) (at' fun r => r.modLine 1 fun l =>
      { l with raw := true, accepted := true })) sent
      = some (some [0, 0, 0, 0, 0, 0, 0, 2, 0, 2, 1, 0, 0, 0, 0, 0, 0, 0, 0]) := by decide +kernel

theorem test_lines_set_output :
    ran (exec (.linesSetOutput 1 0x160 7 [0, 2]) (at' id)) sent = some (ans 6 0 2) := by
  decide +kernel

theorem test_flash_phase_expiry :
    ran (exec (.flashPhaseExpiry .fast) (at' id)) (fun s => s.run.chain.fast)
      = some { lit := false, timer := some 125000 } := by decide +kernel

theorem test_shift_end :
    ran (exec .shiftEnd (at' fun r => r.setChain { r.chain with
      inShift := some (List.replicate 64 false), shiftTimer := some 0, shown := [true] }))
      (fun s => (s.run.chain.shown, s.run.chain.inShift)) = some (List.replicate 64 false, none) := by
  decide +kernel

/-- Position 7, the last lamp, goes out first. -/
theorem test_shift_data_line :
    ([40, 31, 30, 20, 11, 10].map fun left => ({ resetChain [] with
      inShift := some [false, false, true], shiftTimer := some left } : Chain).dataLine)
      = [some true, some true, some false, some false, some false, none] := by decide +kernel

theorem test_lamp_test_expiry :
    ran (exec .lampTestExpiry (at' fun r => r.setChain { r.chain with
      lampTest := some 0, last := List.replicate 64 true }))
      (fun s => (s.run.chain.inShift, s.run.chain.lampTest))
      = some (some (List.replicate 64 false), none) := by decide +kernel

/-- A save that writes one page of bytes. -/
def saving (phase : StorePhase) (f : Store → Store) : State := at' fun r => r.setStore
  (f { r.store with phase, snapshot := some (List.replicate 128 5), pageTimer := some 20000 })

theorem test_page_write_done :
    ran (exec .pageWriteDone (saving .writing id)) (fun s =>
      (s.extMem.read 0, s.extMem.read 1, s.extMem.read 2, s.run.store.finalPass))
      = some (0, 0, 5, true) := by decide +kernel

theorem test_page_read_done :
    ran (exec (.pageReadDone (some (List.replicate 128 6))) (saving .verifying id))
      (fun s => (s.run.gw, s.run.store.phase, raised s))
      = some (.configured, .idle, [ev .storeFailed 0 1]) := by decide +kernel

/-- A LINE record of a first page of two is in its table as soon as that page is read (R182). -/
theorem test_page_loaded_enters :
    ran (exec (.pageReadDone (some ([0, 2, 0, 0, 15, 0, 3, 20, 3, 1, 0xFF] ++ List.replicate 117 0)))
        (saving .loading id))
      (fun s => (s.run.store.phase, s.run.store.page, s.cfg.lines[(3 : Fin 16)]))
      = some (.loading, 1, { filter := 20, edge := .both, event := true }) := by decide +kernel

theorem test_page_timer_expiry :
    ran (exec .pageTimerExpiry { State.reset with cfg := demo })
      (fun s => (s.run.gw, s.cfg.routes.length, raised s))
      = some (.unconfigured, 0, [ev .startUp 0 1]) := by decide +kernel

end Sys2Proof.Tests
end

