-- ==== Sys2Proof/Tests/Witness.lean ====
section
/-! SUPPORT. For every statement with hypotheses, concrete states and operands that meet them, clause by
clause, with the boundary values of the ranges. -/

namespace Sys2Proof.Tests

open Sys2Proof.Machine

set_option Elab.async false

/-- The part at rest. -/
def s0 : State := at' id

/-- The part at rest with the tables not in force. -/
def sU : State := at' fun r => r.setGw .unconfigured

/-- Axis 1 in a state. -/
def inState (x : AxisState) : State := withAxis fun k => { k with state := x }

/-- Door 0 in a state. -/
def doorIn (x : DoorState) : State := withDoor fun k => { k with state := x }

/-- Trunk A changed. -/
def trunkA (f : TrunkRt → TrunkRt) : State := at' fun r => r.modTrunk 0 f

/-- A line accepted active. -/
def lineOn (l : Fin 14) (s : State) : State :=
  s.setRun (s.run.modLine l fun x => { x with raw := true, accepted := true })

/-- The zone of axis 1 and door 0 under closure, with its fire flag or without. -/
def closedZone (fire : Bool) (s : State) : State :=
  s.setRun (s.run.modZone 0 fun x => { x with active := true, fire })

/-- The tables with a first prerequisite of axis 1 on axis 2. -/
def needing (s : State) : State :=
  let k : AxisCfg := { axis1 with prereq1 := some { axis := 1, min := 0, max := 9 } }
  s.setCfg { s.cfg with axes := s.cfg.axes.set 0 k }

/-- Axis 2 standing at a position. -/
def second (position : Int) (s : State) : State :=
  s.setRun (s.run.modAxis 1 fun x => { x with state := .still, latest := some (drive position 2) })

/-- A queue of so many frames for the door node. -/
def frames (n : Nat) : List QFrame := List.replicate n
  { node := nd 0 8, code := 0x20, payload := [], attempts := 0
    origin := .relay { src := 1, dst := 0x209, tag := 7 } }

/-- An ANSWER and a REPORT that wait. -/
def anAnswer : OutEntry := .answer
  { req := { src := 1, dst := 0, tag := 7 }, code := .ok, detail := 0, data := .fixed []
    restart := false }
def aReport : Report := { node := nd 0 8, dst := 1, src := 0x209, time := 0, payload := [] }

/-- The console with a queue, idle or sending. -/
def consoleWith (queue : List OutEntry) (sending : Bool) : State := at' fun r =>
  r.setConsole { r.console with
    queue, tx := if sending then some { frame := { dst := 1, src := 0, tag := 0, kind := 0x82
                                                   payload := [] }, restart := false } else none }

theorem witness_StepTakesTheFrontCommand :
    (s0.setPending [.resetPin, .shiftEnd]).pending = .resetPin :: [.shiftEnd] := rfl

theorem witness_EmptyQueueLetsTimePass :
    s0.pending = [] ∧ dueExpiries s0.run = [] ∧ s0.run.clock.us < 999 ∧
    (let s := at' fun r => r.setClock { r.clock with us := 999 }
     dueExpiries s.run = [] ∧ ¬s.run.clock.us < 999) ∧
    (let s := at' fun r => r.setConsole { r.console with beaconTimer := some 0 }
     s.pending = [] ∧ dueExpiries s.run = [.beaconExpiry]) ∧
    (let s := at' fun r => (r.setConsole { r.console with beaconTimer := some 0 }).modTrunk 3
       fun k => { k with settleTimer := some 0 }
     s.pending = [] ∧ dueExpiries s.run = [.beaconExpiry, .settleExpiry 3]) := by decide +kernel

theorem witness_EveryCommandCompletesSettled :
    (saving .writing fun x => { x with page := 511 }).run.store.page < 512 := by decide +kernel

theorem witness_PageOperationsGoOn :
    (let s := saving .writing fun x => { x with page := 511, finalPass := true }
     s.run.store.page < 512 ∧ s.run.store.phase = .writing ∧ s.run.store.pageTimer.isSome = true ∧
       s.extMem.wf = true) ∧
    s0.run.store.phase = .idle ∧ s0.run.store.pageTimer = none ∧
    (let x := (saving .verifying id).run.store
     x.phase = .verifying ∧ ([] : List Byte) ≠ ((x.snapshot.getD []).drop (128 * x.page)).take 128 ∧
       List.replicate 128 5 = ((x.snapshot.getD []).drop (128 * x.page)).take 128 ∧
       (x.snapshot.getD []).length / 128 ≤ x.page + 1) ∧
    (saving .loading id).run.store.phase = .loading ∧ Memory.wf ([] : Memory) = true ∧
    (List.replicate 128 (0 : Byte)).length = 128 ∧
    (s0.run.console.rx.phase = .hunt ∧ s0.run.store.phase ≠ .writing) ∧
    (∀ f ∈ [StorePhase.writing, .loading, .verifying],
      512 ≤ (saving f fun x => { x with page := 512 }).run.store.page ∧
        (saving f fun x => { x with page := 512 }).run.store.phase = f) := by decide +kernel

theorem witness_PageOperationsGoOn_next : ∃ t, exec .shiftEnd s0 = .next t := ⟨_, rfl⟩

/-- A page of LOADING with more to come, and the memory's frame in the middle of a save. -/
theorem witness_PageOperationsGoOn_frames :
    (let s := saving .loading fun x => { x with loadBuffer := [], page := 0 }
     s.run.store.phase = .loading ∧
       (s.run.store.loadBuffer ++ [(0 : Byte), 2, 9]) = (0 : Byte) :: 2 :: [9] ∧
       0 < 256 * (0 : Byte).toNat + (2 : Byte).toNat ∧
       s.run.store.page + 1 < 256 * (0 : Byte).toNat + (2 : Byte).toNat) ∧
    (let s := (saving .writing id).setRun ((saving .writing id).run.setGw .storing)
     s.run.store.phase = .writing ∧ s.run.gw = .storing ∧ Instr.shiftEnd ≠ .pageWriteDone ∧
       s.run.console.tx = none) := by decide +kernel

theorem witness_ResetsGiveTheResetValues :
    s0.run.store.phase ≠ .writing ∧ (saving .writing id).extMem.wf = true ∧
    (saving .writing id).run.store.phase = .writing ∧
    (saving .writing id).run.store.finalPass = false ∧
    (saving .writing fun x => { x with finalPass := true }).run.store.finalPass = true := by
  decide +kernel

theorem witness_ResetsGiveTheResetValues_next (f : Store → Store) :
    ∃ t, exec .resetPin (saving .writing f) = .next t := ⟨_, rfl⟩

theorem witness_ReceiverReadsBackEveryFrame :
    (List.replicate 240 (0 : Byte)).length ≤ 240 ∧ s0.run.console.rx = Rx.idle := by decide +kernel

theorem witness_BrokenFramesAreDroppedAndCounted :
    s0.run.console.rx.phase = .hunt ∧
    (0 : Word) ≠ crc16 (Frame.covered { dst := 0, src := 1, tag := 0, kind := 3, payload := [4, 0] }) ∧
    (5 : Byte).toNat < 6 ∧ 246 < (247 : Byte).toNat ∧ underWay [] ∧ underWay [6] ∧
    underWay (246 :: List.replicate 247 0) := by
  refine ⟨?_, ?_, ?_, ?_, trivial, ?_, ?_⟩
  iterate 4 decide +kernel
  · show 6 ≤ _ ∧ _ ∧ _
    decide +kernel
  · show 6 ≤ _ ∧ _ ∧ _
    decide +kernel

/-- The console receiver in the middle of a frame. -/
def taking (l : List Byte) : State := at' fun r =>
  r.setConsole { r.console with rx := { phase := .receiving, buffer := l } }

/-- A frame of seven bytes behind its sync byte, without its CRC. -/
def lampFrame : Frame := { dst := 0, src := 1, tag := 0, kind := 1, payload := [11] }

/-- The receiver in the middle of a frame: its length byte comes, a length outside the range, a byte
within the frame, and its last byte with the CRC right and wrong. -/
theorem witness_BrokenFramesAreDroppedAndCounted_receiving :
    (taking []).run.console.rx.phase = .receiving ∧ (taking []).run.console.rx.buffer = [] ∧
    (5 : Byte).toNat < 6 ∧ 6 ≤ (6 : Byte).toNat ∧ (6 : Byte).toNat ≤ 246 ∧
    ([] : List Byte).length < (6 : Byte).toNat + 2 ∧ lampFrame.payload.length ≤ 240 ∧
    lampFrame.covered ++ w2 0 = (7 : Byte) :: (lampFrame.covered.tail ++ w2 0) ∧
    (taking (lampFrame.covered ++ [(0 : Byte)])).run.console.rx.buffer ++ [(0 : Byte)]
      = lampFrame.covered ++ w2 0 ∧ (0 : Word) ≠ crc16 lampFrame.covered ∧
    (Instr.lampTest 1 7 []).frame = some (managementFrame 1 7 [0x0B]) := by decide +kernel

/-- Every management request served, and each of its fields at the ends of its range and past them. -/
theorem witness_FramesAndManagementAreJudgedInOrder_forms :
    (∀ m ∈ [Management.collectEvents, .saveConfig, .restart, .lampTest, .readStatus, .trunkHold,
      .trunkRelease, .setOutput, .readEntry, .writeEntry], Serves s0 m) ∧
    Serves sU .start ∧ Serves sU .clearTable ∧ ([] : List Byte).length ≤ 235 ∧
    1 < (2 : Byte).toNat ∧ (1 : Byte).toNat ≤ 1 ∧ 4 ≤ (4 : Byte).toNat ∧ (3 : Byte).toNat < 4 ∧
    (0 : Byte).toNat = 0 ∧ 16 < (17 : Byte).toNat ∧ ¬((16 : Byte).toNat = 0 ∨ 16 < (16 : Byte).toNat) ∧
    (1 : Byte).toNat = Table.id .route ∧ (16 : Byte).toNat = Table.id .param ∧
    Table.entries .route ≤ (word2 1 0).toNat ∧ (word2 0 255).toNat < Table.entries .route := by
  decide +kernel

theorem witness_FramesAndManagementAreJudgedInOrder :
    (∀ i ∈ [Instr.lampTest 1 7 [], .nodeCommand 1 0x209 7 [0x20], .move 1 0x101 7 [],
        .passRequest 1 0x209 7 [0], .invalidKindFrame 9 1 0 7 []],
      ∃ f, i.frame = some f ∧ f.payload.length ≤ 240) ∧
    (at' fun r => r.setGw .loading).run.gw = .loading ∧
    (at' fun r => r.setConsole { r.console with restartPending := true }).run.console.restartPending
      = true ∧
    Listening s0 ∧ Listening sU ∧ sU.run.gw = .unconfigured ∧ s0.run.gw ≠ .unconfigured ∧
    invalidKind 9 0 = true ∧ invalidKind 3 1 = true ∧ invalidKind 1 0 = true := by
  refine ⟨?_, ?_⟩
  · simp [Instr.frame, managementFrame, functionFrame]
  · decide +kernel

theorem witness_FramesAndManagementAreJudgedInOrder_noCode :
    (Instr.invalidKindFrame 3 1 0 7 []).frame = some (managementFrame 1 7 []) ∧ Listening s0 :=
  ⟨rfl, by decide +kernel⟩

theorem witness_FramesAndManagementAreJudgedInOrder_gates :
    (Instr.lampTest 1 7 []).frame = some (managementFrame 1 7 [0x0B]) ∧ Listening s0 ∧
    managementOfCode 0 = none ∧ managementOfCode 13 = none ∧ managementOfCode 12 = some .setOutput ∧
    gated .start s0.run.gw = some (.state, 2) ∧ gated .saveConfig sU.run.gw = some (.state, 1) := by
  decide +kernel

theorem witness_OutboundQueueAndTransmitter :
    (List.replicate 31 anAnswer).length < 32 ∧ 32 ≤ (List.replicate 32 anAnswer).length ∧
    (anAnswer :: .report aReport :: List.replicate 30 anAnswer) =
      [anAnswer] ++ .report aReport :: List.replicate 30 anAnswer ∧
    aReport.node = (nd 0 8) ∧ s0.run.console.tx = none ∧
    (consoleWith [anAnswer] true).run.console.tx.isSome = true ∧
    ((consoleWith [anAnswer] true).run.console.tx.map (·.restart)) = some false ∧
    (consoleWith [] true).run.console.beaconDue = false ∧
    (consoleWith [.report aReport] true).run.console.queue = [] ++ .report aReport :: [] ∧
    s0.run.console.beaconTimer = none ∧
    (at' fun r => r.setConsole { r.console with beaconTimer := some 0 }).run.console.beaconTimer.isSome
      = true := by decide +kernel

theorem witness_OutboundQueueAndTransmitter_kinds :
    (∀ q, OutEntry.report q ∉ List.replicate 32 anAnswer) ∧ (∀ b, OutEntry.answer b ∉ [.report aReport]) ∧
      (∀ q, OutEntry.report q ∉ [anAnswer]) := by simp [anAnswer]

/-- The ANSWER of a request with the transmitter busy, with it idle and nothing before it, and with an
older ANSWER and one that collects events before it. -/
theorem witness_AnswersAreSentAndEventsClosed :
    let a : Answer := { req := { src := 1, dst := 0, tag := 9 }, code := .ok, detail := 0
                        data := .fixed [], restart := false }
    (consoleWith [] true).run.console.tx.isSome = true ∧ s0.run.console.tx = none ∧
    s0.run.console.queue = [] ∧
    ((consoleWith [.report aReport] false).run.console.offerAnswer a).1.queue
      = [.report aReport] ++ .answer a :: [] ∧
    (((consoleWith [.answer { a with data := .collect }] false).run.console.offerAnswer a).1.queue
      = [] ++ .answer { a with data := .collect } :: [.answer a]) ∧
    a.data = .fixed [] ∧ (s0.run.events.records.length < 64) := by decide +kernel

theorem witness_EntriesAreReadAndTablesCleared :
    Serves s0 .readEntry ∧ Table.entries .param = 1 ∧ Table.entries .route = 256 ∧
    (getEntry demo .axis 5).map Entry.empty = some true ∧
    (getEntry demo .axis 0).map Entry.empty = some false ∧
    (getEntry demo .line 15).map Entry.empty ≠ some false ∧ 16 < (17 : Byte).toNat := by
  decide +kernel

/-- A content of each table. -/
def contents : List (Table × Nat × Entry) :=
  [(.route, 0, .route (some { station := 0xFFFE, target := .node (nd 3 30) })), (.route, 9, .route none),
    (.permit, 63, .permit (some { first := 1, last := 0xFFFE, code := some 0xFF
                                  term1 := some (.zoneState 7 31), term2 := none
                                  action := .forwardNote })),
    (.report, 123, .report { mode := .every, every := 255, interval := 10000 }),
    (.trunk, 3, .trunk { emptyTrunk with configured := true, bitRate := 500, settle := 2000 }),
    (.node, 123, .node (some { kind := .generic, poll := .none })), (.axis, 0, .axis axis1),
    (.profile, 47, .profile (some { position := -32000, speed := 4000 })),
    (.zone, 7, .zone { emptyZone with warning := 60, fireMessage := 511 }),
    (.door, 31, .door { emptyDoor with configured := true, zone2 := some 7, retryLimit := 5 }),
    (.area, 15, .area [nd 0 9, nd 3 30]),
    (.channel, 31, .channel { emptyChannel with configured := true, offset := 14, width := 2 }),
    (.monitor, 15, .monitor { configured := true, startEnabled := true }),
    (.mstate, 127, .mstate { emptyMstate with inUse := true, threshold := -32768, hold := 65535
                                              action := .call 511 1 7 15 }),
    (.lamp, 63, .lamp { source := .zone 7, styles := [(4, .fast)] }),
    (.line, 13, .line { filter := 255, edge := .both, event := true }),
    (.param, 0, .param { resetParam with beaconPeriod := 5000, playLimit := 120 })]

theorem witness_ContentsAreReadBack :
    (contents.all fun x => x.2.2.fits x.1 x.2.1) = true := by decide +kernel

/-- For each table a write that is refused by its content, and one that passes. -/
theorem witness_WritesAreJudgedInOrder_contents :
    (contents.all fun x => decide (x.2.1 < x.1.entries) &&
      (match (contentForm x.1 x.2.1).run' 3 x.2.2.bytes with | .ok e => e == x.2.2 | .error _ => false) &&
      (match (contentForm x.1 x.2.1).run' 3 [] with | .ok _ => false | .error k => k == 3)) = true := by
  decide +kernel

theorem witness_WritesAreJudgedInOrder :
    Serves s0 .writeEntry ∧ Serves sU .writeEntry ∧ s0.run.gw.inForce = true ∧
    sU.run.gw.inForce = false ∧ Table.entries .line = 16 ∧
    restriction demo s0.run .trunk 0 [] = some (.state, 3) ∧
    restriction demo sU.run .route 0 [] = none ∧
    (match putEntry demo 0 (.route (some { station := 0x110, target := .node (nd 1 0) })) with
      | .error k => k == 3 | .ok _ => false) = true ∧
    crossFailure { demo with nodes := demo.nodes.set 8 none } 8 (.node none) ≠ none ∧ crossFailure demo 15 (.area []) = none := by
  decide +kernel

/-- A ROUTE write behind the count, of a node and of a function, and for each table a reference that
fails and one that holds. -/
theorem witness_WritesAreJudgedInOrder_references :
    (∀ x ∈ [RouteTarget.node (nd 1 0), .function .plan],
      (match putEntry demo 200 (.route (some { station := 0x300, target := x })) with
        | .error k => k == 2 | .ok _ => false) = true) ∧
    nodeCfg demo (nd 1 0) = none ∧ nodeCfg demo (nd 0 8) ≠ none ∧
    termSound demo (some (.axis 1 1)) = false ∧ termSound demo (some (.axis 0 1)) = true ∧
    termSound demo none = true ∧ nodeKind demo (nd 0 0) = some .drive ∧
    (demo.axes[(0 : Fin 6)].configured = true ∧ nodeKind demo demo.axes[(0 : Fin 6)].drive = some .drive ∧
      (∀ b : Fin 6, b ≠ 0 → demo.axes[b].configured = false) ∧
      nodeKind demo (nd 0 2) = some .panel ∧ demo.axes[(0 : Fin 6)].prereq1 = none ∧
      demo.axes[(0 : Fin 6)].prereq2 = none ∧ 2 ≤ (breakpoints demo 0).length) ∧
    ((needing s0).cfg.axes[(0 : Fin 6)].prereq1.map (·.axis) = some 1 ∧
      (needing s0).cfg.axes[(1 : Fin 6)].configured = false) ∧
    demo.doors[(0 : Fin 32)].configured = true ∧ demo.doors[(1 : Fin 32)].configured = false ∧
    nodeKind demo demo.doors[(0 : Fin 32)].node = some .door ∧
    (mstate demo 0 0).inUse = true ∧ (mstate demo 0 2).inUse = false ∧
    demo.channels[(mstate demo 0 0).channel].configured = true ∧
    demo.monitors[(0 : Fin 16)].startEnabled = false ∧ (mstate demo 0 0).timeout = 0 ∧
    (mstate demo 0 1).timeout ≠ 0 := by decide +kernel

theorem witness_WritesKeepTheOtherEntriesAndTheirOwners :
    (match putEntry demo 1 (.zone emptyZone) with | .ok (_, d) => d == 0 | .error _ => false) = true ∧
    Entry.fits .zone 1 (.zone emptyZone) = true ∧ Entry.fits .param 0 (.param resetParam) = true ∧
    (demo.routes.map (·.station.toNat)).Pairwise (· < ·) ∧ 8 = demo.routes.length ∧
    (∃ y ∈ demo.routes.eraseIdx 0, y.station = 0x110) ∧
    (∀ y ∈ demo.routes.eraseIdx 0, y.station ≠ 0x101) ∧
    (∃ y ∈ demo.routes.eraseIdx 0, y.target = .node (nd 0 8)) ∧
    (∀ y ∈ demo.routes.eraseIdx 0, y.target ≠ .node (nd 0 9)) := by decide +kernel

theorem witness_WritesKeepTheOtherEntriesAndTheirOwners_restrict :
    reads demo (monitoring 0 id s0.run) 0 0 = true ∧ (∀ m, reads demo s0.run m 0 = false) ∧
    (∀ x ∈ [DoorState.opening, .closing, .obstructed, .transit, .offline, .opened, .closed, .fault],
      (doorIn x).run.doors[(0 : Fin 32)].state = x) ∧
    (0 : Fin 8) ∈ zonesNamed demo.doors[(0 : Fin 32)] ∧
    (closedZone false s0).run.zones[(0 : Fin 8)].active = true ∧
    s0.run.zones[(0 : Fin 8)].active = false := by decide +kernel

theorem witness_WrittenEntriesActOnTheirOwner :
    sU.run.gw = .unconfigured ∧ s0.run.gw = .configured ∧
    s0.run.trunks[(1 : Fin 4)].state = .down ∧
    (trunkA fun k => { k with state := .held }).run.trunks[(0 : Fin 4)].state = .held ∧
    demo.trunks[(0 : Fin 4)].configured = true ∧ demo.trunks[(1 : Fin 4)].configured = false ∧
    demo.axes[(0 : Fin 6)].configured = true ∧ demo.axes[(1 : Fin 6)].configured = false ∧
    (needing s0).cfg.axes[(0 : Fin 6)].drive = demo.axes[(0 : Fin 6)].drive ∧
    demo.param.beaconPeriod ≠ 1001 ∧ demo.param.duty ≠ 51 := by decide +kernel

theorem witness_StatusAndEventsAreReadOut :
    Serves s0 .readStatus ∧ Serves s0 .collectEvents ∧ s0.run.console.tx = none ∧
    s0.run.console.queue = [] ∧ (2 : Byte) ≠ 0 ∧ (2 : Byte) ≠ 1 ∧
    (consoleWith (List.replicate 31 anAnswer) true).run.console.queue.length < 32 ∧
    (consoleWith (List.replicate 32 anAnswer) true).run.console.tx.isSome = true ∧
    32 ≤ (consoleWith (List.replicate 32 anAnswer) true).run.console.queue.length := by decide +kernel

/-- A full queue with a REPORT in it, at a busy transmitter and, all REPORTs, at an idle one: for
COLLECT_EVENTS and for RESTART. -/
theorem witness_StatusAndEventsAreReadOut_full :
    let busy := consoleWith (anAnswer :: .report aReport :: List.replicate 30 anAnswer) true
    let idle := consoleWith (List.replicate 32 (.report aReport)) false
    Serves busy .collectEvents ∧ Serves busy .restart ∧ 32 ≤ busy.run.console.queue.length ∧
    busy.run.console.tx.isSome = true ∧
    busy.run.console.queue = [anAnswer] ++ .report aReport :: List.replicate 30 anAnswer ∧
    Serves idle .collectEvents ∧ Serves idle .restart ∧ 32 ≤ idle.run.console.queue.length ∧
    idle.run.console.tx = none ∧ firstAnswer idle.run.console.queue = none ∧
    idle.run.console.queue = [] ++ .report aReport :: List.replicate 31 (.report aReport) := by
  decide +kernel

theorem witness_EntriesAreReadAndTablesCleared_clear :
    Serves sU .clearTable ∧ 16 < (17 : Byte).toNat ∧ Table.route ≠ .param := by decide +kernel

theorem witness_ImagesAreFormedAndJudged :
    Serves s0 .saveConfig ∧ crc16 ([] : List Byte) = (0xFF : Byte) ++ (0xFF : Byte) ∧
    crc16 ([] : List Byte) ≠ (0 : Byte) ++ (0 : Byte) ∧ takeRecords 4 Tables.reset [] = none ∧
    (takeRecords 4 Tables.reset [7]).isNone = true := by decide +kernel

theorem witness_StartValidatesTheTables :
    Serves sU .start ∧ validate demo = none ∧
    validate { demo with nodes := Tables.reset.nodes } = some (.route, 7) := by decide +kernel

/-- A first failing entry, and a later one. -/
theorem witness_StartValidatesTheTables_unsound :
    Unsound { demo with nodes := Tables.reset.nodes } .route 7 ∧
    Unsound { demo with nodes := Tables.reset.nodes } .axis 0 ∧ Table.route.id < Table.axis.id ∧
    demo.trunks[(0 : Fin 4)].configured = true ∧ demo.trunks[(1 : Fin 4)].configured = false ∧
    demo.trunks[(0 : Fin 4)].settle ≠ 0 ∧ ({ emptyTrunk with settle := 0 } : TrunkCfg).settle = 0 := by
  refine ⟨⟨_, _, rfl, rfl, ?_⟩, ⟨0, rfl, ?_, .inl ?_⟩, ?_⟩ <;> decide +kernel

/-- Whether every entry of the tables is one a write can carry, an empty one with nothing in it. -/
def entriesFit (c : Tables) : Bool :=
  allTables.all fun t => (List.range t.entries).all fun i =>
    match getEntry c t i with
    | some e => e.fits t i && (!e.empty || t == .report || getEntry Tables.reset t i == some e)
    | none => true

theorem entriesFit_spec {c : Tables} (h : entriesFit c = true) (t : Table) (i : Nat) (e : Entry)
    (hi : i < t.entries) (he : getEntry c t i = some e) :
    e.fits t i = true ∧ (e.empty = true → t = .report ∨ getEntry Tables.reset t i = some e) := by
  have k := List.all_eq_true.mp (List.all_eq_true.mp h t (by cases t <;> decide)) i
    (List.mem_range.mpr hi)
  simp only [he, Bool.and_eq_true, Bool.or_eq_true, Bool.not_eq_true', beq_iff_eq] at k
  exact ⟨k.1, fun z => k.2.imp_left fun h => h.resolve_left (by simp [z])⟩

/-- Whether the breakpoints of every axis rise from its first entry on. -/
def profilesRise (c : Tables) : Bool :=
  (List.range 47).all fun i => (i + 1) % 8 == 0 ||
    match c.profiles[i + 1]? with
    | some (some b) =>
      (match c.profiles[i]? with
       | some (some a) => decide (a.position < b.position)
       | _ => false)
    | _ => true

theorem profilesRise_spec {c : Tables} (h : profilesRise c = true) (i : Fin 47) (b : Breakpoint)
    (hi : (i.val + 1) % 8 ≠ 0) (hb : c.profiles[i.val + 1]? = some (some b)) :
    ∃ a : Breakpoint, c.profiles[i.val]? = some (some a) ∧ a.position < b.position := by
  have k := List.all_eq_true.mp h i.val (List.mem_range.mpr i.isLt)
  simp only [hb, Bool.or_eq_true, beq_iff_eq, hi, false_or] at k
  split at k
  · next a e => exact ⟨a, e, by simpa using k⟩
  · simp at k

theorem demo_fits : TablesFit demo :=
  ⟨entriesFit_spec (by decide +kernel), by decide +kernel, by simp [demo],
    profilesRise_spec (by decide +kernel), by decide +kernel, by decide +kernel⟩

theorem reset_fits : TablesFit Tables.reset :=
  ⟨entriesFit_spec (by decide +kernel), by decide +kernel, .nil,
    profilesRise_spec (by decide +kernel), by decide +kernel, by decide +kernel⟩

theorem witness_SavedImagesLoadBack :
    TablesFit demo ∧ validate demo = none ∧ TablesFit Tables.reset ∧ validate Tables.reset = none :=
  ⟨demo_fits, by decide +kernel, reset_fits, by decide +kernel⟩

theorem witness_SavedImagesLoadBack_reports :
    ∀ i : Fin 124, demo.reports[i].mode = .none → demo.reports[i] = emptyReport := by decide +kernel

/-- A record in the middle of an image, and the bytes where the taking ends. -/
theorem witness_SavedImagesLoadBack_records :
    (contents.filter (fun x => !x.2.2.cutShort && !x.2.2.clamped && x.1 != .profile)).all (fun x =>
      x.2.2.fits x.1 x.2.1 && decide (x.2.1 < x.1.entries) &&
        (match putEntry Tables.reset x.2.1 x.2.2 with | .ok _ => true | .error _ => false)) = true ∧
    (17 : Byte).toNat = 17 ∧ 16 < (17 : Byte).toNat ∧ (17 : Byte) ≠ 0xFF ∧
    (takeRecords 4 Tables.reset [0xFF]).isSome = true := by decide +kernel

theorem witness_RestartLampTestAndOutputs :
    Serves s0 .restart ∧ Serves sU .restart ∧ Serves (inState .moving) .restart ∧
    (inState .moving).run.gw.inForce = true ∧
    (inState .moving).run.axes[(0 : Fin 6)].state.inMotion = true ∧
    (∀ b : Fin 6, b < 0 → ¬(inState .moving).run.axes[b].state.inMotion = true) ∧
    (∀ a : Fin 6, ¬s0.run.axes[a].state.inMotion = true) ∧ s0.run.console.tx = none ∧
    (consoleWith (List.replicate 31 anAnswer) true).run.console.queue.length < 32 ∧
    32 ≤ (consoleWith (List.replicate 32 anAnswer) true).run.console.queue.length := by decide +kernel

theorem witness_TrunkRequestsByState :
    (∀ x ∈ [TrunkState.down, .held, .settling, .running],
      (trunkA fun k => { k with state := x }).run.trunks[(0 : Fin 4)].state = x) ∧
    Serves s0 .trunkHold ∧ Serves s0 .trunkRelease ∧ demo.trunks[(0 : Fin 4)].settle ≠ 0 ∧
    ({ emptyTrunk with settle := 0 } : TrunkCfg).settle = 0 ∧ 4 ≤ (4 : Byte).toNat ∧
    demo.axes[(0 : Fin 6)].drive.trunk = 0 := by decide +kernel

theorem witness_RestartLampTestAndOutputs_atOnce :
    Serves s0 .lampTest ∧ Serves s0 .setOutput ∧ Reaches s0 0x160 .lines ∧ 4 ≤ (4 : Byte).toNat ∧
    2 ≤ (2 : Byte).toNat := by decide +kernel

/-- The trunk of the routed node in each case of the judging. -/
theorem witness_NodeCommandsAndPassRequestsAreJudged :
    (Listening s0 ∧ s0.run.gw ≠ .unconfigured ∧ findRoute demo 0x999 = none ∧
      findRoute demo 0x110 = some (.function .plan)) ∧ ReachesNode s0 0x209 (nd 0 8) ∧
    (0x1F : Byte).toNat < 0x20 ∧ 0x20 ≤ (0x20 : Byte).toNat ∧ 0x20 ≤ (0xFE : Byte).toNat ∧
    (Run.judgePermit Tables.reset s0.run 0x209 0x20).2 = some 0xFF ∧
    (Run.judgePermit demo s0.run 0x209 0x20).2 = none ∧
    ReachesNode (trunkA fun k => { k with state := .held }) 0x209 (nd 0 8) ∧
    s0.run.trunks[(0 : Fin 4)].state = .running ∧ nodeCfg demo (nd 0 8) ≠ none ∧
    (nodeRt s0.run (nd 0 8)).liveness ≠ .lost ∧
    (nodeRt (at' fun r => r.modNode 8 fun n => { n with liveness := .lost }).run (nd 0 8)).liveness
      = .lost ∧
    (trunkA fun k => { k with queue := frames 15 }).run.trunks[(0 : Fin 4)].queue.length < 16 ∧
    16 ≤ (trunkA fun k => { k with queue := frames 16 }).run.trunks[(0 : Fin 4)].queue.length ∧
    s0.run.trunks[(0 : Fin 4)].pass = none ∧
    ((trunkA fun k => { k with pass := some { slot := 8, code := 0, payload := [], attempts := 0
                                              req := { src := 1, dst := 2, tag := 3 } } }).run.trunks[
      (0 : Fin 4)].pass.map (·.slot)) = some 8 := by decide +kernel

/-- A permit table whose entry 1 refuses, notes or forwards door commands. -/
def permitting (a : PermitAction) : Tables :=
  { demo with permits := demo.permits.set 1 (some { first := 0x200, last := 0x209, code := some 0x40
                                                    term1 := some (.axis 0 1), term2 := none
                                                    action := a }) }

theorem witness_PermitTableDecides :
    (∀ a ∈ [PermitAction.forward, .forwardNote, .refuse],
      decidingEntry (permitting a) s0.run 0x209 0x40 = some (1, a)) ∧
    decidingEntry (permitting .refuse) s0.run 0x20A 0x40 = none ∧
    decidingEntry (permitting .refuse) s0.run 0x209 0xFF = none ∧
    (14 : Fin 16).val = 14 ∧ 14 ≤ (15 : Fin 16).val := by decide +kernel

theorem witness_RepliesAreReported :
    nodeStation demo (nd 0 8) = some 0x209 ∧ nodeStation demo (nd 0 0) = none ∧
    demo.reports[(8 : Fin 124)].mode = .change ∧ demo.reports[(9 : Fin 124)].mode = .none ∧
    s0.run.reports[(8 : Fin 124)].last ≠ some [] ∧ s0.run.reports[(8 : Fin 124)].timer = none ∧
    (let r := s0.run.modReport 8 fun x => { x with last := some [], timer := some 0 }
     r.reports[(8 : Fin 124)].last = some [] ∧ r.reports[(8 : Fin 124)].timer.isSome = true ∧
       r.reports[(8 : Fin 124)].pending = none) ∧
    (let c := { demo with reports := demo.reports.set 8 { mode := .every, every := 2, interval := 0 } }
     c.reports[(8 : Fin 124)].mode = .every ∧ s0.run.reports[(8 : Fin 124)].count + 1 ≠ 2 ∧
       (s0.run.modReport 8 fun x => { x with count := 1 }).reports[(8 : Fin 124)].count + 1 = 2) := by
  decide +kernel

/-- A REPORT offered to a busy transmitter, and to an idle one with nothing else, with a BEACON due and
with an ANSWER before it. -/
theorem witness_RepliesAreReported_offered :
    let offered := fun (s : State) => s.run.console.offerReport aReport
    (consoleWith [] true).run.console.tx.isSome = true ∧ (consoleWith [] false).run.console.tx = none ∧
    (offered (consoleWith [] false)).queue = [] ++ .report aReport :: [] ∧
    (offered (consoleWith [] false)).beaconDue = false ∧
    (consoleWith [] false |>.setRun ((consoleWith [] false).run.setConsole
      { (consoleWith [] false).run.console with beaconDue := true })).run.console.beaconDue = true ∧
    (offered (consoleWith [anAnswer] false)).queue = [] ++ anAnswer :: [.report aReport] := by
  decide +kernel

theorem witness_RepliesAreJudgedAndFramesComplete :
    (∀ b ∈ [(0x01 : Byte), 0x5A], b ≠ 0xA5) ∧ (List.replicate 16 (0 : Byte)).length ≤ 16 ∧
    (5 : Fin 31) ≠ 4 ∧ 16 < (17 : Byte).toNat ∧ ([] : List Byte).length < (0 : Byte).toNat + 2 ∧
    (0 : Word) ≠ crc16 [5, 0, 0] ∧
    -- address 5 with bit 5 or 6 set, address 0, another node without the mark, for slot 4
    (∀ a ∈ [(0xA5 : Byte), 0xC5, 0x80, 0x06, 0x05], a ≠ BitVec.ofNat 8 ((4 : Fin 31).val + 1 + 128)) ∧
    ([5, 0] : List Byte).length < 3 := by decide +kernel

theorem witness_GoodRepliesEndTheTransaction :
    s0.run.trunks[(1 : Fin 4)].transaction = none ∧
    (∃ k, (awaitingA s0.run 0 .hold).trunks[(0 : Fin 4)].transaction = some k ∧ k.awaiting = true ∧
      k.source = .hold ∧ judgeReply k.slot [0xA5, 1] = .corrupt ∧ judgeReply k.slot [] = .missing) ∧
    (∃ k, ((awaitingA s0.run 0 .poll).modTrunk 0 fun k => { k with
      transaction := k.transaction.map fun x => { x with awaiting := false } }).trunks[(0 : Fin 4)].transaction
        = some k ∧ k.awaiting = false) ∧
    (∀ x ∈ [(Liveness.unknown, 0), (.live, 0), (.missing, 1), (.missing, 2), (.lost, 3)],
      (nodeRt (s0.run.modNode 0 fun n => { n with liveness := x.1, misses := x.2 }) (nd 0 0)).liveness
        = x.1) := by
  refine ⟨by decide +kernel, ⟨_, rfl, ?_⟩, ⟨_, rfl, ?_⟩, by decide +kernel⟩ <;> decide +kernel

/-- The bytes of a good reply of slot 0, noise before them. -/
theorem witness_GoodRepliesEndTheTransaction_good :
    let f : List Byte := [0x81, 0x90, 0]
    judgeReply 0 (7 :: 0xA5 :: f ++ w2 (crc16 f)) = .good 0x90 [] ∧
    judgeReply 1 (7 :: 0xA5 :: f ++ w2 (crc16 f)) = .corrupt := by decide +kernel

theorem witness_LossesAndRepliesReachTheUsers :
    (∀ x ∈ [(nd 0 0, NodeKind.drive), (nd 0 2, .panel), (nd 0 8, .door), (nd 0 9, .amp), (nd 0 10, .sensor)],
      nodeKind demo x.1 = some x.2) ∧ nodeKind demo (nd 0 30) = none ∧
    ([0, 0, 0, 0] : List Byte).length < 5 ∧ ([0] : List Byte).length < 2 ∧ 3 < (4 : Byte).toNat ∧
    (3 : Byte).toNat = DoorPosition.code .stopped ∧
    (List.finRange 32).Nodup ∧ (monitoring 0 id s0.run).monitors[(0 : Fin 16)].enabled = true ∧
    (mstate demo 0 0).channel = 0 ∧ (mstate demo 0 0).onStale = some 1 ∧
    (mstate demo 0 1).onStale = none ∧ (mstate demo 0 1).channel = 0 := by decide +kernel

theorem witness_RepliesAreJudgedAndFramesComplete_complete :
    (∃ f l, (trunkA fun k => { k with queue := frames 2 }).run.trunks[(0 : Fin 4)].queue = f :: l ∧
      f.origin = .relay { src := 1, dst := 0x209, tag := 7 } ∧ f.attempts < 3) ∧
    ({ node := nd 0 8, code := 0, payload := [], attempts := 3, origin := .stopPlay 0 }
      : QFrame).attempts = 3 ∧
    (∃ p, (trunkA fun k => { k with pass := some { slot := 8, code := 0, payload := [], attempts := 3
                                                   req := { src := 1, dst := 2, tag := 3 } } }).run.trunks[
      (0 : Fin 4)].pass = some p ∧ p.req = { src := 1, dst := 2, tag := 3 } ∧ p.attempts = 3) := by
  refine ⟨⟨_, _, rfl, rfl, ?_⟩, rfl, ⟨_, rfl, rfl, rfl⟩⟩
  decide +kernel

theorem witness_TrunkTimersAndPollRounds :
    s0.run.trunks[(0 : Fin 4)].transaction = none ∧
    (awaitingA s0.run 0 .poll).trunks[(0 : Fin 4)].transaction.map (·.awaiting) = some true ∧
    s0.run.trunks[(0 : Fin 4)].gapTimer = none ∧
    (quietA s0.run).trunks[(0 : Fin 4)].gapTimer.isSome = true ∧
    s0.run.trunks[(0 : Fin 4)].roundTimer = none ∧ s0.run.trunks[(0 : Fin 4)].settleTimer = none ∧
    duePoll demo s0.run 0 = some 0 ∧
    duePoll demo (trunkA fun k => { k with roundPosition := 31, roundTimer := some 0 }).run 0 = none ∧
    pollDue demo s0.run 0 0 = true ∧ pollDue demo s0.run 0 10 = false := by decide +kernel

/-- A free transmitter, each way it is not free, a round that goes on and one that has ended. -/
theorem witness_TrunkTimersAndPollRounds_work :
    s0.run.trunks[(0 : Fin 4)].state = .running ∧ s0.run.trunks[(0 : Fin 4)].transaction = none ∧
    s0.run.trunks[(0 : Fin 4)].gapTimer = none ∧
    (trunkA fun k => { k with state := .held }).run.trunks[(0 : Fin 4)].state ≠ .running ∧
    (awaitingA s0.run 0 .poll).trunks[(0 : Fin 4)].transaction.isSome = true ∧
    (quietA s0.run).trunks[(0 : Fin 4)].gapTimer.isSome = true ∧
    (trunkA fun k => { k with roundTimer := some 5 }).run.trunks[(0 : Fin 4)].roundTimer.isSome = true ∧
    (duePoll demo s0.run 0).isSome = true ∧
    (trunkA fun k => { k with roundPosition := 31 }).run.trunks[(0 : Fin 4)].roundTimer = none ∧
    duePoll demo (trunkA fun k => { k with roundPosition := 31 }).run 0 = none := by decide +kernel

/-- Trunk A with work of every kind left, or less and less of it. -/
def work (hold : List (Fin 31)) (nonPoll : Nat) (sp : Option Int) (q : List QFrame)
    (p : Option PassSlot) (position : Nat) : Run :=
  (s0.run.modAxis 0 fun x => { x with setPoint := sp }).modTrunk 0 fun k =>
    { k with holdSet := hold, nonPoll, queue := q, pass := p, roundPosition := position
             roundTimer := some 9 }

theorem witness_TransmitterSelectsInOrder :
    let p : PassSlot := { slot := 8, code := 0, payload := [], attempts := 0
                          req := { src := 1, dst := 2, tag := 3 } }
    (∀ r ∈ [work [0] 4 (some 5) (frames 1) (some p) 0, work [] 4 (some 5) (frames 1) (some p) 0,
        work [] 3 (some 5) (frames 1) (some p) 0, work [] 3 none (frames 1) (some p) 0,
        work [] 3 none [] (some p) 0, work [] 3 none [] none 0, work [] 4 none [] none 31],
      r.trunks[(0 : Fin 4)].roundTimer.isNone = false ∧ Run.nextRound demo r 0 = r) ∧
    duePoll demo (work [] 4 none [] none 31) 0 = none ∧
    duePoll demo (work [] 4 none [] none 0) 0 = some 0 ∧
    dueSetPoint demo (work [] 3 (some 5) [] none 0) 0 = some (0, 5) ∧
    dueSetPoint demo (work [] 3 none [] none 0) 0 = none := by decide +kernel

theorem witness_OffersAreJudgedAtOnce :
    s0.run.trunks[(1 : Fin 4)].state ≠ .running ∧ s0.run.trunks[(0 : Fin 4)].state = .running ∧
    nodeCfg demo (nd 0 30) = none ∧ nodeCfg demo (nd 0 8) ≠ none ∧
    (nodeRt s0.run (nd 0 8)).liveness ≠ .lost ∧ (frames 15).length < 16 ∧ 16 ≤ (frames 16).length ∧
    [(0 : Fin 31), 5, 30].Pairwise (· < ·) ∧ demo.axes[(0 : Fin 6)].drive = nd 0 0 ∧
    nodeCfg demo (nd 0 0) ≠ none ∧ (nodeRt s0.run (nd 0 0)).liveness ≠ .lost := by decide +kernel

/-! ### Axes -/

theorem witness_MovesAreJudgedAndStarted :
    Reaches s0 0x101 (.axis 0) ∧ ¬InPlan s0.run 0 ∧ ¬InService s0.run ∧
    InPlan (planning (inState .moving)).run 0 ∧ InService (lineOn 1 s0).run ∧
    (withAxis fun x => { x with control := .localPanel }).run.axes[(0 : Fin 6)].control = .localPanel ∧
    (∀ x ∈ [AxisState.offline, .unlocking, .locking, .halted, .locked, .still, .moving, .stopping],
      (inState x).run.axes[(0 : Fin 6)].state = x ∧ (inState x).run.axes[(0 : Fin 6)].control = .bridge) ∧
    EstopHolds (lineOn 0 s0).run ∧ ¬EstopHolds s0.run ∧
    FireHolds demo (closedZone true s0).run 0 ∧ ¬FireHolds demo s0.run 0 ∧
    effectiveDerate (withAxis fun x => { x with bridgeDerate := 0 }).run 0 = 0 ∧
    effectiveDerate s0.run 0 ≠ 0 := by decide +kernel

theorem witness_prerequisites :
    Satisfied s0.run demo.axes[(0 : Fin 6)].prereq1 ∧
    Satisfied (second 9 s0).run (needing s0).cfg.axes[(0 : Fin 6)].prereq1 ∧
    ¬Satisfied (second 10 s0).run (needing s0).cfg.axes[(0 : Fin 6)].prereq1 ∧
    ¬Satisfied s0.run (needing s0).cfg.axes[(0 : Fin 6)].prereq1 ∧
    NoInterlock demo (inState .still).run 0 := by
  refine ⟨?_, ?_, ?_, ?_, by decide +kernel, by decide +kernel, ?_, ?_, by decide +kernel⟩
  all_goals rw [← prereqMet_iff]
  all_goals decide +kernel

theorem witness_MotionCallsStagesAndStarts :
    demo.axes[(0 : Fin 6)].motionCall.isSome = true ∧ demo.axes[(1 : Fin 6)].motionCall = none ∧
    s0.run.axes[(0 : Fin 6)].callId = none ∧
    (withAxis fun x => { x with callId := some 4 }).run.axes[(0 : Fin 6)].callId = some 4 ∧
    (demo.axes[(0 : Fin 6)].lowPayload.isSome = true ∧ demo.axes[(0 : Fin 6)].highPayload.isSome = true) ∧
    demo.axes[(1 : Fin 6)].lowPayload = none ∧ s0.run.axes[(0 : Fin 6)].stage = .low ∧
    (withAxis fun x => { x with stage := .high }).run.axes[(0 : Fin 6)].stage = .high ∧
    demo.axes[(0 : Fin 6)].stageUp ≤ (-250 : Int).natAbs ∧ (249 : Int).natAbs < demo.axes[(0 : Fin 6)].stageUp ∧
    demo.axes[(0 : Fin 6)].stageDown ≤ (150 : Int).natAbs ∧
    (-149 : Int).natAbs < demo.axes[(0 : Fin 6)].stageDown ∧ s0.run.trunks[(0 : Fin 4)].queue.length < 16 ∧
    EstopHolds (lineOn 0 s0).run ∧ FireHolds demo (closedZone true s0).run 0 ∧
    ¬EstopHolds (closedZone true s0).run := by decide +kernel

/-- UNLOCK and LOCK taken and refused, and a move that is done with no plan, or with another axis's step. -/
theorem witness_MotionCallsStagesAndStarts_done :
    (∀ x ∈ [((0x03 : Byte), AxisFrame.unlock), (0x04, .lock)],
      (Run.offerFrame demo s0.run demo.axes[(0 : Fin 6)].drive x.1 [] (.axis 0 x.2)).2 = .accepted ∧
      (Run.offerFrame demo (trunkA fun k => { k with state := .held }).run
        demo.axes[(0 : Fin 6)].drive x.1 [] (.axis 0 x.2)).2 ≠ .accepted) ∧
    s0.run.plan.running = false ∧ (planning s0).run.plan.running = true ∧
    (∃ x, (planning s0).run.plan.steps[(planning s0).run.plan.current - 1]? = some x ∧ x.axis ≠ 1) := by
  refine ⟨by decide +kernel, by decide +kernel, by decide +kernel, ⟨_, rfl, by decide +kernel⟩⟩

/-- A panel move, an edge and a held button, the owed frames, a frame unanswered in the state it served,
and a door with each command pending. -/
theorem witness_AxesAndDoorsFollowTheirNodes :
    (planning s0).run.plan.running = true ∧
    ((planning s0).run.plan.steps[(planning s0).run.plan.current - 1]?.map (·.axis)) = some 0 ∧
    (needing (inState .moving)).run.axes[(0 : Fin 6)].state = .moving ∧
    (∀ p ∈ [PanelCommand.raise, .lower], p ≠ .none ∧ p ≠ s0.run.axes[(0 : Fin 6)].panel) ∧
    (∀ o ∈ [MoveOrigin.panelRaise, .panelLower],
      (withAxis fun x => { x with state := .moving, origin := o, control := .localPanel }).run.axes[
        (0 : Fin 6)].origin = o) ∧
    (∀ x ∈ [AxisState.locked, .still],
      (withAxis fun k => { k with state := x, control := .localPanel }).run.axes[(0 : Fin 6)].state = x) ∧
    demo.axes[(0 : Fin 6)].panel.isSome = true ∧
    (∀ b ∈ [true, false],
      (withAxis fun x => { x with owed := { unlock := b, lock := b, stage := b } }).run.axes[
        (0 : Fin 6)].owed.stage = b) ∧
    (∀ x ∈ [DoorState.closing, .opening, .obstructed], (doorIn x).run.doors[(0 : Fin 32)].pending = .none) ∧
    (∀ x ∈ [DoorPending.close, .opened, .stop],
      (withDoor fun k => { k with pending := x }).run.doors[(0 : Fin 32)].pending = x) := by decide +kernel

/-- The prerequisite of axis 1 on axis 2 fails for a moving axis, and holds. -/
theorem witness_AxesAndDoorsFollowTheirNodes_prereq :
    ((needing s0).cfg.axes[(0 : Fin 6)].prereq1.map (·.axis)) = some 1 ∧ (1 : Fin 6) ∈ [(1 : Fin 6)] ∧
    (1 : Fin 6) ≠ 0 ∧ prereqMet (second 10 s0).run (needing s0).cfg.axes[(0 : Fin 6)].prereq1 = false ∧
    prereqMet (second 9 s0).run (needing s0).cfg.axes[(0 : Fin 6)].prereq1 = true := by decide +kernel

theorem witness_StopAndKeepByState :
    (∀ x ∈ [AxisState.offline, .unlocking, .locking, .halted, .locked, .still, .moving, .stopping],
      Reaches (inState x) 0x101 (.axis 0) ∧ (inState x).run.axes[(0 : Fin 6)].state = x) ∧
    (travelling 0 9 256).run.axes[(0 : Fin 6)].sentDemand ≠ 0 ∧
    (travelling 0 0 256).run.axes[(0 : Fin 6)].sentDemand = 0 ∧
    (travelling 0 0 256).run.axes[(0 : Fin 6)].origin = .bridge ∧
    (inState .moving).run.axes[(0 : Fin 6)].origin ≠ .bridge := by decide +kernel

theorem witness_ReleaseTakeGrantAndDerate :
    Reaches (inState .halted) 0x101 (.axis 0) ∧ (inState .halted).run.axes[(0 : Fin 6)].state = .halted ∧
    (inState .still).run.axes[(0 : Fin 6)].state ≠ .halted ∧ ¬InService s0.run ∧
    InService (lineOn 1 s0).run ∧ InMotion (inState .moving).run.axes[(0 : Fin 6)] ∧
    ¬InMotion (inState .still).run.axes[(0 : Fin 6)] ∧ demo.axes[(0 : Fin 6)].panel ≠ none ∧
    demo.axes[(1 : Fin 6)].panel = none ∧ (65535 : Nat) < 65536 := by decide +kernel

/-- A step of a plan on axis 1. -/
def step1 : PlanStep := { axis := 0, target := -32768, lockAtEnd := false, notify := true }

theorem witness_PlansRunStepByStep :
    Reaches s0 0x110 .plan ∧ (List.replicate 7 step1).length ≤ 7 ∧
    (∀ x ∈ step1 :: List.replicate 7 step1, -32768 ≤ x.target ∧ x.target ≤ 32767) ∧
    s0.run.plan.running = false ∧ (planning s0).run.plan.running = true ∧ InService (lineOn 1 s0).run ∧
    ¬InService s0.run ∧
    (withAxis fun x => { x with control := .localPanel }).run.axes[step1.axis].control = .localPanel ∧
    moveJudge demo (inState .still).run 0 = none ∧
    moveJudge demo (inState .offline).run 0 = some (.state, 0) ∧
    ((planning s0).run.plan.steps[(planning s0).run.plan.current - 1]?).isSome = true ∧
    (planning s0).run.plan.steps[(planning s0).run.plan.current]? = none ∧
    (((s0.run.setPlan { running := true, steps := [step1, step1], current := 1 }).plan.steps[1]?).isSome
      = true) := by decide +kernel

theorem witness_HaltsLatchTheirCause :
    (∀ x ∈ [AxisState.offline, .halted, .still, .moving, .unlocking, .locking],
      (inState x).run.axes[(0 : Fin 6)].state = x) ∧ stageOn demo.axes[(0 : Fin 6)] = true ∧
    s0.run.axes[(0 : Fin 6)].keepaliveTimer = none ∧ s0.run.axes[(0 : Fin 6)].lockTimer = none ∧
    (travelling 0 0 256).run.axes[(0 : Fin 6)].keepaliveTimer.isSome = true ∧
    (withAxis fun x => { x with lockTimer := some 0 }).run.axes[(0 : Fin 6)].lockTimer.isSome = true := by
  decide +kernel

theorem witness_DemandsKeepTheirBounds :
    let l := breakpoints demo 0
    l.head?.isSome = true ∧ l.getLast?.isSome = true ∧
    l.Pairwise (fun p q => p.position < q.position) ∧ (l[0]?.isSome ∧ l[1]?.isSome) = true ∧
    (∃ p ∈ l, 3000 = p.position) ∧ (0 : Int) ≤ 0 ∧ (0 : Int) ≤ 450 ∧ (450 : Int) ≤ axis1.vMax ∧
    256 * (498 : Int) ≤ 500 * 255 ∧ 500 * 255 < 256 * ((498 : Int) + 1) ∧
    ((8 - 5 : Int)).natAbs ≤ axis1.vMax ∧ (8 : Int) < 60 - 51 ∧ 60 + 51 < (112 : Int) ∧
    60 - 51 ≤ (9 : Int) ∧ (9 : Int) ≤ 60 + 51 := by
  decide +kernel

theorem witness_ControlPeriodsComputeTheDemand :
    s0.run.axes[(0 : Fin 6)].controlTimer = none ∧
    (∀ x ∈ [AxisState.moving, .stopping, .still],
      (withAxis fun k => { k with state := x, controlTimer := some 0 }).run.axes[(0 : Fin 6)].state = x) ∧
    (travelling 0 0 256).run.axes[(0 : Fin 6)].controlTimer.isSome = true ∧
    ((4000 - 3995 : Int)).natAbs ≤ axis1.deadband ∧ axis1.deadband < ((4000 - 3994 : Int)).natAbs ∧
    capSpeed axis1 0 500 = 0 ∧ slewDemand 50 50 0 = 0 ∧ slewDemand 50 51 0 ≠ 0 := by decide +kernel

theorem witness_DriveRepliesAreTakenInOrder :
    (∀ x ∈ [AxisState.offline, .locked, .unlocking, .still, .moving, .stopping, .locking, .halted],
      (inState x).run.axes[(0 : Fin 6)].state = x) ∧
    demo.axes[(0 : Fin 6)].configured = true ∧ demo.axes[(1 : Fin 6)].configured = false ∧
    demo.axes[(0 : Fin 6)].haltMask.getLsbD 0 = true ∧ demo.axes[(0 : Fin 6)].noteMask.getLsbD 0 = false ∧
    demo.axes[(0 : Fin 6)].noteMask.getLsbD 1 = true ∧ demo.axes[(0 : Fin 6)].haltMask.getLsbD 1 = false ∧
    demo.axes[(0 : Fin 6)].overloadLimit < 2501 ∧ 2500 ≤ demo.axes[(0 : Fin 6)].overloadLimit ∧
    InMotion (inState .moving).run.axes[(0 : Fin 6)] ∧
    demo.axes[(0 : Fin 6)].stallVelocity < (travelling 0 21 256).run.axes[(0 : Fin 6)].sentDemand.natAbs ∧
    (travelling 0 20 256).run.axes[(0 : Fin 6)].sentDemand.natAbs ≤ demo.axes[(0 : Fin 6)].stallVelocity ∧
    (drive 0 2).flags.getLsbD 1 = true ∧ (drive 0 2).flags.getLsbD 0 = false ∧
    (drive 0 1).flags.getLsbD 0 = true := by decide +kernel

/-! ### Zones and doors -/

theorem witness_ZoneRequestsActByState :
    Reaches s0 0x120 (.zone 0) ∧ (lineOn 2 s0).run.lines[(2 : Fin 14)].accepted = true ∧
    s0.run.lines[(2 : Fin 14)].accepted = false ∧
    (∀ x ∈ [DoorState.opening, .transit, .closed, .closing, .obstructed, .fault, .offline, .opened],
      (doorIn x).run.doors[(0 : Fin 32)].state = x) ∧
    (withDoor fun x => { x with state := .opening, transitMark := true }).run.doors[
      (0 : Fin 32)].transitMark = true := by decide +kernel

theorem witness_ClosureRequestsActOnTheirZone :
    s0.run.zones[(0 : Fin 8)].active = false ∧
    (closedZone false s0).run.zones[(0 : Fin 8)].active = true ∧
    (closedZone false s0).run.zones[(0 : Fin 8)].fire = false ∧
    (closedZone true s0).run.zones[(0 : Fin 8)].fire = true ∧
    s0.run.zones[(0 : Fin 8)].warningTimer = none ∧
    (at' fun r => r.modZone 0 fun x => { x with active := true, warningTimer := some 0 }).run.zones[
      (0 : Fin 8)].warningTimer.isSome = true ∧ (0 : Fin 32) ∈ memberDoors demo 0 ∧
    s0.run.zones[(0 : Fin 8)].callId = none ∧
    (s0.run.modZone 0 fun x => { x with callId := some 3 }).zones[(0 : Fin 8)].callId = some 3 ∧
    zoneStateNow demo (closedZone false (doorIn .closed)).run 0 = .sealed ∧
    zoneStateNow demo (closedZone false (doorIn .transit)).run 0 = .sealed ∧
    zoneStateNow demo (closedZone false (doorIn .opening)).run 0 = .closing ∧
    zoneStateNow demo (closedZone false (doorIn .fault)).run 0 = .incomplete := by decide +kernel

theorem witness_DoorRequestsAreJudgedInOrder :
    (∀ x ∈ [DoorState.offline, .opened, .opening, .transit, .closed, .closing, .obstructed, .fault],
      Reaches (doorIn x) 0x130 (.door 0) ∧ (doorIn x).run.doors[(0 : Fin 32)].state = x) ∧
    (0 : Fin 8) ∈ doorZones demo.doors[(0 : Fin 32)] ∧ UnderClosure demo (closedZone false s0).run 0 ∧
    ¬UnderClosure demo s0.run 0 ∧ judgeOffer demo s0.run (nd 0 8) = .accepted ∧
    judgeOffer demo (trunkA fun k => { k with queue := frames 16 }).run (nd 0 8) = .queueFull ∧
    judgeOffer demo s0.run (nd 0 30) = .nodeLost ∧ judgeOffer demo s0.run (nd 1 0) = .trunkDown ∧
    (∀ k ∈ [DoorTimer.move, .retry, .transit],
      (withDoor fun x => { x with timer := some (k, 0) }).run.doors[(0 : Fin 32)].timer = some (k, 0)) ∧
    (2 : Nat) < demo.doors[(0 : Fin 32)].retryLimit ∧ demo.doors[(0 : Fin 32)].retryLimit ≤ 3 ∧
    s0.run.doors[(0 : Fin 32)].timer = none := by decide +kernel

theorem witness_DoorRepliesAreJudgedInOrder :
    (∀ x ∈ [DoorState.offline, .opened, .opening, .transit, .closed, .closing, .obstructed, .fault],
      (doorIn x).run.doors[(0 : Fin 32)].state = x) ∧
    UnderClosure demo (closedZone true (doorIn .closed)).run 0 ∧ ¬UnderClosure demo s0.run 0 ∧
    (∃ z ∈ doorZones demo.doors[(0 : Fin 32)], (closedZone true s0).run.zones[z].fire = true) ∧
    (∀ z ∈ doorZones demo.doors[(0 : Fin 32)], (closedZone false s0).run.zones[z].fire = false) := by
  decide +kernel

/-! ### Calls -/

/-- The call queue filled with so many records of axis 1 and of priority 3. -/
def calling (n : Nat) : State := at' fun r => r.setCalls
  ((List.range n).map fun i => call (i + 1) i 3 (.axis 0))

theorem witness_CallsMergeEnterOrAreRefused :
    Reaches s0 0x140 .calls ∧ (511 : Nat) ≤ 511 ∧ (1 : AreaSet) ≠ 0 ∧ (255 : Nat) ≤ 255 ∧ 1 ≤ 120 ∧
    ([call 4 7 3 .bridge].find? fun k => k.origin == .bridge && k.message == 7).isSome = true ∧
    ((calling 16).run.calls.find? fun k => k.origin == .bridge && k.message == 7) = none ∧
    (calling 15).run.calls.length < 16 ∧ 16 ≤ (calling 16).run.calls.length ∧
    ((calling 16).run.calls.getLast?.map (·.priority)) = some 3 ∧ 3 < 4 ∧ (3 : Nat) ≤ 3 ∧
    (calling 16).run.calls.Pairwise (fun x y => y.priority ≤ x.priority) := by decide +kernel

/-- An axis, a zone and a monitor that hold the id of a record, and ones that do not. -/
theorem witness_MergesAndWithdrawals_originators :
    (withAxis fun x => { x with callId := some 4 }).run.axes[(0 : Fin 6)].callId = some 4 ∧
    (at' fun r => r.modZone 0 fun x => { x with callId := some 4 }).run.zones[(0 : Fin 8)].callId
      = some 4 ∧
    (at' fun r => r.modMonitor 0 fun x => { x with callId := some 4 }).run.monitors[
      (0 : Fin 16)].callId = some 4 ∧
    s0.run.axes[(0 : Fin 6)].callId ≠ some 4 ∧ s0.run.zones[(0 : Fin 8)].callId ≠ some 4 ∧
    s0.run.monitors[(0 : Fin 16)].callId ≠ some 4 := by decide +kernel

theorem witness_MergesAndWithdrawals :
    Reaches (calling 2) 0x140 .calls ∧ ((findCall (calling 2).run 1).map (·.phase)) = some .pass ∧
    findCall (calling 2).run 255 = none ∧ (call 4 7 3 .bridge).repeats ≠ 0 ∧
    ({ call 4 7 3 .bridge with repeats := 0 } : Call).repeats = 0 ∧
    (∀ x ∈ [CallPhase.pass, .gap, .waiting], ({ call 4 7 3 .bridge with phase := x } : Call).phase = x) ∧
    s0.run.areas[(0 : Fin 16)].state ≠ .unavailable ∧
    (at' fun r => r.modArea 0 fun x => { x with state := .unavailable }).run.areas[(0 : Fin 16)].state
      = .unavailable := by decide +kernel

theorem witness_PlaysAndPassesFollow :
    s0.run.areas[(0 : Fin 16)].playTimer = none ∧
    (playing s0.run).areas[(0 : Fin 16)].playTimer.isSome = true ∧
    AreaState.idle ≠ .playing ∧ s0.run.areas[(0 : Fin 16)].callId = none ∧
    (playing s0.run).areas[(0 : Fin 16)].callId = some 4 ∧
    ((findCall (playing s0.run) 4).map fun k => (k.phase, k.pending, k.repeats, k.remaining))
      = some (.pass, 0, 2, 1) ∧
    ((findCall (calling 1).run 1).map fun k => (k.pending, k.gap, k.remaining)) = some (1, 3, 2) ∧
    findCall s0.run 4 = none ∧ ((findCall (calling 1).run 1).map (·.gapTimer)) = some none ∧
    ({ call 1 1 1 .bridge with gapTimer := some 0 } : Call).gapTimer.isSome = true ∧
    ((calling 1).run.calls.find? fun k => k.phase == .pass && k.pending.getLsbD 0).isSome = true ∧
    (s0.run.calls.find? fun k => k.phase == .pass && k.pending.getLsbD 0) = none ∧
    s0.run.areas[(0 : Fin 16)].state = .idle ∧ (playing s0.run).areas[(0 : Fin 16)].state = .playing := by
  decide +kernel

/-- The amplifier of area 0 in a liveness. -/
def ampIs (l : Liveness) (r : Run) : Run := r.modNode 9 fun n => { n with liveness := l }

theorem witness_AreasFollowTheirAmplifiers :
    (∀ l ∈ [Liveness.live, .missing, .lost, .unknown], (nodeRt (ampIs l s0.run) (nd 0 9)).liveness = l) ∧
    nd 0 9 ∈ demo.areas[(0 : Fin 16)] ∧
    (demo.areas[(0 : Fin 16)].foldl (Run.offerPlay demo 0 5) (s0.run, [])).2 = [] ∧
    (demo.areas[(0 : Fin 16)].foldl (Run.offerPlay demo 0 5) (ampIs .live (quietA s0.run), [])).2 ≠ [] ∧
    ((playing s0.run).areas[(0 : Fin 16)].awaited.find? fun w => w.serial = 0).isSome = true ∧
    ((playing s0.run).areas[(0 : Fin 16)].awaited.find? fun w => w.serial = 1) = none ∧
    ((playing s0.run).areas[(0 : Fin 16)].awaited.map fun w => (w.node, w.armed)) = [(nd 0 9, true)] ∧
    ((playing s0.run).areas[(0 : Fin 16)].awaited.filter fun w => w.node ≠ nd 0 9) = [] ∧
    (playing s0.run).areas[(0 : Fin 16)].state = .playing ∧
    (playing s0.run).areas[(0 : Fin 16)].message = some 7 ∧ ([0, 0] : List Byte).length < 3 ∧
    2 < (3 : Byte).toNat ∧ s0.run.areas[(0 : Fin 16)].state = .idle ∧
    (∀ m ∈ [true, false], (s0.run.modArea 0 fun x => { x with state := .unavailable, startMark := m }).areas[
      (0 : Fin 16)].startMark = m) ∧
    ((calling 1).run.calls.map fun k => (k.id, k.pending.getLsbD 0)) = [(1, true)] := by decide +kernel

/-! ### Monitors, lines, lamps -/

theorem witness_MonitorRequestsAndTimers :
    Reaches s0 0x150 (.monitor 0) ∧ s0.run.monitors[(0 : Fin 16)].enabled = false ∧
    (monitoring 0 id s0.run).monitors[(0 : Fin 16)].enabled = true ∧
    demo.monitors[(0 : Fin 16)].configured = true ∧ demo.monitors[(1 : Fin 16)].configured = false ∧
    graphFailure demo 0 = none ∧ graphFailure demo 1 = some 0 ∧
    (let k := { demo.mstates[(1 : Fin 128)] with onTimeout := 5 }
     graphFailure { demo with mstates := demo.mstates.set 1 k } 0 = some 1) ∧
    s0.run.monitors[(0 : Fin 16)].holdTimer = none ∧ s0.run.monitors[(0 : Fin 16)].timeoutTimer = none ∧
    (let x := (monitoring 0 (fun x => { x with holdTimer := some 0, timeoutTimer := some 0 })
        s0.run).monitors[(0 : Fin 16)]
     x.holdTimer.isSome = true ∧ x.timeoutTimer.isSome = true) := by decide +kernel

/-- The value of channel 0, fresh. -/
def reading (v : Int) (r : Run) : Run := r.modChannel 0 fun x =>
  { x with value := some v, stale := false, timer := some 0 }

theorem witness_StatesAreEnteredInOrder :
    (mstate demo 0 0).channel = 0 ∧ (reading 100 s0.run).channels[(0 : Fin 32)].value = some 100 ∧
    (reading 100 s0.run).channels[(0 : Fin 32)].stale = false ∧ (mstate demo 0 0).test = .above ∧
    (mstate demo 0 0).threshold < 100 ∧ ¬(mstate demo 0 0).threshold < 99 ∧ (mstate demo 0 0).hold ≠ 0 ∧
    (mstate demo 0 1).hold = 0 ∧ (mstate demo 0 1).test = .below ∧ 49 < (mstate demo 0 1).threshold ∧
    8 ≤ (List.replicate 8 (0 : Fin 16)).count 0 ∧ (List.replicate 7 (0 : Fin 16)).count 0 < 8 ∧
    (mstate demo 0 0).action = .none ∧ (mstate demo 0 1).action = .derate 192 1 := by decide +kernel

theorem witness_ChannelsRenewAndTurnStale :
    s0.run.channels[(0 : Fin 32)].timer = none ∧ s0.run.channels[(0 : Fin 32)].stale = true ∧
    (reading 5 s0.run).channels[(0 : Fin 32)].timer.isSome = true ∧
    (reading 5 s0.run).channels[(0 : Fin 32)].stale = false ∧
    (at' fun r => r.modChannel 0 fun x => { x with timer := some 0 }).run.channels[(0 : Fin 32)].stale
      = true ∧
    (∀ ch : Fin 32, demo.channels[ch].width = 1 ∨ demo.channels[ch].width = 2) ∧
    (demo.channels[(0 : Fin 32)].configured = true ∧ demo.channels[(0 : Fin 32)].source = nd 0 10 ∧
      demo.channels[(0 : Fin 32)].offset + demo.channels[(0 : Fin 32)].width ≤ [(7 : Byte)].length) ∧
    (monitoring 0 id s0.run).monitors[(0 : Fin 16)].enabled = true ∧
    (mstate demo 0 0).channel ∈ [(0 : Fin 32)] ∧
    (monitoring 0 id s0.run).entered.count 0 < 8 := by decide +kernel

/-- A monitor at its eighth entry in one event, its hold of 0 due. -/
theorem witness_ChannelsRenewAndTurnStale_eighth :
    let r := (reading 49 (monitoring 1 id s0.run)).setEntered (List.replicate 8 0)
    r.monitors[(0 : Fin 16)].enabled = true ∧ r.monitors[(0 : Fin 16)].holdTimer = none ∧
    (mstate demo 0 r.monitors[(0 : Fin 16)].current).hold = 0 ∧ 8 ≤ r.entered.count 0 ∧
    (mstate demo 0 r.monitors[(0 : Fin 16)].current).test = .below ∧
    r.channels[(0 : Fin 32)].value = some 49 ∧
    (49 : Int) < (mstate demo 0 r.monitors[(0 : Fin 16)].current).threshold := by decide +kernel

theorem witness_LinesAreFilteredAndHandedOver :
    s0.run.lines[(0 : Fin 14)].raw ≠ true ∧ s0.run.lines[(0 : Fin 14)].raw = false ∧
    s0.run.lines[(0 : Fin 14)].accepted ≠ true ∧
    (at' fun r => r.modLine 0 fun x => { x with raw := true }).run.lines[(0 : Fin 14)].accepted = false ∧
    s0.run.lines[(0 : Fin 14)].filterTimer = none ∧
    (∀ l : Fin 14, (s0.run.modLine l fun x => { x with raw := true, filterTimer := some 0
                                                       }).lines[l].filterTimer.isSome = true) ∧
    (∀ g ∈ [GwState.loading, .unconfigured, .configured, .storing],
      (at' fun r => r.setGw g).run.gw = g) ∧ (9 : Nat) = (7 : Fin 8).val + 2 ∧
    10 ≤ (10 : Fin 14).val := by decide +kernel

theorem witness_LampsFollowTheirSources :
    s0.run.chain.slow.timer.isSome = true ∧ s0.run.chain.fast.timer.isSome = true ∧
    s0.run.chain.shiftTimer = none ∧ s0.run.chain.lampTest = none ∧
    State.reset.run.chain.shiftTimer.isSome = true ∧
    State.reset.run.chain.inShift = some (List.replicate 64 false) ∧
    State.reset.run.chain.waiting = none ∧ chainImage demo s0.run = s0.run.chain.last ∧
    chainImage demo (inState .moving).run ≠ (inState .moving).run.chain.last ∧
    (inState .moving).run.chain.inShift = none ∧ demo.param.stageCount ≤ 8 ∧
    63 < 8 * demo.param.stageCount := by decide +kernel

/-- The last lamp of three goes out first, ten microseconds for each, and then the clock latches. -/
theorem witness_LampsFollowTheirSources_dataLine :
    let x : Chain := { resetChain [] with inShift := some [true, false, true], shiftTimer := some 40 }
    (x.inShift = some [true, false, true] ∧ x.shiftTimer = some 40) ∧
    (10 * (2 + 1) < 40 ∧ 40 ≤ 10 * (2 + 2)) ∧ (10 * (0 + 1) < 11 ∧ 20 ≤ 10 * (0 + 2)) ∧ 10 ≤ 10 ∧
    s0.run.chain.inShift = none := by decide +kernel

/-! ### Forms and invariants -/

theorem witness_FormsAreJudgedFirst :
    (∀ x ∈ [((0x101 : Word), Function.axis 0), (0x110, .plan), (0x120, .zone 0), (0x130, .door 0),
        (0x140, .calls), (0x150, .monitor 0), (0x160, .lines)], Reaches s0 x.1 x.2) ∧
    (List.replicate 230 (0 : Byte)).length ≤ 230 ∧ (List.replicate 239 (0 : Byte)).length ≤ 239 ∧
    2 ≤ (2 : Byte).toNat ∧ (1 : Byte).toNat ≤ 1 ∧ (0 : Byte).toNat = 0 ∧ 8 < (9 : Byte).toNat ∧
    4 ≤ (4 : Byte).toNat ∧ (3 : Byte).toNat < 4 ∧ 6 < (7 : Byte).toNat ∧ 7 < (8 : Byte).toNat ∧
    120 < (121 : Byte).toNat ∧ (120 : Byte).toNat ≤ 120 ∧ (7 : Byte).toNat ≤ 7 ∧
    511 < (word2 2 0).toNat ∧ (word2 1 255).toNat ≤ 511 ∧ word2 0 0 = 0 ∧ word2 0 1 ≠ 0 ∧
    (word2 1 0).toNat = 256 ∧ 1 ≤ (word2 0 1).toNat ∧ (word2 0 255).toNat ≤ 255 ∧
    originOfCode (word2 1 0) = none ∧ originOfCode (word2 1 6) ≠ none := by decide +kernel

/-- A function request to a station with no route, to a node's and to a function's. -/
theorem witness_FormsAreJudgedFirst_route :
    (∀ x : Word, (Instr.reopen 1 x 7 [9]).frame = some (functionFrame 1 x 7 [2, 9]) ∧
      (functionFrame 1 x 7 [2, 9]).kind = kindFunctionRequest) ∧
    Listening s0 ∧ s0.run.gw ≠ .unconfigured ∧ ([2, 9] : List Byte).length ≤ 240 ∧
    findRoute demo 0x999 = none ∧ findRoute demo 0x209 = some (.node (nd 0 8)) ∧
    findRoute demo 0x120 = some (.function (.zone 0)) ∧ (0x999 : Word) ≠ 0 ∧ (0x209 : Word) ≠ 0 ∧
    (0x120 : Word) ≠ 0 :=
  ⟨fun _ => ⟨rfl, rfl⟩, by decide +kernel⟩

/-- The steps of a plan: too few bytes, each field out of its range, and a byte too many. -/
theorem witness_FormsAreJudgedFirst_steps :
    ([6, 0, 0, 1] : List Byte).length < 5 * (1 : Byte).toNat ∧
    (([7, 0, 0, 2, 2] : List Byte)[5 * 0]? = some 7 ∧ ([7, 0, 0, 2, 2] : List Byte)[5 * 0 + 3]? = some 2 ∧
      ([7, 0, 0, 2, 2] : List Byte)[5 * 0 + 4]? = some 2) ∧
    5 * (1 : Byte).toNat < ([6, 0, 0, 1, 1, 0] : List Byte).length ∧
    ([6, 0, 0, 1, 1, 0] : List Byte)[5 * 0]? = some 6 ∧ ([6, 0, 0, 1, 1, 0] : List Byte)[5 * 0 + 3]? = some 1 ∧
    ([6, 0, 0, 1, 1, 0] : List Byte)[5 * 0 + 4]? = some 1 := by decide +kernel

theorem witness_StepsKeepEventsAndQueuesInBounds :
    EventsInOrder (at' fun r => r.raise .axisHalted 1 6) := by
  refine ⟨by decide +kernel, by decide +kernel, 0, rfl, ?_⟩
  show _ = _
  decide +kernel

theorem witness_StepsKeepEventsAndQueuesInBounds_bounds :
    ConsoleInBounds s0 ∧ QueuesInBounds (trunkA fun k => { k with queue := frames 16 }) ∧
    MemoryCanonical s0 := by decide +kernel

theorem witness_StepsKeepCallsInOrder : CallsInOrder (calling 16) := by decide +kernel

theorem witness_StepsKeepHaltCauses :
    HaltedHaveCauses (withAxis fun x => { x with state := .halted, causes := 1 }) := by decide +kernel

theorem witness_StepsKeepAxesStoppedBySafety :
    StoppedBySafety (lineOn 0 (inState .still)) ∧ StoppedBySafety (closedZone true (inState .halted)) := by
  decide +kernel

theorem witness_StepsKeepTheTablesSound :
    TablesSound s0 ∧ s0.run.gw.inForce = true ∧ validate s0.cfg = none ∧ TablesSound sU :=
  ⟨⟨demo_fits, by decide +kernel⟩, by decide +kernel, by decide +kernel,
    ⟨demo_fits, by decide +kernel⟩⟩

/-- Each of them has a step to take. -/
theorem witness_StepsKeep_next :
    ∃ t, step (State.setPending (at' fun r => r.raise .axisHalted 1 6) [.shiftEnd]) = .next t := ⟨_, rfl⟩

end Sys2Proof.Tests
end

