-- ==== Sys2Proof/Proofs/Kept.lean ====
section
/-! PROOFS. The course of the runtime inside one event: what no unit's operation does. Every operation
other than those of the store and the resets leaves the gateway state and the store alone, and keeps the
event queue, the console port and the command queues in their bounds. -/

namespace Sys2Proof.Machine

/-! ### The bounds, on the runtime -/

/-- The event queue: at most 64 records, numbered up to the counter, a lost count in its range. -/
def EventsOk (q : EventQueue) : Prop :=
  q.records.length ≤ 64 ∧ q.lost ≤ 65535 ∧ ∃ first, numbered first q.next q.records

/-- The console port: room of the outbound queue, ranges of the two counts. -/
def ConsoleOk (k : Console) : Prop :=
  k.queue.length ≤ 32 ∧ k.errors ≤ 65535 ∧ k.drops ≤ 65535

/-- The command queues: at most 16 frames each. -/
def QueuesOk (r : Run) : Prop := ∀ t : Fin 4, r.trunks[t].queue.length ≤ 16

/-- How much an operation keeps: what the whole of an event keeps, or what the inner work of a unit does,
which writes no line, no report entry and nothing of a trunk that does not run. -/
inductive Scope where
  | whole
  | inner

theorem notInner {p : Prop} (h : Scope.whole = .inner) : p := nomatch h

/-- What the inner work of a unit leaves alone: the lines, the report entries, the trunks' states, the
records of a trunk that does not run and of its nodes; and it fills no set-point slot. -/
structure Inner (r r' : Run) : Prop where
  lines : r'.lines = r.lines
  reports : r'.reports = r.reports
  states : ∀ t : Fin 4, r'.trunks[t].state = r.trunks[t].state
  trunks : ∀ t : Fin 4, r.trunks[t].state ≠ .running → r'.trunks[t] = r.trunks[t]
  nodes : ∀ n : NodeId, r.trunks[n.trunk].state ≠ .running → nodeRt r' n = nodeRt r n
  slots : ∀ a : Fin 6, r.axes[a].setPoint = none → r'.axes[a].setPoint = none

theorem Inner.of_same {r r' : Run} (hl : r'.lines = r.lines) (hr : r'.reports = r.reports)
    (ht : r'.trunks = r.trunks) (hn : r'.nodes = r.nodes) (ha : r'.axes = r.axes) : Inner r r' :=
  ⟨hl, hr, fun t => by rw [ht], fun t _ => by rw [ht], fun n _ => by rw [nodeRt, nodeRt, hn],
    fun a h => by rw [ha]; exact h⟩

theorem Inner.trans {a b d : Run} (h : Inner a b) (h' : Inner b d) : Inner a d :=
  ⟨h'.lines.trans h.lines, h'.reports.trans h.reports, fun t => (h'.states t).trans (h.states t),
    fun t ht => (h'.trunks t (by rw [h.states]; exact ht)).trans (h.trunks t ht),
    fun n hn => (h'.nodes n (by rw [h.states]; exact hn)).trans (h.nodes n hn),
    fun a ha => h'.slots a (h.slots a ha)⟩

/-- What the operations of the units keep between the runtime `r` and the runtime `r'` behind it. -/
structure Kept (F : Scope) (r r' : Run) : Prop where
  gw : r'.gw = r.gw
  store : r'.store = r.store
  events : EventsOk r.events → EventsOk r'.events
  console : ConsoleOk r.console → ConsoleOk r'.console
  queues : QueuesOk r → QueuesOk r'
  inner : F = .inner → Inner r r'

@[simp] theorem Kept.refl {F : Scope} (r : Run) : Kept F r r :=
  ⟨rfl, rfl, id, id, id, fun _ => Inner.of_same rfl rfl rfl rfl rfl⟩

section
variable {F : Scope}

theorem Kept.trans {a b c : Run} (h : Kept F a b) (h' : Kept F b c) : Kept F a c :=
  ⟨h'.gw.trans h.gw, h'.store.trans h.store, h'.events ∘ h.events, h'.console ∘ h.console,
    h'.queues ∘ h.queues, fun hF => (h.inner hF).trans (h'.inner hF)⟩

variable {q r : Run}

/-- A change of nothing that the bounds read, seen from the whole event. -/
theorem Kept.of_bounds {r' : Run} (h : Kept .whole q r) (hg : r'.gw = r.gw) (hs : r'.store = r.store)
    (he : r'.events = r.events) (hc : r'.console = r.console) (ht : r'.trunks = r.trunks) :
    Kept .whole q r' :=
  h.trans ⟨hg, hs, by rw [he]; exact id, by rw [hc]; exact id, by simp only [QueuesOk, ht]; exact id,
    notInner⟩

/-- A change of nothing that the bounds and the inner scope read. -/
theorem Kept.of_same {r' : Run} (h : Kept F q r) (hg : r'.gw = r.gw := by rfl)
    (hs : r'.store = r.store := by rfl) (he : r'.events = r.events := by rfl)
    (hc : r'.console = r.console := by rfl) (ht : r'.trunks = r.trunks := by rfl)
    (hl : r'.lines = r.lines := by rfl) (hr : r'.reports = r.reports := by rfl)
    (hn : r'.nodes = r.nodes := by rfl) (ha : r'.axes = r.axes := by rfl) : Kept F q r' :=
  h.trans ⟨hg, hs, by rw [he]; exact id, by rw [hc]; exact id, by simp only [QueuesOk, ht]; exact id,
    fun _ => Inner.of_same hl hr ht hn ha⟩

/-! ### The updates of the runtime -/

@[simp] theorem Kept.setClock (h : Kept F q r) (x : Clock) : Kept F q (r.setClock x) :=
  h.of_same
@[simp] theorem Kept.setPlan (h : Kept F q r) (x : Plan) : Kept F q (r.setPlan x) :=
  h.of_same
@[simp] theorem Kept.setCalls (h : Kept F q r) (x : List Call) : Kept F q (r.setCalls x) :=
  h.of_same
@[simp] theorem Kept.setCallCounter (h : Kept F q r) (x : Nat) : Kept F q (r.setCallCounter x) :=
  h.of_same
@[simp] theorem Kept.setChain (h : Kept F q r) (x : Chain) : Kept F q (r.setChain x) :=
  h.of_same
@[simp] theorem Kept.setSerial (h : Kept F q r) (x : Nat) : Kept F q (r.setSerial x) :=
  h.of_same
@[simp] theorem Kept.setEntered (h : Kept F q r) (x : List (Fin 16)) : Kept F q (r.setEntered x) :=
  h.of_same
@[simp] theorem Kept.setFreeCount (h : Kept F q r) (x : Nat) : Kept F q (r.setFreeCount x) :=
  h.of_same
@[simp] theorem Kept.modZone (h : Kept F q r) (i) (f) : Kept F q (r.modZone i f) :=
  h.of_same
@[simp] theorem Kept.modDoor (h : Kept F q r) (i) (f) : Kept F q (r.modDoor i f) :=
  h.of_same
@[simp] theorem Kept.modArea (h : Kept F q r) (i) (f) : Kept F q (r.modArea i f) :=
  h.of_same
@[simp] theorem Kept.modChannel (h : Kept F q r) (i) (f) : Kept F q (r.modChannel i f) :=
  h.of_same
@[simp] theorem Kept.modMonitor (h : Kept F q r) (i) (f) : Kept F q (r.modMonitor i f) :=
  h.of_same
@[simp] theorem Kept.modOutput (h : Kept F q r) (i) (f) : Kept F q (r.modOutput i f) :=
  h.of_same
@[simp] theorem Kept.modReport (h : Kept .whole q r) (i) (f) : Kept .whole q (r.modReport i f) :=
  h.of_bounds rfl rfl rfl rfl rfl
@[simp] theorem Kept.modNode (h : Kept .whole q r) (i) (f) : Kept .whole q (r.modNode i f) :=
  h.of_bounds rfl rfl rfl rfl rfl
@[simp] theorem Kept.modLine (h : Kept .whole q r) (i) (f) : Kept .whole q (r.modLine i f) :=
  h.of_bounds rfl rfl rfl rfl rfl

/-- An axis record changed: an empty set-point slot stays empty. -/
@[simp] theorem Kept.modAxis (h : Kept F q r) (i) (f : AxisRt → AxisRt)
    (hf : ∀ x : AxisRt, x.setPoint = none → (f x).setPoint = none := by exact fun _ h => h) :
    Kept F q (r.modAxis i f) :=
  h.trans ⟨rfl, rfl, id, id, id, fun _ => ⟨rfl, rfl, fun _ => rfl, fun _ _ => rfl, fun _ _ => rfl,
    fun a ha => by
      by_cases e : a = i
      · subst e; rw [Run.modAxis_self]; exact hf _ ha
      · rw [Run.modAxis_ne r i a f e]; exact ha⟩⟩

/-- A set-point slot may be filled in the course of an event. -/
theorem Kept.fillSlot (h : Kept .whole q r) (i) (f : AxisRt → AxisRt) :
    Kept .whole q (r.modAxis i f) := h.of_bounds rfl rfl rfl rfl rfl

theorem queuesOk_modTrunk {t : Fin 4} {f : TrunkRt → TrunkRt}
    (hf : r.trunks[t].queue.length ≤ 16 → (f r.trunks[t]).queue.length ≤ 16) (hq : QueuesOk r) :
    QueuesOk (r.modTrunk t f) := fun u => by
  by_cases e : u = t
  · subst e; rw [Run.modTrunk_self]; exact hf (hq u)
  · rw [Run.modTrunk_ne r t u f e]; exact hq u

/-- A trunk record changed: its queue must not outgrow its room. -/
@[simp] theorem Kept.modTrunk (h : Kept .whole q r) (t : Fin 4) (f : TrunkRt → TrunkRt)
    (hf : r.trunks[t].queue.length ≤ 16 → (f r.trunks[t]).queue.length ≤ 16) :
    Kept .whole q (r.modTrunk t f) :=
  h.trans ⟨rfl, rfl, id, id, queuesOk_modTrunk hf, notInner⟩

/-- The record of a running trunk changed: it goes on running. -/
theorem Kept.modRunning (h : Kept F q r) (t : Fin 4) (f : TrunkRt → TrunkRt)
    (hr : F = .inner → r.trunks[t].state = .running)
    (hf : r.trunks[t].queue.length ≤ 16 → (f r.trunks[t]).queue.length ≤ 16)
    (hs : (f r.trunks[t]).state = r.trunks[t].state) : Kept F q (r.modTrunk t f) :=
  h.trans ⟨rfl, rfl, id, id, queuesOk_modTrunk hf, fun hF => by
    have hstate : ∀ u : Fin 4, (r.modTrunk t f).trunks[u].state = r.trunks[u].state := fun u => by
      by_cases e : u = t
      · subst e; rw [Run.modTrunk_self]; exact hs
      · rw [Run.modTrunk_ne r t u f e]
    refine ⟨rfl, rfl, hstate, fun u hu => ?_, fun _ _ => rfl, fun _ h => h⟩
    exact Run.modTrunk_ne r t u f fun e => hu (e ▸ hr hF)⟩

theorem nodeIndex_injective {n m : NodeId} (h : nodeIndex n = nodeIndex m) : n = m := by
  have hv : 31 * n.trunk.val + n.slot.val = 31 * m.trunk.val + m.slot.val := congrArg Fin.val h
  have ht : n.trunk = m.trunk := Fin.ext (by omega)
  have hs : n.slot = m.slot := Fin.ext (by omega)
  obtain ⟨nt, ns⟩ := n
  exact congr (congrArg NodeId.mk ht) hs

/-- The record of a node on a running trunk changed. -/
theorem Kept.modNodeOf (h : Kept F q r) (n : NodeId) (f : NodeRt → NodeRt)
    (hr : F = .inner → r.trunks[n.trunk].state = .running) :
    Kept F q (r.modNode (nodeIndex n) f) :=
  h.trans ⟨rfl, rfl, id, id, id, fun hF => ⟨rfl, rfl, fun _ => rfl, fun _ _ => rfl, fun _ hm =>
    Run.modNode_ne r _ _ f fun e => hm (nodeIndex_injective e ▸ hr hF), fun _ h => h⟩⟩

/-- The console port replaced by one that keeps its bounds. -/
theorem Kept.setConsole (h : Kept F q r) (k : Console) (hk : ConsoleOk r.console → ConsoleOk k) :
    Kept F q (r.setConsole k) :=
  h.trans ⟨rfl, rfl, id, hk, id, fun _ => Inner.of_same rfl rfl rfl rfl rfl⟩

/-- The console port with its queue and its counts as they were. -/
theorem Kept.setConsoleSame (h : Kept F q r) (k : Console) (hq : k.queue = r.console.queue)
    (he : k.errors = r.console.errors) (hd : k.drops = r.console.drops) :
    Kept F q (r.setConsole k) :=
  Kept.setConsole h k (by simp only [ConsoleOk, hq, he, hd]; exact id)

/-! ### Repetition -/

theorem Kept.foldl {α : Type} (f : Run → α → Run) (l : List α)
    (hf : ∀ r a, Kept F q r → Kept F q (f r a)) (h : Kept F q r) : Kept F q (l.foldl f r) := by
  induction l generalizing r with
  | nil => exact h
  | cons a l ih => exact ih (hf r a h)

theorem Kept.foldlFst {α β : Type} (f : Run × β → α → Run × β) (l : List α)
    (hf : ∀ p a, Kept F q p.1 → Kept F q (f p a).1) {p : Run × β} (h : Kept F q p.1) :
    Kept F q (l.foldl f p).1 := by
  induction l generalizing p with
  | nil => exact h
  | cons a l ih => exact ih (hf p a h)

/-! ### Events (chapter 10) -/

theorem numbered_append {first next : Word} {l : List EventRec} (h : numbered first next l)
    (e : EventRec) (he : e.sequence = next) : numbered first (next + 1) (l ++ [e]) := by
  induction l generalizing first with
  | nil =>
    simp only [numbered] at h
    subst h
    exact ⟨he, rfl⟩
  | cons x l ih => exact ⟨h.1, ih h.2⟩

theorem numbered_drop {first next : Word} {l : List EventRec} (h : numbered first next l) (n : Nat) :
    ∃ first', numbered first' next (l.drop n) := by
  induction n generalizing first l with
  | zero => exact ⟨first, h⟩
  | succ n ih =>
    cases l with
    | nil => exact ⟨first, h⟩
    | cons x l => exact ih h.2

theorem eventsOk_push {k : EventQueue} (h : EventsOk k) (time : TimeBase) (kind : EventKind)
    (index : Nat) (detail : Word) : EventsOk (k.push time kind index detail) := by
  obtain ⟨hl, hc, first, hn⟩ := h
  unfold EventQueue.push
  split
  · rename_i hr
    refine ⟨?_, hc, first, numbered_append hn _ rfl⟩
    simp only [List.length_append, List.length_singleton]
    exact hr
  · exact ⟨hl, Nat.min_le_left _ _, first, hn⟩

theorem eventsOk_collected {k : EventQueue} (h : EventsOk k) : EventsOk k.collected := by
  obtain ⟨hl, -, first, hn⟩ := h
  refine ⟨?_, Nat.zero_le _, numbered_drop hn _⟩
  simp only [EventQueue.collected, List.length_drop]
  omega

@[simp] theorem Kept.raise (h : Kept F q r) (kind : EventKind) (index : Nat) (detail : Word) :
    Kept F q (r.raise kind index detail) :=
  h.trans ⟨rfl, rfl, fun he => eventsOk_push he _ _ _ _, id, id,
    fun _ => Inner.of_same rfl rfl rfl rfl rfl⟩

@[simp] theorem Kept.collected (h : Kept F q r) : Kept F q (r.setEvents r.events.collected) :=
  h.trans ⟨rfl, rfl, eventsOk_collected, id, id, fun _ => Inner.of_same rfl rfl rfl rfl rfl⟩

/-! ### The console port (R10, R15, R16) -/

@[simp] theorem Kept.beginTx (h : Kept F q r) (f : Frame) (b : Bool) : Kept F q (r.beginTx f b) :=
  Kept.setConsoleSame h _ rfl rfl rfl

@[simp] theorem Kept.beginAnswer (h : Kept F q r) (a : Answer) : Kept F q (r.beginAnswer a) := by
  unfold Run.beginAnswer
  split
  · exact Kept.beginTx h _ _
  · exact Kept.beginTx (Kept.collected h) _ _

theorem withoutFirstAnswer_length (l : List OutEntry) : (withoutFirstAnswer l).length ≤ l.length := by
  induction l with
  | nil => exact Nat.le_refl _
  | cons e l ih =>
    cases e with
    | answer a => exact Nat.le_succ _
    | report p => exact Nat.succ_le_succ ih

theorem withoutFirstReport_length (l : List OutEntry) : (withoutFirstReport l).length ≤ l.length := by
  induction l with
  | nil => exact Nat.le_refl _
  | cons e l ih =>
    cases e with
    | answer a => exact Nat.succ_le_succ ih
    | report p => exact Nat.le_succ _

/-- A queue that holds a REPORT is one entry shorter without its oldest one. -/
theorem withoutFirstReport_shorter {l : List OutEntry} {p : Report} (h : firstReport l = some p) :
    (withoutFirstReport l).length + 1 = l.length := by
  induction l with
  | nil => cases h
  | cons e l ih =>
    cases e with
    | answer a => exact congrArg (· + 1) (ih h)
    | report p => rfl

theorem Kept.setQueue (h : Kept F q r) (l : List OutEntry) (hl : l.length ≤ r.console.queue.length) :
    Kept F q (r.setConsole { r.console with queue := l }) :=
  Kept.setConsole h _ fun hc => ⟨Nat.le_trans hl hc.1, hc.2⟩

@[simp] theorem Kept.startTx (h : Kept F q r) (c : Tables) : Kept F q (Run.startTx c r) := by
  unfold Run.startTx
  split
  · exact Kept.beginAnswer (Kept.setQueue h _ (withoutFirstAnswer_length _)) _
  · split
    · exact Kept.beginTx (Kept.setConsoleSame h { r.console with beaconDue := false } rfl rfl rfl) _ _
    · split
      · exact Kept.beginTx (Kept.setQueue h _ (withoutFirstReport_length _)) _ _
      · exact h

@[simp] theorem Kept.kickConsole (h : Kept F q r) (c : Tables) : Kept F q (Run.kickConsole c r) := by
  unfold Run.kickConsole
  split
  · exact Kept.startTx h c
  · exact h

theorem consoleOk_dropOne {k : Console} (h : ConsoleOk k) : ConsoleOk k.dropOne :=
  ⟨h.1, h.2.1, Nat.min_le_left _ _⟩

theorem consoleOk_offerAnswer {k : Console} (h : ConsoleOk k) (a : Answer) :
    ConsoleOk (k.offerAnswer a).1 := by
  obtain ⟨hq, he, hd⟩ := h
  unfold Console.offerAnswer
  split
  · rename_i hl
    refine ⟨?_, he, hd⟩
    simp only [List.length_append, List.length_singleton]
    exact hl
  · split
    · rename_i hf
      refine ⟨?_, he, Nat.min_le_left _ _⟩
      have := withoutFirstReport_shorter hf
      simp only [List.length_append, List.length_singleton]
      omega
    · exact consoleOk_dropOne ⟨hq, he, hd⟩

theorem replaceNewest_length {p : Report} {l l' : List OutEntry} (h : replaceNewest p l = some l') :
    l'.length = l.length := by
  induction l generalizing l' with
  | nil => cases h
  | cons e l ih =>
    unfold replaceNewest at h
    split at h
    · rename_i hr
      cases h
      exact congrArg (· + 1) (ih hr)
    · split at h
      · cases h; rfl
      · cases h

theorem consoleOk_offerReport {k : Console} (h : ConsoleOk k) (p : Report) :
    ConsoleOk (k.offerReport p) := by
  unfold Console.offerReport
  split
  · rename_i hl
    refine ⟨?_, h.2⟩
    simp only [List.length_append, List.length_singleton]
    exact hl
  · split
    · rename_i hr
      exact ⟨(replaceNewest_length hr).le.trans h.1, h.2⟩
    · exact consoleOk_dropOne h

@[simp] theorem Kept.answer (h : Kept F q r) (c : Tables) (req : Req) (code : Code) (detail : Word)
    (data : List Byte) : Kept F q (Run.answer c r req code detail data) :=
  Kept.kickConsole (Kept.setConsole h _ fun hc => consoleOk_offerAnswer hc _) c

@[simp] theorem Kept.report (h : Kept F q r) (c : Tables) (p : Report) : Kept F q (Run.report c r p) :=
  Kept.kickConsole (Kept.setConsole h _ fun hc => consoleOk_offerReport hc _) c

/-! ### Poll rounds and the trunk transmitter (R49 to R53) -/

/-- The trunk's state where an inner operation works on it. -/
theorem Kept.running {r' : Run} {t : Fin 4} (h : Kept F r r')
    (hr : F = .inner → r.trunks[t].state = .running) (hF : F = .inner) :
    r'.trunks[t].state = .running := ((h.inner hF).states t).trans (hr hF)

section
variable (c : Tables) {t : Fin 4} (hr : F = .inner → r.trunks[t].state = .running)
include hr

theorem Kept.beginRound (h : Kept F q r) (phase : Nat) : Kept F q (Run.beginRound c r t phase) := by
  have hm := (Kept.refl r).modRunning t (fun k => { k with
    roundPhase := phase, roundPosition := 0, roundTimer := some (ms c.trunks[t].roundInterval) })
    hr id rfl
  refine h.trans (Kept.foldl _ _ (fun u i hu => ?_) hm)
  exact hu.modNodeOf (nodeAt t i) _ (hu.running hr)

theorem Kept.nextRound (h : Kept F q r) : Kept F q (Run.nextRound c r t) := by
  unfold Run.nextRound
  split
  · exact h.beginRound c hr _
  · exact h

theorem Kept.beginTransaction (h : Kept F q r) (slot : Fin 31) (code : Byte)
    (payload : List Byte) (source : TxSource) :
    Kept F q (r.beginTransaction t slot code payload source) :=
  h.modRunning _ _ hr id rfl

theorem Kept.takePoll (h : Kept F q r) (i : Fin 31) : Kept F q (r.takePoll t i) := by
  have hm := (Kept.refl r).modRunning t (fun k => { k with roundPosition := address i }) hr id rfl
  have hn := hm.modNodeOf (nodeAt t i) (fun n => { n with mark := true }) (hm.running hr)
  exact h.trans (hn.beginTransaction (hn.running hr) _ _ _ _)

theorem Kept.takeSetPoint (h : Kept F q r) (a : Fin 6) (d : Int) :
    Kept F q (Run.takeSetPoint c r t a d) := by
  have hm := (Kept.refl (F := F) r).modAxis a (fun x => { x with setPoint := none, sentDemand := d })
    fun _ _ => rfl
  exact h.trans (hm.beginTransaction (hm.running hr) _ _ _ _)

/-- The head frame is taken: the queue keeps its length (R55). -/
theorem Kept.takeQueue (h : Kept F q r) {f : QFrame} {rest : List QFrame}
    (hq : r.trunks[t].queue = f :: rest) : Kept F q (r.takeQueue t f rest) := by
  have hm := (Kept.refl r).modRunning t (fun k =>
    { k with queue := { f with attempts := f.attempts + 1 } :: rest }) hr
    (fun hl => by rw [hq] at hl; exact hl) rfl
  exact h.trans (hm.beginTransaction (hm.running hr) _ _ _ _)

theorem Kept.takePass (h : Kept F q r) (p : PassSlot) : Kept F q (r.takePass t p) := by
  have hm := (Kept.refl r).modRunning t (fun k =>
    { k with pass := some { p with attempts := p.attempts + 1 } }) hr id rfl
  exact h.trans (hm.beginTransaction (hm.running hr) _ _ _ _)

theorem Kept.selectLower (h : Kept F q r) : Kept F q (Run.selectLower c r t) := by
  unfold Run.selectLower
  split
  · exact h.takeSetPoint c hr _ _
  · split
    · rename_i hq
      exact h.takeQueue hr hq
    · split
      · exact h.takePass hr _
      · split
        · exact h.takePoll hr _
        · exact h

theorem Kept.selectFrame (h : Kept F q r) : Kept F q (Run.selectFrame c r t) := by
  have hn := (Kept.refl r).nextRound c hr
  have hr' := hn.running hr
  refine h.trans ?_
  unfold Run.selectFrame
  dsimp only
  split
  · exact hn.beginTransaction hr' _ _ _ _
  · split
    · split
      · exact hn.takePoll hr' _
      · exact hn.selectLower c hr'
    · exact hn.selectLower c hr'

end

@[simp] theorem Kept.kickTrunk (h : Kept F q r) (c : Tables) (t : Fin 4) :
    Kept F q (Run.kickTrunk c r t) := by
  unfold Run.kickTrunk
  split
  next hf =>
    refine h.selectFrame c fun _ => ?_
    unfold trunkFree at hf
    simp only [Bool.and_eq_true, beq_iff_eq] at hf
    exact hf.1.1
  next => exact h

/-- A frame that R53 accepts finds a running trunk. -/
theorem judgeOffer_running {c : Tables} {r : Run} {n : NodeId} (h : judgeOffer c r n = .accepted) :
    r.trunks[n.trunk].state = .running := by
  by_contra hs
  unfold judgeOffer at h
  rw [if_pos hs] at h
  cases h

/-- A frame that R53 accepts has room in its queue. -/
theorem judgeOffer_accepted {c : Tables} {r : Run} {n : NodeId} (h : judgeOffer c r n = .accepted) :
    r.trunks[n.trunk].queue.length < 16 := by
  by_contra hl
  have hc : Config.commandQueueCapacity ≤ r.trunks[n.trunk].queue.length := Nat.le_of_not_lt hl
  unfold judgeOffer at h
  rw [if_pos hc] at h
  split at h
  · cases h
  · split at h <;> cases h

theorem Kept.enqueueFrame (h : Kept F q r) (c : Tables) (n : NodeId) (code : Byte)
    (payload : List Byte) (origin : Origin) (ho : judgeOffer c r n = .accepted) :
    Kept F q (Run.enqueueFrame c r n code payload origin) :=
  (h.modRunning _ _ (fun _ => judgeOffer_running ho)
    (fun _ => by simpa using judgeOffer_accepted ho) rfl).kickTrunk c _

@[simp] theorem Kept.offerFrame (h : Kept F q r) (c : Tables) (n : NodeId) (code : Byte)
    (payload : List Byte) (origin : Origin) :
    Kept F q (Run.offerFrame c r n code payload origin).1 := by
  unfold Run.offerFrame
  split
  · rename_i ho
    exact Kept.enqueueFrame h c n code payload origin ho
  · exact h

@[simp] theorem Kept.holdNode (h : Kept F q r) (c : Tables) (n : NodeId) :
    Kept F q (Run.holdNode c r n) := by
  unfold Run.holdNode
  split
  next hn =>
    refine (h.modRunning _ _ (fun _ => ?_) id rfl).kickTrunk c _
    unfold nodeReachable at hn
    simp only [Bool.and_eq_true, beq_iff_eq] at hn
    exact hn.1.1
  next => exact h

@[simp] theorem Kept.writeSetPoint (h : Kept .whole q r) (c : Tables) (a : Fin 6) (d : Int) :
    Kept .whole q (Run.writeSetPoint c r a d) := by
  unfold Run.writeSetPoint
  dsimp only
  split
  · exact Kept.kickTrunk (h.fillSlot _ _) c _
  · exact h.fillSlot _ _

end

end Sys2Proof.Machine
end

