-- ==== Sys2Proof/Proofs/KeptUnits.lean ====
section
/-! PROOFS. Every unit's operation keeps the bounds of the runtime (`Kept`): the call dispatcher, the axis
unit, the set-point computation and the door sequencer, one lemma for each operation. -/

namespace Sys2Proof.Machine

section
variable {F : Scope} {q r : Run} (c : Tables)

/-- A choice keeps what both of its sides keep. -/
@[simp] theorem Kept.ite {p : Prop} [Decidable p] {a b : Run} (ha : Kept F q a) (hb : Kept F q b) :
    Kept F q (if p then a else b) := by
  split
  · exact ha
  · exact hb

/-! ### The call dispatcher (chapter 7) -/

@[simp] theorem Kept.modCall (h : Kept F q r) (id : Nat) (f : Call → Call) : Kept F q (r.modCall id f) :=
  Kept.setCalls h _

@[simp] theorem Kept.offerStopPlay (h : Kept F q r) (area : Fin 16) (n : NodeId) :
    Kept F q (Run.offerStopPlay c r area n) := Kept.offerFrame h c _ _ _ _

@[simp] theorem Kept.stopPlays (h : Kept F q r) (area : Fin 16) (nodes : List NodeId) :
    Kept F q (Run.stopPlays c r area nodes) :=
  Kept.foldl _ _ (fun _ _ h => Kept.offerStopPlay c h _ _) h

theorem Kept.offerPlay (area : Fin 16) (message : Nat) {p : Run × List Awaited} (n : NodeId)
    (h : Kept F q p.1) : Kept F q (Run.offerPlay c area message p n).1 := by
  unfold Run.offerPlay
  split
  · dsimp only
    split <;> exact Kept.offerFrame (Kept.setSerial h _) c _ _ _ _
  · exact h

@[simp] theorem Kept.startPlay (h : Kept F q r) (area : Fin 16) (k : Call) (former : List Awaited) :
    Kept F q (Run.startPlay c r area k former) := by
  have ho := Kept.foldlFst (Run.offerPlay c area k.message) c.areas[area]
    (fun _ n h => Kept.offerPlay c area _ n h) (p := (r, [])) h
  unfold Run.startPlay
  exact Kept.stopPlays c (Kept.ite (Kept.modArea ho _ _) (Kept.modCall (Kept.modArea ho _ _) _ _)) _ _

@[simp] theorem Kept.preempt (h : Kept F q r) (area : Fin 16) (id : Nat) :
    Kept F q (r.preempt area id) := Kept.modCall h _ _

@[simp] theorem Kept.selectArea (h : Kept F q r) (area : Fin 16) : Kept F q (Run.selectArea c r area) := by
  unfold Run.selectArea
  split
  · exact h
  · split
    · exact h
    · exact Kept.startPlay c h _ _ _
    · split
      · exact h
      · split
        · exact h
        · exact Kept.ite (Kept.startPlay c (Kept.preempt h _ _) _ _ _) h

@[simp] theorem Kept.selectAreas (h : Kept F q r) (s : AreaSet) : Kept F q (Run.selectAreas c r s) :=
  Kept.foldl _ _ (fun _ _ h => Kept.selectArea c h _) h

@[simp] theorem Kept.beginPass (h : Kept F q r) (id : Nat) : Kept F q (Run.beginPass c r id) := by
  unfold Run.beginPass
  split
  · exact h
  · exact (h.modCall _ _).ite ((h.modCall _ _).selectAreas c _)

@[simp] theorem Kept.tellEnded (h : Kept F q r) (origin : CallOrigin) (id : Nat) :
    Kept F q (r.tellEnded origin id) := by
  unfold Run.tellEnded
  split
  · exact h
  · exact h.modAxis _ _ fun x hx => by split <;> exact hx
  · exact h.modZone _ _
  · exact h.modMonitor _ _

@[simp] theorem Kept.silenceArea (h : Kept F q r) (area : Fin 16) :
    Kept F q (Run.silenceArea c r area) := Kept.modArea (Kept.stopPlays c h _ _) _ _

@[simp] theorem Kept.removeCall (h : Kept F q r) (id : Nat) : Kept F q (Run.removeCall c r id) := by
  unfold Run.removeCall
  split
  · exact h
  · exact Kept.selectAreas c (Kept.tellEnded (Kept.setCalls
      (Kept.foldl _ _ (fun _ _ h => Kept.silenceArea c h _) h) _) _ _) _

@[simp] theorem Kept.beginGap (h : Kept F q r) (k : Call) : Kept F q (Run.beginGap c r k) := by
  unfold Run.beginGap
  split <;> simp [h]

@[simp] theorem Kept.judgePass (h : Kept F q r) (id : Nat) : Kept F q (Run.judgePass c r id) := by
  unfold Run.judgePass
  split
  · exact h
  · exact ((h.beginGap c _).ite (((h.modCall _ _).beginGap c _).ite
      ((h.removeCall c _).raise _ _ _))).ite h

@[simp] theorem Kept.endPlay (h : Kept F q r) (area : Fin 16) (final : AreaState) :
    Kept F q (Run.endPlay c r area final) := by
  have hm := h.modArea area fun x => x.silent final
  unfold Run.endPlay
  dsimp only
  split
  · exact (hm.selectArea c area).ite hm
  · rename_i id _
    have hj := (hm.modCall id fun k =>
      { k with playing := setDiff k.playing (setOf area.val) }).judgePass c id
    exact (hj.selectArea c area).ite hj

@[simp] theorem Kept.leaveAwaited (h : Kept F q r) (area : Fin 16) (n : NodeId) :
    Kept F q (Run.leaveAwaited c r area n) :=
  have hm := h.modArea area _
  ((hm.endPlay c area .idle).ite hm).ite h

@[simp] theorem Kept.mergeCall (h : Kept F q r) (o : CallOffer) (k : Call) :
    Kept F q (Run.mergeCall c r o k) := by
  have hm := h.modCall k.id fun _ => mergeInto r o k
  unfold Run.mergeCall
  dsimp only
  split
  · exact hm.selectAreas c _
  · exact hm.ite (hm.beginPass c _)
  · exact hm

@[simp] theorem Kept.enterCall (h : Kept F q r) (o : CallOffer) : Kept F q (Run.enterCall c r o).1 :=
  Kept.beginPass c (Kept.setCalls (Kept.setCallCounter h _) _) _

@[simp] theorem Kept.offerCall (h : Kept F q r) (o : CallOffer) : Kept F q (Run.offerCall c r o).1 := by
  unfold Run.offerCall
  split
  · exact Kept.mergeCall c h _ _
  · split
    · exact Kept.enterCall c h _
    · split
      · exact h
      · split
        · exact Kept.enterCall c (Kept.raise (Kept.removeCall c h _) _ _ _) _
        · exact h

@[simp] theorem Kept.placeInternal (h : Kept F q r) (o : CallOffer) :
    Kept F q (Run.placeInternal c r o).1 := by
  unfold Run.placeInternal
  dsimp only
  split <;> simp [h]

@[simp] theorem Kept.withdrawInternal (h : Kept F q r) (id : Option Nat) :
    Kept F q (Run.withdrawInternal c r id) := by
  unfold Run.withdrawInternal
  split <;> simp [h]

@[simp] theorem Kept.withdrawByConsole (h : Kept F q r) (k : Call) :
    Kept F q (Run.withdrawByConsole c r k) := Kept.raise (Kept.removeCall c h _) _ _ _

@[simp] theorem Kept.dropArea (h : Kept F q r) (area : Fin 16) : Kept F q (Run.dropArea c r area) :=
  Kept.foldl _ _ (fun _ _ h => Kept.judgePass c h _) (Kept.setCalls h _)

@[simp] theorem Kept.areaGone (h : Kept F q r) (area : Fin 16) : Kept F q (Run.areaGone c r area) := by
  unfold Run.areaGone
  exact ((((h.stopPlays c _ _).endPlay c _ _).ite (h.modArea _ _)).raise _ _ _).dropArea c area

@[simp] theorem Kept.areaBack (h : Kept F q r) (area : Fin 16) : Kept F q (Run.areaBack c r area) := by
  have hm := h.modArea area fun x => { x with state := .idle, startMark := false }
  unfold Run.areaBack
  exact (Kept.foldl _ _ (fun _ _ h => h.beginPass c _) (hm.ite (hm.raise _ _ _))).selectArea c _

@[simp] theorem Kept.judgeArea (h : Kept F q r) (area : Fin 16) : Kept F q (Run.judgeArea c r area) := ((h.areaBack c area).ite h).ite (h.ite (h.areaGone c area))

@[simp] theorem Kept.ampChanged (h : Kept F q r) (n : NodeId) (l : Liveness) (area : Fin 16) :
    Kept F q (Run.ampChanged c n l r area) := ((h.leaveAwaited c area n).ite h).judgeArea c area

@[simp] theorem Kept.silenceReturn (h : Kept F q r) (n : NodeId) (before : Liveness) (st : AmpStatus)
    (area : Fin 16) : Kept F q (Run.silenceReturn c n before st r area) := by
  unfold Run.silenceReturn
  split <;> simp [h]

@[simp] theorem Kept.ampReply (h : Kept F q r) (n : NodeId) (st : AmpStatus) (area : Fin 16) :
    Kept F q (Run.ampReply c n st r area) :=
  have hl := (h.leaveAwaited c area n).ite (p := endsPlay r.areas[area] n st) h
  (hl.selectArea c area).ite hl

@[simp] theorem Kept.playCompleted (h : Kept F q r) (area : Fin 16) (serial : Nat) (o : Completion) :
    Kept F q (Run.playCompleted c r area serial o) := by
  unfold Run.playCompleted
  split
  · exact h
  · split <;> simp [h]

@[simp] theorem Kept.playTimeout (h : Kept F q r) (area : Fin 16) :
    Kept F q (Run.playTimeout c r area) := Kept.endPlay c (Kept.stopPlays c h _ _) _ _

/-! ### The axis unit (chapter 4) -/

@[simp] theorem Kept.offerUnlock (h : Kept F q r) (a : Fin 6) : Kept F q (Run.offerUnlock c r a) := by
  unfold Run.offerUnlock
  exact (h.offerFrame c _ _ _ _).modAxis _ _

@[simp] theorem Kept.offerLock (h : Kept F q r) (a : Fin 6) : Kept F q (Run.offerLock c r a) := by
  unfold Run.offerLock
  exact (h.offerFrame c _ _ _ _).modAxis _ _

@[simp] theorem Kept.offerStage (h : Kept F q r) (a : Fin 6) : Kept F q (Run.offerStage c r a) := by
  unfold Run.offerStage
  exact (h.offerFrame c _ _ _ _).modAxis _ _

@[simp] theorem Kept.offerOwed (h : Kept F q r) (a : Fin 6) : Kept F q (Run.offerOwed c r a) :=
  have hu := (h.offerUnlock c a).ite h
  have hl := (hu.offerLock c a).ite hu
  (hl.offerStage c a).ite hl

@[simp] theorem Kept.offerPanelDeny (h : Kept F q r) (a : Fin 6) :
    Kept F q (Run.offerPanelDeny c r a) := by
  unfold Run.offerPanelDeny
  split <;> simp [h]

@[simp] theorem Kept.axisCompleted (h : Kept F q r) (a : Fin 6) (f : AxisFrame) (o : Completion) :
    Kept F q (r.axisCompleted a f o) := by
  unfold Run.axisCompleted
  split
  · refine h.modAxis _ _ fun x hx => ?_
    cases f with
    | unlock | lock => dsimp only; split <;> exact hx
    | stage | deny => exact hx
  all_goals exact h

@[simp] theorem Kept.placeMotionCall (h : Kept F q r) (a : Fin 6) :
    Kept F q (Run.placeMotionCall c r a) := by
  unfold Run.placeMotionCall
  split <;> simp [h]

@[simp] theorem Kept.withdrawMotionCall (h : Kept F q r) (a : Fin 6) :
    Kept F q (Run.withdrawMotionCall c r a) := Kept.modAxis (Kept.withdrawInternal c h _) _ _

@[simp] theorem Kept.endPlan (h : Kept F q r) (cause : PlanEnd) : Kept F q (r.endPlan cause) := ((h.setPlan _).raise _ _ _).ite h

@[simp] theorem Kept.endPlanOf (h : Kept F q r) (a : Fin 6) (cause : PlanEnd) :
    Kept F q (r.endPlanOf a cause) := by
  unfold Run.endPlanOf
  simp [h]

@[simp] theorem Kept.haltStage (h : Kept F q r) (a : Fin 6) : Kept F q (Run.haltStage c r a) := ((h.modAxis a _).offerStage c a).ite h

@[simp] theorem Kept.haltFresh (h : Kept F q r) (a : Fin 6) (cause : HaltCause) :
    Kept F q (Run.haltFresh c r a cause) :=
  (((((h.modAxis a (fun x => x.halted cause) fun _ _ => rfl).holdNode c _).haltStage c a).withdrawMotionCall c a).raise _ _ _).endPlanOf a _

@[simp] theorem Kept.halt (h : Kept F q r) (a : Fin 6) (cause : HaltCause) :
    Kept F q (Run.halt c r a cause) := by
  unfold Run.halt
  split <;> simp [h]

@[simp] theorem Kept.haltWhere (h : Kept F q r) (cause : HaltCause) (p : Fin 6 → Bool) :
    Kept F q (Run.haltWhere c r cause p) :=
  Kept.foldl _ _ (fun _ _ h => Kept.ite (Kept.halt c h _ _) h) h

@[simp] theorem Kept.estopPushed (h : Kept F q r) : Kept F q (Run.estopPushed c r) :=
  Kept.haltWhere c h _ _

@[simp] theorem Kept.firePushed (h : Kept F q r) (z : Fin 8) : Kept F q (Run.firePushed c r z) := by
  unfold Run.firePushed
  simp [h]

@[simp] theorem Kept.judgePrereq (h : Kept F q r) (others : List (Fin 6)) (b : Fin 6) :
    Kept F q (Run.judgePrereq c others r b) := by
  unfold Run.judgePrereq
  simp [h]

@[simp] theorem Kept.judgeOthers (h : Kept F q r) (others : List (Fin 6)) :
    Kept F q (Run.judgeOthers c r others) :=
  Kept.foldl _ _ (fun _ _ h => Kept.judgePrereq c h _ _) h

@[simp] theorem Kept.axisOffline (h : Kept F q r) (a : Fin 6) : Kept F q (Run.axisOffline c r a) := ((h.modAxis a _ fun _ _ => rfl).withdrawMotionCall c a).endPlanOf a _

@[simp] theorem Kept.startMove (h : Kept F q r) (a : Fin 6) (target : Int) (lockAtEnd : Bool)
    (origin : MoveOrigin) : Kept F q (Run.startMove c r a target lockAtEnd origin) := by
  unfold Run.startMove
  dsimp only
  split
  · exact ((h.modAxis a _).offerUnlock c a).placeMotionCall c a
  · exact (h.modAxis a _).placeMotionCall c a
  iterate 2 exact h.modAxis a _
  all_goals exact h

@[simp] theorem Kept.startStep (h : Kept F q r) (s : PlanStep) : Kept F q (Run.startStep c r s).1 := by
  unfold Run.startStep
  split <;> simp [h]

@[simp] theorem Kept.advancePlan (h : Kept F q r) : Kept F q (Run.advancePlan c r) := by
  unfold Run.advancePlan
  dsimp only
  split
  · exact (h.setPlan _).raise _ _ _
  · split
    · exact (h.setPlan _).startStep c _
    · exact ((h.setPlan _).startStep c _).endPlan _

@[simp] theorem Kept.stepDone (h : Kept F q r) (a : Fin 6) : Kept F q (Run.stepDone c r a) := by
  unfold Run.stepDone
  split
  · exact h
  · exact (((h.raise _ _ _).ite h).advancePlan c).ite h

@[simp] theorem Kept.moveDone (h : Kept F q r) (a : Fin 6) : Kept F q (Run.moveDone c r a) := ((h.raise _ _ _).withdrawMotionCall c a).stepDone c a

@[simp] theorem Kept.endedByStop (h : Kept F q r) (a : Fin 6) : Kept F q (Run.endedByStop c r a) :=
  Kept.withdrawMotionCall c (Kept.raise h _ _ _) _

@[simp] theorem Kept.stopAxis (h : Kept F q r) (a : Fin 6) : Kept F q (Run.stopAxis c r a) := by
  have hp := h.endPlanOf a .stop
  unfold Run.stopAxis
  split
  · exact ((hp.modAxis a _ fun _ _ => rfl).endedByStop c a).ite (hp.modAxis a _)
  · exact (hp.modAxis a _).endedByStop c a
  all_goals exact h

@[simp] theorem Kept.recordReply (h : Kept F q r) (a : Fin 6) (d : DriveStatus) :
    Kept F q (Run.recordReply c r a d) :=
  have hm := h.modAxis a _
  (((hm.modAxis a _).halt c a .node).ite (hm.modAxis a _)).ite hm

@[simp] theorem Kept.judgeFlag (h : Kept F q r) (a : Fin 6) (k : Nat) :
    Kept F q (Run.judgeFlag c r a k) :=
  have hh := (h.halt c a .driveFlag).ite h
  (hh.raise _ _ _).ite hh

@[simp] theorem Kept.judgeFlags (h : Kept F q r) (a : Fin 6) (turned : BitVec 8) :
    Kept F q (Run.judgeFlags c r a turned) :=
  Kept.foldl _ _ (fun _ _ h => Kept.ite (Kept.judgeFlag c h _ _) h) h

@[simp] theorem Kept.judgeOverload (h : Kept F q r) (a : Fin 6) (pressure : Nat) :
    Kept F q (Run.judgeOverload c r a pressure) :=
  ((h.halt c a _).ite (h.ite ((h.modAxis a _).raise _ _ _))).ite h

@[simp] theorem Kept.locksReleased (h : Kept F q r) (a : Fin 6) : Kept F q (Run.locksReleased c r a) :=
  have hm := h.modAxis a _
  hm.ite (hm.halt c a .prereq)

@[simp] theorem Kept.judgeLocks (h : Kept F q r) (a : Fin 6) (d : DriveStatus) :
    Kept F q (Run.judgeLocks c r a d) := by
  unfold Run.judgeLocks
  split
  · exact (h.locksReleased c a).ite h
  · exact ((h.modAxis a _).moveDone c a).ite h
  iterate 2 exact h.modAxis a _
  all_goals exact h

@[simp] theorem Kept.driveReply (h : Kept F q r) (a : Fin 6) (d : DriveStatus) :
    Kept F q (Run.driveReply c r a d) := by
  unfold Run.driveReply
  exact (((((h.recordReply c a d).judgeFlags c a _).judgeOverload c a _).judgeLocks c a
    d).judgeOthers c [a]).offerOwed c a

@[simp] theorem Kept.panelStart (h : Kept F q r) (a : Fin 6) (p : PanelCommand) :
    Kept F q (Run.panelStart c r a p) := by
  unfold Run.panelStart
  split <;> simp [h]

@[simp] theorem Kept.panelReply (h : Kept F q r) (a : Fin 6) (p : PanelCommand) :
    Kept F q (Run.panelReply c r a p) := by
  unfold Run.panelReply
  exact Kept.modAxis (((h.panelStart c a p).ite h).ite
    (((h.modAxis a _).ite (h.stopAxis c a)).ite ((h.offerPanelDeny c a).ite h))) a _

@[simp] theorem Kept.panelLost (h : Kept F q r) (a : Fin 6) : Kept F q (Run.panelLost c r a) :=
  have hm := h.modAxis a _
  (hm.stopAxis c a).ite hm

@[simp] theorem Kept.forceLocal (h : Kept F q r) (a : Fin 6) : Kept F q (Run.forceLocal c r a) := ((h.modAxis a _).raise _ _ _).ite h

@[simp] theorem Kept.stopBridgeMove (h : Kept F q r) (a : Fin 6) :
    Kept F q (Run.stopBridgeMove c r a) := by
  unfold Run.stopBridgeMove
  simp [h]

@[simp] theorem Kept.serviceOn (h : Kept F q r) : Kept F q (Run.serviceOn c r) :=
  Kept.foldl _ _ (fun _ _ h => Kept.stopBridgeMove c h _)
    (Kept.foldl _ _ (fun _ _ h => Kept.forceLocal c h _) (Kept.endPlan h _))

@[simp] theorem Kept.requestMove (h : Kept F q r) (a : Fin 6) (target : Int) (lockAtEnd : Bool) :
    Kept F q (Run.requestMove c r a target lockAtEnd).1 := by
  unfold Run.requestMove
  split
  · exact h
  · split <;> simp [h]

@[simp] theorem Kept.requestStop (h : Kept F q r) (a : Fin 6) : Kept F q (Run.requestStop c r a).1 :=
  Kept.stopAxis c h a

@[simp] theorem Kept.requestKeep (h : Kept F q r) (a : Fin 6) : Kept F q (Run.requestKeep c r a).1 := by
  unfold Run.requestKeep
  split
  iterate 2
    · split <;> simp [h]
  all_goals exact h

@[simp] theorem Kept.requestRelease (h : Kept F q r) (a : Fin 6) :
    Kept F q (Run.requestRelease c r a).1 := by
  unfold Run.requestRelease
  split
  · dsimp only
    split <;> simp [h]
  all_goals exact h

@[simp] theorem Kept.setControl (h : Kept F q r) (a : Fin 6) (k : Control) :
    Kept F q (r.setControl a k) := h.ite ((h.modAxis a _).raise _ _ _)

@[simp] theorem Kept.requestTake (h : Kept F q r) (a : Fin 6) : Kept F q (r.requestTake a).1 := by
  unfold Run.requestTake
  split
  · exact h
  · split <;> simp [h]

@[simp] theorem Kept.requestGrant (h : Kept F q r) (a : Fin 6) : Kept F q (Run.requestGrant c r a).1 := by
  unfold Run.requestGrant
  split
  · exact h
  · split <;> simp [h]

@[simp] theorem Kept.requestDerate (h : Kept F q r) (a : Fin 6) (value : Nat) :
    Kept F q (r.requestDerate a value).1 := by simp [Run.requestDerate, h]

@[simp] theorem Kept.requestPlanStart (h : Kept F q r) (steps : List PlanStep) :
    Kept F q (Run.requestPlanStart c r steps).1 := by
  unfold Run.requestPlanStart
  split
  · exact h
  · split
    · exact h
    · split
      · exact h
      · split
        · exact h
        · dsimp only
          split <;> simp [h]

@[simp] theorem Kept.requestPlanKeep (h : Kept .whole q r) :
    Kept .whole q (Run.requestPlanKeep c r).1 := by
  unfold Run.requestPlanKeep
  split
  · exact h
  · exact h.fillSlot _ _

@[simp] theorem Kept.requestPlanCancel (h : Kept F q r) : Kept F q (Run.requestPlanCancel c r).1 := by
  unfold Run.requestPlanCancel
  split <;> simp [h]

@[simp] theorem Kept.keepaliveExpired (h : Kept F q r) (a : Fin 6) :
    Kept F q (Run.keepaliveExpired c r a) := by
  unfold Run.keepaliveExpired
  dsimp only
  split <;> simp [h]

@[simp] theorem Kept.lockExpired (h : Kept F q r) (a : Fin 6) : Kept F q (Run.lockExpired c r a) := by
  unfold Run.lockExpired
  dsimp only
  split <;> simp [h]

/-! ### The set-point computation (chapter 5) -/

@[simp] theorem Kept.judgeStage (h : Kept F q r) (a : Fin 6) (demand : Int) :
    Kept F q (Run.judgeStage c r a demand) := by
  unfold Run.judgeStage
  split
  · split <;> exact ((h.modAxis a _).offerStage c a).ite h
  · exact h

@[simp] theorem Kept.emitDemand (h : Kept .whole q r) (a : Fin 6) (demand : Int) :
    Kept .whole q (Run.emitDemand c r a demand) := Kept.judgeStage c (Kept.writeSetPoint h c _ _) _ _

@[simp] theorem Kept.arrive (h : Kept .whole q r) (a : Fin 6) : Kept .whole q (Run.arrive c r a) := by
  have hm := (h.emitDemand c a 0).modAxis a fun x =>
    { x with controlTimer := none, keepaliveTimer := none }
  exact ((hm.modAxis _ _).offerLock c a).ite ((hm.modAxis _ _).moveDone c a)

@[simp] theorem Kept.endSlew (h : Kept F q r) (a : Fin 6) (cause : Nat) :
    Kept F q (Run.endSlew c r a cause) :=
  have hm := ((h.modAxis a _).raise _ _ _).withdrawMotionCall c a
  (hm.endPlanOf a _).ite hm

@[simp] theorem Kept.restartControl (h : Kept F q r) (a : Fin 6) :
    Kept F q (Run.restartControl c r a) := Kept.modAxis h _ _

@[simp] theorem Kept.computeStopping (h : Kept .whole q r) (a : Fin 6) :
    Kept .whole q (Run.computeStopping c r a) := ((h.endSlew c a 1).ite (h.restartControl c a)).emitDemand c a _

@[simp] theorem Kept.computeSlew (h : Kept .whole q r) (a : Fin 6) : Kept .whole q (Run.computeSlew c r a) := ((h.endSlew c a 2).ite (h.restartControl c a)).emitDemand c a _

@[simp] theorem Kept.controlExpired (h : Kept .whole q r) (a : Fin 6) :
    Kept .whole q (Run.controlExpired c r a) := by
  have hm := h.modAxis a fun x => { x with controlTimer := none }
  unfold Run.controlExpired
  dsimp only
  split
  · exact hm.computeStopping c a
  · exact (hm.arrive c a).ite (hm.computeSlew c a)
  all_goals exact hm

/-! ### The door sequencer (chapter 6) -/

@[simp] theorem Kept.issueDoor (h : Kept F q r) (d : Fin 32) (f : DoorFrame) :
    Kept F q (Run.issueDoor c r d f) := by
  unfold Run.issueDoor
  exact (h.offerFrame c _ _ _ _).modDoor _ _

@[simp] theorem Kept.offerDoorDeny (h : Kept F q r) (d : Fin 32) : Kept F q (Run.offerDoorDeny c r d) :=
  Kept.offerFrame h c _ _ _ _

@[simp] theorem Kept.offerPending (h : Kept F q r) (d : Fin 32) : Kept F q (Run.offerPending c r d) := by
  unfold Run.offerPending
  split <;> simp [h]

@[simp] theorem Kept.offerDoorsOf (h : Kept F q r) (t : Fin 4) : Kept F q (Run.offerDoorsOf c r t) :=
  Kept.foldl _ _ (fun _ _ h => Kept.ite (Kept.offerPending c h _) h) h

@[simp] theorem Kept.doorCompleted (h : Kept F q r) (d : Fin 32) (f : DoorFrame) (o : Completion) :
    Kept F q (r.doorCompleted d f o) := by
  unfold Run.doorCompleted
  split <;> simp [h]

@[simp] theorem Kept.freshClose (h : Kept F q r) (d : Fin 32) : Kept F q (Run.freshClose c r d) :=
  Kept.issueDoor c (Kept.modDoor h _ _) _ _

@[simp] theorem Kept.openDoor (h : Kept F q r) (d : Fin 32) : Kept F q (Run.openDoor c r d) :=
  Kept.issueDoor c (Kept.modDoor h _ _) _ _

@[simp] theorem Kept.faultDoor (h : Kept F q r) (d : Fin 32) (cause : Nat) :
    Kept F q (r.faultDoor d cause) := Kept.raise (Kept.modDoor h _ _) _ _ _

@[simp] theorem Kept.warningExpired (h : Kept F q r) (z : Fin 8) : Kept F q (Run.warningExpired c r z) :=
  Kept.foldl _ _ (fun _ _ h => Kept.ite (Kept.freshClose c h _) h) (Kept.modZone h _ _)

@[simp] theorem Kept.warningIfNone (h : Kept F q r) (z : Fin 8) : Kept F q (Run.warningIfNone c r z) := by
  unfold Run.warningIfNone
  simp [h]

@[simp] theorem Kept.placeZoneCall (h : Kept F q r) (z : Fin 8) : Kept F q (Run.placeZoneCall c r z) := by
  unfold Run.placeZoneCall
  exact (h.placeInternal c _).modZone z _

@[simp] theorem Kept.withdrawZoneCall (h : Kept F q r) (z : Fin 8) :
    Kept F q (Run.withdrawZoneCall c r z) := Kept.modZone (Kept.withdrawInternal c h _) _ _

@[simp] theorem Kept.fireDoors (h : Kept F q r) (z : Fin 8) : Kept F q (Run.fireDoors c r z) :=
  Kept.foldl _ _ (fun _ _ h => Kept.ite (Kept.freshClose c h _) h) h

@[simp] theorem Kept.fireEffects (h : Kept F q r) (z : Fin 8) : Kept F q (Run.fireEffects c r z) :=
  Kept.firePushed c (Kept.fireDoors c h _) _

@[simp] theorem Kept.setFire (h : Kept F q r) (z : Fin 8) : Kept F q (Run.setFire c r z) :=
  have hm := h.modZone z _
  ((((hm.ite (hm.withdrawZoneCall c z)).placeZoneCall c z).fireEffects c z).warningIfNone c z)

@[simp] theorem Kept.startClosure (h : Kept F q r) (z : Fin 8) (fire : Bool) :
    Kept F q (Run.startClosure c r z fire) :=
  have hm := h.modZone z _
  (((hm.fireEffects c z).ite hm).placeZoneCall c z).warningIfNone c z

@[simp] theorem Kept.requestClosure (h : Kept F q r) (z : Fin 8) (cause : Nat) (fire : Bool) :
    Kept F q (Run.requestClosure c r z cause fire) :=
  have hm := h.modZone z _
  (hm.startClosure c z fire).ite ((hm.setFire c z).ite hm)

@[simp] theorem Kept.doorOffline (h : Kept F q r) (d : Fin 32) : Kept F q (r.doorOffline d) :=
  Kept.modDoor h _ _

@[simp] theorem Kept.doorReturns (h : Kept F q r) (d : Fin 32) (st : DoorStatus) :
    Kept F q (Run.doorReturns c r d st) := by
  have hm := h.modDoor d fun x => { x with state := firstState st, latest := some st }
  unfold Run.doorReturns
  dsimp only
  split
  · exact hm.raise _ _ _
  · exact (hm.freshClose c d).ite hm
  all_goals exact hm

@[simp] theorem Kept.obstructDoor (h : Kept F q r) (d : Fin 32) : Kept F q (Run.obstructDoor c r d) := ((h.issueDoor c d .stop).modDoor d _).raise _ _ _

@[simp] theorem Kept.judgePosition (h : Kept F q r) (d : Fin 32) (st : DoorStatus) :
    Kept F q (Run.judgePosition c r d st) := by
  have hc := h.modDoor d DoorRt.closedNow
  unfold Run.judgePosition
  dsimp only
  split
  iterate 3 exact hc.ite h
  · exact ((h.modDoor _ _).ite (h.modDoor _ _)).ite h
  · exact hc.ite ((h.obstructDoor c d).ite h)
  · exact hc.ite h
  all_goals exact h

@[simp] theorem Kept.judgeForced (h : Kept F q r) (d : Fin 32) (st : DoorStatus) :
    Kept F q (Run.judgeForced c r d st) := by
  unfold Run.judgeForced
  split
  · split <;> simp [h]
  · exact h

@[simp] theorem Kept.acceptTransit (h : Kept F q r) (d : Fin 32) : Kept F q (Run.acceptTransit c r d) :=
  Kept.issueDoor c (Kept.modDoor h _ _) _ _

@[simp] theorem Kept.judgeTransit (h : Kept F q r) (d : Fin 32) (before closed : Bool)
    (st : DoorStatus) : Kept F q (Run.judgeTransit c r d before closed st) := ((h.offerDoorDeny c d).ite (h.acceptTransit c d)).ite h

@[simp] theorem Kept.localFaultDoor (h : Kept F q r) (d : Fin 32) : Kept F q (r.localFaultDoor d) :=
  Kept.faultDoor (Kept.modDoor h _ _) _ _

@[simp] theorem Kept.judgeDoorReply (h : Kept F q r) (d : Fin 32) (st : DoorStatus) :
    Kept F q (Run.judgeDoorReply c r d st) :=
  have hm := h.modDoor d _
  ((hm.localFaultDoor d).judgeTransit c d _ _ st).ite
    (((hm.judgePosition c d st).judgeForced c d st).judgeTransit c d _ _ st)

@[simp] theorem Kept.doorReply (h : Kept F q r) (d : Fin 32) (st : DoorStatus) :
    Kept F q (Run.doorReply c r d st) := by
  unfold Run.doorReply
  simp [h]

@[simp] theorem Kept.requestZoneClose (h : Kept F q r) (z : Fin 8) (fire : Bool) :
    Kept F q (Run.requestZoneClose c r z fire).1 := Kept.requestClosure c h _ _ _

@[simp] theorem Kept.reopenDoor (h : Kept F q r) (d : Fin 32) : Kept F q (Run.reopenDoor c r d) := by
  unfold Run.reopenDoor
  dsimp only
  split <;> simp [h]

@[simp] theorem Kept.requestReopen (h : Kept F q r) (z : Fin 8) :
    Kept F q (Run.requestReopen c r z).1 := by
  unfold Run.requestReopen
  split
  · exact h
  · exact Kept.foldl _ _ (fun _ _ h => Kept.ite (Kept.reopenDoor c h _) h)
      (Kept.withdrawZoneCall c (Kept.modZone h _ _) _)

@[simp] theorem Kept.requestOverride (h : Kept F q r) (z : Fin 8) : Kept F q (r.requestOverride z).1 := by simp [Run.requestOverride, h]

@[simp] theorem Kept.requestDoorOpen (h : Kept F q r) (d : Fin 32) :
    Kept F q (Run.requestDoorOpen c r d).1 := by
  unfold Run.requestDoorOpen
  split
  · exact h
  · split
    · exact h
    · split <;> simp [h]

@[simp] theorem Kept.requestDoorClose (h : Kept F q r) (d : Fin 32) :
    Kept F q (Run.requestDoorClose c r d).1 := by
  unfold Run.requestDoorClose
  split <;> simp [h]

@[simp] theorem Kept.retryExpired (h : Kept F q r) (d : Fin 32) : Kept F q (Run.retryExpired c r d) :=
  have hm := h.modDoor d _
  ((hm.modDoor d _).issueDoor c d .close).ite (hm.faultDoor d 3)

@[simp] theorem Kept.moveTimerExpired (h : Kept F q r) (d : Fin 32) : Kept F q (r.moveTimerExpired d) := by
  have hm := h.modDoor d fun x => { x with timer := none }
  unfold Run.moveTimerExpired
  dsimp only
  split
  · exact hm.faultDoor d 2
  · exact hm.ite (hm.faultDoor d 2)
  all_goals exact hm

@[simp] theorem Kept.transitExpired (h : Kept F q r) (d : Fin 32) :
    Kept F q (Run.transitExpired c r d) := by
  have hm := h.modDoor d fun x => { x with timer := none }
  unfold Run.transitExpired
  dsimp only
  split
  · exact hm.freshClose c d
  · exact (hm.freshClose c d).ite hm
  all_goals exact hm

@[simp] theorem Kept.judgeZone (h : Kept F q r) (z : Fin 8) : Kept F q (Run.judgeZone c r z) := h.ite ((h.modZone z _).raise _ _ _)

@[simp] theorem Kept.judgeZones (h : Kept F q r) : Kept F q (Run.judgeZones c r) :=
  Kept.foldl _ _ (fun _ _ h => Kept.judgeZone c h _) h

end

end Sys2Proof.Machine
end

