-- ==== Sys2Proof/Proofs/KeptRest.lean ====
section
/-! PROOFS. Every unit's operation keeps the bounds of the runtime (`Kept`): the monitor unit, the lines,
the indicator chain, the relay, the trunk controllers, the change to CONFIGURED, the requests and the
close of an event. -/

namespace Sys2Proof.Machine

section
variable {F : Scope} {q r : Run} (c : Tables)

/-! ### The monitor unit (chapter 8) -/

@[simp] theorem Kept.setOutput (h : Kept F q r) (o : Fin 4) (high : Bool) (b : SetBy) :
    Kept F q (r.setOutput o high b) := h.modOutput o _

@[simp] theorem Kept.withdrawActions (h : Kept F q r) (m : Fin 16) :
    Kept F q (Run.withdrawActions c r m) := by
  unfold Run.withdrawActions
  exact (h.withdrawInternal c _).modMonitor m _

@[simp] theorem Kept.enterAction (h : Kept F q r) (m : Fin 16) (s : Fin 8) :
    Kept F q (Run.enterAction c r m s) := by
  unfold Run.enterAction
  split <;> simp [h]

@[simp] theorem Kept.enterSteps (h : Kept F q r) (m : Fin 16) (s : Fin 8) :
    Kept F q (Run.enterSteps c r m s) := by
  have hm := h.modMonitor m fun x => { x with holdTimer := none, timeoutTimer := none }
  have ha {x f} := (((hm.withdrawActions c m).setEntered x).modMonitor m f).enterAction c m s
  unfold Run.enterSteps
  exact ha.ite (ha.modMonitor m _)

theorem Kept.startHold (h : Kept F q r) (next : Run → Fin 8 → Run) (m : Fin 16)
    (hn : ∀ r s, Kept F q r → Kept F q (next r s)) : Kept F q (Run.startHold c next r m) := by
  unfold Run.startHold
  exact (((h.raise _ _ _).ite (hn _ _ h)).ite (h.modMonitor m _)).ite h

/-- The entries of one event, by induction on the chain's bound (R154). -/
theorem Kept.enterChain (n : Nat) (h : Kept F q r) (m : Fin 16) (s : Fin 8) :
    Kept F q (Run.enterChain c n r m s) := by
  induction n generalizing r s with
  | zero => exact h
  | succ n ih => exact (h.enterSteps c m s).startHold c _ m fun _ s h => ih h s

@[simp] theorem Kept.enterState (h : Kept F q r) (m : Fin 16) (s : Fin 8) :
    Kept F q (Run.enterState c r m s) := h.enterChain c _ m s

theorem Kept.renewChannel (n : NodeId) (payload : List Byte) {p : Run × List (Fin 32)}
    (ch : Fin 32) (h : Kept F q p.1) : Kept F q (Run.renewChannel c n payload p ch).1 := by
  unfold Run.renewChannel
  dsimp only
  split
  · split <;> simp [h]
  · exact h

@[simp] theorem Kept.judgeRenewal (h : Kept F q r) (renewed : List (Fin 32)) (m : Fin 16) :
    Kept F q (Run.judgeRenewal c renewed r m) := by
  unfold Run.judgeRenewal
  exact ((h.ite (h.startHold c _ m fun _ s h => h.enterState c m s)).ite (h.modMonitor m _)).ite h

@[simp] theorem Kept.channelReply (h : Kept F q r) (n : NodeId) (payload : List Byte) :
    Kept F q (Run.channelReply c r n payload) :=
  Kept.foldl _ _ (fun _ m h => h.judgeRenewal c _ m)
    (Kept.foldlFst _ _ (fun _ ch h => h.renewChannel c n payload ch) h)

theorem Kept.markStale {p : Run × List (Fin 32)} (h : Kept F q p.1) (ch : Fin 32) :
    Kept F q (Run.markStale p ch).1 := by
  simp [Run.markStale, h]

@[simp] theorem Kept.judgeStale (h : Kept F q r) (turned : List (Fin 32)) (m : Fin 16) :
    Kept F q (Run.judgeStale c turned r m) := by
  unfold Run.judgeStale
  dsimp only
  split
  · split <;> simp [h]
  · exact h

@[simp] theorem Kept.turnStale (h : Kept F q r) (chans : List (Fin 32)) :
    Kept F q (Run.turnStale c r chans) :=
  Kept.foldl _ _ (fun _ m h => h.judgeStale c _ m)
    (Kept.foldlFst _ _ (fun _ ch h => Kept.markStale h ch) h)

@[simp] theorem Kept.requestEnable (h : Kept F q r) (m : Fin 16) :
    Kept F q (Run.requestEnable c r m).1 := by
  unfold Run.requestEnable
  split
  · exact h
  · split
    · exact h
    · split <;> simp [h]

@[simp] theorem Kept.requestDisable (h : Kept F q r) (m : Fin 16) :
    Kept F q (Run.requestDisable c r m).1 :=
  (((h.modMonitor m _).withdrawActions c m).modMonitor m _).ite h

@[simp] theorem Kept.requestMonitorRestart (h : Kept F q r) (m : Fin 16) :
    Kept F q (Run.requestMonitorRestart c r m).1 := by
  unfold Run.requestMonitorRestart
  split <;> simp [h]

@[simp] theorem Kept.startMonitor (h : Kept F q r) (m : Fin 16) : Kept F q (Run.startMonitor c r m) :=
  ((h.modMonitor m _).enterState c m 0).ite h

/-! ### Lines and the indicator chain (chapter 9) -/

@[simp] theorem Kept.rawChanged (h : Kept .whole q r) (l : Fin 14) (active : Bool) :
    Kept .whole q (Run.rawChanged c r l active) := h.ite (h.modLine l _)

@[simp] theorem Kept.edgeEvent (h : Kept F q r) (l : Fin 14) (active : Bool) :
    Kept F q (Run.edgeEvent c r l active) := (h.raise _ _ _).ite h

@[simp] theorem Kept.handOver (h : Kept F q r) (l : Fin 14) (active : Bool) :
    Kept F q (Run.handOver c r l active) := by
  unfold Run.handOver
  split
  · split
    · exact h.estopPushed c
    · split
      · exact h.serviceOn c
      · split <;> simp [h]
  · exact h

@[simp] theorem Kept.acceptedChange (h : Kept F q r) (l : Fin 14) (active : Bool) :
    Kept F q (Run.acceptedChange c r l active) := by
  have he := h.edgeEvent c l active
  have hs := (he.raise .serviceMode l.val (det active.toNat)).ite (p := l = lineService) he
  exact h.ite ((hs.handOver c l active).ite hs)

@[simp] theorem Kept.filterExpired (h : Kept .whole q r) (l : Fin 14) : Kept .whole q (Run.filterExpired c r l) :=
  (h.modLine l _).acceptedChange c l _

@[simp] theorem Kept.modChain (h : Kept F q r) (f : Chain → Chain) : Kept F q (r.modChain f) :=
  h.setChain _

@[simp] theorem Kept.judgeImage (h : Kept F q r) : Kept F q (Run.judgeImage c r) :=
  h.ite (h.modChain _)

@[simp] theorem Kept.restartFlash (h : Kept F q r) : Kept F q (Run.restartFlash c r) := h.modChain _

@[simp] theorem Kept.settleEvent (h : Kept F q r) : Kept F q (Run.settleEvent c r) :=
  ((h.judgeZones c).judgeImage c).setEntered _

/-! ### The relay (chapter 2) -/

@[simp] theorem Kept.judgePermit (h : Kept F q r) (station : Word) (code : Byte) :
    Kept F q (Run.judgePermit c r station code).1 := by
  unfold Run.judgePermit
  split <;> simp [h]

@[simp] theorem Kept.forward (h : Kept F q r) (req : Req) (n : NodeId) (code : Byte)
    (payload : List Byte) : Kept F q (Run.forward c r req n code payload) := by
  unfold Run.forward
  split
  iterate 3 exact h.answer c _ _ _ _
  · rename_i ho
    exact h.enqueueFrame c n code payload _ ho

@[simp] theorem Kept.nodeCommand (h : Kept F q r) (req : Req) (n : NodeId) (payload : List Byte) :
    Kept F q (Run.nodeCommand c r req n payload) := by
  unfold Run.nodeCommand
  split
  · exact h.answer c _ _ _ _
  · refine (h.answer c _ _ _ _).ite ((h.answer c _ _ _ _).ite ?_)
    dsimp only
    split
    · exact (h.judgePermit c _ _).answer c _ _ _ _
    · exact (h.judgePermit c _ _).forward c _ _ _ _

@[simp] theorem Kept.takePassSlot (h : Kept .whole q r) (req : Req) (n : NodeId) (code : Byte)
    (payload : List Byte) : Kept .whole q (Run.takePassSlot c r req n code payload) :=
  (h.modTrunk _ _ id).kickTrunk c _

@[simp] theorem Kept.pass (h : Kept .whole q r) (req : Req) (n : NodeId) (code : Byte)
    (payload : List Byte) : Kept .whole q (Run.pass c r req n code payload) := by
  unfold Run.pass
  refine (h.answer c _ _ _ _).ite ((h.answer c _ _ _ _).ite ?_)
  split
  · exact h.answer c _ _ _ _
  · exact h.takePassSlot c _ _ _ _

@[simp] theorem Kept.passRequest (h : Kept .whole q r) (req : Req) (n : NodeId) (payload : List Byte) :
    Kept .whole q (Run.passRequest c r req n payload) := by
  unfold Run.passRequest
  split
  · exact h.answer c _ _ _ _
  · refine (h.answer c _ _ _ _).ite ?_
    dsimp only
    split
    · exact (h.judgePermit c _ _).answer c _ _ _ _
    · exact (h.judgePermit c _ _).pass c _ _ _ _

@[simp] theorem Kept.answerCompletion (h : Kept F q r) (req : Req) (o : Completion) :
    Kept F q (Run.answerCompletion c r req o) := by
  unfold Run.answerCompletion
  split <;> exact h.answer c _ _ _ _

@[simp] theorem Kept.offerReport (h : Kept .whole q r) (n : NodeId) (station : Word) (payload : List Byte)
    (time : TimeBase) : Kept .whole q (Run.offerReport c r n station payload time) :=
  (h.modReport _ _).report c _

@[simp] theorem Kept.qualified (h : Kept .whole q r) (n : NodeId) (station : Word) (payload : List Byte)
    (time : TimeBase) : Kept .whole q (Run.qualified c r n station payload time) :=
  (h.offerReport c _ _ _ _).ite (h.modReport _ _)

@[simp] theorem Kept.judgeReport (h : Kept .whole q r) (n : NodeId) (payload : List Byte)
    (time : TimeBase) : Kept .whole q (Run.judgeReport c r n payload time) := by
  unfold Run.judgeReport
  split
  · exact h
  · split
    · exact h
    · exact (h.modReport _ _).ite (h.qualified c _ _ _ _)
    · exact ((h.modReport _ _).qualified c _ _ _ _).ite (h.modReport _ _)

@[simp] theorem Kept.reportIntervalExpired (h : Kept .whole q r) (n : NodeId) :
    Kept .whole q (Run.reportIntervalExpired c r n) := by
  unfold Run.reportIntervalExpired
  dsimp only
  split <;> simp [h]

@[simp] theorem Kept.clearReport (h : Kept .whole q r) (n : NodeId) : Kept .whole q (r.clearReport n) :=
  h.modReport _ _

/-! ### The trunk controllers (chapter 3) -/

@[simp] theorem Kept.tellOrigin (h : Kept F q r) (o : Origin) (k : Completion) :
    Kept F q (Run.tellOrigin c r o k) := by
  unfold Run.tellOrigin
  split <;> simp [h]

@[simp] theorem Kept.completeHead (h : Kept .whole q r) (t : Fin 4) (k : Completion) :
    Kept .whole q (Run.completeHead c r t k) := by
  unfold Run.completeHead
  split
  · exact h
  · rename_i hq
    refine (h.modTrunk _ _ fun hl => ?_).tellOrigin c _ _
    rw [hq] at hl
    exact Nat.le_of_succ_le hl

@[simp] theorem Kept.completePass (h : Kept .whole q r) (t : Fin 4) (k : Completion) :
    Kept .whole q (Run.completePass c r t k) := by
  unfold Run.completePass
  split
  · exact h
  · exact (h.modTrunk _ _ id).answerCompletion c _ _

@[simp] theorem Kept.completeSource (h : Kept .whole q r) (t : Fin 4) (s : TxSource) (k : Completion) :
    Kept .whole q (Run.completeSource c r t s k) := by
  unfold Run.completeSource
  split <;> simp [h]

@[simp] theorem Kept.axisTold (h : Kept F q r) (gone : List NodeId) (off : List (Fin 6)) (a : Fin 6) :
    Kept F q (Run.axisTold c gone off r a) :=
  ((h.judgePrereq c off a).panelLost c a).ite (h.judgePrereq c off a)

@[simp] theorem Kept.axesDown (h : Kept F q r) (gone : List NodeId) :
    Kept F q (Run.axesDown c r gone) :=
  Kept.foldl _ _ (fun _ a h => h.axisTold c _ _ a)
    (Kept.foldl _ _ (fun _ a h => h.axisOffline c a) h)

@[simp] theorem Kept.areaTold (h : Kept F q r) (l : Liveness) (gone : List NodeId) (area : Fin 16) :
    Kept F q (Run.areaTold c l gone r area) :=
  Kept.foldl _ _ (fun _ n h => h.ampChanged c n l area) h

@[simp] theorem Kept.pushDown (h : Kept F q r) (l : Liveness) (gone : List NodeId) :
    Kept F q (Run.pushDown c l r gone) :=
  Kept.foldl _ _ (fun _ i h => h.areaTold c l gone i)
    (Kept.foldl _ _ (fun _ d h => h.doorOffline d) (h.axesDown c gone))

@[simp] theorem Kept.pushMissing (h : Kept F q r) (n : NodeId) : Kept F q (Run.pushMissing c r n) := by
  unfold Run.pushMissing
  split
  · exact Kept.foldl _ _ (fun _ i h => h.ampChanged c n .missing i) h
  all_goals exact h

@[simp] theorem Kept.ampFanOut (h : Kept F q r) (n : NodeId) (before : Liveness) (payload : List Byte)
    (area : Fin 16) : Kept F q (Run.ampFanOut c n before payload r area) := by
  unfold Run.ampFanOut
  dsimp only
  cases ampStatus payload with
  | none => exact h.ite (h.ampChanged c n .live area)
  | some st =>
    have hs := h.silenceReturn c n before st area
    exact (hs.ite (hs.ampChanged c n .live area)).ampReply c n st area

@[simp] theorem Kept.fanOutKind (h : Kept F q r) (n : NodeId) (before : Liveness)
    (payload : List Byte) : Kept F q (Run.fanOutKind c r n before payload) := by
  unfold Run.fanOutKind
  split
  · split
    · exact Kept.foldl _ _ (fun _ a h => h.driveReply c a _) h
    · exact h
  · split
    · exact Kept.foldl _ _ (fun _ a h => h.panelReply c a _) h
    · exact h
  · split
    · exact Kept.foldl _ _ (fun _ d h => h.doorReply c d _) h
    · exact h
  · exact Kept.foldl _ _ (fun _ i h => h.ampFanOut c n before payload i) h
  all_goals exact h

@[simp] theorem Kept.fanOut (h : Kept .whole q r) (n : NodeId) (before : Liveness) (payload : List Byte) :
    Kept .whole q (Run.fanOut c r n before payload) :=
  ((h.fanOutKind c n before payload).channelReply c n payload).judgeReport c n payload _

@[simp] theorem Kept.endTransaction (h : Kept .whole q r) (t : Fin 4) :
    Kept .whole q (Run.endTransaction c r t) := (h.offerDoorsOf c t).modTrunk _ _ id

@[simp] theorem Kept.takeReply (h : Kept .whole q r) (t : Fin 4) (k : Transaction) (code : Byte)
    (payload : List Byte) : Kept .whole q (Run.takeReply c r t k code payload) := by
  have hn := h.modNode (nodeIndex (nodeAt t k.slot)) fun x => x.answered payload r.clock.ms
  have hb := (hn.raise .nodeBack (nodeIndex (nodeAt t k.slot)).val 0).ite
    (p := (nodeRt r (nodeAt t k.slot)).liveness = .lost) hn
  unfold Run.takeReply
  exact ((((hb.modTrunk _ _ id).ite hb).fanOut c _ _ _).completeSource c t _ _).endTransaction c t

@[simp] theorem Kept.dropLostFrame (h : Kept .whole q r) (t : Fin 4) (f : QFrame) :
    Kept .whole q (Run.dropLostFrame c t r f) :=
  (h.modTrunk _ _ fun hl => Nat.le_trans List.eraseP_sublist.length_le hl).tellOrigin c _ _

@[simp] theorem Kept.lostWork (h : Kept .whole q r) (t : Fin 4) (k : Transaction) :
    Kept .whole q (Run.lostWork c r t k) := by
  have h1 : Kept .whole q (match attemptsMade r.trunks[t] k.source with
      | some m => Run.completeSource c r t k.source (.noAnswer m)
      | none => r) := by split <;> simp [h]
  have h2 {l} := Kept.foldl (Run.dropLostFrame c t) l (fun _ f h => h.dropLostFrame c t f) h1
  unfold Run.lostWork
  refine Kept.foldl _ _ (fun _ a h => h.modAxis a _ fun _ _ => rfl) (Kept.modTrunk ?_ _ _ id)
  split
  · exact (h2.completePass c t _).ite h2
  · exact h2

@[simp] theorem Kept.nodeLost (h : Kept .whole q r) (t : Fin 4) (k : Transaction) :
    Kept .whole q (Run.nodeLost c r t k) := by
  unfold Run.nodeLost
  exact ((((h.raise _ _ _).lostWork c t k).clearReport _).pushDown c _ _).turnStale c _

@[simp] theorem Kept.judgeAttempts (h : Kept .whole q r) (t : Fin 4) (k : Transaction) :
    Kept .whole q (Run.judgeAttempts c r t k) := by
  unfold Run.judgeAttempts
  split
  · exact (h.completeSource c t _ _).ite h
  · exact h

@[simp] theorem Kept.takeMiss (h : Kept .whole q r) (t : Fin 4) (k : Transaction) :
    Kept .whole q (Run.takeMiss c r t k) := by
  have hn := h.modNode (nodeIndex (nodeAt t k.slot)) NodeRt.missed
  unfold Run.takeMiss
  exact ((hn.nodeLost c t k).ite (((hn.pushMissing c _).ite hn).judgeAttempts c t k)).endTransaction
    c t

theorem Kept.whenAwaiting (h : Kept F q r) (t : Fin 4) (f : Transaction → Run)
    (hf : ∀ k, Kept F q (f k)) : Kept F q (r.whenAwaiting t f) := by
  unfold Run.whenAwaiting
  split
  · exact (hf _).ite h
  · exact h

@[simp] theorem Kept.takeBytes (h : Kept .whole q r) (t : Fin 4) (k : Transaction) (bytes : List Byte) :
    Kept .whole q (Run.takeBytes c r t k bytes) := by
  unfold Run.takeBytes
  split <;> simp [h]

@[simp] theorem Kept.windowOpens (h : Kept .whole q r) (t : Fin 4) : Kept .whole q (Run.windowOpens c r t) := by
  unfold Run.windowOpens
  split
  · exact h.ite (h.modTrunk _ _ id)
  · exact h

@[simp] theorem Kept.gapEnded (h : Kept .whole q r) (t : Fin 4) : Kept .whole q (Run.gapEnded c r t) :=
  ((h.modTrunk _ _ id).kickTrunk c t).ite h

@[simp] theorem Kept.roundEnded (h : Kept .whole q r) (t : Fin 4) : Kept .whole q (Run.roundEnded c r t) :=
  (((h.modTrunk t _ id).nextRound c notInner).kickTrunk c t).ite h

@[simp] theorem Kept.setTrunkState (h : Kept .whole q r) (t : Fin 4) (s : TrunkState) :
    Kept .whole q (r.setTrunkState t s) := (h.modTrunk _ _ id).raise _ _ _

@[simp] theorem Kept.settled (h : Kept .whole q r) (t : Fin 4) : Kept .whole q (Run.settled c r t) :=
  (((h.modTrunk _ _ id).setTrunkState t _).beginRound c notInner 0).kickTrunk c t

@[simp] theorem Kept.settle (h : Kept .whole q r) (t : Fin 4) : Kept .whole q (Run.settle c r t) := by
  have hs := (h.modTrunk t (fun k =>
    { k with holdAsserted := false, settleTimer := some (ms c.trunks[t].settle) }) id).setTrunkState
    t .settling
  exact (hs.settled c t).ite hs

@[simp] theorem Kept.holdWork (h : Kept .whole q r) (t : Fin 4) (onLine : Option TxSource) :
    Kept .whole q (Run.holdWork c r t onLine) := by
  unfold Run.holdWork
  refine Kept.completePass c (Kept.foldl _ _ (fun _ _ h => h.completeHead c t _) ?_) t _
  split <;> simp [h]

@[simp] theorem Kept.holdSlots (h : Kept .whole q r) (t : Fin 4) : Kept .whole q (Run.holdSlots c r t) :=
  Kept.foldl _ _ (fun _ a h => h.modAxis a _ fun _ _ => rfl) (h.modTrunk _ _ id)

@[simp] theorem Kept.holdTrunk (h : Kept .whole q r) (t : Fin 4) : Kept .whole q (Run.holdTrunk c r t) := by
  have hh := (h.modTrunk t TrunkRt.heldNow id).setTrunkState t .held
  have hn := Kept.foldl (fun r n => r.modNode (nodeIndex n) fun _ => resetNode) (nodesOf t)
    (fun _ _ h => h.modNode _ _) hh
  unfold Run.holdTrunk
  exact ((Kept.foldl _ _ (fun _ n h => h.clearReport n)
    ((hn.holdWork c t _).holdSlots c t)).pushDown c _ _).turnStale c _

/-! ### Tables and the store (R7, R41, R68, R106, R161) -/

@[simp] theorem Kept.startAreas (h : Kept F q r) : Kept F q r.startAreas :=
  Kept.foldl _ _ (fun _ i h => h.modArea i _) h

/-- The change to CONFIGURED, behind the change of the gateway state. -/
theorem Kept.becomeConfigured (h : Kept .whole q (r.setGw .configured)) :
    Kept .whole q (Run.becomeConfigured c r) := by
  have ht := Kept.foldl (Run.startTrunk c) (List.finRange 4) (fun _ t h => (h.settle c t).ite h) h
  exact Kept.foldl _ _ (fun _ l h => h.modLine l _)
    (Kept.foldl _ _ (fun _ m h => h.startMonitor c m) ht.startAreas)

@[simp] theorem Kept.trunkWritten (h : Kept .whole q r) (t : Fin 4) (configured : Bool) :
    Kept .whole q (r.trunkWritten t configured) := by
  unfold Run.trunkWritten
  split
  · split <;> first | exact h | exact (h.modTrunk t _ id).setTrunkState t _
  · exact h

@[simp] theorem Kept.axisWritten (h : Kept F q r) (c' : Tables) (a : Fin 6) :
    Kept F q (Run.axisWritten c c' r a) := by
  have hm := h.modAxis a AxisRt.unbound fun _ _ => rfl
  have hj := (hm.ite (p := r.axes[a].state = .offline)
    ((hm.endPlanOf a .offline).judgeOthers c' [a])).ite
    (p := (!c'.axes[a].configured || c'.axes[a].drive != c.axes[a].drive) = true) h
  exact hj.ite (hj.modAxis a _)

@[simp] theorem Kept.paramWritten (h : Kept F q r) (c' : Tables) :
    Kept F q (Run.paramWritten c c' r) := by
  have hb := (h.setConsoleSame { r.console with beaconTimer := some (ms c'.param.beaconPeriod) }
    rfl rfl rfl).ite (p := c'.param.beaconPeriod ≠ c.param.beaconPeriod) h
  exact (hb.restartFlash c').ite hb

@[simp] theorem Kept.written (h : Kept .whole q r) (c' : Tables) (t : Table) (i : Nat) :
    Kept .whole q (Run.written c c' r t i) := by
  unfold Run.written
  split
  · split <;> simp [h]
  · split <;> simp [h]
  · split <;> simp [h]
  · split <;> simp [h]
  · split
    · exact (h.modDoor _ _).ite h
    · exact h
  · split
    · exact (h.judgeArea c' _).ite h
    · exact h
  · split <;> simp [h]
  · exact h.paramWritten c c'
  all_goals exact h

/-! ### Function requests (R22) -/

/-- A form is refused with the runtime as it was, or its request is carried out. -/
theorem Kept.withForm {α : Type} (h : Kept F q r) (p : Parse α) (body : List Byte) (k : α → Reply)
    (hk : ∀ a, Kept F q (k a).1) : Kept F q (withForm p body r k).1 := by
  unfold Machine.withForm
  split
  · exact h
  · exact hk _

@[simp] theorem Kept.axisRequest (h : Kept F q r) (a : Fin 6) (code : Nat) (body : List Byte) :
    Kept F q (axisRequest c r a code body).1 := by
  unfold Machine.axisRequest
  split
  · exact h.withForm _ _ _ fun m => h.requestMove c a m.1 m.2
  · exact h.withForm _ _ _ fun _ => h.requestStop c a
  · exact h.withForm _ _ _ fun _ => h.requestKeep c a
  · exact h.withForm _ _ _ fun _ => h.requestRelease c a
  · exact h.withForm _ _ _ fun _ => h.requestTake a
  · exact h.withForm _ _ _ fun _ => h.requestGrant c a
  · exact h.withForm _ _ _ fun v => h.requestDerate a v
  · exact h

@[simp] theorem Kept.planRequest (h : Kept .whole q r) (code : Nat) (body : List Byte) :
    Kept .whole q (planRequest c r code body).1 := by
  unfold Machine.planRequest
  split
  · exact h.withForm _ _ _ fun steps => h.requestPlanStart c steps
  · exact h.withForm _ _ _ fun _ => h.requestPlanKeep c
  · exact h.withForm _ _ _ fun _ => h.requestPlanCancel c
  · exact h

@[simp] theorem Kept.zoneRequest (h : Kept F q r) (z : Fin 8) (code : Nat) (body : List Byte) :
    Kept F q (zoneRequest c r z code body).1 := by
  unfold Machine.zoneRequest
  split
  · exact h.withForm _ _ _ fun fire => h.requestZoneClose c z fire
  · exact h.withForm _ _ _ fun _ => h.requestReopen c z
  · exact h.withForm _ _ _ fun _ => h.requestOverride z
  · exact h

@[simp] theorem Kept.doorRequest (h : Kept F q r) (d : Fin 32) (code : Nat) (body : List Byte) :
    Kept F q (doorRequest c r d code body).1 := by
  unfold Machine.doorRequest
  split
  · exact h.withForm _ _ _ fun _ => h.requestDoorOpen c d
  · exact h.withForm _ _ _ fun _ => h.requestDoorClose c d
  · exact h

@[simp] theorem Kept.requestPlace (h : Kept F q r) (o : CallOffer) :
    Kept F q (Run.requestPlace c r o).1 := by
  unfold Run.requestPlace
  dsimp only
  split <;> exact h.offerCall c _

@[simp] theorem Kept.requestWithdraw (h : Kept F q r) (s : Selector) :
    Kept F q (Run.requestWithdraw c r s).1 := by
  unfold Run.requestWithdraw
  split
  · split <;> simp [h]
  · exact Kept.foldl _ _ (fun _ k h => h.withdrawByConsole c k) h

@[simp] theorem Kept.callRequest (h : Kept F q r) (code : Nat) (body : List Byte) :
    Kept F q (callRequest c r code body).1 := by
  unfold Machine.callRequest
  split
  · exact h.withForm _ _ _ fun o => h.requestPlace c o
  · exact h.withForm _ _ _ fun s => h.requestWithdraw c s
  · exact h

@[simp] theorem Kept.monitorRequest (h : Kept F q r) (m : Fin 16) (code : Nat) (body : List Byte) :
    Kept F q (monitorRequest c r m code body).1 := by
  unfold Machine.monitorRequest
  split
  · exact h.withForm _ _ _ fun _ => h.requestEnable c m
  · exact h.withForm _ _ _ fun _ => h.requestDisable c m
  · exact h.withForm _ _ _ fun _ => h.requestMonitorRestart c m
  · exact h

@[simp] theorem Kept.lineRequest (h : Kept F q r) (code : Nat) (body : List Byte) :
    Kept F q (lineRequest r code body).1 := by
  unfold Machine.lineRequest
  split
  · exact h.withForm _ _ _ fun _ => h
  · exact h.withForm _ _ _ fun o => h.setOutput o.1 o.2 .console
  · exact h

@[simp] theorem Kept.functionRequest (h : Kept .whole q r) (f : Function) (code : Nat)
    (body : List Byte) : Kept .whole q (functionRequest c r f code body).1 := by
  unfold Machine.functionRequest
  split <;> simp [h]

@[simp] theorem Kept.functionFrame (h : Kept .whole q r) (req : Req) (payload : List Byte) :
    Kept .whole q (Run.functionFrame c r req payload) := by
  unfold Run.functionFrame
  split
  iterate 2 exact h.answer c _ _ _ _
  · split
    · exact h.answer c _ _ _ _
    · exact (h.functionRequest c _ _ _).answer c _ _ _ _

@[simp] theorem Kept.commandFrame (h : Kept F q r) (req : Req) (payload : List Byte) :
    Kept F q (Run.commandFrame c r req payload) := by
  unfold Run.commandFrame
  split <;> simp [h]

@[simp] theorem Kept.passFrame (h : Kept .whole q r) (req : Req) (payload : List Byte) :
    Kept .whole q (Run.passFrame c r req payload) := by
  unfold Run.passFrame
  split <;> simp [h]

@[simp] theorem Kept.beaconExpired (h : Kept F q r) : Kept F q (Run.beaconExpired c r) :=
  ((h.setConsoleSame { r.console with
    beaconDue := true, beaconTimer := some (ms c.param.beaconPeriod) } rfl rfl rfl).kickConsole
    c).ite h

end

end Sys2Proof.Machine
end

