-- ==== Sys2Proof/Proofs/Acts.lean ====
section
/-! PROOFS. What a step can do, said once: every command that completes is a course of acts (`Act`), each a
change of the runtime that keeps its bounds (`Kept`), a reset, or one act of the tables or the store. An
invariant of the machine is then a matter of the ten kinds of act. -/

namespace Sys2Proof.Machine

/-- A change of the runtime alone that keeps its bounds. -/
structure State.Kept (s t : State) : Prop where
  cfg : t.cfg = s.cfg
  mem : t.extMem = s.extMem
  run : Machine.Kept .whole s.run t.run

/-- One act of the machine. -/
inductive Act : State → State → Prop
  | kept {s t : State} (h : State.Kept s t) : Act s t
  | tick (s : State) : Act s s.tick
  | reset (s : State) (cause : ResetCause) (raw : BitVec 14) : Act s (s.resetBy cause raw)
  | write {s : State} {t : Table} {i d : Nat} {k k' : Cursor} {e : Entry} {c : Tables}
      (hi : i < t.entries) (he : contentForm t i k = .ok (e, k'))
      (hr : restriction s.cfg s.run t i k.bytes = none)
      (hp : putContent s.cfg s.run i e = .ok (c, d)) :
      Act s ((s.setCfg c).setRun (Run.written s.cfg c s.run t i))
  | clear {s : State} (t : Table) (hg : s.run.gw = .unconfigured) :
      Act s ((s.setCfg (clearTable s.cfg t)).setRun
        (if t = .param then Run.paramWritten s.cfg (clearTable s.cfg t) s.run else s.run))
  | save {s : State} (hg : s.run.gw = .configured) : Act s (s.setRun (Run.startSave s.cfg s.run))
  | start {s : State} (hg : s.run.gw = .unconfigured) (hv : validate s.cfg = none) :
      Act s (s.setRun (Run.becomeConfigured s.cfg s.run))
  | pageWritten {s : State} (hp : s.run.store.phase = .writing) : Act s s.pageWritten
  | pageLoaded {s : State} (hp : s.run.store.phase = .loading) (bytes : List Byte) :
      Act s (s.pageLoaded bytes)
  | pageVerified {s : State} (hp : s.run.store.phase = .verifying) (bytes : List Byte) :
      Act s (s.setRun (s.run.pageVerified bytes))
  | pageExpired (s : State) : Act s s.pageExpired

/-- Acts one after another. -/
abbrev Course : State → State → Prop := Relation.ReflTransGen Act

theorem Act.course {s t : State} (h : Act s t) : Course s t := .single h

theorem State.Kept.course {s t : State} (h : State.Kept s t) : Course s t := (Act.kept h).course

theorem kept_setRun {s : State} {r : Run} (h : Kept .whole s.run r) : State.Kept s (s.setRun r) :=
  ⟨rfl, rfl, h⟩

theorem Course.setRun {s : State} {r : Run} (h : Kept .whole s.run r) : Course s (s.setRun r) :=
  (kept_setRun h).course

/-- An invariant of every act is one of every course. -/
theorem Course.keeps {P : State → Prop} (hP : ∀ s t, Act s t → P s → P t) {s t : State}
    (h : Course s t) : P s → P t := by
  induction h with
  | refl => exact id
  | tail _ ha ih => exact fun hs => hP _ _ ha (ih hs)

/-! ### The close of an event, ANSWERs and the judging of requests -/

theorem course_settle {s t : State} (h : Course s t) : Course s t.settle :=
  h.trans (Course.setRun ((Kept.refl _).settleEvent _))

theorem course_event {s t : State} {f : State → State} (h : s.event f = .next t)
    (hf : Course s (f s)) : Course s t := by
  cases h
  exact course_settle hf

theorem course_answer {s t : State} (h : Course s t) (req : Req) (v : Verdict) (data : List Byte) :
    Course s (t.answer req v data) :=
  h.trans (Course.setRun ((Kept.refl _).answer _ _ _ _ _))

theorem course_answer_self (s : State) (req : Req) (v : Verdict) (data : List Byte) :
    Course s (s.answer req v data) := course_answer .refl req v data

theorem course_runEvent {s t : State} {f : Tables → Run → Run} (h : s.runEvent f = .next t)
    (hf : Kept .whole s.run (f s.cfg s.run)) : Course s t :=
  course_event h (Course.setRun hf)

theorem course_expiry {s t : State} {b : Bool} {f : Tables → Run → Run}
    (h : s.expiry b f = .next t) (hf : Kept .whole s.run (f s.cfg s.run)) : Course s t := by
  refine course_event h ?_
  split
  · exact Course.setRun hf
  · exact .refl

theorem course_deckFrame (s : State) (req : Req) (k : Tables → Run → Run)
    (hk : Kept .whole s.run (k s.cfg s.run)) : Course s (s.deckFrame req k) := by
  unfold State.deckFrame
  split
  · exact course_answer_self s _ _ _
  · split
    · exact course_answer_self s _ _ _
    · split
      · exact course_answer_self s _ _ _
      · exact Course.setRun hk

/-- A request past steps 1 and 2 of R2 does not meet LOADING. -/
theorem not_loading_of_not_busy {r : Run} (h : ¬busyNow r = true) : r.gw ≠ .loading := by
  intro hg
  simp [busyNow, hg] at h

theorem course_manage (s : State) (req : Req) (m : Management) (k : State → State)
    (hk : s.run.gw ≠ .loading → gated m s.run.gw = none → Course s (k s)) :
    Course s (s.manage req m k) := by
  unfold State.manage
  split
  · exact course_answer_self s _ _ _
  · rename_i hb
    split
    · exact course_answer_self s _ _ _
    · rename_i hg
      exact hk (not_loading_of_not_busy hb) hg

theorem course_formed {α : Type} (s : State) (req : Req) (p : Parse α) (body : List Byte)
    (k : α → State) (hk : ∀ a, Course s (k a)) : Course s (s.formed req p body k) := by
  unfold State.formed
  split
  · exact course_answer_self s _ _ _
  · exact hk _

/-! ### The management requests (R4 to R14) -/

/-- An index read against a table's size is one of its entries. -/
theorem index_lt_entries {t : Table} {k k' : Cursor} {i : Nat}
    (h : (fld (nat2 0 (t.entries - 1)) : Parse Nat) k = .ok (i, k')) : i < t.entries := by
  have he : 0 < t.entries := by cases t <;> decide
  obtain ⟨field, bytes⟩ := k
  match bytes with
  | [] => cases h
  | [_] => cases h
  | hi :: lo :: rest =>
    have hb : (fld (nat2 0 (t.entries - 1)) : Parse Nat) { field, bytes := hi :: lo :: rest }
        = ((need (decide (0 ≤ (word2 hi lo).toNat) && decide ((word2 hi lo).toNat ≤ t.entries - 1))
            (word2 hi lo).toNat : Parse Nat) >>= fun a => next >>= fun _ => pure a)
          { field, bytes := rest } := rfl
    rw [hb] at h
    by_cases hl : (word2 hi lo).toNat ≤ t.entries - 1
    · rw [need_true (by simp [hl])] at h
      have : (word2 hi lo).toNat = i := by
        cases h
        rfl
      omega
    · rw [need, if_neg (by simp [hl])] at h
      cases h

/-- WRITE ENTRY leaves everything as it was, or is one write past its checks (R6). -/
theorem course_doWriteEntry (s : State) (req : Req) (t : Table) (body : List Byte) :
    Course s (s.doWriteEntry req t body) := by
  refine course_answer ?_ _ _ _
  have hs : (s.setCfg s.cfg).setRun s.run = s := rfl
  unfold writeEntry
  split
  · exact .refl
  · rename_i i k hi
    split
    · exact .refl
    · unfold writeAt
      split
      · exact .refl
      · rename_i hr
        split
        · exact .refl
        · rename_i e k' he
          split
          · exact .refl
          · rename_i c d hp
            exact (Act.write (index_lt_entries hi) he hr hp).course

theorem course_doClearTable {s : State} (hg : s.run.gw = .unconfigured) (req : Req)
    (body : List Byte) : Course s (s.doClearTable req body) := by
  refine course_answer ?_ _ _ _
  unfold clearRequest
  split
  · exact .refl
  · rename_i t _
    exact (Act.clear t hg).course

theorem course_doReadStatus (s : State) (req : Req) (body : List Byte) :
    Course s (s.doReadStatus req body) := by
  refine course_formed s _ _ _ _ fun clear => course_answer ?_ _ _ _
  cases clear
  · exact .refl
  · exact Course.setRun ((Kept.refl _).setConsole _ fun h => ⟨h.1, Nat.zero_le _, Nat.zero_le _⟩)

theorem course_doCollect (s : State) (req : Req) (body : List Byte) :
    Course s (s.doCollect req body) :=
  course_formed s _ _ _ _ fun _ => Course.setRun
    (((Kept.refl _).setConsole _ fun h => consoleOk_offerAnswer h _).kickConsole _)

theorem course_doSave {s : State} (hg : s.run.gw = .configured) (req : Req) (body : List Byte) :
    Course s (s.doSave req body) :=
  course_formed s _ _ _ _ fun _ => course_answer (Act.save hg).course _ _ _

theorem course_doStart {s : State} (hg : s.run.gw = .unconfigured) (req : Req) (body : List Byte) :
    Course s (s.doStart req body) := by
  refine course_formed s _ _ _ _ fun _ => ?_
  split
  · exact course_answer_self s _ _ _
  · rename_i hv
    exact course_answer (Act.start hg hv).course _ _ _

theorem course_acceptRestart (s : State) (req : Req) : Course s (s.acceptRestart req) := by
  unfold State.acceptRestart
  dsimp only
  split
  · exact (Act.reset s _ _).course
  · exact Course.setRun (((Kept.refl _).setConsole _ fun h => consoleOk_offerAnswer
      (k := { s.run.console with restartPending := true }) h _).kickConsole _)

theorem course_doRestart (s : State) (req : Req) (body : List Byte) :
    Course s (s.doRestart req body) := by
  refine course_formed s _ _ _ _ fun _ => ?_
  split
  · exact course_answer_self s _ _ _
  · exact course_acceptRestart s req

theorem course_doTrunkHold (s : State) (req : Req) (body : List Byte) :
    Course s (s.doTrunkHold req body) := by
  refine course_formed s _ _ _ _ fun t => ?_
  split
  iterate 2 exact course_answer (Course.setRun ((Kept.refl _).holdTrunk _ t)) _ _ _
  all_goals exact course_answer_self s _ _ _

theorem course_doTrunkRelease (s : State) (req : Req) (body : List Byte) :
    Course s (s.doTrunkRelease req body) := by
  refine course_formed s _ _ _ _ fun t => ?_
  split
  · exact course_answer (Course.setRun ((Kept.refl _).settle _ t)) _ _ _
  all_goals exact course_answer_self s _ _ _

theorem course_doLampTest (s : State) (req : Req) (body : List Byte) :
    Course s (s.doLampTest req body) :=
  course_formed s _ _ _ _ fun _ => course_answer (Course.setRun ((Kept.refl _).modChain _)) _ _ _

theorem course_doSetOutput (s : State) (req : Req) (body : List Byte) :
    Course s (s.doSetOutput req body) :=
  course_formed s _ _ _ _ fun _ =>
    course_answer (Course.setRun ((Kept.refl _).setOutput _ _ _)) _ _ _

theorem course_doWriteAny (s : State) (req : Req) (body : List Byte) :
    Course s (s.doWriteAny req body) := by
  unfold State.doWriteAny
  split
  · exact course_answer_self s _ _ _
  · exact course_doWriteEntry s _ _ _

/-- CLEAR TABLE and START get through in UNCONFIGURED alone (R4). -/
theorem unconfigured_of_ungated {m : Management} {gw : GwState} (hm : m = .clearTable ∨ m = .start)
    (hl : gw ≠ .loading) (hg : gated m gw = none) : gw = .unconfigured := by
  cases gw with
  | loading => exact absurd rfl hl
  | unconfigured => rfl
  | configured => obtain rfl | rfl := hm <;> cases hg
  | storing => obtain rfl | rfl := hm <;> cases hg

/-- SAVE CONFIG gets through in CONFIGURED alone (R4). -/
theorem configured_of_ungated {gw : GwState} (hl : gw ≠ .loading)
    (hg : gated .saveConfig gw = none) : gw = .configured := by
  cases gw with
  | loading => exact absurd rfl hl
  | unconfigured => cases hg
  | configured => rfl
  | storing => cases hg

/-- A management request that is listened to and served. -/
theorem course_handle {s : State} {m : Management} (hl : s.run.gw ≠ .loading)
    (hg : gated m s.run.gw = none) (req : Req) (body : List Byte) :
    Course s (s.handle req body m) := by
  cases m with
  | readEntry => exact course_answer_self s _ _ _
  | writeEntry => exact course_doWriteAny s _ _
  | clearTable => exact course_doClearTable (unconfigured_of_ungated (.inl rfl) hl hg) _ _
  | readStatus => exact course_doReadStatus s _ _
  | collectEvents => exact course_doCollect s _ _
  | saveConfig => exact course_doSave (configured_of_ungated hl hg) _ _
  | start => exact course_doStart (unconfigured_of_ungated (.inr rfl) hl hg) _ _
  | restart => exact course_doRestart s _ _
  | trunkHold => exact course_doTrunkHold s _ _
  | trunkRelease => exact course_doTrunkRelease s _ _
  | lampTest => exact course_doLampTest s _ _
  | setOutput => exact course_doSetOutput s _ _

/-! ### Frames and the receiver (R1, R2) -/

theorem course_manageFrame (s : State) (req : Req) (payload : List Byte) :
    Course s (s.manageFrame req payload) := by
  unfold State.manageFrame
  split
  · exact course_answer_self s _ _ _
  · split
    · exact course_answer_self s _ _ _
    · split
      · exact course_answer_self s _ _ _
      · split
        · exact course_answer_self s _ _ _
        · exact course_manage s _ _ _ fun hl hg => course_handle hl hg _ _

theorem course_judgeFrame (s : State) (f : Frame) : Course s (s.judgeFrame f) := by
  unfold State.judgeFrame
  split
  · exact course_manageFrame s _ _
  · split
    · exact course_deckFrame s _ _ ((Kept.refl _).functionFrame _ _ _)
    · split
      · exact course_deckFrame s _ _ ((Kept.refl _).commandFrame _ _ _)
      · split
        · exact course_deckFrame s _ _ ((Kept.refl _).passFrame _ _ _)
        · unfold State.otherFrame
          split <;> exact course_answer_self s _ _ _

theorem course_dropFrame (s : State) : Course s s.dropFrame :=
  Course.setRun ((Kept.refl _).setConsole _ fun h => ⟨h.1, Nat.min_le_left _ _, h.2.2⟩)

theorem course_setRx (s : State) (rx : Rx) : Course s (s.setRx rx) :=
  Course.setRun ((Kept.refl _).setConsoleSame _ rfl rfl rfl)

theorem course_receive (s : State) (b : RxByte) : Course s (s.receive b) := by
  unfold State.receive
  dsimp only
  split
  · exact course_setRx s _
  · exact (course_setRx s _).trans (course_dropFrame _)
  · exact (course_setRx s _).trans (course_judgeFrame _ _)

theorem course_receiveAll (s : State) (bytes : List RxByte) : Course s (s.receiveAll bytes) := by
  induction bytes generalizing s with
  | nil => exact .refl
  | cons b bytes ih => exact (course_receive s b).trans (ih _)

theorem course_byteGap (s : State) : Course s s.byteGap := by
  unfold State.byteGap
  split
  · exact (course_setRx s _).trans (course_dropFrame _)
  · exact .refl

theorem course_arrive (s : State) (f : Frame) (k : State → State) (hk : Course s (k s)) :
    Course s (s.arrive f k) := by
  unfold State.arrive
  split
  · exact course_dropFrame s
  · split
    · exact hk
    · exact course_receiveAll s _

theorem course_managed {s t : State} {src : Word} {tag code : Byte} {body : List Byte}
    {m : Management} {k : State → State} (h : s.managed src tag code body m k = .next t)
    (hk : s.run.gw ≠ .loading → gated m s.run.gw = none → Course s (k s)) : Course s t :=
  course_event h (course_arrive s _ _ (course_manage s _ _ _ hk))

theorem course_writing {s u : State} {src : Word} {tag : Byte} {t : Table} {body : List Byte}
    (h : s.writing src tag t body = .next u) : Course s u :=
  course_event h (course_arrive s _ _ (course_manage s _ _ _ fun _ _ => course_doWriteEntry s _ _ _))

theorem course_requested {s t : State} {src dst : Word} {tag code : Byte} {body : List Byte}
    (h : s.requested src dst tag code body = .next t) : Course s t :=
  course_event h (course_arrive s _ _ (course_deckFrame s _ _ ((Kept.refl _).functionFrame _ _ _)))

/-! ### The transmitter and the store -/

theorem course_transmissionEnds (s : State) : Course s s.transmissionEnds := by
  unfold State.transmissionEnds
  split
  · exact .refl
  · have hk : Course s (s.setRun (s.run.setConsole { s.run.console with tx := none, txTimer := none })) :=
      Course.setRun ((Kept.refl _).setConsoleSame _ rfl rfl rfl)
    dsimp only
    split
    · exact hk.trans (Act.reset _ _ _).course
    · exact hk.trans (Course.setRun ((Kept.refl _).startTx _))

theorem course_pageEvent {s t : State} {f : State → State} (h : s.pageEvent f = .next t)
    (hf : Course s (f s)) : Course s t := by
  unfold State.pageEvent at h
  split at h
  · exact course_event h hf
  · cases h

theorem course_pageWriteDone {s t : State} (h : execPageWriteDone s = .next t) : Course s t := by
  unfold execPageWriteDone at h
  split at h
  · rename_i hp
    exact course_pageEvent h (Act.pageWritten hp).course
  all_goals exact course_event h .refl

theorem course_pageReadDone {s t : State} {b : Option (List Byte)}
    (h : execPageReadDone b s = .next t) : Course s t := by
  unfold execPageReadDone at h
  dsimp only at h
  split at h
  · rename_i hp
    exact course_pageEvent h (Act.pageLoaded hp _).course
  · rename_i hp
    exact course_pageEvent h (Act.pageVerified hp _).course
  all_goals exact course_event h .refl

theorem course_pageTimerExpiry {s t : State} (h : execPageTimerExpiry s = .next t) :
    Course s t := by
  refine course_event h ?_
  split
  · exact (Act.pageExpired s).course
  · exact .refl

/-! ### Every command, and the step -/

/-- Every command that completes is a course of acts. -/
theorem course_exec {i : Instr} {s t : State} (h : exec i s = .next t) : Course s t := by
  have e := Kept.refl (F := .whole) s.run
  cases i with
  | powerOn raw =>
    dsimp only [exec, execPowerOn] at h
    exact course_event h (Act.reset s _ _).course
  | resetPin =>
    dsimp only [exec, execResetPin] at h
    exact course_event h (Act.reset s _ _).course
  | consoleFrameDropped bytes =>
    dsimp only [exec, execConsoleFrameDropped] at h
    exact course_event h (course_receiveAll s _)
  | consoleByteGapExpiry bytes =>
    dsimp only [exec, execConsoleByteGapExpiry] at h
    exact course_event h ((course_receiveAll s _).trans (course_byteGap _))
  | invalidKindFrame kind src dst tag payload =>
    dsimp only [exec, execInvalidKindFrame] at h
    exact course_event h (course_arrive s _ _ (course_judgeFrame s _))
  | readEntry src tag body => exact course_managed h fun _ _ => course_answer_self s _ _ _
  | writeEntryRoute src tag body => exact course_writing h
  | writeEntryPermit src tag body => exact course_writing h
  | writeEntryReport src tag body => exact course_writing h
  | writeEntryTrunk src tag body => exact course_writing h
  | writeEntryNode src tag body => exact course_writing h
  | writeEntryAxis src tag body => exact course_writing h
  | writeEntryProfile src tag body => exact course_writing h
  | writeEntryZone src tag body => exact course_writing h
  | writeEntryDoor src tag body => exact course_writing h
  | writeEntryArea src tag body => exact course_writing h
  | writeEntryChannel src tag body => exact course_writing h
  | writeEntryMonitor src tag body => exact course_writing h
  | writeEntryMstate src tag body => exact course_writing h
  | writeEntryLamp src tag body => exact course_writing h
  | writeEntryLine src tag body => exact course_writing h
  | writeEntryParam src tag body => exact course_writing h
  | clearTable src tag body =>
    exact course_managed h fun hl hg =>
      course_doClearTable (unconfigured_of_ungated (.inl rfl) hl hg) _ _
  | readStatus src tag body => exact course_managed h fun _ _ => course_doReadStatus s _ _
  | collectEvents src tag body => exact course_managed h fun _ _ => course_doCollect s _ _
  | saveConfig src tag body =>
    exact course_managed h fun hl hg => course_doSave (configured_of_ungated hl hg) _ _
  | start src tag body =>
    exact course_managed h fun hl hg => course_doStart (unconfigured_of_ungated (.inr rfl) hl hg) _ _
  | restart src tag body => exact course_managed h fun _ _ => course_doRestart s _ _
  | trunkHold src tag body => exact course_managed h fun _ _ => course_doTrunkHold s _ _
  | trunkRelease src tag body => exact course_managed h fun _ _ => course_doTrunkRelease s _ _
  | lampTest src tag body => exact course_managed h fun _ _ => course_doLampTest s _ _
  | setOutput src tag body => exact course_managed h fun _ _ => course_doSetOutput s _ _
  | transmissionEnd =>
    dsimp only [exec, execTransmissionEnd] at h
    exact course_event h (course_transmissionEnds s)
  | beaconExpiry =>
    dsimp only [exec, execBeaconExpiry] at h
    exact course_runEvent h (e.beaconExpired _)
  | nodeCommand src dst tag payload =>
    dsimp only [exec, execNodeCommand] at h
    exact course_event h (course_arrive s _ _ (course_deckFrame s _ _ (e.commandFrame _ _ _)))
  | passRequest src dst tag payload =>
    dsimp only [exec, execPassRequest] at h
    exact course_event h (course_arrive s _ _ (course_deckFrame s _ _ (e.passFrame _ _ _)))
  | reportIntervalExpiry node =>
    dsimp only [exec, execReportIntervalExpiry] at h
    exact course_expiry h (e.reportIntervalExpired _ _)
  | goodReply trunk code payload =>
    dsimp only [exec, execGoodReply] at h
    exact course_runEvent h (e.whenAwaiting _ _ fun _ => e.takeReply _ _ _ _ _)
  | corruptReply trunk bytes =>
    dsimp only [exec, execCorruptReply] at h
    exact course_runEvent h (e.whenAwaiting _ _ fun _ => e.takeBytes _ _ _ _)
  | replyWindowExpiry trunk =>
    dsimp only [exec, execReplyWindowExpiry] at h
    exact course_runEvent h (e.whenAwaiting _ _ fun _ => e.takeMiss _ _ _)
  | replyGapExpiry trunk =>
    dsimp only [exec, execReplyGapExpiry] at h
    exact course_runEvent h (e.whenAwaiting _ _ fun _ => e.takeMiss _ _ _)
  | turnaroundGapExpiry trunk =>
    dsimp only [exec, execTurnaroundGapExpiry] at h
    exact course_runEvent h (e.gapEnded _ _)
  | roundIntervalExpiry trunk =>
    dsimp only [exec, execRoundIntervalExpiry] at h
    exact course_runEvent h (e.roundEnded _ _)
  | settleExpiry trunk =>
    dsimp only [exec, execSettleExpiry] at h
    exact course_expiry h (e.settled _ _)
  | move src dst tag body => exact course_requested h
  | stop src dst tag body => exact course_requested h
  | keep src dst tag body => exact course_requested h
  | release src dst tag body => exact course_requested h
  | take src dst tag body => exact course_requested h
  | grantLocal src dst tag body => exact course_requested h
  | derate src dst tag body => exact course_requested h
  | planStart src dst tag body => exact course_requested h
  | planKeep src dst tag body => exact course_requested h
  | planCancel src dst tag body => exact course_requested h
  | keepaliveExpiry axis =>
    dsimp only [exec, execKeepaliveExpiry] at h
    exact course_expiry h (e.keepaliveExpired _ _)
  | lockTimerExpiry axis =>
    dsimp only [exec, execLockTimerExpiry] at h
    exact course_expiry h (e.lockExpired _ _)
  | controlPeriodExpiry axis =>
    dsimp only [exec, execControlPeriodExpiry] at h
    exact course_expiry h (e.controlExpired _ _)
  | zoneClose src dst tag body => exact course_requested h
  | reopen src dst tag body => exact course_requested h
  | override src dst tag body => exact course_requested h
  | doorOpenRequest src dst tag body => exact course_requested h
  | doorCloseRequest src dst tag body => exact course_requested h
  | warningExpiry zone =>
    dsimp only [exec, execWarningExpiry] at h
    exact course_expiry h (e.warningExpired _ _)
  | retryExpiry door =>
    dsimp only [exec, execRetryExpiry] at h
    exact course_expiry h (e.retryExpired _ _)
  | moveTimerExpiry door =>
    dsimp only [exec, execMoveTimerExpiry] at h
    exact course_expiry h (e.moveTimerExpired _)
  | transitExpiry door =>
    dsimp only [exec, execTransitExpiry] at h
    exact course_expiry h (e.transitExpired _ _)
  | placeCall src dst tag body => exact course_requested h
  | withdrawCall src dst tag body => exact course_requested h
  | playTimerExpiry area =>
    dsimp only [exec, execPlayTimerExpiry] at h
    exact course_expiry h (e.playTimeout _ _)
  | gapExpiry callId =>
    dsimp only [exec, execGapExpiry] at h
    exact course_expiry h (e.beginPass _ _)
  | enable src dst tag body => exact course_requested h
  | disable src dst tag body => exact course_requested h
  | monitorRestart src dst tag body => exact course_requested h
  | staleTimerExpiry channel =>
    dsimp only [exec, execStaleTimerExpiry] at h
    exact course_expiry h (e.turnStale _ _)
  | holdTimerExpiry monitor =>
    dsimp only [exec, execHoldTimerExpiry] at h
    exact course_expiry h (e.enterState _ _ _)
  | timeoutTimerExpiry monitor =>
    dsimp only [exec, execTimeoutTimerExpiry] at h
    exact course_expiry h (e.enterState _ _ _)
  | rawLevelChange line active =>
    dsimp only [exec, execRawLevelChange] at h
    exact course_runEvent h (e.rawChanged _ _ _)
  | lineFilterExpiry line =>
    dsimp only [exec, execLineFilterExpiry] at h
    exact course_expiry h (e.filterExpired _ _)
  | readLines src dst tag body => exact course_requested h
  | linesSetOutput src dst tag body => exact course_requested h
  | flashPhaseExpiry gen =>
    dsimp only [exec, execFlashPhaseExpiry] at h
    exact course_expiry h (e.modChain _)
  | shiftEnd =>
    dsimp only [exec, execShiftEnd] at h
    exact course_expiry h (e.modChain _)
  | lampTestExpiry =>
    dsimp only [exec, execLampTestExpiry] at h
    exact course_expiry h ((e.modChain _).restartFlash _)
  | pageWriteDone => exact course_pageWriteDone h
  | pageReadDone returned => exact course_pageReadDone h
  | pageTimerExpiry => exact course_pageTimerExpiry h
  | replyWindowOpens trunk =>
    dsimp only [exec, execReplyWindowOpens] at h
    exact course_runEvent h (e.windowOpens _ _)

/-- Every step that completes is a course of acts. -/
theorem course_step {s t : State} (h : step s = .next t) : Course s t := by
  unfold step at h
  split at h
  · unfold idle at h
    split at h
    · exact (Course.setRun ((Kept.refl _).setFreeCount _)).trans (course_exec h)
    · cases h
      exact (Act.tick s).course
  · rename_i i rest _
    have hk : State.Kept s (s.setPending rest) := ⟨rfl, rfl, Kept.refl _⟩
    exact hk.course.trans (course_exec h)

/-- An invariant of every act is one of every step. -/
theorem step_keeps {P : State → Prop} (hP : ∀ s t, Act s t → P s → P t) {s t : State}
    (h : step s = .next t) : P s → P t :=
  (course_step h).keeps hP

end Sys2Proof.Machine
end

