-- ==== Sys2Proof/Proofs/Bounds.lean ====
section
/-! PROOFS. Every act keeps the event queue in order, the console port and the command queues in their
bounds and the external memory in its canonical form; with it every step does (O56). -/

namespace Sys2Proof.Machine

/-- What every act keeps of the bounds. -/
structure Bounded (s t : State) : Prop where
  events : EventsInOrder s → EventsInOrder t
  console : ConsoleInBounds s → ConsoleInBounds t
  queues : QueuesInBounds s → QueuesInBounds t
  memory : MemoryCanonical s → MemoryCanonical t

/-- The same for the runtime alone. -/
structure RunBounded (r r' : Run) : Prop where
  events : EventsOk r.events → EventsOk r'.events
  console : ConsoleOk r.console → ConsoleOk r'.console
  queues : QueuesOk r → QueuesOk r'

theorem Kept.bounded {r r' : Run} (h : Kept .whole r r') : RunBounded r r' := ⟨h.events, h.console, h.queues⟩

theorem RunBounded.trans {a b c : Run} (h : RunBounded a b) (h' : RunBounded b c) : RunBounded a c :=
  ⟨h'.events ∘ h.events, h'.console ∘ h.console, h'.queues ∘ h.queues⟩

theorem runBounded_setGw (r : Run) (x : GwState) : RunBounded r (r.setGw x) := ⟨id, id, id⟩

theorem runBounded_setStore (r : Run) (x : Store) : RunBounded r (r.setStore x) := ⟨id, id, id⟩

theorem runBounded_becomeConfigured (c : Tables) (r : Run) :
    RunBounded r (Run.becomeConfigured c r) :=
  (runBounded_setGw r .configured).trans (Kept.becomeConfigured c (Kept.refl _)).bounded

theorem runBounded_loadingEnds (c : Tables) (r : Run) (outcome : Nat) (gw : GwState) :
    RunBounded r (Run.loadingEnds c r outcome gw) :=
  ⟨fun h => eventsOk_push h _ _ _ _, id, id⟩

theorem runBounded_endSave (r : Run) (kind : EventKind) (detail : Word) :
    RunBounded r (r.endSave kind detail) :=
  ((runBounded_setStore r r.store.idle).trans (runBounded_setGw _ .configured)).trans
    ((Kept.refl _).raise kind 0 detail).bounded

theorem runBounded_pageVerified (r : Run) (bytes : List Byte) :
    RunBounded r (r.pageVerified bytes) := by
  unfold Run.pageVerified
  dsimp only
  split
  · exact runBounded_endSave r _ _
  · split
    · exact runBounded_setStore r _
    · exact runBounded_endSave r _ _

/-- One microsecond changes timers and the clock only. -/
theorem runBounded_tick (r : Run) : RunBounded r r.tick := by
  refine ⟨id, id, fun h t => ?_⟩
  have : r.tick.trunks[t] = r.trunks[t].tick := by simp [Run.tick]
  rw [this]
  exact h t

theorem runBounded_reset (r : Run) (cause : ResetCause) (raw : BitVec 14) (shown : List Bool)
    (a b : Nat) : RunBounded r (Run.reset cause raw shown a b) := by
  refine ⟨fun _ => ⟨Nat.zero_le _, Nat.zero_le _, 0, rfl⟩,
    fun _ => ⟨Nat.zero_le _, Nat.zero_le _, Nat.zero_le _⟩, fun _ t => ?_⟩
  have : (Run.reset cause raw shown a b).trunks[t] = resetTrunk := by simp [Run.reset]
  rw [this]
  exact Nat.zero_le _

/-- A bounded change of the runtime, with any change of the tables. -/
theorem RunBounded.state {s t : State} (h : RunBounded s.run t.run) (hm : t.extMem = s.extMem) :
    Bounded s t :=
  ⟨h.events, h.console, h.queues, by simp only [MemoryCanonical, hm]; exact id⟩

theorem bounded_endLoading (s : State) (k : LoadResult) : Bounded s (s.endLoading k) := by
  cases k with
  | good c =>
    exact ((runBounded_loadingEnds c s.run 0 .configured).trans
      (runBounded_becomeConfigured c _)).state (t := s.endLoading (.good c)) rfl
  | unreadable =>
    exact (runBounded_loadingEnds _ s.run 1 .unconfigured).state (t := s.endLoading .unreadable) rfl
  | refused =>
    exact (runBounded_loadingEnds _ s.run 2 .unconfigured).state (t := s.endLoading .refused) rfl

theorem bounded_pageLoaded (s : State) (bytes : List Byte) : Bounded s (s.pageLoaded bytes) := by
  unfold State.pageLoaded
  dsimp only
  split
  · exact bounded_endLoading s _
  · split
    · exact ⟨id, id, id, id⟩
    · exact bounded_endLoading s _

theorem bounded_pageExpired (s : State) : Bounded s s.pageExpired := by
  unfold State.pageExpired
  split
  · exact (Kept.refl s.run).bounded.state rfl
  · exact bounded_endLoading s _
  · have hr := runBounded_endSave s.run .storeFailed (det 2)
    exact ⟨hr.events, hr.console, hr.queues, fun h => tearPage_wf _ h⟩
  · exact (runBounded_endSave s.run _ _).state rfl

/-- A reset leaves the memory canonical, a torn page in it or not (R181). -/
theorem memAfterReset_wf {s : State} (h : s.extMem.wf = true) : s.memAfterReset.1.wf = true := by
  unfold State.memAfterReset
  dsimp only
  split
  · split
    · exact tearPage_wf _ h
    · exact write_wf 0 (by decide) (write_wf 0 (by decide) (tearPage_wf _ h))
  · exact h

theorem bounded_act {s t : State} (h : Act s t) : Bounded s t := by
  have e := Kept.refl (F := .whole) s.run
  cases h with
  | kept h => exact h.run.bounded.state h.mem
  | tick => exact (runBounded_tick s.run).state rfl
  | reset cause raw =>
    have hr := runBounded_reset s.run cause raw s.run.chain.shown s.run.serial s.run.freeCount
    exact ⟨hr.events, hr.console, hr.queues, fun h => memAfterReset_wf h⟩
  | write hi he hr hp => exact (e.written _ _ _ _).bounded.state rfl
  | clear t hg => exact ((e.paramWritten _ _).ite e).bounded.state rfl
  | save hg =>
    exact ((runBounded_setGw s.run .storing).trans (runBounded_setStore _ _)).state rfl
  | start hg hv => exact (runBounded_becomeConfigured s.cfg s.run).state rfl
  | pageWritten hp =>
    have hr := runBounded_setStore s.run s.run.store.afterWrite
    exact ⟨hr.events, hr.console, hr.queues, fun h => writePage_wf _ _ h⟩
  | pageLoaded hp bytes => exact bounded_pageLoaded s bytes
  | pageVerified hp bytes => exact (runBounded_pageVerified s.run bytes).state rfl
  | pageExpired => exact bounded_pageExpired s

/-- Settles O56: each bound is an invariant of every act, and a step is a course of acts. -/
theorem stepsKeepEventsAndQueuesInBounds : Obligations.StepsKeepEventsAndQueuesInBounds :=
  ⟨fun _ _ hs h => step_keeps (fun _ _ ha => (bounded_act ha).events) h hs,
    fun _ _ h => ⟨step_keeps (fun _ _ ha => (bounded_act ha).console) h,
      step_keeps (fun _ _ ha => (bounded_act ha).queues) h,
      step_keeps (fun _ _ ha => (bounded_act ha).memory) h⟩⟩

end Sys2Proof.Machine
end

