-- ==== Sys2Proof/Proofs/Yields.lean ====
section
/-! PROOFS. What the readers of fields let through: the converse of the laws of reading. A content that
WRITE ENTRY's reader accepts has every field in its range, and an empty one is its table's reset
content. -/

namespace Sys2Proof.Machine

/-- Whatever the reader `p` reads satisfies `P`. -/
def Yields {α : Type} (p : Parse α) (P : α → Prop) : Prop :=
  ∀ (k k' : Cursor) (a : α), p k = .ok (a, k') → P a

section
variable {α β : Type} {P : α → Prop} {Q : β → Prop}

theorem Yields.imp {p : Parse α} {P' : α → Prop} (h : Yields p P) (hi : ∀ a, P a → P' a) :
    Yields p P' := fun k k' a e => hi a (h k k' a e)

theorem yields_any (p : Parse α) : Yields p fun _ => True := fun _ _ _ _ => trivial

theorem yields_pure {a : α} (h : P a) : Yields (pure a) P := by
  intro k k' x e
  cases e
  exact h

theorem yields_bad : Yields (bad : Parse α) P := by
  intro k k' x e
  cases e

/-- The steps of a chain that has read a value. -/
theorem bind_eq_ok {p : Parse α} {f : α → Parse β} {k k' : Cursor} {b : β}
    (h : (p >>= f) k = .ok (b, k')) : ∃ a k1, p k = .ok (a, k1) ∧ f a k1 = .ok (b, k') := by
  change Except.bind (p k) (fun x => f x.1 x.2) = _ at h
  cases hp : p k with
  | error n => rw [hp] at h; cases h
  | ok x => rw [hp] at h; exact ⟨x.1, x.2, rfl, h⟩

theorem Yields.bind {p : Parse α} {f : α → Parse β} (h : Yields p P)
    (hf : ∀ a, P a → Yields (f a) Q) : Yields (p >>= f) Q := by
  intro k k' b e
  obtain ⟨a, k1, ha, hb⟩ := bind_eq_ok e
  exact hf a (h _ _ _ ha) _ _ _ hb

/-- A step whose value no later step needs a bound of. -/
theorem yields_then {p : Parse α} {f : α → Parse β} (hf : ∀ a, Yields (f a) Q) :
    Yields (p >>= f) Q := (yields_any p).bind fun a _ => hf a

theorem Yields.map {p : Parse α} (f : α → β) (h : Yields p P) (hf : ∀ a, P a → Q (f a)) :
    Yields (f <$> p) Q := by
  rw [map_eq_pure_bind]
  exact h.bind fun a ha => yields_pure (hf a ha)

theorem Yields.fld {p : Parse α} (h : Yields p P) : Yields (fld p) P :=
  h.bind fun _ ha => yields_then fun _ => yields_pure ha

theorem yields_ite {b : Prop} [Decidable b] {p p' : Parse α} (h : b → Yields p P)
    (h' : ¬b → Yields p' P) : Yields (if b then p else p') P := by
  by_cases hb : b
  · rw [if_pos hb]; exact h hb
  · rw [if_neg hb]; exact h' hb

theorem yields_need (ok : Bool) (a : α) : Yields (need ok a) fun x => ok = true ∧ x = a :=
  yields_ite (fun h => yields_pure ⟨h, rfl⟩) fun _ => yields_bad

/-- A value read and then held to a condition. -/
theorem Yields.need {p : Parse α} (h : Yields p P) (ok : α → Bool) :
    Yields (p >>= fun a => need (ok a) a) fun a => P a ∧ ok a = true :=
  h.bind fun a ha => (yields_need (ok a) a).imp fun x hx => by
    obtain ⟨ho, rfl⟩ := hx
    exact ⟨ha, ho⟩
end

/-! ### Numbers, lists and absent fields -/

theorem yields_num1 : Yields num1 (· < 256) :=
  yields_then fun b => yields_pure b.isLt

theorem yields_nat1 (lo hi : Nat) : Yields (nat1 lo hi) fun n => within lo hi n = true :=
  yields_then fun n => (yields_need _ n).imp fun x hx => by obtain ⟨h, rfl⟩ := hx; exact h

theorem yields_nat2 (lo hi : Nat) : Yields (nat2 lo hi) fun n => within lo hi n = true :=
  yields_then fun w => (yields_need _ w.toNat).imp fun x hx => by obtain ⟨h, rfl⟩ := hx; exact h

theorem yields_sint2 (lo hi : Int) : Yields (sint2 lo hi) fun z => withinInt lo hi z = true :=
  yields_then fun w => (yields_need _ w.toInt).imp fun x hx => by obtain ⟨h, rfl⟩ := hx; exact h

theorem yields_station : Yields station fun w => stationFits w = true :=
  yields_then fun w => (yields_need _ w).imp fun x hx => by obtain ⟨h, rfl⟩ := hx; exact h

theorem yields_many {α : Type} {P : α → Prop} {p : Parse α} (h : Yields p P) (n : Nat) :
    Yields (many p n) fun l => l.length = n ∧ ∀ a ∈ l, P a := by
  induction n with
  | zero => exact yields_pure ⟨rfl, fun _ ha => by cases ha⟩
  | succ n ih =>
    refine h.bind fun a ha => ih.bind fun l hl => yields_pure ⟨congrArg (· + 1) hl.1, fun b hb => ?_⟩
    cases hb with
    | head => exact ha
    | tail _ hb => exact hl.2 b hb

theorem yields_list1 {α : Type} {P : α → Prop} {p : Parse α} (h : Yields p P) (most : Nat) :
    Yields (list1 most p) fun l => l.length ≤ most ∧ ∀ a ∈ l, P a :=
  (yields_nat1 0 most).bind fun n hn => (yields_many h n).imp fun l hl => by
    simp only [within, Bool.and_eq_true, decide_eq_true_eq] at hn
    exact ⟨hl.1 ▸ hn.2, hl.2⟩

theorem yields_opt {α : Type} {P : α → Prop} {p : Parse α} (h : Yields p P) (width : Nat) :
    Yields (opt width p) fun x => ∀ a, x = some a → P a :=
  yields_then fun b => yields_ite
    (fun _ => h.bind fun a ha => yields_pure fun _ e => by cases e; exact ha)
    (fun _ => yields_then fun _ => yields_pure fun _ e => by cases e)

/-! ### The contents of the sixteen tables -/

theorem yields_contentRoute : Yields contentRoute fun x => routeFits x = true :=
  yields_then fun _ => yields_ite
    (fun _ => yields_then fun _ => yields_then fun _ => yields_pure rfl)
    (fun _ => yields_station.fld.bind fun _ hw =>
      yields_then fun _ => yields_then fun _ => yields_pure hw)

theorem yields_stateSet (n : Nat) : Yields (stateSet n) fun s => statesFit n s = true :=
  yields_then fun b => (yields_need _ b).imp fun x hx => by obtain ⟨h, rfl⟩ := hx; exact h

theorem yields_termOf (subject : Nat) : Yields (termOf subject) fun u => termFits (some u) = true := by
  unfold termOf
  split
  · exact yields_then fun _ => (yields_stateSet 8).bind fun _ hs => yields_pure hs
  · exact yields_then fun _ => (yields_stateSet 5).bind fun _ hs => yields_pure hs
  · exact yields_then fun _ => yields_then fun _ => yields_pure rfl
  · exact yields_then fun _ => (yields_stateSet 8).bind fun _ hs => yields_pure hs
  · exact yields_then fun _ => yields_then fun _ => yields_pure rfl
  · exact yields_then fun _ => (yields_stateSet 8).bind fun _ hs => yields_pure hs
  · exact yields_then fun _ => yields_then fun _ => yields_pure rfl
  · exact yields_bad

theorem yields_term3 : Yields term3 fun u => termFits u = true :=
  yields_then fun _ => yields_ite
    (fun _ => yields_then fun _ => yields_pure rfl)
    (fun _ => (yields_termOf _).bind fun _ hu => yields_pure hu)

/-- The code of a permit entry in use: ANY, or 20h and above. -/
def codeFits : Option Byte → Bool
  | none => true
  | some k => decide (0x20 ≤ k.toNat)

theorem yields_permitCode : Yields permitCode fun k => codeFits k = true :=
  yields_then fun b => yields_ite (fun _ => yields_pure rfl)
    (fun _ => (yields_need _ (some b)).imp fun x hx => by obtain ⟨h, rfl⟩ := hx; exact h)

theorem yields_contentPermit : Yields contentPermit fun x => permitFits x = true := by
  refine yields_then fun _ => yields_ite (fun _ => ?_) (fun _ => yields_pure rfl)
  refine yields_station.fld.bind fun first h1 => ?_
  refine (yields_station.need fun w => decide (first.toNat ≤ w.toNat)).fld.bind fun last h2 => ?_
  refine yields_permitCode.fld.bind fun code h3 => ?_
  refine yields_term3.fld.bind fun term1 h4 => yields_term3.fld.bind fun term2 h5 => ?_
  refine yields_then fun action => yields_pure ?_
  simp only [permitFits, Bool.and_eq_true]
  refine ⟨⟨⟨⟨⟨h1, h2.1⟩, h2.2⟩, ?_⟩, h4⟩, h5⟩
  cases code <;> exact h3

theorem yields_contentReport : Yields contentReport fun x => reportFits x = true := by
  refine yields_then fun mode => ?_
  refine (yields_num1.need fun n => mode != .every || n != 0).fld.bind fun every h1 => ?_
  refine (yields_nat2 0 10000).fld.bind fun interval h2 => yields_pure ?_
  have h0 : within 0 255 every = true := by simp only [within, Bool.and_eq_true, decide_eq_true_eq]; omega
  simp only [reportFits, h0, h1.2, h2, Bool.and_self]

theorem yields_bitRate2 :
    Yields bitRate2 fun n => (n == 125 || n == 250 || n == 500) = true :=
  yields_then fun w => (yields_need _ w.toNat).imp fun x hx => by obtain ⟨h, rfl⟩ := hx; exact h

/-- The content of a TRUNK entry fits, and an unconfigured one is the reset content. -/
theorem yields_contentTrunk :
    Yields contentTrunk fun x => trunkFits x = true ∧ (x.configured = false → x = emptyTrunk) := by
  refine yields_then fun configured => yields_ite (fun hc => ?_) (fun _ => yields_pure ⟨by decide, fun _ => rfl⟩)
  refine yields_bitRate2.fld.bind fun _ h1 => (yields_nat1 1 20).fld.bind fun _ h2 => ?_
  refine (yields_nat2 100 2000).fld.bind fun _ h3 => (yields_nat2 5 500).fld.bind fun _ h4 => ?_
  refine (yields_nat1 2 32).fld.bind fun _ h5 => (yields_nat2 0 2000).fld.bind fun _ h6 => yields_pure ?_
  simp only [trunkFits, hc, h1, h2, h3, h4, h5, h6, if_true, Bool.and_self, true_and, reduceCtorEq,
    false_implies]

theorem yields_prereq5 : Yields prereq5 fun p =>
    withinInt (-32000) 32000 p.min = true ∧ withinInt (-32000) 32000 p.max = true :=
  yields_then fun _ => (yields_sint2 _ _).bind fun _ h1 => (yields_sint2 _ _).bind fun _ h2 =>
    yields_pure ⟨h1, h2⟩

theorem yields_prereqOf (i : Nat) :
    Yields (prereqOf i) fun p => prereqFits p = true ∧ prereqApart i p = true :=
  ((yields_opt yields_prereq5 5).need (prereqApart i)).imp fun p hp => by
    refine ⟨?_, hp.2⟩
    cases p with
    | none => rfl
    | some p =>
      obtain ⟨h1, h2⟩ := hp.1 p rfl
      simp only [prereqFits, h1, h2, Bool.and_self]

theorem yields_motionCall6 : Yields motionCall6 fun k => motionCallFits (some k) = true :=
  (yields_nat2 0 511).bind fun _ h1 => yields_then fun _ => (yields_nat1 0 7).bind fun _ h2 =>
    (yields_nat1 0 60).bind fun _ h3 => yields_pure (by
      simp only [motionCallFits, h1, h2, h3, Bool.and_self])

theorem yields_payload : Yields (opt 1 payload16) fun p => payloadFits p = true :=
  (yields_opt (yields_list1 (yields_any byte) 16) 1).imp fun p hp => by
    cases p with
    | none => rfl
    | some l => simpa only [payloadFits, decide_eq_true_eq] using (hp l rfl).1

/-- The ranges of the fields from an axis's limits to its timing (section 4.1). -/
def AxisMotion.fits (k : AxisMotion) : Bool :=
  withinInt (-32000) 32000 k.posMin && withinInt (-32000) 32000 k.posMax
    && decide (k.posMin < k.posMax)
    && within 1 4000 k.vMax && within 1 4000 k.acc && within 1 255 k.kp
    && within 0 500 k.deadband && within 0 5000 k.creepDistance && within 1 k.vMax k.vCreep
    && within 20 200 k.controlPeriod && within 100 2000 k.keepalive
    && within 1 30 k.lockTimeout && within 0 4000 k.stallVelocity
    && within 0 4000 k.overloadLimit

theorem yields_axisMotion : Yields axisMotion fun k => k.fits = true := by
  refine (yields_sint2 _ _).fld.bind fun posMin h1 => ?_
  refine ((yields_sint2 _ _).need fun p => decide (posMin < p)).fld.bind fun posMax h2 => ?_
  refine (yields_nat2 _ _).fld.bind fun vMax h3 => (yields_nat2 _ _).fld.bind fun acc h4 => ?_
  refine (yields_nat1 _ _).fld.bind fun kp h5 => (yields_nat2 _ _).fld.bind fun deadband h6 => ?_
  refine (yields_nat2 _ _).fld.bind fun creep h7 => (yields_nat2 _ _).fld.bind fun vCreep h8 => ?_
  refine (yields_nat1 _ _).fld.bind fun period h9 => (yields_nat2 _ _).fld.bind fun keep h10 => ?_
  refine (yields_nat1 _ _).fld.bind fun lock h11 => (yields_nat2 _ _).fld.bind fun stall h12 => ?_
  refine (yields_nat2 _ _).fld.bind fun load h13 => yields_pure ?_
  simp only [AxisMotion.fits, h1, h2.1, h2.2, h3, h4, h5, h6, h7, h8, h9, h10, h11, h12, h13,
    Bool.and_self]

/-- What the fields behind an axis's timing add to a record (section 4.1). -/
def axisRestFits (i : Nat) (x : AxisCfg) : Bool :=
  within 0 4000 x.stageUp && within 0 4000 x.stageDown && decide (x.stageDown < x.stageUp)
    && payloadFits x.lowPayload && payloadFits x.highPayload && prereqFits x.prereq1
    && prereqFits x.prereq2 && prereqApart i x.prereq1 && prereqApart i x.prereq2
    && motionCallFits x.motionCall

theorem yields_axisRest (i : Nat) (x : AxisCfg) : Yields (axisRest i x) fun y =>
    axisRestFits i y = true ∧ y = { x with
      haltMask := y.haltMask, noteMask := y.noteMask, stageUp := y.stageUp, stageDown := y.stageDown
      lowPayload := y.lowPayload, highPayload := y.highPayload, prereq1 := y.prereq1
      prereq2 := y.prereq2, motionCall := y.motionCall } := by
  refine yields_then fun _ => yields_then fun _ => (yields_nat2 _ _).fld.bind fun up h1 => ?_
  refine ((yields_nat2 _ _).need fun d => decide (d < up)).fld.bind fun down h2 => ?_
  refine yields_payload.fld.bind fun low h3 => yields_payload.fld.bind fun high h4 => ?_
  refine (yields_prereqOf i).fld.bind fun p1 h5 => (yields_prereqOf i).fld.bind fun p2 h6 => ?_
  refine (yields_opt yields_motionCall6 6).fld.bind fun call h7 => yields_pure ⟨?_, rfl⟩
  have h7' : motionCallFits call = true := by
    cases call with
    | none => rfl
    | some k => exact h7 k rfl
  simp only [axisRestFits, h1, h2.1, h2.2, h3, h4, h5.1, h5.2, h6.1, h6.2, h7', Bool.and_self]

theorem yields_contentAxis (i : Nat) : Yields (contentAxis i) fun x =>
    axisFits i x = true ∧ (x.configured = false → x = emptyAxis) := by
  refine yields_then fun configured => yields_ite (fun hc => ?_) (fun _ => yields_pure ⟨rfl, fun _ => rfl⟩)
  refine yields_then fun drive => ?_
  refine ((yields_any _).need fun p => p != some drive).fld.bind fun panel hp => ?_
  refine yields_then fun zone => yields_axisMotion.bind fun k hk => ?_
  refine (yields_axisRest i _).imp fun y hy => ?_
  obtain ⟨hr, he⟩ := hy
  simp only [AxisMotion.fits, Bool.and_eq_true] at hk
  simp only [axisRestFits, Bool.and_eq_true] at hr
  have hpanel := hp.2
  rw [he]
  refine ⟨?_, fun h => by rw [hc] at h; cases h⟩
  simp only [axisFits, hc, if_true, Bool.and_eq_true]
  tauto

theorem yields_contentProfile : Yields contentProfile fun x => profileFits x = true :=
  yields_then fun used => (yields_sint2 _ _).fld.bind fun _ h1 => (yields_nat2 _ _).fld.bind fun _ h2 =>
    yields_pure (by cases used <;> simp [profileFits, h1, h2])

theorem yields_contentZone : Yields contentZone fun x => zoneFits x = true := by
  refine (yields_nat1 _ _).fld.bind fun _ h1 => (yields_nat1 _ _).fld.bind fun _ h2 => ?_
  refine (yields_nat2 _ _).fld.bind fun _ h3 => (yields_nat2 _ _).fld.bind fun _ h4 => ?_
  refine yields_then fun _ => (yields_nat1 _ _).fld.bind fun _ h5 => yields_pure ?_
  simp only [zoneFits, h1, h2, h3, h4, h5, Bool.and_self]

theorem yields_contentDoor :
    Yields contentDoor fun x => doorFits x = true ∧ (x.configured = false → x = emptyDoor) := by
  refine yields_then fun configured => yields_ite (fun hc => ?_) (fun _ => yields_pure ⟨by decide, fun _ => rfl⟩)
  refine yields_then fun _ => yields_then fun zone1 => ?_
  refine ((yields_any _).need fun z => z != some zone1).fld.bind fun _ h1 => ?_
  refine (yields_nat1 _ _).fld.bind fun _ h2 => (yields_nat1 _ _).fld.bind fun _ h3 => ?_
  refine (yields_nat1 _ _).fld.bind fun _ h4 => (yields_nat1 _ _).fld.bind fun _ h5 => ?_
  refine yields_then fun _ => yields_pure ?_
  simp only [doorFits, hc, h1.2, h2, h3, h4, h5, if_true, Bool.and_self, true_and, reduceCtorEq,
    false_implies]

theorem yields_contentArea : Yields contentArea fun l => areaFits l = true :=
  ((yields_list1 (yields_any node2) 4).need noTwice).fld.imp fun l hl => by
    simp only [areaFits, hl.1.1, hl.2, decide_true, Bool.and_self]

theorem yields_contentChannel :
    Yields contentChannel fun x => channelFits x = true ∧ (x.configured = false → x = emptyChannel) := by
  refine yields_then fun configured => yields_ite (fun hc => ?_) (fun _ => yields_pure ⟨by decide, fun _ => rfl⟩)
  refine yields_then fun _ => (yields_nat1 _ _).fld.bind fun _ h1 => ?_
  refine (yields_nat1 _ _).fld.bind fun _ h2 => yields_then fun _ => ?_
  refine (yields_nat2 _ _).fld.bind fun _ h3 => yields_pure ?_
  simp only [channelFits, hc, h1, h2, h3, if_true, Bool.and_self, true_and, reduceCtorEq,
    false_implies]

theorem yields_contentMonitor :
    Yields contentMonitor fun x => monitorFits x = true ∧ (x.configured = false → x = emptyMonitor) :=
  yields_then fun configured => yields_ite
    (fun hc => yields_then fun _ => yields_pure (by simp [monitorFits, hc]))
    (fun _ => yields_pure ⟨by decide, fun _ => rfl⟩)

theorem yields_actionOf (k : Nat) : Yields (actionOf k) fun a => actionFits a = true := by
  unfold actionOf
  split
  · exact yields_pure rfl
  · refine yields_num1.bind fun n hn => yields_pure ?_
    simp only [actionFits, within, Bool.and_eq_true, decide_eq_true_eq]
    omega
  · refine (yields_nat2 _ _).bind fun _ h1 => yields_then fun _ => (yields_nat1 _ _).bind fun _ h2 => ?_
    refine (yields_nat1 _ _).bind fun _ h3 => yields_pure ?_
    simp only [actionFits, h1, h2, h3, Bool.and_self]
  · exact yields_then fun _ => yields_then fun _ => yields_pure rfl
  · refine (yields_nat2 _ _).bind fun _ h1 => yields_then fun _ => (yields_need _ _).imp fun x hx => ?_
    obtain ⟨h2, rfl⟩ := hx
    simp only [actionFits, h1, h2, Bool.and_self]
  · exact yields_then fun _ => yields_then fun _ => yields_pure rfl
  · exact yields_bad

theorem yields_contentMstate :
    Yields contentMstate fun x => mstateFits x = true ∧ (x.inUse = false → x = emptyMstate) := by
  refine yields_then fun inUse => yields_ite (fun hc => ?_) (fun _ => yields_pure ⟨by decide, fun _ => rfl⟩)
  refine yields_then fun _ => yields_then fun _ => (yields_sint2 _ _).fld.bind fun _ h1 => ?_
  refine (yields_nat2 _ _).fld.bind fun _ h2 => yields_then fun _ => ?_
  refine (yields_nat2 _ _).fld.bind fun _ h3 => yields_then fun _ => yields_then fun _ => ?_
  refine (Yields.fld (yields_then yields_actionOf)).bind fun _ h4 => yields_pure ?_
  simp only [mstateFits, hc, h1, h2, h3, h4, if_true, Bool.and_self, true_and, reduceCtorEq,
    false_implies]

theorem yields_stylePair (values : Nat) : Yields (stylePair values) fun p => p.1 < values :=
  yields_then fun v => yields_then fun _ => (yields_need _ _).imp fun x hx => by
    obtain ⟨h, rfl⟩ := hx
    exact of_decide_eq_true h

/-- A LAMP content fits, and one of source NONE is the reset content. -/
theorem yields_contentLamp :
    Yields contentLamp fun x => lampFits x = true ∧ (x.source = .none → x = emptyLamp) := by
  refine yields_then fun _ => yields_then fun source => ?_
  refine ((yields_list1 (yields_stylePair _) 8).need noValueTwice).fld.bind fun styles hs =>
    yields_pure ?_
  obtain ⟨⟨hl, hv⟩, ht⟩ := hs
  by_cases hn : source = .none
  · subst hn
    have : styles = [] := List.eq_nil_iff_forall_not_mem.mpr fun p hp => Nat.not_lt_zero _ (hv p hp)
    subst this
    exact ⟨by decide, fun _ => rfl⟩
  · refine ⟨?_, fun h => absurd h hn⟩
    simp only [lampFits, beq_iff_eq, hn, if_false, hl, ht, decide_true, Bool.true_and, Bool.and_true,
      List.all_eq_true, decide_eq_true_eq]
    exact hv

theorem yields_contentLine (i : Nat) : Yields (contentLine (i == 0)) fun x => lineFits i x = true := by
  have hf : Yields (fld (if (i == 0) = true then byte >>= fun _ => pure 2 else nat1 1 255))
      fun n => lineFits i { filter := n, edge := .none, event := false } = true := by
    refine Yields.fld (yields_ite (fun h => yields_then fun _ => yields_pure ?_) fun h => ?_)
    · simp only [lineFits, if_pos (beq_iff_eq.mp h), BEq.rfl]
    · refine (yields_nat1 1 255).imp fun n hn => ?_
      simp only [lineFits, if_neg (fun e => h (beq_iff_eq.mpr e)), hn]
  exact hf.bind fun _ h1 => yields_then fun _ => yields_then fun _ => yields_pure h1

theorem yields_contentParam : Yields contentParam fun x => paramFits x = true := by
  refine (yields_nat2 _ _).fld.bind fun _ h1 => yields_station.fld.bind fun _ h2 => ?_
  refine yields_then fun _ => (yields_nat1 _ _).fld.bind fun _ h3 => ?_
  refine (yields_nat1 _ _).fld.bind fun _ h4 => (yields_nat2 _ _).fld.bind fun _ h5 => ?_
  refine (yields_nat2 _ _).fld.bind fun _ h6 => (yields_nat1 _ _).fld.bind fun _ h7 => yields_pure ?_
  simp only [paramFits, h1, h2, h3, h4, h5, h6, h7, Bool.and_self]

/-! ### An entry as a WRITE ENTRY or a record carries it -/

/-- The entry is one a WRITE ENTRY can carry, and an empty one has nothing in it. -/
def EntryFits (t : Table) (i : Nat) (e : Entry) : Prop :=
  e.fits t i = true ∧ (e.empty = true → t = .report ∨ getEntry Tables.reset t i = some e)

theorem getEntry_reset_vector {n : Nat} {α : Type} {x : α} {i : Nat} (h : i < n) (f : α → Entry) :
    (Vector.replicate n x)[i]?.map f = some (f x) := by
  simp [h]

/-- What a content's reader accepts is an entry that fits. -/
theorem yields_content (t : Table) (i : Nat) (hi : i < t.entries) :
    Yields (content t i) (EntryFits t i) := by
  cases t with
  | route =>
    refine yields_contentRoute.map _ fun x hx => ⟨by simpa [Entry.fits] using hx, fun he => .inr ?_⟩
    obtain rfl : x = none := by simpa [Entry.empty] using he
    simp [getEntry, Tables.reset]
  | permit =>
    refine yields_contentPermit.map _ fun x hx => ⟨by simpa [Entry.fits] using hx, fun he => .inr ?_⟩
    obtain rfl : x = none := by simpa [Entry.empty] using he
    exact getEntry_reset_vector hi _
  | report => exact yields_contentReport.map _ fun x hx => ⟨by simpa [Entry.fits] using hx, fun _ => .inl rfl⟩
  | trunk =>
    refine yields_contentTrunk.map _ fun x hx => ⟨by simpa [Entry.fits] using hx.1, fun he => .inr ?_⟩
    rw [hx.2 (by simpa [Entry.empty] using he)]
    exact getEntry_reset_vector hi _
  | node =>
    refine (yields_any contentNode).map _ fun x _ => ⟨rfl, fun he => .inr ?_⟩
    obtain rfl : x = none := by simpa [Entry.empty] using he
    exact getEntry_reset_vector hi _
  | axis =>
    refine (yields_contentAxis i).map _ fun x hx => ⟨by simpa [Entry.fits] using hx.1, fun he => .inr ?_⟩
    rw [hx.2 (by simpa [Entry.empty] using he)]
    exact getEntry_reset_vector hi _
  | profile =>
    refine yields_contentProfile.map _ fun x hx => ⟨by simpa [Entry.fits] using hx, fun he => .inr ?_⟩
    obtain rfl : x = none := by simpa [Entry.empty] using he
    exact getEntry_reset_vector hi _
  | zone =>
    refine yields_contentZone.map _ fun x hx => ⟨by simpa [Entry.fits] using hx, fun he => .inr ?_⟩
    obtain rfl : x = emptyZone := by simpa [Entry.empty] using he
    exact getEntry_reset_vector hi _
  | door =>
    refine yields_contentDoor.map _ fun x hx => ⟨by simpa [Entry.fits] using hx.1, fun he => .inr ?_⟩
    rw [hx.2 (by simpa [Entry.empty] using he)]
    exact getEntry_reset_vector hi _
  | area =>
    refine yields_contentArea.map _ fun x hx => ⟨by simpa [Entry.fits] using hx, fun he => .inr ?_⟩
    obtain rfl : x = [] := by simpa [Entry.empty] using he
    exact getEntry_reset_vector hi _
  | channel =>
    refine yields_contentChannel.map _ fun x hx => ⟨by simpa [Entry.fits] using hx.1, fun he => .inr ?_⟩
    rw [hx.2 (by simpa [Entry.empty] using he)]
    exact getEntry_reset_vector hi _
  | monitor =>
    refine yields_contentMonitor.map _ fun x hx => ⟨by simpa [Entry.fits] using hx.1, fun he => .inr ?_⟩
    rw [hx.2 (by simpa [Entry.empty] using he)]
    exact getEntry_reset_vector hi _
  | mstate =>
    refine yields_contentMstate.map _ fun x hx => ⟨by simpa [Entry.fits] using hx.1, fun he => .inr ?_⟩
    rw [hx.2 (by simpa [Entry.empty] using he)]
    exact getEntry_reset_vector hi _
  | lamp =>
    refine yields_contentLamp.map _ fun x hx => ⟨by simpa [Entry.fits] using hx.1, fun he => .inr ?_⟩
    rw [hx.2 (by simpa [Entry.empty] using he)]
    exact getEntry_reset_vector hi _
  | line => exact (yields_contentLine i).map _ fun x hx => ⟨by simpa [Entry.fits] using hx, fun he => by cases he⟩
  | param => exact yields_contentParam.map _ fun x hx => ⟨by simpa [Entry.fits] using hx, fun he => by cases he⟩

/-- The same for the whole content of a WRITE ENTRY. -/
theorem yields_contentForm (t : Table) (i : Nat) (hi : i < t.entries) :
    Yields (contentForm t i) (EntryFits t i) :=
  (yields_content t i hi).bind fun _ he => yields_ite
    (fun _ => yields_then fun _ => yields_pure he) (fun _ => yields_then fun _ => yields_pure he)

end Sys2Proof.Machine
end

