-- ==== Sys2Proof/Proofs/TablesFit.lean ====
section
/-! PROOFS. The tables under a write: what a write that passes its checks leaves in the tables (R6, R19,
R20, R93, R145), entry by entry, and that tables which fit (`TablesFit`) stay so under a write, a CLEAR
TABLE and the taking of records. -/

namespace Sys2Proof.Machine

/-! ### Entries of a table held as a vector -/

section
variable {α : Type} {n i j : Nat}

theorem getElem?_put_same (v : Vector α n) (x : α) (f : α → Entry) (hi : i < n) :
    (v.setIfInBounds i x)[i]?.map f = some (f x) := by
  simp [hi]

theorem getElem?_put_other (v : Vector α n) (x : α) (f : α → Entry) (h : j ≠ i) :
    (v.setIfInBounds i x)[j]?.map f = v[j]?.map f := by
  rw [Vector.getElem?_setIfInBounds_ne (Ne.symm h)]
end

/-! ### The route list (R19, R20) -/

theorem insertRoute_perm (x : Route) (l : List Route) : (insertRoute x l).Perm (x :: l) := by
  induction l with
  | nil => exact .refl _
  | cons y l ih =>
    unfold insertRoute
    split
    · exact .refl _
    · exact (ih.cons y).trans (.swap x y l)

/-- Station order is kept when the new station is none of the list's. -/
theorem insertRoute_sorted {x : Route} {l : List Route}
    (hl : l.Pairwise fun a b => a.station.toNat < b.station.toNat)
    (hx : ∀ y ∈ l, y.station ≠ x.station) :
    (insertRoute x l).Pairwise fun a b => a.station.toNat < b.station.toNat := by
  induction l with
  | nil => exact List.pairwise_singleton _ _
  | cons y l ih =>
    obtain ⟨hy, hl⟩ := List.pairwise_cons.mp hl
    have hne : y.station.toNat ≠ x.station.toNat := fun e =>
      hx y List.mem_cons_self (BitVec.eq_of_toNat_eq e)
    unfold insertRoute
    split
    · rename_i hle
      refine List.pairwise_cons.mpr ⟨fun z hz => ?_, List.pairwise_cons.mpr ⟨hy, hl⟩⟩
      cases hz with
      | head => omega
      | tail _ hz =>
        have := hy z hz
        omega
    · rename_i hlt
      refine List.pairwise_cons.mpr ⟨fun z hz => ?_, ih hl fun z hz => hx z (.tail _ hz)⟩
      cases (insertRoute_perm x l).mem_iff.mp hz with
      | head => omega
      | tail _ hz => exact hy z hz

theorem insertRoute_get {x : Route} {l : List Route} (hx : x ∉ l) :
    (insertRoute x l)[(insertRoute x l).idxOf x]? = some x ∧
      (insertRoute x l).eraseIdx ((insertRoute x l).idxOf x) = l := by
  induction l with
  | nil => simp [insertRoute]
  | cons y l ih =>
    have hy : y ≠ x := fun e => hx (e ▸ List.mem_cons_self)
    unfold insertRoute
    split
    · simp
    · obtain ⟨h1, h2⟩ := ih fun h => hx (.tail _ h)
      rw [List.idxOf_cons_ne _ hy]
      exact ⟨h1, congrArg (y :: ·) h2⟩

/-- What the route list's rules ask of the pairs of its entries: rising stations, no node twice. -/
def RouteOrder (a b : Route) : Prop :=
  a.station.toNat < b.station.toNat ∧ ∀ n, a.target = .node n → b.target ≠ .node n

theorem nodesApart_symm {a b : Route} (h : ∀ n, a.target = .node n → b.target ≠ .node n) (n : NodeId)
    (hb : b.target = .node n) : a.target ≠ .node n := fun ha => h n ha hb

/-- R19's duplicate checks let an entry by exactly when its station and its node are new. -/
theorem routeDuplicate_none {others : List Route} {x : Route} :
    routeDuplicate others x = none ↔ (∀ y ∈ others, y.station ≠ x.station) ∧
      ∀ n, x.target = .node n → ∀ y ∈ others, y.target ≠ .node n := by
  unfold routeDuplicate
  split
  · rename_i h
    obtain ⟨y, hy, e⟩ := List.any_eq_true.mp h
    simp only [reduceCtorEq, false_iff]
    exact fun hc => hc.1 y hy (by simpa using e)
  · rename_i h
    have hs : ∀ y ∈ others, y.station ≠ x.station := by simpa using h
    simp only [and_iff_right hs]
    split <;> rename_i ht <;> simp [ht]

/-- A ROUTE write that passes (R19, R20): the list without the entry it replaces, and the new entry at
its place. -/
theorem putRoute_some {l l' : List Route} {i d : Nat} {x : Route}
    (h : putRoute l i (some x) = .ok (l', d)) :
    routeDuplicate (l.eraseIdx i) x = none ∧ i ≤ l.length ∧ l' = insertRoute x (l.eraseIdx i) ∧
      d = l'.idxOf x := by
  unfold putRoute at h
  dsimp only at h
  split at h
  · cases h
  · rename_i hd
    split at h
    · cases h
    · rename_i hl
      cases h
      exact ⟨hd, Nat.le_of_not_lt hl, rfl, rfl⟩

theorem putRoute_none {l l' : List Route} {i d : Nat} (h : putRoute l i none = .ok (l', d)) :
    i ≤ l.length ∧ l' = l.eraseIdx i ∧ d = i := by
  unfold putRoute at h
  dsimp only at h
  split at h
  · cases h
  · rename_i hl
    cases h
    exact ⟨Nat.le_of_not_lt hl, rfl, rfl⟩

/-- The members of the list behind a ROUTE write: old ones, and the one written. -/
theorem mem_putRoute {l l' : List Route} {i d : Nat} {x : Option Route}
    (h : putRoute l i x = .ok (l', d)) {y : Route} (hy : y ∈ l') : y ∈ l ∨ x = some y := by
  cases x with
  | none =>
    obtain ⟨-, rfl, -⟩ := putRoute_none h
    exact .inl (List.mem_of_mem_eraseIdx hy)
  | some x =>
    obtain ⟨-, -, rfl, -⟩ := putRoute_some h
    cases (insertRoute_perm x _).mem_iff.mp hy with
    | head => exact .inr rfl
    | tail _ hy => exact .inl (List.mem_of_mem_eraseIdx hy)

theorem putRoute_sorted {l l' : List Route} {i d : Nat} {x : Option Route}
    (hl : l.Pairwise fun a b => a.station.toNat < b.station.toNat)
    (h : putRoute l i x = .ok (l', d)) :
    l'.Pairwise fun a b => a.station.toNat < b.station.toNat := by
  have he := hl.sublist (List.eraseIdx_sublist l i)
  cases x with
  | none =>
    obtain ⟨-, rfl, -⟩ := putRoute_none h
    exact he
  | some x =>
    obtain ⟨hd, -, rfl, -⟩ := putRoute_some h
    exact insertRoute_sorted he (routeDuplicate_none.mp hd).1

theorem putRoute_order {l l' : List Route} {i d : Nat} {x : Option Route}
    (hl : l.Pairwise RouteOrder) (h : putRoute l i x = .ok (l', d)) : l'.Pairwise RouteOrder := by
  obtain ⟨hs, hn⟩ := List.pairwise_and_iff.mp hl
  refine List.pairwise_and_iff.mpr ⟨putRoute_sorted hs h, ?_⟩
  have he := hn.sublist (List.eraseIdx_sublist l i)
  cases x with
  | none =>
    obtain ⟨-, rfl, -⟩ := putRoute_none h
    exact he
  | some x =>
    obtain ⟨hd, -, rfl, -⟩ := putRoute_some h
    refine (List.Perm.pairwise_iff (fun h => nodesApart_symm h) (insertRoute_perm x _)).mpr
      (List.pairwise_cons.mpr ⟨fun y hy n hx => (routeDuplicate_none.mp hd).2 n hx y hy, he⟩)

/-- A list of at most 256 stays so: an entry goes in at an index below 256 only. -/
theorem putRoute_length {l l' : List Route} {i d : Nat} {x : Option Route} (hl : l.length ≤ 256)
    (hi : i < 256) (h : putRoute l i x = .ok (l', d)) : l'.length ≤ 256 := by
  have he := List.length_eraseIdx (l := l) (i := i)
  cases x with
  | none =>
    obtain ⟨-, rfl, -⟩ := putRoute_none h
    split at he <;> omega
  | some x =>
    obtain ⟨-, hle, rfl, -⟩ := putRoute_some h
    rw [(insertRoute_perm x _).length_eq, List.length_cons]
    split at he <;> omega

/-! ### What a write puts into the tables (R6 step 3) -/

/-- The table an entry's content belongs to. -/
def Entry.table : Entry → Table
  | .route _ => .route | .permit _ => .permit | .report _ => .report | .trunk _ => .trunk
  | .node _ => .node | .axis _ => .axis | .profile _ => .profile | .zone _ => .zone
  | .door _ => .door | .area _ => .area | .channel _ => .channel | .monitor _ => .monitor
  | .mstate _ => .mstate | .lamp _ => .lamp | .line _ => .line | .param _ => .param

theorem fits_table {e : Entry} {t : Table} {i : Nat} (h : e.fits t i = true) : t = e.table := by
  cases e with
  | node x => exact beq_iff_eq.mp h
  | _ x => exact beq_iff_eq.mp (Bool.and_eq_true _ _ ▸ h : (_ == _) = true ∧ _).1

/-- The tables that a write past its in-table checks leaves, and what those checks found. -/
def Putting (c : Tables) (i : Nat) (c' : Tables) (d : Nat) : Entry → Prop
  | .route x => ∃ l, putRoute c.routes i x = .ok (l, d) ∧ c' = { c with routes := l }
  | .permit x => c' = { c with permits := c.permits.setIfInBounds i x }
  | .report x => c' = { c with reports := c.reports.setIfInBounds i x }
  | .trunk x => c' = { c with trunks := c.trunks.setIfInBounds i x }
  | .node x => c' = { c with nodes := c.nodes.setIfInBounds i x }
  | .axis x => c' = { c with axes := c.axes.setIfInBounds i x }
  | .profile x => profileRules c i x = none ∧ c' = { c with profiles := c.profiles.setIfInBounds i x }
  | .zone x => c' = { c with zones := c.zones.setIfInBounds i x }
  | .door x => c' = { c with doors := c.doors.setIfInBounds i x }
  | .area x => c' = { c with areas := c.areas.setIfInBounds i x }
  | .channel x => (x.configured = true → x.offset + x.width ≤ 16) ∧
      c' = { c with channels := c.channels.setIfInBounds i x }
  | .monitor x => c' = { c with monitors := c.monitors.setIfInBounds i x }
  | .mstate x => c' = { c with mstates := c.mstates.setIfInBounds i x }
  | .lamp x => c' = { c with lamps := c.lamps.setIfInBounds i x }
  | .line x => i < 14 ∧ c' = { c with lines := c.lines.setIfInBounds i x }
  | .param x => c' = { c with param := { x with beaconPeriod := clampBeacon x.beaconPeriod } }

theorem putEntry_ok {c c' : Tables} {i d : Nat} {e : Entry} (h : putEntry c i e = .ok (c', d)) :
    Putting c i c' d e := by
  cases e with
  | route x =>
    dsimp only [putEntry] at h
    split at h
    · rename_i l d' hp
      cases h
      exact ⟨l, hp, rfl⟩
    · cases h
  | profile x =>
    dsimp only [putEntry] at h
    split at h
    · cases h
    · rename_i hr
      cases h
      exact ⟨hr, rfl⟩
  | channel x =>
    dsimp only [putEntry] at h
    split at h
    · cases h
    · rename_i hw
      cases h
      refine ⟨fun hc => ?_, rfl⟩
      simpa [hc] using hw
  | line x =>
    dsimp only [putEntry] at h
    split at h
    · rename_i hi
      cases h
      exact ⟨hi, rfl⟩
    · cases h
  | _ x => cases h; rfl

/-- A write changes no entry of another table. -/
theorem getEntry_put_table {c c' : Tables} {i d : Nat} {e : Entry} (h : Putting c i c' d e)
    {t : Table} (ht : t ≠ e.table) (j : Nat) : getEntry c' t j = getEntry c t j := by
  cases e with
  | route x =>
    obtain ⟨l, -, rfl⟩ := h
    cases t <;> first | rfl | exact absurd rfl ht
  | profile x =>
    obtain ⟨-, rfl⟩ := h
    cases t <;> first | rfl | exact absurd rfl ht
  | channel x =>
    obtain ⟨-, rfl⟩ := h
    cases t <;> first | rfl | exact absurd rfl ht
  | line x =>
    obtain ⟨-, rfl⟩ := h
    cases t <;> first | rfl | exact absurd rfl ht
  | _ x =>
    obtain rfl := h
    cases t <;> first | rfl | exact absurd rfl ht

/-- A write changes no other entry of its own table, ROUTE's list and PARAM apart. -/
theorem getEntry_put_other {c c' : Tables} {i d j : Nat} {e : Entry} (h : Putting c i c' d e)
    (hr : e.table ≠ .route) (hp : e.table ≠ .param) (hj : j ≠ i) :
    getEntry c' e.table j = getEntry c e.table j := by
  cases e with
  | route x => exact absurd rfl hr
  | param x => exact absurd rfl hp
  | profile x => obtain ⟨-, rfl⟩ := h; exact getElem?_put_other _ _ _ hj
  | channel x => obtain ⟨-, rfl⟩ := h; exact getElem?_put_other _ _ _ hj
  | line x => obtain ⟨-, rfl⟩ := h; exact getElem?_put_other _ _ _ hj
  | _ x => obtain rfl := h; exact getElem?_put_other _ _ _ hj

/-- A write puts its content in its own entry, ROUTE's list and PARAM apart. -/
theorem getEntry_put_same {c c' : Tables} {i d : Nat} {e : Entry} (h : Putting c i c' d e)
    (hi : i < e.table.entries) (hr : e.table ≠ .route) (hp : e.table ≠ .param) :
    getEntry c' e.table i = some e := by
  cases e with
  | route x => exact absurd rfl hr
  | param x => exact absurd rfl hp
  | profile x => obtain ⟨-, rfl⟩ := h; exact getElem?_put_same _ _ _ hi
  | channel x => obtain ⟨-, rfl⟩ := h; exact getElem?_put_same _ _ _ hi
  | line x => obtain ⟨hl, rfl⟩ := h; exact getElem?_put_same _ _ _ hl
  | _ x => obtain rfl := h; exact getElem?_put_same _ _ _ hi

/-! ### CLEAR TABLE (R8) -/

theorem getEntry_clearTable_same (c : Tables) (t : Table) (i : Nat) :
    getEntry (clearTable c t) t i = getEntry Tables.reset t i := by
  cases t <;> rfl

theorem getEntry_clearTable_other (c : Tables) {t t' : Table} (h : t' ≠ t) (i : Nat) :
    getEntry (clearTable c t) t' i = getEntry c t' i := by
  cases t <;> cases t' <;> first | rfl | exact absurd rfl h

/-! ### Tables that fit -/

/-- A breakpoint in use lies above the one before it on its axis (R93). -/
def ProfilesRise (v : Vector (Option Breakpoint) 48) : Prop :=
  ∀ (i : Fin 47) (b : Breakpoint), (i.val + 1) % 8 ≠ 0 → v[i.val + 1]? = some (some b) →
    ∃ a : Breakpoint, v[i.val]? = some (some a) ∧ a.position < b.position

/-- A configured channel's value lies in a payload (R145). -/
def ChannelsFit (v : Vector ChannelCfg 32) : Prop :=
  ∀ ch : Fin 32, v[ch].configured = true → v[ch].offset + v[ch].width ≤ 16

theorem tablesFit_iff (c : Tables) : TablesFit c ↔
    (∀ (t : Table) (i : Nat) (e : Entry), i < t.entries → getEntry c t i = some e → EntryFits t i e)
      ∧ c.routes.length ≤ 256 ∧ c.routes.Pairwise RouteOrder ∧ ProfilesRise c.profiles
      ∧ ChannelsFit c.channels ∧ 100 ≤ c.param.beaconPeriod ∧ c.param.beaconPeriod ≤ 5000 :=
  Iff.rfl

/-- The entries of the reset tables fit: every table holds its empty content, LINE and PARAM their
reset values. -/
theorem entryFits_reset {t : Table} {i : Nat} {e : Entry} (hi : i < t.entries)
    (h : getEntry Tables.reset t i = some e) : EntryFits t i e := by
  refine ⟨?_, fun _ => .inr h⟩
  have hv : ∀ {n : Nat} {α : Type} {x : α} (f : α → Entry), i < n →
      (Vector.replicate n x)[i]?.map f = some e → f x = e := fun f hn he => by
    rw [getEntry_reset_vector hn f] at he
    exact Option.some.inj he
  cases t with
  | route => cases h; rfl
  | param => cases h; rfl
  | line =>
    by_cases hl : i < 14
    · have he : e = .line (resetLine ⟨i, hl⟩) := by
        simp only [getEntry, Tables.reset, Vector.getElem?_ofFn, hl] at h
        simpa using h.symm
      subst he
      by_cases h0 : i = 0
      · subst h0; rfl
      · have : (⟨i, hl⟩ : Fin 14) ≠ 0 := fun e => h0 (congrArg Fin.val e)
        simp [Entry.fits, lineFits, resetLine, this, h0, within]
    · simp [getEntry, Tables.reset, hl] at h
  | _ => obtain rfl := hv _ hi h; rfl

theorem tablesFit_reset : TablesFit Tables.reset := by
  refine (tablesFit_iff _).mpr ⟨fun t i e => entryFits_reset, Nat.zero_le _, .nil, ?_, ?_, by decide,
    by decide⟩
  · intro i b _ h
    simp only [Tables.reset, Vector.getElem?_replicate] at h
    split at h <;> cases h
  · intro ch h
    simp [Tables.reset, emptyChannel] at h

/-- CLEAR TABLE leaves tables that fit. -/
theorem tablesFit_clearTable {c : Tables} (h : TablesFit c) (t : Table) :
    TablesFit (clearTable c t) := by
  obtain ⟨he, hl, hr, hp, hc, hb⟩ := (tablesFit_iff c).mp h
  obtain ⟨-, hl', hr', hp', hc', hb'⟩ := (tablesFit_iff _).mp tablesFit_reset
  have hentries : ∀ (t' : Table) (i : Nat) (e : Entry), i < t'.entries →
      getEntry (clearTable c t) t' i = some e → EntryFits t' i e := fun t' i e hi h => by
    by_cases ht : t' = t
    · subst ht
      rw [getEntry_clearTable_same] at h
      exact entryFits_reset hi h
    · rw [getEntry_clearTable_other c ht] at h
      exact he t' i e hi h
  refine (tablesFit_iff _).mpr ⟨hentries, ?_⟩
  cases t with
  | route => exact ⟨hl', hr', hp, hc, hb⟩
  | profile => exact ⟨hl, hr, hp', hc, hb⟩
  | channel => exact ⟨hl, hr, hp, hc', hb⟩
  | param => exact ⟨hl, hr, hp, hc, hb'⟩
  | _ => exact ⟨hl, hr, hp, hc, hb⟩

/-- What R93 finds for a breakpoint in use: the entries beside it on its axis lie below and above it. -/
theorem profileRules_some {c : Tables} {i : Nat} {b : Breakpoint}
    (h : profileRules c i (some b) = none) :
    (i % 8 ≠ 0 → ∃ p, profileBefore c i = some p ∧ p.position < b.position) ∧
      ∀ p, profileAfter c i = some p → b.position < p.position := by
  unfold profileRules at h
  have hnone : ¬(i % 8 ≠ 0 ∧ (profileBefore c i).isNone = true) := fun hb => by
    simp only [hb, ne_eq, not_false_eq_true, and_self, if_true, reduceCtorEq] at h
  simp only [hnone, if_false, ite_eq_left_iff, reduceCtorEq, imp_false, not_not, Bool.and_eq_true] at h
  obtain ⟨hlow, hhigh⟩ := h
  refine ⟨fun hi => ?_, fun p hp => by simpa only [hp, decide_eq_true_eq] using hhigh⟩
  cases hp : profileBefore c i with
  | none => exact absurd ⟨hi, by rw [hp]; rfl⟩ hnone
  | some p => exact ⟨p, rfl, by simpa only [hp, decide_eq_true_eq] using hlow⟩

theorem profileRules_none {c : Tables} {i : Nat} (h : profileRules c i none = none) :
    profileAfter c i = none := by
  unfold profileRules at h
  dsimp only at h
  split at h
  · cases h
  · rename_i hn
    simpa using hn

/-- The breakpoints rise behind a PROFILE write that R93 lets by. -/
theorem profilesRise_put {c : Tables} {i : Nat} {x : Option Breakpoint}
    (hp : ProfilesRise c.profiles) (hr : profileRules c i x = none) :
    ProfilesRise (c.profiles.setIfInBounds i x) := by
  intro j b hj hb
  by_cases h1 : j.val + 1 = i
  · obtain rfl : x = some b := by
      have : i < 48 := by omega
      simpa [h1, this] using hb
    obtain ⟨p, hp, hlt⟩ := (profileRules_some hr).1 (by omega)
    rw [profileBefore, if_neg (by omega), Option.join_eq_some_iff] at hp
    refine ⟨p, ?_, hlt⟩
    rw [Vector.getElem?_setIfInBounds_ne (by omega), ← hp, ← h1]
    rfl
  · rw [Vector.getElem?_setIfInBounds_ne (Ne.symm h1)] at hb
    by_cases h2 : j.val = i
    · have ha : profileAfter c i = some b := by
        rw [profileAfter, if_neg (by omega), ← h2, hb]
        rfl
      cases x with
      | none => rw [profileRules_none hr] at ha; cases ha
      | some a =>
        have : i < 48 := by omega
        exact ⟨a, by simp [h2, this], (profileRules_some hr).2 b ha⟩
    · rw [Vector.getElem?_setIfInBounds_ne (Ne.symm h2)]
      exact hp j b hj hb

theorem channelsFit_put {v : Vector ChannelCfg 32} {i : Nat} {x : ChannelCfg} (hv : ChannelsFit v)
    (hx : x.configured = true → x.offset + x.width ≤ 16) : ChannelsFit (v.setIfInBounds i x) := by
  intro ch
  have : (v.setIfInBounds i x)[ch] = if i = ch.val then x else v[ch] := by
    simp [Vector.getElem_setIfInBounds]
  rw [this]
  split
  · exact hx
  · exact hv ch

/-- A beacon period lies in 100..5000 once it is clamped. -/
theorem clampBeacon_range (n : Nat) : 100 ≤ clampBeacon n ∧ clampBeacon n ≤ 5000 := by
  unfold clampBeacon
  omega

theorem paramFits_clamped {x : Param} (h : paramFits x = true) :
    paramFits { x with beaconPeriod := clampBeacon x.beaconPeriod } = true := by
  have hb := clampBeacon_range x.beaconPeriod
  have hc : within 0 65535 (clampBeacon x.beaconPeriod) = true := by
    simp only [within, Bool.and_eq_true, decide_eq_true_eq]
    omega
  simp only [paramFits, Bool.and_eq_true] at h ⊢
  tauto

/-- Every entry of `c` is one a WRITE ENTRY can carry. -/
def EntriesFit (c : Tables) : Prop :=
  ∀ (t : Table) (i : Nat) (e : Entry), i < t.entries → getEntry c t i = some e → EntryFits t i e

theorem EntriesFit.route {c : Tables} (h : EntriesFit c) (hl : c.routes.length ≤ 256) {x : Route}
    (hx : x ∈ c.routes) : routeFits (some x) = true := by
  obtain ⟨k, hk, rfl⟩ := List.getElem_of_mem hx
  have := (h .route k _ (lt_of_lt_of_le hk hl) rfl).1
  rw [List.getElem?_eq_getElem hk] at this
  exact this

/-- An entry behind a write is the one written, or an old one. -/
theorem EntriesFit.put {c c' : Tables} {i d : Nat} {e : Entry} (h : EntriesFit c)
    (hl : c.routes.length ≤ 256) (hp : Putting c i c' d e) (hi : i < e.table.entries)
    (he : EntryFits e.table i e) : EntriesFit c' := by
  intro t j e' hj hg
  by_cases ht : t = e.table
  · subst ht
    by_cases hr : e.table = .route
    · cases e with
      | route x =>
        obtain ⟨l, hput, rfl⟩ := hp
        cases hg
        refine ⟨?_, fun hn => .inr (by cases hx : l[j]? <;> simp_all [Entry.empty, getEntry, Tables.reset])⟩
        cases hx : l[j]? with
        | none => rfl
        | some y =>
          rcases mem_putRoute hput (List.mem_of_getElem? hx) with hy | rfl
          · exact h.route hl hy
          · exact he.1
      | _ x => cases hr
    by_cases hq : e.table = .param
    · cases e with
      | param x =>
        obtain rfl := hp
        cases hg
        exact ⟨paramFits_clamped he.1, fun hn => by cases hn⟩
      | _ x => cases hq
    by_cases hji : j = i
    · subst hji
      rw [getEntry_put_same hp hi hr hq] at hg
      cases hg
      exact he
    · rw [getEntry_put_other hp hr hq hji] at hg
      exact h _ j e' hj hg
  · rw [getEntry_put_table hp ht] at hg
    exact h t j e' hj hg

/-- Tables that fit stay so when a content that fits is put in past its in-table checks. -/
theorem tablesFit_put {c c' : Tables} {i d : Nat} {e : Entry} {t : Table} (h : TablesFit c)
    (hi : i < t.entries) (he : EntryFits t i e) (hp : putEntry c i e = .ok (c', d)) :
    TablesFit c' := by
  obtain rfl := fits_table he.1
  obtain ⟨hent, hl, hr, hpr, hc, hb⟩ := (tablesFit_iff c).mp h
  have hput := putEntry_ok hp
  refine (tablesFit_iff c').mpr ⟨EntriesFit.put hent hl hput hi he, ?_⟩
  cases e with
  | route x =>
    obtain ⟨l, hput, rfl⟩ := hput
    exact ⟨putRoute_length hl hi hput, putRoute_order hr hput, hpr, hc, hb⟩
  | profile x =>
    obtain ⟨hrule, rfl⟩ := hput
    exact ⟨hl, hr, profilesRise_put hpr hrule, hc, hb⟩
  | channel x =>
    obtain ⟨hw, rfl⟩ := hput
    exact ⟨hl, hr, hpr, channelsFit_put hc hw, hb⟩
  | line x =>
    obtain ⟨-, rfl⟩ := hput
    exact ⟨hl, hr, hpr, hc, hb⟩
  | param x =>
    obtain rfl := hput
    exact ⟨hl, hr, hpr, hc, clampBeacon_range _⟩
  | _ x =>
    obtain rfl := hput
    exact ⟨hl, hr, hpr, hc, hb⟩

end Sys2Proof.Machine
end

