-- ==== Sys2Proof/Proofs/TablesSound.lean ====
section
/-! PROOFS. Tables stay sound: an image that is read back leaves tables that fit, and every act of the
machine keeps `TablesSound` (R6, R11, R180 to R183). -/

namespace Sys2Proof.Machine

/-! ### What LOADING takes from an image -/

/-- A record that is taken leaves tables that fit. -/
theorem yields_takeRecord {c : Tables} (h : TablesFit c) (t : Table) :
    Yields (takeRecord c t) TablesFit := by
  refine (yields_nat2 0 (t.entries - 1)).bind fun i hi => ?_
  have hlt : i < t.entries := by
    have hpos : 0 < t.entries := by cases t <;> decide
    simp only [within, Bool.and_eq_true, decide_eq_true_eq] at hi
    omega
  refine (yields_content t i hlt).bind fun e he => ?_
  split
  · rename_i c' d hp
    exact yields_ite (fun _ => yields_bad) fun _ => yields_pure (tablesFit_put h hlt he hp)
  · exact yields_bad

theorem tablesFit_takeRecords (n : Nat) {c c' : Tables} {bytes : List Byte} (h : TablesFit c)
    (ht : takeRecords n c bytes = some c') : TablesFit c' := by
  induction n generalizing c bytes with
  | zero => cases ht
  | succ n ih =>
    unfold takeRecords at ht
    split at ht
    · cases ht
    · rename_i b rest
      split at ht
      · cases ht
        exact h
      · split at ht
        · cases ht
        · split at ht
          · cases ht
          · rename_i hr
            exact ih (yields_takeRecord h _ _ _ _ hr) ht

theorem tablesFit_takeWhole (n : Nat) {c : Tables} (bytes : List Byte) (h : TablesFit c) :
    TablesFit (takeWhole n c bytes) := by
  induction n generalizing c bytes with
  | zero => exact h
  | succ n ih =>
    unfold takeWhole
    split
    · exact h
    · split
      · exact h
      · split
        · exact h
        · rename_i hr
          exact ih _ (yields_takeRecord h _ _ _ _ hr)

/-- The tables while LOADING goes on fit. -/
theorem tablesFit_tablesSoFar (bytes : List Byte) : TablesFit (tablesSoFar bytes) :=
  tablesFit_clearTable (tablesFit_clearTable
    (tablesFit_takeWhole bytes.length (bytes.drop headerBytes) tablesFit_reset) .lamp) .param

/-- An image found good gives tables that fit and pass the validation. -/
theorem judgeImageBytes_good {torn : Bool} {bytes : List Byte} {c : Tables}
    (h : judgeImageBytes torn bytes = .good c) : TablesFit c ∧ validate c = none := by
  unfold judgeImageBytes at h
  split at h
  · cases h
  · split at h
    · cases h
    · rename_i c' hl
      split at h
      · rename_i hv
        cases h
        exact ⟨tablesFit_takeRecords _ tablesFit_reset hl, Option.isNone_iff_eq_none.mp hv⟩
      · cases h

/-! ### A write that passes -/

theorem putContent_ok {c c' : Tables} {r : Run} {i d : Nat} {e : Entry}
    (h : putContent c r i e = .ok (c', d)) :
    putEntry c i e = .ok (c', d) ∧ (r.gw.inForce = true → crossFailure c' i e = none) := by
  unfold putContent at h
  split at h
  · cases h
  · rename_i c1 d1 hp
    split at h
    · split at h
      · cases h
      · rename_i hc
        cases h
        exact ⟨hp, fun _ => hc⟩
    · rename_i hg
      cases h
      exact ⟨hp, fun hn => absurd hn hg⟩

theorem validate_of_crossFailure {c : Tables} {i : Nat} {e : Entry} (h : crossFailure c i e = none) :
    validate c = none := by
  unfold crossFailure at h
  split at h
  · cases h
  · split at h
    · cases h
    · rename_i hv
      simpa using hv

/-! ### The gateway's state against the store's phase -/

/-- `TablesSound` without the tables' own rules: what the tables, the gateway's state and the store's
phase ask of one another. -/
abbrev PhaseSound (c : Tables) (gw : GwState) (p : StorePhase) : Prop :=
  (gw.inForce = true → validate c = none) ∧ (p = .writing ∨ p = .verifying → gw = .storing)
    ∧ (p = .loading → gw = .loading)

theorem tablesSound_iff (s : State) :
    TablesSound s ↔ TablesFit s.cfg ∧ PhaseSound s.cfg s.run.gw s.run.store.phase := Iff.rfl

/-- A gateway whose store is idle holds only tables in force to the validation. -/
theorem phaseSound_idle {c : Tables} {gw : GwState} (h : gw.inForce = true → validate c = none) :
    PhaseSound c gw .idle := ⟨h, fun hp => by simp at hp, fun hp => by cases hp⟩

theorem loadingEnds_gw (c : Tables) (r : Run) (outcome : Nat) (gw : GwState) :
    (Run.loadingEnds c r outcome gw).gw = gw := rfl

theorem loadingEnds_store (c : Tables) (r : Run) (outcome : Nat) (gw : GwState) :
    (Run.loadingEnds c r outcome gw).store = r.store.idle := rfl

theorem endSave_gw (r : Run) (kind : EventKind) (d : Word) : (r.endSave kind d).gw = .configured := rfl

theorem endSave_store (r : Run) (kind : EventKind) (d : Word) :
    (r.endSave kind d).store = r.store.idle := rfl

theorem becomeConfigured_gw (c : Tables) (r : Run) :
    (Run.becomeConfigured c r).gw = .configured :=
  (Kept.becomeConfigured c (Kept.refl _)).gw

theorem becomeConfigured_store (c : Tables) (r : Run) :
    (Run.becomeConfigured c r).store = r.store :=
  (Kept.becomeConfigured c (Kept.refl _)).store

/-- LOADING ends in sound tables when a good finding carries sound ones. -/
theorem tablesSound_endLoading (s : State) {k : LoadResult}
    (h : ∀ c, k = .good c → TablesFit c ∧ validate c = none) : TablesSound (s.endLoading k) := by
  refine (tablesSound_iff _).mpr ?_
  cases k with
  | good c =>
    obtain ⟨hf, hv⟩ := h c rfl
    refine ⟨hf, ?_⟩
    have hp : (s.endLoading (.good c)).run.store.phase = .idle := by
      simp [State.endLoading, becomeConfigured_store, loadingEnds_store, Store.idle]
    rw [hp]
    exact phaseSound_idle fun _ => hv
  | unreadable =>
    refine ⟨tablesFit_reset, ?_⟩
    simp only [State.endLoading, State.setRun_run, loadingEnds_gw, loadingEnds_store, Store.idle]
    exact phaseSound_idle fun hg => by cases hg
  | refused =>
    refine ⟨tablesFit_reset, ?_⟩
    simp only [State.endLoading, State.setRun_run, loadingEnds_gw, loadingEnds_store, Store.idle]
    exact phaseSound_idle fun hg => by cases hg

/-- A save ends in sound tables: it ran in STORING, in which the tables are in force. -/
theorem tablesSound_endSave {s : State} (h : TablesSound s) (hg : s.run.gw = .storing) (s' : State)
    (hc : s'.cfg = s.cfg) (kind : EventKind) (d : Word) :
    TablesSound (s'.setRun (s.run.endSave kind d)) := by
  obtain ⟨hf, hv, -⟩ := (tablesSound_iff s).mp h
  refine (tablesSound_iff _).mpr ?_
  simp only [State.setRun_run, State.setRun_cfg, hc, endSave_gw, endSave_store, Store.idle]
  exact ⟨hf, phaseSound_idle fun _ => hv (by rw [hg]; rfl)⟩

/-- A page operation goes on with another page in its own phase, or a save goes on to VERIFYING. -/
theorem tablesSound_setStore {s : State} (h : TablesSound s) (s' : State) (hc : s'.cfg = s.cfg)
    {x : Store} (hw : x.phase = .writing ∨ x.phase = .verifying)
    (hp : s.run.store.phase = .writing ∨ s.run.store.phase = .verifying) :
    TablesSound (s'.setRun (s.run.setStore x)) := by
  obtain ⟨hf, hv, hs, -⟩ := (tablesSound_iff s).mp h
  refine (tablesSound_iff _).mpr ?_
  rw [State.setRun_run, State.setRun_cfg, hc]
  refine ⟨hf, hv, fun _ => hs hp, fun hl => ?_⟩
  have hl' : x.phase = .loading := hl
  rw [hl'] at hw
  simp at hw

theorem tablesSound_pageLoaded {s : State} (h : TablesSound s) (hp : s.run.store.phase = .loading)
    (bytes : List Byte) : TablesSound (s.pageLoaded bytes) := by
  obtain ⟨-, -, -, hl⟩ := (tablesSound_iff s).mp h
  unfold State.pageLoaded
  dsimp only
  split
  · exact tablesSound_endLoading s fun c hc => by cases hc
  · split
    · refine (tablesSound_iff _).mpr ⟨tablesFit_tablesSoFar _, ?_⟩
      have hg : (s.run.setStore ({ s.run.store with
          loadBuffer := s.run.store.loadBuffer ++ bytes }.toPage (s.run.store.page + 1))).gw
          = .loading := hl hp
      rw [State.setRun_run, hg]
      refine ⟨fun hi => (by cases hi), fun hw => ?_, fun _ => rfl⟩
      simp [Store.toPage, hp] at hw
    · exact tablesSound_endLoading s fun c hc => judgeImageBytes_good hc

theorem tablesSound_pageVerified {s : State} (h : TablesSound s)
    (hp : s.run.store.phase = .verifying) (bytes : List Byte) :
    TablesSound (s.setRun (s.run.pageVerified bytes)) := by
  obtain ⟨-, -, hs, -⟩ := (tablesSound_iff s).mp h
  unfold Run.pageVerified
  dsimp only
  split
  · exact tablesSound_endSave h (hs (.inr hp)) s rfl _ _
  · split
    · exact tablesSound_setStore h s rfl (.inr hp) (.inr hp)
    · exact tablesSound_endSave h (hs (.inr hp)) s rfl _ _

theorem tablesSound_pageExpired {s : State} (h : TablesSound s) : TablesSound s.pageExpired := by
  obtain ⟨-, -, hs, -⟩ := (tablesSound_iff s).mp h
  unfold State.pageExpired
  split
  · exact h
  · exact tablesSound_endLoading s fun c hc => by cases hc
  · rename_i hp
    exact tablesSound_endSave h (hs (.inl hp)) _ rfl _ _
  · rename_i hp
    exact tablesSound_endSave h (hs (.inr hp)) s rfl _ _

theorem afterWrite_phase {x : Store} (h : x.phase = .writing) :
    x.afterWrite.phase = .writing ∨ x.afterWrite.phase = .verifying := by
  unfold Store.afterWrite
  split
  · exact .inr rfl
  · split <;> exact .inl h

/-! ### Every act -/

/-- An act that changes neither tables nor the gateway's state nor the store's phase keeps them sound. -/
theorem tablesSound_of_same {s t : State} (h : TablesSound s) (hc : t.cfg = s.cfg)
    (hg : t.run.gw = s.run.gw) (hp : t.run.store.phase = s.run.store.phase) : TablesSound t := by
  rw [tablesSound_iff] at h ⊢
  rwa [hc, hg, hp]

theorem tablesSound_act (s t : State) (h : Act s t) (hs : TablesSound s) : TablesSound t := by
  obtain ⟨hf, hv, hsave, hload⟩ := (tablesSound_iff s).mp hs
  cases h with
  | kept h => exact tablesSound_of_same hs h.cfg h.run.gw (congrArg Store.phase h.run.store)
  | tick => exact tablesSound_of_same hs rfl rfl rfl
  | reset cause raw =>
    refine (tablesSound_iff _).mpr ⟨tablesFit_reset, fun hg => (by cases hg), fun hp => ?_, fun _ => rfl⟩
    rcases hp with hp | hp <;> cases hp
  | @write tb i d k k' e c hi he hr hp =>
    obtain ⟨hput, hcross⟩ := putContent_ok hp
    have hk : Kept .whole s.run (Run.written s.cfg c s.run tb i) := Kept.written s.cfg (Kept.refl _) c tb i
    refine (tablesSound_iff _).mpr ?_
    rw [State.setRun_run, hk.gw, hk.store]
    exact ⟨tablesFit_put hf hi (yields_contentForm tb i hi _ _ _ he) hput,
      fun hg => validate_of_crossFailure (hcross hg), hsave, hload⟩
  | clear tb hg =>
    have hk : Kept .whole s.run (if tb = .param then Run.paramWritten s.cfg (clearTable s.cfg tb) s.run
        else s.run) := by
      split
      · exact Kept.paramWritten _ (Kept.refl _) _
      · exact Kept.refl _
    refine (tablesSound_iff _).mpr ?_
    rw [State.setRun_run, hk.gw, hk.store]
    exact ⟨tablesFit_clearTable hf tb, fun hi => (by rw [hg] at hi; cases hi), hsave, hload⟩
  | save hg =>
    refine (tablesSound_iff _).mpr ⟨hf, fun _ => hv (by rw [hg]; rfl), fun _ => rfl, fun hp => ?_⟩
    cases hp
  | start hg hval =>
    refine (tablesSound_iff _).mpr ?_
    rw [State.setRun_run, becomeConfigured_gw, becomeConfigured_store]
    refine ⟨hf, fun _ => hval, fun hp => ?_, fun hp => ?_⟩
    · rw [hsave hp] at hg; cases hg
    · rw [hload hp] at hg; cases hg
  | pageWritten hp => exact tablesSound_setStore hs _ rfl (afterWrite_phase hp) (.inl hp)
  | pageLoaded hp bytes => exact tablesSound_pageLoaded hs hp bytes
  | pageVerified hp bytes => exact tablesSound_pageVerified hs hp bytes
  | pageExpired => exact tablesSound_pageExpired hs

/-- Settles O60: every act of a step's course keeps the tables sound. -/
theorem stepsKeepTheTablesSound : Obligations.StepsKeepTheTablesSound :=
  fun _ _ hs h => step_keeps tablesSound_act h hs

end Sys2Proof.Machine
end

