-- ==== Sys2Proof/Proofs/Close.lean ====
section
/-! PROOFS. How an ANSWER leaves the part (R3, R10, R15, R16) and how an event is closed (R109, R169): the
console transmitter's choice, entry by entry of its queue, and the judging of zones and lamps. -/

namespace Sys2Proof.Machine

/-! ### The console queue, read from its oldest ANSWER or REPORT -/

theorem setConsole_self (r : Run) : r.setConsole r.console = r := rfl

theorem firstAnswer_append {pre : List OutEntry} (post : List OutEntry) (a : Answer)
    (h : ∀ b, OutEntry.answer b ∉ pre) :
    firstAnswer (pre ++ .answer a :: post) = some a ∧
      withoutFirstAnswer (pre ++ .answer a :: post) = pre ++ post := by
  induction pre with
  | nil => exact ⟨rfl, rfl⟩
  | cons e pre ih =>
    cases e with
    | answer b => exact absurd List.mem_cons_self (h b)
    | report p =>
      obtain ⟨h1, h2⟩ := ih fun b hb => h b (.tail _ hb)
      exact ⟨h1, congrArg (OutEntry.report p :: ·) h2⟩

theorem firstAnswer_none {q : List OutEntry} (h : ∀ b, OutEntry.answer b ∉ q) :
    firstAnswer q = none := by
  induction q with
  | nil => rfl
  | cons e q ih =>
    cases e with
    | answer b => exact absurd List.mem_cons_self (h b)
    | report p => exact ih fun b hb => h b (.tail _ hb)

theorem firstReport_append {pre : List OutEntry} (post : List OutEntry) (p : Report)
    (h : ∀ q, OutEntry.report q ∉ pre) :
    firstReport (pre ++ .report p :: post) = some p ∧
      withoutFirstReport (pre ++ .report p :: post) = pre ++ post := by
  induction pre with
  | nil => exact ⟨rfl, rfl⟩
  | cons e pre ih =>
    cases e with
    | report b => exact absurd List.mem_cons_self (h b)
    | answer a =>
      obtain ⟨h1, h2⟩ := ih fun b hb => h b (.tail _ hb)
      exact ⟨h1, congrArg (OutEntry.answer a :: ·) h2⟩

theorem firstReport_none {q : List OutEntry} (h : ∀ p, OutEntry.report p ∉ q) :
    firstReport q = none := by
  induction q with
  | nil => rfl
  | cons e q ih =>
    cases e with
    | report b => exact absurd List.mem_cons_self (h b)
    | answer a => exact ih fun b hb => h b (.tail _ hb)

/-! ### The transmitter (R16) -/

theorem kickConsole_busy (c : Tables) {r : Run} (h : r.console.tx.isSome = true) :
    Run.kickConsole c r = r := by
  unfold Run.kickConsole
  rw [if_neg (by rw [Option.isNone_iff_eq_none]; exact Option.isSome_iff_ne_none.mp h)]

theorem kickConsole_idle (c : Tables) {r : Run} (h : r.console.tx = none) :
    Run.kickConsole c r = Run.startTx c r := by
  unfold Run.kickConsole
  rw [if_pos (by rw [h]; rfl)]

/-- The oldest ANSWER goes first. -/
theorem startTx_answer (c : Tables) {r : Run} {pre post : List OutEntry} {a : Answer}
    (hq : r.console.queue = pre ++ .answer a :: post) (h : ∀ b, OutEntry.answer b ∉ pre) :
    Run.startTx c r = (r.setConsole { r.console with queue := pre ++ post }).beginAnswer a := by
  obtain ⟨h1, h2⟩ := firstAnswer_append post a h
  simp only [Run.startTx, hq, h1, h2]

/-- Then a BEACON that is due. -/
theorem startTx_beacon (c : Tables) {r : Run} (h : ∀ b, OutEntry.answer b ∉ r.console.queue)
    (hd : r.console.beaconDue = true) :
    Run.startTx c r = (r.setConsole { r.console with beaconDue := false }).beginTx
      (beaconFrame c (r.setConsole { r.console with beaconDue := false })) false := by
  simp only [Run.startTx, firstAnswer_none h, hd, if_true]

/-- Then the oldest REPORT. -/
theorem startTx_report (c : Tables) {r : Run} {pre post : List OutEntry} {p : Report}
    (h : ∀ b, OutEntry.answer b ∉ r.console.queue) (hd : r.console.beaconDue = false)
    (hq : r.console.queue = pre ++ .report p :: post) (hp : ∀ b, OutEntry.report b ∉ pre) :
    Run.startTx c r =
      (r.setConsole { r.console with queue := pre ++ post }).beginTx (reportFrame p) false := by
  obtain ⟨h1, h2⟩ := firstReport_append post p hp
  simp only [Run.startTx, firstAnswer_none h, hd, Bool.false_eq_true, if_false]
  simp only [hq, h1, h2]

/-- With nothing to send the transmitter stays idle. -/
theorem startTx_nothing (c : Tables) {r : Run} (hq : r.console.queue = [])
    (hd : r.console.beaconDue = false) : Run.startTx c r = r := by
  simp only [Run.startTx, hq, firstAnswer, firstReport, hd, Bool.false_eq_true, if_false]

theorem beginAnswer_fixed (r : Run) {a : Answer} {data : List Byte} (h : a.data = .fixed data) :
    r.beginAnswer a =
      r.beginTx (answerFrame a.req (answerPayload r.events a.code a.detail data)) a.restart := by
  simp only [Run.beginAnswer, h]

/-- The ANSWER of COLLECT EVENTS takes the first eight records; its counts are read behind that. -/
theorem beginAnswer_collect (r : Run) {a : Answer} (h : a.data = .collect) :
    r.beginAnswer a =
      (r.setEvents { r.events with records := r.events.records.drop 8, lost := 0 }).beginTx
        (answerFrame a.req (b1 a.code.code ++ w2 a.detail ++ b1 (r.events.records.length - 8) ++ b2 0
          ++ (b1 (min 8 r.events.records.length) ++ b2 r.events.lost
            ++ (r.events.records.take 8).flatMap EventRec.bytes))) a.restart := by
  simp only [Run.beginAnswer, h, Run.setEvents_events, answerPayload, EventQueue.collected,
    EventQueue.collection, List.length_drop, List.length_take, Config.collectionSize]

/-! ### What the transmitter and the outbound queue leave alone -/

/-- The console port as the transmitter and the outbound queue leave it: the receiver, the error count,
the beacon timer and the restart mark stay. -/
structure Console.Sends (k k' : Console) : Prop where
  rx : k'.rx = k.rx
  errors : k'.errors = k.errors
  beaconTimer : k'.beaconTimer = k.beaconTimer
  restartPending : k'.restartPending = k.restartPending

/-- The runtime differs in its console port and its event queue only, by sending. -/
def Run.Sends (r r' : Run) : Prop :=
  ∃ k q, r' = (r.setConsole k).setEvents q ∧ r.console.Sends k ∧ q.next = r.events.next

theorem Run.Sends.refl (r : Run) : r.Sends r := ⟨r.console, r.events, rfl, ⟨rfl, rfl, rfl, rfl⟩, rfl⟩

theorem Run.Sends.beginTx {r r' : Run} (h : r.Sends r') (f : Frame) (restart : Bool) :
    r.Sends (r'.beginTx f restart) := by
  obtain ⟨k, q, rfl, hk, hq⟩ := h
  exact ⟨_, q, rfl, ⟨hk.rx, hk.errors, hk.beaconTimer, hk.restartPending⟩, hq⟩

theorem Run.Sends.beginAnswer {r r' : Run} (h : r.Sends r') (a : Answer) :
    r.Sends (r'.beginAnswer a) := by
  cases hd : a.data with
  | fixed data =>
    rw [beginAnswer_fixed _ hd]
    exact h.beginTx _ _
  | collect =>
    rw [beginAnswer_collect _ hd]
    obtain ⟨k, q, rfl, hk, hq⟩ := h
    exact Run.Sends.beginTx ⟨k, q.collected, rfl, hk, hq⟩ _ _

/-- The queue, the drop count and the mark of a BEACON that is owed may change. -/
theorem Run.Sends.edit (r : Run) (queue : List OutEntry) (drops : Nat) (beaconDue : Bool) :
    r.Sends (r.setConsole { r.console with queue, drops, beaconDue }) :=
  ⟨{ r.console with queue, drops, beaconDue }, r.events, rfl, ⟨rfl, rfl, rfl, rfl⟩, rfl⟩

theorem Run.Sends.trans {a b d : Run} (h : a.Sends b) (h' : b.Sends d) : a.Sends d := by
  obtain ⟨k, q, rfl, hk, hq⟩ := h
  obtain ⟨k', q', rfl, hk', hq'⟩ := h'
  exact ⟨k', q', rfl, ⟨hk'.rx.trans hk.rx, hk'.errors.trans hk.errors,
    hk'.beaconTimer.trans hk.beaconTimer, hk'.restartPending.trans hk.restartPending⟩, hq'.trans hq⟩

theorem startTx_sends (c : Tables) (r : Run) : r.Sends (Run.startTx c r) := by
  unfold Run.startTx
  split
  · exact (Run.Sends.edit r _ _ _).beginAnswer _
  · split
    · exact (Run.Sends.edit r _ _ _).beginTx _ _
    · split
      · exact (Run.Sends.edit r _ _ _).beginTx _ _
      · exact Run.Sends.refl r

theorem kickConsole_sends (c : Tables) (r : Run) : r.Sends (Run.kickConsole c r) := by
  unfold Run.kickConsole
  split
  · exact startTx_sends c r
  · exact Run.Sends.refl r

theorem offerAnswer_eq (k : Console) (a : Answer) :
    (k.offerAnswer a).1 = { k with queue := (k.offerAnswer a).1.queue
                                   drops := (k.offerAnswer a).1.drops } := by
  unfold Console.offerAnswer
  split
  · rfl
  · split <;> rfl

theorem offerAnswer_room {k : Console} (a : Answer) (h : k.queue.length < 32) :
    k.offerAnswer a = ({ k with queue := k.queue ++ [.answer a] }, false) := if_pos h

theorem answer_sends (c : Tables) (r : Run) (req : Req) (code : Code) (detail : Word)
    (data : List Byte) : r.Sends (Run.answer c r req code detail data) := by
  unfold Run.answer
  rw [offerAnswer_eq]
  exact (Run.Sends.edit r _ _ _).trans (kickConsole_sends c _)

theorem answer_busy (c : Tables) (r : Run) (req : Req) (code : Code) (detail : Word)
    (data : List Byte) (h : r.console.tx.isSome = true) :
    Run.answer c r req code detail data = r.setConsole (r.console.offerAnswer
      { req, code, detail, data := .fixed data, restart := false }).1 := by
  refine kickConsole_busy c ?_
  rw [offerAnswer_eq]
  exact h

theorem answer_idle (c : Tables) (r : Run) (req : Req) (code : Code) (detail : Word)
    (data : List Byte) (h : r.console.tx = none) :
    Run.answer c r req code detail data = Run.startTx c (r.setConsole (r.console.offerAnswer
      { req, code, detail, data := .fixed data, restart := false }).1) := by
  refine kickConsole_idle c ?_
  rw [offerAnswer_eq]
  exact h

/-- An idle transmitter sends an ANSWER at once when no other waits before it. -/
theorem answer_at_once (c : Tables) (r : Run) (req : Req) (code : Code) (detail : Word)
    (data : List Byte) (h : r.console.tx = none) (hn : ∀ b, OutEntry.answer b ∉ r.console.queue)
    (hl : r.console.queue.length < 32) :
    Run.answer c r req code detail data =
      r.beginTx (answerFrame req (answerPayload r.events code detail data)) false := by
  rw [answer_idle c r req code detail data h, offerAnswer_room _ hl,
    startTx_answer c (pre := r.console.queue) (post := []) rfl hn, List.append_nil]
  exact beginAnswer_fixed _ rfl

/-! ### The close of an event: zones (R109) -/

/-- What the judging of a zone reads: no zone's own state. -/
theorem zoneStateNow_congr {c : Tables} {r u : Run} {z : Fin 8} (hd : u.doors = r.doors)
    (ha : u.zones[z].active = r.zones[z].active)
    (hw : u.zones[z].warningTimer = r.zones[z].warningTimer) :
    zoneStateNow c u z = zoneStateNow c r z := by
  unfold zoneStateNow
  rw [hd, ha, hw]

/-- The zones of `l` at the states their doors make, the others as they were. -/
def Run.restateZones (c : Tables) (r : Run) (l : List (Fin 8)) : Run :=
  { r with zones := Vector.ofFn fun z =>
      if z ∈ l then { r.zones[z] with state := zoneStateNow c r z } else r.zones[z] }

/-- The record of a zone whose state changes. -/
def Run.noteZone (c : Tables) (r u : Run) (z : Fin 8) : Run :=
  u.raise .zoneState z.val (det (zoneStateNow c r z).code)

/-- The zones whose state changes. -/
def Run.zoneChanges (c : Tables) (r : Run) (z : Fin 8) : Bool :=
  decide (r.zones[z].state ≠ zoneStateNow c r z)

theorem restateZones_get (c : Tables) (r : Run) (l : List (Fin 8)) (z : Fin 8) :
    (r.restateZones c l).zones[z] =
      if z ∈ l then { r.zones[z] with state := zoneStateNow c r z } else r.zones[z] := by
  simp [Run.restateZones]

theorem restateZones_nil (c : Tables) (r : Run) : r.restateZones c [] = r := by
  have : (r.restateZones c []).zones = r.zones := Vector.ext fun i hi => by simp [Run.restateZones]
  exact congrArg (fun v => { r with zones := v }) this

/-- One more zone is restated. -/
theorem restateZones_snoc (c : Tables) (r : Run) {l : List (Fin 8)} {z : Fin 8} (hz : z ∉ l) :
    r.restateZones c (l ++ [z]) =
      (r.restateZones c l).modZone z fun x => { x with state := zoneStateNow c r z } := by
  have : (r.restateZones c (l ++ [z])).zones =
      ((r.restateZones c l).modZone z fun x => { x with state := zoneStateNow c r z }).zones := by
    refine Vector.ext fun i hi => ?_
    have h1 := restateZones_get c r (l ++ [z]) ⟨i, hi⟩
    have h2 := restateZones_get c r l ⟨i, hi⟩
    by_cases hy : (⟨i, hi⟩ : Fin 8) = z
    · subst hy
      rw [if_pos (by simp)] at h1
      rw [if_neg hz] at h2
      have := Run.modZone_self (r.restateZones c l) ⟨i, hi⟩
        fun x => { x with state := zoneStateNow c r ⟨i, hi⟩ }
      rw [h2] at this
      exact h1.trans this.symm
    · have := Run.modZone_ne (r.restateZones c l) z ⟨i, hi⟩
        (fun x => { x with state := zoneStateNow c r z }) hy
      refine Eq.trans ?_ this.symm
      rw [h2]
      refine h1.trans ?_
      simp only [List.mem_append, List.mem_singleton, hy, or_false]
  exact congrArg (fun v => { r with zones := v }) this

/-- A zone whose state is the one its doors make is left alone. -/
theorem restateZones_same (c : Tables) (r : Run) {l : List (Fin 8)} {z : Fin 8} (hz : z ∉ l)
    (hs : r.zones[z].state = zoneStateNow c r z) :
    r.restateZones c (l ++ [z]) = r.restateZones c l := by
  have : (r.restateZones c (l ++ [z])).zones = (r.restateZones c l).zones := by
    refine Vector.ext fun i hi => ?_
    refine (restateZones_get c r (l ++ [z]) ⟨i, hi⟩).trans
      (Eq.trans ?_ (restateZones_get c r l ⟨i, hi⟩).symm)
    by_cases hy : (⟨i, hi⟩ : Fin 8) = z
    · subst hy
      rw [if_pos (by simp), if_neg hz, ← hs]
    · simp only [List.mem_append, List.mem_singleton, hy, or_false]
  exact congrArg (fun v => { r with zones := v }) this

/-- The zones of `m` are judged behind those of `l`. -/
theorem judgeZones_restated (c : Tables) (r : Run) (m : List (Fin 8)) :
    ∀ (l : List (Fin 8)) (q : EventQueue), (l ++ m).Nodup →
      m.foldl (Run.judgeZone c) ((r.restateZones c l).setEvents q) =
        (m.filter (r.zoneChanges c)).foldl (Run.noteZone c r)
          ((r.restateZones c (l ++ m)).setEvents q) := by
  induction m with
  | nil => intro l q _; rw [List.append_nil]; rfl
  | cons z m ih =>
    intro l q hn
    have hz : z ∉ l := fun h => List.disjoint_of_nodup_append hn h List.mem_cons_self
    have hn' : ((l ++ [z]) ++ m).Nodup := by simpa using hn
    have hget : ((r.restateZones c l).setEvents q).zones[z] = r.zones[z] := by
      rw [Run.setEvents_zones, restateZones_get, if_neg hz]
    have hnow : zoneStateNow c ((r.restateZones c l).setEvents q) z = zoneStateNow c r z :=
      zoneStateNow_congr rfl (by rw [hget]) (by rw [hget])
    rw [List.foldl_cons, show l ++ z :: m = (l ++ [z]) ++ m by simp]
    unfold Run.judgeZone
    dsimp only
    rw [hget, hnow]
    by_cases hs : r.zones[z].state = zoneStateNow c r z
    · have hc : r.zoneChanges c z = false := decide_eq_false (not_not.mpr hs)
      rw [if_pos hs, List.filter_cons_of_neg (by simp [hc]), ← restateZones_same c r hz hs]
      exact ih _ q hn'
    · have hc : r.zoneChanges c z = true := decide_eq_true hs
      rw [if_neg hs, List.filter_cons_of_pos hc, List.foldl_cons]
      have := ih (l ++ [z]) (q.push r.clock.ms .zoneState z.val (det (zoneStateNow c r z).code)) hn'
      rw [restateZones_snoc c r hz] at this
      exact this

theorem restateZones_all (c : Tables) (r : Run) : r.restateZones c (List.finRange 8) =
    { r with zones := Vector.ofFn fun z => { r.zones[z] with state := zoneStateNow c r z } } := by
  have h : ∀ z : Fin 8, z ∈ List.finRange 8 := List.mem_finRange
  simp only [Run.restateZones, h, if_true]

/-- The close of an event judges the zones: each takes the state its doors make, and each change is
noted, in ascending zone number (R109). -/
theorem judgeZones_eq (c : Tables) (r : Run) : Run.judgeZones c r =
    ((List.finRange 8).filter (r.zoneChanges c)).foldl (Run.noteZone c r)
      (r.restateZones c (List.finRange 8)) := by
  have := judgeZones_restated c r (List.finRange 8) [] r.events (List.nodup_finRange 8)
  rwa [restateZones_nil, List.nil_append] at this

theorem noteZones_eq (c : Tables) (r : Run) (l : List (Fin 8)) (u : Run) :
    ∃ q, l.foldl (Run.noteZone c r) u = u.setEvents q := by
  induction l generalizing u with
  | nil => exact ⟨u.events, rfl⟩
  | cons z l ih =>
    obtain ⟨q, hq⟩ := ih (Run.noteZone c r u z)
    exact ⟨q, hq⟩

/-! ### The close of an event: lamps (R169) -/

/-- The judging of the lamps changes the chain only, and there neither generators, lamp test nor what
the lamps show. -/
theorem judgeImage_eq (c : Tables) (r : Run) : ∃ x, Run.judgeImage c r = r.setChain x ∧
    x.slow = r.chain.slow ∧ x.fast = r.chain.fast ∧ x.lampTest = r.chain.lampTest ∧
    x.shown = r.chain.shown := by
  unfold Run.judgeImage
  dsimp only
  split
  · exact ⟨r.chain, rfl, rfl, rfl, rfl, rfl⟩
  · refine ⟨r.chain.hand (chainImage c r), rfl, ?_⟩
    unfold Chain.hand
    split <;> exact ⟨rfl, rfl, rfl, rfl⟩

/-- A settled runtime is left as it is. -/
theorem settleEvent_settled {c : Tables} {r : Run} (hz : ∀ z : Fin 8, r.zones[z].state = zoneStateNow c r z)
    (hl : r.chain.last = chainImage c r) (he : r.entered = []) : Run.settleEvent c r = r := by
  have hchange : (List.finRange 8).filter (r.zoneChanges c) = [] :=
    List.filter_eq_nil_iff.mpr fun z _ h => of_decide_eq_true h (hz z)
  have hzones : (r.restateZones c (List.finRange 8)) = r := by
    have : (r.restateZones c (List.finRange 8)).zones = r.zones := Vector.ext fun i hi => by
      have := restateZones_get c r (List.finRange 8) ⟨i, hi⟩
      rw [if_pos (List.mem_finRange _), ← hz] at this
      exact this
    exact congrArg (fun v => { r with zones := v }) this
  have himage : Run.judgeImage c r = r := if_pos hl.symm
  unfold Run.settleEvent
  rw [judgeZones_eq, hchange, hzones, List.foldl_nil, himage, ← he]
  rfl

/-- An ANSWER made with an idle transmitter: the oldest ANSWER of the queue it enters begins. -/
theorem answer_oldest (c : Tables) (r : Run) (req : Req) (code : Code) (detail : Word)
    (data : List Byte) (h : r.console.tx = none) {pre post : List OutEntry} {b : Answer}
    (hq : (r.console.offerAnswer { req, code, detail, data := .fixed data, restart := false }).1.queue
      = pre ++ .answer b :: post) (hn : ∀ x, OutEntry.answer x ∉ pre) :
    Run.answer c r req code detail data = (r.setConsole
      { (r.console.offerAnswer { req, code, detail, data := .fixed data, restart := false }).1 with
        queue := pre ++ post }).beginAnswer b := by
  rw [answer_idle c r req code detail data h, startTx_answer c hq hn]
  rfl

/-- Settles O10: the oldest ANSWER goes at once or waits, and the close judges zones, then lamps. -/
theorem answersAreSentAndEventsClosed : Obligations.AnswersAreSentAndEventsClosed := by
  refine ⟨fun c r req code detail data => ?_, fun c r => ?_, fun r kind index detail => rfl⟩
  · refine ⟨answer_busy c r req code detail data, answer_at_once c r req code detail data, ?_, ?_,
      fun f restart => rfl⟩
    · intro ht pre post b hq hn
      have h := answer_oldest c r req code detail data ht hq hn
      exact ⟨fun held hd => h.trans (beginAnswer_fixed _ hd), fun hd => h.trans (beginAnswer_collect _ hd)⟩
    · obtain ⟨k, q, h, hk, hq⟩ := answer_sends c r req code detail data
      exact ⟨k, q, h, hk.rx, hk.errors, hk.beaconTimer, hk.restartPending, hq⟩
  · dsimp only
    rw [← restateZones_all]
    refine ⟨?_, ?_⟩
    · unfold Run.settleEvent
      rw [judgeZones_eq]
      rfl
    · obtain ⟨q, hq⟩ := noteZones_eq c r ((List.finRange 8).filter (r.zoneChanges c))
        (r.restateZones c (List.finRange 8))
      have := judgeImage_eq c ((r.restateZones c (List.finRange 8)).setEvents q)
      rw [← hq] at this
      obtain ⟨x, hx, hrest⟩ := this
      refine ⟨x, hx, ?_⟩
      rw [hq] at hrest
      exact hrest

end Sys2Proof.Machine
end

