-- ==== Sys2Proof/Proofs/Transmitter.lean ====
section
/-! PROOFS. The outbound queue (R15), the transmitter at the end of a transmission (R12, R16) and the beacon
timer (R17). -/

namespace Sys2Proof.Machine

/-! ### Room in the outbound queue (R15) -/

theorem noRoom {k : Console} (h : 32 ≤ k.queue.length) :
    ¬k.queue.length < Config.outboundCapacity := Nat.not_lt.mpr h

theorem offerAnswer_full {k : Console} (a : Answer) (h : 32 ≤ k.queue.length)
    {pre post : List OutEntry} {old : Report} (hq : k.queue = pre ++ .report old :: post)
    (hp : ∀ q, OutEntry.report q ∉ pre) :
    k.offerAnswer a = ({ k with queue := pre ++ post ++ [.answer a]
                                drops := min 65535 (k.drops + 1) }, false) := by
  obtain ⟨h1, h2⟩ := firstReport_append post old hp
  rw [← hq] at h1 h2
  unfold Console.offerAnswer
  rw [if_neg (noRoom h), h1, h2]
  rfl

theorem offerAnswer_dropped {k : Console} (a : Answer) (h : 32 ≤ k.queue.length)
    (hq : ∀ q, OutEntry.report q ∉ k.queue) :
    k.offerAnswer a = ({ k with drops := min 65535 (k.drops + 1) }, true) := by
  unfold Console.offerAnswer
  rw [if_neg (noRoom h), firstReport_none hq]
  rfl

theorem reportsNode_iff {n : NodeId} {e : OutEntry} :
    e.reportsNode n = true ↔ ∃ q : Report, q.node = n ∧ e = .report q := by
  cases e with
  | answer a => simp [OutEntry.reportsNode]
  | report p => simp [OutEntry.reportsNode]

theorem replaceNewest_none {p : Report} {q : List OutEntry}
    (h : ∀ x : Report, x.node = p.node → OutEntry.report x ∉ q) : replaceNewest p q = none := by
  induction q with
  | nil => rfl
  | cons e q ih =>
    have he : ¬e.reportsNode p.node = true := fun hn => by
      obtain ⟨x, hx, rfl⟩ := reportsNode_iff.mp hn
      exact h x hx List.mem_cons_self
    simp only [replaceNewest, ih fun x hx hm => h x hx (.tail _ hm), if_neg he]

/-- The newest REPORT of the node is replaced in its place. -/
theorem replaceNewest_append {p old : Report} (pre : List OutEntry) {post : List OutEntry}
    (ho : old.node = p.node) (h : ∀ x : Report, x.node = p.node → OutEntry.report x ∉ post) :
    replaceNewest p (pre ++ .report old :: post) = some (pre ++ .report p :: post) := by
  induction pre with
  | nil =>
    have : (OutEntry.report old).reportsNode p.node = true := reportsNode_iff.mpr ⟨old, ho, rfl⟩
    simp only [List.nil_append, replaceNewest, replaceNewest_none h, if_pos this]
  | cons e pre ih => simp only [List.cons_append, replaceNewest, ih]

theorem offerReport_room {k : Console} (p : Report) (h : k.queue.length < 32) :
    k.offerReport p = { k with queue := k.queue ++ [.report p] } := if_pos h

theorem offerReport_replaces {k : Console} {p old : Report} (h : 32 ≤ k.queue.length)
    {pre post : List OutEntry} (hq : k.queue = pre ++ .report old :: post)
    (ho : old.node = p.node) (hp : ∀ x : Report, x.node = p.node → OutEntry.report x ∉ post) :
    k.offerReport p = { k with queue := pre ++ .report p :: post } := by
  unfold Console.offerReport
  rw [if_neg (noRoom h), hq, replaceNewest_append pre ho hp]

theorem offerReport_dropped {k : Console} {p : Report} (h : 32 ≤ k.queue.length)
    (hp : ∀ x : Report, x.node = p.node → OutEntry.report x ∉ k.queue) :
    k.offerReport p = { k with drops := min 65535 (k.drops + 1) } := by
  unfold Console.offerReport
  rw [if_neg (noRoom h), replaceNewest_none hp]
  rfl

/-! ### The end of a transmission (R12, R16) -/

/-- The console port with its transmitter idle. -/
def Console.idle (k : Console) : Console := { k with tx := none, txTimer := none }

theorem transmissionEnd_none {s : State} (h : s.run.console.tx = none) :
    exec .transmissionEnd s = closed s s.run := by
  dsimp only [exec, execTransmissionEnd, State.event, closed]
  rw [State.transmissionEnds, h]
  rfl

theorem transmissionEnd_sends {s : State} {t : TxFrame} (h : s.run.console.tx = some t)
    (hr : t.restart = false) : exec .transmissionEnd s =
      closed s (Run.startTx s.cfg (s.run.setConsole s.run.console.idle)) := by
  dsimp only [exec, execTransmissionEnd, State.event, closed]
  rw [State.transmissionEnds, h]
  simp only [hr, Bool.false_eq_true, if_false]
  rfl

theorem transmissionEnd_restarts {s : State} {t : TxFrame} (h : s.run.console.tx = some t)
    (hr : t.restart = true) : exec .transmissionEnd s =
      .next ((s.setRun (s.run.setConsole s.run.console.idle)).resetBy .restart
        (rawLevels s.run)).settle := by
  dsimp only [exec, execTransmissionEnd, State.event]
  rw [State.transmissionEnds, h]
  simp only [hr, if_true]
  rfl

/-! ### The beacon timer (R17) -/

theorem beaconExpiry_stopped {s : State} (h : s.run.console.beaconTimer = none) :
    exec .beaconExpiry s = closed s s.run := by
  dsimp only [exec, execBeaconExpiry, State.runEvent, State.event, closed]
  rw [Run.beaconExpired, if_neg (by rw [h]; exact Bool.false_ne_true)]

theorem beaconExpiry_running {s : State} (h : s.run.console.beaconTimer.isSome = true) :
    exec .beaconExpiry s = closed s (Run.kickConsole s.cfg (s.run.setConsole
      { s.run.console with beaconDue := true
                           beaconTimer := some (ms s.cfg.param.beaconPeriod) })) := by
  dsimp only [exec, execBeaconExpiry, State.runEvent, State.event, closed]
  rw [Run.beaconExpired, if_pos h]

/-- Settles O9: the queue's room, the transmitter's choice and the beacon timer, each by its cases. -/
theorem outboundQueueAndTransmitter : Obligations.OutboundQueueAndTransmitter := by
  refine ⟨fun k a p => ⟨fun h => ⟨offerAnswer_room a h, offerReport_room p h⟩, fun h => ⟨?_, ?_, ?_, ?_⟩⟩,
    fun s t => ⟨transmissionEnd_none, fun ht hr => ?_, transmissionEnd_restarts⟩,
    fun s => ⟨beaconExpiry_stopped, fun hb => ⟨fun ht => ?_, fun ht hn => ?_⟩⟩⟩
  · exact fun pre post old => offerAnswer_full a h
  · exact offerAnswer_dropped a h
  · exact fun pre post old hq ho hp => offerReport_replaces h hq ho hp
  · exact offerReport_dropped h
  · have hend := transmissionEnd_sends ht hr
    refine ⟨fun pre post a hq hn => ?_, fun hn => ⟨fun hd => ?_, fun hd => ⟨fun pre post p hq hp => ?_,
      fun hq => ?_⟩⟩⟩
    · rw [startTx_answer s.cfg (r := s.run.setConsole s.run.console.idle) hq hn] at hend
      exact ⟨fun data hd => by rw [hend, beginAnswer_fixed _ hd]; rfl,
        fun hd => by rw [hend, beginAnswer_collect _ hd]; rfl⟩
    · rw [hend, startTx_beacon s.cfg (r := s.run.setConsole s.run.console.idle) hn hd]
      rfl
    · rw [hend, startTx_report s.cfg (r := s.run.setConsole s.run.console.idle) hn hd hq hp]
      rfl
    · rw [hend, startTx_nothing s.cfg (r := s.run.setConsole s.run.console.idle) hq hd]
      rfl
  · exact (beaconExpiry_running hb).trans (congrArg (closed s) (kickConsole_busy s.cfg ht))
  · refine (beaconExpiry_running hb).trans (congrArg (closed s) ?_)
    rw [kickConsole_idle]
    · exact startTx_beacon s.cfg hn rfl
    · exact ht

end Sys2Proof.Machine
end

