-- ==== Sys2Proof/Proofs/Resets.lean ====
section
/-! PROOFS. Reset (R12, R172, R179, R181, R182): every block at its reset values and closed at once, and what a
reset leaves of a save. -/

namespace Sys2Proof.Machine

/-! ### Reset values, entry by entry -/

theorem replicate_get {α : Type} {n : Nat} (x : α) (i : Fin n) : (Vector.replicate n x)[i] = x := by
  simp

theorem ofFn_get {α : Type} {n : Nat} (f : Fin n → α) (i : Fin n) : (Vector.ofFn f)[i] = f i := by
  simp

/-! ### A runtime without closures, lamp sources or a lamp test is settled -/

/-- The reset tables light no lamp. -/
theorem chainImage_reset {r : Run} (h : r.chain.lampTest = none) :
    chainImage Tables.reset r = unlitImage := by
  have hlamp : lampLit r emptyLamp = false := rfl
  simp only [chainImage, Tables.reset, Vector.toList_replicate, resetParam, List.take_replicate,
    List.map_replicate, h, hlamp]
  rfl

/-- Where no closure is active a zone is CLEAR. -/
theorem zoneStateNow_inactive {c : Tables} {r : Run} {z : Fin 8} (h : r.zones[z].active = false) :
    zoneStateNow c r z = .clear := by
  unfold zoneStateNow
  rw [if_neg (by rw [h]; exact Bool.false_ne_true)]

theorem settleEvent_reset {r : Run} (hz : r.zones = Vector.replicate 8 resetZone)
    (ht : r.chain.lampTest = none) (hl : r.chain.last = unlitImage) (he : r.entered = []) :
    Run.settleEvent Tables.reset r = r := by
  have hzone : ∀ z : Fin 8, r.zones[z] = resetZone := fun z => by rw [hz]; exact replicate_get _ z
  refine settleEvent_settled (fun z => ?_) (hl.trans (chainImage_reset ht).symm) he
  rw [zoneStateNow_inactive (by rw [hzone z]; rfl), hzone z]
  rfl

theorem resetBy_settle (s : State) (cause : ResetCause) (raw : BitVec 14) :
    (s.resetBy cause raw).settle = s.resetBy cause raw :=
  congrArg (s.resetBy cause raw).setRun (settleEvent_reset rfl rfl rfl rfl)

theorem powerOn_eq (s : State) (raw : BitVec 14) :
    exec (.powerOn raw) s = .next (s.resetBy .powerOn raw) :=
  congrArg Host.Outcome.next (resetBy_settle s .powerOn raw)

theorem resetPin_eq (s : State) : exec .resetPin s = .next (s.resetBy .pin (rawLevels s.run)) :=
  congrArg Host.Outcome.next (resetBy_settle s .pin (rawLevels s.run))

/-! ### The raw levels -/

theorem rawLevels_foldl (r : Run) (l : List (Fin 14)) (w : BitVec 14) (i : Fin 14) :
    (l.foldl (fun w l => if r.lines[l].raw then setUnion w (setOf l.val) else w) w).getLsbD i.val
      = (w.getLsbD i.val || (decide (i ∈ l) && r.lines[i].raw)) := by
  induction l generalizing w with
  | nil => simp
  | cons j l ih =>
    rw [List.foldl_cons, ih]
    by_cases hj : i = j
    · subst hj
      by_cases hr : r.lines[i].raw = true
      · rw [if_pos hr, hr]
        simp [setUnion, setOf]
      · rw [if_neg hr]
        rw [Bool.not_eq_true] at hr
        rw [hr]
        simp
    · have hv : ¬j.val = i.val := fun e => hj (Fin.ext e.symm)
      split <;> simp [setUnion, setOf, hj, hv, Ne.symm]

theorem rawLevels_get (r : Run) (l : Fin 14) : (rawLevels r).getLsbD l.val = r.lines[l].raw := by
  have := rawLevels_foldl r (List.finRange 14) 0 l
  simpa [rawLevels] using this

/-! ### What a reset leaves of a save (R181) -/

theorem memAfterReset_still {s : State} (h : s.run.store.phase ≠ .writing) :
    s.memAfterReset = (s.extMem, s.extTorn) := if_neg h

theorem memAfterReset_final {s : State} (h : s.run.store.phase = .writing)
    (hf : s.run.store.finalPass = true) : s.memAfterReset.2 = true := by
  simp only [State.memAfterReset, h, hf, if_true]

/-- Before the last write of page 0 a reset leaves its header length at 0. -/
theorem memAfterReset_before {s : State} (hw : s.extMem.wf = true)
    (h : s.run.store.phase = .writing) (hf : s.run.store.finalPass = false) :
    s.memAfterReset.1.read 0 = 0 ∧ s.memAfterReset.1.read 1 = 0 := by
  simp only [State.memAfterReset, h, hf, if_true, Bool.false_eq_true, if_false]
  have ht := tearPage_wf s.run.store.page hw
  have h0 := write_wf (a := 0) 0 (by decide) ht
  constructor
  · rw [read_write (a := 1) 0 0 h0, if_neg (by decide), read_write (a := 0) 0 0 ht, if_pos rfl]
  · rw [read_write (a := 1) 0 1 h0, if_pos rfl]

/-- The header of a first page that opens with two zero bytes gives length 0. -/
theorem headerLength_cleared {m : Memory} (h0 : m.read 0 = 0) (h1 : m.read 1 = 0) :
    headerLength (m.page 0) = 0 := by
  have : m.page 0 = m.read 0 :: m.read 1 :: m.readAll 2 126 := rfl
  rw [this, h0, h1]
  rfl

/-- LOADING of a part just reset finds no image when the header length reads 0: UNCONFIGURED, with the
tables empty and START_UP of outcome 1 the first record. -/
theorem loading_cleared (s : State) (cause : ResetCause) (raw : BitVec 14)
    (h : headerLength ((s.resetBy cause raw).extMem.page 0) = 0) :
    exec (.pageReadDone none) (s.resetBy cause raw) =
      .next ((s.resetBy cause raw).endLoading .unreadable) := by
  have hload : (s.resetBy cause raw).pageLoaded ((s.resetBy cause raw).extMem.page 0) =
      (s.resetBy cause raw).endLoading .unreadable := by
    unfold State.pageLoaded
    exact if_pos (.inl h)
  have hsettle : ((s.resetBy cause raw).endLoading .unreadable).settle =
      (s.resetBy cause raw).endLoading .unreadable :=
    congrArg ((s.resetBy cause raw).endLoading .unreadable).setRun
      (settleEvent_reset rfl rfl rfl rfl)
  calc exec (.pageReadDone none) (s.resetBy cause raw)
      = .next ((s.resetBy cause raw).pageLoaded ((s.resetBy cause raw).extMem.page 0)).settle := rfl
    _ = .next ((s.resetBy cause raw).endLoading .unreadable) := by rw [hload, hsettle]

/-- A reset during a save leaves no image that loads. -/
theorem resetBy_spoils (s : State) (cause : ResetCause) (raw : BitVec 14)
    (hw : s.extMem.wf = true) (hp : s.run.store.phase = .writing) :
    (s.run.store.finalPass = true → (s.resetBy cause raw).extTorn = true) ∧
      (s.run.store.finalPass = false →
        (s.resetBy cause raw).extMem.read 0 = 0 ∧ (s.resetBy cause raw).extMem.read 1 = 0 ∧
        ∃ u, exec (.pageReadDone none) (s.resetBy cause raw) = .next u ∧ u.run.gw = .unconfigured ∧
          u.cfg = Tables.reset ∧ u.run.events.records.head? = some
            { sequence := 0, time := 0, kind := .startUp, index := 0,
              detail := det2 (s.resetBy cause raw).run.store.cause.code 1 }) := by
  refine ⟨memAfterReset_final hp, fun hf => ?_⟩
  obtain ⟨h0, h1⟩ := memAfterReset_before hw hp hf
  exact ⟨h0, h1, _, loading_cleared s cause raw (headerLength_cleared h0 h1), rfl, rfl, rfl⟩

/-- Settles O5: `Run.reset` and `Tables.reset` are the Reset columns, and both are settled. -/
theorem resetsGiveTheResetValues : Obligations.ResetsGiveTheResetValues := by
  refine ⟨fun s raw hp => ⟨?_, rawLevels s.run, rawLevels_get s.run, ?_⟩,
    fun s cause raw => ⟨rfl, rfl, rfl, resetBy_settle s cause raw, fun hp => ?_, powerOn_eq s raw,
      resetPin_eq s, rawLevels_get s.run⟩, fun cause raw shown a b => ?_, ?_, fun s t raw hw hp ht => ?_⟩
  · rw [powerOn_eq, State.resetBy, memAfterReset_still hp]
    rfl
  · rw [resetPin_eq, State.resetBy, memAfterReset_still hp]
    rfl
  · have := memAfterReset_still hp
    exact ⟨congrArg Prod.fst this, congrArg Prod.snd this⟩
  · refine ⟨rfl, rfl, rfl, rfl, rfl, ⟨rfl, rfl, rfl⟩, rfl, fun i => ⟨replicate_get _ i, replicate_get _ i⟩,
      replicate_get _, replicate_get _, rfl, replicate_get _, replicate_get _, replicate_get _, rfl, rfl,
      replicate_get _, replicate_get _, fun l => ?_, replicate_get _, rfl, rfl⟩
    have hl : (Run.reset cause raw shown a b).lines[l] = resetLineRt raw l := ofFn_get _ l
    have hf : Tables.reset.lines[l] = resetLine l := ofFn_get _ l
    rw [hl, hf]
    exact ⟨rfl, rfl, rfl⟩
  · refine ⟨rfl, replicate_get _, fun i => ⟨replicate_get _ i, replicate_get _ i⟩, replicate_get _, replicate_get _,
      replicate_get _, replicate_get _, replicate_get _, replicate_get _, replicate_get _, replicate_get _,
      replicate_get _, replicate_get _, ofFn_get _, rfl⟩
  · rcases ht with ht | ht | rfl
    · rw [powerOn_eq] at ht
      cases ht
      exact resetBy_spoils s _ _ hw hp
    · rw [resetPin_eq] at ht
      cases ht
      exact resetBy_spoils s _ _ hw hp
    · exact resetBy_spoils s _ _ hw hp

end Sys2Proof.Machine
end

