-- ==== Sys2Proof/Proofs/Receiver.lean ====
section
/-! PROOFS. The console receiver (R1, R185): byte by byte, over a whole frame, and over a broken one; and the
frame that a command arrives as. -/

namespace Sys2Proof.Machine

/-! ### One byte -/

theorem setRx_self (s : State) : s.setRx s.run.console.rx = s := rfl

theorem setRx_idle {s : State} (h : s.run.console.rx = Rx.idle) : s.setRx Rx.idle = s := by
  rw [← h]
  rfl

theorem receive_nothing {s : State} {b : RxByte} {rx : Rx}
    (h : s.run.console.rx.step b = (rx, .nothing)) : s.receive b = s.setRx rx := by
  simp only [State.receive, h]

theorem receive_dropped {s : State} {b : RxByte}
    (h : s.run.console.rx.step b = (Rx.idle, .dropped)) : s.receive b = (s.setRx Rx.idle).dropFrame := by
  simp only [State.receive, h]

theorem receive_accepted {s : State} {b : RxByte} {f : Frame}
    (h : s.run.console.rx.step b = (Rx.idle, .accepted f)) :
    s.receive b = (s.setRx Rx.idle).judgeFrame f := by
  simp only [State.receive, h]

/-- A delimiter met in HUNT opens a frame. -/
theorem receive_delimiter {s : State} {b : RxByte} (hp : s.run.console.rx.phase = .hunt)
    (hb : b.byte = 0x7E) (he : b.stopError = false) :
    s.receive b = s.setRx { phase := .receiving, buffer := [] } :=
  receive_nothing (by simp [Rx.step, hp, hb, he])

/-- Any other byte met in HUNT is discarded. -/
theorem receive_discarded {s : State} {b : RxByte} (hp : s.run.console.rx.phase = .hunt)
    (hb : b.byte ≠ 0x7E ∨ b.stopError = true) : s.receive b = s := by
  refine (receive_nothing (rx := s.run.console.rx) ?_).trans (setRx_self s)
  have : (!b.stopError && b.byte == 0x7E#8) = false := by
    rcases hb with hb | hb
    · rw [show (b.byte == 0x7E#8) = false from beq_eq_false_iff_ne.mpr hb, Bool.and_false]
    · rw [hb]; rfl
  simp only [Rx.step, hp, this, Bool.false_eq_true, if_false]

/-- A stop-bit error drops the frame under way. -/
theorem receive_stopError {s : State} {b : RxByte} (hp : s.run.console.rx.phase = .receiving)
    (he : b.stopError = true) : s.receive b = (s.setRx Rx.idle).dropFrame :=
  receive_dropped (by simp only [Rx.step, hp, he, if_true])

/-- The step of the receiver within a frame. -/
theorem step_receiving {rx : Rx} {b : RxByte} (hp : rx.phase = .receiving) (he : b.stopError = false) :
    rx.step b = rxJudge (rx.buffer ++ [b.byte]) := by
  simp only [Rx.step, hp, he, Bool.false_eq_true, if_false]

theorem rxJudge_length {len : Byte} (got : List Byte) (h : len.toNat < 6 ∨ 246 < len.toNat) :
    rxJudge (len :: got) = (Rx.idle, .dropped) := by
  have : (decide (len.toNat < 6) || decide (246 < len.toNat)) = true := by simpa using h
  simp only [rxJudge, this, if_true]

theorem rxJudge_inside {len : Byte} (got : List Byte) (h : 6 ≤ len.toNat) (h' : len.toNat ≤ 246) :
    rxJudge (len :: got) =
      if got.length < len.toNat + 2 then ({ phase := .receiving, buffer := len :: got }, .nothing)
      else match frameOfBuffer (len :: got) with
        | some f => (Rx.idle, .accepted f)
        | none => (Rx.idle, .dropped) := by
  have : ¬(decide (len.toNat < 6) || decide (246 < len.toNat)) = true := by simp; omega
  simp only [rxJudge, if_neg this] <;> rfl

/-- A byte short of length and CRC joins the frame. -/
theorem rxJudge_joins {buffer : List Byte} (h : underWay buffer) :
    rxJudge buffer = ({ phase := .receiving, buffer }, .nothing) := by
  cases buffer with
  | nil => rfl
  | cons len got =>
    obtain ⟨h1, h2, h3⟩ := h
    rw [rxJudge_inside got h1 h2, if_pos h3]

/-- The bytes of a frame from its length byte on, with `w` in the place of its CRC. -/
theorem covered_whole {f : Frame} (hf : f.payload.length ≤ 240) (w : Word) :
    ∃ (len : Byte) (got : List Byte), f.covered ++ w2 w = len :: got ∧ 6 ≤ len.toNat ∧
      len.toNat ≤ 246 ∧ got.length = len.toNat + 2 := by
  have hl : (BitVec.ofNat 8 (f.payload.length + 6)).toNat = f.payload.length + 6 := by
    rw [BitVec.toNat_ofNat]
    omega
  rw [Frame.covered_eq, List.cons_append]
  refine ⟨_, _, rfl, ?_, ?_, ?_⟩
  · omega
  · omega
  · rw [hl]
    simp only [List.length_append, List.length_cons, w2_length]

theorem rxJudge_whole {f : Frame} (hf : f.payload.length ≤ 240) :
    rxJudge (f.covered ++ w2 (crc16 f.covered)) = (Rx.idle, .accepted f) := by
  obtain ⟨len, got, he, h1, h2, h3⟩ := covered_whole hf (crc16 f.covered)
  have hb := frameOfBuffer_covered f
  rw [he] at hb ⊢
  rw [rxJudge_inside got h1 h2, if_neg (by omega), hb]

theorem rxJudge_wrong {f : Frame} (hf : f.payload.length ≤ 240) {w : Word} (hw : w ≠ crc16 f.covered) :
    rxJudge (f.covered ++ w2 w) = (Rx.idle, .dropped) := by
  obtain ⟨len, got, he, h1, h2, h3⟩ := covered_whole hf w
  have hb := frameOfBuffer_wrong f w hw
  rw [he] at hb ⊢
  rw [rxJudge_inside got h1 h2, if_neg (by omega), hb]

/-! ### Many bytes -/

theorem receiveAll_append (s : State) (l l' : List RxByte) :
    s.receiveAll (l ++ l') = (s.receiveAll l).receiveAll l' := List.foldl_append

/-- What comes before a byte of a frame under way is under way. -/
theorem underWay_prefix {l l' : List Byte} (h : underWay (l ++ l')) : underWay l := by
  cases l with
  | nil => trivial
  | cons len got =>
    obtain ⟨h1, h2, h3⟩ := h
    exact ⟨h1, h2, lt_of_le_of_lt (by rw [List.append_eq, List.length_append]; omega) h3⟩

/-- The bytes of a frame under way join it one after another. -/
theorem receiveAll_joins (l : List Byte) : ∀ {s : State} {buffer : List Byte},
    s.run.console.rx = { phase := .receiving, buffer } → underWay (buffer ++ l) →
      s.receiveAll (plainBytes l) = s.setRx { phase := .receiving, buffer := buffer ++ l } := by
  induction l with
  | nil =>
    intro s buffer hs _
    rw [List.append_nil, ← hs]
    rfl
  | cons b l ih =>
    intro s buffer hs hu
    rw [← List.singleton_append, ← List.append_assoc] at hu
    have hstep : s.receive { byte := b, stopError := false } =
        s.setRx { phase := .receiving, buffer := buffer ++ [b] } :=
      receive_nothing (by rw [step_receiving (by rw [hs]) rfl, hs, rxJudge_joins (underWay_prefix hu)])
    have := ih (s := s.setRx { phase := .receiving, buffer := buffer ++ [b] }) rfl hu
    rw [List.append_assoc, List.singleton_append] at this
    rw [← hstep] at this
    exact this.trans (by rw [hstep]; rfl)

/-- A frame opened in HUNT, up to a byte of it. -/
theorem receiveAll_opened {s : State} {l : List Byte} (hp : s.run.console.rx.phase = .hunt)
    (hl : underWay l) :
    s.receiveAll (plainBytes (0x7E :: l)) = s.setRx { phase := .receiving, buffer := l } := by
  have h : s.receive { byte := 0x7E, stopError := false } =
      s.setRx { phase := .receiving, buffer := [] } := receive_delimiter hp rfl rfl
  have := receiveAll_joins l (s := s.setRx { phase := .receiving, buffer := [] }) rfl hl
  rw [← h] at this
  exact this.trans (by rw [h]; rfl)

/-- The last byte of a buffer that the receiver judges whole. -/
theorem receiveAll_last {s : State} (hp : s.run.console.rx.phase = .hunt) {l : List Byte} {b : Byte}
    (hl : underWay l) :
    s.receiveAll (plainBytes (0x7E :: (l ++ [b]))) =
      (s.setRx { phase := .receiving, buffer := l }).receive { byte := b, stopError := false } := by
  rw [← receiveAll_opened hp hl, ← List.cons_append, plainBytes, List.map_append]
  exact receiveAll_append s _ _

/-- A whole frame is under way up to its last byte. -/
theorem covered_last {f : Frame} (hf : f.payload.length ≤ 240) (w : Word) :
    ∃ l b, f.covered ++ w2 w = l ++ [b] ∧ underWay l := by
  obtain ⟨len, got, he, h1, h2, h3⟩ := covered_whole hf w
  have hne : len :: got ≠ [] := List.cons_ne_nil _ _
  refine ⟨(len :: got).dropLast, (len :: got).getLast hne, he.trans (List.dropLast_append_getLast hne).symm, ?_⟩
  cases got with
  | nil => simp at h3
  | cons x got =>
    refine ⟨h1, h2, ?_⟩
    simp only [List.length_dropLast, List.length_cons] at h3 ⊢
    omega

theorem receive_judged {s : State} {l : List Byte} {b : Byte} {o : RxResult}
    (h : rxJudge (l ++ [b]) = (Rx.idle, o)) :
    (s.setRx { phase := .receiving, buffer := l }).run.console.rx.step
      { byte := b, stopError := false } = (Rx.idle, o) :=
  (step_receiving rfl rfl).trans h

/-- Settles O6: the delimiter opens the frame, its bytes join it, and the last one has it judged. -/
theorem receiverReadsBackEveryFrame : Obligations.ReceiverReadsBackEveryFrame := by
  intro s f hf hs
  have hp : s.run.console.rx.phase = .hunt := by rw [hs]; rfl
  obtain ⟨l, b, he, hl⟩ := covered_last hf (crc16 f.covered)
  have hw := rxJudge_whole hf
  rw [he] at hw
  have hwire : f.rxBytes = plainBytes (0x7E :: (l ++ [b])) := by rw [← he]; rfl
  rw [hwire, receiveAll_last hp hl, receive_accepted (receive_judged hw)]
  exact congrArg (State.judgeFrame · f) (setRx_idle hs)

/-! ### Frames that are dropped -/

theorem event_dropped {s : State} {f : State → State} (h : f s = (s.setRx Rx.idle).dropFrame) :
    s.event f = droppedFrame s :=
  congrArg (fun t : State => Host.Outcome.next t.settle) h

/-- A buffer that the receiver drops at its last byte. -/
theorem consoleFrameDropped_judged {s : State} (hp : s.run.console.rx.phase = .hunt) {l : List Byte}
    {b : Byte} (hl : underWay l) (h : rxJudge (l ++ [b]) = (Rx.idle, .dropped)) :
    exec (.consoleFrameDropped (plainBytes (0x7E :: (l ++ [b])))) s = droppedFrame s := by
  refine event_dropped (f := (·.receiveAll _)) ?_
  rw [receiveAll_last hp hl, receive_dropped (receive_judged h)]
  rfl

theorem consoleFrameDropped_stopError {s : State} (hp : s.run.console.rx.phase = .hunt) {l : List Byte}
    (hl : underWay l) (b : Byte) :
    exec (.consoleFrameDropped (plainBytes (0x7E :: l) ++ [{ byte := b, stopError := true }])) s
      = droppedFrame s := by
  refine event_dropped (f := (·.receiveAll _)) ?_
  rw [receiveAll_append, receiveAll_opened hp hl]
  exact receive_stopError (s := s.setRx { phase := .receiving, buffer := l })
    (b := { byte := b, stopError := true }) rfl rfl

theorem consoleByteGap {s : State} (hp : s.run.console.rx.phase = .hunt) {l : List Byte}
    (hl : underWay l) : exec (.consoleByteGapExpiry (plainBytes (0x7E :: l))) s = droppedFrame s := by
  refine event_dropped (f := fun s => (s.receiveAll _).byteGap) ?_
  rw [receiveAll_opened hp hl]
  rfl

/-! ### The frame a command arrives as (R2, R4) -/

/-- A command that arrives as `f`: its meaning is the arrival of `f`, and in HUNT its judging. -/
def ArrivesAs (o : State → Out) (f : Frame) : Prop :=
  ∃ k : State → State, (∀ s, o s = s.event fun s => s.arrive f k) ∧ ∀ s, k s = s.judgeFrame f

theorem manage_eq (s : State) (req : Req) (m : Management) (k : State → State) (hd : req.dst = 0)
    {code : Byte} {body : List Byte} (hm : managementOfCode code.toNat = some m)
    (hk : k s = s.handle req body m) :
    s.manage req m k = s.manageFrame req (code :: body) := by
  unfold State.manageFrame
  by_cases hb : busyNow s.run = true
  · rw [if_pos hb, State.manage, if_pos hb]
  · rw [if_neg hb, if_neg (by rw [hd]; simp)]
    simp only [hm, State.manage, hk]

theorem managed_arrivesAs (src : Word) (tag code : Byte) (body : List Byte) {m : Management}
    {k : State → State} (hm : managementOfCode code.toNat = some m)
    (hk : ∀ s, k s = s.handle (manageReq src tag) body m) :
    ArrivesAs (fun s => s.managed src tag code body m k) (managementFrame src tag (code :: body)) :=
  ⟨_, fun _ => rfl, fun s => (manage_eq s _ m k rfl hm (hk s)).trans (if_pos rfl).symm⟩

theorem requested_arrivesAs (src dst : Word) (tag code : Byte) (body : List Byte) :
    ArrivesAs (fun s => s.requested src dst tag code body)
      (functionFrame src dst tag (code :: body)) := by
  refine ⟨_, fun _ => rfl, fun s => ?_⟩
  rfl

/-- A WRITE ENTRY frame's table is read back from its id. -/
theorem reads_tableId (t : Table) (body : List Byte) :
    (fld tableId : Parse Table) { field := 1, bytes := BitVec.ofNat 8 t.id :: body } =
      .ok (t, { field := 2, bytes := body }) := by
  cases t <;> rfl

theorem writing_arrivesAs (src : Word) (tag : Byte) (t : Table) (body : List Byte) :
    ArrivesAs (fun s => s.writing src tag t body) (writeFrame src tag t body) := by
  refine ⟨_, fun _ => rfl, fun s => (manage_eq s _ _ _ rfl rfl ?_).trans (if_pos rfl).symm⟩
  simp only [State.handle, State.doWriteAny, reads_tableId]

/-- Every command that is a console frame arrives as it, and in HUNT is judged by R2. -/
theorem exec_arrivesAs {i : Instr} {f : Frame} (h : i.frame = some f) : ArrivesAs (exec i) f := by
  cases i with
  | readEntry | clearTable | readStatus | collectEvents | saveConfig | start | restart | trunkHold
  | trunkRelease | lampTest | setOutput =>
    cases h
    exact managed_arrivesAs _ _ _ _ rfl fun _ => rfl
  | writeEntryRoute | writeEntryPermit | writeEntryReport | writeEntryTrunk | writeEntryNode
  | writeEntryAxis | writeEntryProfile | writeEntryZone | writeEntryDoor | writeEntryArea
  | writeEntryChannel | writeEntryMonitor | writeEntryMstate | writeEntryLamp | writeEntryLine
  | writeEntryParam =>
    cases h
    exact writing_arrivesAs _ _ _ _
  | move | stop | keep | release | take | grantLocal | derate | planStart | planKeep | planCancel
  | zoneClose | reopen | override | doorOpenRequest | doorCloseRequest | placeCall | withdrawCall
  | enable | disable | monitorRestart | readLines | linesSetOutput =>
    cases h
    exact requested_arrivesAs _ _ _ _ _
  | invalidKindFrame | nodeCommand | passRequest =>
    cases h
    exact ⟨_, fun _ => rfl, fun _ => rfl⟩
  | _ => cases h

theorem exec_hunt {s : State} {i : Instr} {f : Frame} (h : i.frame = some f)
    (hl : f.payload.length ≤ 240) (hp : s.run.console.rx.phase = .hunt) :
    exec i s = .next (s.judgeFrame f).settle := by
  obtain ⟨k, hk, hj⟩ := exec_arrivesAs h
  rw [hk, State.event, State.arrive, if_neg (show ¬maxConsolePayload < f.payload.length from by
    unfold maxConsolePayload; omega)]
  simp only [hp, hj]

theorem exec_receiving {s : State} {i : Instr} {f : Frame} (h : i.frame = some f)
    (hl : f.payload.length ≤ 240) (hp : s.run.console.rx.phase = .receiving) :
    exec i s = .next (s.receiveAll (plainBytes f.wire)).settle := by
  obtain ⟨k, hk, -⟩ := exec_arrivesAs h
  rw [hk, State.event, State.arrive, if_neg (show ¬maxConsolePayload < f.payload.length from by
    unfold maxConsolePayload; omega)]
  simp only [hp]
  rfl

/-- Settles O7: a broken frame is dropped at the byte that breaks it, and each byte within a frame joins
it, drops it or has it judged. -/
theorem brokenFramesAreDroppedAndCounted : Obligations.BrokenFramesAreDroppedAndCounted := by
  refine ⟨fun s hp => ⟨fun f w hf hw => ?_, fun len hlen => ?_, fun l b hl => ?_, fun l hl => ?_⟩,
    fun s i f => exec_receiving, fun s b rest => ⟨rfl, rfl⟩, fun s b => ⟨fun hp => ?_, fun hp => ?_⟩⟩
  · obtain ⟨l, b, he, hl⟩ := covered_last hf w
    have hj := rxJudge_wrong hf hw
    rw [he] at hj ⊢
    exact consoleFrameDropped_judged hp hl hj
  · exact consoleFrameDropped_judged (l := []) hp trivial (rxJudge_length [] hlen)
  · exact consoleFrameDropped_stopError hp hl b
  · exact consoleByteGap hp hl
  · exact ⟨receive_delimiter hp, receive_discarded hp⟩
  · refine ⟨receive_stopError hp, fun he len got hb => ?_⟩
    have hstep := step_receiving hp he
    rw [hb] at hstep
    refine ⟨fun hl => ?_, fun h6 h246 => ⟨fun hg => ?_, fun f w hf hw => ⟨fun hc => ?_, fun hc => ?_⟩⟩⟩
    · exact receive_dropped (hstep.trans (rxJudge_length got hl))
    · have := receive_nothing (hstep.trans (rxJudge_joins ⟨h6, h246, hg⟩))
      rwa [← hb] at this
    · rw [hw, hc, rxJudge_whole hf] at hstep
      exact receive_accepted hstep
    · rw [hw, rxJudge_wrong hf hc] at hstep
      exact receive_dropped hstep

end Sys2Proof.Machine
end

