-- ==== Sys2Proof/Proofs/Judging.lean ====
section
/-! PROOFS. The judging of an accepted frame (R2) and of a management request (R4): the order of the steps,
and the forms, field by field. -/

namespace Sys2Proof.Machine

/-! ### Readers that refuse -/

/-- The reader refuses these bytes in the field it reads. -/
def Refuses {α : Type} (p : Parse α) (bytes : List Byte) : Prop :=
  ∀ field, p { field, bytes } = .error field

theorem bind_error {α β : Type} {p : Parse α} {f : α → Parse β} {k : Cursor} {n : Nat}
    (h : p k = .error n) : (p >>= f) k = .error n := by
  show Except.bind (p k) (fun x => f x.1 x.2) = _
  rw [h]
  rfl

theorem Refuses.bind {α β : Type} {p : Parse α} {f : α → Parse β} {bytes : List Byte}
    (h : Refuses p bytes) : Refuses (p >>= f) bytes := fun field => bind_error (h field)

theorem Refuses.fld {α : Type} {p : Parse α} {bytes : List Byte} (h : Refuses p bytes) :
    Refuses (Machine.fld p) bytes := h.bind

theorem fld_ok {α : Type} {p : Parse α} {field : Nat} {bytes rest : List Byte} {a : α}
    (h : p { field, bytes } = .ok (a, { field, bytes := rest })) :
    Machine.fld p { field, bytes } = .ok (a, { field := field + 1, bytes := rest }) := by
  unfold Machine.fld
  rw [bind_ok h]
  rfl

/-- A form whose fields are refused. -/
theorem form_refused {α : Type} {p : Parse α} {body : List Byte} {n : Nat}
    (h : p { field := 1, bytes := body } = .error n) : (form p).run' 1 body = .error n := by
  unfold Parse.run' form
  rw [bind_error h]

/-- A form with bytes behind its last field is refused with the number of fields. -/
theorem form_more {α : Type} {p : Parse α} {body rest : List Byte} {n : Nat} {a : α} {b : Byte}
    (h : p { field := 1, bytes := body } = .ok (a, { field := n, bytes := b :: rest })) :
    (form p).run' 1 body = .error n := by
  unfold Parse.run' form
  rw [bind_ok h]
  rfl

/-- A form read whole. -/
theorem form_ok {α : Type} {p : Parse α} {body : List Byte} {n : Nat} {a : α}
    (h : p { field := 1, bytes := body } = .ok (a, { field := n, bytes := [] })) :
    (form p).run' 1 body = .ok a := by
  unfold Parse.run' form
  rw [bind_ok h]
  rfl

theorem need_false {α : Type} {ok : Bool} (h : ok = false) (a : α) : need ok a = bad := by
  rw [need, h]
  rfl

/-! ### One-byte and two-byte fields -/

theorem refuses_num1 : Refuses num1 [] := fun _ => rfl

theorem num1_ok (field : Nat) (b : Byte) (rest : List Byte) :
    num1 { field, bytes := b :: rest } = .ok (b.toNat, { field, bytes := rest }) := rfl

/-- One byte, then a test that fails. -/
theorem refuses_num1_then {α : Type} {f : Nat → Parse α} {b : Byte} (h : f b.toNat = bad)
    (rest : List Byte) : Refuses (num1 >>= f) (b :: rest) := fun field => by
  rw [bind_ok (num1_ok field b rest), h]
  rfl

theorem refuses_bool1_nil : Refuses bool1 [] := fun _ => rfl

theorem refuses_bool1 {b : Byte} (h : 1 < b.toNat) (rest : List Byte) :
    Refuses bool1 (b :: rest) := fun field => by
  unfold bool1
  refine bind_error (refuses_num1_then (need_false ?_ _) rest field)
  simp; omega

theorem bool1_ok {b : Byte} (h : b.toNat ≤ 1) (field : Nat) (rest : List Byte) :
    bool1 { field, bytes := b :: rest } = .ok (b.toNat == 1, { field, bytes := rest }) := by
  have : nat1 0 1 { field, bytes := b :: rest } = .ok (b.toNat, { field, bytes := rest }) := by
    unfold nat1
    rw [bind_ok (num1_ok field b rest), need_true (by simpa using h)]
    rfl
  unfold bool1
  rw [bind_ok this]
  rfl

theorem refuses_fin1_nil (n : Nat) : Refuses (fin1 n) [] := fun _ => rfl

theorem refuses_fin1 {n : Nat} {b : Byte} (h : n ≤ b.toNat) (rest : List Byte) :
    Refuses (fin1 n) (b :: rest) := refuses_num1_then (dif_neg (Nat.not_lt.mpr h)) rest

theorem fin1_ok {n : Nat} {b : Byte} (h : b.toNat < n) (field : Nat) (rest : List Byte) :
    fin1 n { field, bytes := b :: rest } = .ok (⟨b.toNat, h⟩, { field, bytes := rest }) := by
  unfold fin1
  rw [bind_ok (num1_ok field b rest), dif_pos h]
  rfl

theorem tableOfId_unknown {n : Nat} (h : n = 0 ∨ 16 < n) : tableOfId n = none := by
  unfold tableOfId
  split
  · rfl
  · refine List.getElem?_eq_none ?_
    have : allTables.length = 16 := rfl
    omega

theorem tableOfId_id (t : Table) : tableOfId t.id = some t := by cases t <;> rfl

theorem refuses_tableId_nil : Refuses tableId [] := fun _ => rfl

theorem refuses_tableId {b : Byte} (h : b.toNat = 0 ∨ 16 < b.toNat) (rest : List Byte) :
    Refuses tableId (b :: rest) :=
  refuses_num1_then (by rw [tableOfId_unknown h]) rest

theorem tableId_ok {b : Byte} {t : Table} (h : b.toNat = t.id) (field : Nat) (rest : List Byte) :
    tableId { field, bytes := b :: rest } = .ok (t, { field, bytes := rest }) := by
  unfold tableId
  rw [bind_ok (num1_ok field b rest), h]
  simp only [tableOfId_id]
  rfl

theorem allTables_id : ∀ k : Fin 16, (tableOfId (k.val + 1)).map Table.id = some (k.val + 1) := by
  decide

/-- A byte that is not unknown is the id of a table. -/
theorem table_of_known {n : Nat} (h : ¬(n = 0 ∨ 16 < n)) : ∃ t : Table, n = t.id := by
  obtain ⟨t, -, ht⟩ := Option.map_eq_some_iff.mp (allTables_id ⟨n - 1, by omega⟩)
  dsimp only at ht
  exact ⟨t, by omega⟩

theorem refuses_nat2_nil (lo hi : Nat) : Refuses (nat2 lo hi) [] := fun _ => rfl

theorem refuses_nat2_one (lo hi : Nat) (b : Byte) : Refuses (nat2 lo hi) [b] := fun _ => rfl

theorem word_ok (field : Nat) (hi lo : Byte) (rest : List Byte) :
    word { field, bytes := hi :: lo :: rest } = .ok (word2 hi lo, { field, bytes := rest }) := rfl

theorem refuses_index {n : Nat} {hi lo : Byte} (hn : 0 < n) (h : n ≤ (word2 hi lo).toNat)
    (rest : List Byte) : Refuses (nat2 0 (n - 1)) (hi :: lo :: rest) := fun field => by
  unfold nat2
  rw [bind_ok (word_ok field hi lo rest), need_false (by simp; omega)]
  rfl

theorem index_ok {n : Nat} {hi lo : Byte} (h : (word2 hi lo).toNat < n) (field : Nat)
    (rest : List Byte) : nat2 0 (n - 1) { field, bytes := hi :: lo :: rest } =
      .ok ((word2 hi lo).toNat, { field, bytes := rest }) := by
  unfold nat2
  rw [bind_ok (word_ok field hi lo rest), need_true (by simp; omega)]
  rfl

theorem entries_pos (t : Table) : 0 < t.entries := by cases t <;> decide

/-! ### Management requests that are served -/

theorem formed_refused {α : Type} {p : Parse α} {body : List Byte} {n : Nat}
    (h : p.run' 1 body = .error n) (s : State) (req : Req) (k : α → State) :
    s.formed req p body k = s.answer req (.badRequest, det n) [] := by
  simp only [State.formed, h]

theorem formed_ok {α : Type} {p : Parse α} {body : List Byte} {a : α} (h : p.run' 1 body = .ok a)
    (s : State) (req : Req) (k : α → State) : s.formed req p body k = k a := by
  simp only [State.formed, h]

theorem formNone_more (b : Byte) (l : List Byte) : formNone.run' 1 (b :: l) = .error 1 := rfl

/-- A served request that changes nothing but its ANSWER. -/
theorem managed_answers {s : State} {m : Management} (h : Serves s m) (src : Word) (tag code : Byte)
    {body : List Byte} {k : State → State} {v : Verdict} {data : List Byte} (hl : body.length ≤ 239)
    (hk : k s = s.answer (manageReq src tag) v data) :
    s.managed src tag code body m k = answered s s.run { src, dst := 0, tag } v data := by
  rw [managed_serves h src tag code k hl, hk]
  rfl

/-! Each request with a form, when the form is refused. -/

section
variable {s : State} {body : List Byte} {n : Nat} (src : Word) (tag : Byte) (hl : body.length ≤ 239)
include hl

theorem collectEvents_refused (h : Serves s .collectEvents) (hp : formNone.run' 1 body = .error n) :
    exec (.collectEvents src tag body) s = answered s s.run { src, dst := 0, tag } (.badRequest, det n) [] :=
  managed_answers h src tag 0x05 (k := fun s => s.doCollect (manageReq src tag) body) hl
    (formed_refused hp s _ _)

theorem saveConfig_refused (h : Serves s .saveConfig) (hp : formNone.run' 1 body = .error n) :
    exec (.saveConfig src tag body) s = answered s s.run { src, dst := 0, tag } (.badRequest, det n) [] :=
  managed_answers h src tag 0x06 (k := fun s => s.doSave (manageReq src tag) body) hl
    (formed_refused hp s _ _)

theorem start_refused (h : Serves s .start) (hp : formNone.run' 1 body = .error n) :
    exec (.start src tag body) s = answered s s.run { src, dst := 0, tag } (.badRequest, det n) [] :=
  managed_answers h src tag 0x07 (k := fun s => s.doStart (manageReq src tag) body) hl
    (formed_refused hp s _ _)

theorem restart_refused (h : Serves s .restart) (hp : formNone.run' 1 body = .error n) :
    exec (.restart src tag body) s = answered s s.run { src, dst := 0, tag } (.badRequest, det n) [] :=
  managed_answers h src tag 0x08 (k := fun s => s.doRestart (manageReq src tag) body) hl
    (formed_refused hp s _ _)

theorem lampTest_refused (h : Serves s .lampTest) (hp : formNone.run' 1 body = .error n) :
    exec (.lampTest src tag body) s = answered s s.run { src, dst := 0, tag } (.badRequest, det n) [] :=
  managed_answers h src tag 0x0b (k := fun s => s.doLampTest (manageReq src tag) body) hl
    (formed_refused hp s _ _)

theorem readStatus_refused (h : Serves s .readStatus) (hp : formClear.run' 1 body = .error n) :
    exec (.readStatus src tag body) s = answered s s.run { src, dst := 0, tag } (.badRequest, det n) [] :=
  managed_answers h src tag 0x04 (k := fun s => s.doReadStatus (manageReq src tag) body) hl
    (formed_refused hp s _ _)

theorem trunkHold_refused (h : Serves s .trunkHold) (hp : formTrunk.run' 1 body = .error n) :
    exec (.trunkHold src tag body) s = answered s s.run { src, dst := 0, tag } (.badRequest, det n) [] :=
  managed_answers h src tag 0x09 (k := fun s => s.doTrunkHold (manageReq src tag) body) hl
    (formed_refused hp s _ _)

theorem trunkRelease_refused (h : Serves s .trunkRelease) (hp : formTrunk.run' 1 body = .error n) :
    exec (.trunkRelease src tag body) s = answered s s.run { src, dst := 0, tag } (.badRequest, det n) [] :=
  managed_answers h src tag 0x0a (k := fun s => s.doTrunkRelease (manageReq src tag) body) hl
    (formed_refused hp s _ _)

theorem setOutput_refused (h : Serves s .setOutput) (hp : formSetOutput.run' 1 body = .error n) :
    exec (.setOutput src tag body) s = answered s s.run { src, dst := 0, tag } (.badRequest, det n) [] :=
  managed_answers h src tag 0x0c (k := fun s => s.doSetOutput (manageReq src tag) body) hl
    (formed_refused hp s _ _)

theorem readEntry_refused (h : Serves s .readEntry) (hp : formRead.run' 1 body = .error n) :
    exec (.readEntry src tag body) s =
      answered s s.run { src, dst := 0, tag } (.badRequest, det n) [] := by
  refine managed_answers h src tag 0x01 (k := fun s => s.doReadEntry (manageReq src tag) body) hl ?_
  simp only [State.doReadEntry, readEntry, hp]

theorem clearTable_refused (h : Serves s .clearTable) (hp : formTable.run' 1 body = .error n) :
    exec (.clearTable src tag body) s =
      answered s s.run { src, dst := 0, tag } (.badRequest, det n) [] := by
  refine managed_answers h src tag 0x03 (k := fun s => s.doClearTable (manageReq src tag) body) hl ?_
  simp only [State.doClearTable, clearRequest, hp]
  rfl
end

theorem writing_serves {s : State} (h : Serves s .writeEntry) (src : Word) (tag : Byte) (t : Table)
    {body : List Byte} (hl : body.length ≤ 238) :
    s.writing src tag t body = .next (s.doWriteEntry (manageReq src tag) t body).settle := by
  refine managed_serves h src tag 2 (body := BitVec.ofNat 8 t.id :: body)
    (fun s => s.doWriteEntry (manageReq src tag) t body) ?_
  rw [List.length_cons]
  omega

theorem writeCommand_eq (src : Word) (tag : Byte) (body : List Byte) (t : Table) (s : State) :
    exec (writeCommand src tag body t) s = s.writing src tag t body := by cases t <;> rfl

/-- An index that is missing or not there. -/
theorem writeCommand_refused {s : State} (h : Serves s .writeEntry) (src : Word) (tag : Byte)
    {t : Table} {body : List Byte} (hl : body.length ≤ 238)
    (hb : Refuses (nat2 0 (t.entries - 1)) body) :
    exec (writeCommand src tag body t) s =
      answered s s.run { src, dst := 0, tag } (.badRequest, det 2) [] := by
  rw [writeCommand_eq, writing_serves h src tag t hl, State.doWriteEntry, writeEntry, hb.fld 2]
  rfl

/-! ### The order of R2 -/

theorem judgeFrame_busy {s : State} (h : busyNow s.run = true) (f : Frame) :
    s.judgeFrame f = s.answer f.req (.busy, 0) [] := by
  unfold State.judgeFrame
  split
  · exact if_pos h
  · split
    · exact if_pos h
    · split
      · exact if_pos h
      · split <;> exact if_pos h

theorem listening_free {s : State} (h : Listening s) : ¬busyNow s.run = true := by
  obtain ⟨-, hg, hr⟩ := h
  simp [busyNow, hg, hr]

theorem judgeFrame_management {s : State} {f : Frame} (hk : f.kind = kindManagement) :
    s.judgeFrame f = s.manageFrame f.req f.payload := if_pos hk

theorem judgeFrame_function {s : State} {f : Frame} (hk : f.kind = kindFunctionRequest) :
    s.judgeFrame f = s.deckFrame f.req fun c r => Run.functionFrame c r f.req f.payload := by
  unfold State.judgeFrame
  rw [hk, if_neg (by decide), if_pos rfl]

theorem judgeFrame_command {s : State} {f : Frame} (hk : f.kind = kindNodeCommand) :
    s.judgeFrame f = s.deckFrame f.req fun c r => Run.commandFrame c r f.req f.payload := by
  unfold State.judgeFrame
  rw [hk, if_neg (by decide), if_neg (by decide), if_pos rfl]

theorem judgeFrame_pass {s : State} {f : Frame} (hk : f.kind = kindPass) :
    s.judgeFrame f = s.deckFrame f.req fun c r => Run.passFrame c r f.req f.payload := by
  unfold State.judgeFrame
  rw [hk, if_neg (by decide), if_neg (by decide), if_neg (by decide), if_pos rfl]

/-- The three kinds of request that go to a station other than 0000h. -/
theorem judgeFrame_deck (s : State) {f : Frame}
    (hk : f.kind = kindNodeCommand ∨ f.kind = kindFunctionRequest ∨ f.kind = kindPass) :
    ∃ k, s.judgeFrame f = s.deckFrame f.req k := by
  rcases hk with hk | hk | hk
  · exact ⟨_, judgeFrame_command hk⟩
  · exact ⟨_, judgeFrame_function hk⟩
  · exact ⟨_, judgeFrame_pass hk⟩

theorem deckFrame_station0 {s : State} (h : Listening s) {req : Req} (hd : req.dst = 0)
    (k : Tables → Run → Run) : s.deckFrame req k = s.answer req (.badRequest, 0) [] := by
  rw [State.deckFrame, if_neg (listening_free h), if_pos hd]

theorem deckFrame_unconfigured {s : State} (h : Listening s) {req : Req} (hd : req.dst ≠ 0)
    (hg : s.run.gw = .unconfigured) (k : Tables → Run → Run) :
    s.deckFrame req k = s.answer req (.unconfigured, 0) [] := by
  rw [State.deckFrame, if_neg (listening_free h), if_neg hd, if_pos hg]

theorem deckFrame_handed {s : State} (h : Listening s) {req : Req} (hd : req.dst ≠ 0)
    (hg : s.run.gw ≠ .unconfigured) (k : Tables → Run → Run) :
    s.deckFrame req k = s.setRun (k s.cfg s.run) := by
  rw [State.deckFrame, if_neg (listening_free h), if_neg hd, if_neg hg]

/-- A frame of no request kind, or of one that disagrees with its destination. -/
theorem judgeFrame_invalid {s : State} (h : Listening s) {f : Frame}
    (hi : invalidKind f.kind f.dst = true) : s.judgeFrame f = s.answer f.req (.badRequest, 0) [] := by
  unfold invalidKind at hi
  by_cases hm : f.kind = kindManagement
  · rw [if_pos hm] at hi
    rw [judgeFrame_management hm]
    unfold State.manageFrame
    rw [if_neg (listening_free h), if_pos (show f.req.dst ≠ 0 from bne_iff_ne.mp hi)]
  · rw [if_neg hm] at hi
    by_cases hk : f.kind = kindNodeCommand ∨ f.kind = kindFunctionRequest ∨ f.kind = kindPass
    · rw [if_pos hk] at hi
      obtain ⟨k, hj⟩ := judgeFrame_deck s hk
      rw [hj, deckFrame_station0 h (show f.req.dst = 0 from beq_iff_eq.mp hi)]
    · obtain ⟨hc, hf, hp⟩ := not_or.mp hk |>.imp id not_or.mp
      rw [State.judgeFrame, if_neg hm, if_neg hf, if_neg hc, if_neg hp, State.otherFrame,
        if_neg (listening_free h)]

/-! ### The order of R4 -/

theorem manageFrame_noCode {s : State} (h : Listening s) {req : Req} (hd : req.dst = 0) :
    s.manageFrame req [] = s.answer req (.badRequest, 0) [] := by
  rw [State.manageFrame, if_neg (listening_free h), if_neg (not_not.mpr hd)]

theorem manageFrame_unknown {s : State} (h : Listening s) {req : Req} (hd : req.dst = 0)
    {code : Byte} (hc : managementOfCode code.toNat = none) (body : List Byte) :
    s.manageFrame req (code :: body) = s.answer req (.badRequest, 0) [] := by
  rw [State.manageFrame, if_neg (listening_free h), if_neg (not_not.mpr hd)]
  simp only [hc]

theorem manageFrame_gated {s : State} (h : Listening s) {req : Req} (hd : req.dst = 0)
    {code : Byte} {m : Management} (hc : managementOfCode code.toNat = some m) {v : Verdict}
    (hg : gated m s.run.gw = some v) (body : List Byte) :
    s.manageFrame req (code :: body) = s.answer req v [] := by
  rw [State.manageFrame, if_neg (listening_free h), if_neg (not_not.mpr hd)]
  simp only [hc, State.manage, if_neg (listening_free h), hg]

theorem manageFrame_serves {s : State} {m : Management} (h : Serves s m) {req : Req}
    (hd : req.dst = 0) {code : Byte} (hc : managementOfCode code.toNat = some m) (body : List Byte) :
    s.manageFrame req (code :: body) = s.handle req body m := by
  rw [State.manageFrame, if_neg (listening_free h.1), if_neg (not_not.mpr hd)]
  simp only [hc, State.manage, if_neg (listening_free h.1), h.2]

/-- A frame that is judged to an ANSWER and nothing else. -/
theorem exec_answers {s : State} {i : Instr} {f : Frame} (h : i.frame = some f)
    (hl : f.payload.length ≤ 240) (hp : s.run.console.rx.phase = .hunt) {v : Verdict}
    (hj : s.judgeFrame f = s.answer f.req v []) : exec i s = answered s s.run f.req v [] := by
  rw [exec_hunt h hl hp, hj]
  rfl

/-- R2 for every command that is a console frame. -/
theorem exec_judgedByR2 (s : State) (i : Instr) (f : Frame) (h : i.frame = some f)
    (hl : f.payload.length ≤ 240) (hp : s.run.console.rx.phase = .hunt) :
    (s.run.gw = .loading ∨ s.run.console.restartPending = true →
       exec i s = answered s s.run f.req (.busy, 0) []) ∧
     (Listening s → invalidKind f.kind f.dst = true →
       exec i s = answered s s.run f.req (.badRequest, 0) []) ∧
     (Listening s → f.dst ≠ 0 → s.run.gw = .unconfigured →
       f.kind = kindNodeCommand ∨ f.kind = kindFunctionRequest ∨ f.kind = kindPass →
       exec i s = answered s s.run f.req (.unconfigured, 0) []) ∧
     (Listening s → f.dst = 0 → f.kind = kindManagement →
       exec i s = .next (s.manageFrame f.req f.payload).settle) ∧
     (Listening s → f.dst ≠ 0 → s.run.gw ≠ .unconfigured →
       (f.kind = kindFunctionRequest →
         exec i s = closed s (Run.functionFrame s.cfg s.run f.req f.payload)) ∧
       (f.kind = kindNodeCommand →
         exec i s = closed s (Run.commandFrame s.cfg s.run f.req f.payload)) ∧
       (f.kind = kindPass → exec i s = closed s (Run.passFrame s.cfg s.run f.req f.payload))) := by
  have hgo := exec_hunt h hl hp
  refine ⟨fun hb => ?_, fun hs hi => ?_, fun hs hd hg hk => ?_, fun hs hd hk => ?_, fun hs hd hg =>
    ⟨fun hk => ?_, fun hk => ?_, fun hk => ?_⟩⟩
  · refine exec_answers h hl hp (judgeFrame_busy ?_ f)
    rcases hb with hb | hb <;> simp [busyNow, hb]
  · exact exec_answers h hl hp (judgeFrame_invalid hs hi)
  · obtain ⟨k, hj⟩ := judgeFrame_deck s hk
    exact exec_answers h hl hp (hj.trans (deckFrame_unconfigured hs hd hg k))
  · rw [hgo, judgeFrame_management hk]
  · rw [hgo, judgeFrame_function hk, deckFrame_handed hs hd hg]
    rfl
  · rw [hgo, judgeFrame_command hk, deckFrame_handed hs hd hg]
    rfl
  · rw [hgo, judgeFrame_pass hk, deckFrame_handed hs hd hg]
    rfl

/-- Settles O8: R2's and R4's steps in order, then each form, field by field. -/
theorem framesAndManagementAreJudgedInOrder : Obligations.FramesAndManagementAreJudgedInOrder := by
  refine ⟨⟨fun s i f => exec_hunt, exec_judgedByR2, fun s kind src dst tag payload hs hi hl =>
      exec_answers (f := { dst, src, tag, kind, payload }) rfl hl hs.1 (judgeFrame_invalid hs hi)⟩,
    ⟨fun s f hk hd hp hs => ?_, fun s i f code body h hk hd hp hl hs => ?_, fun m => ?_⟩,
    fun s src tag b x y hi lo more hl => ?_⟩
  · have hj : s.judgeFrame f = s.answer f.req (.badRequest, 0) [] := by
      rw [judgeFrame_management hk, hp, manageFrame_noCode hs hd]
    exact ⟨hj, fun i h => exec_answers h (by rw [hp]; exact Nat.zero_le _) hs.1 hj⟩
  · have hf : f.payload.length ≤ 240 := by
      rw [hp, List.length_cons]
      omega
    have hj : s.judgeFrame f = s.manageFrame f.req (code :: body) := by
      rw [judgeFrame_management hk, hp]
    exact ⟨fun hc => exec_answers h hf hs.1 (hj.trans (manageFrame_unknown hs hd hc body)),
      fun m v hc hg => exec_answers h hf hs.1 (hj.trans (manageFrame_gated hs hd hc hg body))⟩
  · cases m <;> exact ⟨rfl, rfl, rfl⟩
  · have l1 : (b :: more).length ≤ 239 := by rw [List.length_cons]; omega
    have l2 : (b :: x :: more).length ≤ 239 := by simp only [List.length_cons]; omega
    have l3 : (b :: x :: y :: more).length ≤ 239 := by simp only [List.length_cons]; omega
    have l4 : (b :: hi :: lo :: x :: more).length ≤ 239 := by simp only [List.length_cons]; omega
    have l0 : ([] : List Byte).length ≤ 239 := by decide
    have l5 : [b].length ≤ 239 := by simp
    have l6 : [b, hi].length ≤ 239 := by simp
    have l7 : (b :: hi :: lo :: more).length ≤ 239 := by simp only [List.length_cons]; omega
    have hmore := formNone_more b more
    refine ⟨fun h => collectEvents_refused src tag l1 h hmore,
      fun h => saveConfig_refused src tag l1 h hmore, fun h => start_refused src tag l1 h hmore,
      fun h => restart_refused src tag l1 h hmore, fun h => lampTest_refused src tag l1 h hmore, ?_⟩
    refine ⟨fun h => ⟨?_, fun hb => ?_, fun hb => ?_⟩, fun h => ⟨?_, fun hb => ?_, fun hb => ?_⟩,
      fun h => ⟨?_, fun hb => ?_, fun hb => ?_⟩, fun h => ⟨?_, fun hb => ?_, fun hb => ?_⟩,
      fun h => ⟨?_, fun hb => ?_, fun hb => ⟨?_, fun hx => ?_, fun hx => ?_⟩⟩,
      fun h => ⟨?_, fun hb => ?_, fun t ht => ⟨?_, ?_, fun hi => ?_, fun hi => ?_⟩⟩, fun h => ⟨?_, ?_⟩⟩
    · exact readStatus_refused src tag l0 h (form_refused (refuses_bool1_nil.fld 1))
    · exact readStatus_refused src tag l1 h (form_refused ((refuses_bool1 hb more).fld 1))
    · exact readStatus_refused src tag l2 h (form_more (fld_ok (bool1_ok hb 1 _)))
    · exact trunkHold_refused src tag l0 h (form_refused ((refuses_fin1_nil 4).fld 1))
    · exact trunkHold_refused src tag l1 h (form_refused ((refuses_fin1 hb more).fld 1))
    · exact trunkHold_refused src tag l2 h (form_more (fld_ok (fin1_ok hb 1 _)))
    · exact trunkRelease_refused src tag l0 h (form_refused ((refuses_fin1_nil 4).fld 1))
    · exact trunkRelease_refused src tag l1 h (form_refused ((refuses_fin1 hb more).fld 1))
    · exact trunkRelease_refused src tag l2 h (form_more (fld_ok (fin1_ok hb 1 _)))
    · exact clearTable_refused src tag l0 h (form_refused (refuses_tableId_nil.fld 1))
    · exact clearTable_refused src tag l1 h (form_refused ((refuses_tableId hb more).fld 1))
    · obtain ⟨t, ht⟩ := table_of_known hb
      exact clearTable_refused src tag l2 h (form_more (fld_ok (tableId_ok ht 1 _)))
    · exact setOutput_refused src tag l0 h (form_refused ((refuses_fin1_nil 4).fld.bind 1))
    · exact setOutput_refused src tag l1 h (form_refused ((refuses_fin1 hb more).fld.bind 1))
    · exact setOutput_refused src tag l5 h (form_refused
        ((bind_ok (fld_ok (fin1_ok hb 1 _))).trans (refuses_bool1_nil.fld.bind 2)))
    · exact setOutput_refused src tag l2 h (form_refused
        ((bind_ok (fld_ok (fin1_ok hb 1 _))).trans ((refuses_bool1 hx more).fld.bind 2)))
    · exact setOutput_refused src tag l3 h (form_more
        ((bind_ok (fld_ok (fin1_ok hb 1 _))).trans (bind_ok (fld_ok (bool1_ok hx 2 _)))))
    · exact readEntry_refused src tag l0 h (form_refused (refuses_tableId_nil.fld.bind 1))
    · exact readEntry_refused src tag l1 h (form_refused ((refuses_tableId hb more).fld.bind 1))
    · exact readEntry_refused src tag l5 h (form_refused
        ((bind_ok (fld_ok (tableId_ok ht 1 _))).trans ((refuses_nat2_nil _ _).fld.bind 2)))
    · exact readEntry_refused src tag l6 h (form_refused
        ((bind_ok (fld_ok (tableId_ok ht 1 _))).trans ((refuses_nat2_one _ _ _).fld.bind 2)))
    · exact readEntry_refused src tag l7 h (form_refused
        ((bind_ok (fld_ok (tableId_ok ht 1 _))).trans
          ((refuses_index (entries_pos t) hi more).fld.bind 2)))
    · exact readEntry_refused src tag l4 h (form_more
        ((bind_ok (fld_ok (tableId_ok ht 1 _))).trans (bind_ok (fld_ok (index_ok hi 2 _)))))
    · intro t
      exact ⟨writeCommand_refused h src tag (by decide) (refuses_nat2_nil _ _),
        writeCommand_refused h src tag (by simp) (refuses_nat2_one _ _ _),
        fun hi => writeCommand_refused h src tag (by simp only [List.length_cons]; omega)
          (refuses_index (entries_pos t) hi more)⟩
    · have hw : ∀ body, s.manageFrame { src, dst := 0, tag } (2 :: body) =
          s.doWriteAny { src, dst := 0, tag } body := fun body => manageFrame_serves h rfl rfl body
      refine ⟨?_, fun hb => ?_⟩
      · rw [hw, State.doWriteAny, refuses_tableId_nil.fld 1]
        rfl
      · rw [hw, State.doWriteAny, (refuses_tableId hb more).fld 1]
        rfl

end Sys2Proof.Machine
end

