-- ==== Sys2Proof/Proofs/ReadClear.lean ====
section
/-! PROOFS. READ ENTRY (R5) and CLEAR TABLE (R8): the entry's fields, and the bytes of the runtime fields. -/

namespace Sys2Proof.Machine

/-! ### A table's id and an index, as a request carries them -/

theorem reads_id (t : Table) : Reads tableId (b1 t.id) t := fun _ _ => by cases t <;> rfl

theorem entries_le (t : Table) : t.entries ≤ 256 := by cases t <;> decide

theorem reads_index {t : Table} {i : Nat} (h : i < t.entries) :
    Reads (nat2 0 (t.entries - 1)) (b2 i) i := by
  have hw : within 0 (t.entries - 1) i = true := by
    simp only [within, Bool.and_eq_true, decide_eq_true_eq]
    omega
  exact reads_nat2 hw (by have := entries_le t; omega)

theorem refuses_far {n i : Nat} (hn : 0 < n) (h : n ≤ i) (hi : i < 65536) (rest : List Byte) :
    Refuses (nat2 0 (n - 1)) (b2 i ++ rest) := fun field => by
  have hw : word { field, bytes := b2 i ++ rest } =
      .ok (BitVec.ofNat 16 i, { field, bytes := rest }) := reads_word _ field rest
  have hv : (BitVec.ofNat 16 i).toNat = i := by
    rw [BitVec.toNat_ofNat]
    exact Nat.mod_eq_of_lt hi
  unfold nat2
  rw [bind_ok hw, hv, need_false (by simp; omega)]
  rfl

theorem formRead_ok {t : Table} {i : Nat} (h : i < t.entries) :
    formRead.run' 1 (b1 t.id ++ b2 i) = .ok (t, i) := by
  have hi := (reads_index h).fld 2 []
  rw [List.append_nil] at hi
  exact form_ok ((bind_ok ((reads_id t).fld 1 (b2 i))).trans (bind_ok hi))

theorem formRead_far {t : Table} {i : Nat} (h : t.entries ≤ i) (hi : i < 65536) :
    formRead.run' 1 (b1 t.id ++ b2 i) = .error 2 := by
  have := refuses_far (entries_pos t) h hi []
  rw [List.append_nil] at this
  exact form_refused ((bind_ok ((reads_id t).fld 1 (b2 i))).trans (this.fld.bind 2))

theorem formTable_ok (t : Table) : formTable.run' 1 (b1 t.id) = .ok t :=
  form_ok ((reads_id t).fld 1 [])

theorem one_byte (n : Nat) : (b1 n).length ≤ 239 := Nat.le_add_left 1 238

theorem three_bytes {t : Table} {i : Nat} : (b1 t.id ++ b2 i).length ≤ 239 := Nat.le_add_left 3 236

/-! ### READ ENTRY (R5) -/

theorem readEntry_answers {s : State} (h : Serves s .readEntry) (src : Word) (tag : Byte) {t : Table}
    {i : Nat} (hi : i < t.entries) :
    exec (.readEntry src tag (b1 t.id ++ b2 i)) s =
      answered s s.run { src, dst := 0, tag } (.ok, 0) (entryData s.cfg s.run t i) := by
  refine managed_answers h src tag 0x01
    (k := fun s => s.doReadEntry (manageReq src tag) (b1 t.id ++ b2 i)) three_bytes ?_
  simp only [State.doReadEntry, readEntry, formRead_ok hi]

theorem entryData_empty {c : Tables} {t : Table} {i : Nat}
    (h : ∀ e, getEntry c t i = some e → e.empty = true) (r : Run) : entryData c r t i = [] := by
  unfold entryData
  split
  · rfl
  · rename_i e he
    exact if_pos (h e he)

theorem entryData_full {c : Tables} {t : Table} {i : Nat} {e : Entry} (he : getEntry c t i = some e)
    (h : e.empty = false) (r : Run) : entryData c r t i = e.bytes ++ runtimeBytes r t i := by
  simp only [entryData, he, h, Bool.false_eq_true, if_false]

/-! ### CLEAR TABLE (R8) -/

theorem clearTable_answers {s : State} (h : Serves s .clearTable) (src : Word) (tag : Byte)
    (t : Table) : exec (.clearTable src tag (b1 t.id)) s =
      .next (((s.setCfg (clearTable s.cfg t)).setRun
        (if t = .param then Run.written s.cfg (clearTable s.cfg t) s.run .param 0 else s.run)).answer
          { src, dst := 0, tag } (.ok, 0) []).settle := by
  refine (managed_serves h src tag 0x03
    (fun s => s.doClearTable (manageReq src tag) (b1 t.id)) (one_byte t.id)).trans ?_
  simp only [State.doClearTable, clearRequest, formTable_ok]
  rfl

theorem unknown_id {b : Byte} (h : b = 0 ∨ 16 < b.toNat) : b.toNat = 0 ∨ 16 < b.toNat :=
  h.imp (fun e => by rw [e]; rfl) id

/-! ### The bytes of the runtime fields -/

theorem bBool_eq (b : Bool) : bBool b = [if b then 1 else 0] := by cases b <;> rfl

theorem bTimer_eq (t : Timer) : bTimer t = [if t.isSome then 0 else 1] := by cases t <;> rfl

theorem bCallId_eq (id : Option Nat) :
    bCallId id = b2 (match id with | some n => n | none => 256) := by cases id <;> rfl

theorem w2_zeroExtend {n : Nat} (x : BitVec n) : w2 (x.zeroExtend 16) = b2 x.toNat := by
  rw [b2, BitVec.ofNat_toNat]

theorem bAwaited_eq : bAwaited = fun w => b1 w.node.trunk.val ++ b1 (w.node.slot.val + 1)
    ++ [if w.armed then 1 else 0] ++ (0x10 :: (b1 (b2 w.message).length ++ b2 w.message)) := by
  funext w
  rw [bAwaited, bBool_eq, List.append_assoc (_ ++ _)]
  rfl

theorem bOpt_none {α : Type} (n : Nat) (enc : α → List Byte) :
    bOpt n enc none = 0 :: List.replicate n 0 := rfl

theorem bOpt_some {α : Type} (n : Nat) (enc : α → List Byte) (a : α) :
    bOpt n enc (some a) = 1 :: enc a := rfl

theorem get_runtime {α : Type} {n : Nat} (v : Vector α n) (i : Fin n) (enc : α → List Byte) :
    (v[i.val]?.map enc).getD [] = enc v[i] := by
  rw [Vector.getElem?_eq_getElem i.isLt]
  rfl

/-- Settles O11: the reading and the clearing by their forms, the runtime bytes table by table. -/
theorem entriesAreReadAndTablesCleared : Obligations.EntriesAreReadAndTablesCleared := by
  refine ⟨fun s src tag t i h => ⟨fun hi => ⟨fun he => ?_, fun e he hn => ?_⟩, fun hi hl => ?_,
      fun b rest hb hl => ?_⟩,
    ⟨fun s src tag h => ⟨clearTable_answers h src tag, fun b hb => ?_⟩,
      fun c t t' i => ⟨getEntry_clearTable_same c t i, fun ht => getEntry_clearTable_other c ht i⟩⟩,
    fun r => ?_⟩
  · exact (readEntry_answers h src tag hi).trans (by rw [entryData_empty he])
  · exact (readEntry_answers h src tag hi).trans (by rw [entryData_full he hn])
  · exact readEntry_refused src tag three_bytes h (formRead_far hi hl)
  · have hl' : (b :: rest).length ≤ 239 := by rw [List.length_cons]; omega
    exact readEntry_refused src tag hl' h (form_refused ((refuses_tableId (unknown_id hb) rest).fld.bind 1))
  · exact clearTable_refused src tag (body := [b]) (Nat.le_add_left 1 238) h
      (form_refused ((refuses_tableId (unknown_id hb) []).fld 1))
  · dsimp only
    refine ⟨fun i => ?_, fun t => ?_, fun i => ?_, fun a => ?_, fun z => ?_, fun d => ?_, fun i => ?_,
      fun ch => ?_, fun m => ?_, fun l => ?_, fun i => ⟨rfl, rfl, rfl, rfl, rfl, rfl⟩⟩
    · refine (get_runtime r.reports i rtReport).trans ?_
      generalize r.reports[i] = x
      simp only [rtReport, bTimer_eq]
      cases x.last <;> cases x.pending <;> rfl
    · refine (get_runtime r.trunks t rtTrunk).trans ?_
      generalize r.trunks[t] = x
      simp only [rtTrunk, bTimer_eq, bBool_eq]
      cases x.transaction with
      | none => rfl
      | some k =>
        simp only [bOpt_some, bTransaction, bSource, bPayload, address]
        cases k.source <;> rfl
    · refine (get_runtime r.nodes i rtNode).trans ?_
      generalize r.nodes[i] = x
      simp only [rtNode, bBool_eq]
      cases x.payload <;> cases x.time <;> rfl
    · refine (get_runtime r.axes a rtAxis).trans ?_
      generalize r.axes[a] = x
      simp only [rtAxis, bTimer_eq, bBool_eq, bCallId_eq, bOwed, w2_zeroExtend]
      cases x.latest with
      | none => simp only [bOpt_none, List.replicate_succ, List.replicate_zero] <;> rfl
      | some d => simp only [bOpt_some, bDriveStatus] <;> rfl
    · refine (get_runtime r.zones z rtZone).trans ?_
      generalize r.zones[z] = x
      simp only [rtZone, bTimer_eq, bBool_eq, bCallId_eq] <;> rfl
    · refine (get_runtime r.doors d rtDoor).trans ?_
      generalize r.doors[d] = x
      simp only [rtDoor, bBool_eq]
      rcases x.timer with _ | ⟨_ | _ | _, left⟩ <;> cases x.latest <;> rfl
    · refine (get_runtime r.areas i rtArea).trans ?_
      generalize r.areas[i] = x
      simp only [rtArea, bTimer_eq, bBool_eq, bCallId_eq, bList, bAwaited_eq, ← List.append_assoc]
      cases x.message <;> rfl
    · refine (get_runtime r.channels ch rtChannel).trans ?_
      generalize r.channels[ch] = x
      simp only [rtChannel, bTimer_eq, bBool_eq]
      cases x.value <;> rfl
    · refine (get_runtime r.monitors m rtMonitor).trans ?_
      generalize r.monitors[m] = x
      simp only [rtMonitor, bTimer_eq, bBool_eq, bCallId_eq]
      cases x.derate <;> rfl
    · refine (get_runtime r.lines l rtLine).trans ?_
      simp only [rtLine, bTimer_eq, bBool_eq]

end Sys2Proof.Machine
end

