-- ==== Sys2Proof/Proofs/Contents.lean ====
section
/-! PROOFS. The content of every entry is read back from its bytes (R6, 12.7): one lemma for each kind of field
that the laws of reading leave out, then one for each table. -/

namespace Sys2Proof.Machine

/-- The reader of a content reads `a` from these bytes at field 3, and leaves none where `whole`. -/
def ReadsBack {α : Type} (whole : Bool) (p : Parse α) (bytes : List Byte) (a : α) : Prop :=
  ∃ k, p { field := 3, bytes } = .ok (a, k) ∧ (whole = true → k.bytes = [])

/-- The reader reads `a` from these bytes, over some number of fields. -/
def ReadsOn {α : Type} (p : Parse α) (bytes : List Byte) (a : α) : Prop := ∃ n, ReadsFields n p bytes a

section
variable {α β : Type} {whole : Bool} {p : Parse α} {bytes : List Byte} {a : α}

theorem readsOn_pure (a : α) : ReadsOn (pure a) [] a := ⟨0, readsFields_pure a⟩

theorem ReadsFields.then {m : Nat} {f : α → Parse β} {bs : List Byte} {b : β}
    (h : ReadsFields m p bytes a) (h' : ReadsOn (f a) bs b) : ReadsOn (p >>= f) (bytes ++ bs) b := by
  obtain ⟨n, hn⟩ := h'
  exact ⟨m + n, h.bind hn⟩

theorem ReadsFields.last {m : Nat} {f : α → Parse β} {b : β} (h : ReadsFields m p bytes a)
    (h' : ReadsOn (f a) [] b) : ReadsOn (p >>= f) bytes b := by
  have := h.then h'
  rwa [List.append_nil] at this

theorem ReadsOn.then {f : α → Parse β} {bs : List Byte} {b : β} (h : ReadsOn p bytes a)
    (h' : ReadsOn (f a) bs b) : ReadsOn (p >>= f) (bytes ++ bs) b := by
  obtain ⟨n, hn⟩ := h
  exact hn.then h'

theorem ReadsOn.last {f : α → Parse β} {b : β} (h : ReadsOn p bytes a)
    (h' : ReadsOn (f a) [] b) : ReadsOn (p >>= f) bytes b := by
  obtain ⟨n, hn⟩ := h
  exact hn.last h'

theorem ReadsOn.back (h : ReadsOn p bytes a) : ReadsBack whole p bytes a := by
  obtain ⟨n, h⟩ := h
  exact ⟨_, by have := h 3 []; rwa [List.append_nil] at this, fun _ => rfl⟩

theorem ReadsBack.map (f : α → β) (h : ReadsBack whole p bytes a) :
    ReadsBack whole (f <$> p) bytes (f a) := by
  obtain ⟨k, hk, hb⟩ := h
  refine ⟨k, ?_, hb⟩
  rw [map_eq_pure_bind, bind_ok hk]
  rfl

/-- A value read and then held to a condition that it meets. -/
theorem Reads.need {ok : α → Bool} (h : Reads p bytes a) (ha : ok a = true) :
    Reads (p >>= fun a => need (ok a) a) bytes a :=
  h.bind_pure (by rw [need_true ha]; exact reads_pure a)
end

theorem contentForm_reads {t : Table} {i : Nat} {e : Entry}
    (h : ReadsBack (!e.cutShort) (content t i) e.bytes e) :
    (contentForm t i).run' 3 e.bytes = .ok e := by
  obtain ⟨k, hk, hb⟩ := h
  unfold Parse.run' contentForm
  rw [bind_ok hk]
  cases hc : e.cutShort with
  | true => rfl
  | false =>
    have : k = { field := k.field, bytes := [] } := by rw [← hb (by rw [hc]; rfl)]
    rw [this]
    rfl

/-! ### Fields -/

theorem within_lt {lo hi n b : Nat} (h : within lo hi n = true) (hb : hi < b) : n < b := by
  simp only [within, Bool.and_eq_true, decide_eq_true_eq] at h
  omega

theorem withinInt_wide {z : Int} (h : withinInt (-32000) 32000 z = true) :
    withinInt (-32768) 32767 z = true := by
  simp only [withinInt, Bool.and_eq_true, decide_eq_true_eq] at h ⊢
  omega

theorem field1 {lo hi n : Nat} (h : within lo hi n = true) (hb : hi < 256) :
    ReadsFields 1 (fld (nat1 lo hi)) (b1 n) n := (reads_nat1 h (within_lt h hb)).fld

theorem field2 {lo hi n : Nat} (h : within lo hi n = true) (hb : hi < 65536) :
    ReadsFields 1 (fld (nat2 lo hi)) (b2 n) n := (reads_nat2 h (within_lt h hb)).fld

theorem fieldInt {z : Int} (h : withinInt (-32000) 32000 z = true) :
    ReadsFields 1 (fld (sint2 (-32000) 32000)) (i2 z) z := (reads_sint2 h (withinInt_wide h)).fld

theorem fieldBool (b : Bool) : ReadsFields 1 (fld bool1) (bBool b) b := (reads_bool1 b).fld

theorem fieldNode (n : NodeId) : ReadsFields 1 (fld node2) (encNode n) n := (reads_node2 n).fld

theorem fieldFin {n : Nat} (hn : n ≤ 256) (k : Fin n) :
    ReadsFields 1 (fld (fin1 n)) (b1 k.val) k := (reads_fin1 hn k).fld

theorem fieldNamed {α : Type} {l : List α} {k : Nat} {a : α} (hk : k < 256) (h : l[k]? = some a) :
    ReadsFields 1 (fld (named l)) (b1 k) a := (reads_named hk h).fld

theorem reads_station {w : Word} (h : stationFits w = true) : Reads station (w2 w) w :=
  (reads_word w).need h

/-! ### ROUTE and PERMIT -/

theorem reads_functionIndex (f : Function) : Reads (functionIndex f.kind) (b1 f.index) f := by
  cases f with
  | axis a => exact (reads_axis1 a).bind_pure (reads_pure _)
  | plan => exact reads_zero1.bind_pure (reads_pure _)
  | zone z => exact (reads_fin1 (by decide) z).bind_pure (reads_pure _)
  | door d => exact (reads_fin1 (by decide) d).bind_pure (reads_pure _)
  | calls => exact reads_zero1.bind_pure (reads_pure _)
  | monitor m => exact (reads_fin1 (by decide) m).bind_pure (reads_pure _)
  | lines => exact reads_zero1.bind_pure (reads_pure _)

/-- The bytes of a route's target behind its kind. -/
def encTargetRest : RouteTarget → List Byte
  | .node n => b1 n.trunk.val ++ (b1 (address n.slot) ++ (b1 0 ++ b1 0))
  | .function f => b1 0 ++ (b1 0 ++ (b1 f.kind ++ b1 f.index))

/-- The number of a route's target kind. -/
def RouteTarget.kind : RouteTarget → Nat
  | .node _ => 1
  | .function _ => 2

theorem encTarget_eq (x : RouteTarget) : encTarget x = b1 x.kind ++ encTargetRest x := by
  cases x with
  | node n => simp only [encTarget, encNode, encTargetRest, RouteTarget.kind, List.append_assoc]
  | function f => simp only [encTarget, encTargetRest, RouteTarget.kind, List.append_assoc]

theorem reads_slot (i : Fin 31) : Reads (num1 >>= fun a =>
    if h : 1 ≤ a ∧ a ≤ 31 then pure (⟨a - 1, by omega⟩ : Fin 31) else bad) (b1 (address i)) i := by
  have ha : address i = i.val + 1 := rfl
  exact (reads_num1 (by omega)).bind_pure (by rw [dif_pos (by omega)]; exact reads_pure _)

theorem readsOn_routeTarget (x : RouteTarget) : ReadsOn (routeTarget x.kind) (encTargetRest x) x := by
  cases x with
  | node n =>
    rw [routeTarget, if_pos (show (RouteTarget.node n).kind = 1 from rfl)]
    exact (fieldFin (by decide) n.trunk).then ((reads_slot n.slot).fld.then
      (reads_zero1.fld.then (reads_zero1.fld.last (readsOn_pure _))))
  | function f =>
    have hk : within 0 6 f.kind = true := by cases f <;> rfl
    rw [routeTarget, if_neg (by simp [RouteTarget.kind])]
    exact reads_zero1.fld.then (reads_zero1.fld.then ((field1 hk (by decide)).then
      ((reads_functionIndex f).fld.last (readsOn_pure _))))

theorem readsBack_contentRoute {x : Option Route} (h : routeFits x = true) :
    ReadsBack (!x.isNone) contentRoute (encRoute x) x := by
  cases x with
  | none => exact ⟨_, rfl, fun h => by cases h⟩
  | some x =>
    have hs : stationFits x.station = true := h
    have hk : within 1 2 x.target.kind = true := by cases x.target <;> rfl
    have hr : ReadsOn (fld station >>= fun station => fld (nat1 1 2) >>= fun kind =>
        routeTarget kind >>= fun target => pure (some { station, target }))
        (encRoute (some x)) (some x) := by
      rw [encRoute, encTarget_eq]
      exact (reads_station hs).fld.then ((field1 hk (by decide)).then
        ((readsOn_routeTarget x.target).last (readsOn_pure _)))
    obtain ⟨k, hk, hb⟩ := hr.back (whole := !(some x).isNone)
    refine ⟨k, Eq.trans ?_ hk, hb⟩
    have hpeek : peek 2 { field := 3, bytes := encRoute (some x) } =
        .ok (some (BitVec.ofNat 8 x.target.kind), { field := 3, bytes := encRoute (some x) }) := by
      rw [encRoute, encTarget_eq]
      rfl
    rw [contentRoute, bind_ok hpeek, if_neg (by cases x.target <;> simp [RouteTarget.kind])]

theorem reads_stateSet {n : Nat} {s : BitVec 8} (h : statesFit n s = true) :
    Reads (stateSet n) [s] s := (reads_byte s).need h

/-- The number of a term's subject, and the bytes behind it. -/
def Term.subject : Term → Nat
  | .axis _ _ => 1 | .zoneState _ _ => 2 | .zoneFire _ _ => 3 | .door _ _ => 4 | .line _ _ => 5
  | .monitor _ _ => 6 | .service _ => 7

def encTermRest : Term → List Byte
  | .axis a s => encAxis a ++ [s]
  | .zoneState z s => b1 z.val ++ [s]
  | .zoneFire z b => b1 z.val ++ bBool b
  | .door d s => b1 d.val ++ [s]
  | .line l b => b1 l.val ++ bBool b
  | .monitor m s => b1 m.val ++ [s]
  | .service b => b1 0 ++ bBool b

theorem reads_termOf {u : Term} (h : termFits (some u) = true) :
    Reads (termOf u.subject) (encTermRest u) u := by
  cases u with
  | axis a s => exact (reads_axis1 a).bind ((reads_stateSet h).bind_pure (reads_pure _))
  | zoneState z s =>
    exact (reads_fin1 (by decide) z).bind ((reads_stateSet h).bind_pure (reads_pure _))
  | zoneFire z b => exact (reads_fin1 (by decide) z).bind ((reads_bool1 b).bind_pure (reads_pure _))
  | door d s =>
    exact (reads_fin1 (by decide) d).bind ((reads_stateSet h).bind_pure (reads_pure _))
  | line l b => exact (reads_fin1 (by decide) l).bind ((reads_bool1 b).bind_pure (reads_pure _))
  | monitor m s =>
    exact (reads_fin1 (by decide) m).bind ((reads_stateSet h).bind_pure (reads_pure _))
  | service b => exact reads_zero1.bind ((reads_bool1 b).bind_pure (reads_pure _))

theorem reads_term3 {u : Option Term} (h : termFits u = true) : Reads term3 (encTerm u) u := by
  cases u with
  | none => exact fun _ _ => rfl
  | some u =>
    have he : encTerm (some u) = b1 u.subject ++ encTermRest u := by cases u <;> rfl
    have hs : u.subject < 256 ∧ u.subject ≠ 0 := by cases u <;> simp [Term.subject]
    rw [he, term3]
    refine (reads_num1 hs.1).bind ?_
    rw [if_neg hs.2]
    exact (reads_termOf h).bind_pure (reads_pure _)

theorem reads_permitCode {k : Option Byte} (h : codeFits k = true) :
    Reads permitCode [k.getD 0] k := by
  cases k with
  | none => exact fun _ _ => rfl
  | some b =>
    have hb : 0x20 ≤ b.toNat := of_decide_eq_true h
    refine (reads_byte b).bind_pure ?_
    rw [if_neg (by omega), need_true (decide_eq_true hb)]
    exact reads_pure _

theorem readsBack_contentPermit {x : Option Permit} (h : permitFits x = true) :
    ReadsBack (!x.isNone) contentPermit (encPermit x) x := by
  cases x with
  | none => exact ⟨_, rfl, fun h => by cases h⟩
  | some x =>
    simp only [permitFits, Bool.and_eq_true] at h
    obtain ⟨⟨⟨⟨⟨h1, h2⟩, h3⟩, h4⟩, h5⟩, h6⟩ := h
    have hc : codeFits x.code = true := by
      cases hx : x.code with
      | none => rfl
      | some k => rw [hx] at h4; exact h4
    have ha : [PermitAction.forward, .refuse, .forwardNote][x.action.code]? = some x.action := by
      cases x.action <;> rfl
    refine ReadsOn.back ?_
    simp only [encPermit, List.append_assoc]
    refine ReadsFields.then (fieldBool true) ?_
    rw [if_pos rfl]
    exact (reads_station h1).fld.then (((reads_station h2).need h3).fld.then
      ((reads_permitCode hc).fld.then ((reads_term3 h5).fld.then ((reads_term3 h6).fld.then
        ((fieldNamed (by cases x.action <;> decide) ha).last (readsOn_pure _))))))

/-! ### REPORT, TRUNK and NODE -/

theorem readsBack_contentReport {x : ReportCfg} (h : reportFits x = true) :
    ReadsBack true contentReport (encReport x) x := by
  simp only [reportFits, Bool.and_eq_true] at h
  obtain ⟨⟨h1, h2⟩, h3⟩ := h
  have hm : [ReportMode.none, .change, .every][x.mode.code]? = some x.mode := by
    cases x.mode <;> rfl
  refine ReadsOn.back ?_
  simp only [encReport, List.append_assoc]
  exact (fieldNamed (by cases x.mode <;> decide) hm).then
    (((reads_num1 (within_lt h1 (by decide))).need h2).fld.then
      ((field2 h3 (by decide)).last (readsOn_pure _)))

theorem reads_bitRate2 {n : Nat} (h : (n == 125 || n == 250 || n == 500) = true) :
    Reads bitRate2 (b2 n) n := by
  have hn : n < 65536 := by
    simp only [Bool.or_eq_true, beq_iff_eq] at h
    omega
  have e : (BitVec.ofNat 16 n).toNat = n := by
    rw [BitVec.toNat_ofNat]
    exact Nat.mod_eq_of_lt hn
  refine (reads_word _).bind_pure ?_
  rw [e, need_true h]
  exact reads_pure n

theorem readsBack_contentTrunk {x : TrunkCfg} (h : trunkFits x = true) :
    ReadsBack (!(!x.configured)) contentTrunk (encTrunk x) x := by
  by_cases hc : x.configured = true
  · simp only [trunkFits, hc, if_true, Bool.and_eq_true] at h
    obtain ⟨⟨⟨⟨⟨h1, h2⟩, h3⟩, h4⟩, h5⟩, h6⟩ := h
    refine ReadsOn.back ?_
    simp only [encTrunk, List.append_assoc]
    refine ReadsFields.then (fieldBool x.configured) ?_
    rw [if_pos hc]
    exact (reads_bitRate2 h1).fld.then ((field1 h2 (by decide)).then ((field2 h3 (by decide)).then
      ((field2 h4 (by decide)).then ((field1 h5 (by decide)).then
        ((field2 h6 (by decide)).last (readsOn_pure _))))))
  · obtain rfl : x = emptyTrunk := by simpa only [trunkFits, if_neg hc, beq_iff_eq] using h
    exact ⟨_, rfl, fun h => by cases h⟩

theorem readsBack_contentNode (x : Option NodeCfg) :
    ReadsBack (!x.isNone) contentNode (encNodeCfg x) x := by
  cases x with
  | none => exact ⟨_, rfl, fun h => by cases h⟩
  | some x =>
    have hk : [some NodeKind.drive, some .panel, some .door, some .amp, some .sensor, some .generic,
        none][x.kind.code]? = some (some x.kind) := by cases x.kind <;> rfl
    have hp : [PollClass.fast, .slow, .none][x.poll.code]? = some x.poll := by cases x.poll <;> rfl
    exact ReadsOn.back ((fieldNamed (by cases x.kind <;> decide) hk).then
      ((fieldNamed (by cases x.poll <;> decide) hp).last (readsOn_pure _)))

/-! ### AXIS -/

theorem reads_prereq5 {p : Prereq} (h1 : withinInt (-32000) 32000 p.min = true)
    (h2 : withinInt (-32000) 32000 p.max = true) : Reads prereq5 (encPrereq p) p := by
  rw [encPrereq, List.append_assoc]
  exact (reads_axis1 p.axis).bind ((reads_sint2 h1 (withinInt_wide h1)).bind
    ((reads_sint2 h2 (withinInt_wide h2)).bind_pure (reads_pure _)))

theorem reads_prereqOf {i : Nat} {p : Option Prereq} (hf : prereqFits p = true)
    (ha : prereqApart i p = true) : Reads (prereqOf i) (bOpt 5 encPrereq p) p := by
  refine (reads_opt fun q hq => ?_).need ha
  subst hq
  simp only [prereqFits, Bool.and_eq_true] at hf
  exact reads_prereq5 hf.1 hf.2

theorem reads_motionCall6 {k : MotionCall} (h : motionCallFits (some k) = true) :
    Reads motionCall6 (encMotionCall k) k := by
  simp only [motionCallFits, Bool.and_eq_true] at h
  obtain ⟨⟨h1, h2⟩, h3⟩ := h
  simp only [encMotionCall, List.append_assoc]
  exact (reads_nat2 h1 (within_lt h1 (by decide))).bind ((reads_word k.areas).bind
    ((reads_nat1 h2 (within_lt h2 (by decide))).bind
      ((reads_nat1 h3 (within_lt h3 (by decide))).bind_pure (reads_pure _))))

theorem fieldPayload {p : Option (List Byte)} (h : payloadFits p = true) :
    ReadsFields 1 (fld (opt 1 payload16)) (bOpt 1 bPayload p) p := by
  refine (reads_opt fun q hq => ?_).fld
  subst hq
  exact reads_payload16 (of_decide_eq_true h)

/-- The bytes of fields 7 to 19 of an AXIS content. -/
def encMotion (k : AxisMotion) : List Byte :=
  i2 k.posMin ++ i2 k.posMax ++ b2 k.vMax ++ b2 k.acc ++ b1 k.kp ++ b2 k.deadband
    ++ b2 k.creepDistance ++ b2 k.vCreep ++ b1 k.controlPeriod ++ b2 k.keepalive
    ++ b1 k.lockTimeout ++ b2 k.stallVelocity ++ b2 k.overloadLimit

theorem readsOn_axisMotion {k : AxisMotion} (h : k.fits = true) :
    ReadsOn axisMotion (encMotion k) k := by
  simp only [AxisMotion.fits, Bool.and_eq_true] at h
  obtain ⟨⟨⟨⟨⟨⟨⟨⟨⟨⟨⟨⟨⟨h1, h2⟩, h3⟩, h4⟩, h5⟩, h6⟩, h7⟩, h8⟩, h9⟩, h10⟩, h11⟩, h12⟩, h13⟩, h14⟩ := h
  have hv : k.vMax < 65536 := within_lt h4 (by decide)
  simp only [encMotion, List.append_assoc]
  exact (fieldInt h1).then (((reads_sint2 h2 (withinInt_wide h2)).need h3).fld.then
    ((field2 h4 (by decide)).then ((field2 h5 (by decide)).then ((field1 h6 (by decide)).then
    ((field2 h7 (by decide)).then ((field2 h8 (by decide)).then ((field2 h9 hv).then
    ((field1 h10 (by decide)).then ((field2 h11 (by decide)).then ((field1 h12 (by decide)).then
    ((field2 h13 (by decide)).then ((field2 h14 (by decide)).last (readsOn_pure _)))))))))))))

/-- The bytes of fields 20 to 28 of an AXIS content. -/
def encAxisRest (x : AxisCfg) : List Byte :=
  b1 x.haltMask.toNat ++ b1 x.noteMask.toNat ++ b2 x.stageUp ++ b2 x.stageDown
    ++ bOpt 1 bPayload x.lowPayload ++ bOpt 1 bPayload x.highPayload
    ++ bOpt 5 encPrereq x.prereq1 ++ bOpt 5 encPrereq x.prereq2 ++ bOpt 6 encMotionCall x.motionCall

/-- Fields 20 to 28 of `y` in the record `x`. -/
def AxisCfg.withRest (x y : AxisCfg) : AxisCfg :=
  { x with
    haltMask := y.haltMask, noteMask := y.noteMask, stageUp := y.stageUp, stageDown := y.stageDown
    lowPayload := y.lowPayload, highPayload := y.highPayload, prereq1 := y.prereq1
    prereq2 := y.prereq2, motionCall := y.motionCall }

theorem readsOn_axisRest {i : Nat} {x y : AxisCfg} (h : axisRestFits i y = true)
    (hy : x.withRest y = y) :
    ReadsOn (axisRest i x) (encAxisRest y) y := by
  simp only [axisRestFits, Bool.and_eq_true] at h
  obtain ⟨⟨⟨⟨⟨⟨⟨⟨⟨h1, h2⟩, h3⟩, h4⟩, h5⟩, h6⟩, h7⟩, h8⟩, h9⟩, h10⟩ := h
  have hcall : Reads (opt 6 motionCall6) (bOpt 6 encMotionCall y.motionCall) y.motionCall :=
    reads_opt fun k hk => reads_motionCall6 (hk ▸ h10)
  have hlast : ReadsOn (pure (x.withRest y)) [] y := by
    rw [hy]
    exact readsOn_pure y
  simp only [encAxisRest, List.append_assoc]
  exact (reads_set1 (by decide) y.haltMask).fld.then ((reads_set1 (by decide) y.noteMask).fld.then
    ((field2 h1 (by decide)).then
    (((reads_nat2 h2 (within_lt h2 (by decide))).need h3).fld.then ((fieldPayload h4).then
    ((fieldPayload h5).then ((reads_prereqOf h6 h8).fld.then ((reads_prereqOf h7 h9).fld.then
    (hcall.fld.last hlast))))))))

/-- The fields from limits to timing that an axis record holds. -/
def AxisCfg.motion (x : AxisCfg) : AxisMotion :=
  { posMin := x.posMin, posMax := x.posMax, vMax := x.vMax, acc := x.acc, kp := x.kp
    deadband := x.deadband, creepDistance := x.creepDistance, vCreep := x.vCreep
    controlPeriod := x.controlPeriod, keepalive := x.keepalive, lockTimeout := x.lockTimeout
    stallVelocity := x.stallVelocity, overloadLimit := x.overloadLimit }

theorem encAxisCfg_eq (x : AxisCfg) : encAxisCfg x = bBool x.configured ++ (encNode x.drive ++
    (bOpt 2 encNode x.panel ++ (encZoneOrNone x.zone ++ (encMotion x.motion ++ encAxisRest x)))) := by
  simp only [encAxisCfg, encMotion, AxisCfg.motion, encAxisRest, List.append_assoc]

theorem readsBack_contentAxis {i : Nat} {x : AxisCfg} (h : axisFits i x = true) :
    ReadsBack (!(!x.configured)) (contentAxis i) (encAxisCfg x) x := by
  by_cases hc : x.configured = true
  · have hfits : x.panel ≠ some x.drive ∧ x.motion.fits = true ∧ axisRestFits i x = true := by
      simp only [axisFits, hc, if_true, Bool.and_eq_true, bne_iff_ne] at h
      simp only [AxisMotion.fits, AxisCfg.motion, axisRestFits, Bool.and_eq_true]
      tauto
    obtain ⟨hp, hm, hr⟩ := hfits
    refine ReadsOn.back ?_
    rw [encAxisCfg_eq]
    refine ReadsFields.then (fieldBool x.configured) ?_
    rw [if_pos hc]
    have hpanel : Reads (opt 2 node2) (bOpt 2 encNode x.panel) x.panel :=
      reads_opt fun n _ => reads_node2 n
    refine (fieldNode x.drive).then ?_
    refine (hpanel.need (ok := fun p => p != some x.drive) (bne_iff_ne.mpr hp)).fld.then ?_
    refine (reads_zoneOrNone x.zone).fld.then ?_
    refine (readsOn_axisMotion hm).then ?_
    refine readsOn_axisRest hr ?_
    rfl
  · obtain rfl : x = emptyAxis := by simpa only [axisFits, if_neg hc, beq_iff_eq] using h
    exact ⟨_, rfl, fun h => by cases h⟩

/-! ### PROFILE, ZONE, DOOR, AREA and CHANNEL -/

theorem readsBack_contentProfile {x : Option Breakpoint} (h : profileFits x = true) :
    ReadsBack true contentProfile (encProfile x) x := by
  cases x with
  | none => exact ⟨_, rfl, fun _ => rfl⟩
  | some b =>
    simp only [profileFits, Bool.and_eq_true] at h
    refine ReadsOn.back ?_
    simp only [encProfile, List.append_assoc]
    exact (fieldBool true).then ((fieldInt h.1).then ((field2 h.2 (by decide)).last (readsOn_pure _)))

theorem readsBack_contentZone {x : ZoneCfg} (h : zoneFits x = true) :
    ReadsBack true contentZone (encZone x) x := by
  simp only [zoneFits, Bool.and_eq_true] at h
  obtain ⟨⟨⟨⟨h1, h2⟩, h3⟩, h4⟩, h5⟩ := h
  refine ReadsOn.back ?_
  simp only [encZone, List.append_assoc]
  exact (field1 h1 (by decide)).then ((field1 h2 (by decide)).then ((field2 h3 (by decide)).then
    ((field2 h4 (by decide)).then ((reads_word x.areas).fld.then
      ((field1 h5 (by decide)).last (readsOn_pure _))))))

theorem readsBack_contentDoor {x : DoorCfg} (h : doorFits x = true) :
    ReadsBack (!(!x.configured)) contentDoor (encDoor x) x := by
  by_cases hc : x.configured = true
  · simp only [doorFits, hc, if_true, Bool.and_eq_true] at h
    obtain ⟨⟨⟨⟨h1, h2⟩, h3⟩, h4⟩, h5⟩ := h
    refine ReadsOn.back ?_
    simp only [encDoor, List.append_assoc]
    refine ReadsFields.then (fieldBool x.configured) ?_
    rw [if_pos hc]
    have hz : Reads (opt 1 (fin1 8)) (bOpt 1 (fun (z : Fin 8) => b1 z.val) x.zone2) x.zone2 :=
      reads_opt fun z _ => reads_fin1 (by decide) z
    exact (fieldNode x.node).then ((fieldFin (by decide) x.zone1).then ((hz.need h1).fld.then
      ((field1 h2 (by decide)).then ((field1 h3 (by decide)).then ((field1 h4 (by decide)).then
        ((field1 h5 (by decide)).then ((fieldBool x.reopenWithZone).last (readsOn_pure _))))))))
  · obtain rfl : x = emptyDoor := by simpa only [doorFits, if_neg hc, beq_iff_eq] using h
    exact ⟨_, rfl, fun h => by cases h⟩

theorem readsBack_contentArea {l : List NodeId} (h : areaFits l = true) :
    ReadsBack true contentArea (encArea l) l := by
  simp only [areaFits, Bool.and_eq_true, decide_eq_true_eq] at h
  exact ReadsOn.back ⟨1, ((reads_list1 h.1 (by decide) fun n _ => reads_node2 n).need h.2).fld⟩

theorem readsBack_contentChannel {x : ChannelCfg} (h : channelFits x = true) :
    ReadsBack (!(!x.configured)) contentChannel (encChannel x) x := by
  by_cases hc : x.configured = true
  · simp only [channelFits, hc, if_true, Bool.and_eq_true] at h
    obtain ⟨⟨h1, h2⟩, h3⟩ := h
    refine ReadsOn.back ?_
    simp only [encChannel, List.append_assoc]
    refine ReadsFields.then (fieldBool x.configured) ?_
    rw [if_pos hc]
    exact (fieldNode x.source).then ((field1 h1 (by decide)).then ((field1 h2 (by decide)).then
      ((fieldBool x.signed).then ((field2 h3 (by decide)).last (readsOn_pure _)))))
  · obtain rfl : x = emptyChannel := by simpa only [channelFits, if_neg hc, beq_iff_eq] using h
    exact ⟨_, rfl, fun h => by cases h⟩

/-! ### MONITOR and MSTATE -/

theorem readsBack_contentMonitor {x : MonitorCfg} (h : monitorFits x = true) :
    ReadsBack (!(!x.configured)) contentMonitor (encMonitor x) x := by
  by_cases hc : x.configured = true
  · refine ReadsOn.back ?_
    refine ReadsFields.then (fieldBool x.configured) ?_
    rw [if_pos hc]
    exact (fieldBool x.startEnabled).last (readsOn_pure _)
  · obtain rfl : x = emptyMonitor := by
      rw [Bool.not_eq_true] at hc
      simpa only [monitorFits, hc, Bool.false_or, beq_iff_eq] using h
    exact ⟨_, rfl, fun h => by cases h⟩

theorem reads_action1 {a : Action} (h : actionFits a = true) : Reads action1 (encAction a) a := by
  cases a with
  | none => exact fun _ _ => rfl
  | event code =>
    exact (reads_num1 (n := 1) (by decide)).bind
      ((reads_num1 (within_lt h (by decide))).bind_pure (reads_pure _))
  | call message areas priority repeats =>
    simp only [actionFits, Bool.and_eq_true] at h
    obtain ⟨⟨h1, h2⟩, h3⟩ := h
    simp only [encAction, List.append_assoc]
    exact (reads_num1 (n := 2) (by decide)).bind ((reads_nat2 h1 (within_lt h1 (by decide))).bind
      ((reads_word areas).bind ((reads_nat1 h2 (within_lt h2 (by decide))).bind
        ((reads_nat1 h3 (within_lt h3 (by decide))).bind_pure (reads_pure _)))))
  | closeZone z fire =>
    simp only [encAction, List.append_assoc]
    exact (reads_num1 (n := 3) (by decide)).bind ((reads_fin1 (by decide) z).bind
      ((reads_bool1 fire).bind_pure (reads_pure _)))
  | derate value axes =>
    simp only [actionFits, Bool.and_eq_true] at h
    simp only [encAction, List.append_assoc]
    refine (reads_num1 (n := 4) (by decide)).bind ((reads_nat2 h.1 (within_lt h.1 (by decide))).bind
      ((reads_set1 (by decide) axes).bind_pure ?_))
    rw [need_true h.2]
    exact reads_pure _
  | output o high =>
    simp only [encAction, List.append_assoc]
    exact (reads_num1 (n := 5) (by decide)).bind ((reads_fin1 (by decide) o).bind
      ((reads_bool1 high).bind_pure (reads_pure _)))

theorem readsBack_contentMstate {x : StateCfg} (h : mstateFits x = true) :
    ReadsBack (!(!x.inUse)) contentMstate (encMstate x) x := by
  by_cases hc : x.inUse = true
  · simp only [mstateFits, hc, if_true, Bool.and_eq_true] at h
    obtain ⟨⟨⟨h1, h2⟩, h3⟩, h4⟩ := h
    have ht : [Test.above, .below][x.test.code]? = some x.test := by cases x.test <;> rfl
    refine ReadsOn.back ?_
    simp only [encMstate, List.append_assoc]
    refine ReadsFields.then (fieldBool x.inUse) ?_
    rw [if_pos hc]
    exact (fieldFin (by decide) x.channel).then ((fieldNamed (by cases x.test <;> decide) ht).then
      ((reads_sint2 h1 h1).fld.then ((field2 h2 (by decide)).then ((fieldFin (by decide) x.onHold).then
        ((field2 h3 (by decide)).then ((fieldFin (by decide) x.onTimeout).then
          ((reads_zoneOrNone x.onStale).fld.then ((reads_action1 h4).fld.last (readsOn_pure _)))))))))
  · obtain rfl : x = emptyMstate := by simpa only [mstateFits, if_neg hc, beq_iff_eq] using h
    exact ⟨_, rfl, fun h => by cases h⟩

/-! ### LAMP, LINE and PARAM -/

theorem reads_lampSource (x : LampSource) : Reads (lampSource x.kind) (b1 x.index) x := by
  cases x with
  | none => exact reads_zero1.bind_pure (reads_pure _)
  | axis a => exact (reads_axis1 a).bind_pure (reads_pure _)
  | zone z => exact (reads_fin1 (by decide) z).bind_pure (reads_pure _)
  | door d => exact (reads_fin1 (by decide) d).bind_pure (reads_pure _)
  | line l => exact (reads_fin1 (by decide) l).bind_pure (reads_pure _)
  | monitor m => exact (reads_fin1 (by decide) m).bind_pure (reads_pure _)
  | trunk t => exact (reads_fin1 (by decide) t).bind_pure (reads_pure _)

theorem reads_stylePair {values : Nat} (hv : values ≤ 256) {p : Nat × Style} (h : p.1 < values) :
    Reads (stylePair values) (encStyle p) p := by
  have hs : [Style.off, .on, .slow, .fast][p.2.code]? = some p.2 := by cases p.2 <;> rfl
  refine (reads_num1 (by omega)).bind ((reads_named (by cases p.2 <;> decide) hs).bind_pure ?_)
  rw [need_true (decide_eq_true h)]
  exact reads_pure p

theorem readsBack_contentLamp {x : LampCfg} (h : lampFits x = true) :
    ReadsBack true contentLamp (encLamp x) x := by
  by_cases hn : x.source = .none
  · obtain rfl : x = emptyLamp := by
      simpa only [lampFits, hn, BEq.rfl, if_true, beq_iff_eq] using h
    exact ⟨_, rfl, fun _ => rfl⟩
  · simp only [lampFits, beq_iff_eq, hn, if_false, Bool.and_eq_true, decide_eq_true_eq,
      List.all_eq_true] at h
    obtain ⟨⟨hl, hv⟩, ht⟩ := h
    have hk : within 0 6 x.source.kind = true := by cases x.source <;> rfl
    have hvalues : lampValues x.source ≤ 256 := by cases x.source <;> simp [lampValues]
    have hlist : Reads (list1 8 (stylePair (lampValues x.source))) (bList encStyle x.styles) x.styles :=
      reads_list1 hl (by decide) fun p hp => reads_stylePair hvalues (hv p hp)
    refine ReadsOn.back ?_
    simp only [encLamp, List.append_assoc]
    exact (field1 hk (by decide)).then ((reads_lampSource x.source).fld.then
      ((hlist.need ht).fld.last (readsOn_pure _)))

theorem fieldFilter {i : Nat} {x : LineCfg} (h : lineFits i x = true) :
    ReadsFields 1 (fld (if (i == 0) = true then byte >>= fun _ => pure 2 else nat1 1 255))
      (b1 x.filter) x.filter := by
  by_cases hi : i = 0
  · have hf : x.filter = 2 := by simpa only [lineFits, if_pos hi, beq_iff_eq] using h
    rw [if_pos (beq_iff_eq.mpr hi), hf]
    exact Reads.fld (Reads.bind_pure (f := fun _ => pure 2) (reads_byte 2) (reads_pure 2))
  · have hf : within 1 255 x.filter = true := by simpa only [lineFits, if_neg hi] using h
    rw [if_neg (fun e => hi (beq_iff_eq.mp e))]
    exact field1 hf (by decide)

theorem readsBack_contentLine {i : Nat} {x : LineCfg} (h : lineFits i x = true) :
    ReadsBack true (contentLine (i == 0)) (encLine x) x := by
  have he : [Edge.none, .rising, .falling, .both][x.edge.code]? = some x.edge := by
    cases x.edge <;> rfl
  refine ReadsOn.back ?_
  simp only [encLine, List.append_assoc]
  exact (fieldFilter h).then ((fieldNamed (by cases x.edge <;> decide) he).then
    ((fieldBool x.event).last (readsOn_pure _)))

theorem readsBack_contentParam {x : Param} (h : paramFits x = true) :
    ReadsBack true contentParam (encParam x) x := by
  simp only [paramFits, Bool.and_eq_true] at h
  obtain ⟨⟨⟨⟨⟨⟨h1, h2⟩, h3⟩, h4⟩, h5⟩, h6⟩, h7⟩ := h
  have hp : ReadsFields 1 (fld permitDefault) (bBool (!x.permitForward)) x.permitForward := by
    cases x.permitForward
    · exact fieldNamed (k := 1) (by decide) rfl
    · exact fieldNamed (k := 0) (by decide) rfl
  refine ReadsOn.back ?_
  simp only [encParam, List.append_assoc]
  exact (field2 h1 (by decide)).then ((reads_station h2).fld.then (hp.then
    ((field1 h3 (by decide)).then ((field1 h4 (by decide)).then ((field2 h5 (by decide)).then
      ((field2 h6 (by decide)).then ((field1 h7 (by decide)).last (readsOn_pure _))))))))

/-! ### Every table -/

theorem readsBack_content {t : Table} {i : Nat} {e : Entry} (h : e.fits t i = true) :
    ReadsBack (!e.cutShort) (content t i) e.bytes e := by
  obtain rfl := fits_table h
  cases e with
  | node x => exact (readsBack_contentNode x).map _
  | route x => exact (readsBack_contentRoute h).map _
  | permit x => exact (readsBack_contentPermit h).map _
  | report x => exact (readsBack_contentReport h).map _
  | trunk x => exact (readsBack_contentTrunk h).map _
  | axis x => exact (readsBack_contentAxis h).map _
  | profile x => exact (readsBack_contentProfile h).map _
  | zone x => exact (readsBack_contentZone h).map _
  | door x => exact (readsBack_contentDoor h).map _
  | area x => exact (readsBack_contentArea h).map _
  | channel x => exact (readsBack_contentChannel h).map _
  | monitor x => exact (readsBack_contentMonitor h).map _
  | mstate x => exact (readsBack_contentMstate h).map _
  | lamp x => exact (readsBack_contentLamp h).map _
  | line x => exact (readsBack_contentLine h).map _
  | param x => exact (readsBack_contentParam h).map _

/-- Settles O12: each table's content is read back from its bytes, to their end where nothing is cut
short. -/
theorem contentsAreReadBack : Obligations.ContentsAreReadBack :=
  fun _ _ _ h => contentForm_reads (readsBack_content h)

end Sys2Proof.Machine
end

