-- ==== Sys2Proof/Proofs/Writes.lean ====
section
/-! PROOFS. WRITE ENTRY judged in the order of R6: the index, the owner's restriction, the content, the table's
own rules and the cross-references; and the cross-references table by table. -/

namespace Sys2Proof.Machine

/-! ### The steps of a write -/

theorem run'_error {α : Type} {p : Parse α} {field : Nat} {bytes : List Byte} {n : Nat} :
    p.run' field bytes = .error n ↔ p { field, bytes } = .error n := by
  unfold Parse.run'
  cases p { field, bytes } with
  | error m => simp
  | ok x => simp

theorem run'_ok {α : Type} {p : Parse α} {field : Nat} {bytes : List Byte} {a : α} :
    p.run' field bytes = .ok a ↔ ∃ k, p { field, bytes } = .ok (a, k) := by
  unfold Parse.run'
  cases p { field, bytes } with
  | error m => simp
  | ok x => simp [Prod.ext_iff]

section
variable (c : Tables) (r : Run) {t : Table} {i : Nat}

theorem writeEntry_far (body : List Byte) (hi : i < 65536) (h : t.entries ≤ i) :
    writeEntry c r t (b2 i ++ body) = (c, r, .badRequest, det 2) := by
  rw [writeEntry, (refuses_far (entries_pos t) h hi body).fld 2]

theorem writeEntry_noLine (body : List Byte) (hi : i < t.entries) (h : t = .line ∧ 14 ≤ i) :
    writeEntry c r t (b2 i ++ body) = (c, r, .badRequest, det 2) := by
  rw [writeEntry, (reads_index hi).fld 2 body]
  exact if_pos h

theorem writeEntry_index (body : List Byte) (hi : i < t.entries) (h : ¬(t = .line ∧ 14 ≤ i)) :
    writeEntry c r t (b2 i ++ body) = writeAt c r t i { field := 3, bytes := body } := by
  rw [writeEntry, (reads_index hi).fld 2 body]
  exact if_neg h

variable {k : Cursor}

theorem writeAt_restricted {v : Verdict} (h : restriction c r t i k.bytes = some v) :
    writeAt c r t i k = (c, r, v) := by
  simp only [writeAt, h]

theorem writeAt_form {f : Nat} (h : restriction c r t i k.bytes = none)
    (hf : contentForm t i k = .error f) : writeAt c r t i k = (c, r, .badRequest, det f) := by
  simp only [writeAt, h, hf]

variable {e : Entry} {k' : Cursor}

theorem writeAt_put {f : Nat} (h : restriction c r t i k.bytes = none)
    (hf : contentForm t i k = .ok (e, k')) (hp : putContent c r i e = .error f) :
    writeAt c r t i k = (c, r, .badRequest, det f) := by
  simp only [writeAt, h, hf, hp]

theorem writeAt_passes {c' : Tables} {d : Nat} (h : restriction c r t i k.bytes = none)
    (hf : contentForm t i k = .ok (e, k')) (hp : putContent c r i e = .ok (c', d)) :
    writeAt c r t i k =
      (c', Run.written c c' r t i, if e.clamped then (.clamped, det 3) else (.ok, det d)) := by
  simp only [writeAt, h, hf, hp]

theorem putContent_error {f : Nat} (h : putEntry c i e = .error f) :
    putContent c r i e = .error (if r.gw.inForce then slotFirst c e f else f) := by
  simp only [putContent, h]

theorem putContent_crossed {c' : Tables} {d f : Nat} (h : putEntry c i e = .ok (c', d))
    (hg : r.gw.inForce = true) (hc : crossFailure c' i e = some f) :
    putContent c r i e = .error f := by
  simp only [putContent, h, hg, hc, if_true]

theorem putContent_passes {c' : Tables} {d : Nat} (h : putEntry c i e = .ok (c', d))
    (hc : r.gw.inForce = false ∨ crossFailure c' i e = none) :
    putContent c r i e = .ok (c', d) := by
  rcases hc with hc | hc
  · simp only [putContent, h, hc, Bool.false_eq_true, if_false]
  · simp only [putContent, h, hc, ite_self]
end

/-- A route's node slot is not there. -/
theorem routeSound_false {c : Tables} {x : Route} :
    routeSound c x = false ↔ ∃ n, x.target = .node n ∧ nodeCfg c n = none := by
  unfold routeSound
  cases x.target with
  | node n => simp
  | function f => simp

/-- The field of a refused ROUTE write: the node slot's, when the position comes behind it (R19, R20). -/
theorem slotFirst_eq (c : Tables) (e : Entry) (k : Nat) :
    ((k = 2 ∧ ∃ x n, e = .route (some x) ∧ x.target = .node n ∧ nodeCfg c n = none) →
      slotFirst c e k = 5) ∧
    (¬(k = 2 ∧ ∃ x n, e = .route (some x) ∧ x.target = .node n ∧ nodeCfg c n = none) →
      slotFirst c e k = k) := by
  refine ⟨fun ⟨hk, x, n, he, ht, hn⟩ => ?_, fun h => ?_⟩
  · subst he
    exact if_pos ⟨hk, routeSound_false.mpr ⟨n, ht, hn⟩⟩
  · cases e with
    | route x =>
      cases x with
      | none => rfl
      | some x =>
        refine if_neg fun ⟨hk, hs⟩ => h ⟨hk, ?_⟩
        obtain ⟨n, ht, hn⟩ := routeSound_false.mp hs
        exact ⟨x, n, rfl, ht, hn⟩
    | _ x => rfl

/-- A write that changes nothing but its ANSWER. -/
theorem writeCommand_answers {s : State} (h : Serves s .writeEntry) (src : Word) (tag : Byte) {t : Table}
    {body : List Byte} (hl : body.length ≤ 238) {v : Verdict}
    (hw : writeEntry s.cfg s.run t body = (s.cfg, s.run, v)) :
    exec (writeCommand src tag body t) s = answered s s.run { src, dst := 0, tag } v [] := by
  rw [writeCommand_eq, writing_serves h src tag t hl, State.doWriteEntry, hw]
  rfl

/-- A write that passes. -/
theorem writeCommand_passes {s : State} (h : Serves s .writeEntry) (src : Word) (tag : Byte) {t : Table}
    {body : List Byte} (hl : body.length ≤ 238) {c : Tables} {r : Run} {v : Verdict}
    (hw : writeEntry s.cfg s.run t body = (c, r, v)) :
    exec (writeCommand src tag body t) s =
      .next (((s.setCfg c).setRun r).answer { src, dst := 0, tag } v []).settle := by
  rw [writeCommand_eq, writing_serves h src tag t hl, State.doWriteEntry, hw]
  rfl

/-! ### The cross-references (R6 step 4) -/

/-- What is left when the written entry's own references are sound: the validation. -/
def crossRest (c : Tables) : Option Nat := if (validate c).isSome then some 3 else none

theorem crossFailure_own {c : Tables} {i : Nat} {e : Entry} {k : Nat} (h : ownFailure c i e = some k) :
    crossFailure c i e = some k := by
  simp only [crossFailure, h]

theorem crossFailure_rest {c : Tables} {i : Nat} {e : Entry} (h : ownFailure c i e = none) :
    crossFailure c i e = crossRest c := by
  simp only [crossFailure, h, crossRest]

/-- An own reference that names one field when it fails. -/
theorem crossFailure_ite {c : Tables} {i : Nat} {e : Entry} {p : Prop} [Decidable p] {k : Nat}
    (h : ownFailure c i e = if p then some k else none) :
    crossFailure c i e = if p then some k else crossRest c := by
  by_cases hp : p
  · rw [if_pos hp] at h ⊢
    exact crossFailure_own h
  · rw [if_neg hp] at h ⊢
    exact crossFailure_rest h

theorem slotIs_iff {c : Tables} {n : NodeId} {k : NodeKind} :
    slotIs c n k = true ↔ nodeKind c n = some k := beq_iff_eq

theorem driveShared_iff {c : Tables} {a : Fin 6} {p : Fin 6 → Bool} : driveShared c a p = true ↔
    ∃ b : Fin 6, p b = true ∧ c.axes[b].configured = true ∧ c.axes[b].drive = c.axes[a].drive := by
  simp [driveShared, and_assoc]

theorem doorShared_iff {c : Tables} {d : Fin 32} {p : Fin 32 → Bool} : doorShared c d p = true ↔
    ∃ b : Fin 32, p b = true ∧ c.doors[b].configured = true ∧ c.doors[b].node = c.doors[d].node := by
  simp [doorShared, and_assoc]

theorem panelSound_false {c : Tables} {x : Option NodeId} :
    panelSound c x = false ↔ ∃ n, x = some n ∧ nodeKind c n ≠ some .panel := by
  cases x with
  | none => simp [panelSound]
  | some n => simp [panelSound, slotIs]

theorem prereqSound_false {c : Tables} {q : Option Prereq} :
    prereqSound c q = false ↔ ∃ p, q = some p ∧ c.axes[p.axis].configured = false := by
  cases q with
  | none => simp [prereqSound]
  | some p => simp [prereqSound]

theorem termSound_iff {c : Tables} {u : Term} : termSound c (some u) = true ↔
    (∀ a k, u = .axis a k → c.axes[a].configured = true) ∧
      (∀ d k, u = .door d k → c.doors[d].configured = true) ∧
      (∀ m k, u = .monitor m k → c.monitors[m].configured = true) := by
  cases u <;> simp [termSound]

theorem crossFailure_route (c : Tables) (i : Nat) (x : Route) :
    (∀ n, x.target = .node n → crossFailure c i (.route (some x)) =
      if (nodeCfg c n).isSome then crossRest c else some 5) ∧
    (∀ f, x.target = .function f → crossFailure c i (.route (some x)) = crossRest c) := by
  refine ⟨fun n hn => ?_, fun f hf => ?_⟩
  · have hs : routeSound c x = (nodeCfg c n).isSome := by rw [routeSound, hn]
    cases hc : (nodeCfg c n).isSome with
    | true => exact crossFailure_rest (by simp only [ownFailure, hs, hc, if_true])
    | false => exact crossFailure_own (by simp only [ownFailure, hs, hc, Bool.false_eq_true, if_false])
  · have hs : routeSound c x = true := by rw [routeSound, hf]
    exact crossFailure_rest (by simp only [ownFailure, hs, if_true])

theorem crossFailure_permit (c : Tables) (i : Nat) (x : Permit) :
    (termSound c x.term1 = false → crossFailure c i (.permit (some x)) = some 7) ∧
    (termSound c x.term1 = true → crossFailure c i (.permit (some x)) =
      if termSound c x.term2 then crossRest c else some 8) := by
  refine ⟨fun h => crossFailure_own (by simp only [ownFailure, h, Bool.not_false, if_true]), fun h => ?_⟩
  cases h2 : termSound c x.term2 with
  | true => exact crossFailure_rest (by simp [ownFailure, h, h2])
  | false => exact crossFailure_own (by simp [ownFailure, h, h2])

/-- The drive node of a configured axis is no drive slot, or another configured axis names it. -/
theorem axisDrive_iff {c : Tables} {a : Fin 6} :
    (!slotIs c c.axes[a].drive .drive || driveShared c a (fun b => b != a)) = true ↔
      nodeKind c c.axes[a].drive ≠ some .drive ∨ ∃ b : Fin 6, b ≠ a ∧ c.axes[b].configured = true ∧
        c.axes[b].drive = c.axes[a].drive := by
  rw [Bool.or_eq_true, Bool.not_eq_true', driveShared_iff, ← Bool.not_eq_true, slotIs_iff]
  simp only [bne_iff_ne]

theorem doorNode_iff {c : Tables} {d : Fin 32} :
    (!slotIs c c.doors[d].node .door || doorShared c d (fun b => b != d)) = true ↔
      nodeKind c c.doors[d].node ≠ some .door ∨ ∃ b : Fin 32, b ≠ d ∧ c.doors[b].configured = true ∧
        c.doors[b].node = c.doors[d].node := by
  rw [Bool.or_eq_true, Bool.not_eq_true', doorShared_iff, ← Bool.not_eq_true, slotIs_iff]
  simp only [bne_iff_ne]

theorem ownFailure_axis (c : Tables) (a : Fin 6) (x : AxisCfg) :
    ownFailure c a.val (.axis x) = axisFailure c a := dif_pos a.isLt

theorem profileSound_configured {c : Tables} {a : Fin 6} (h : c.axes[a].configured = true) :
    profileSound c a = decide (2 ≤ (breakpoints c a).length) := by
  rw [profileSound, h]
  rfl

theorem ownFailure_door (c : Tables) (d : Fin 32) (x : DoorCfg) :
    ownFailure c d.val (.door x) = doorFailure c d := dif_pos d.isLt

theorem crossFailure_door (c : Tables) (d : Fin 32) :
    let bad := nodeKind c c.doors[d].node ≠ some .door ∨
      ∃ b : Fin 32, b ≠ d ∧ c.doors[b].configured = true ∧ c.doors[b].node = c.doors[d].node
    (c.doors[d].configured = true → bad → crossFailure c d.val (.door c.doors[d]) = some 4) ∧
    (c.doors[d].configured = false ∨ ¬bad →
      crossFailure c d.val (.door c.doors[d]) = crossRest c) := by
  intro bad
  have hown := ownFailure_door c d c.doors[d]
  rw [doorFailure] at hown
  refine ⟨fun hc hb => crossFailure_own ?_, fun h => crossFailure_rest ?_⟩
  · rw [hown, if_neg (by rw [hc]; exact Bool.false_ne_true), if_pos (doorNode_iff.mpr hb)]
  · rw [hown]
    by_cases hc : c.doors[d].configured = true
    · rcases h with h | h
      · rw [h] at hc
        cases hc
      · rw [if_neg (by rw [hc]; exact Bool.false_ne_true), if_neg fun hb => h (doorNode_iff.mp hb)]
    · rw [Bool.not_eq_true] at hc
      rw [if_pos (by rw [hc]; rfl)]

theorem crossFailure_channel (c : Tables) (i : Nat) (x : ChannelCfg) :
    crossFailure c i (.channel x) =
      if x.configured = true ∧ (nodeCfg c x.source).isNone then some 4 else crossRest c :=
  crossFailure_ite (by simp only [ownFailure, Bool.and_eq_true])

theorem crossFailure_monitor (c : Tables) (m : Fin 16) :
    crossFailure c m.val (.monitor c.monitors[m]) =
      if c.monitors[m].configured = true ∧ c.monitors[m].startEnabled = true ∧
        graphPasses c m = false then some 4 else crossRest c := by
  refine crossFailure_ite ((dif_pos m.isLt).trans ?_)
  have hs : monitorSound c m = false ↔ c.monitors[m].configured = true ∧
      c.monitors[m].startEnabled = true ∧ graphPasses c m = false := by
    simp only [monitorSound, Bool.or_eq_false_iff, Bool.not_eq_false', Bool.and_eq_true, and_assoc]
  by_cases h : monitorSound c m = true
  · have hn : ¬monitorSound c m = false := by rw [h]; exact Bool.noConfusion
    exact (if_pos h).trans (if_neg fun hx => hn (hs.mpr hx)).symm
  · exact (if_neg h).trans (if_pos (hs.mp (Bool.not_eq_true _ ▸ h))).symm

theorem crossFailure_axis (c : Tables) (a : Fin 6) :
    let x := c.axes[a]
    let go := crossFailure c a.val (.axis x)
    let driveBad := nodeKind c x.drive ≠ some .drive ∨
      ∃ b : Fin 6, b ≠ a ∧ c.axes[b].configured = true ∧ c.axes[b].drive = x.drive
    let panelBad := ∃ n, x.panel = some n ∧ nodeKind c n ≠ some .panel
    let bad := fun (q : Option Prereq) => ∃ p, q = some p ∧ c.axes[p.axis].configured = false
    (x.configured = false → go = crossRest c) ∧
    (x.configured = true → (driveBad → go = some 4) ∧
      (¬driveBad → (panelBad → go = some 5) ∧
        (¬panelBad → (bad x.prereq1 → go = some 26) ∧
          (¬bad x.prereq1 → (bad x.prereq2 → go = some 27) ∧
            (¬bad x.prereq2 →
              go = if 2 ≤ (breakpoints c a).length then crossRest c else some 3))))) := by
  intro x go driveBad panelBad bad
  have hown := ownFailure_axis c a x
  unfold axisFailure at hown
  dsimp only at hown
  refine ⟨fun hc => crossFailure_rest (hown.trans (if_pos (by rw [hc]; rfl))), fun hc => ?_⟩
  rw [if_neg (by rw [hc]; exact Bool.false_ne_true)] at hown
  refine ⟨fun h => crossFailure_own (hown.trans (if_pos (axisDrive_iff.mpr h))), fun h => ?_⟩
  rw [if_neg fun hd => h (axisDrive_iff.mp hd)] at hown
  have hbad : ∀ q, (!prereqSound c q) = true ↔ bad q := fun q => by
    rw [Bool.not_eq_true', prereqSound_false]
  have hpanel : (!panelSound c x.panel) = true ↔ panelBad := by
    rw [Bool.not_eq_true', panelSound_false]
  refine ⟨fun h => crossFailure_own (hown.trans (if_pos (hpanel.mpr h))), fun h => ?_⟩
  rw [if_neg fun hp => h (hpanel.mp hp)] at hown
  refine ⟨fun h => crossFailure_own (hown.trans (if_pos ((hbad _).mpr h))), fun h => ?_⟩
  rw [if_neg fun hp => h ((hbad _).mp hp)] at hown
  refine ⟨fun h => crossFailure_own (hown.trans (if_pos ((hbad _).mpr h))), fun h => ?_⟩
  rw [if_neg fun hp => h ((hbad _).mp hp), profileSound_configured hc] at hown
  by_cases hl : 2 ≤ (breakpoints c a).length
  · rw [if_pos hl]
    exact crossFailure_rest (hown.trans (if_neg (by simp [hl])))
  · rw [if_neg hl]
    exact crossFailure_own (hown.trans (if_pos (by simp [hl])))

theorem ownFailure_mstate (c : Tables) (m : Fin 16) (k : Fin 8) (x : StateCfg) :
    ownFailure c (8 * m.val + k.val) (.mstate x) =
      (if !(mstate c m k).inUse then none
      else if !c.channels[(mstate c m k).channel].configured then some 4
      else if c.monitors[m].configured && c.monitors[m].startEnabled then
        if !(mstate c m (mstate c m k).onHold).inUse then some 8
        else if (mstate c m k).timeout != 0 && !(mstate c m (mstate c m k).onTimeout).inUse then some 10
        else
          match (mstate c m k).onStale with
          | some s => if !(mstate c m s).inUse then some 11 else none
          | none => none
      else none) := by
  have hi : 8 * m.val + k.val < 128 := by omega
  have hm : mstateMonitor ⟨8 * m.val + k.val, hi⟩ = m := Fin.ext (by
    show (8 * m.val + k.val) / 8 = m.val
    omega)
  have hx : c.mstates[(⟨8 * m.val + k.val, hi⟩ : Fin 128)] = mstate c m k := rfl
  refine (dif_pos hi).trans ?_
  unfold mstateFailure
  simp only [hm, hx] <;> rfl

theorem crossFailure_mstate (c : Tables) (m : Fin 16) (k : Fin 8) :
    let x := mstate c m k
    let go := crossFailure c (8 * m.val + k.val) (.mstate x)
    let used := fun (j : Fin 8) => (mstate c m j).inUse = true
    let held := c.monitors[m].configured = true ∧ c.monitors[m].startEnabled = true
    (x.inUse = false → go = crossRest c) ∧
    (x.inUse = true → (c.channels[x.channel].configured = false → go = some 4) ∧
      (c.channels[x.channel].configured = true → (¬held → go = crossRest c) ∧
        (held → (¬used x.onHold → go = some 8) ∧
          (used x.onHold → (x.timeout ≠ 0 → ¬used x.onTimeout → go = some 10) ∧
            (x.timeout = 0 ∨ used x.onTimeout →
              (∀ j, x.onStale = some j → ¬used j → go = some 11) ∧
              ((∀ j, x.onStale = some j → used j) → go = crossRest c)))))) := by
  intro x go used held
  have hown := ownFailure_mstate c m k x
  have hunused : ∀ j, (!(mstate c m j).inUse) = true ↔ ¬used j := fun j => by
    rw [Bool.not_eq_true', Bool.not_eq_true]
  refine ⟨fun hu => crossFailure_rest (hown.trans (if_pos (by rw [hu]; rfl))), fun hu => ?_⟩
  rw [if_neg (by rw [hu]; exact Bool.false_ne_true)] at hown
  refine ⟨fun hc => crossFailure_own (hown.trans (if_pos (by rw [hc]; rfl))), fun hc => ?_⟩
  rw [if_neg (by rw [hc]; exact Bool.false_ne_true)] at hown
  have hheld : (c.monitors[m].configured && c.monitors[m].startEnabled) = true ↔ held :=
    Bool.and_eq_true _ _ ▸ Iff.rfl
  refine ⟨fun h => crossFailure_rest (hown.trans (if_neg fun hh => h (hheld.mp hh))), fun h => ?_⟩
  rw [if_pos (hheld.mpr h)] at hown
  refine ⟨fun h => crossFailure_own (hown.trans (if_pos ((hunused _).mpr h))), fun h => ?_⟩
  rw [if_neg fun hn => (hunused _).mp hn h] at hown
  refine ⟨fun ht hn => crossFailure_own (hown.trans (if_pos ?_)), fun ht => ?_⟩
  · rw [Bool.and_eq_true, bne_iff_ne]
    exact ⟨ht, (hunused _).mpr hn⟩
  · rw [if_neg (by
      rw [Bool.and_eq_true, bne_iff_ne]
      exact fun ⟨h0, hn⟩ => ht.elim h0 ((hunused _).mp hn))] at hown
    refine ⟨fun j hj hn => crossFailure_own ?_, fun hall => crossFailure_rest ?_⟩
    · rw [hown, hj]
      exact if_pos ((hunused j).mpr hn)
    · rw [hown]
      cases hj : (mstate c m k).onStale with
      | none => rfl
      | some j => exact if_neg fun hn => (hunused j).mp hn (hall j hj)

/-- Settles O13: a write goes through R6's steps, and each table's own references are the ones named. -/
theorem writesAreJudgedInOrder : Obligations.WritesAreJudgedInOrder := by
  refine ⟨fun s src tag t i body h hl => ?_, fun c => ⟨crossFailure_route c, crossFailure_permit c,
    fun u => ⟨termSound_iff, rfl⟩, crossFailure_axis c, crossFailure_door c, crossFailure_channel c,
    crossFailure_monitor c, crossFailure_mstate c, fun i e he => ?_⟩⟩
  · have hl' : (b2 i ++ body).length ≤ 238 := by
      rw [List.length_append, b2_length]
      omega
    refine ⟨fun hi hbad => ?_, fun hi hline => ?_⟩
    · refine writeCommand_answers h src tag hl' ?_
      by_cases hfar : t.entries ≤ i
      · exact writeEntry_far s.cfg s.run body hi hfar
      · exact writeEntry_noLine s.cfg s.run body (Nat.lt_of_not_le hfar) (hbad.resolve_left hfar)
    · have hat := writeEntry_index s.cfg s.run body hi hline
      refine ⟨fun v hr => writeCommand_answers h src tag hl' (hat.trans (writeAt_restricted _ _ hr)),
        fun hr => ⟨fun k hk => ?_, fun e he => ?_⟩⟩
      · exact writeCommand_answers h src tag hl' (hat.trans (writeAt_form _ _ hr (run'_error.mp hk)))
      · obtain ⟨k', hk'⟩ := run'_ok.mp he
        refine ⟨fun k hp => ?_, fun c d hp => ⟨fun k hg hc => ?_, fun hc => ?_⟩⟩
        · have hput := putContent_error s.cfg s.run hp
          obtain ⟨hlate, hearly⟩ := slotFirst_eq s.cfg e k
          refine ⟨fun ⟨hg, hk, hx⟩ => ?_, fun hn => ?_⟩
          · rw [if_pos hg, hlate ⟨hk, hx⟩] at hput
            exact writeCommand_answers h src tag hl' (hat.trans (writeAt_put _ _ hr hk' hput))
          · have hk : (if s.run.gw.inForce = true then slotFirst s.cfg e k else k) = k := by
              split
              · rename_i hg
                exact hearly fun ⟨hk, hx⟩ => hn ⟨hg, hk, hx⟩
              · rfl
            rw [hk] at hput
            exact writeCommand_answers h src tag hl' (hat.trans (writeAt_put _ _ hr hk' hput))
        · exact writeCommand_answers h src tag hl'
            (hat.trans (writeAt_put _ _ hr hk' (putContent_crossed _ _ hp hg hc)))
        · exact writeCommand_passes h src tag hl'
            (hat.trans (writeAt_passes _ _ hr hk' (putContent_passes _ _ hp hc)))
  · refine crossFailure_rest ?_
    cases e with
    | route x =>
      cases x with
      | none => rfl
      | some x => exact he.elim
    | permit x =>
      cases x with
      | none => rfl
      | some x => exact he.elim
    | axis x | door x | channel x | monitor x | mstate x => exact he.elim
    | _ x => rfl

end Sys2Proof.Machine
end

