-- ==== Sys2Proof/Proofs/WriteRules.lean ====
section
/-! PROOFS. What a write leaves alone: the other entries of the tables, the route list's order (R19, R20), and
the owners' restrictions on a write (R41, R47, R68, R105, R106, R128, R145, R148). -/

namespace Sys2Proof.Machine

/-! ### The entries behind a write -/

theorem putEntry_entries {c c' : Tables} {t : Table} {i d : Nat} {e : Entry} (hf : e.fits t i = true)
    (hi : i < t.entries) (hp : putEntry c i e = .ok (c', d)) :
    (t ≠ .route → t ≠ .param → getEntry c' t i = some e) ∧
      (∀ x, e = .param x →
        c'.param = { x with beaconPeriod := max 100 (min 5000 x.beaconPeriod) }) ∧
      ∀ t' j, t' ≠ t ∨ (j ≠ i ∧ t ≠ .route ∧ t ≠ .param) → getEntry c' t' j = getEntry c t' j := by
  obtain rfl := fits_table hf
  have hput := putEntry_ok hp
  refine ⟨fun hr hq => getEntry_put_same hput hi hr hq, fun x hx => ?_, fun t' j h => ?_⟩
  · subst hx
    rw [show c' = _ from hput]
    rfl
  · by_cases ht : t' = e.table
    · subst ht
      obtain ⟨hj, hr, hq⟩ := h.resolve_left fun hn => hn rfl
      exact getEntry_put_other hput hr hq hj
    · exact getEntry_put_table hput ht j

/-! ### The route list -/

theorem routeDuplicate_station {others : List Route} {x : Route}
    (h : ∃ y ∈ others, y.station = x.station) : routeDuplicate others x = some 3 := by
  obtain ⟨y, hy, he⟩ := h
  exact if_pos (List.any_eq_true.mpr ⟨y, hy, by simpa using he⟩)

theorem routeDuplicate_node {others : List Route} {x : Route} {n : NodeId}
    (hs : ∀ y ∈ others, y.station ≠ x.station) (ht : x.target = .node n)
    (h : ∃ y ∈ others, y.target = .node n) : routeDuplicate others x = some 5 := by
  obtain ⟨y, hy, he⟩ := h
  unfold routeDuplicate
  rw [if_neg (by simpa using hs), ht]
  exact if_pos (List.any_eq_true.mpr ⟨y, hy, by simpa using he⟩)

theorem putRoute_duplicate {l : List Route} {i k : Nat} {x : Route}
    (h : routeDuplicate (l.eraseIdx i) x = some k) : putRoute l i (some x) = .error k := by
  simp only [putRoute, h]

theorem putRoute_far {l : List Route} {i : Nat} {x : Route}
    (h : routeDuplicate (l.eraseIdx i) x = none) (hi : l.length < i) :
    putRoute l i (some x) = .error 2 := by
  simp only [putRoute, h, hi, if_true]

theorem putRoute_passes {l : List Route} {i : Nat} {x : Route}
    (h : routeDuplicate (l.eraseIdx i) x = none) (hi : i ≤ l.length) :
    putRoute l i (some x) = .ok (insertRoute x (l.eraseIdx i),
      (insertRoute x (l.eraseIdx i)).idxOf x) := by
  simp only [putRoute, h, Nat.not_lt.mpr hi, if_false]

/-- What a ROUTE write of an entry in use does, duplicate by duplicate (R19, R20). -/
theorem putRoute_used (l : List Route) (i : Nat) (x : Route) :
    ((∃ y ∈ l.eraseIdx i, y.station = x.station) → putRoute l i (some x) = .error 3) ∧
    ((∀ y ∈ l.eraseIdx i, y.station ≠ x.station) →
      (∀ n, x.target = .node n → (∃ y ∈ l.eraseIdx i, y.target = .node n) →
        putRoute l i (some x) = .error 5) ∧
      ((∀ n, x.target = .node n → ∀ y ∈ l.eraseIdx i, y.target ≠ .node n) →
        (l.length < i → putRoute l i (some x) = .error 2) ∧
        (i ≤ l.length → ∃ l' d, putRoute l i (some x) = .ok (l', d) ∧ l'[d]? = some x ∧
          l'.eraseIdx d = l.eraseIdx i))) := by
  refine ⟨fun h => putRoute_duplicate (routeDuplicate_station h), fun hs =>
    ⟨fun n ht h => putRoute_duplicate (routeDuplicate_node hs ht h), fun hn => ?_⟩⟩
  have hd := routeDuplicate_none.mpr ⟨hs, hn⟩
  refine ⟨putRoute_far hd, fun hi => ⟨_, _, putRoute_passes hd hi, ?_⟩⟩
  exact insertRoute_get fun hx => hs x hx rfl

/-! ### The owners' restrictions -/

section
variable (c : Tables) (r : Run) (body : List Byte)

theorem trunkRestriction_eq (t : Fin 4) : trunkRestriction r t =
    if r.trunks[t].state = .settling ∨ r.trunks[t].state = .running then
      some (.state, det r.trunks[t].state.code) else none := by
  unfold trunkRestriction
  generalize r.trunks[t].state = x
  cases x <;> simp

theorem axisRestriction_eq (a : Fin 6) : axisRestriction r a =
    if r.axes[a].state = .offline ∨ r.axes[a].state = .locked ∨ r.axes[a].state = .still then
      none else some (.state, det r.axes[a].state.code) := by
  unfold axisRestriction
  generalize r.axes[a].state = x
  cases x <;> simp

theorem restriction_trunk (t : Fin 4) :
    restriction c r .trunk t.val body = trunkRestriction r t := dif_pos t.isLt

theorem restriction_node (n : Fin 124) :
    restriction c r .node n.val body = trunkRestriction r (nodeOfIndex n).trunk := dif_pos n.isLt

theorem restriction_axis (a : Fin 6) :
    restriction c r .axis a.val body = axisRestriction r a := dif_pos a.isLt

theorem restriction_profile (k : Fin 48) : restriction c r .profile k.val body =
    axisRestriction r ⟨k.val / 8, by omega⟩ := dif_pos k.isLt

theorem restriction_channel (ch : Fin 32) :
    restriction c r .channel ch.val body = channelRestriction c r ch := dif_pos ch.isLt

theorem restriction_monitor (m : Fin 16) :
    restriction c r .monitor m.val body = monitorRestriction r m := dif_pos m.isLt

theorem restriction_mstate (i : Fin 128) : restriction c r .mstate i.val body =
    monitorRestriction r (mstateMonitor i) := dif_pos i.isLt

theorem restriction_door (d : Fin 32) :
    restriction c r .door d.val body = doorRestriction c r d body := dif_pos d.isLt
end

/-- The zones read from a DOOR content's bytes are those the content names. -/
theorem zonesInContent_encDoor (x : DoorCfg) : zonesInContent (encDoor x) = zonesNamed x := by
  have hb : ∀ z : Fin 8, (BitVec.ofNat 8 z.val).toNat = z.val := fun z => by
    rw [BitVec.toNat_ofNat]
    omega
  unfold zonesNamed
  cases hc : x.configured with
  | false =>
    simp only [encDoor, hc]
    rfl
  | true =>
    cases hz : x.zone2 with
    | none => 
      simp [encDoor, hc, hz, zonesInContent, doorZones, bBool, b1, encNode, bOpt, hb]
    | some z =>
      simp [encDoor, hc, hz, zonesInContent, doorZones, bBool, b1, encNode, bOpt, hb]

/-- A door that moves is not written (R106 step 1). -/
theorem doorRestriction_moving {r : Run} {d : Fin 32} (h : r.doors[d].state = .opening ∨
    r.doors[d].state = .closing ∨ r.doors[d].state = .obstructed ∨ r.doors[d].state = .transit)
    (c : Tables) (body : List Byte) :
    doorRestriction c r d body = some (.state, det r.doors[d].state.code) := by
  unfold doorRestriction
  rcases h with h | h | h | h <;> simp only [h]

/-- A door at rest is judged by the zones it names and the zones its content names (R106 step 2). -/
theorem doorRestriction_resting {r : Run} {d : Fin 32} (h : r.doors[d].state = .offline ∨
    r.doors[d].state = .opened ∨ r.doors[d].state = .closed ∨ r.doors[d].state = .fault)
    (c : Tables) (x : DoorCfg) : doorRestriction c r d (encDoor x) =
      ((List.finRange 8).find? fun z => (zonesNamed c.doors[d] ++ zonesNamed x).contains z
        && r.zones[z].active).map fun z => (.state, det (8 + z.val)) := by
  unfold doorRestriction
  rw [zonesInContent_encDoor]
  rcases h with h | h | h | h <;> simp only [h]

theorem doorRestriction_zones {r : Run} {d : Fin 32} (h : r.doors[d].state = .offline ∨
    r.doors[d].state = .opened ∨ r.doors[d].state = .closed ∨ r.doors[d].state = .fault)
    (c : Tables) (x : DoorCfg) :
    let named := fun z => z ∈ zonesNamed c.doors[d] ∨ z ∈ zonesNamed x
    (∀ z, named z → r.zones[z].active = true →
      (∀ z' < z, ¬(named z' ∧ r.zones[z'].active = true)) →
      doorRestriction c r d (encDoor x) = some (.state, det (8 + z.val))) ∧
    ((∀ z, named z → r.zones[z].active = false) → doorRestriction c r d (encDoor x) = none) := by
  intro named
  have htest : ∀ z : Fin 8, ((zonesNamed c.doors[d] ++ zonesNamed x).contains z
      && r.zones[z].active) = true ↔ named z ∧ r.zones[z].active = true := fun z => by
    rw [Bool.and_eq_true, List.contains_iff_mem, List.mem_append]
  rw [doorRestriction_resting h]
  refine ⟨fun z hz ha hlow => ?_, fun hz => ?_⟩
  · rw [find_lowest ((htest z).mpr ⟨hz, ha⟩) fun y hy => ?_]
    · rfl
    · exact not_lt.mp fun hlt => hlow y hlt ((htest y).mp hy)
  · rw [List.find?_eq_none.mpr fun z _ hn => ?_]
    · rfl
    · obtain ⟨hn, ha⟩ := (htest z).mp hn
      rw [hz z hn] at ha
      cases ha

theorem channelRestriction_reads {c : Tables} {r : Run} {ch : Fin 32} {m : Fin 16}
    (h : reads c r m ch = true) (hlow : ∀ m' : Fin 16, m' < m → reads c r m' ch = false) :
    channelRestriction c r ch = some (.state, det m.val) := by
  unfold channelRestriction
  rw [find_lowest (p := fun m => reads c r m ch) h fun y hy => not_lt.mp fun hlt =>
    Bool.false_ne_true ((hlow y hlt).symm.trans hy)]
  rfl

theorem channelRestriction_free {c : Tables} {r : Run} {ch : Fin 32}
    (h : ∀ m, reads c r m ch = false) : channelRestriction c r ch = none := by
  unfold channelRestriction
  rw [List.find?_eq_none.mpr fun m _ hm => Bool.false_ne_true ((h m).symm.trans hm)]
  rfl

/-- Settles O14: each table's own entry takes the content, and each owner refuses a write as named. -/
theorem writesKeepTheOtherEntriesAndTheirOwners :
    Obligations.WritesKeepTheOtherEntriesAndTheirOwners := by
  refine ⟨⟨fun c c' t i d e hf hi hp => putEntry_entries hf hi hp, fun l i hl => ?_⟩,
    fun c r body => ?_⟩
  · exact ⟨fun x l' d h => putRoute_sorted hl h, fun h => if_neg (Nat.not_lt.mpr h),
      fun h => if_pos h, putRoute_used l i⟩
  · refine ⟨fun t => ?_, fun n => ?_, fun a => ?_, fun k => ?_, fun z => ?_, fun i => ?_,
      fun ch m hr hlow => ?_, fun ch hr => ?_, fun m => ?_, fun i => ?_,
      fun d => ⟨fun h => ?_, fun x h => ?_⟩, fun t i ht => ?_⟩
    · rw [restriction_trunk, trunkRestriction_eq]
    · rw [restriction_node]
      exact (restriction_trunk c r body (nodeOfIndex n).trunk).symm
    · rw [restriction_axis, axisRestriction_eq]
    · rw [restriction_profile]
      exact (restriction_axis c r body ⟨k.val / 8, by omega⟩).symm
    · exact dif_pos z.isLt
    · exact dif_pos i.isLt
    · rw [restriction_channel, channelRestriction_reads hr hlow]
    · rw [restriction_channel, channelRestriction_free hr]
    · exact restriction_monitor c r body m
    · rw [restriction_mstate]
      exact (restriction_monitor c r body (mstateMonitor i)).symm
    · rw [restriction_door, doorRestriction_moving h]
    · have := doorRestriction_zones h c x
      simp only [restriction_door]
      exact this
    · rcases ht with rfl | rfl | rfl | rfl | rfl | rfl <;> rfl

end Sys2Proof.Machine
end

