-- ==== Sys2Proof/Proofs/WriteEffects.lean ====
section
/-! PROOFS. What a write that passes does to its owner's runtime (R7, R33, R41, R47, R68, R106, R128, R145,
R168). -/

namespace Sys2Proof.Machine

section
variable (c c' : Tables) (r : Run)

theorem trunkWritten_loose {r : Run} (h : r.gw.inForce = false) (t : Fin 4) (b : Bool) :
    r.trunkWritten t b = r := by
  unfold Run.trunkWritten
  rw [if_neg (by rw [h]; exact Bool.false_ne_true)]

theorem trunkWritten_held {r : Run} (h : r.gw.inForce = true) {t : Fin 4}
    (hs : r.trunks[t].state = .down) : r.trunkWritten t true =
      (r.modTrunk t fun k => { k with holdAsserted := true, state := .held }).raise
        .trunkState t.val 1 := by
  unfold Run.trunkWritten
  rw [if_pos h]
  simp only [hs, Run.setTrunkState, Run.modTrunk_modTrunk]
  rfl

theorem trunkWritten_down {r : Run} (h : r.gw.inForce = true) {t : Fin 4}
    (hs : r.trunks[t].state = .held) : r.trunkWritten t false =
      (r.modTrunk t fun k => { k with holdAsserted := false, state := .down }).raise
        .trunkState t.val 0 := by
  unfold Run.trunkWritten
  rw [if_pos h]
  simp only [hs, Run.setTrunkState, Run.modTrunk_modTrunk]
  rfl

theorem trunkWritten_same {r : Run} (h : r.gw.inForce = true) {t : Fin 4} {b : Bool}
    (hs : r.trunks[t].state = .down ∧ b = false ∨ r.trunks[t].state = .held ∧ b = true) :
    r.trunkWritten t b = r := by
  unfold Run.trunkWritten
  rw [if_pos h]
  rcases hs with ⟨hs, rfl⟩ | ⟨hs, rfl⟩ <;> simp only [hs]

theorem written_trunk (t : Fin 4) :
    Run.written c c' r .trunk t.val = r.trunkWritten t c'.trunks[t].configured := dif_pos t.isLt

theorem written_axis (a : Fin 6) :
    Run.written c c' r .axis a.val = Run.axisWritten c c' r a := dif_pos a.isLt

theorem written_door (d : Fin 32) :
    Run.written c c' r .door d.val = Run.doorWritten c c' r d := dif_pos d.isLt

/-- An axis written while bound to the node it had keeps its runtime but the stage (R68). -/
theorem axisWritten_bound {c c' : Tables} {a : Fin 6} (hc : c'.axes[a].configured = true)
    (hd : c'.axes[a].drive = c.axes[a].drive) : Run.axisWritten c c' r a =
      if stageOn c'.axes[a] then r else r.modAxis a fun x => { x with stage := .low } := by
  have hn : ¬(!c'.axes[a].configured || c'.axes[a].drive != c.axes[a].drive) = true := by
    rw [hc, hd]
    simp
  unfold Run.axisWritten
  dsimp only
  rw [if_neg hn]

theorem axisWritten_unbound {c c' : Tables} {a : Fin 6}
    (h : c'.axes[a].configured = false ∨ c'.axes[a].drive ≠ c.axes[a].drive) :
    Run.axisWritten c c' r a =
      (let u := if r.axes[a].state = .offline then r.modAxis a AxisRt.unbound
        else Run.judgeOthers c' ((r.modAxis a AxisRt.unbound).endPlanOf a .offline) [a]
       if stageOn c'.axes[a] then u else u.modAxis a fun x => { x with stage := .low }) := by
  have hu : (!c'.axes[a].configured || c'.axes[a].drive != c.axes[a].drive) = true := by
    rw [Bool.or_eq_true, Bool.not_eq_true', bne_iff_ne]
    exact h
  unfold Run.axisWritten
  dsimp only
  rw [if_pos hu]

theorem doorWritten_eq (d : Fin 32) : Run.doorWritten c c' r d =
    if c'.doors[d].configured = false ∨ c'.doors[d].node ≠ c.doors[d].node then
      r.modDoor d fun _ => resetDoor else r := by
  unfold Run.doorWritten
  simp only [Bool.or_eq_true, Bool.not_eq_true', bne_iff_ne]

theorem paramWritten_eq : Run.paramWritten c c' r =
    (let u := if c'.param.beaconPeriod ≠ c.param.beaconPeriod then
        r.setConsole { r.console with beaconTimer := some (ms c'.param.beaconPeriod) } else r
     if c'.param.slowPeriod ≠ c.param.slowPeriod ∨ c'.param.fastPeriod ≠ c.param.fastPeriod
      ∨ c'.param.duty ≠ c.param.duty then Run.restartFlash c' u else u) := rfl
end

/-- Settles O15: each owner's part of a write, by its own case. -/
theorem writtenEntriesActOnTheirOwner : Obligations.WrittenEntriesActOnTheirOwner := by
  intro c c' r
  refine ⟨fun i => dif_pos i.isLt, fun i => dif_pos i.isLt, fun ch => dif_pos ch.isLt,
    fun t => ⟨fun hg => ?_, fun hg => ?_⟩, fun a => ⟨fun hc hd => ?_, fun h => ?_⟩, fun d => ?_,
    fun i => dif_pos i.isLt, ⟨fun hf hb => ?_, fun hf hb => ?_, fun hf hb => ?_, fun hf hb => ?_⟩,
    fun t i ht => ?_⟩
  · exact (written_trunk c c' r t).trans (trunkWritten_loose (by rw [hg]; rfl) _ _)
  · have hi : r.gw.inForce = true := by rw [hg]; rfl
    rw [written_trunk]
    refine ⟨fun hs hc => ?_, fun hs hc => ?_, fun hs hc => ?_, fun hs hc => ?_⟩
    · rw [hc]
      exact trunkWritten_held hi hs
    · rw [hc]
      exact trunkWritten_down hi hs
    · exact trunkWritten_same hi (.inl ⟨hs, hc⟩)
    · exact trunkWritten_same hi (.inr ⟨hs, hc⟩)
  · rw [written_axis, axisWritten_bound r hc hd]
  · rw [written_axis, axisWritten_unbound r h]
    rfl
  · rw [written_door, doorWritten_eq]
    rfl
  · show Run.paramWritten c c' r = _
    rw [paramWritten_eq, if_pos hb, if_neg hf]
  · show Run.paramWritten c c' r = _
    rw [paramWritten_eq, if_pos hb, if_pos hf]
  · show Run.paramWritten c c' r = _
    rw [paramWritten_eq, if_neg hb, if_pos hf]
  · show Run.paramWritten c c' r = _
    rw [paramWritten_eq, if_neg hb, if_neg hf]
  · rcases ht with rfl | rfl | rfl | rfl | rfl | rfl | rfl | rfl <;> rfl

end Sys2Proof.Machine
end

