-- ==== Sys2Proof/Proofs/ReadOut.lean ====
section
/-! PROOFS. READ STATUS (R9) and COLLECT EVENTS (R10): the snapshot, and the collection at the ANSWER's own
transmission. -/

namespace Sys2Proof.Machine

/-- A served request that takes effect and is answered. -/
theorem managed_done {s : State} {m : Management} (h : Serves s m) (src : Word) (tag code : Byte)
    {body : List Byte} {k : State → State} {r : Run} {v : Verdict} {data : List Byte}
    (hl : body.length ≤ 239) (hk : k s = (s.setRun r).answer (manageReq src tag) v data) :
    s.managed src tag code body m k = answered s r { src, dst := 0, tag } v data := by
  rw [managed_serves h src tag code k hl, hk]
  rfl

theorem readStatus_keeps {s : State} (h : Serves s .readStatus) (src : Word) (tag : Byte) :
    exec (.readStatus src tag [0]) s =
      answered s s.run { src, dst := 0, tag } (.ok, 0) (statusData s.run) :=
  managed_answers h src tag 0x04 (k := fun s => s.doReadStatus (manageReq src tag) [0])
    (by decide) rfl

theorem readStatus_clears {s : State} (h : Serves s .readStatus) (src : Word) (tag : Byte) :
    exec (.readStatus src tag [1]) s =
      answered s (s.run.setConsole { s.run.console with errors := 0, drops := 0 })
        { src, dst := 0, tag } (.ok, 0) (statusData s.run) :=
  managed_done h src tag 0x04 (k := fun s => s.doReadStatus (manageReq src tag) [1])
    (by decide) rfl

/-- The ANSWER of COLLECT EVENTS, its data open until it is sent. -/
def collectAnswer (src : Word) (tag : Byte) : Answer :=
  { req := { src, dst := 0, tag }, code := .ok, detail := 0, data := .collect, restart := false }

theorem collectEvents_offers {s : State} (h : Serves s .collectEvents) (src : Word) (tag : Byte) :
    exec (.collectEvents src tag []) s = closed s (Run.kickConsole s.cfg
      (s.run.setConsole (s.run.console.offerAnswer (collectAnswer src tag)).1)) :=
  (managed_serves h src tag 0x05 (fun s => s.doCollect (manageReq src tag) []) (Nat.zero_le _)).trans
    rfl

/-- A busy transmitter leaves the ANSWER in the queue. -/
theorem collectEvents_busy {s : State} (h : Serves s .collectEvents) (src : Word) (tag : Byte)
    (ht : s.run.console.tx.isSome = true) : exec (.collectEvents src tag []) s =
      closed s (s.run.setConsole (s.run.console.offerAnswer (collectAnswer src tag)).1) := by
  refine (collectEvents_offers h src tag).trans (congrArg (closed s) (kickConsole_busy s.cfg ?_))
  rw [offerAnswer_eq]
  exact ht

/-- An idle transmitter with no ANSWER before it collects and sends at once. -/
theorem collectEvents_idle {s : State} (h : Serves s .collectEvents) (src : Word) (tag : Byte)
    (ht : s.run.console.tx = none) {q : List OutEntry} {drops : Nat}
    (ho : (s.run.console.offerAnswer (collectAnswer src tag)).1 =
      { s.run.console with queue := q ++ [.answer (collectAnswer src tag)], drops })
    (hq : ∀ b, OutEntry.answer b ∉ q) : exec (.collectEvents src tag []) s = closed s
      (((s.run.setConsole { s.run.console with queue := q, drops }).setEvents
        { s.run.events with records := s.run.events.records.drop 8, lost := 0 }).beginTx
        { dst := src, src := 0, tag, kind := 0x81
          payload := b1 0 ++ w2 0 ++ b1 (s.run.events.records.length - 8) ++ b2 0
            ++ (b1 (min 8 s.run.events.records.length) ++ b2 s.run.events.lost
            ++ (s.run.events.records.take 8).flatMap EventRec.bytes) } false) := by
  refine (collectEvents_offers h src tag).trans (congrArg (closed s) ?_)
  rw [ho, kickConsole_idle, startTx_answer s.cfg (pre := q) (post := []) rfl hq,
    beginAnswer_collect _ rfl, List.append_nil]
  · rfl
  · exact ht

/-- Settles O16: the snapshot with or without clearing, and the collection by transmitter and queue. -/
theorem statusAndEventsAreReadOut : Obligations.StatusAndEventsAreReadOut := by
  refine ⟨fun s src tag h => ⟨readStatus_keeps h src tag, readStatus_clears h src tag,
    fun b rest h0 h1 hl => ?_⟩, fun s src tag h => ⟨fun ht hn hl => ?_, fun hl pre post old hq hp =>
    ⟨fun ht => ?_, fun ht hn => ?_⟩, fun ht hl => ?_, fun ht hl hq => ?_⟩⟩
  · have hl' : (b :: rest).length ≤ 239 := by rw [List.length_cons]; omega
    have hb : 1 < b.toNat := by
      have h0' : b.toNat ≠ 0 := fun e => h0 (BitVec.eq_of_toNat_eq e)
      have h1' : b.toNat ≠ 1 := fun e => h1 (BitVec.eq_of_toNat_eq e)
      omega
    exact readStatus_refused src tag hl' h (form_refused ((refuses_bool1 hb rest).fld 1))
  · exact collectEvents_idle h src tag ht (by rw [offerAnswer_room _ hl]) hn
  · refine (collectEvents_busy h src tag ht).trans ?_
    rw [offerAnswer_full _ hl hq hp]
    rfl
  · refine collectEvents_idle h src tag ht (by rw [offerAnswer_full _ hl hq hp]) fun b hb => hn b ?_
    rw [hq]
    rcases List.mem_append.mp hb with hb | hb
    · exact List.mem_append_left _ hb
    · exact List.mem_append_right _ (.tail _ hb)
  · refine (collectEvents_busy h src tag ht).trans ?_
    rw [offerAnswer_room _ hl]
    rfl
  · refine (collectEvents_busy h src tag ht).trans ?_
    rw [offerAnswer_dropped _ hl hq]

end Sys2Proof.Machine
end

