-- ==== Sys2Proof/Proofs/Images.lean ====
section
/-! PROOFS. SAVE CONFIG (R11, R181): the image, its length and its CRC-16, and what LOADING makes of the bytes
of an image (R182). -/

namespace Sys2Proof.Machine

/-- SAVE CONFIG enters STORING and is answered OK. -/
theorem saveConfig_starts {s : State} (h : Serves s .saveConfig) (src : Word) (tag : Byte) :
    exec (.saveConfig src tag []) s = answered s (Run.startSave s.cfg s.run)
      { src, dst := 0, tag } (.ok, 0) [] :=
  managed_done h src tag 0x06 (k := fun s => s.doSave (manageReq src tag) []) (by decide) rfl

/-! ### The image -/

/-- The zero bytes behind an image's end mark. -/
def imageFill (c : Tables) : Nat :=
  Config.pageBytes * pagesFor (headerBytes + (imageBody c).length) - headerBytes - (imageBody c).length

theorem image_eq (c : Tables) : image c =
    b2 (pagesFor (headerBytes + (imageBody c).length))
      ++ w2 (crc16 (imageBody c ++ List.replicate (imageFill c) 0))
      ++ (imageBody c ++ List.replicate (imageFill c) 0) := rfl

theorem imageBody_ne_nil (c : Tables) : imageBody c ≠ [] := by
  unfold imageBody
  exact List.append_ne_nil_of_right_ne_nil _ (List.cons_ne_nil _ _)

/-- `pagesFor n` is the least number of pages that hold `n` bytes. -/
theorem pagesFor_spec (n : Nat) : n ≤ 128 * pagesFor n ∧ 128 * pagesFor n < n + 128 := by
  unfold pagesFor Config.pageBytes
  omega

theorem imageFill_lt (c : Tables) : imageFill c < 128 := by
  obtain ⟨h1, h2⟩ := pagesFor_spec (headerBytes + (imageBody c).length)
  unfold imageFill Config.pageBytes headerBytes at *
  omega

/-- An image takes whole pages. -/
theorem image_length (c : Tables) :
    (image c).length = 128 * pagesFor (headerBytes + (imageBody c).length) := by
  obtain ⟨h1, h2⟩ := pagesFor_spec (headerBytes + (imageBody c).length)
  rw [image_eq]
  simp only [List.length_append, b2_length, w2_length, List.length_replicate, imageFill]
  unfold Config.pageBytes headerBytes at *
  omega

theorem pagesFor_pos {n : Nat} (h : 0 < n) : 1 ≤ pagesFor n := by
  have := (pagesFor_spec n).1
  omega

/-! ### The finding of LOADING -/

theorem judgeImageBytes_unreadable {torn : Bool} {a b h l : Byte} {rest : List Byte}
    (hb : torn = true ∨ crc16 rest ≠ h ++ l) :
    judgeImageBytes torn (a :: b :: h :: l :: rest) = .unreadable := by
  refine if_pos ?_
  rcases hb with hb | hb
  · rw [hb, Bool.true_or]
  · have : headerGood (a :: b :: h :: l :: rest) = false := beq_eq_false_iff_ne.mpr hb
    rw [this, Bool.not_false, Bool.or_true]

theorem judgeImageBytes_readable {torn : Bool} {a b h l : Byte} {rest : List Byte}
    (ht : torn = false) (hc : crc16 rest = h ++ l) :
    judgeImageBytes torn (a :: b :: h :: l :: rest) =
      match takeRecords (a :: b :: h :: l :: rest).length Tables.reset rest with
      | none => .refused
      | some c => if (validate c).isNone then .good c else .refused := by
  have hg : headerGood (a :: b :: h :: l :: rest) = true := beq_iff_eq.mpr hc
  unfold judgeImageBytes
  rw [ht, hg]
  rfl

/-- Settles O17: the image by its lengths, the finding by the header, the records and the validation. -/
theorem imagesAreFormedAndJudged : Obligations.ImagesAreFormedAndJudged := by
  refine ⟨fun s src tag h => saveConfig_starts h src tag, fun c => ⟨imageBody_ne_nil c,
    pagesFor (headerBytes + (imageBody c).length), imageFill c, image_length c,
    pagesFor_pos (Nat.add_pos_left (by decide) _), imageFill_lt c, image_eq c, rfl⟩,
    fun torn a b h l rest => ⟨judgeImageBytes_unreadable, fun ht hc => ⟨fun hn => ?_, fun c hs =>
      ⟨fun hv => ?_, fun hv => ?_⟩⟩⟩⟩
  · rw [judgeImageBytes_readable ht hc, hn]
  · rw [judgeImageBytes_readable ht hc, hs]
    exact if_pos (Option.isNone_iff_eq_none.mpr hv)
  · rw [judgeImageBytes_readable ht hc, hs]
    exact if_neg fun hn => hv (Option.isNone_iff_eq_none.mp hn)

end Sys2Proof.Machine
end

