-- ==== Sys2Proof/Proofs/Outputs.lean ====
section
/-! PROOFS. RESTART (R12), LAMP TEST (R14, R171), SET OUTPUT (R14, R165) and READ LINES (R166). -/

namespace Sys2Proof.Machine

/-! ### RESTART -/

/-- The ANSWER of an accepted RESTART, whose end of transmission resets the part. -/
def restartAnswer (src : Word) (tag : Byte) : Answer :=
  { req := { src, dst := 0, tag }, code := .ok, detail := 0, data := .fixed [], restart := true }

theorem movingAxis_lowest {r : Run} {a : Fin 6} (h : r.axes[a].state.inMotion = true)
    (hl : ∀ b < a, ¬r.axes[b].state.inMotion = true) : movingAxis r = some a :=
  find_lowest (p := fun a => r.axes[a].state.inMotion) h fun b hb =>
    not_lt.mp fun hlt => hl b hlt hb

theorem movingAxis_none {r : Run} (h : ∀ a : Fin 6, ¬r.axes[a].state.inMotion = true) :
    movingAxis r = none := List.find?_eq_none.mpr fun a _ => h a

theorem restart_moving {s : State} (h : Serves s .restart) (src : Word) (tag : Byte) {a : Fin 6}
    (hg : s.run.gw.inForce = true) (ha : movingAxis s.run = some a) :
    exec (.restart src tag []) s =
      answered s s.run { src, dst := 0, tag } (.busy, det (a.val + 1)) [] := by
  refine managed_answers h src tag 0x08 (k := fun s => s.doRestart (manageReq src tag) [])
    (Nat.zero_le _) ?_
  unfold State.doRestart State.formed
  simp only [if_pos hg, ha]
  rfl

theorem restart_accepted {s : State} (h : Serves s .restart) (src : Word) (tag : Byte)
    (hm : s.run.gw.inForce = true → ∀ a : Fin 6, ¬s.run.axes[a].state.inMotion = true) :
    exec (.restart src tag []) s = .next (s.acceptRestart (manageReq src tag)).settle := by
  have hn : (if s.run.gw.inForce = true then movingAxis s.run else none) = none := by
    split
    next hg => exact movingAxis_none (hm hg)
    next => rfl
  refine (managed_serves h src tag 0x08 (fun s => s.doRestart (manageReq src tag) [])
    (Nat.zero_le _)).trans ?_
  unfold State.doRestart State.formed
  simp only [hn]
  rfl

/-- The console with restart pending, as an accepted RESTART leaves it. -/
def restarting (k : Console) : Console := { k with restartPending := true }

/-- The ANSWER finds a place, and the transmitter looks at the queue. -/
theorem acceptRestart_queued {s : State} (src : Word) (tag : Byte) {k : Console}
    (ho : (restarting s.run.console).offerAnswer (restartAnswer src tag) = (k, false)) :
    s.acceptRestart (manageReq src tag) =
      s.setRun (Run.kickConsole s.cfg (s.run.setConsole k)) := by
  change (restarting s.run.console).offerAnswer
    { req := manageReq src tag, code := .ok, detail := 0, data := .fixed [], restart := true }
      = (k, false) at ho
  unfold restarting at ho
  unfold State.acceptRestart
  simp only [ho, Bool.false_eq_true, if_false]

theorem acceptRestart_dropped {s : State} (src : Word) (tag : Byte) {k : Console}
    (ho : (restarting s.run.console).offerAnswer (restartAnswer src tag) = (k, true)) :
    s.acceptRestart (manageReq src tag) = s.resetBy .restart (rawLevels s.run) := by
  change (restarting s.run.console).offerAnswer
    { req := manageReq src tag, code := .ok, detail := 0, data := .fixed [], restart := true }
      = (k, true) at ho
  unfold restarting at ho
  unfold State.acceptRestart
  simp only [ho, if_true]

/-- With the queue free of ANSWERs, an idle transmitter begins the ANSWER at once. -/
theorem kickConsole_restart (c : Tables) {r : Run} (src : Word) (tag : Byte) {k : Console}
    (ht : k.tx = none) (hq : ∀ b, OutEntry.answer b ∉ k.queue) :
    Run.kickConsole c (r.setConsole { k with queue := k.queue ++ [.answer (restartAnswer src tag)] }) =
      (r.setConsole k).beginTx
        { dst := src, src := 0, tag, kind := 0x81
          payload := b1 0 ++ w2 0 ++ b1 r.events.records.length ++ b2 r.events.lost } true := by
  rw [kickConsole_idle c ht, startTx_answer c (pre := k.queue) (post := []) rfl hq,
    beginAnswer_fixed _ (data := []) rfl, List.append_nil]
  unfold answerPayload
  rw [List.append_nil]
  rfl

/-! ### Outputs and lines -/

theorem formSetOutput_ok (o : Fin 4) (high : Bool) :
    formSetOutput.run' 1 (b1 o.val ++ bBool high) = .ok (o, high) := by
  have ho := (reads_fin1 (n := 4) (by decide) o).fld 1 (bBool high)
  have hh := (reads_bool1 high).fld 2 []
  rw [List.append_nil] at hh
  exact form_ok ((bind_ok ho).trans (bind_ok hh))

theorem formSetOutput_noOutput {b : Byte} (l : Byte) (h : 4 ≤ b.toNat) :
    formSetOutput.run' 1 [b, l] = .error 1 := form_refused ((refuses_fin1 h [l]).fld.bind 1)

theorem formSetOutput_noLevel (o : Fin 4) {l : Byte} (h : 2 ≤ l.toNat) :
    formSetOutput.run' 1 (b1 o.val ++ [l]) = .error 2 := by
  have ho := (reads_fin1 (n := 4) (by decide) o).fld 1 [l]
  exact form_refused ((bind_ok ho).trans ((refuses_bool1 h []).fld.bind 2))

theorem outputBody_length (o : Fin 4) (high : Bool) : (b1 o.val ++ bBool high).length ≤ 239 := by
  rw [bBool_eq]
  exact Nat.le_add_left 2 237

section
variable {s : State} {dst : Word} (src : Word) (tag : Byte)

theorem lampTest_served (h : Serves s .lampTest) : exec (.lampTest src tag []) s =
    answered s { s.run with chain := { s.run.chain with lampTest := some (sec 3) } }
      { src, dst := 0, tag } (.ok, 0) [] :=
  managed_done h src tag 0x0B (k := fun s => s.doLampTest (manageReq src tag) []) (by decide) rfl

theorem setOutput_served (h : Serves s .setOutput) (o : Fin 4) (high : Bool) :
    exec (.setOutput src tag (b1 o.val ++ bBool high)) s =
      answered s { s.run with outputs := s.run.outputs.set o { high, setBy := .console } }
        { src, dst := 0, tag } (.ok, 0) [] :=
  managed_done h src tag 0x0C
    (k := fun s => s.doSetOutput (manageReq src tag) (b1 o.val ++ bBool high))
    (outputBody_length o high) (formed_ok (formSetOutput_ok o high) s _ _)

/-- What the LINES function answers to SET OUTPUT. -/
theorem linesSetOutput_replied (h : Reaches s dst .lines) {body : List Byte} (hl : body.length ≤ 239)
    {o : Reply} (ho : withForm formSetOutput body s.run
      (fun o => plain (s.run.setOutput o.1 o.2 .console, .ok, 0)) = o) :
    exec (.linesSetOutput src dst tag body) s =
      answered s o.1 { src, dst, tag } o.2.1 o.2.2 := by
  subst ho
  exact requested_reaches h src tag 0x02 hl

/-- The LINES function's SET OUTPUT drives the output the same way. -/
theorem linesSetOutput_reached (h : Reaches s dst .lines) (o : Fin 4) (high : Bool) :
    exec (.linesSetOutput src dst tag (b1 o.val ++ bBool high)) s =
      answered s { s.run with outputs := s.run.outputs.set o { high, setBy := .console } }
        { src, dst, tag } (.ok, 0) [] :=
  linesSetOutput_replied src tag h (outputBody_length o high)
    (o := plain (s.run.setOutput o high .console, .ok, 0))
    (by unfold withForm; rw [formSetOutput_ok])

theorem linesSetOutput_refused (h : Reaches s dst .lines) {body : List Byte} {n : Nat}
    (hl : body.length ≤ 239) (hp : formSetOutput.run' 1 body = .error n) :
    exec (.linesSetOutput src dst tag body) s =
      answered s s.run { src, dst, tag } (.badRequest, det n) [] :=
  linesSetOutput_replied src tag h hl (o := badForm s.run n) (by unfold withForm; rw [hp])

/-- A word with one bit for each line. -/
def lineWord (r : Run) (p : LineRt → Bool) : Word :=
  (List.finRange 14).foldl (fun w l => if p r.lines[l] then setUnion w (setOf l.val) else w) 0

theorem lineWord_foldl (r : Run) (p : LineRt → Bool) (l : List (Fin 14)) (w : Word) (i : Fin 14) :
    (l.foldl (fun w l => if p r.lines[l] then setUnion w (setOf l.val) else w) w).getLsbD i.val
      = (w.getLsbD i.val || (decide (i ∈ l) && p r.lines[i])) := by
  induction l generalizing w with
  | nil => simp
  | cons j l ih =>
    rw [List.foldl_cons, ih]
    by_cases hj : i = j
    · subst hj
      have hi : i.val < 16 := Nat.lt_trans i.isLt (by decide)
      cases hp : p r.lines[i] <;> simp [setUnion, setOf, hi]
    · have hv : ¬j.val = i.val := fun e => hj (Fin.ext e.symm)
      split <;> simp [setUnion, setOf, hj, hv]

theorem lineWord_get (r : Run) (p : LineRt → Bool) (l : Fin 14) :
    (lineWord r p).getLsbD l.val = p r.lines[l] := by
  have := lineWord_foldl r p (List.finRange 14) 0 l
  simpa [lineWord] using this

theorem readLines_reached (h : Reaches s dst .lines) : exec (.readLines src dst tag []) s =
    answered s s.run { src, dst, tag } (.ok, 0)
      (w2 (lineWord s.run (·.raw)) ++ w2 (lineWord s.run (·.accepted)) ++ bBool (serviceMode s.run)
        ++ s.run.outputs.toList.flatMap fun o => bBool o.high ++ b1 o.setBy.code) :=
  requested_reaches h src tag 0x01 (by decide)
end

/-- Settles O20: RESTART by axes in motion, queue and transmitter; the lamp test, outputs and lines. -/
theorem restartLampTestAndOutputs : Obligations.RestartLampTestAndOutputs := by
  refine ⟨fun s src tag h => ⟨fun a hg ha hl => ?_, fun hm => ⟨fun ht hl => ?_, fun ht hn hl => ?_,
    fun hl pre post old hq hp => ⟨fun ht => ?_, fun ht hn => ?_⟩, fun hl hq => ?_⟩⟩,
    fun s src dst tag o high => ⟨lampTest_served src tag, fun h => ⟨setOutput_served src tag h o high,
      fun b l hb => ?_, fun l hl => ?_⟩, fun h => ⟨linesSetOutput_reached src tag h o high,
      fun b l hb => ?_, fun l hl => ?_,
      ⟨_, _, fun l => ⟨lineWord_get s.run (·.raw) l, lineWord_get s.run (·.accepted) l⟩,
        readLines_reached src tag h⟩⟩⟩⟩
  · exact restart_moving h src tag hg (movingAxis_lowest ha hl)
  · rw [restart_accepted h src tag hm, acceptRestart_queued src tag (offerAnswer_room _ hl),
      kickConsole_busy]
    · rfl
    · exact ht
  · rw [restart_accepted h src tag hm, acceptRestart_queued src tag (offerAnswer_room _ hl)]
    exact congrArg (closed s)
      (kickConsole_restart s.cfg src tag (k := restarting s.run.console) ht hn)
  · rw [restart_accepted h src tag hm,
      acceptRestart_queued src tag (offerAnswer_full _ hl hq hp), kickConsole_busy]
    · rfl
    · exact ht
  · rw [restart_accepted h src tag hm, acceptRestart_queued src tag (offerAnswer_full _ hl hq hp)]
    refine congrArg (closed s) (kickConsole_restart s.cfg src tag
      (k := { restarting s.run.console with
        queue := pre ++ post, drops := min 65535 (s.run.console.drops + 1) }) ht fun b hb => hn b ?_)
    rw [hq]
    rcases List.mem_append.mp hb with hb | hb
    · exact List.mem_append_left _ hb
    · exact List.mem_append_right _ (.tail _ hb)
  · rw [restart_accepted h src tag hm, acceptRestart_dropped src tag (offerAnswer_dropped _ hl hq)]
  · exact setOutput_refused src tag (Nat.le_add_left 2 237) h (formSetOutput_noOutput l hb)
  · exact setOutput_refused src tag (Nat.le_add_left 2 237) h (formSetOutput_noLevel o hl)
  · exact linesSetOutput_refused src tag h (Nat.le_add_left 2 237) (formSetOutput_noOutput l hb)
  · exact linesSetOutput_refused src tag h (Nat.le_add_left 2 237) (formSetOutput_noLevel o hl)

end Sys2Proof.Machine
end

