-- ==== Sys2Proof/Proofs/Reports.lean ====
section
/-! PROOFS. The report relay (R34 to R36): a good reply judged by its node's report entry, the interval's
expiry, and a REPORT offered to the transmitter. -/

namespace Sys2Proof.Machine

variable {c : Tables} {r : Run} {n : NodeId} {payload : List Byte} {time : TimeBase} {st : Word}

theorem Run.modReport_modReport (i : Fin 124) (f g : ReportRt → ReportRt) :
    (r.modReport i f).modReport i g = r.modReport i (g ∘ f) := by
  simp [Run.modReport, Vector.set_set]

theorem Run.modReport_congr (i : Fin 124) {f g : ReportRt → ReportRt}
    (h : f r.reports[i] = g r.reports[i]) : r.modReport i f = r.modReport i g := by
  unfold Run.modReport; rw [h]

/-! ### A good reply -/

theorem judgeReport_unrouted (h : nodeStation c n = none) :
    Run.judgeReport c r n payload time = r := by
  simp only [Run.judgeReport, h]

theorem judgeReport_none (h : nodeStation c n = some st)
    (hm : c.reports[nodeIndex n].mode = .none) : Run.judgeReport c r n payload time = r := by
  simp only [Run.judgeReport, h, hm]

theorem judgeReport_same (h : nodeStation c n = some st)
    (hm : c.reports[nodeIndex n].mode = .change)
    (hl : r.reports[nodeIndex n].last = some payload) :
    Run.judgeReport c r n payload time =
      r.modReport (nodeIndex n) fun y => { y with pending := none } := by
  simp only [Run.judgeReport, h, hm, hl, if_true]

theorem judgeReport_changed (h : nodeStation c n = some st)
    (hm : c.reports[nodeIndex n].mode = .change)
    (hl : r.reports[nodeIndex n].last ≠ some payload) :
    Run.judgeReport c r n payload time = Run.qualified c r n st payload time := by
  simp only [Run.judgeReport, h, hm, if_neg hl]

theorem judgeReport_counts (h : nodeStation c n = some st)
    (hm : c.reports[nodeIndex n].mode = .every)
    (hc : r.reports[nodeIndex n].count + 1 ≠ c.reports[nodeIndex n].every) :
    Run.judgeReport c r n payload time = r.modReport (nodeIndex n) fun y =>
      { y with count := r.reports[nodeIndex n].count + 1 } := by
  simp only [Run.judgeReport, h, hm, if_neg hc]

theorem judgeReport_every (h : nodeStation c n = some st)
    (hm : c.reports[nodeIndex n].mode = .every)
    (hc : r.reports[nodeIndex n].count + 1 = c.reports[nodeIndex n].every) :
    Run.judgeReport c r n payload time =
      Run.qualified c (r.modReport (nodeIndex n) fun y => { y with count := 0 }) n st payload time := by
  simp only [Run.judgeReport, h, hm, if_pos hc]

theorem qualified_offers (h : r.reports[nodeIndex n].timer = none) :
    Run.qualified c r n st payload time = Run.offerReport c r n st payload time := by
  unfold Run.qualified
  rw [if_pos (by rw [h]; rfl)]

theorem qualified_holds_back (h : r.reports[nodeIndex n].timer.isSome = true) :
    Run.qualified c r n st payload time =
      r.modReport (nodeIndex n) fun y => { y with pending := some (payload, time) } := by
  unfold Run.qualified
  rw [if_neg (by rw [Option.isNone_iff_eq_none]; exact Option.isSome_iff_ne_none.mp h)]

/-- The entry of a node whose payload has been offered, with this count. -/
def offeredEntry (c : Tables) (n : NodeId) (payload : List Byte) (count : Nat) : ReportRt :=
  { last := some payload, count, pending := none
    timer := if 0 < c.reports[nodeIndex n].interval then some (ms c.reports[nodeIndex n].interval)
             else none }

/-- An offer leaves the entry's count alone, whatever else it held. -/
theorem offerReport_entry (f : ReportRt → ReportRt) {count : Nat}
    (h : (f r.reports[nodeIndex n]).count = count) :
    Run.offerReport c (r.modReport (nodeIndex n) f) n st payload time =
      Run.report c (r.modReport (nodeIndex n) fun _ => offeredEntry c n payload count)
        { node := n, dst := c.param.consoleStation, src := st, time, payload } := by
  subst h
  unfold Run.offerReport
  dsimp only
  rw [Run.modReport_modReport]
  exact congrArg (Run.report c · _) (Run.modReport_congr _ rfl)

theorem modReport_id (i : Fin 124) : r.modReport i id = r := by simp [Run.modReport]

theorem offerReport_kept_count :
    Run.offerReport c r n st payload time =
      Run.report c (r.modReport (nodeIndex n) fun _ =>
          offeredEntry c n payload r.reports[nodeIndex n].count)
        { node := n, dst := c.param.consoleStation, src := st, time, payload } := by
  have := offerReport_entry (c := c) (r := r) (n := n) (payload := payload) (time := time) (st := st)
    id rfl
  rwa [modReport_id] at this

/-! ### The interval's expiry -/

theorem reportIntervalExpiry_stopped {s : State} (h : s.run.reports[nodeIndex n].timer = none) :
    exec (.reportIntervalExpiry n) s = closed s s.run :=
  expiry_stopped (fun c r => Run.reportIntervalExpired c r n) h

theorem reportIntervalExpiry_runs {s : State} (h : s.run.reports[nodeIndex n].timer.isSome = true) :
    exec (.reportIntervalExpiry n) s = closed s (Run.reportIntervalExpired s.cfg s.run n) :=
  expiry_running (fun c r => Run.reportIntervalExpired c r n) h

theorem reportIntervalExpired_stops
    (h : r.reports[nodeIndex n].pending = none ∨ nodeStation c n = none) :
    Run.reportIntervalExpired c r n =
      r.modReport (nodeIndex n) fun y => { y with timer := none, pending := none } := by
  unfold Run.reportIntervalExpired
  rcases h with h | h
  · simp only [h]
  · simp only [h]
    cases r.reports[nodeIndex n].pending <;> rfl

theorem reportIntervalExpired_offers (h : r.reports[nodeIndex n].pending = some (payload, time))
    (hs : nodeStation c n = some st) :
    Run.reportIntervalExpired c r n = Run.report c (r.modReport (nodeIndex n) fun y =>
        { y with last := some payload, pending := none
                 timer := if 0 < c.reports[nodeIndex n].interval then
                   some (ms c.reports[nodeIndex n].interval) else none })
      { node := n, dst := c.param.consoleStation, src := st, time, payload } := by
  unfold Run.reportIntervalExpired
  simp only [h, hs]
  exact (offerReport_entry _ rfl).trans (congrArg (Run.report c · _) (Run.modReport_congr _ rfl))

/-! ### A REPORT offered -/

theorem offerReport_tx (k : Console) (p : Report) : (k.offerReport p).tx = k.tx := by
  unfold Console.offerReport
  split
  · rfl
  · split <;> rfl

theorem report_busy {p : Report} (h : r.console.tx.isSome = true) :
    Run.report c r p = r.setConsole (r.console.offerReport p) :=
  kickConsole_busy c (by rw [Run.setConsole_console, offerReport_tx]; exact h)

theorem report_idle {p : Report} (h : r.console.tx = none) :
    Run.report c r p = Run.startTx c (r.setConsole (r.console.offerReport p)) :=
  kickConsole_idle c (by rw [Run.setConsole_console, offerReport_tx]; exact h)

/-- Settles O24: the reply's judging by mode, the interval's expiry, and the REPORT at the transmitter. -/
theorem repliesAreReported : Obligations.RepliesAreReported := by
  refine ⟨fun c r n payload time => ⟨judgeReport_unrouted, fun st hs => ⟨judgeReport_none hs,
      judgeReport_same hs, fun hm hl => ?_, judgeReport_counts hs, fun hm hc => ?_⟩⟩,
    fun s n => ⟨reportIntervalExpiry_stopped, fun ht => ⟨fun h => ?_, fun payload time st hp hs => ?_⟩⟩,
    fun c r p => ⟨report_busy, fun ht => ⟨fun pre post b hq hn => ?_, fun hn =>
      ⟨fun hd => ?_, fun hd pre post x hq hp => ?_⟩⟩⟩⟩
  · dsimp only
    rw [judgeReport_changed hs hm hl]
    exact ⟨fun ht => (qualified_offers ht).trans offerReport_kept_count, qualified_holds_back⟩
  · dsimp only
    rw [judgeReport_every hs hm hc]
    have hself : (r.modReport (nodeIndex n) fun y => { y with count := 0 }).reports[nodeIndex n].timer
        = r.reports[nodeIndex n].timer := by rw [Run.modReport_self]
    refine ⟨fun ht => (qualified_offers (hself.trans ht)).trans (offerReport_entry _ rfl), fun ht => ?_⟩
    rw [qualified_holds_back (by rw [hself]; exact ht), Run.modReport_modReport]
    rfl
  · exact (reportIntervalExpiry_runs ht).trans (congrArg (closed s) (reportIntervalExpired_stops h))
  · exact (reportIntervalExpiry_runs ht).trans
      (congrArg (closed s) (reportIntervalExpired_offers hp hs))
  · have hgo := (report_idle ht).trans (startTx_answer c hq hn)
    exact ⟨fun held hb => hgo.trans (beginAnswer_fixed _ hb),
      fun hb => hgo.trans (beginAnswer_collect _ hb)⟩
  · exact (report_idle ht).trans (startTx_beacon c hn hd)
  · exact (report_idle ht).trans (startTx_report c hn hd hq hp)

end Sys2Proof.Machine
end

