-- ==== Sys2Proof/Proofs/Validation.lean ====
section
/-! PROOFS. The validation (R183): what each table's check says, and that the entry it names is the first
that fails, the lowest table id before the lowest index. -/

namespace Sys2Proof.Machine

variable {c : Tables}

/-! ### One table's check -/

theorem unsound_route {i : Nat} : Unsound c .route i ↔
    ∃ x, c.routes[i]? = some x ∧ routeSound c x = false := by
  simp only [Unsound, routeSound_false, exists_and_left]

/-- A term of a permit that fails. -/
def BadTerm (c : Tables) (u : Term) : Prop :=
  (∃ a s, u = .axis a s ∧ c.axes[a].configured = false) ∨
    (∃ d s, u = .door d s ∧ c.doors[d].configured = false) ∨
    (∃ m s, u = .monitor m s ∧ c.monitors[m].configured = false)

theorem termSound_false {u : Term} : termSound c (some u) = false ↔ BadTerm c u := by
  unfold BadTerm
  cases u <;> simp [termSound]

theorem termSound_false_option {u : Option Term} :
    termSound c u = false ↔ ∃ v, u = some v ∧ BadTerm c v := by
  cases u with
  | none => simp [termSound]
  | some v => rw [termSound_false]; simp

theorem permitSound_false {x : Option Permit} : permitSound c x = false ↔
    ∃ p u, x = some p ∧ (p.term1 = some u ∨ p.term2 = some u) ∧ BadTerm c u := by
  cases x with
  | none => simp [permitSound]
  | some p =>
    simp only [permitSound, Bool.and_eq_false_iff, termSound_false_option, Option.some.injEq]
    constructor
    · rintro (⟨v, hv, hb⟩ | ⟨v, hv, hb⟩)
      · exact ⟨p, v, rfl, .inl hv, hb⟩
      · exact ⟨p, v, rfl, .inr hv, hb⟩
    · rintro ⟨_, v, rfl, hv | hv, hb⟩
      · exact .inl ⟨v, hv, hb⟩
      · exact .inr ⟨v, hv, hb⟩

theorem unsound_permit {i : Nat} : Unsound c .permit i ↔
    ∃ k : Fin 64, k.val = i ∧ permitSound c c.permits[k] = false := by
  simp only [permitSound_false]
  constructor
  · rintro ⟨k, p, u, hk, hp, hu, hb⟩
    exact ⟨k, hk, p, u, hp, hu, hb⟩
  · rintro ⟨k, hk, p, u, hp, hu, hb⟩
    exact ⟨k, p, u, hk, hp, hu, hb⟩

theorem slotIs_false {n : NodeId} {k : NodeKind} : slotIs c n k = false ↔ nodeKind c n ≠ some k := by
  rw [← Bool.not_eq_true, slotIs_iff]

theorem axisSound_false {a : Fin 6} : axisSound c a = false ↔ c.axes[a].configured = true ∧
    (nodeKind c c.axes[a].drive ≠ some .drive ∨
      (∃ b : Fin 6, b < a ∧ c.axes[b].configured = true ∧ c.axes[b].drive = c.axes[a].drive) ∨
      (∃ n, c.axes[a].panel = some n ∧ nodeKind c n ≠ some .panel) ∨
      (∃ p, (c.axes[a].prereq1 = some p ∨ c.axes[a].prereq2 = some p) ∧
        c.axes[p.axis].configured = false)) := by
  simp only [axisSound, Bool.or_eq_false_iff, Bool.not_eq_false', Bool.and_eq_false_iff, slotIs_false,
    driveShared_iff, decide_eq_true_eq, panelSound_false, prereqSound_false, or_and_right, exists_or,
    or_assoc]

theorem unsound_axis {i : Nat} : Unsound c .axis i ↔
    ∃ a : Fin 6, a.val = i ∧ axisSound c a = false := by
  simp only [Unsound, axisSound_false]

theorem unsound_profile {i : Nat} : Unsound c .profile i ↔
    ∃ a : Fin 6, 8 * a.val = i ∧ profileSound c a = false := by
  simp only [Unsound, profileSound, Bool.or_eq_false_iff, Bool.not_eq_false', decide_eq_false_iff_not,
    not_le]

theorem unsound_door {i : Nat} : Unsound c .door i ↔
    ∃ d : Fin 32, d.val = i ∧ doorSound c d = false := by
  simp only [Unsound, doorSound, Bool.or_eq_false_iff, Bool.not_eq_false', Bool.and_eq_false_iff,
    slotIs_false, doorShared_iff, decide_eq_true_eq]

theorem areaSound_false {k : Fin 16} : areaSound c k = false ↔ ∃ n ∈ c.areas[k],
    nodeKind c n ≠ some .amp ∨ ∃ j : Fin 16, j < k ∧ n ∈ c.areas[j] := by
  simp only [areaSound, ampShared, Bool.and_eq_false_iff, List.all_eq_false, Bool.not_eq_true,
    slotIs_false, Bool.not_eq_false', List.any_eq_true, Bool.and_eq_true, decide_eq_true_eq,
    List.contains_eq_mem, List.mem_finRange, true_and]
  constructor
  · rintro (⟨n, hn, hk⟩ | ⟨j, hj, n, hnj, hn⟩)
    · exact ⟨n, hn, .inl hk⟩
    · exact ⟨n, hn, .inr ⟨j, hj, hnj⟩⟩
  · rintro ⟨n, hn, hk | ⟨j, hj, hnj⟩⟩
    · exact .inl ⟨n, hn, hk⟩
    · exact .inr ⟨j, hj, n, hnj, hn⟩

theorem unsound_area {i : Nat} : Unsound c .area i ↔
    ∃ k : Fin 16, k.val = i ∧ areaSound c k = false := by
  simp only [Unsound, areaSound_false]

theorem unsound_channel {i : Nat} : Unsound c .channel i ↔
    ∃ ch : Fin 32, ch.val = i ∧ channelSound c ch = false := by
  simp only [Unsound, channelSound, Bool.or_eq_false_iff, Bool.not_eq_false',
    Option.isSome_eq_false_iff, Option.isNone_iff_eq_none]

theorem unsound_monitor {i : Nat} : Unsound c .monitor i ↔
    ∃ m : Fin 16, m.val = i ∧ monitorSound c m = false := by
  simp only [Unsound, monitorSound, Bool.or_eq_false_iff, Bool.not_eq_false', Bool.and_eq_true,
    and_assoc]

theorem mstateSound_false (m : Fin 16) (k : Fin 8) :
    mstateSound c (mstateIndex m k) = false ↔ c.monitors[m].configured = true ∧
      (mstate c m k).inUse = true ∧ c.channels[(mstate c m k).channel].configured = false := by
  have hm : mstateMonitor (mstateIndex m k) = m := Fin.ext (by
    show (8 * m.val + k.val) / 8 = m.val
    omega)
  simp only [mstateSound, hm, mstate, Bool.or_eq_false_iff, Bool.not_eq_false', Bool.and_eq_true,
    and_assoc]

theorem unsound_mstate {i : Nat} : Unsound c .mstate i ↔
    ∃ j : Fin 128, j.val = i ∧ mstateSound c j = false := by
  constructor
  · rintro ⟨m, k, hi, h⟩
    exact ⟨mstateIndex m k, hi, (mstateSound_false m k).mpr h⟩
  · rintro ⟨j, hi, h⟩
    have hj : j = mstateIndex (mstateMonitor j) ⟨j.val % 8, Nat.mod_lt _ (by decide)⟩ :=
      Fin.ext (Nat.div_add_mod j.val 8).symm
    rw [hj] at h
    exact ⟨_, _, (Nat.div_add_mod j.val 8).trans hi, (mstateSound_false _ _).mp h⟩

/-! ### The first entry that fails -/

/-- The order of R183: the table's id, then the index. -/
def Before (t : Table) (i : Nat) (t' : Table) (j : Nat) : Prop := t.id < t'.id ∨ t'.id = t.id ∧ i < j

/-- `o` is the first failing entry of these tables. -/
structure FirstBad (c : Tables) (ts : List Table) (o : Option (Table × Nat)) : Prop where
  sound : o = none → ∀ t ∈ ts, ∀ i, ¬Unsound c t i
  first : ∀ t i, o = some (t, i) → t ∈ ts ∧ Unsound c t i ∧
    ∀ t' ∈ ts, ∀ j, Before t' j t i → ¬Unsound c t' j

/-- The tables in the order of their ids, one list behind the other. -/
theorem FirstBad.orElse {ts ts' : List Table} {o o' : Option (Table × Nat)} (h : FirstBad c ts o)
    (h' : FirstBad c ts' o') (hlt : ∀ t ∈ ts, ∀ t' ∈ ts', t.id < t'.id) :
    FirstBad c (ts ++ ts') (o <|> o') := by
  cases o with
  | none =>
    have hs := h.sound rfl
    refine ⟨fun ho t ht => ?_, fun t i ho => ?_⟩
    · rcases List.mem_append.mp ht with ht | ht
      · exact hs t ht
      · exact h'.sound ho t ht
    · obtain ⟨ht, hu, hb⟩ := h'.first t i ho
      refine ⟨List.mem_append_right _ ht, hu, fun t' ht' j hj => ?_⟩
      rcases List.mem_append.mp ht' with ht' | ht'
      · exact hs t' ht' j
      · exact hb t' ht' j hj
  | some x =>
    refine ⟨fun ho => (nomatch ho), fun t i ho => ?_⟩
    obtain ⟨ht, hu, hb⟩ := h.first t i ho
    refine ⟨List.mem_append_left _ ht, hu, fun t' ht' j hj => ?_⟩
    rcases List.mem_append.mp ht' with ht' | ht'
    · exact hb t' ht' j hj
    · have := hlt t ht t' ht'
      rcases hj with hj | ⟨hj, -⟩ <;> omega

theorem before_same {t : Table} {i j : Nat} : Before t j t i ↔ j < i := by
  simp [Before]

theorem firstBad_firstUnsound {n : Nat} {t : Table} {index : Fin n → Nat} {p : Fin n → Bool}
    (hmono : ∀ a b : Fin n, index a < index b → a < b)
    (h : ∀ {i : Nat}, Unsound c t i ↔ ∃ k, index k = i ∧ p k = false) :
    FirstBad c [t] (firstUnsound t index p) := by
  unfold firstUnsound
  cases hf : (List.finRange n).find? fun i => !p i with
  | none =>
    refine ⟨fun _ t' ht i hu => ?_, fun t' i ho => (nomatch ho)⟩
    obtain rfl := List.mem_singleton.mp ht
    obtain ⟨k, -, hk⟩ := h.mp hu
    exact List.find?_eq_none.mp hf k (List.mem_finRange k) (by rw [hk]; rfl)
  | some k =>
    refine ⟨fun ho => (nomatch ho), fun t' i ho => ?_⟩
    obtain ⟨rfl, rfl⟩ : t = t' ∧ index k = i := by simpa using ho
    obtain ⟨hk, m, hm, hmk, hmin⟩ := List.find?_eq_some_iff_getElem.mp hf
    rw [Bool.not_eq_true'] at hk
    rw [List.getElem_finRange] at hmk
    refine ⟨List.mem_singleton_self _, h.mpr ⟨k, rfl, hk⟩, fun t' ht j hj hu => ?_⟩
    obtain rfl := List.mem_singleton.mp ht
    obtain ⟨b, rfl, hb⟩ := h.mp hu
    have hbk : b.val < m := by
      have := hmono b k (before_same.mp hj)
      rw [← hmk] at this
      exact this
    have := hmin b.val hbk
    rw [List.getElem_finRange] at this
    change (!!p b) = true at this
    rw [hb] at this
    exact Bool.noConfusion this

theorem firstBad_routes : FirstBad c [.route]
    ((c.routes.findIdx? fun x => !routeSound c x).map fun i => (Table.route, i)) := by
  cases hf : c.routes.findIdx? fun x => !routeSound c x with
  | none =>
    refine ⟨fun _ t ht i hu => ?_, fun t i ho => (nomatch ho)⟩
    obtain rfl := List.mem_singleton.mp ht
    obtain ⟨x, hx, hs⟩ := unsound_route.mp hu
    have := List.findIdx?_eq_none_iff.mp hf x (List.mem_of_getElem? hx)
    rw [hs] at this
    exact Bool.noConfusion this
  | some k =>
    refine ⟨fun ho => (nomatch ho), fun t i ho => ?_⟩
    obtain ⟨rfl, rfl⟩ : Table.route = t ∧ k = i := by simpa using ho
    obtain ⟨hk, hp, hmin⟩ := List.findIdx?_eq_some_iff_getElem.mp hf
    refine ⟨List.mem_singleton_self _,
      unsound_route.mpr ⟨_, List.getElem?_eq_getElem hk, by simpa using hp⟩, fun t' ht j hj hu => ?_⟩
    obtain rfl := List.mem_singleton.mp ht
    obtain ⟨x, hx, hs⟩ := unsound_route.mp hu
    have hlt := before_same.mp hj
    obtain ⟨hjl, rfl⟩ := List.getElem?_eq_some_iff.mp hx
    have := hmin j hlt
    rw [hs] at this
    exact this rfl

/-- Every table with a check, in the order of the ids. -/
theorem firstBad_validate : FirstBad c
    [.route, .permit, .axis, .profile, .door, .area, .channel, .monitor, .mstate] (validate c) := by
  have hval : ∀ {n : Nat} (a b : Fin n), a.val < b.val → a < b := fun _ _ h => h
  have h8 : FirstBad c [.mstate] _ := firstBad_firstUnsound hval unsound_mstate
  have h7 := (firstBad_firstUnsound hval unsound_monitor).orElse h8 (by decide)
  have h6 := (firstBad_firstUnsound hval unsound_channel).orElse h7 (by decide)
  have h5 := (firstBad_firstUnsound hval unsound_area).orElse h6 (by decide)
  have h4 := (firstBad_firstUnsound hval unsound_door).orElse h5 (by decide)
  have h3 := (firstBad_firstUnsound (index := fun a : Fin 6 => 8 * a.val)
    (fun a b hab => Fin.lt_def.mpr (by omega)) unsound_profile).orElse h4 (by decide)
  have h2 := (firstBad_firstUnsound hval unsound_axis).orElse h3 (by decide)
  have h1 := (firstBad_firstUnsound hval unsound_permit).orElse h2 (by decide)
  exact firstBad_routes.orElse h1 (by decide)

theorem unsound_checked {t : Table} {i : Nat} (h : Unsound c t i) :
    t ∈ [Table.route, .permit, .axis, .profile, .door, .area, .channel, .monitor, .mstate] := by
  cases t with
  | report | trunk | node | zone | lamp | line | param => exact h.elim
  | route | permit | axis | profile | door | area | channel | monitor | mstate => decide

/-- The tables pass exactly when no entry fails. -/
theorem validate_none_iff : validate c = none ↔ ∀ t i, ¬Unsound c t i := by
  constructor
  · exact fun h t i hu => firstBad_validate.sound h t (unsound_checked hu) i hu
  · intro h
    cases hv : validate c with
    | none => rfl
    | some x => exact absurd (firstBad_validate.first x.1 x.2 hv).2.1 (h _ _)

theorem table_id_injective : ∀ t t' : Table, t.id = t'.id → t = t' := by
  intro t t' h
  have := tableOfId_id t
  rw [h, tableOfId_id t'] at this
  exact (Option.some.inj this).symm

/-- The entry named is the first that fails. -/
theorem validate_some_iff {t : Table} {i : Nat} : validate c = some (t, i) ↔ Unsound c t i ∧
    ∀ t' j, t'.id < t.id ∨ t'.id = t.id ∧ j < i → ¬Unsound c t' j := by
  constructor
  · intro h
    obtain ⟨-, hu, hb⟩ := firstBad_validate.first t i h
    refine ⟨hu, fun t' j hj hu' => hb t' (unsound_checked hu') j ?_ hu'⟩
    rcases hj with hj | ⟨hj, hlt⟩
    · exact .inl hj
    · exact .inr ⟨hj.symm, hlt⟩
  · rintro ⟨hu, hb⟩
    cases hv : validate c with
    | none => exact absurd hu (validate_none_iff.mp hv t i)
    | some x =>
      obtain ⟨-, hx, hxb⟩ := firstBad_validate.first x.1 x.2 hv
      have h1 : ¬(x.1.id < t.id ∨ x.1.id = t.id ∧ x.2 < i) := fun hj => hb x.1 x.2 hj hx
      have h2 : ¬(t.id < x.1.id ∨ x.1.id = t.id ∧ i < x.2) :=
        fun hj => hxb t (unsound_checked hu) i hj hu
      have hid : x.1 = t := table_id_injective _ _ (by omega)
      have hix : x.2 = i := by omega
      exact congrArg some (Prod.ext hid hix)

end Sys2Proof.Machine
end

