-- ==== Sys2Proof/Proofs/ValidTables.lean ====
section
/-! PROOFS. What tables that pass the validation say, clause by clause (R183). -/

namespace Sys2Proof.Machine

variable {c : Tables}

theorem sound_routes : (∀ i, ¬Unsound c .route i) ↔
    ∀ x ∈ c.routes, ∀ n, x.target = .node n → (nodeCfg c n).isSome = true := by
  simp only [Unsound, not_exists, not_and, ← Option.ne_none_iff_isSome, ne_eq, List.mem_iff_getElem?]
  exact ⟨fun h x ⟨i, hi⟩ n hn => h i x n hi hn, fun h i x n hi hn => h x ⟨i, hi⟩ n hn⟩

theorem not_badTerm {u : Term} : ¬BadTerm c u ↔
    (∀ a k, u = .axis a k → c.axes[a].configured = true) ∧
      (∀ d k, u = .door d k → c.doors[d].configured = true) ∧
      (∀ m k, u = .monitor m k → c.monitors[m].configured = true) := by
  rw [← termSound_false, Bool.not_eq_false, termSound_iff]

theorem sound_permits : (∀ i, ¬Unsound c .permit i) ↔
    ∀ (i : Fin 64) (p : Permit), c.permits[i] = some p → ∀ u, u = p.term1 ∨ u = p.term2 →
      (∀ a k, u = some (.axis a k) → c.axes[a].configured = true) ∧
      (∀ d k, u = some (.door d k) → c.doors[d].configured = true) ∧
      (∀ m k, u = some (.monitor m k) → c.monitors[m].configured = true) := by
  constructor
  · intro h i p hp u hu
    cases u with
    | none => exact ⟨fun _ _ e => (nomatch e), fun _ _ e => (nomatch e), fun _ _ e => (nomatch e)⟩
    | some v =>
      have hv : ¬BadTerm c v := fun hb =>
        h i.val ⟨i, p, v, rfl, hp, hu.imp Eq.symm Eq.symm, hb⟩
      simpa only [Option.some.injEq] using not_badTerm.mp hv
  · rintro h i ⟨k, p, v, -, hp, hv, hb⟩
    refine not_badTerm.mpr ?_ hb
    simpa only [Option.some.injEq] using h k p hp (some v) (hv.imp Eq.symm Eq.symm)

theorem sound_axes : (∀ i, ¬Unsound c .axis i) ∧ (∀ i, ¬Unsound c .profile i) ↔
    ∀ a : Fin 6, c.axes[a].configured = true →
      nodeKind c c.axes[a].drive = some .drive ∧
      (∀ b : Fin 6, b < a → c.axes[b].configured = true → c.axes[b].drive ≠ c.axes[a].drive) ∧
      (∀ n, c.axes[a].panel = some n → nodeKind c n = some .panel) ∧
      (∀ p : Prereq, c.axes[a].prereq1 = some p ∨ c.axes[a].prereq2 = some p →
        c.axes[p.axis].configured = true) ∧
      2 ≤ (breakpoints c a).length := by
  constructor
  · rintro ⟨ha, hp⟩ a hc
    have hno := fun hu => ha a.val ⟨a, rfl, hc, hu⟩
    refine ⟨Classical.not_not.mp fun hd => hno (.inl hd),
      fun b hb hbc he => hno (.inr (.inl ⟨b, hb, hbc, he⟩)),
      fun n hn => Classical.not_not.mp fun hk => hno (.inr (.inr (.inl ⟨n, hn, hk⟩))),
      fun p hq => ?_, Nat.not_lt.mp fun hl => hp _ ⟨a, rfl, hc, hl⟩⟩
    exact Bool.not_eq_false _ ▸ fun hk => hno (.inr (.inr (.inr ⟨p, hq, hk⟩)))
  · intro h
    constructor
    · rintro i ⟨a, -, hc, hu⟩
      obtain ⟨hd, hs, hpan, hpre, -⟩ := h a hc
      rcases hu with hu | ⟨b, hb, hbc, he⟩ | ⟨n, hn, hk⟩ | ⟨p, hp, hk⟩
      · exact hu hd
      · exact hs b hb hbc he
      · exact hk (hpan n hn)
      · exact Bool.noConfusion (hk.symm.trans (hpre p hp))
    · rintro i ⟨a, -, hc, hu⟩
      obtain ⟨-, -, -, -, hl⟩ := h a hc
      omega

theorem sound_doors : (∀ i, ¬Unsound c .door i) ↔ ∀ d : Fin 32, c.doors[d].configured = true →
    nodeKind c c.doors[d].node = some .door ∧
      ∀ b : Fin 32, b < d → c.doors[b].configured = true → c.doors[b].node ≠ c.doors[d].node := by
  constructor
  · intro h d hc
    have hno := fun hu => h d.val ⟨d, rfl, hc, hu⟩
    exact ⟨Classical.not_not.mp fun hk => hno (.inl hk),
      fun b hb hbc he => hno (.inr ⟨b, hb, hbc, he⟩)⟩
  · rintro h i ⟨d, -, hc, hu⟩
    obtain ⟨hk, hs⟩ := h d hc
    rcases hu with hu | ⟨b, hb, hbc, he⟩
    · exact hu hk
    · exact hs b hb hbc he

theorem sound_areas : (∀ i, ¬Unsound c .area i) ↔ ∀ i : Fin 16, ∀ n ∈ c.areas[i],
    nodeKind c n = some .amp ∧ ∀ j : Fin 16, j < i → n ∉ c.areas[j] := by
  constructor
  · intro h i n hn
    have hno := fun hu => h i.val ⟨i, rfl, n, hn, hu⟩
    exact ⟨Classical.not_not.mp fun hk => hno (.inl hk), fun j hj hm => hno (.inr ⟨j, hj, hm⟩)⟩
  · rintro h i ⟨k, -, n, hn, hu⟩
    obtain ⟨hk, hs⟩ := h k n hn
    rcases hu with hu | ⟨j, hj, hm⟩
    · exact hu hk
    · exact hs j hj hm

theorem sound_channels : (∀ i, ¬Unsound c .channel i) ↔ ∀ ch : Fin 32,
    c.channels[ch].configured = true → (nodeCfg c c.channels[ch].source).isSome = true := by
  simp only [← Option.ne_none_iff_isSome]
  constructor
  · exact fun h ch hc hu => h ch.val ⟨ch, rfl, hc, hu⟩
  · rintro h i ⟨ch, -, hc, hu⟩
    exact h ch hc hu

theorem sound_monitors : (∀ i, ¬Unsound c .monitor i) ∧ (∀ i, ¬Unsound c .mstate i) ↔
    ∀ m : Fin 16, c.monitors[m].configured = true →
      (c.monitors[m].startEnabled = true → graphPasses c m = true) ∧
      ∀ k : Fin 8, (mstate c m k).inUse = true →
        c.channels[(mstate c m k).channel].configured = true := by
  constructor
  · rintro ⟨hm, hs⟩ m hc
    refine ⟨fun hst => ?_, fun k hk => ?_⟩
    · exact Bool.not_eq_false _ ▸ fun hg => hm m.val ⟨m, rfl, hc, hst, hg⟩
    · exact Bool.not_eq_false _ ▸ fun hg => hs _ ⟨m, k, rfl, hc, hk, hg⟩
  · intro h
    constructor
    · rintro i ⟨m, -, hc, hst, hg⟩
      exact Bool.noConfusion (hg.symm.trans ((h m hc).1 hst))
    · rintro i ⟨m, k, -, hc, hk, hg⟩
      exact Bool.noConfusion (hg.symm.trans ((h m hc).2 k hk))

/-- Nine of the sixteen tables have a check; the rest pass as they are. -/
theorem sound_tables : (∀ t i, ¬Unsound c t i) ↔
    (∀ i, ¬Unsound c .route i) ∧ (∀ i, ¬Unsound c .permit i) ∧
      ((∀ i, ¬Unsound c .axis i) ∧ (∀ i, ¬Unsound c .profile i)) ∧ (∀ i, ¬Unsound c .door i) ∧
      (∀ i, ¬Unsound c .area i) ∧ (∀ i, ¬Unsound c .channel i) ∧
      ((∀ i, ¬Unsound c .monitor i) ∧ (∀ i, ¬Unsound c .mstate i)) := by
  constructor
  · exact fun h => ⟨h _, h _, ⟨h _, h _⟩, h _, h _, h _, h _, h _⟩
  · rintro ⟨hr, hp, ⟨ha, hpr⟩, hd, har, hch, hm, hs⟩ t
    cases t with
    | route => exact hr
    | permit => exact hp
    | axis => exact ha
    | profile => exact hpr
    | door => exact hd
    | area => exact har
    | channel => exact hch
    | monitor => exact hm
    | mstate => exact hs
    | report | trunk | node | zone | lamp | line | param => exact fun _ h => h

theorem validate_sound : validate c = none ↔
    (∀ x ∈ c.routes, ∀ n, x.target = .node n → (nodeCfg c n).isSome = true) ∧
    (∀ (i : Fin 64) (p : Permit), c.permits[i] = some p → ∀ u, u = p.term1 ∨ u = p.term2 →
      (∀ a k, u = some (.axis a k) → c.axes[a].configured = true) ∧
      (∀ d k, u = some (.door d k) → c.doors[d].configured = true) ∧
      (∀ m k, u = some (.monitor m k) → c.monitors[m].configured = true)) ∧
    (∀ a : Fin 6, c.axes[a].configured = true →
      nodeKind c c.axes[a].drive = some .drive ∧
      (∀ b : Fin 6, b < a → c.axes[b].configured = true → c.axes[b].drive ≠ c.axes[a].drive) ∧
      (∀ n, c.axes[a].panel = some n → nodeKind c n = some .panel) ∧
      (∀ p : Prereq, c.axes[a].prereq1 = some p ∨ c.axes[a].prereq2 = some p →
        c.axes[p.axis].configured = true) ∧
      2 ≤ (breakpoints c a).length) ∧
    (∀ d : Fin 32, c.doors[d].configured = true →
      nodeKind c c.doors[d].node = some .door ∧
      ∀ b : Fin 32, b < d → c.doors[b].configured = true → c.doors[b].node ≠ c.doors[d].node) ∧
    (∀ i : Fin 16, ∀ n ∈ c.areas[i], nodeKind c n = some .amp ∧
      ∀ j : Fin 16, j < i → n ∉ c.areas[j]) ∧
    (∀ ch : Fin 32, c.channels[ch].configured = true →
      (nodeCfg c c.channels[ch].source).isSome = true) ∧
    (∀ m : Fin 16, c.monitors[m].configured = true →
      (c.monitors[m].startEnabled = true → graphPasses c m = true) ∧
      ∀ k : Fin 8, (mstate c m k).inUse = true →
        c.channels[(mstate c m k).channel].configured = true) := by
  rw [validate_none_iff, sound_tables, sound_routes, sound_permits, sound_axes, sound_doors,
    sound_areas, sound_channels, sound_monitors]

end Sys2Proof.Machine
end

