-- ==== Sys2Proof/Proofs/Start.lean ====
section
/-! PROOFS. START (R11): the validation's verdict, and the change to CONFIGURED (R42, R127, R160, R161). -/

namespace Sys2Proof.Machine

variable (c : Tables) (r : Run)

/-! ### A trunk that settles (R42, R44) -/

theorem raise_trunks (kind : EventKind) (index : Nat) (detail : Word) :
    (r.raise kind index detail).trunks = r.trunks := rfl

theorem Run.setTrunkState_state (t u : Fin 4) (x : TrunkState) :
    (r.setTrunkState t x).trunks[u].state = if u = t then x else r.trunks[u].state := by
  unfold Run.setTrunkState
  rw [raise_trunks]
  split
  next e => subst e; rw [Run.modTrunk_self]
  next e => rw [Run.modTrunk_ne r t u _ e]

/-- The trunk as it turns RUNNING, before its first round. -/
def settledNow (r : Run) (t : Fin 4) : Run :=
  (r.modTrunk t fun k => { k with settleTimer := none, nonPoll := 0 }).setTrunkState t .running

theorem settledNow_state (t u : Fin 4) :
    (settledNow r t).trunks[u].state = if u = t then .running else r.trunks[u].state := by
  unfold settledNow
  rw [Run.setTrunkState_state]
  split
  next => rfl
  next e => rw [Run.modTrunk_ne r t u _ e]

theorem settled_inner (t : Fin 4) : Inner (settledNow r t) (Run.settled c r t) := by
  have hr : (settledNow r t).trunks[t].state = .running := by rw [settledNow_state, if_pos rfl]
  exact (((Kept.refl (F := .inner) (settledNow r t)).beginRound c (fun _ => hr) 0).kickTrunk c t).inner rfl

/-- The trunk as it enters SETTLING. -/
def settlingNow (c : Tables) (r : Run) (t : Fin 4) : Run :=
  (r.modTrunk t fun k => { k with
    state := .settling, holdAsserted := false
    settleTimer := some (ms c.trunks[t].settle) }).raise .trunkState t.val 2

theorem settle_eq (t : Fin 4) : Run.settle c r t =
    if c.trunks[t].settle = 0 then Run.settled c (settlingNow c r t) t else settlingNow c r t := by
  have h : ((r.modTrunk t fun k => { k with
      holdAsserted := false, settleTimer := some (ms c.trunks[t].settle) }).setTrunkState t .settling)
      = settlingNow c r t := by
    unfold Run.setTrunkState
    rw [Run.modTrunk_modTrunk]
    rfl
  rw [← h]
  rfl

theorem settlingNow_state (t u : Fin 4) :
    (settlingNow c r t).trunks[u].state = if u = t then .settling else r.trunks[u].state := by
  unfold settlingNow
  rw [raise_trunks]
  split
  next e => subst e; rw [Run.modTrunk_self]
  next e => rw [Run.modTrunk_ne r t u _ e]

/-- The state of a trunk behind its settle time, which may be 0 (log 34). -/
def settleState (c : Tables) (t : Fin 4) : TrunkState :=
  if c.trunks[t].settle = 0 then .running else .settling

theorem settle_state (t u : Fin 4) : (Run.settle c r t).trunks[u].state =
    if u = t then settleState c t else r.trunks[u].state := by
  unfold settleState
  rw [settle_eq]
  split
  next h =>
    rw [(settled_inner c (settlingNow c r t) t).states, settledNow_state, settlingNow_state]
    split <;> rfl
  next h => exact settlingNow_state c r t u

theorem settle_lines (t : Fin 4) : (Run.settle c r t).lines = r.lines := by
  rw [settle_eq]
  split
  · exact (settled_inner c (settlingNow c r t) t).lines
  · rfl

/-! ### The parts of the change to CONFIGURED -/

theorem startTrunk_lines (t : Fin 4) : (Run.startTrunk c r t).lines = r.lines := by
  unfold Run.startTrunk
  split
  · exact settle_lines c r t
  · rfl

theorem startTrunk_state (t u : Fin 4) : (Run.startTrunk c r t).trunks[u].state =
    if u = t ∧ c.trunks[u].configured = true then settleState c u else r.trunks[u].state := by
  unfold Run.startTrunk
  by_cases e : u = t
  · subst e
    by_cases hc : c.trunks[u].configured = true
    · rw [if_pos hc, settle_state, if_pos rfl, if_pos ⟨rfl, hc⟩]
    · rw [if_neg hc, if_neg (not_and_of_not_right _ hc)]
  · simp only [e, false_and, if_false]
    split
    · rw [settle_state, if_neg e]
    · rfl

theorem startTrunks_state (l : List (Fin 4)) (u : Fin 4) :
    (l.foldl (Run.startTrunk c) r).trunks[u].state =
      if u ∈ l ∧ c.trunks[u].configured = true then settleState c u else r.trunks[u].state := by
  induction l generalizing r with
  | nil => simp
  | cons t l ih =>
    rw [List.foldl_cons, ih, startTrunk_state]
    by_cases hu : u ∈ l ∧ c.trunks[u].configured = true
    · rw [if_pos hu, if_pos ⟨.tail _ hu.1, hu.2⟩]
    · rw [if_neg hu]
      refine if_congr ?_ rfl rfl
      rw [List.mem_cons]
      tauto

theorem foldl_lines {α : Type} (f : Run → α → Run) (hf : ∀ r a, (f r a).lines = r.lines)
    (l : List α) : (l.foldl f r).lines = r.lines := by
  induction l generalizing r with
  | nil => rfl
  | cons a l ih => rw [List.foldl_cons, ih, hf]

/-- Every element of a vector changed in turn. -/
theorem foldl_set_get {α : Type} {n : Nat} (f : Fin n → α → α) (l : List (Fin n)) (hl : l.Nodup)
    (v : Vector α n) (j : Fin n) : (l.foldl (fun v i => v.set i (f i v[i])) v)[j] =
      if j ∈ l then f j v[j] else v[j] := by
  induction l generalizing v with
  | nil => simp
  | cons i l ih =>
    obtain ⟨hi, hl⟩ := List.nodup_cons.mp hl
    rw [List.foldl_cons, ih hl]
    by_cases e : j = i
    · subst e
      rw [if_neg hi, if_pos (List.mem_cons_self ..)]
      simp
    · have hv : (v.set i (f i v[i]))[j] = v[j] :=
        Vector.getElem_set_ne i.isLt j.isLt fun h => e (Fin.ext h.symm)
      rw [hv]
      refine if_congr ?_ rfl rfl
      rw [List.mem_cons]
      tauto

theorem startAreas_eq : r.startAreas = { r with areas := Vector.ofFn fun i : Fin 16 =>
    { r.areas[i] with state := .unavailable, startMark := true } } := by
  have hfold : ∀ (l : List (Fin 16)) (u : Run) (g : AreaRt → AreaRt),
      l.foldl (fun u i => u.modArea i g) u =
        { u with areas := l.foldl (fun v (i : Fin 16) => v.set i (g v[i])) u.areas } := by
    intro l
    induction l with
    | nil => exact fun _ _ => rfl
    | cons i l ih => exact fun u g => ih (u.modArea i g) g
  refine (hfold _ _ _).trans (congrArg (fun v => { r with areas := v }) (Vector.ext fun i hi => ?_))
  have := foldl_set_get (fun _ x => { x with state := .unavailable, startMark := true })
    (List.finRange 16) (List.nodup_finRange 16) r.areas ⟨i, hi⟩
  rw [if_pos (List.mem_finRange _)] at this
  rw [Vector.getElem_ofFn]
  exact this

theorem judgeLinesAnew_lines (l : Fin 14) :
    ((List.finRange 14).foldl (Run.judgeLineAnew c) r).lines[l] =
      { raw := r.lines[l].raw, accepted := false
        filterTimer := if r.lines[l].raw then some (ms c.lines[l].filter) else none } := by
  have hfold : ∀ (l : List (Fin 14)) (u : Run) (g : Fin 14 → LineRt → LineRt),
      (l.foldl (fun u i => u.modLine i (g i)) u).lines =
        l.foldl (fun v i => v.set i (g i v[i])) u.lines := by
    intro l
    induction l with
    | nil => exact fun _ _ => rfl
    | cons i l ih => exact fun u g => ih (u.modLine i (g i)) g
  have := foldl_set_get (fun l (x : LineRt) => { x with
    accepted := false, filterTimer := if x.raw then some (ms c.lines[l].filter) else none })
    (List.finRange 14) (List.nodup_finRange 14) r.lines l
  rw [if_pos (List.mem_finRange _)] at this
  exact (congrArg (·[l]) (hfold _ r _)).trans this

theorem judgeLinesAnew_trunks (l : List (Fin 14)) :
    (l.foldl (Run.judgeLineAnew c) r).trunks = r.trunks := by
  induction l generalizing r with
  | nil => rfl
  | cons i l ih => exact ih _

theorem startMonitors_inner (l : List (Fin 16)) : Inner r (l.foldl (Run.startMonitor c) r) :=
  (Kept.foldl (F := .inner) _ _ (fun _ m h => h.startMonitor c m) (Kept.refl r)).inner rfl

/-- The change to CONFIGURED up to the monitors. -/
def startedAreas (c : Tables) (r : Run) : Run :=
  ((List.finRange 4).foldl (Run.startTrunk c) (r.setGw .configured)).startAreas

theorem becomeConfigured_parts : Run.becomeConfigured c r = (List.finRange 14).foldl
    (Run.judgeLineAnew c) ((List.finRange 16).foldl (Run.startMonitor c) (startedAreas c r)) := rfl

theorem startedAreas_lines : (startedAreas c r).lines = r.lines := by
  unfold startedAreas
  rw [startAreas_eq]
  exact foldl_lines (r.setGw .configured) _ (startTrunk_lines c) _

theorem becomeConfigured_lines (l : Fin 14) : (Run.becomeConfigured c r).lines[l] =
    { raw := r.lines[l].raw, accepted := false
      filterTimer := if r.lines[l].raw then some (ms c.lines[l].filter) else none } := by
  have hm := (startMonitors_inner c (startedAreas c r) (List.finRange 16)).lines
  rw [startedAreas_lines] at hm
  rw [becomeConfigured_parts, judgeLinesAnew_lines, hm]

theorem becomeConfigured_state (t : Fin 4) : (Run.becomeConfigured c r).trunks[t].state =
    if c.trunks[t].configured = false then r.trunks[t].state
    else if c.trunks[t].settle = 0 then .running else .settling := by
  have hm := (startMonitors_inner c (startedAreas c r) (List.finRange 16)).states t
  have ha : (startedAreas c r).trunks =
      ((List.finRange 4).foldl (Run.startTrunk c) (r.setGw .configured)).trunks := by
    unfold startedAreas
    rw [startAreas_eq]
  rw [ha, startTrunks_state] at hm
  rw [becomeConfigured_parts, judgeLinesAnew_trunks, hm]
  cases hc : c.trunks[t].configured with
  | true => rw [if_pos ⟨List.mem_finRange t, rfl⟩, if_neg (by decide)]; rfl
  | false => rw [if_neg fun h => Bool.noConfusion h.2, if_pos rfl]; rfl

/-- The change as the loops over trunks, areas, monitors and lines. -/
theorem becomeConfigured_eq :
    let trunks := (List.finRange 4).foldl (fun u t =>
      if c.trunks[t].configured = true then Run.settle c u t else u) (r.setGw .configured)
    let areas := { trunks with areas := Vector.ofFn fun i : Fin 16 =>
      { trunks.areas[i] with state := .unavailable, startMark := true } }
    let monitors := (List.finRange 16).foldl (fun u m =>
      if c.monitors[m].configured = true ∧ c.monitors[m].startEnabled = true then
        Run.enterState c (u.modMonitor m fun x => { x with enabled := true }) m 0 else u) areas
    Run.becomeConfigured c r = (List.finRange 14).foldl (fun u l => u.modLine l fun x =>
      { x with accepted := false
               filterTimer := if x.raw then some (ms c.lines[l].filter) else none }) monitors := by
  intro trunks areas monitors
  have ha : trunks.startAreas = areas := startAreas_eq trunks
  have hm : Run.startMonitor c = fun u m =>
      if c.monitors[m].configured = true ∧ c.monitors[m].startEnabled = true then
        Run.enterState c (u.modMonitor m fun x => { x with enabled := true }) m 0 else u := by
    funext u m
    exact if_congr (Bool.and_eq_true_iff) rfl rfl
  unfold monitors
  rw [← ha, ← hm]
  rfl

/-! ### START -/

theorem start_invalid {s : State} (h : Serves s .start) (src : Word) (tag : Byte) {t : Table} {i : Nat}
    (hv : validate s.cfg = some (t, i)) : exec (.start src tag []) s =
      answered s s.run { src, dst := 0, tag } (.badRequest, det2 t.id i) [] := by
  refine managed_answers h src tag 0x07 (k := fun s => s.doStart (manageReq src tag) [])
    (Nat.zero_le _) ?_
  unfold State.doStart State.formed
  simp only [hv]
  rfl

theorem start_valid {s : State} (h : Serves s .start) (src : Word) (tag : Byte)
    (hv : validate s.cfg = none) : exec (.start src tag []) s =
      answered s (Run.becomeConfigured s.cfg s.run) { src, dst := 0, tag } (.ok, 0) [] := by
  refine managed_done h src tag 0x07 (k := fun s => s.doStart (manageReq src tag) [])
    (Nat.zero_le _) ?_
  unfold State.doStart State.formed
  simp only [hv]
  rfl

/-- Settles O19: START by the validation's verdict, the validation's clauses and its first failing entry,
and the change to CONFIGURED. -/
theorem startValidatesTheTables : Obligations.StartValidatesTheTables :=
  ⟨⟨fun s src tag h => ⟨fun _ _ hv => start_invalid h src tag hv, fun hv =>
      ⟨start_valid h src tag hv, becomeConfigured_gw s.cfg s.run, becomeConfigured_lines s.cfg s.run⟩⟩,
    fun _ => validate_sound⟩, fun _ => ⟨validate_none_iff, fun _ _ => validate_some_iff⟩,
    fun c r => ⟨becomeConfigured_eq c r, settle_eq c r, becomeConfigured_state c r⟩⟩

end Sys2Proof.Machine
end

