-- ==== Sys2Proof/Proofs/TrunkHold.lean ====
section
/-! PROOFS. TRUNK HOLD and TRUNK RELEASE by the trunk's state (R13, R43, R44), and what a hold does in the
order of R61. -/

namespace Sys2Proof.Machine

/-! ### The requests -/

section
variable {s : State} (src : Word) (tag : Byte) {t : Fin 4}

theorem formTrunk_ok (t : Fin 4) : formTrunk.run' 1 (b1 t.val) = .ok t := by
  have ht := (reads_fin1 (n := 4) (by decide) t).fld 1 []
  rw [List.append_nil] at ht
  exact form_ok ht

theorem formTrunk_unknown {b : Byte} (h : 4 ≤ b.toNat) : formTrunk.run' 1 [b] = .error 1 :=
  form_refused ((refuses_fin1 h []).fld 1)

theorem trunkHold_taken (h : Serves s .trunkHold)
    (hx : s.run.trunks[t].state = .settling ∨ s.run.trunks[t].state = .running) :
    exec (.trunkHold src tag (b1 t.val)) s =
      answered s (Run.holdTrunk s.cfg s.run t) { src, dst := 0, tag } (.ok, 0) [] := by
  refine managed_done h src tag 0x09 (k := fun s => s.doTrunkHold (manageReq src tag) (b1 t.val))
    (Nat.le_add_left 1 238) ((formed_ok (formTrunk_ok t) s _ _).trans ?_)
  rcases hx with hx | hx <;> rw [hx]

theorem trunkHold_state (h : Serves s .trunkHold)
    (hx : s.run.trunks[t].state = .down ∨ s.run.trunks[t].state = .held) :
    exec (.trunkHold src tag (b1 t.val)) s =
      answered s s.run { src, dst := 0, tag } (.state, det s.run.trunks[t].state.code) [] := by
  refine managed_answers h src tag 0x09 (k := fun s => s.doTrunkHold (manageReq src tag) (b1 t.val))
    (Nat.le_add_left 1 238) ((formed_ok (formTrunk_ok t) s _ _).trans ?_)
  rcases hx with hx | hx <;> rw [hx]

theorem trunkRelease_taken (h : Serves s .trunkRelease) (hx : s.run.trunks[t].state = .held) :
    exec (.trunkRelease src tag (b1 t.val)) s =
      answered s (Run.settle s.cfg s.run t) { src, dst := 0, tag } (.ok, 0) [] := by
  refine managed_done h src tag 0x0a (k := fun s => s.doTrunkRelease (manageReq src tag) (b1 t.val))
    (Nat.le_add_left 1 238) ((formed_ok (formTrunk_ok t) s _ _).trans ?_)
  rw [hx]

theorem trunkRelease_state (h : Serves s .trunkRelease) (hx : s.run.trunks[t].state ≠ .held) :
    exec (.trunkRelease src tag (b1 t.val)) s =
      answered s s.run { src, dst := 0, tag } (.state, det s.run.trunks[t].state.code) [] := by
  refine managed_answers h src tag 0x0a
    (k := fun s => s.doTrunkRelease (manageReq src tag) (b1 t.val))
    (Nat.le_add_left 1 238) ((formed_ok (formTrunk_ok t) s _ _).trans ?_)
  cases hs : s.run.trunks[t].state with
  | held => exact absurd hs hx
  | down | settling | running => rfl

end

/-! ### The work of a hold (R61) -/

variable {c : Tables} {r u : Run} {t : Fin 4}

theorem tellOrigin_inner (c : Tables) (r : Run) (o : Origin) (k : Completion) :
    Inner r (Run.tellOrigin c r o k) := ((Kept.refl r).tellOrigin c o k).inner rfl

theorem answerCompletion_inner (c : Tables) (r : Run) (req : Req) (k : Completion) :
    Inner r (Run.answerCompletion c r req k) := ((Kept.refl r).answerCompletion c req k).inner rfl

/-- What the completions of a hold change: the trunk's queue and its pass slot, and nothing else of the
trunk, of its nodes or of another trunk's state. -/
structure Clearing (t : Fin 4) (r r' : Run) : Prop where
  states : ∀ u : Fin 4, r'.trunks[u].state = r.trunks[u].state
  record : ∃ queue pass, r'.trunks[t] = { r.trunks[t] with queue, pass }
  nodes : ∀ i : Fin 31, nodeRt r' (nodeAt t i) = nodeRt r (nodeAt t i)

theorem Clearing.refl (t : Fin 4) (r : Run) : Clearing t r r := ⟨fun _ => rfl, ⟨_, _, rfl⟩, fun _ => rfl⟩

theorem Clearing.trans {a b d : Run} (h : Clearing t a b) (h' : Clearing t b d) : Clearing t a d := by
  obtain ⟨q, p, e⟩ := h.record
  obtain ⟨q', p', e'⟩ := h'.record
  exact ⟨fun u => (h'.states u).trans (h.states u), ⟨q', p', by rw [e', e]⟩,
    fun i => (h'.nodes i).trans (h.nodes i)⟩

/-- The trunk's record changed in those two fields, then inner work while the trunk does not run. -/
theorem Clearing.work {f : TrunkRt → TrunkRt} {r' : Run} (hr : r.trunks[t].state ≠ .running)
    (hf : ∃ queue pass, f r.trunks[t] = { r.trunks[t] with queue, pass })
    (h : Inner (r.modTrunk t f) r') :
    Clearing t r r' ∧ r'.trunks[t] = f r.trunks[t] := by
  have hs : (f r.trunks[t]).state = r.trunks[t].state := by
    obtain ⟨q, p, e⟩ := hf
    rw [e]
  have hm : (r.modTrunk t f).trunks[t].state ≠ .running := by rw [Run.modTrunk_self, hs]; exact hr
  have hrec : r'.trunks[t] = f r.trunks[t] := (h.trunks t hm).trans (Run.modTrunk_self r t f)
  refine ⟨⟨fun u => (h.states u).trans ?_, by rw [hrec]; exact hf, fun i => h.nodes (nodeAt t i) hm⟩,
    hrec⟩
  by_cases e : u = t
  · subst e; rw [Run.modTrunk_self, hs]
  · rw [Run.modTrunk_ne r t u f e]

theorem Run.modTrunk_congr (t : Fin 4) {f g : TrunkRt → TrunkRt} (h : f r.trunks[t] = g r.trunks[t]) :
    r.modTrunk t f = r.modTrunk t g := by unfold Run.modTrunk; rw [h]

theorem completeHead_nil (k : Completion) (h : r.trunks[t].queue = []) :
    Run.completeHead c r t k = r := by
  unfold Run.completeHead
  rw [h]

theorem completeHead_cons (k : Completion) {f : QFrame} {rest : List QFrame}
    (h : r.trunks[t].queue = f :: rest) : Run.completeHead c r t k =
      Run.tellOrigin c (r.modTrunk t fun y => { y with queue := rest }) f.origin k := by
  unfold Run.completeHead
  rw [h]

theorem completePass_none (k : Completion) (h : r.trunks[t].pass = none) :
    Run.completePass c r t k = r := by
  unfold Run.completePass
  rw [h]

theorem completePass_some (k : Completion) {p : PassSlot} (h : r.trunks[t].pass = some p) :
    Run.completePass c r t k =
      Run.answerCompletion c (r.modTrunk t fun y => { y with pass := none }) p.req k := by
  unfold Run.completePass
  rw [h]

theorem completeHead_clearing (k : Completion) (hr : r.trunks[t].state ≠ .running) :
    Clearing t r (Run.completeHead c r t k) ∧
      (Run.completeHead c r t k).trunks[t] = { r.trunks[t] with queue := r.trunks[t].queue.tail } := by
  cases hq : r.trunks[t].queue with
  | nil =>
    rw [completeHead_nil k hq]
    exact ⟨.refl t r, by rw [List.tail_nil, ← hq]⟩
  | cons f rest =>
    rw [completeHead_cons k hq]
    exact Clearing.work (f := fun y => { y with queue := rest }) hr ⟨_, _, rfl⟩ (tellOrigin_inner ..)

theorem completePass_clearing (k : Completion) (hr : r.trunks[t].state ≠ .running) :
    Clearing t r (Run.completePass c r t k) ∧
      (Run.completePass c r t k).trunks[t] = { r.trunks[t] with pass := none } := by
  cases hp : r.trunks[t].pass with
  | none =>
    rw [completePass_none k hp]
    exact ⟨.refl t r, by rw [← hp]⟩
  | some p =>
    rw [completePass_some k hp]
    exact Clearing.work (f := fun y => { y with pass := none }) hr ⟨_, _, rfl⟩
      (answerCompletion_inner ..)

theorem completeSource_clearing (x : TxSource) (k : Completion) (hr : r.trunks[t].state ≠ .running) :
    Clearing t r (Run.completeSource c r t x k) := by
  cases x with
  | queue => exact (completeHead_clearing k hr).1
  | pass => exact (completePass_clearing k hr).1
  | hold | poll | setPoint a => exact .refl t r

/-- The command queue is emptied from its head, the frame read off the queue as it stands or as it was
before: no completion puts a frame on a trunk that does not run. -/
theorem emptyQueue (k : Completion) (l : List QFrame) (hq : r.trunks[t].queue = l)
    (hr : r.trunks[t].state ≠ .running) :
    let done := l.foldl (fun u _ => Run.completeHead c u t k) r
    done = l.foldl (fun u f => Run.tellOrigin c
      (u.modTrunk t fun y => { y with queue := y.queue.tail }) f.origin k) r ∧
    Clearing t r done ∧ done.trunks[t] = { r.trunks[t] with queue := [] } := by
  induction l generalizing r with
  | nil => exact ⟨rfl, .refl t r, by show r.trunks[t] = _; rw [← hq]⟩
  | cons f rest ih =>
    obtain ⟨hc, hrec⟩ := completeHead_clearing (c := c) k hr
    have htail : Run.completeHead c r t k = Run.tellOrigin c
        (r.modTrunk t fun y => { y with queue := y.queue.tail }) f.origin k := by
      rw [completeHead_cons k hq]
      refine congrArg (Run.tellOrigin c · _ _) (Run.modTrunk_congr t ?_)
      rw [hq, List.tail_cons]
    obtain ⟨he, hcl, hlast⟩ := ih (r := Run.completeHead c r t k) (by rw [hrec, hq]; rfl)
      (by rw [hc.states]; exact hr)
    refine ⟨?_, hc.trans hcl, hlast.trans (by rw [hrec])⟩
    rw [List.foldl_cons, List.foldl_cons, ← htail]
    exact he

/-- The frame on the line is completed, when its source is the queue or the pass slot. -/
def completeOnLine (c : Tables) (r : Run) (t : Fin 4) : Option TxSource → Run
  | some x => Run.completeSource c r t x .trunkDown
  | none => r

theorem completeOnLine_clearing (x : Option TxSource) (hr : r.trunks[t].state ≠ .running) :
    Clearing t r (completeOnLine c r t x) := by
  cases x with
  | none => exact .refl t r
  | some x => exact completeSource_clearing x _ hr

theorem holdWork_parts (x : Option TxSource) : Run.holdWork c r t x = Run.completePass c
    ((completeOnLine c r t x).trunks[t].queue.foldl (fun u _ => Run.completeHead c u t .trunkDown)
      (completeOnLine c r t x)) t .trunkDown := by
  cases x <;> rfl

/-- The frame on the line, the command queue in queue order, the pass slot. -/
theorem holdWork_in_order (x : Option TxSource) (hr : r.trunks[t].state ≠ .running) :
    Run.holdWork c r t x = Run.completePass c
      ((completeOnLine c r t x).trunks[t].queue.foldl (fun u f => Run.tellOrigin c
        (u.modTrunk t fun y => { y with queue := y.queue.tail }) f.origin .trunkDown)
        (completeOnLine c r t x)) t .trunkDown := by
  have hs : (completeOnLine c r t x).trunks[t].state ≠ .running := by
    rw [(completeOnLine_clearing x hr).states]
    exact hr
  rw [holdWork_parts, (emptyQueue .trunkDown _ rfl hs).1]

/-- Behind them the trunk's queue and its pass slot are empty, and it is else as it was. -/
theorem holdWork_clears (x : Option TxSource) (hr : r.trunks[t].state ≠ .running) :
    Clearing t r (Run.holdWork c r t x) ∧
      (Run.holdWork c r t x).trunks[t] = { r.trunks[t] with queue := [], pass := none } := by
  have ho := completeOnLine_clearing (c := c) x hr
  have hs : (completeOnLine c r t x).trunks[t].state ≠ .running := by rw [ho.states]; exact hr
  obtain ⟨-, hq, hqrec⟩ := emptyQueue (c := c) .trunkDown _ rfl hs
  obtain ⟨hp, hprec⟩ := completePass_clearing (c := c) .trunkDown
    (by rw [hq.states]; exact hs : (List.foldl (fun u _ => Run.completeHead c u t .trunkDown)
      (completeOnLine c r t x) (completeOnLine c r t x).trunks[t].queue).trunks[t].state ≠ .running)
  rw [holdWork_parts]
  refine ⟨ho.trans (hq.trans hp), ?_⟩
  obtain ⟨q, p, e⟩ := ho.record
  rw [hprec, hqrec, e]

/-! ### Loops that set one record after another -/

/-- What one step of a loop brings about and no step undoes holds behind the loop. -/
theorem foldl_reaches {α : Type} (f : Run → α → Run) (P : Run → Prop) {a : α} (hit : ∀ u, P (f u a))
    (keep : ∀ u b, P u → P (f u b)) {l : List α} (ha : a ∈ l) (u : Run) : P (l.foldl f u) := by
  have hkeep : ∀ (l : List α) (u : Run), P u → P (l.foldl f u) := by
    intro l
    induction l with
    | nil => exact fun _ h => h
    | cons b l ih => exact fun u h => ih _ (keep u b h)
  induction l generalizing u with
  | nil => exact absurd ha List.not_mem_nil
  | cons b l ih =>
    rcases List.mem_cons.mp ha with rfl | ha
    · exact hkeep l _ (hit u)
    · exact ih ha _

/-- What no step of a loop changes stands behind the loop. -/
theorem foldl_keeps {α β : Type} (f : Run → α → Run) (g : Run → β) (hf : ∀ u a, g (f u a) = g u)
    (l : List α) (u : Run) : g (l.foldl f u) = g u := by
  induction l generalizing u with
  | nil => rfl
  | cons a l ih => rw [List.foldl_cons, ih, hf]

theorem mem_nodesOf (t : Fin 4) (i : Fin 31) : nodeAt t i ∈ nodesOf t :=
  List.mem_map.mpr ⟨i, List.mem_finRange i, rfl⟩

/-! ### The hold -/

/-- The trunk is HELD, with its hold line asserted and nothing on its line. -/
def heldRun (r : Run) (t : Fin 4) : Run :=
  (r.modTrunk t fun k =>
    { k with state := .held, holdAsserted := true, settleTimer := none, roundTimer := none
             roundPhase := 0, roundPosition := 0, nonPoll := 0, transaction := none
             windowTimer := none, gapTimer := none }).raise .trunkState t.val 1

/-- Every node of the trunk is UNKNOWN with its record at the reset values. -/
def unknownRun (r : Run) (t : Fin 4) : Run :=
  (nodesOf t).foldl (fun u n => u.modNode (nodeIndex n) fun _ => resetNode) (heldRun r t)

/-- The nodes of the trunk that are not UNKNOWN. -/
def knownNodes (r : Run) (t : Fin 4) : List NodeId :=
  (nodesOf t).filter fun n => (nodeRt r n).liveness != .unknown

/-- The trunk with its work completed, its slots emptied and its report entries reset. -/
def emptiedRun (c : Tables) (r : Run) (t : Fin 4) : Run :=
  (nodesOf t).foldl Run.clearReport (Run.holdSlots c
    (Run.holdWork c (unknownRun r t) t (r.trunks[t].transaction.map (·.source))) t)

theorem holdTrunk_eq (c : Tables) (r : Run) (t : Fin 4) : Run.holdTrunk c r t =
    Run.turnStale c (Run.pushDown c .unknown (emptiedRun c r t) (knownNodes r t))
      (channelsOf c fun n => n.trunk == t && (knownNodes r t).contains n) := by
  have h : (r.modTrunk t TrunkRt.heldNow).setTrunkState t .held = heldRun r t := by
    unfold Run.setTrunkState
    rw [Run.modTrunk_modTrunk]
    rfl
  unfold emptiedRun unknownRun
  rw [← h]
  rfl

theorem holdTrunk_inner (c : Tables) (r : Run) (t : Fin 4) :
    Inner (emptiedRun c r t) (Run.holdTrunk c r t) := by
  rw [holdTrunk_eq]
  exact (((Kept.refl _).pushDown c _ _).turnStale c _).inner rfl

/-- The trunk's record at a hold, with its work still to be completed. -/
def heldRecord (k : TrunkRt) : TrunkRt :=
  { k with state := .held, holdAsserted := true, settleTimer := none, roundTimer := none
           roundPhase := 0, roundPosition := 0, nonPoll := 0, transaction := none
           windowTimer := none, gapTimer := none }

theorem unknownRun_trunks (r : Run) (t : Fin 4) :
    (unknownRun r t).trunks = (r.modTrunk t heldRecord).trunks :=
  foldl_keeps (fun u n => u.modNode (nodeIndex n) fun _ => resetNode) Run.trunks
    (fun _ _ => rfl) _ _

theorem unknownRun_record (r : Run) (t : Fin 4) :
    (unknownRun r t).trunks[t] = heldRecord r.trunks[t] := by
  rw [unknownRun_trunks, Run.modTrunk_self]

theorem unknownRun_held (r : Run) (t : Fin 4) : (unknownRun r t).trunks[t].state ≠ .running := by
  rw [unknownRun_record]
  exact TrunkState.noConfusion

theorem unknownRun_state (r : Run) (t u : Fin 4) : (unknownRun r t).trunks[u].state =
    if u = t then .held else r.trunks[u].state := by
  rw [unknownRun_trunks]
  split
  next e => subst e; rw [Run.modTrunk_self]; rfl
  next e => rw [Run.modTrunk_ne r t u _ e]

theorem unknownRun_node (r : Run) (t : Fin 4) (i : Fin 31) :
    nodeRt (unknownRun r t) (nodeAt t i) = resetNode := by
  refine foldl_reaches _ (fun u => nodeRt u (nodeAt t i) = resetNode)
    (fun u => Run.modNode_self u _ _) (fun u n hu => ?_) (mem_nodesOf t i) _
  by_cases e : nodeIndex (nodeAt t i) = nodeIndex n
  · obtain rfl := nodeIndex_injective e
    exact Run.modNode_self u _ _
  · exact (Run.modNode_ne u _ _ _ e).trans hu

theorem holdSlots_trunks (c : Tables) (r : Run) (t : Fin 4) :
    (Run.holdSlots c r t).trunks = (r.modTrunk t fun k => { k with holdSet := [] }).trunks :=
  foldl_keeps (fun u a => u.modAxis a fun y => { y with setPoint := none }) Run.trunks (fun _ _ => rfl) _ _

theorem holdSlots_nodes (c : Tables) (r : Run) (t : Fin 4) : (Run.holdSlots c r t).nodes = r.nodes :=
  foldl_keeps (fun u a => u.modAxis a fun y => { y with setPoint := none }) Run.nodes (fun _ _ => rfl) _ _

theorem holdSlots_slot (c : Tables) (r : Run) {t : Fin 4} {a : Fin 6}
    (hc : c.axes[a].configured = true) (ht : c.axes[a].drive.trunk = t) :
    (Run.holdSlots c r t).axes[a].setPoint = none := by
  have ha : a ∈ axesWith c fun x => x.drive.trunk == t :=
    List.mem_filter.mpr ⟨List.mem_finRange a, by
      subst ht
      rw [hc]
      exact beq_self_eq_true _⟩
  refine foldl_reaches _ (fun u => u.axes[a].setPoint = none)
    (fun u => by rw [Run.modAxis_self]) (fun u b hu => ?_) ha _
  by_cases e : a = b
  · subst e; rw [Run.modAxis_self]
  · rw [Run.modAxis_ne _ _ _ _ e]; exact hu

theorem clearReports_report (r : Run) (t : Fin 4) (i : Fin 31) :
    ((nodesOf t).foldl Run.clearReport r).reports[nodeIndex (nodeAt t i)] = resetReport := by
  refine foldl_reaches _ (fun u => u.reports[nodeIndex (nodeAt t i)] = resetReport)
    (fun u => Run.modReport_self u _ _) (fun u n hu => ?_) (mem_nodesOf t i) _
  by_cases e : nodeIndex (nodeAt t i) = nodeIndex n
  · obtain rfl := nodeIndex_injective e
    exact Run.modReport_self u _ _
  · exact (Run.modReport_ne u _ _ _ e).trans hu

theorem emptiedRun_trunks (c : Tables) (r : Run) (t : Fin 4) : (emptiedRun c r t).trunks =
    ((Run.holdWork c (unknownRun r t) t (r.trunks[t].transaction.map (·.source))).modTrunk t
      fun k => { k with holdSet := [] }).trunks :=
  (foldl_keeps Run.clearReport Run.trunks (fun _ _ => rfl) _ _).trans (holdSlots_trunks _ _ _)

theorem emptiedRun_record (c : Tables) (r : Run) (t : Fin 4) : (emptiedRun c r t).trunks[t] =
    { heldRecord r.trunks[t] with queue := [], holdSet := [], pass := none } := by
  rw [emptiedRun_trunks, Run.modTrunk_self, (holdWork_clears _ (unknownRun_held r t)).2,
    unknownRun_record]

theorem emptiedRun_state (c : Tables) (r : Run) (t u : Fin 4) : (emptiedRun c r t).trunks[u].state =
    if u = t then .held else r.trunks[u].state := by
  by_cases e : u = t
  · subst e
    rw [emptiedRun_record, if_pos rfl]
    rfl
  · rw [emptiedRun_trunks, Run.modTrunk_ne _ t u _ e, ← unknownRun_state]
    exact (holdWork_clears _ (unknownRun_held r t)).1.states u

theorem emptiedRun_node (c : Tables) (r : Run) (t : Fin 4) (i : Fin 31) :
    nodeRt (emptiedRun c r t) (nodeAt t i) = resetNode := by
  have hn : (emptiedRun c r t).nodes =
      (Run.holdWork c (unknownRun r t) t (r.trunks[t].transaction.map (·.source))).nodes :=
    (foldl_keeps Run.clearReport Run.nodes (fun _ _ => rfl) _ _).trans (holdSlots_nodes _ _ _)
  have hw := (holdWork_clears (c := c) (r.trunks[t].transaction.map (·.source))
    (unknownRun_held r t)).1.nodes i
  unfold nodeRt at hw ⊢
  rw [hn, hw]
  exact unknownRun_node r t i

theorem emptiedRun_slot (c : Tables) (r : Run) {t : Fin 4} {a : Fin 6}
    (hc : c.axes[a].configured = true) (ht : c.axes[a].drive.trunk = t) :
    (emptiedRun c r t).axes[a].setPoint = none := by
  have ha : (emptiedRun c r t).axes = (Run.holdSlots c (Run.holdWork c (unknownRun r t) t
      (r.trunks[t].transaction.map (·.source))) t).axes :=
    foldl_keeps Run.clearReport Run.axes (fun _ _ => rfl) _ _
  rw [ha]
  exact holdSlots_slot c _ hc ht

/-- What a hold leaves of the trunk, of its nodes, their report entries and its drives' slots. -/
theorem holdTrunk_leaves (c : Tables) (r : Run) (t : Fin 4) :
    (Run.holdTrunk c r t).trunks[t] =
      { heldRecord r.trunks[t] with queue := [], holdSet := [], pass := none } ∧
    (∀ u : Fin 4, (Run.holdTrunk c r t).trunks[u].state =
      if u = t then .held else r.trunks[u].state) ∧
    (∀ i : Fin 31, nodeRt (Run.holdTrunk c r t) (nodeAt t i) = resetNode ∧
      (Run.holdTrunk c r t).reports[nodeIndex (nodeAt t i)] = resetReport) ∧
    (∀ a : Fin 6, c.axes[a].configured = true → c.axes[a].drive.trunk = t →
      (Run.holdTrunk c r t).axes[a].setPoint = none) := by
  have hi := holdTrunk_inner c r t
  have hheld : (emptiedRun c r t).trunks[t].state ≠ .running := by
    rw [emptiedRun_state, if_pos rfl]
    exact TrunkState.noConfusion
  refine ⟨(hi.trunks t hheld).trans (emptiedRun_record c r t),
    fun u => (hi.states u).trans (emptiedRun_state c r t u), fun i => ⟨?_, ?_⟩,
    fun a hc ht => hi.slots a (emptiedRun_slot c r hc ht)⟩
  · exact (hi.nodes (nodeAt t i) hheld).trans (emptiedRun_node c r t i)
  · rw [hi.reports]
    exact clearReports_report _ t i

end Sys2Proof.Machine
end

