-- ==== Sys2Proof/Proofs/TrunkRequests.lean ====
section
/-! PROOFS. The hold of a trunk step by step, and the two trunk requests (R13, R43, R61). -/

namespace Sys2Proof.Machine

variable {c : Tables} {r u : Run} {t : Fin 4}

theorem completeOnLine_queue {f : QFrame} {rest : List QFrame} (h : u.trunks[t].queue = f :: rest) :
    completeOnLine c u t (some .queue) = Run.tellOrigin c
      (u.modTrunk t fun y => { y with queue := rest }) f.origin .trunkDown :=
  completeHead_cons .trunkDown h

theorem completeOnLine_pass {p : PassSlot} (h : u.trunks[t].pass = some p) :
    completeOnLine c u t (some .pass) = Run.answerCompletion c
      (u.modTrunk t fun y => { y with pass := none }) p.req .trunkDown :=
  completePass_some .trunkDown h

/-- Only a frame of the command queue or of the pass slot is completed with the line. -/
theorem completeOnLine_eq (hq : u.trunks[t].queue = r.trunks[t].queue)
    (hp : u.trunks[t].pass = r.trunks[t].pass) (x : Option TxSource) :
    (match x, r.trunks[t].queue, r.trunks[t].pass with
      | some .queue, f :: rest, _ => Run.tellOrigin c
          (u.modTrunk t fun y => { y with queue := rest }) f.origin .trunkDown
      | some .pass, _, some p => Run.answerCompletion c
          (u.modTrunk t fun y => { y with pass := none }) p.req .trunkDown
      | _, _, _ => u) = completeOnLine c u t x := by
  rw [← hq, ← hp]
  cases x with
  | none => rfl
  | some x =>
    cases x with
    | queue =>
      cases h : u.trunks[t].queue with
      | nil => exact (completeHead_nil .trunkDown h).symm
      | cons f rest => exact (completeOnLine_queue h).symm
    | pass =>
      cases h : u.trunks[t].pass with
      | none => exact (completePass_none .trunkDown h).symm
      | some p => exact (completeOnLine_pass h).symm
    | hold | poll | setPoint a => rfl

theorem completePass_eq : Run.completePass c u t .trunkDown =
    match u.trunks[t].pass with
    | some p => Run.answerCompletion c (u.modTrunk t fun y => { y with pass := none }) p.req .trunkDown
    | none => u := by
  cases h : u.trunks[t].pass with
  | none => exact completePass_none .trunkDown h
  | some p => exact completePass_some .trunkDown h

theorem knownNodes_eq (r : Run) (t : Fin 4) : knownNodes r t =
    ((List.finRange 31).map (nodeAt t)).filter fun n => (nodeRt r n).liveness ≠ .unknown :=
  List.filter_congr fun n _ => by
    rw [bne, decide_not]
    rfl

theorem holdSlots_eq (c : Tables) (r : Run) (t : Fin 4) : Run.holdSlots c r t =
    ((List.finRange 6).filter fun a => c.axes[a].configured = true ∧ c.axes[a].drive.trunk = t).foldl
      (fun u a => u.modAxis a fun y => { y with setPoint := none })
      (r.modTrunk t fun y => { y with holdSet := [] }) := by
  have h : (axesWith c fun x => x.drive.trunk == t) =
      (List.finRange 6).filter fun a => c.axes[a].configured = true ∧ c.axes[a].drive.trunk = t :=
    List.filter_congr fun a _ => by simp [beq_eq_decide]
  rw [← h]
  rfl

/-- The trunk's known nodes all lie on the trunk. -/
theorem contains_known (r : Run) (t : Fin 4) (n : NodeId) :
    (n.trunk == t && (knownNodes r t).contains n) = decide (n ∈ knownNodes r t) := by
  rw [List.contains_eq_mem]
  by_cases h : n ∈ knownNodes r t
  · obtain ⟨i, -, rfl⟩ := List.mem_map.mp (List.mem_filter.mp h).1
    have ht : (nodeAt t i).trunk = t := rfl
    rw [ht, beq_self_eq_true, Bool.true_and]
  · rw [decide_eq_false h, Bool.and_false]

theorem channelsOf_known (c : Tables) (r : Run) (t : Fin 4) :
    (channelsOf c fun n => n.trunk == t && (knownNodes r t).contains n) =
      (List.finRange 32).filter fun ch =>
        c.channels[ch].configured = true ∧ c.channels[ch].source ∈ knownNodes r t :=
  List.filter_congr fun ch _ => by
    dsimp only
    rw [contains_known, Bool.decide_and, Bool.decide_eq_true]

/-- The two trunk requests are served in the same gateway states (R4). -/
theorem serves_release {s : State} (h : Serves s .trunkHold) : Serves s .trunkRelease := h

/-- A release of a trunk whose settle time is 0: the time runs out at once (log 34). -/
theorem settle_at_once (c : Tables) (r : Run) {t : Fin 4} (h : c.trunks[t].settle = 0) :
    Run.settle c r t = Run.settled c ((r.modTrunk t fun k =>
      { k with holdAsserted := false, state := .settling
               settleTimer := some 0 }).raise .trunkState t.val 2) t := by
  rw [settle_eq, if_pos h]
  unfold settlingNow
  rw [h]
  rfl

theorem settle_later (c : Tables) (r : Run) {t : Fin 4} (h : c.trunks[t].settle ≠ 0) :
    Run.settle c r t = (r.modTrunk t fun k =>
      { k with holdAsserted := false, state := .settling
               settleTimer := some (ms c.trunks[t].settle) }).raise .trunkState t.val 2 := by
  rw [settle_eq, if_neg h]
  rfl

/-- Settles O21: the two requests by the trunk's state, what a hold leaves, and what it does in order. -/
theorem trunkRequestsByState : Obligations.TrunkRequestsByState := by
  refine ⟨fun s src tag t h => ?_,
    holdTrunk_leaves, ?_, fun c r o => ⟨fun _ => rfl, fun _ => rfl, fun _ _ => rfl, fun _ _ => rfl,
      fun _ _ => rfl, fun _ => rfl⟩⟩
  · have h' := serves_release h
    refine ⟨trunkHold_taken src tag h, trunkHold_state src tag h, fun hx hn => ?_, fun hx hz => ?_,
      trunkRelease_state src tag h', fun b hb => ⟨?_, ?_⟩⟩
    · exact (trunkRelease_taken src tag h' hx).trans (by rw [settle_later _ _ hn])
    · exact (trunkRelease_taken src tag h' hx).trans (by rw [settle_at_once _ _ hz])
    · exact trunkHold_refused src tag (Nat.le_add_left 1 238) h (formTrunk_unknown hb)
    · exact trunkRelease_refused src tag (Nat.le_add_left 1 238) h' (formTrunk_unknown hb)
  · intro c r t nodes known held unknown onLine queue pass slots reports
    have hkeep : unknown.trunks[t] = heldRecord r.trunks[t] := unknownRun_record r t
    have ho : onLine = completeOnLine c unknown t (r.trunks[t].transaction.map (·.source)) :=
      completeOnLine_eq (by rw [hkeep]; rfl) (by rw [hkeep]; rfl) _
    have hheld : unknown.trunks[t].state ≠ .running := unknownRun_held r t
    have hw : pass = Run.holdWork c unknown t (r.trunks[t].transaction.map (·.source)) := by
      rw [holdWork_in_order _ hheld, ← ho]
      exact completePass_eq.symm
    have he : reports = emptiedRun c r t := by
      unfold emptiedRun
      rw [show unknownRun r t = unknown from rfl, ← hw, holdSlots_eq]
      rfl
    have hk : known = knownNodes r t := (knownNodes_eq r t).symm
    rw [holdTrunk_eq, channelsOf_known, ← he, ← hk]

end Sys2Proof.Machine
end

