-- ==== Sys2Proof/Proofs/Permits.lean ====
section
/-! PROOFS. The permit table (R25 to R27): the first entry that fits a request decides it, and what each term
reads. -/

namespace Sys2Proof.Machine

variable {c : Tables} {r : Run} {st : Word} {code : Byte}

/-! ### Searching a table in index order -/

section
variable {n : Nat} {α : Type} {f : Fin n → Option α} {a : α}

theorem findSome_finds (h : (List.finRange n).findSome? f = some a) :
    ∃ i, f i = some a ∧ ∀ j, j < i → f j = none := by
  obtain ⟨pre, i, post, hsplit, hi, hpre⟩ := List.findSome?_eq_some_iff.mp h
  refine ⟨i, hi, fun j hj => hpre j ?_⟩
  have hmem : j ∈ pre ++ i :: post := hsplit ▸ List.mem_finRange j
  have hsorted : (pre ++ i :: post).Pairwise (· < ·) := hsplit ▸ List.pairwise_lt_finRange n
  obtain ⟨-, hcons, -⟩ := List.pairwise_append.mp hsorted
  rcases List.mem_append.mp hmem with h | h
  · exact h
  · rcases List.mem_cons.mp h with rfl | h
    · exact absurd hj (lt_irrefl _)
    · exact absurd (List.rel_of_pairwise_cons hcons h) (not_lt.mpr hj.le)

theorem findSome_none : (List.finRange n).findSome? f = none ↔ ∀ i, f i = none := by
  simp [List.findSome?_eq_none_iff]

/-- The search answers with the first index at which there is something to find. -/
theorem findSome_first :
    (List.finRange n).findSome? f = some a ↔ ∃ i, f i = some a ∧ ∀ j, j < i → f j = none := by
  refine ⟨findSome_finds, fun ⟨i, hi, hbefore⟩ => ?_⟩
  cases hfound : (List.finRange n).findSome? f with
  | none => rw [findSome_none.mp hfound i] at hi; cases hi
  | some b =>
    obtain ⟨k, hk, hkbefore⟩ := findSome_finds hfound
    rcases lt_trichotomy i k with h | rfl | h
    · rw [hkbefore i h] at hi; cases hi
    · rw [← hk, hi]
    · rw [hbefore k h] at hk; cases hk
end

/-! ### The entry that decides -/

/-- An entry in use fits a request: its range of stations, its code and its terms (R25, R26). -/
def PermitFits (r : Run) (st : Word) (code : Byte) (p : Permit) : Prop :=
  p.first.toNat ≤ st.toNat ∧ st.toNat ≤ p.last.toNat ∧ (p.code = none ∨ p.code = some code) ∧
    ∀ u, p.term1 = some u ∨ p.term2 = some u → termHolds r u = true

theorem termsHold_iff {x : Option Term} :
    termsHold r x = true ↔ ∀ u, x = some u → termHolds r u = true := by
  cases x <;> simp [termsHold]

theorem permitMatches_iff {p : Permit} :
    permitMatches r st code p = true ↔ PermitFits r st code p := by
  unfold permitMatches PermitFits
  cases p.code <;>
    simp only [Bool.and_eq_true, decide_eq_true_iff, termsHold_iff, or_imp, forall_and, and_assoc,
      beq_iff_eq, true_or, Option.some.injEq, reduceCtorEq, false_or]

/-- What the search for the deciding entry finds at one index. -/
def permitAt (c : Tables) (r : Run) (st : Word) (code : Byte) (i : Fin 64) :
    Option (Fin 64 × PermitAction) :=
  match c.permits[i] with
  | some p => if permitMatches r st code p then some (i, p.action) else none
  | none => none

theorem decidingEntry_eq :
    decidingEntry c r st code = (List.finRange 64).findSome? (permitAt c r st code) := rfl

theorem permitAt_some {k i : Fin 64} {a : PermitAction} : permitAt c r st code k = some (i, a) ↔
    k = i ∧ ∃ p, c.permits[i] = some p ∧ p.action = a ∧ PermitFits r st code p := by
  unfold permitAt
  cases hp : c.permits[k] with
  | none =>
    refine ⟨fun h => (nomatch h), ?_⟩
    rintro ⟨rfl, p, hq, -⟩
    rw [hp] at hq
    cases hq
  | some p =>
    dsimp only
    split
    · next hm =>
      rw [permitMatches_iff] at hm
      constructor
      · rintro h
        cases h
        exact ⟨rfl, p, hp, rfl, hm⟩
      · rintro ⟨rfl, q, hq, rfl, -⟩
        rw [hp] at hq
        cases hq
        rfl
    · next hm =>
      rw [permitMatches_iff] at hm
      refine ⟨fun h => (nomatch h), ?_⟩
      rintro ⟨rfl, q, hq, -, hfits⟩
      rw [hp] at hq
      cases hq
      exact absurd hfits hm

theorem permitAt_none {k : Fin 64} : permitAt c r st code k = none ↔
    ∀ p, c.permits[k] = some p → ¬PermitFits r st code p := by
  constructor
  · intro h p hp hfits
    rw [(permitAt_some (a := p.action)).mpr ⟨rfl, p, hp, rfl, hfits⟩] at h
    cases h
  · intro h
    cases hk : permitAt c r st code k with
    | none => rfl
    | some x =>
      obtain ⟨i, a⟩ := x
      obtain ⟨rfl, p, hp, -, hfits⟩ := permitAt_some.mp hk
      exact absurd hfits (h p hp)

/-- The first entry that fits decides (R25). -/
theorem decidingEntry_some_iff {i : Fin 64} {a : PermitAction} :
    decidingEntry c r st code = some (i, a) ↔
      ∃ p, c.permits[i] = some p ∧ p.action = a ∧ PermitFits r st code p ∧
        ∀ j : Fin 64, j < i → ∀ q, c.permits[j] = some q → ¬PermitFits r st code q := by
  rw [decidingEntry_eq, findSome_first]
  simp only [permitAt_some, permitAt_none]
  constructor
  · rintro ⟨_, ⟨rfl, p, hp, ha, hfits⟩, hbefore⟩
    exact ⟨p, hp, ha, hfits, hbefore⟩
  · rintro ⟨p, hp, ha, hfits, hbefore⟩
    exact ⟨i, ⟨rfl, p, hp, ha, hfits⟩, hbefore⟩

theorem decidingEntry_none_iff : decidingEntry c r st code = none ↔
    ∀ (i : Fin 64) p, c.permits[i] = some p → ¬PermitFits r st code p := by
  rw [decidingEntry_eq, findSome_none]
  simp only [permitAt_none]

/-! ### What it decides (R27) -/

theorem judgePermit_forward {i : Fin 64} (h : decidingEntry c r st code = some (i, .forward)) :
    Run.judgePermit c r st code = (r, none) := by
  simp only [Run.judgePermit, h]

theorem judgePermit_note {i : Fin 64} (h : decidingEntry c r st code = some (i, .forwardNote)) :
    Run.judgePermit c r st code = (r.raise .permitNote i.val st, none) := by
  simp only [Run.judgePermit, h]

theorem judgePermit_refuse {i : Fin 64} (h : decidingEntry c r st code = some (i, .refuse)) :
    Run.judgePermit c r st code = (r, some (det i.val)) := by
  simp only [Run.judgePermit, h]

theorem judgePermit_default (h : decidingEntry c r st code = none) :
    Run.judgePermit c r st code = (r, if c.param.permitForward then none else some 0xFF) := by
  simp only [Run.judgePermit, h]
  rfl

/-! ### Lines as terms read them (R26, section 9.1) -/

theorem termHolds_line (l : Fin 14) (b : Bool) :
    termHolds r (.line ⟨l.val, by omega⟩ b) = (r.lines[l].accepted == b) := by
  simp only [termHolds, dif_pos l.isLt]
  rfl

theorem termHolds_line_unwired {l : Fin 16} (h : 14 ≤ l.val) (b : Bool) :
    termHolds r (.line l b) = !b := by
  simp only [termHolds, dif_neg (Nat.not_lt.mpr h)]
  cases b <;> rfl

/-- Settles O23: the first entry that fits, what its action or the default gives, and each term. -/
theorem permitTableDecides : Obligations.PermitTableDecides := fun _ _ _ _ =>
  ⟨fun _ _ => decidingEntry_some_iff, decidingEntry_none_iff, fun _ => judgePermit_forward,
    fun _ => judgePermit_note, fun _ => judgePermit_refuse, judgePermit_default, fun _ _ => rfl,
    fun _ _ => rfl, fun _ _ => rfl, fun _ _ => rfl, termHolds_line,
    fun _ b h => termHolds_line_unwired h b, fun _ _ => rfl, fun _ => rfl⟩

end Sys2Proof.Machine
end

