-- ==== Sys2Proof/Proofs/Forwarding.lean ====
section
/-! PROOFS. NODE COMMAND (R23, R28) and PASS REQUEST (R31): the route, then the request's own bytes, the permit
table, and what the trunk and the node let through (R53). -/

namespace Sys2Proof.Machine

variable {c : Tables} {r : Run} {n : NodeId} {req : Req}

/-! ### What an offer meets (R53) -/

/-- The node is no target of work: its slot is empty, or it is LOST (R53, log 59). -/
abbrev NodeGone (c : Tables) (r : Run) (n : NodeId) : Prop :=
  nodeCfg c n = none ∨ (nodeRt r n).liveness = .lost

theorem nodeGone_iff :
    ((nodeCfg c n).isNone || (nodeRt r n).liveness == .lost) = true ↔ NodeGone c r n := by
  simp [NodeGone]

theorem judgeOffer_notRunning (h : r.trunks[n.trunk].state ≠ .running) :
    judgeOffer c r n = .trunkDown := if_pos h

theorem judgeOffer_gone (h : r.trunks[n.trunk].state = .running) (hg : NodeGone c r n) :
    judgeOffer c r n = .nodeLost := by
  rw [judgeOffer, if_neg (not_not.mpr h), if_pos (nodeGone_iff.mpr hg)]

theorem judgeOffer_full (h : r.trunks[n.trunk].state = .running) (hg : ¬NodeGone c r n)
    (hq : 16 ≤ r.trunks[n.trunk].queue.length) : judgeOffer c r n = .queueFull := by
  rw [judgeOffer, if_neg (not_not.mpr h), if_neg (mt nodeGone_iff.mp hg)]
  exact if_pos hq

theorem judgeOffer_takes (h : r.trunks[n.trunk].state = .running) (hg : ¬NodeGone c r n)
    (hq : r.trunks[n.trunk].queue.length < 16) : judgeOffer c r n = .accepted := by
  rw [judgeOffer, if_neg (not_not.mpr h), if_neg (mt nodeGone_iff.mp hg)]
  exact if_neg (Nat.not_le.mpr hq)

/-! ### The permit table leaves the trunks and nodes alone -/

theorem judgePermit_frame (st : Word) (code : Byte) :
    (Run.judgePermit c r st code).1.trunks = r.trunks ∧
      (Run.judgePermit c r st code).1.nodes = r.nodes := by
  unfold Run.judgePermit
  split <;> exact ⟨rfl, rfl⟩

theorem judgePermit_trunks (st : Word) (code : Byte) :
    (Run.judgePermit c r st code).1.trunks = r.trunks := (judgePermit_frame st code).1

theorem judgePermit_gone (st : Word) (code : Byte) :
    NodeGone c (Run.judgePermit c r st code).1 n ↔ NodeGone c r n := by
  unfold NodeGone nodeRt
  rw [(judgePermit_frame st code).2]

/-! ### A request to a station (R2, R21) -/

section
variable {s : State} {src dst : Word} {tag : Byte} {payload : List Byte}

theorem answered_eq (s : State) (r : Run) (req : Req) (v : Verdict) (data : List Byte) :
    closed s (Run.answer s.cfg r req v.1 v.2 data) = answered s r req v data := rfl

theorem nodeCommand_judged (h : Listening s) (hg : s.run.gw ≠ .unconfigured) (hd : dst ≠ 0)
    (hl : payload.length ≤ 240) : exec (.nodeCommand src dst tag payload) s =
      closed s (Run.commandFrame s.cfg s.run { src, dst, tag } payload) := by
  obtain ⟨-, -, -, -, hdeck⟩ := exec_judgedByR2 s (.nodeCommand src dst tag payload) _ rfl hl h.1
  exact (hdeck h hd hg).2.1 rfl

theorem passRequest_judged (h : Listening s) (hg : s.run.gw ≠ .unconfigured) (hd : dst ≠ 0)
    (hl : payload.length ≤ 240) : exec (.passRequest src dst tag payload) s =
      closed s (Run.passFrame s.cfg s.run { src, dst, tag } payload) := by
  obtain ⟨-, -, -, -, hdeck⟩ := exec_judgedByR2 s (.passRequest src dst tag payload) _ rfl hl h.1
  exact (hdeck h hd hg).2.2 rfl

theorem nodeCommand_reaches (h : ReachesNode s dst n) (hl : payload.length ≤ 240) :
    exec (.nodeCommand src dst tag payload) s =
      closed s (Run.nodeCommand s.cfg s.run { src, dst, tag } n payload) := by
  obtain ⟨hs, hg, hd, hf⟩ := h
  rw [nodeCommand_judged hs hg hd hl]
  simp only [Run.commandFrame, hf]

theorem passRequest_reaches (h : ReachesNode s dst n) (hl : payload.length ≤ 240) :
    exec (.passRequest src dst tag payload) s =
      closed s (Run.passRequest s.cfg s.run { src, dst, tag } n payload) := by
  obtain ⟨hs, hg, hd, hf⟩ := h
  rw [passRequest_judged hs hg hd hl]
  simp only [Run.passFrame, hf]
end

/-! ### The request's own bytes -/

section
variable {code : Byte} {rest : List Byte}

theorem nodeCommand_badCode (h : code.toNat < 0x20 ∨ code = 0xFF) :
    Run.nodeCommand c r req n (code :: rest) = Run.answer c r req .badRequest 1 [] :=
  if_pos (h.imp_right fun he => by rw [he]; rfl)

theorem nodeCommand_goodCode (h : 0x20 ≤ code.toNat) (h' : code ≠ 0xFF) :
    ¬(code.toNat < 0x20 ∨ code.toNat = 0xFF) := by
  have : code.toNat ≠ 0xFF := fun he => h' (BitVec.eq_of_toNat_eq he)
  omega

theorem nodeCommand_long (h : 0x20 ≤ code.toNat) (h' : code ≠ 0xFF) (hl : 16 < rest.length) :
    Run.nodeCommand c r req n (code :: rest) = Run.answer c r req .badRequest 2 [] :=
  (if_neg (nodeCommand_goodCode h h')).trans (if_pos hl)

theorem nodeCommand_refused (h : 0x20 ≤ code.toNat) (h' : code ≠ 0xFF) (hl : rest.length ≤ 16) {d : Word}
    (hp : (Run.judgePermit c r req.dst code).2 = some d) :
    Run.nodeCommand c r req n (code :: rest) =
      Run.answer c (Run.judgePermit c r req.dst code).1 req .refused d [] := by
  simp only [Run.nodeCommand, if_neg (nodeCommand_goodCode h h'),
    if_neg (show ¬maxTrunkPayload < rest.length from Nat.not_lt.mpr hl), hp]

theorem nodeCommand_permitted (h : 0x20 ≤ code.toNat) (h' : code ≠ 0xFF) (hl : rest.length ≤ 16)
    (hp : (Run.judgePermit c r req.dst code).2 = none) :
    Run.nodeCommand c r req n (code :: rest) =
      Run.forward c (Run.judgePermit c r req.dst code).1 req n code rest := by
  simp only [Run.nodeCommand, if_neg (nodeCommand_goodCode h h'),
    if_neg (show ¬maxTrunkPayload < rest.length from Nat.not_lt.mpr hl), hp]

theorem passRequest_long (hl : 16 < rest.length) :
    Run.passRequest c r req n (code :: rest) = Run.answer c r req .badRequest 2 [] := if_pos hl

theorem passRequest_refused (hl : rest.length ≤ 16) {d : Word}
    (hp : (Run.judgePermit c r req.dst 0xFF#8).2 = some d) :
    Run.passRequest c r req n (code :: rest) =
      Run.answer c (Run.judgePermit c r req.dst 0xFF#8).1 req .refused d [] := by
  simp only [Run.passRequest, if_neg (show ¬maxTrunkPayload < rest.length from Nat.not_lt.mpr hl), hp]

theorem passRequest_permitted (hl : rest.length ≤ 16)
    (hp : (Run.judgePermit c r req.dst 0xFF#8).2 = none) :
    Run.passRequest c r req n (code :: rest) =
      Run.pass c (Run.judgePermit c r req.dst 0xFF#8).1 req n code rest := by
  simp only [Run.passRequest, if_neg (show ¬maxTrunkPayload < rest.length from Nat.not_lt.mpr hl), hp]

/-! ### A permitted request at its trunk -/

theorem forward_notRunning (h : r.trunks[n.trunk].state ≠ .running) :
    Run.forward c r req n code rest =
      Run.answer c r req .trunkDown (det r.trunks[n.trunk].state.code) [] := by
  simp only [Run.forward, judgeOffer_notRunning h]

theorem forward_gone (h : r.trunks[n.trunk].state = .running) (hg : NodeGone c r n) :
    Run.forward c r req n code rest = Run.answer c r req .nodeLost 0 [] := by
  simp only [Run.forward, judgeOffer_gone h hg]

theorem forward_full (h : r.trunks[n.trunk].state = .running) (hg : ¬NodeGone c r n)
    (hq : 16 ≤ r.trunks[n.trunk].queue.length) : Run.forward c r req n code rest =
      Run.answer c r req .queueFull (det n.trunk.val) [] := by
  simp only [Run.forward, judgeOffer_full h hg hq]

theorem forward_takes (h : r.trunks[n.trunk].state = .running) (hg : ¬NodeGone c r n)
    (hq : r.trunks[n.trunk].queue.length < 16) : Run.forward c r req n code rest =
      Run.enqueueFrame c r n code rest (.relay req) := by
  simp only [Run.forward, judgeOffer_takes h hg hq]

theorem pass_notRunning (h : r.trunks[n.trunk].state ≠ .running) :
    Run.pass c r req n code rest =
      Run.answer c r req .trunkDown (det r.trunks[n.trunk].state.code) [] := if_pos h

theorem pass_gone (h : r.trunks[n.trunk].state = .running) (hg : NodeGone c r n) :
    Run.pass c r req n code rest = Run.answer c r req .nodeLost 0 [] :=
  (if_neg (not_not.mpr h)).trans (if_pos (nodeGone_iff.mpr hg))

theorem pass_slot_taken (h : r.trunks[n.trunk].state = .running) (hg : ¬NodeGone c r n)
    {p : PassSlot} (hp : r.trunks[n.trunk].pass = some p) : Run.pass c r req n code rest =
      Run.answer c r req .busy (det (address p.slot)) [] := by
  simp only [Run.pass, if_neg (not_not.mpr h), if_neg (mt nodeGone_iff.mp hg), hp]

theorem pass_slot_free (h : r.trunks[n.trunk].state = .running) (hg : ¬NodeGone c r n)
    (hp : r.trunks[n.trunk].pass = none) :
    Run.pass c r req n code rest = Run.takePassSlot c r req n code rest := by
  simp only [Run.pass, if_neg (not_not.mpr h), if_neg (mt nodeGone_iff.mp hg), hp]
end

/-- Settles O22: the route, the bytes, the permit table and the trunk, in this order, for both requests. -/
theorem nodeCommandsAndPassRequestsAreJudged : Obligations.NodeCommandsAndPassRequestsAreJudged := by
  constructor
  · intro s src dst tag n req go
    refine ⟨fun hs hg hd payload hl => ⟨fun hf => ?_, fun f hf => ?_⟩,
      fun h => ⟨nodeCommand_reaches h (Nat.zero_le _), fun code rest hl => ?_⟩⟩
    · exact (nodeCommand_judged hs hg hd hl).trans (by simp only [Run.commandFrame, hf]; rfl)
    · exact (nodeCommand_judged hs hg hd hl).trans (by simp only [Run.commandFrame, hf]; rfl)
    have hgo {u : Run} (hu : Run.nodeCommand s.cfg s.run req n (code :: rest) = u) :
        go (code :: rest) = closed s u :=
      (nodeCommand_reaches h (payload := code :: rest) (Nat.succ_le_succ hl)).trans (congrArg (closed s) hu)
    refine ⟨fun hc => hgo (nodeCommand_badCode hc), fun hc hc' =>
      ⟨fun hl16 => hgo (nodeCommand_long hc hc' hl16), fun hl16 => ?_⟩⟩
    intro p k gone
    have hk : p.1.trunks[n.trunk] = k := by rw [judgePermit_trunks]
    have hgone : NodeGone s.cfg p.1 n ↔ gone := judgePermit_gone dst code
    rw [← hk, ← hgone]
    refine ⟨fun d hp => hgo (nodeCommand_refused hc hc' hl16 hp), fun hp => ?_⟩
    have hfwd := nodeCommand_permitted (c := s.cfg) (r := s.run) (req := req) (n := n) hc hc' hl16 hp
    exact ⟨fun hr => hgo (hfwd.trans (forward_notRunning hr)),
      fun hr hg => hgo (hfwd.trans (forward_gone hr hg)),
      fun hr hg hq => hgo (hfwd.trans (forward_full hr hg hq)),
      fun hr hg hq => hgo (hfwd.trans (forward_takes hr hg hq))⟩
  · intro s src dst tag n req go
    refine ⟨fun hs hg hd payload hl => ⟨fun hf => ?_, fun f hf => ?_⟩,
      fun h => ⟨passRequest_reaches h (Nat.zero_le _), fun code rest hl => ?_⟩⟩
    · exact (passRequest_judged hs hg hd hl).trans (by simp only [Run.passFrame, hf]; rfl)
    · exact (passRequest_judged hs hg hd hl).trans (by simp only [Run.passFrame, hf]; rfl)
    have hgo {u : Run} (hu : Run.passRequest s.cfg s.run req n (code :: rest) = u) :
        go (code :: rest) = closed s u :=
      (passRequest_reaches h (payload := code :: rest) (Nat.succ_le_succ hl)).trans (congrArg (closed s) hu)
    refine ⟨fun hl16 => hgo (passRequest_long hl16), fun hl16 => ?_⟩
    intro p k gone
    have hk : p.1.trunks[n.trunk] = k := by rw [judgePermit_trunks]
    have hgone : NodeGone s.cfg p.1 n ↔ gone := judgePermit_gone dst 0xFF
    rw [← hk, ← hgone]
    refine ⟨fun d hp => hgo (passRequest_refused hl16 hp), fun hp => ?_⟩
    have hpass := passRequest_permitted (c := s.cfg) (r := s.run) (req := req) (n := n)
      (code := code) hl16 hp
    exact ⟨fun hr => hgo (hpass.trans (pass_notRunning hr)),
      fun hr hg => hgo (hpass.trans (pass_gone hr hg)),
      fun hr hg x hx => hgo (hpass.trans (pass_slot_taken hr hg hx)),
      fun hr hg hx => hgo (hpass.trans (pass_slot_free hr hg hx))⟩

end Sys2Proof.Machine
end

