-- ==== Sys2Proof/Proofs/Replies.lean ====
section
/-! PROOFS. The judging of a reply (R46) and the completion of the frame on the line (R29, R30, R32, R55,
R56). -/

namespace Sys2Proof.Machine

/-! ### A reply's bytes (R46) -/

section
variable {slot : Fin 31} {before : List Byte}

theorem afterSync_missing : ∀ {before : List Byte}, (∀ b ∈ before, b ≠ 0xA5) → afterSync before = none
  | [], _ => rfl
  | _ :: _, h => (if_neg (h _ List.mem_cons_self)).trans
      (afterSync_missing fun b hb => h b (List.mem_cons_of_mem _ hb))

/-- Whatever comes before the sync byte is discarded. -/
theorem afterSync_found (rest : List Byte) : ∀ {before : List Byte}, (∀ b ∈ before, b ≠ 0xA5) →
    afterSync (before ++ 0xA5 :: rest) = some rest
  | [], _ => if_pos rfl
  | _ :: _, h => (if_neg (h _ List.mem_cons_self)).trans
      (afterSync_found rest fun b hb => h b (List.mem_cons_of_mem _ hb))

theorem judgeReply_missing (h : ∀ b ∈ before, b ≠ 0xA5) : judgeReply slot before = .missing := by
  simp only [judgeReply, afterSync_missing h]

/-- A reply that ends before its length byte. -/
theorem judgeReply_headless (h : ∀ b ∈ before, b ≠ 0xA5) {rest : List Byte} (hr : rest.length < 3) :
    judgeReply slot (before ++ 0xA5 :: rest) = .corrupt := by
  unfold judgeReply
  rw [afterSync_found rest h]
  match rest with
  | [] | [_] | [_, _] => rfl
  | _ :: _ :: _ :: _ => exact absurd hr (by simp)

theorem judgeReply_overlong (h : ∀ b ∈ before, b ≠ 0xA5) (a code : Byte) {len : Byte} (rest : List Byte)
    (hl : 16 < len.toNat) : judgeReply slot (before ++ 0xA5 :: a :: code :: len :: rest) = .corrupt := by
  simp only [judgeReply, afterSync_found _ h, if_pos hl]

theorem judgeReply_short (h : ∀ b ∈ before, b ≠ 0xA5) (a code : Byte) {len : Byte} {rest : List Byte}
    (hl : rest.length < len.toNat + 2) :
    judgeReply slot (before ++ 0xA5 :: a :: code :: len :: rest) = .corrupt := by
  simp only [judgeReply, afterSync_found _ h, if_pos hl, ite_self]

theorem w2_injective {v w : Word} (h : w2 v = w2 w) : v = w := by
  have := congrArg (fun l : List Byte => word2 (l.headD 0) (l.getLastD 0)) h
  simpa [w2] using this

/-- A reply with all its bytes: its CRC-16, then its address. -/
theorem judgeReply_whole (h : ∀ b ∈ before, b ≠ 0xA5) (a code : Byte) {payload : List Byte} (w : Word)
    (hl : payload.length ≤ 16) :
    judgeReply slot (before ++ 0xA5 :: a :: code :: (b1 payload.length ++ payload ++ w2 w)) =
      if w ≠ crc16 (a :: code :: (b1 payload.length ++ payload)) then .corrupt
      else if a ≠ BitVec.ofNat 8 (address slot + 128) then .corrupt
      else .good code payload := by
  have hlen : (BitVec.ofNat 8 payload.length).toNat = payload.length := by
    rw [BitVec.toNat_ofNat]; omega
  have hrest : (payload ++ w2 w).length = payload.length + 2 := by rw [List.length_append, w2_length]
  have hcrc : w2 (crc16 (a :: code :: (b1 payload.length ++ payload))) ≠ w2 w ↔
      w ≠ crc16 (a :: code :: (b1 payload.length ++ payload)) :=
    not_congr ⟨fun e => (w2_injective e).symm, fun e => by rw [← e]⟩
  have hbytes : b1 payload.length ++ payload ++ w2 w =
      BitVec.ofNat 8 payload.length :: (payload ++ w2 w) := rfl
  rw [hbytes]
  simp only [judgeReply, afterSync_found _ h, hlen, hrest, if_neg (Nat.not_lt.mpr hl),
    if_neg (lt_irrefl (payload.length + 2)), List.take_left, List.drop_left,
    List.take_of_length_le (Nat.le_of_eq (w2_length w))]
  exact if_congr hcrc rfl rfl

theorem judgeReply_wrongCrc (h : ∀ b ∈ before, b ≠ 0xA5) (a code : Byte) {payload : List Byte} {w : Word}
    (hl : payload.length ≤ 16) (hw : w ≠ crc16 (a :: code :: (b1 payload.length ++ payload))) :
    judgeReply slot (before ++ 0xA5 :: a :: code :: (b1 payload.length ++ payload ++ w2 w)) = .corrupt :=
  (judgeReply_whole h a code w hl).trans (if_pos hw)

theorem judgeReply_wrongAddress (h : ∀ b ∈ before, b ≠ 0xA5) {a : Byte} (code : Byte)
    {payload : List Byte} (hl : payload.length ≤ 16) (ha : a ≠ BitVec.ofNat 8 (address slot + 128)) :
    judgeReply slot (before ++ 0xA5 :: a :: code :: (b1 payload.length ++ payload ++
      w2 (crc16 (a :: code :: (b1 payload.length ++ payload))))) = .corrupt := by
  rw [judgeReply_whole h a code _ hl, if_neg (not_not.mpr rfl), if_pos ha]

theorem judgeReply_good (h : ∀ b ∈ before, b ≠ 0xA5) (code : Byte) {payload : List Byte}
    (hl : payload.length ≤ 16) :
    judgeReply slot (before ++ trunkWire slot true code payload) = .good code payload := by
  refine (judgeReply_whole h _ code _ hl).trans ?_
  rw [if_neg (not_not.mpr rfl)]
  exact if_neg (not_not.mpr rfl)

theorem byte_ne {m n : Nat} (hm : m < 256) (hn : n < 256) (h : m ≠ n) :
    BitVec.ofNat 8 m ≠ BitVec.ofNat 8 n := fun e => h <| by
  have := congrArg BitVec.toNat e
  rwa [BitVec.toNat_ofNat, BitVec.toNat_ofNat, Nat.mod_eq_of_lt hm, Nat.mod_eq_of_lt hn] at this

/-- Another node's address or a clear reply mark gives another address byte. -/
theorem judgeReply_otherFrame (h : ∀ b ∈ before, b ≠ 0xA5) {other : Fin 31} {mark : Bool}
    (ho : ¬(other = slot ∧ mark = true)) (code : Byte) {payload : List Byte}
    (hl : payload.length ≤ 16) :
    judgeReply slot (before ++ trunkWire other mark code payload) = .corrupt := by
  refine judgeReply_wrongAddress h code hl ?_
  cases mark with
  | false => exact byte_ne (by simp [address]; omega) (by simp [address]; omega) (by simp [address]; omega)
  | true =>
    have hne : other.val ≠ slot.val := fun e => ho ⟨Fin.ext e, rfl⟩
    exact byte_ne (by simp [address]; omega) (by simp [address]; omega) (by simp [address]; omega)

end

/-! ### The frame on the line is completed (R55, R56) -/

section
variable {c : Tables} {r : Run} {t : Fin 4} {k : Transaction}

theorem attemptsMade_queue {k : TrunkRt} {f : QFrame} {l : List QFrame} (h : k.queue = f :: l) :
    attemptsMade k .queue = some f.attempts := by
  simp only [attemptsMade, h, List.head?_cons, Option.map_some]

theorem attemptsMade_pass {k : TrunkRt} {p : PassSlot} (h : k.pass = some p) :
    attemptsMade k .pass = some p.attempts := by
  simp only [attemptsMade, h, Option.map_some]

/-- Before its third attempt a missed frame stays (R55). -/
theorem judgeAttempts_stays {m : Nat} (h : attemptsMade r.trunks[t] k.source = some m) (hm : m < 3) :
    Run.judgeAttempts c r t k = r := by
  simp only [Run.judgeAttempts, h]
  exact if_neg (Nat.not_le.mpr hm)

theorem judgeAttempts_completes (h : attemptsMade r.trunks[t] k.source = some 3) :
    Run.judgeAttempts c r t k = Run.completeSource c r t k.source (.noAnswer 3) := by
  simp only [Run.judgeAttempts, h]
  exact if_pos (le_refl 3)
end

/-- Settles O25: R46's table by the bytes behind the sync byte, then the completions of R56. -/
theorem repliesAreJudgedAndFramesComplete : Obligations.RepliesAreJudgedAndFramesComplete := by
  refine ⟨fun slot before h => ⟨judgeReply_missing h, fun code payload hl =>
      ⟨judgeReply_good h code hl, judgeReply_otherFrame h (fun e => Bool.noConfusion e.2) code hl,
        fun other ho => judgeReply_otherFrame h (fun e => ho e.1) code hl,
        fun a w => judgeReply_wrongCrc h a code hl⟩,
      fun a code payload hl ha => judgeReply_wrongAddress h code hl ha,
      fun rest => judgeReply_headless h, fun a code len rest => judgeReply_overlong h a code rest,
      fun a code len rest => judgeReply_short h a code⟩, ?_⟩
  intro c r t o req told
  have htold (u : Run) : Run.answerCompletion c u req o = told u := by cases o <;> rfl
  refine ⟨fun f l hq ho => ?_, fun p hp hreq => ?_, fun a => ⟨rfl, rfl, rfl⟩,
    fun k f l hk hq => ?_, fun k p hk hp => ?_⟩
  · refine (completeHead_cons o hq).trans ?_
    rw [ho]
    exact htold _
  · refine (completePass_some o hp).trans ?_
    rw [hreq]
    exact htold _
  · have hm : attemptsMade r.trunks[t] k.source = some f.attempts := by rw [hk, attemptsMade_queue hq]
    exact ⟨judgeAttempts_stays hm, fun h3 => by rw [judgeAttempts_completes (h3 ▸ hm), hk]⟩
  · have hm : attemptsMade r.trunks[t] k.source = some p.attempts := by rw [hk, attemptsMade_pass hp]
    exact ⟨judgeAttempts_stays hm, fun h3 => by rw [judgeAttempts_completes (h3 ▸ hm), hk]⟩

end Sys2Proof.Machine
end

