-- ==== Sys2Proof/Proofs/Losses.lean ====
section
/-! PROOFS. The loss of a node and its push to the users (R59, R63), the channels that turn stale (R147,
R156), and the fan-out of a good reply (R62). -/

namespace Sys2Proof.Machine

variable {c : Tables} {r : Run} {t : Fin 4} {k : Transaction} {n : NodeId}

/-! ### Users of a node, as propositions -/

theorem axesWith_eq {p : AxisCfg → Bool} {q : AxisCfg → Prop} [DecidablePred q]
    (h : ∀ x, p x = true ↔ q x) : axesWith c p =
      (List.finRange 6).filter fun a => c.axes[a].configured = true ∧ q c.axes[a] :=
  List.filter_congr fun a _ => by
    rw [Bool.decide_and, Bool.decide_eq_true, Bool.eq_iff_iff, Bool.and_eq_true, Bool.and_eq_true, h,
      decide_eq_true_iff]

theorem and_beq_eq (b : Bool) (x y : NodeId) : (b && x == y) = decide (b = true ∧ x = y) := by
  rw [Bool.decide_and, Bool.decide_eq_true, beq_eq_decide]

theorem doorsWith_eq : doorsWith c n = (List.finRange 32).filter fun d =>
    c.doors[d].configured = true ∧ c.doors[d].node = n :=
  List.filter_congr fun _ _ => and_beq_eq _ _ _

theorem channelsOf_node : (channelsOf c fun m => m == n) = (List.finRange 32).filter fun ch =>
    c.channels[ch].configured = true ∧ c.channels[ch].source = n :=
  List.filter_congr fun _ _ => and_beq_eq _ _ _

theorem areasNaming_eq : areasNaming c n = (List.finRange 16).filter fun i => n ∈ c.areas[i] :=
  List.filter_congr fun i _ => List.contains_eq_mem n c.areas[i]

theorem goneOf_iff {kind : NodeKind} {gone : List NodeId} :
    goneOf c kind gone n = true ↔ n ∈ gone ∧ nodeKind c n = some kind := by
  simp [goneOf]

/-! ### The work of a lost node (R59) -/

/-- How a frame that was never sent, or was sent without an answer, ends with its node (R59). -/
def lostOutcome (attempts : Nat) : Completion := if attempts = 0 then .nodeLost else .noAnswer attempts

/-- The frame on the line ends NO_ANSWER with its attempts, when R55 counts them. -/
def lostOnLine (c : Tables) (r : Run) (t : Fin 4) (source : TxSource) : Run :=
  match source, r.trunks[t].queue, r.trunks[t].pass with
  | .queue, f :: rest, _ => Run.tellOrigin c
      (r.modTrunk t fun y => { y with queue := rest }) f.origin (.noAnswer f.attempts)
  | .pass, _, some q => Run.answerCompletion c
      (r.modTrunk t fun y => { y with pass := none }) q.req (.noAnswer q.attempts)
  | _, _, _ => r

/-- The frame on the line, as the model completes it. -/
theorem lostOnLine_eq (source : TxSource) :
    (match attemptsMade r.trunks[t] source with
      | some m => Run.completeSource c r t source (.noAnswer m)
      | none => r) = lostOnLine c r t source := by
  unfold lostOnLine
  cases source with
  | queue =>
    cases hq : r.trunks[t].queue with
    | nil => simp only [attemptsMade, hq, List.head?_nil, Option.map_none]
    | cons f rest =>
      simp only [attemptsMade_queue hq]
      exact completeHead_cons _ hq
  | pass =>
    cases hp : r.trunks[t].pass with
    | none => simp only [attemptsMade, hp, Option.map_none]
    | some q =>
      simp only [attemptsMade_pass hp]
      exact completePass_some _ hp
  | hold | poll | setPoint a => rfl

/-- The frames of the lost node leave the command queue, from the head on. -/
def lostQueue (c : Tables) (r : Run) (t : Fin 4) (n : NodeId) : Run :=
  (r.trunks[t].queue.filter fun f => f.node = n).foldl
    (fun u f => Run.tellOrigin c (u.modTrunk t fun y =>
      { y with queue := y.queue.eraseP fun g => g.node = n }) f.origin (lostOutcome f.attempts)) r

theorem lostQueue_eq : (r.trunks[t].queue.filter fun f => f.node == n).foldl (Run.dropLostFrame c t) r =
    lostQueue c r t n := by
  have hfilter : (r.trunks[t].queue.filter fun f => f.node == n) =
      r.trunks[t].queue.filter fun f => f.node = n := List.filter_congr fun f _ => beq_eq_decide _ _
  unfold lostQueue
  rw [hfilter]
  refine List.foldl_ext _ _ _ fun u f hf => ?_
  have hn : f.node = n := of_decide_eq_true (List.mem_filter.mp hf).2
  have herase : (fun g : QFrame => g.node == f.node) = fun g => decide (g.node = n) := by
    rw [hn]
    exact funext fun g => beq_eq_decide _ _
  unfold Run.dropLostFrame
  rw [herase]
  rfl

/-- The pass request of the lost node leaves its slot. -/
def lostPass (c : Tables) (r : Run) (t : Fin 4) (slot : Fin 31) : Run :=
  match r.trunks[t].pass with
  | some q => if q.slot = slot then Run.answerCompletion c
      (r.modTrunk t fun y => { y with pass := none }) q.req (lostOutcome q.attempts) else r
  | none => r

theorem lostPass_eq (slot : Fin 31) : (match r.trunks[t].pass with
    | some q => if q.slot = slot then
        Run.completePass c r t (if q.attempts = 0 then .nodeLost else .noAnswer q.attempts) else r
    | none => r) = lostPass c r t slot := by
  unfold lostPass
  cases hp : r.trunks[t].pass with
  | none => rfl
  | some q =>
    dsimp only
    rw [completePass_some _ hp]
    rfl

/-- The frame on the line, the command queue, the pass slot, the hold set, the set points (R59). -/
theorem lostWork_in_order : Run.lostWork c r t k =
    ((List.finRange 6).filter fun a =>
        c.axes[a].configured = true ∧ c.axes[a].drive = nodeAt t k.slot).foldl
      (fun u a => u.modAxis a fun y => { y with setPoint := none })
      ((lostPass c (lostQueue c (lostOnLine c r t k.source) t (nodeAt t k.slot)) t k.slot).modTrunk t
        fun y => { y with holdSet := y.holdSet.filter fun i => i ≠ k.slot }) := by
  have hholds : (fun i : Fin 31 => i != k.slot) = fun i => decide (i ≠ k.slot) :=
    funext fun i => Bool.eq_iff_iff.mpr (by rw [bne_iff_ne, decide_eq_true_iff])
  rw [← lostPass_eq, ← lostQueue_eq, ← lostOnLine_eq, ← hholds,
    ← axesWith_eq (p := fun x => x.drive == nodeAt t k.slot) fun x => beq_iff_eq]
  rfl

/-- NODE_LOST, the work, the report entry, the push, the channels. -/
theorem nodeLost_in_order : Run.nodeLost c r t k =
    Run.turnStale c (Run.pushDown c .lost ((Run.lostWork c
        (r.raise .nodeLost (nodeIndex (nodeAt t k.slot)).val (k.code.zeroExtend 16)) t k).modReport
          (nodeIndex (nodeAt t k.slot)) fun _ => resetReport) [nodeAt t k.slot])
      ((List.finRange 32).filter fun ch =>
        c.channels[ch].configured = true ∧ c.channels[ch].source = nodeAt t k.slot) := by
  rw [← channelsOf_node]
  rfl

/-! ### The push of a loss or a hold (R63, R83, R85, R143) -/

section
variable {gone : List NodeId}

theorem axisTold_eq (off : List (Fin 6)) (a : Fin 6) : Run.axisTold c gone off r a =
    if c.axes[a].configured = true ∧
        ∃ n ∈ gone, c.axes[a].panel = some n ∧ n ∈ gone ∧ nodeKind c n = some .panel then
      Run.panelLost c (Run.judgePrereq c off r a) a else Run.judgePrereq c off r a := by
  unfold Run.axisTold
  refine if_congr ?_ rfl rfl
  rw [Bool.and_eq_true, Option.any_eq_true]
  refine and_congr_right fun _ => ⟨fun ⟨n, hn, hg⟩ => ?_,
    fun ⟨n, _, hn, hg⟩ => ⟨n, hn, goneOf_iff.mpr hg⟩⟩
  exact ⟨n, (goneOf_iff.mp hg).1, hn, goneOf_iff.mp hg⟩

theorem axesDown_in_order : Run.axesDown c r gone =
    (let off := (List.finRange 6).filter fun a => c.axes[a].configured = true ∧
        c.axes[a].drive ∈ gone ∧ nodeKind c c.axes[a].drive = some .drive
     (List.finRange 6).foldl (fun u a => Run.axisTold c gone off u a)
      (off.foldl (Run.axisOffline c) r)) := by
  unfold Run.axesDown
  rw [axesWith_eq (p := fun x => goneOf c .drive gone x.drive) fun x => goneOf_iff]

theorem doorsDown_eq : ((List.finRange 32).filter fun d =>
      c.doors[d].configured && goneOf c .door gone c.doors[d].node) =
    (List.finRange 32).filter fun d => c.doors[d].configured = true ∧
      c.doors[d].node ∈ gone ∧ nodeKind c c.doors[d].node = some .door :=
  List.filter_congr fun d _ => Bool.eq_iff_iff.mpr (by
    rw [Bool.and_eq_true, goneOf_iff, decide_eq_true_iff])

theorem areaTold_eq (l : Liveness) (i : Fin 16) : Run.areaTold c l gone r i =
    (gone.filter fun n => nodeKind c n = some .amp ∧ n ∈ c.areas[i]).foldl
      (fun u n => Run.ampChanged c n l u i) r := by
  unfold Run.areaTold
  refine congrArg (List.foldl _ r) (List.filter_congr fun n hn => Bool.eq_iff_iff.mpr ?_)
  rw [Bool.and_eq_true, goneOf_iff, List.contains_eq_mem, decide_eq_true_iff, decide_eq_true_iff]
  exact and_congr_left fun _ => and_iff_right hn

theorem pushMissing_eq : Run.pushMissing c r n =
    if nodeKind c n = some .amp then ((List.finRange 16).filter fun i => n ∈ c.areas[i]).foldl
      (fun u i => Run.ampChanged c n .missing u i) r else r := by
  unfold Run.pushMissing
  rw [areasNaming_eq]
  cases nodeKind c n with
  | none => rfl
  | some kind => cases kind <;> rfl
end

/-! ### The fan-out of a good reply (R62, R184) -/

section
variable {before : Liveness} {payload : List Byte}

/-- The unit of the node's kind, then the channels, then the report table (R62). -/
theorem fanOut_in_order : Run.fanOut c r n before payload = Run.judgeReport c
    (Run.channelReply c (Run.fanOutKind c r n before payload) n payload) n payload
    (Run.channelReply c (Run.fanOutKind c r n before payload) n payload).clock.ms := by
  simp only [Run.fanOut]

theorem driveStatus_short (h : payload.length < 5) : driveStatus payload = none := by
  match payload with
  | [] | [_] | [_, _] | [_, _, _] | [_, _, _, _] => rfl
  | _ :: _ :: _ :: _ :: _ :: _ => simp only [List.length_cons] at h; omega

theorem doorStatus_short (h : payload.length < 2) : doorStatus payload = none := by
  match payload with
  | [] | [_] => rfl
  | _ :: _ :: _ => simp only [List.length_cons] at h; omega

theorem doorStatus_unknown {q : Byte} (h : 3 < q.toNat) (f : Byte) (rest : List Byte) :
    doorStatus (q :: f :: rest) = none := by
  obtain ⟨m, hm⟩ : ∃ m, q.toNat = m + 4 := ⟨q.toNat - 4, by omega⟩
  simp only [doorStatus, hm]

theorem doorStatus_read {q : Byte} {position : DoorPosition} (h : q.toNat = position.code) (f : Byte)
    (rest : List Byte) : doorStatus (q :: f :: rest) = some
      { position, obstruction := f.getLsbD 0, transitRequest := f.getLsbD 1
        localFault := f.getLsbD 2 } := by
  cases position <;> simp only [doorStatus, h, DoorPosition.code]

theorem panelCommand_read (b : Byte) (rest : List Byte) : panelCommand (b :: rest) =
    some (if b.getLsbD 0 = true ∧ b.getLsbD 1 = false then .raise
      else if b.getLsbD 0 = false ∧ b.getLsbD 1 = true then .lower else .none) := by
  cases h0 : b.getLsbD 0 <;> cases h1 : b.getLsbD 1 <;> simp only [panelCommand, h0, h1] <;> rfl

theorem fanOutKind_drive (hk : nodeKind c n = some .drive) {d : DriveStatus}
    (hd : driveStatus payload = some d) : Run.fanOutKind c r n before payload =
      ((List.finRange 6).filter fun a => c.axes[a].configured = true ∧ c.axes[a].drive = n).foldl
        (fun u a => Run.driveReply c u a d) r := by
  rw [← axesWith_eq (p := fun x => x.drive == n) fun x => beq_iff_eq]
  simp only [Run.fanOutKind, hk, hd]

theorem fanOutKind_panel (hk : nodeKind c n = some .panel) {p : PanelCommand}
    (hp : panelCommand payload = some p) : Run.fanOutKind c r n before payload =
      ((List.finRange 6).filter fun a => c.axes[a].configured = true ∧ c.axes[a].panel = some n).foldl
        (fun u a => Run.panelReply c u a p) r := by
  rw [← axesWith_eq (p := fun x => x.panel == some n) fun x => beq_iff_eq]
  simp only [Run.fanOutKind, hk, hp]

theorem fanOutKind_door (hk : nodeKind c n = some .door) {st : DoorStatus}
    (hst : doorStatus payload = some st) : Run.fanOutKind c r n before payload =
      ((List.finRange 32).filter fun d => c.doors[d].configured = true ∧ c.doors[d].node = n).foldl
        (fun u d => Run.doorReply c u d st) r := by
  rw [← doorsWith_eq]
  simp only [Run.fanOutKind, hk, hst]

theorem fanOutKind_amp (hk : nodeKind c n = some .amp) : Run.fanOutKind c r n before payload =
    ((List.finRange 16).filter fun i => n ∈ c.areas[i]).foldl
      (fun u i => Run.ampFanOut c n before payload u i) r := by
  rw [← areasNaming_eq]
  simp only [Run.fanOutKind, hk]

/-- A reply that does not meet its kind's layout, or whose kind has no unit, reaches no unit (R184). -/
theorem fanOutKind_none
    (h : nodeKind c n = some .drive ∧ driveStatus payload = none ∨
      nodeKind c n = some .panel ∧ panelCommand payload = none ∨
      nodeKind c n = some .door ∧ doorStatus payload = none ∨
      nodeKind c n = some .sensor ∨ nodeKind c n = some .generic ∨ nodeKind c n = none) :
    Run.fanOutKind c r n before payload = r := by
  rcases h with ⟨hk, hs⟩ | ⟨hk, hs⟩ | ⟨hk, hs⟩ | hk | hk | hk
  · simp only [Run.fanOutKind, hk, hs]
  · simp only [Run.fanOutKind, hk, hs]
  · simp only [Run.fanOutKind, hk, hs]
  · simp only [Run.fanOutKind, hk]
  · simp only [Run.fanOutKind, hk]
  · simp only [Run.fanOutKind, hk]
end

/-! ### Channels that turn stale (R147, R156) -/

/-- The flags are set channel by channel; those that were clear are listed. -/
theorem markStale_all {l : List (Fin 32)} (hl : l.Nodup) (acc : Run × List (Fin 32)) :
    let marked := l.foldl Run.markStale acc
    marked.1 = { acc.1 with channels := marked.1.channels } ∧
    (∀ ch : Fin 32, marked.1.channels[ch] =
      if ch ∈ l then { acc.1.channels[ch] with stale := true, timer := none }
      else acc.1.channels[ch]) ∧
    marked.2 = acc.2 ++ l.filter fun ch => acc.1.channels[ch].stale = false := by
  induction l generalizing acc with
  | nil => exact ⟨rfl, fun ch => (if_neg List.not_mem_nil).symm, by simp⟩
  | cons x l ih =>
    obtain ⟨hx, hl⟩ := List.nodup_cons.mp hl
    obtain ⟨hframe, hchan, hlist⟩ := ih hl (Run.markStale acc x)
    have hother {ch : Fin 32} (h : ch ≠ x) :
        (Run.markStale acc x).1.channels[ch] = acc.1.channels[ch] := Run.modChannel_ne _ _ _ _ h
    refine ⟨hframe, fun ch => ?_, ?_⟩
    · refine (hchan ch).trans ?_
      by_cases he : ch = x
      · subst he
        rw [if_neg hx, if_pos List.mem_cons_self]
        exact Run.modChannel_self _ _ _
      · rw [hother he]
        exact if_congr (by rw [List.mem_cons]; exact (or_iff_right he).symm) rfl rfl
    · refine hlist.trans ?_
      have hrest : (l.filter fun ch => (Run.markStale acc x).1.channels[ch].stale = false) =
          l.filter fun ch => acc.1.channels[ch].stale = false :=
        List.filter_congr fun ch hch => by rw [hother fun e => hx (e ▸ hch)]
      rw [hrest, List.filter_cons, Run.markStale]
      cases acc.1.channels[x].stale <;> simp

theorem turnStale_eq (l : List (Fin 32)) : Run.turnStale c r l = (List.finRange 16).foldl
    (Run.judgeStale c (l.foldl Run.markStale (r, [])).2) (l.foldl Run.markStale (r, [])).1 := rfl

theorem turnStale_in_order {l : List (Fin 32)} (hl : l.Nodup) : ∃ marked : Run,
    marked = { r with channels := marked.channels } ∧
    (∀ ch : Fin 32, marked.channels[ch] =
      if ch ∈ l then { r.channels[ch] with stale := true, timer := none } else r.channels[ch]) ∧
    Run.turnStale c r l = (List.finRange 16).foldl
      (Run.judgeStale c (l.filter fun ch => r.channels[ch].stale = false)) marked := by
  obtain ⟨hframe, hchan, hlist⟩ := markStale_all hl (r, [])
  refine ⟨_, hframe, hchan, ?_⟩
  rw [turnStale_eq, hlist, List.nil_append]

section
variable {l : List (Fin 32)} {m : Fin 16}

/-- The monitor's state reads a channel of the list. -/
abbrev ReadsOneOf (c : Tables) (r : Run) (l : List (Fin 32)) (m : Fin 16) : Prop :=
  r.monitors[m].enabled = true ∧ (currentState c r m).channel ∈ l

theorem readsOneOf_iff :
    (r.monitors[m].enabled && l.contains (currentState c r m).channel) = true ↔ ReadsOneOf c r l m := by
  rw [Bool.and_eq_true, List.contains_eq_mem, decide_eq_true_iff]

theorem judgeStale_other (h : ¬ReadsOneOf c r l m) : Run.judgeStale c l r m = r :=
  if_neg (mt readsOneOf_iff.mp h)

theorem judgeStale_enters (h : ReadsOneOf c r l m) {j : Fin 8}
    (hj : (currentState c r m).onStale = some j) : Run.judgeStale c l r m =
      (Run.enterState c r m j).raise .monitorStale m.val
        (det2 (currentState c r m).channel.val j.val) := by
  simp only [Run.judgeStale, if_pos (readsOneOf_iff.mpr h), hj]

theorem judgeStale_holds (h : ReadsOneOf c r l m) (hj : (currentState c r m).onStale = none) :
    Run.judgeStale c l r m = (r.modMonitor m fun x => { x with holdTimer := none }).raise
      .monitorStale m.val (det2 (currentState c r m).channel.val 255) := by
  simp only [Run.judgeStale, if_pos (readsOneOf_iff.mpr h), hj]
end

/-- Settles O29: a loss in the order of R59, its push, the stale channels, and the fan-out of a reply. -/
theorem lossesAndRepliesReachTheUsers : Obligations.LossesAndRepliesReachTheUsers := by
  refine ⟨fun c r t k => nodeLost_in_order, fun c r t k => ?_, fun c l r gone => ?_,
    fun c r n => pushMissing_eq, fun c r n before payload => ?_, fun c r l => turnStale_in_order,
    fun c l r m => ⟨judgeStale_other, fun h => ⟨fun j => judgeStale_enters h, judgeStale_holds h⟩⟩⟩
  · exact lostWork_in_order
  · intro is off axes doors
    have hax : Run.axesDown c r gone = axes := axesDown_in_order.trans
      (List.foldl_ext _ _ _ fun u a _ => axisTold_eq off a)
    have hareas : Run.areaTold c l gone = fun u i =>
        (gone.filter fun n => nodeKind c n = some .amp ∧ n ∈ c.areas[i]).foldl
          (fun u n => Run.ampChanged c n l u i) u := funext fun u => funext fun i => areaTold_eq l i
    unfold Run.pushDown
    rw [hareas, doorsDown_eq, hax]
  · dsimp only
    refine ⟨fanOut_in_order, fun hk => ⟨fun hl => ?_, ?_⟩, fun hk => ⟨?_, ?_⟩,
      fun hk => ⟨fun hl => ?_, fun q f rest hp => ⟨fun hq => ?_, fun position hq => ?_⟩⟩,
      fun hk => fanOutKind_amp hk, fun hk => ?_⟩
    · exact fanOutKind_none (.inl ⟨hk, driveStatus_short hl⟩)
    · rintro p1 p2 q1 q2 f rest rfl
      exact fanOutKind_drive hk rfl
    · rintro rfl
      exact fanOutKind_none (.inr (.inl ⟨hk, rfl⟩))
    · rintro b rest rfl
      exact fanOutKind_panel hk (panelCommand_read b rest)
    · exact fanOutKind_none (.inr (.inr (.inl ⟨hk, doorStatus_short hl⟩)))
    · exact fanOutKind_none (.inr (.inr (.inl ⟨hk, by rw [hp, doorStatus_unknown hq]⟩)))
    · exact fanOutKind_door hk (by rw [hp, doorStatus_read hq])
    · exact fanOutKind_none (.inr (.inr (.inr hk)))

end Sys2Proof.Machine
end

