-- ==== Sys2Proof/Proofs/Forms.lean ====
section
/-! PROOFS. Function requests judged on their form (R22, R71, R90, R123, R135, R166): the codes a function
takes, then each form field by field, and a request that reaches no function (R21). -/

namespace Sys2Proof.Machine

/-! ### Fields of one and two bytes -/

section
variable {lo hi : Nat} {b : Byte}

theorem refuses_nat1_nil (lo hi : Nat) : Refuses (nat1 lo hi) [] := fun _ => rfl

theorem refuses_nat1 (h : b.toNat < lo ∨ hi < b.toNat) (rest : List Byte) :
    Refuses (nat1 lo hi) (b :: rest) :=
  refuses_num1_then (need_false (by simp; omega) _) rest

theorem nat1_ok (h : lo ≤ b.toNat) (h' : b.toNat ≤ hi) (field : Nat) (rest : List Byte) :
    nat1 lo hi { field, bytes := b :: rest } = .ok (b.toNat, { field, bytes := rest }) := by
  unfold nat1
  rw [bind_ok (num1_ok field b rest), need_true (by simp [h, h'])]
  rfl

theorem refuses_word_nil : Refuses word [] := fun _ => rfl

theorem refuses_word_one (b : Byte) : Refuses word [b] := fun _ => rfl

/-- Two bytes, then a test that fails. -/
theorem refuses_word_then {α : Type} {f : Word → Parse α} {x y : Byte} (h : f (word2 x y) = bad)
    (rest : List Byte) : Refuses (word >>= f) (x :: y :: rest) := fun field => by
  rw [bind_ok (word_ok field x y rest), h]
  rfl

theorem refuses_nat2 {x y : Byte} (h : (word2 x y).toNat < lo ∨ hi < (word2 x y).toNat)
    (rest : List Byte) : Refuses (nat2 lo hi) (x :: y :: rest) :=
  refuses_word_then (f := fun w => need (decide (lo ≤ w.toNat) && decide (w.toNat ≤ hi)) w.toNat)
    (need_false (by simp; omega) _) rest

theorem nat2_ok {x y : Byte} (h : lo ≤ (word2 x y).toNat) (h' : (word2 x y).toNat ≤ hi) (field : Nat)
    (rest : List Byte) : nat2 lo hi { field, bytes := x :: y :: rest } =
      .ok ((word2 x y).toNat, { field, bytes := rest }) := by
  unfold nat2
  rw [bind_ok (word_ok field x y rest), need_true (by simp [h, h'])]
  rfl

theorem refuses_wordNeed {ok : Word → Bool} {x y : Byte} (h : ok (word2 x y) = false)
    (rest : List Byte) : Refuses (word >>= fun w => need (ok w) w) (x :: y :: rest) :=
  refuses_word_then (f := fun w => need (ok w) w) (need_false h _) rest

theorem wordNeed_ok {ok : Word → Bool} {x y : Byte} (h : ok (word2 x y) = true) (field : Nat)
    (rest : List Byte) : (word >>= fun w => need (ok w) w) { field, bytes := x :: y :: rest } =
      .ok (word2 x y, { field, bytes := rest }) := by
  rw [bind_ok (word_ok field x y rest), need_true h]
  rfl

/-- A signed field of two bytes is never outside its range. -/
theorem sint2_ok (x y : Byte) (field : Nat) (rest : List Byte) :
    sint2 (-32768) 32767 { field, bytes := x :: y :: rest } =
      .ok ((word2 x y).toInt, { field, bytes := rest }) := by
  have hlo : -32768 ≤ (word2 x y).toInt := BitVec.le_toInt _
  have hhi : (word2 x y).toInt < 32768 := BitVec.toInt_lt
  unfold sint2
  rw [bind_ok (word_ok field x y rest), need_true (by simp; omega)]
  rfl
end

/-! ### Requests that reach a function -/

/-- The request is answered BAD_REQUEST with the field's number, and nothing else happens. -/
abbrev FormRefused (s : State) (src dst : Word) (tag : Byte) (i : Instr) (field : Nat) : Prop :=
  exec i s = answered s s.run { src, dst, tag } (.badRequest, det field) []

theorem withForm_error {α : Type} {p : Parse α} {body : List Byte} {n : Nat}
    (h : p.run' 1 body = .error n) (r : Run) (k : α → Reply) : withForm p body r k = badForm r n := by
  simp only [withForm, h]

/-- The highest code a function takes. -/
def codesTaken : Function → Nat
  | .axis _ => 7
  | .plan | .zone _ | .monitor _ => 3
  | .door _ | .calls | .lines => 2

/-- A code the function does not take (R22). -/
theorem functionRequest_unknown (c : Tables) (r : Run) (f : Function) {code : Nat}
    (h : code = 0 ∨ codesTaken f < code) (body : List Byte) :
    functionRequest c r f code body = badForm r 0 := by
  rcases h with rfl | h
  · cases f <;> rfl
  · obtain ⟨m, rfl⟩ : ∃ m, code = codesTaken f + (m + 1) := ⟨code - codesTaken f - 1, by omega⟩
    cases f <;> simp only [codesTaken, Nat.add_comm _ (m + 1)] <;> rfl

section
variable {s : State} {src dst : Word} {tag : Byte} {f : Function} {n : Nat} {body : List Byte}

theorem requested_refused (h : Reaches s dst f) (code : Byte)
    (hq : functionRequest s.cfg s.run f code.toNat body = badForm s.run n)
    (hl : body.length ≤ 239 := by simp only [List.length_cons, List.length_nil] <;> omega) :
    s.requested src dst tag code body =
      answered s s.run { src, dst, tag } (.badRequest, det n) [] := by
  rw [requested_reaches h src tag code hl, hq]
  rfl

theorem move_refused {a : Fin 6} (h : Reaches s dst (.axis a)) (hp : formMove.run' 1 body = .error n)
    (hl : body.length ≤ 239 := by simp only [List.length_cons, List.length_nil] <;> omega) :
    FormRefused s src dst tag (.move src dst tag body) n :=
  requested_refused h 1 (withForm_error hp _ _) hl

theorem derate_refused {a : Fin 6} (h : Reaches s dst (.axis a)) (hp : formDerate.run' 1 body = .error n)
    (hl : body.length ≤ 239 := by simp only [List.length_cons, List.length_nil] <;> omega) :
    FormRefused s src dst tag (.derate src dst tag body) n :=
  requested_refused h 7 (withForm_error hp _ _) hl

theorem planStart_refused (h : Reaches s dst .plan) (hp : formPlanStart.run' 1 body = .error n)
    (hl : body.length ≤ 239 := by simp only [List.length_cons, List.length_nil] <;> omega) :
    FormRefused s src dst tag (.planStart src dst tag body) n :=
  requested_refused h 1 (withForm_error hp _ _) hl

theorem zoneClose_refused {z : Fin 8} (h : Reaches s dst (.zone z)) (hp : formZoneClose.run' 1 body = .error n)
    (hl : body.length ≤ 239 := by simp only [List.length_cons, List.length_nil] <;> omega) :
    FormRefused s src dst tag (.zoneClose src dst tag body) n :=
  requested_refused h 1 (withForm_error hp _ _) hl

theorem setOutputRequest_refused (h : Reaches s dst .lines) (hp : formSetOutput.run' 1 body = .error n)
    (hl : body.length ≤ 239 := by simp only [List.length_cons, List.length_nil] <;> omega) :
    FormRefused s src dst tag (.linesSetOutput src dst tag body) n :=
  requested_refused h 2 (withForm_error hp _ _) hl

theorem placeCall_refused (h : Reaches s dst .calls) (hp : formPlaceCall.run' 1 body = .error n)
    (hl : body.length ≤ 239 := by simp only [List.length_cons, List.length_nil] <;> omega) :
    FormRefused s src dst tag (.placeCall src dst tag body) n :=
  requested_refused h 1 (withForm_error hp _ _) hl

theorem withdrawCall_refused (h : Reaches s dst .calls) (hp : formWithdraw.run' 1 body = .error n)
    (hl : body.length ≤ 239 := by simp only [List.length_cons, List.length_nil] <;> omega) :
    FormRefused s src dst tag (.withdrawCall src dst tag body) n :=
  requested_refused h 2 (withForm_error hp _ _) hl

/-- A request to the function with a code it does not take. -/
theorem requested_unknown (h : Reaches s dst f) (code : Byte) (hc : codesTaken f < code.toNat)
    (hl : body.length ≤ 239) : s.requested src dst tag code body =
      answered s s.run { src, dst, tag } (.badRequest, det 0) [] :=
  requested_refused h code (functionRequest_unknown _ _ f (.inr hc) body) hl
end

/-! ### Axis, zone and line forms, field by field -/

section
variable {b b' x y k : Byte} {more : List Byte}

theorem formMove_noTarget : formMove.run' 1 [] = .error 1 ∧ formMove.run' 1 [b] = .error 1 := ⟨rfl, rfl⟩

theorem formMove_target (rest : List Byte) :
    fld (sint2 (-32768) 32767) { field := 1, bytes := x :: y :: rest } =
      .ok ((word2 x y).toInt, { field := 2, bytes := rest }) := fld_ok (sint2_ok x y 1 rest)

theorem formMove_noLock : formMove.run' 1 [x, y] = .error 2 :=
  form_refused ((bind_ok (formMove_target [])).trans (refuses_bool1_nil.fld.bind 2))

theorem formMove_lock (h : 1 < k.toNat) : formMove.run' 1 (x :: y :: k :: more) = .error 2 :=
  form_refused ((bind_ok (formMove_target _)).trans ((refuses_bool1 h more).fld.bind 2))

theorem formMove_more (h : k.toNat ≤ 1) : formMove.run' 1 (x :: y :: k :: b :: more) = .error 3 :=
  form_more ((bind_ok (formMove_target _)).trans (bind_ok (fld_ok (bool1_ok h 2 _))))

theorem formDerate_missing : formDerate.run' 1 [] = .error 1 ∧ formDerate.run' 1 [b] = .error 1 :=
  ⟨rfl, rfl⟩

theorem formDerate_more : formDerate.run' 1 (x :: y :: b :: more) = .error 2 :=
  form_more (fld_ok (nat2_ok (Nat.zero_le _) (Nat.le_of_lt_succ (word2 x y).isLt) 1 _))

theorem formZoneClose_missing : formZoneClose.run' 1 [] = .error 1 := rfl

theorem formZoneClose_range (h : 1 < b.toNat) : formZoneClose.run' 1 (b :: more) = .error 1 :=
  form_refused ((refuses_bool1 h more).fld 1)

theorem formZoneClose_more (h : b.toNat ≤ 1) : formZoneClose.run' 1 (b :: x :: more) = .error 2 :=
  form_more (fld_ok (bool1_ok h 1 _))

theorem formSetOutput_output (h : 4 ≤ b.toNat) : formSetOutput.run' 1 (b :: more) = .error 1 :=
  form_refused ((refuses_fin1 h more).fld.bind 1)

theorem formSetOutput_missingLevel (h : b.toNat < 4) : formSetOutput.run' 1 [b] = .error 2 :=
  form_refused ((bind_ok (fld_ok (fin1_ok h 1 _))).trans (refuses_bool1_nil.fld.bind 2))

theorem formSetOutput_level (h : b.toNat < 4) (h' : 1 < x.toNat) :
    formSetOutput.run' 1 (b :: x :: more) = .error 2 :=
  form_refused ((bind_ok (fld_ok (fin1_ok h 1 _))).trans ((refuses_bool1 h' more).fld.bind 2))

theorem formSetOutput_more (h : b.toNat < 4) (h' : x.toNat ≤ 1) :
    formSetOutput.run' 1 (b :: x :: y :: more) = .error 3 :=
  form_more ((bind_ok (fld_ok (fin1_ok h 1 _))).trans (bind_ok (fld_ok (bool1_ok h' 2 _))))

/-! ### WITHDRAW CALL (R135) -/

/-- What a WITHDRAW CALL names can be named: an id of 1..255, or an origin of chapter 7 (log 6). -/
abbrev NamesCalls (b : Byte) (w : Word) : Prop :=
  b.toNat = 0 ∧ 1 ≤ w.toNat ∧ w.toNat ≤ 255 ∨ b.toNat = 1 ∧ originOfCode w ≠ none

/-- The model's test of the second field, for a selector that is read. -/
def withdrawTest (sel : Nat) (w : Word) : Bool :=
  if sel = 0 then decide (1 ≤ w.toNat) && decide (w.toNat ≤ 255) else (originOfCode w).isSome

theorem withdrawTest_iff (h : b.toNat ≤ 1) (w : Word) :
    withdrawTest b.toNat w = true ↔ NamesCalls b w := by
  unfold NamesCalls withdrawTest
  rw [← Option.isSome_iff_ne_none]
  split
  · next h0 => simp [h0]
  · next h0 => simp [show b.toNat = 1 by omega]

theorem formWithdraw_selector (h : 1 < b.toNat) : formWithdraw.run' 1 (b :: more) = .error 1 :=
  form_refused ((refuses_nat1 (.inr h) more).fld.bind 1)

theorem formWithdraw_noName (h : b.toNat ≤ 1) :
    formWithdraw.run' 1 [b] = .error 2 ∧ formWithdraw.run' 1 [b, x] = .error 2 :=
  have hb (rest : List Byte) := bind_ok (fld_ok (nat1_ok (Nat.zero_le _) h 1 rest))
  ⟨form_refused ((hb []).trans (refuses_word_nil.bind.fld.bind 2)),
    form_refused ((hb [x]).trans ((refuses_word_one x).bind.fld.bind 2))⟩

theorem formWithdraw_name (h : b.toNat ≤ 1) (hw : ¬NamesCalls b (word2 x y)) :
    formWithdraw.run' 1 (b :: x :: y :: more) = .error 2 :=
  form_refused ((bind_ok (fld_ok (nat1_ok (Nat.zero_le _) h 1 _))).trans
    ((refuses_wordNeed (ok := withdrawTest b.toNat)
      (Bool.eq_false_iff.mpr (mt (withdrawTest_iff h _).mp hw)) more).fld.bind 2))

theorem formWithdraw_more (hw : NamesCalls b (word2 x y)) :
    formWithdraw.run' 1 (b :: x :: y :: k :: more) = .error 3 := by
  have h : b.toNat ≤ 1 := by rcases hw with ⟨h, -⟩ | ⟨h, -⟩ <;> omega
  exact form_more ((bind_ok (fld_ok (nat1_ok (Nat.zero_le _) h 1 _))).trans
    (bind_ok (fld_ok (wordNeed_ok (ok := withdrawTest b.toNat) ((withdrawTest_iff h _).mpr hw) 2 _))))

/-! ### PLACE CALL (R135) -/

/-- A number with no range of its own. -/
theorem num1_field (b : Byte) (field : Nat) (rest : List Byte) :
    fld num1 { field, bytes := b :: rest } = .ok (b.toNat, { field := field + 1, bytes := rest }) :=
  fld_ok (num1_ok field b rest)

theorem message_field (h : (word2 x y).toNat ≤ 511) (rest : List Byte) :
    fld (nat2 0 511) { field := 1, bytes := x :: y :: rest } =
      .ok ((word2 x y).toNat, { field := 2, bytes := rest }) := fld_ok (nat2_ok (Nat.zero_le _) h 1 rest)

/-- The areas of a call: a set that is not empty. -/
def areaSet : Parse AreaSet := word >>= fun s => need (s != 0) s

theorem areas_field (h : word2 x y ≠ 0) (rest : List Byte) :
    fld areaSet { field := 2, bytes := x :: y :: rest } =
      .ok (word2 x y, { field := 3, bytes := rest }) :=
  fld_ok (wordNeed_ok (ok := fun s => s != 0) (bne_iff_ne.mpr h) 2 rest)

theorem formPlaceCall_message :
    formPlaceCall.run' 1 [] = .error 1 ∧ formPlaceCall.run' 1 [b] = .error 1 ∧
      (511 < (word2 x y).toNat → formPlaceCall.run' 1 (x :: y :: more) = .error 1) :=
  ⟨rfl, rfl, fun h => form_refused ((refuses_nat2 (.inr h) more).fld.bind 1)⟩

theorem formPlaceCall_areas (h : (word2 x y).toNat ≤ 511) :
    formPlaceCall.run' 1 [x, y] = .error 2 ∧ formPlaceCall.run' 1 [x, y, b] = .error 2 ∧
      (word2 b k = 0 → formPlaceCall.run' 1 (x :: y :: b :: k :: more) = .error 2) :=
  ⟨form_refused ((bind_ok (message_field h _)).trans (refuses_word_nil.bind.fld.bind 2)),
    form_refused ((bind_ok (message_field h _)).trans ((refuses_word_one b).bind.fld.bind 2)),
    fun hz => form_refused ((bind_ok (message_field h _)).trans
      ((refuses_wordNeed (ok := fun s => s != 0) (by rw [hz]; rfl) more).fld.bind 2))⟩

/-- Fields 3 to 6 of a PLACE CALL. -/
def callTail (message : Nat) (areas : AreaSet) : Parse CallOffer := do
  let priority ← fld (nat1 0 7)
  let repeats ← fld num1
  let gap ← fld num1
  let limit ← fld (nat1 1 120)
  pure { message, areas, priority, repeats, gap, limit, origin := .bridge }

section
variable {a1 a2 p n g t : Byte} {m : Nat} {rest : List Byte}

theorem formPlaceCall_tail_refused (h : (word2 x y).toNat ≤ 511) (ha : word2 a1 a2 ≠ 0)
    (ht : callTail (word2 x y).toNat (word2 a1 a2) { field := 3, bytes := rest } = .error m) :
    formPlaceCall.run' 1 (x :: y :: a1 :: a2 :: rest) = .error m :=
  form_refused ((bind_ok (message_field h _)).trans ((bind_ok (areas_field ha _)).trans ht))

theorem formPlaceCall_tail_more (h : (word2 x y).toNat ≤ 511) (ha : word2 a1 a2 ≠ 0) {o : CallOffer}
    (ht : callTail (word2 x y).toNat (word2 a1 a2) { field := 3, bytes := rest } =
      .ok (o, { field := m, bytes := b :: more })) :
    formPlaceCall.run' 1 (x :: y :: a1 :: a2 :: rest) = .error m :=
  form_more ((bind_ok (message_field h _)).trans ((bind_ok (areas_field ha _)).trans ht))

variable {message : Nat} {areas : AreaSet}

theorem priority_field (h : p.toNat ≤ 7) (rest : List Byte) :
    fld (nat1 0 7) { field := 3, bytes := p :: rest } =
      .ok (p.toNat, { field := 4, bytes := rest }) := fld_ok (nat1_ok (Nat.zero_le _) h 3 rest)

theorem callTail_priority : Refuses (callTail message areas) [] ∧
    (7 < p.toNat → Refuses (callTail message areas) (p :: rest)) :=
  ⟨(refuses_nat1_nil 0 7).fld.bind, fun h => (refuses_nat1 (.inr h) rest).fld.bind⟩

theorem callTail_short (h : p.toNat ≤ 7) :
    callTail message areas { field := 3, bytes := [p] } = .error 4 ∧
      callTail message areas { field := 3, bytes := [p, n] } = .error 5 ∧
      callTail message areas { field := 3, bytes := [p, n, g] } = .error 6 :=
  ⟨(bind_ok (priority_field h _)).trans (refuses_num1.fld.bind 4),
    (bind_ok (priority_field h _)).trans ((bind_ok (num1_field n 4 _)).trans (refuses_num1.fld.bind 5)),
    (bind_ok (priority_field h _)).trans ((bind_ok (num1_field n 4 _)).trans
      ((bind_ok (num1_field g 5 _)).trans ((refuses_nat1_nil 1 120).fld.bind 6)))⟩

theorem callTail_limit (h : p.toNat ≤ 7) (ht : t.toNat = 0 ∨ 120 < t.toNat) :
    callTail message areas { field := 3, bytes := p :: n :: g :: t :: rest } = .error 6 :=
  (bind_ok (priority_field h _)).trans ((bind_ok (num1_field n 4 _)).trans
    ((bind_ok (num1_field g 5 _)).trans
      ((refuses_nat1 (ht.imp_left fun e => by omega) rest).fld.bind 6)))

theorem callTail_read (h : p.toNat ≤ 7) (ht : 1 ≤ t.toNat) (ht' : t.toNat ≤ 120) :
    callTail message areas { field := 3, bytes := p :: n :: g :: t :: rest } =
      .ok ({ message, areas, priority := p.toNat, repeats := n.toNat, gap := g.toNat, limit := t.toNat
             origin := .bridge }, { field := 7, bytes := rest }) :=
  (bind_ok (priority_field h _)).trans ((bind_ok (num1_field n 4 _)).trans
    ((bind_ok (num1_field g 5 _)).trans (bind_ok (fld_ok (nat1_ok ht ht' 6 rest)))))
end
end

/-! ### PLAN START (R90, log 21): a count, then five bytes for each step -/

/-- The bytes do not begin with a step: one is missing, or its axis, lock-at-end or notify is out of range. -/
def NoStep (bytes : List Byte) : Prop :=
  bytes.length < 5 ∨ (∃ x, bytes[0]? = some x ∧ (x.toNat = 0 ∨ 6 < x.toNat)) ∨
    (∃ x, bytes[3]? = some x ∧ 1 < x.toNat) ∨ ∃ x, bytes[4]? = some x ∧ 1 < x.toNat

theorem refuses_axis1 {x : Byte} (h : x.toNat = 0 ∨ 6 < x.toNat) (rest : List Byte) :
    Refuses axis1 (x :: rest) := refuses_num1_then (dif_neg (by omega)) rest

theorem axis1_ok {x : Byte} (h : 1 ≤ x.toNat ∧ x.toNat ≤ 6) (field : Nat) (rest : List Byte) :
    axis1 { field, bytes := x :: rest } =
      .ok (⟨x.toNat - 1, by omega⟩, { field, bytes := rest }) := by
  unfold axis1
  rw [bind_ok (num1_ok field x rest), dif_pos h]
  rfl

/-- What a reader refuses behind another one, both in one field. -/
theorem Refuses.behind {α β : Type} {p : Parse α} {f : α → Parse β} {bytes rest : List Byte} {a : α}
    (hp : ∀ field, p { field, bytes } = .ok (a, { field, bytes := rest })) (h : Refuses (f a) rest) :
    Refuses (p >>= f) bytes := fun field => (bind_ok (hp field)).trans (h field)

theorem noStep_bytes {x y z l k : Byte} {rest : List Byte} : NoStep (x :: y :: z :: l :: k :: rest) ↔
    (x.toNat = 0 ∨ 6 < x.toNat) ∨ 1 < l.toNat ∨ 1 < k.toNat := by
  simp [NoStep]

section
variable {more : List Byte} {i : Nat} {x l k : Byte}

theorem noStep_axis (hx : more[i]? = some x) (hr : x.toNat = 0 ∨ 6 < x.toNat) :
    NoStep (more.drop i) := .inr (.inl ⟨x, by rwa [List.getElem?_drop], hr⟩)

theorem noStep_lockAtEnd (hx : more[i + 3]? = some x) (hr : 1 < x.toNat) : NoStep (more.drop i) :=
  .inr (.inr (.inl ⟨x, by rwa [List.getElem?_drop], hr⟩))

theorem noStep_notify (hx : more[i + 4]? = some x) (hr : 1 < x.toNat) : NoStep (more.drop i) :=
  .inr (.inr (.inr ⟨x, by rwa [List.getElem?_drop], hr⟩))

/-- Five bytes with axis, lock-at-end and notify in range are a step. -/
theorem isStep (hx : more[i]? = some x) (hx1 : 1 ≤ x.toNat) (hx6 : x.toNat ≤ 6)
    (hl : more[i + 3]? = some l) (hl1 : l.toNat ≤ 1) (hk : more[i + 4]? = some k) (hk1 : k.toNat ≤ 1) :
    ¬NoStep (more.drop i) := by
  obtain ⟨hlen, -⟩ := List.getElem?_eq_some_iff.mp hk
  rintro (hshort | ⟨y, hy, hr⟩ | ⟨y, hy, hr⟩ | ⟨y, hy, hr⟩)
  · rw [List.length_drop] at hshort
    omega
  · rw [List.getElem?_drop, Nat.add_zero, hx] at hy
    cases hy
    omega
  · rw [List.getElem?_drop, hl] at hy
    cases hy
    omega
  · rw [List.getElem?_drop, hk] at hy
    cases hy
    omega
end

theorem planStep_refused {bytes : List Byte} (h : NoStep bytes) : Refuses planStep bytes := by
  match bytes with
  | [] => exact (show Refuses axis1 [] from fun _ => rfl).bind
  | x :: rest =>
    by_cases hx : x.toNat = 0 ∨ 6 < x.toNat
    · exact (refuses_axis1 hx rest).bind
    have hx' : 1 ≤ x.toNat ∧ x.toNat ≤ 6 := by omega
    refine Refuses.behind (axis1_ok hx' · rest) ?_
    match rest with
    | [] => exact (show Refuses (sint2 (-32768) 32767) [] from fun _ => rfl).bind
    | [y] => exact (show Refuses (sint2 (-32768) 32767) [y] from fun _ => rfl).bind
    | y :: z :: rest =>
      refine Refuses.behind (sint2_ok y z · rest) ?_
      match rest with
      | [] => exact refuses_bool1_nil.bind
      | l :: rest =>
        by_cases hl : 1 < l.toNat
        · exact (refuses_bool1 hl rest).bind
        refine Refuses.behind (bool1_ok (Nat.not_lt.mp hl) · rest) ?_
        match rest with
        | [] => exact refuses_bool1_nil.bind
        | k :: rest =>
          have hk : 1 < k.toNat := ((noStep_bytes.mp h).resolve_left hx).resolve_left hl
          exact (refuses_bool1 hk rest).bind

theorem planStep_ok {bytes : List Byte} (h : ¬NoStep bytes) : ∃ step, ∀ field,
    planStep { field, bytes } = .ok (step, { field, bytes := bytes.drop 5 }) := by
  have hlen : 5 ≤ bytes.length := Nat.not_lt.mp fun hl => h (.inl hl)
  match bytes with
  | [] | [_] | [_, _] | [_, _, _] | [_, _, _, _] => simp only [List.length_cons, List.length_nil] at hlen; omega
  | x :: y :: z :: l :: k :: rest =>
    rw [noStep_bytes, not_or] at h
    obtain ⟨hx, hlk⟩ := h
    obtain ⟨hl, hk⟩ := not_or.mp hlk
    have hx' : 1 ≤ x.toNat ∧ x.toNat ≤ 6 := by omega
    exact ⟨_, fun field => (bind_ok (axis1_ok hx' field _)).trans
      ((bind_ok (sint2_ok y z field _)).trans ((bind_ok (bool1_ok (Nat.not_lt.mp hl) field _)).trans
        (bind_ok (bool1_ok (Nat.not_lt.mp hk) field _))))⟩

/-- The steps are refused when the bytes of one of them are no step. -/
theorem planSteps_refused {n i : Nat} {more : List Byte} (hi : i < n) (h : NoStep (more.drop (5 * i))) :
    Refuses (many planStep n) more := by
  induction n generalizing i more with
  | zero => exact absurd hi (Nat.not_lt_zero i)
  | succ n ih =>
    by_cases hfirst : NoStep more
    · exact (planStep_refused hfirst).bind
    obtain ⟨step, hstep⟩ := planStep_ok hfirst
    refine Refuses.behind hstep (Refuses.bind ?_)
    cases i with
    | zero => exact absurd h hfirst
    | succ i =>
      refine ih (i := i) (by omega) ?_
      rwa [List.drop_drop, show 5 + 5 * i = 5 * (i + 1) by omega]

theorem planSteps_ok {n : Nat} {more : List Byte} (h : ∀ i, i < n → ¬NoStep (more.drop (5 * i))) :
    ∃ steps, ∀ field, many planStep n { field, bytes := more } =
      .ok (steps, { field, bytes := more.drop (5 * n) }) := by
  induction n generalizing more with
  | zero => exact ⟨[], fun _ => rfl⟩
  | succ n ih =>
    obtain ⟨step, hstep⟩ := planStep_ok (h 0 (by omega))
    obtain ⟨steps, hsteps⟩ := ih (more := more.drop 5) fun i hi => by
      rw [List.drop_drop, show 5 + 5 * i = 5 * (i + 1) by omega]
      exact h (i + 1) (by omega)
    refine ⟨step :: steps, fun field => (bind_ok (hstep field)).trans ((bind_ok (hsteps field)).trans ?_)⟩
    rw [List.drop_drop, show 5 + 5 * n = 5 * (n + 1) by omega]
    rfl

section
variable {n : Byte} {more : List Byte}

theorem formPlanStart_none : formPlanStart.run' 1 [] = .error 1 := rfl

theorem formPlanStart_count (h : n.toNat = 0 ∨ 8 < n.toNat) : formPlanStart.run' 1 (n :: more) = .error 1 :=
  form_refused ((refuses_nat1 (h.imp_left fun e => by omega) more).bind.fld 1)

/-- A step that is missing or out of range is refused as the one field of steps (log 21). -/
theorem formPlanStart_step {i : Nat} (hi : i < n.toNat) (h : NoStep (more.drop (5 * i))) :
    formPlanStart.run' 1 (n :: more) = .error 1 := by
  by_cases hn : n.toNat = 0 ∨ 8 < n.toNat
  · exact formPlanStart_count hn
  · exact form_refused ((Refuses.behind (nat1_ok (by omega) (by omega) · more)
      (planSteps_refused hi h)).fld 1)

theorem formPlanStart_short (h : more.length < 5 * n.toNat) : formPlanStart.run' 1 (n :: more) = .error 1 :=
  formPlanStart_step (i := n.toNat - 1) (by omega) (.inl (by rw [List.length_drop]; omega))

theorem formPlanStart_more (h1 : 1 ≤ n.toNat) (h8 : n.toNat ≤ 8) (hl : 5 * n.toNat < more.length)
    (h : ∀ i, i < n.toNat → ¬NoStep (more.drop (5 * i))) :
    formPlanStart.run' 1 (n :: more) = .error 2 := by
  obtain ⟨steps, hsteps⟩ := planSteps_ok h
  obtain ⟨b, rest, hrest⟩ := List.exists_cons_of_length_pos
    (show 0 < (more.drop (5 * n.toNat)).length by rw [List.length_drop]; omega)
  exact form_more (fld_ok ((bind_ok (nat1_ok h1 h8 1 more)).trans (hrest ▸ hsteps 1)))
end

/-! ### A function request that reaches no function (R21) -/

/-- What a function request at a deck station becomes (R2, R21). -/
theorem functionRequest_judged {s : State} {i : Instr} {f : Frame} (hi : i.frame = some f)
    (hk : f.kind = kindFunctionRequest) (hl : f.payload.length ≤ 240) (hs : Listening s)
    (hg : s.run.gw ≠ .unconfigured) (hd : f.dst ≠ 0) :
    exec i s = closed s (Run.functionFrame s.cfg s.run f.req f.payload) := by
  obtain ⟨-, -, -, -, hdeck⟩ := exec_judgedByR2 s i f hi hl hs.1
  exact (hdeck hs hd hg).1 hk

/-- Settles O54: the codes each function takes, each form field by field, and the requests no function gets. -/
theorem formsAreJudgedFirst : Obligations.FormsAreJudgedFirst := by
  refine ⟨?_, fun s i f hi hk hl hs hg hd => ?_⟩
  · intro s src dst tag f h no taken
    have htaken : taken = codesTaken f := by cases f <;> rfl
    rw [htaken]
    refine ⟨fun body hl => ⟨fun ht => ⟨?_, ?_, ?_, ?_⟩, fun ht => ?_, fun ht => ?_, fun ht => ?_,
        fun ht => ?_⟩, fun code body hc => functionRequest_unknown _ _ f hc body, ?_,
      fun b more hl => ⟨?_, ?_, ?_, ?_, ?_, ?_⟩, ?_, ?_, ?_, ?_, ?_, ?_⟩
    -- a code the function does not take, and no code
    · exact requested_unknown h 3 ht hl
    · exact requested_unknown h 3 ht hl
    · exact requested_unknown h 3 ht hl
    · exact requested_unknown h 3 ht hl
    · exact requested_unknown h 4 ht hl
    · exact requested_unknown h 5 ht hl
    · exact requested_unknown h 6 ht hl
    · exact requested_unknown h 7 ht hl
    · obtain ⟨-, -, -, hf⟩ := h
      simp only [Run.functionFrame, hf]
    -- the requests without a field
    · rintro a rfl
      exact ⟨requested_refused h 2 rfl, requested_refused h 3 rfl, requested_refused h 4 rfl,
        requested_refused h 5 rfl, requested_refused h 6 rfl⟩
    · rintro rfl
      exact ⟨requested_refused h 2 rfl, requested_refused h 3 rfl⟩
    · rintro z rfl
      exact ⟨requested_refused h 2 rfl, requested_refused h 3 rfl⟩
    · rintro d rfl
      exact ⟨requested_refused h 1 rfl, requested_refused h 2 rfl⟩
    · rintro m rfl
      exact ⟨requested_refused h 1 rfl, requested_refused h 2 rfl, requested_refused h 3 rfl⟩
    · rintro rfl
      exact requested_refused h 1 rfl
    -- MOVE and DERATE
    · rintro a b b' k more rfl hl
      obtain ⟨hmove0, hmove1⟩ := formMove_noTarget (b := b)
      obtain ⟨hderate0, hderate1⟩ := formDerate_missing (b := b)
      refine ⟨move_refused h hmove0, move_refused h hmove1, move_refused h formMove_noLock,
        fun hk => move_refused h (formMove_lock hk), fun hk hm => ?_, derate_refused h hderate0,
        derate_refused h hderate1, fun hm => ?_⟩
      · obtain ⟨x, more, rfl⟩ := List.exists_cons_of_ne_nil hm
        rw [List.length_cons] at hl
        exact move_refused h (formMove_more hk)
      · obtain ⟨x, more, rfl⟩ := List.exists_cons_of_ne_nil hm
        rw [List.length_cons] at hl
        exact derate_refused h formDerate_more
    -- PLAN START
    · rintro rfl
      refine ⟨planStart_refused h formPlanStart_none, fun n more hl =>
        ⟨fun hn => planStart_refused h (formPlanStart_count hn),
          fun hs => planStart_refused h (formPlanStart_short hs), fun i hi =>
          ⟨fun x hx hr => planStart_refused h (formPlanStart_step hi (noStep_axis hx hr)),
            fun x hx hr => planStart_refused h (formPlanStart_step hi (noStep_lockAtEnd hx hr)),
            fun x hx hr => planStart_refused h (formPlanStart_step hi (noStep_notify hx hr))⟩,
          fun h1 h8 hlen hsteps => planStart_refused h (formPlanStart_more h1 h8 hlen fun i hi => ?_)⟩⟩
      obtain ⟨x, l, k, hx, hx1, hx6, hl, hl1, hk, hk1⟩ := hsteps i hi
      exact isStep hx hx1 hx6 hl hl1 hk hk1
    -- zone CLOSE
    · rintro z b b' more rfl hl
      exact ⟨zoneClose_refused h formZoneClose_missing,
        fun hb => zoneClose_refused h (formZoneClose_range hb),
        fun hb => zoneClose_refused h (formZoneClose_more hb)⟩
    -- LINES SET OUTPUT
    · rintro b b' x more rfl hl
      exact ⟨setOutputRequest_refused h rfl,
        fun hb => setOutputRequest_refused h (formSetOutput_output hb),
        fun hb => ⟨setOutputRequest_refused h (formSetOutput_missingLevel hb),
          fun hb' => setOutputRequest_refused h (formSetOutput_level hb hb'),
          fun hb' => setOutputRequest_refused h (formSetOutput_more hb hb')⟩⟩
    -- WITHDRAW CALL
    · rintro b hi lo x more rfl hl
      exact ⟨withdrawCall_refused h rfl, fun hb => withdrawCall_refused h (formWithdraw_selector hb),
        fun hb => ⟨withdrawCall_refused h (formWithdraw_noName (x := x) hb).1,
          withdrawCall_refused h (formWithdraw_noName hb).2⟩,
        fun hb hg => withdrawCall_refused h (formWithdraw_name hb hg),
        fun hg => withdrawCall_refused h (formWithdraw_more hg)⟩
    -- PLACE CALL
    · rintro m1 m2 a1 a2 p n g t x more rfl hl
      obtain ⟨hm0, hm1, hm2⟩ := formPlaceCall_message (b := m1) (x := m1) (y := m2) (more := more)
      refine ⟨placeCall_refused h hm0, placeCall_refused h hm1, fun hm => placeCall_refused h (hm2 hm),
        fun hm => ?_⟩
      obtain ⟨ha0, ha1, ha2⟩ := formPlaceCall_areas (b := a1) (k := a2) (more := more) hm
      refine ⟨placeCall_refused h ha0, placeCall_refused h ha1, fun ha => placeCall_refused h (ha2 ha),
        fun ha => ?_⟩
      have htail {rest : List Byte} {m : Nat} := formPlaceCall_tail_refused (rest := rest) (m := m) hm ha
      refine ⟨placeCall_refused h (htail (callTail_priority (p := p) (rest := more).1 3)),
        fun hp => placeCall_refused h (htail (callTail_priority.2 hp 3)), fun hp => ?_⟩
      obtain ⟨h4, h5, h6⟩ := callTail_short (n := n) (g := g) (message := (word2 m1 m2).toNat)
        (areas := word2 a1 a2) hp
      exact ⟨placeCall_refused h (htail h4), placeCall_refused h (htail h5),
        placeCall_refused h (htail h6), fun ht => placeCall_refused h (htail (callTail_limit hp ht)),
        fun h1 h120 => placeCall_refused h (formPlaceCall_tail_more hm ha (callTail_read hp h1 h120))⟩
  · have hgo := functionRequest_judged hi hk hl hs hg hd
    refine ⟨fun hf => ?_, fun n hf => ?_, fun g code body hf hp => ?_⟩
    · exact hgo.trans (by simp only [Run.functionFrame, show f.req.dst = f.dst from rfl, hf]; rfl)
    · exact hgo.trans (by simp only [Run.functionFrame, show f.req.dst = f.dst from rfl, hf]; rfl)
    · exact hgo.trans (by simp only [Run.functionFrame, show f.req.dst = f.dst from rfl, hf, hp]; rfl)

end Sys2Proof.Machine
end

