-- ==== Sys2Proof/Proofs/Heads.lean ====
section
/-! PROOFS. A reader of a content looks at no byte behind those it takes, so that what it reads from an entry's
own bytes it reads with a whole image behind them (R182). -/

namespace Sys2Proof.Machine

/-- What the reader reads, it reads from a head of its bytes, whatever follows that head. -/
def ReadsHead {α : Type} (p : Parse α) : Prop :=
  ∀ (field : Nat) (bytes : List Byte) (a : α) (k : Cursor), p { field, bytes } = .ok (a, k) →
    ∃ head, bytes = head ++ k.bytes ∧ ReadsOn p head a

section
variable {α β : Type} {p : Parse α}

/-- A reader that stays in its field and takes these bytes. -/
theorem Reads.on {bytes : List Byte} {a : α} (h : Reads p bytes a) : ReadsOn p bytes a := ⟨0, h⟩

theorem readsHead_pure (a : α) : ReadsHead (pure a) := by
  intro field bytes x k h
  cases h
  exact ⟨[], rfl, readsOn_pure a⟩

theorem readsHead_bad : ReadsHead (bad : Parse α) := fun _ _ _ _ h => by cases h

theorem readsHead_byte : ReadsHead byte := by
  intro field bytes b k h
  cases bytes with
  | nil => cases h
  | cons x rest =>
    cases h
    exact ⟨[b], rfl, (reads_byte b).on⟩

theorem readsHead_next : ReadsHead next := by
  intro field bytes u k h
  cases h
  exact ⟨[], rfl, 1, fun _ _ => rfl⟩

theorem ReadsHead.bind {f : α → Parse β} (h : ReadsHead p) (hf : ∀ a, ReadsHead (f a)) :
    ReadsHead (p >>= f) := by
  intro field bytes b k e
  obtain ⟨a, k1, ha, hb⟩ := bind_eq_ok e
  obtain ⟨head, rfl, hp⟩ := h _ _ _ _ ha
  obtain ⟨head', htail, hq⟩ := hf a _ _ _ _ hb
  exact ⟨head ++ head', by rw [htail, List.append_assoc], hp.then hq⟩

theorem readsHead_need (ok : Bool) (a : α) : ReadsHead (need ok a) := by
  cases ok
  · exact readsHead_bad
  · exact readsHead_pure a

theorem readsHead_ite {c : Prop} [Decidable c] {p q : Parse α} (h : ReadsHead p) (h' : ReadsHead q) :
    ReadsHead (if c then p else q) := by
  split
  · exact h
  · exact h'

theorem readsHead_dite {c : Prop} [Decidable c] {p : c → Parse α} {q : ¬c → Parse α}
    (h : ∀ hc, ReadsHead (p hc)) (h' : ∀ hc, ReadsHead (q hc)) :
    ReadsHead (if hc : c then p hc else q hc) := by
  split
  · exact h _
  · exact h' _

theorem ReadsHead.map (h : ReadsHead p) (f : α → β) : ReadsHead (f <$> p) := by
  rw [map_eq_pure_bind]
  exact h.bind fun a => readsHead_pure (f a)

/-- A value held to a condition in its field. -/
theorem ReadsHead.need (h : ReadsHead p) (ok : α → Bool) :
    ReadsHead (p >>= fun a => need (ok a) a) := h.bind fun a => readsHead_need (ok a) a

theorem ReadsHead.fld (h : ReadsHead p) : ReadsHead (fld p) :=
  h.bind fun a => readsHead_next.bind fun _ => readsHead_pure a

/-- A whole field, and what is read behind it. -/
theorem ReadsHead.field {f : α → Parse β} (h : ReadsHead p) (hf : ∀ a, ReadsHead (f a)) :
    ReadsHead (Machine.fld p >>= f) := h.fld.bind hf

theorem readsHead_many (h : ReadsHead p) : ∀ n, ReadsHead (many p n)
  | 0 => readsHead_pure []
  | n + 1 => h.bind fun _ => (readsHead_many h n).bind fun _ => readsHead_pure _

/-! ### Numbers, named values, lists -/

theorem readsHead_num1 : ReadsHead num1 := readsHead_byte.bind fun _ => readsHead_pure _

theorem readsHead_word : ReadsHead word :=
  readsHead_byte.bind fun _ => readsHead_byte.bind fun _ => readsHead_pure _

theorem readsHead_nat1 (lo hi : Nat) : ReadsHead (nat1 lo hi) :=
  readsHead_num1.bind fun _ => readsHead_need _ _

theorem readsHead_nat2 (lo hi : Nat) : ReadsHead (nat2 lo hi) :=
  readsHead_word.bind fun _ => readsHead_need _ _

theorem readsHead_sint2 (lo hi : Int) : ReadsHead (sint2 lo hi) :=
  readsHead_word.bind fun _ => readsHead_need _ _

theorem readsHead_bool1 : ReadsHead bool1 := (readsHead_nat1 0 1).bind fun _ => readsHead_pure _

theorem readsHead_fin1 (n : Nat) : ReadsHead (fin1 n) :=
  readsHead_num1.bind fun _ => readsHead_dite (fun _ => readsHead_pure _) fun _ => readsHead_bad

theorem readsHead_named (l : List α) : ReadsHead (named l) := readsHead_num1.bind fun b => by
  cases l[b]? with
  | none => exact readsHead_bad
  | some a => exact readsHead_pure a

theorem readsHead_axis1 : ReadsHead axis1 :=
  readsHead_num1.bind fun _ => readsHead_dite (fun _ => readsHead_pure _) fun _ => readsHead_bad

theorem readsHead_node2 : ReadsHead node2 := (readsHead_fin1 4).bind fun _ => readsHead_num1.bind fun _ =>
  readsHead_dite (fun _ => readsHead_pure _) fun _ => readsHead_bad

theorem readsHead_set1 (n : Nat) : ReadsHead (set1 n) := readsHead_num1.bind fun _ => readsHead_need _ _

theorem readsHead_list1 (h : ReadsHead p) (most : Nat) : ReadsHead (list1 most p) :=
  (readsHead_nat1 0 most).bind fun n => readsHead_many h n

theorem readsHead_opt (h : ReadsHead p) (width : Nat) : ReadsHead (opt width p) :=
  readsHead_bool1.bind fun _ => readsHead_ite (h.bind fun _ => readsHead_pure _)
    ((readsHead_many readsHead_byte width).bind fun _ => readsHead_pure _)

theorem readsHead_station : ReadsHead station := readsHead_word.need _

theorem readsHead_zero1 : ReadsHead zero1 := readsHead_num1.bind fun _ => readsHead_need _ _
end

/-! ### The contents, but for ROUTE's, which looks ahead at its kind -/

theorem readsHead_stateSet (n : Nat) : ReadsHead (stateSet n) := readsHead_byte.need _

theorem readsHead_termOf (subject : Nat) : ReadsHead (termOf subject) := by
  have states {α : Type} (n : Nat) (f : BitVec 8 → α) : ReadsHead (stateSet n >>= fun s => pure (f s)) :=
    (readsHead_stateSet n).bind fun _ => readsHead_pure _
  have level {α : Type} (f : Bool → α) : ReadsHead (bool1 >>= fun b => pure (f b)) :=
    readsHead_bool1.bind fun _ => readsHead_pure _
  unfold termOf
  split
  · exact readsHead_axis1.bind fun _ => states _ _
  · exact (readsHead_fin1 8).bind fun _ => states _ _
  · exact (readsHead_fin1 8).bind fun _ => level _
  · exact (readsHead_fin1 32).bind fun _ => states _ _
  · exact (readsHead_fin1 16).bind fun _ => level _
  · exact (readsHead_fin1 16).bind fun _ => states _ _
  · exact readsHead_zero1.bind fun _ => level _
  · exact readsHead_bad

theorem readsHead_term3 : ReadsHead term3 := readsHead_num1.bind fun _ => readsHead_ite
  ((readsHead_many readsHead_byte 2).bind fun _ => readsHead_pure _)
  ((readsHead_termOf _).bind fun _ => readsHead_pure _)

theorem readsHead_permitCode : ReadsHead permitCode := readsHead_byte.bind fun _ =>
  readsHead_ite (readsHead_pure _) (readsHead_need _ _)

theorem readsHead_contentPermit : ReadsHead contentPermit :=
  readsHead_bool1.field fun _ => readsHead_ite
    (readsHead_station.field fun _ => (readsHead_station.need _).field fun _ =>
      readsHead_permitCode.field fun _ => readsHead_term3.field fun _ => readsHead_term3.field fun _ =>
        (readsHead_named _).field fun _ => readsHead_pure _)
    (readsHead_pure _)

theorem readsHead_contentReport : ReadsHead contentReport :=
  (readsHead_named _).field fun _ => (readsHead_num1.need _).field fun _ =>
    (readsHead_nat2 _ _).field fun _ => readsHead_pure _

theorem readsHead_contentTrunk : ReadsHead contentTrunk :=
  readsHead_bool1.field fun _ => readsHead_ite
    ((readsHead_word.bind fun _ => readsHead_need _ _ : ReadsHead bitRate2).field fun _ =>
      (readsHead_nat1 _ _).field fun _ => (readsHead_nat2 _ _).field fun _ =>
        (readsHead_nat2 _ _).field fun _ => (readsHead_nat1 _ _).field fun _ =>
          (readsHead_nat2 _ _).field fun _ => readsHead_pure _)
    (readsHead_pure _)

theorem readsHead_contentNode : ReadsHead contentNode := (readsHead_named _).field fun kind => by
  cases kind with
  | none => exact readsHead_pure _
  | some kind => exact (readsHead_named _).field fun _ => readsHead_pure _

theorem readsHead_zoneOrNone : ReadsHead zoneOrNone := (readsHead_nat1 0 8).bind fun _ => readsHead_pure _

theorem readsHead_axisMotion : ReadsHead axisMotion :=
  (readsHead_sint2 _ _).field fun _ => ((readsHead_sint2 _ _).need _).field fun _ =>
    (readsHead_nat2 _ _).field fun _ => (readsHead_nat2 _ _).field fun _ =>
    (readsHead_nat1 _ _).field fun _ => (readsHead_nat2 _ _).field fun _ =>
    (readsHead_nat2 _ _).field fun _ => (readsHead_nat2 _ _).field fun _ =>
    (readsHead_nat1 _ _).field fun _ => (readsHead_nat2 _ _).field fun _ =>
    (readsHead_nat1 _ _).field fun _ => (readsHead_nat2 _ _).field fun _ =>
    (readsHead_nat2 _ _).field fun _ => readsHead_pure _

theorem readsHead_prereqOf (i : Nat) : ReadsHead (prereqOf i) :=
  (readsHead_opt (readsHead_axis1.bind fun _ => (readsHead_sint2 _ _).bind fun _ =>
    (readsHead_sint2 _ _).bind fun _ => readsHead_pure _ : ReadsHead prereq5) 5).need _

theorem readsHead_motionCall6 : ReadsHead motionCall6 :=
  (readsHead_nat2 _ _).bind fun _ => readsHead_word.bind fun _ => (readsHead_nat1 _ _).bind fun _ =>
    (readsHead_nat1 _ _).bind fun _ => readsHead_pure _

theorem readsHead_axisRest (i : Nat) (x : AxisCfg) : ReadsHead (axisRest i x) :=
  have payload : ReadsHead (opt 1 payload16) := readsHead_opt (readsHead_list1 readsHead_byte 16) 1
  (readsHead_set1 _).field fun _ => (readsHead_set1 _).field fun _ =>
    (readsHead_nat2 _ _).field fun _ => ((readsHead_nat2 _ _).need _).field fun _ =>
    payload.field fun _ => payload.field fun _ => (readsHead_prereqOf i).field fun _ =>
    (readsHead_prereqOf i).field fun _ => (readsHead_opt readsHead_motionCall6 6).field fun _ =>
      readsHead_pure _

theorem readsHead_contentAxis (i : Nat) : ReadsHead (contentAxis i) :=
  readsHead_bool1.field fun _ => readsHead_ite
    (readsHead_node2.field fun _ => ((readsHead_opt readsHead_node2 2).need _).field fun _ =>
      readsHead_zoneOrNone.field fun _ => readsHead_axisMotion.bind fun _ => readsHead_axisRest i _)
    (readsHead_pure _)

theorem readsHead_contentProfile : ReadsHead contentProfile :=
  readsHead_bool1.field fun _ => (readsHead_sint2 _ _).field fun _ => (readsHead_nat2 _ _).field fun _ =>
    readsHead_pure _

theorem readsHead_contentZone : ReadsHead contentZone :=
  (readsHead_nat1 _ _).field fun _ => (readsHead_nat1 _ _).field fun _ => (readsHead_nat2 _ _).field fun _ =>
    (readsHead_nat2 _ _).field fun _ => readsHead_word.field fun _ => (readsHead_nat1 _ _).field fun _ =>
      readsHead_pure _

theorem readsHead_contentDoor : ReadsHead contentDoor :=
  readsHead_bool1.field fun _ => readsHead_ite
    (readsHead_node2.field fun _ => (readsHead_fin1 8).field fun _ =>
      ((readsHead_opt (readsHead_fin1 8) 1).need _).field fun _ => (readsHead_nat1 _ _).field fun _ =>
      (readsHead_nat1 _ _).field fun _ => (readsHead_nat1 _ _).field fun _ =>
      (readsHead_nat1 _ _).field fun _ => readsHead_bool1.field fun _ => readsHead_pure _)
    (readsHead_pure _)

theorem readsHead_contentArea : ReadsHead contentArea := ((readsHead_list1 readsHead_node2 4).need _).fld

theorem readsHead_contentChannel : ReadsHead contentChannel :=
  readsHead_bool1.field fun _ => readsHead_ite
    (readsHead_node2.field fun _ => (readsHead_nat1 _ _).field fun _ => (readsHead_nat1 _ _).field fun _ =>
      readsHead_bool1.field fun _ => (readsHead_nat2 _ _).field fun _ => readsHead_pure _)
    (readsHead_pure _)

theorem readsHead_contentMonitor : ReadsHead contentMonitor :=
  readsHead_bool1.field fun _ => readsHead_ite (readsHead_bool1.field fun _ => readsHead_pure _)
    (readsHead_pure _)

theorem readsHead_actionOf (k : Nat) : ReadsHead (actionOf k) := by
  unfold actionOf
  split
  · exact readsHead_pure _
  · exact readsHead_num1.bind fun _ => readsHead_pure _
  · exact (readsHead_nat2 _ _).bind fun _ => readsHead_word.bind fun _ =>
      (readsHead_nat1 _ _).bind fun _ => (readsHead_nat1 _ _).bind fun _ => readsHead_pure _
  · exact (readsHead_fin1 8).bind fun _ => readsHead_bool1.bind fun _ => readsHead_pure _
  · exact (readsHead_nat2 _ _).bind fun _ => (readsHead_set1 6).bind fun _ => readsHead_need _ _
  · exact (readsHead_fin1 4).bind fun _ => readsHead_bool1.bind fun _ => readsHead_pure _
  · exact readsHead_bad

theorem readsHead_contentMstate : ReadsHead contentMstate :=
  readsHead_bool1.field fun _ => readsHead_ite
    ((readsHead_fin1 32).field fun _ => (readsHead_named _).field fun _ =>
      (readsHead_sint2 _ _).field fun _ => (readsHead_nat2 _ _).field fun _ =>
      (readsHead_fin1 8).field fun _ => (readsHead_nat2 _ _).field fun _ =>
      (readsHead_fin1 8).field fun _ => readsHead_zoneOrNone.field fun _ =>
      (readsHead_num1.bind readsHead_actionOf : ReadsHead action1).field fun _ => readsHead_pure _)
    (readsHead_pure _)

theorem readsHead_lampSource (k : Nat) : ReadsHead (lampSource k) := by
  have index {n : Nat} (f : Fin n → LampSource) : ReadsHead (fin1 n >>= fun i => pure (f i)) :=
    (readsHead_fin1 n).bind fun _ => readsHead_pure _
  unfold lampSource
  split
  · exact readsHead_zero1.bind fun _ => readsHead_pure _
  · exact readsHead_axis1.bind fun _ => readsHead_pure _
  · exact index _
  · exact index _
  · exact index _
  · exact index _
  · exact index _
  · exact readsHead_bad

theorem readsHead_stylePair (values : Nat) : ReadsHead (stylePair values) :=
  readsHead_num1.bind fun _ => (readsHead_named _).bind fun _ => readsHead_need _ _

theorem readsHead_contentLamp : ReadsHead contentLamp :=
  (readsHead_nat1 _ _).field fun _ => (readsHead_lampSource _).field fun _ =>
    ((readsHead_list1 (readsHead_stylePair _) 8).need _).field fun _ => readsHead_pure _

theorem readsHead_contentLine (estop : Bool) : ReadsHead (contentLine estop) :=
  (readsHead_ite (readsHead_byte.bind fun _ => readsHead_pure 2) (readsHead_nat1 1 255)).field fun _ =>
    (readsHead_named _).field fun _ => readsHead_bool1.field fun _ => readsHead_pure _

theorem readsHead_contentParam : ReadsHead contentParam :=
  (readsHead_nat2 _ _).field fun _ => readsHead_station.field fun _ => (readsHead_named _).field fun _ =>
    (readsHead_nat1 _ _).field fun _ => (readsHead_nat1 _ _).field fun _ =>
    (readsHead_nat2 _ _).field fun _ => (readsHead_nat2 _ _).field fun _ =>
    (readsHead_nat1 _ _).field fun _ => readsHead_pure _

theorem readsHead_content {t : Table} (ht : t ≠ .route) (i : Nat) : ReadsHead (content t i) := by
  cases t with
  | route => exact absurd rfl ht
  | permit => exact readsHead_contentPermit.map _
  | report => exact readsHead_contentReport.map _
  | trunk => exact readsHead_contentTrunk.map _
  | node => exact readsHead_contentNode.map _
  | axis => exact (readsHead_contentAxis i).map _
  | profile => exact readsHead_contentProfile.map _
  | zone => exact readsHead_contentZone.map _
  | door => exact readsHead_contentDoor.map _
  | area => exact readsHead_contentArea.map _
  | channel => exact readsHead_contentChannel.map _
  | monitor => exact readsHead_contentMonitor.map _
  | mstate => exact readsHead_contentMstate.map _
  | lamp => exact readsHead_contentLamp.map _
  | line => exact (readsHead_contentLine _).map _
  | param => exact readsHead_contentParam.map _

end Sys2Proof.Machine
end

