-- ==== Sys2Proof/Proofs/ImageRecords.lean ====
section
/-! PROOFS. The records of an image (R180, R182, log 10): one record read off the bytes, the bytes that begin no
record, and the taking page by page against the taking at the end (log 11). -/

namespace Sys2Proof.Machine

/-! ### The content of an entry with bytes behind it -/

theorem readsOn_contentRoute {x : Route} (h : routeFits (some x) = true) :
    ReadsOn contentRoute (encRoute (some x)) (some x) := by
  have hs : stationFits x.station = true := h
  have hk : within 1 2 x.target.kind = true := by cases x.target <;> rfl
  have hfields : ReadsOn (fld station >>= fun station => fld (nat1 1 2) >>= fun kind =>
      routeTarget kind >>= fun target => pure (some { station, target }))
      (encRoute (some x)) (some x) := by
    rw [encRoute, encTarget_eq]
    exact (reads_station hs).fld.then ((field1 hk (by decide)).then
      ((readsOn_routeTarget x.target).last (readsOn_pure _)))
  obtain ⟨n, hn⟩ := hfields
  refine ⟨n, fun field rest => Eq.trans ?_ (hn field rest)⟩
  have hpeek : peek 2 { field, bytes := encRoute (some x) ++ rest } =
      .ok (some (BitVec.ofNat 8 x.target.kind), { field, bytes := encRoute (some x) ++ rest }) := by
    rw [encRoute, encTarget_eq]
    rfl
  rw [contentRoute, bind_ok hpeek, if_neg (by cases x.target <;> simp [RouteTarget.kind])]

/-- An entry's content is read back from its bytes, whatever follows them. -/
theorem readsOn_content {t : Table} {i : Nat} {e : Entry} (h : e.fits t i = true)
    (hc : e.cutShort = false) : ReadsOn (content t i) e.bytes e := by
  by_cases ht : t = .route
  · obtain rfl := ht
    cases e with
    | route x =>
      cases x with
      | none => cases hc
      | some x =>
        obtain ⟨n, hn⟩ := readsOn_contentRoute (x := x) (by simpa [Entry.fits] using h)
        refine ⟨n, fun field rest => ?_⟩
        show (Entry.route <$> contentRoute) _ = _
        rw [map_eq_pure_bind]
        exact bind_ok (hn field rest)
    | _ x => exact Table.noConfusion (fits_table h)
  · obtain ⟨k, hk, hb⟩ := readsBack_content h
    obtain ⟨head, hhead, hon⟩ := readsHead_content ht i _ _ _ _ hk
    rw [hb (by rw [hc]; rfl), List.append_nil] at hhead
    rwa [hhead]

/-! ### One record -/

section
variable {c c' : Tables} {t : Table} {i d n : Nat} {e : Entry}

theorem takeRecord_takes (h : e.fits t i = true) (hi : i < t.entries) (hc : e.cutShort = false)
    (hcl : e.clamped = false) (hp : putEntry c i e = .ok (c', d)) (rest : List Byte) : ∃ k,
    takeRecord c t { field := 0, bytes := b2 i ++ e.bytes ++ rest } = .ok (c', k) ∧ k.bytes = rest := by
  obtain ⟨m, hm⟩ := readsOn_content h hc
  have hpos : t.entries ≤ 256 := by cases t <;> decide
  have hindex := reads_nat2 (lo := 0) (hi := t.entries - 1) (n := i) (by simp [within]; omega)
    (by omega) 0 (e.bytes ++ rest)
  refine ⟨{ field := 0 + m, bytes := rest }, ?_, rfl⟩
  rw [List.append_assoc]
  refine (bind_ok hindex).trans ((bind_ok (hm 0 rest)).trans ?_)
  simp only [hp, hcl]
  rfl

theorem table_id_byte (t : Table) : (BitVec.ofNat 8 t.id).toNat = t.id := by cases t <;> rfl

theorem table_id_not_end (t : Table) : BitVec.ofNat 8 t.id ≠ endMark := by cases t <;> decide

/-- A record goes into its table, and the taking goes on behind it. -/
theorem takeRecords_record (h : e.fits t i = true) (hi : i < t.entries) (hc : e.cutShort = false)
    (hcl : e.clamped = false) (hp : putEntry c i e = .ok (c', d)) (rest : List Byte) :
    takeRecords (n + 1) c (imageRecord t i e ++ rest) = takeRecords n c' rest := by
  obtain ⟨k, hk, rfl⟩ := takeRecord_takes h hi hc hcl hp rest
  show takeRecords (n + 1) c (BitVec.ofNat 8 t.id :: (b2 i ++ e.bytes ++ k.bytes)) = _
  simp only [takeRecords, if_neg (table_id_not_end t), table_id_byte, tableOfId_id, hk]

theorem takeWhole_record (h : e.fits t i = true) (hi : i < t.entries) (hc : e.cutShort = false)
    (hcl : e.clamped = false) (hp : putEntry c i e = .ok (c', d)) (rest : List Byte) :
    takeWhole (n + 1) c (imageRecord t i e ++ rest) = takeWhole n c' rest := by
  obtain ⟨k, hk, rfl⟩ := takeRecord_takes h hi hc hcl hp rest
  show takeWhole (n + 1) c (BitVec.ofNat 8 t.id :: (b2 i ++ e.bytes ++ k.bytes)) = _
  simp only [takeWhole, table_id_byte, tableOfId_id, hk]
end

/-! ### Bytes that begin no record -/

section
variable {c c' : Tables} {n : Nat} {b : Byte} {rest : List Byte}

theorem takeWhole_nil (n : Nat) (c : Tables) : takeWhole n c [] = c := by cases n <;> rfl

theorem takeRecords_end (n : Nat) (c : Tables) (rest : List Byte) :
    takeRecords (n + 1) c (0xFF :: rest) = some c := by
  simp only [takeRecords]
  exact if_pos rfl

theorem takeWhole_unknown (h : b.toNat = 0 ∨ 16 < b.toNat) : takeWhole n c (b :: rest) = c := by
  cases n with
  | zero => rfl
  | succ n => simp only [takeWhole, tableOfId_unknown h]

theorem takeRecords_unknown (h : b.toNat = 0 ∨ 16 < b.toNat) (he : b ≠ 0xFF) :
    takeRecords (n + 1) c (b :: rest) = none := by
  simp only [takeRecords, if_neg (show ¬b = endMark from he), tableOfId_unknown h]

/-- Bytes whose records are taken: the end mark, or a record and such bytes behind it. -/
theorem takeRecords_cons : takeRecords (n + 1) c (b :: rest) = some c' →
    b = endMark ∧ c = c' ∨ ∃ t c1 k, b ≠ endMark ∧ tableOfId b.toNat = some t ∧
      takeRecord c t { field := 0, bytes := rest } = .ok (c1, k) ∧
      takeRecords n c1 k.bytes = some c' := by
  intro h
  simp only [takeRecords] at h
  by_cases hb : b = endMark
  · rw [if_pos hb] at h
    exact .inl ⟨hb, Option.some.inj h⟩
  · rw [if_neg hb] at h
    cases ht : tableOfId b.toNat with
    | none => rw [ht] at h; cases h
    | some t =>
      cases hr : takeRecord c t { field := 0, bytes := rest } with
      | error f => simp only [ht, hr] at h; cases h
      | ok o => exact .inr ⟨t, o.1, o.2, hb, rfl, hr, by simpa only [ht, hr] using h⟩

/-- Records that are taken to the end mark are whole records, taken page by page alike. -/
theorem takeWhole_of_takeRecords {bytes : List Byte} (h : takeRecords n c bytes = some c') :
    takeWhole n c bytes = c' := by
  induction n generalizing c bytes with
  | zero => cases h
  | succ n ih =>
    cases bytes with
    | nil => cases h
    | cons b rest =>
      rcases takeRecords_cons h with ⟨rfl, rfl⟩ | ⟨t, c1, k, -, ht, hr, hrest⟩
      · exact takeWhole_unknown (by decide)
      · simp only [takeWhole, ht, hr]
        exact ih hrest

/-- More fuel takes the same records. -/
theorem takeRecords_mono {bytes : List Byte} {m : Nat} (hnm : n ≤ m)
    (h : takeRecords n c bytes = some c') : takeRecords m c bytes = some c' := by
  induction n generalizing c bytes m with
  | zero => cases h
  | succ n ih =>
    obtain ⟨m, rfl⟩ := Nat.exists_eq_succ_of_ne_zero (show m ≠ 0 by omega)
    cases bytes with
    | nil => cases h
    | cons b rest =>
      rcases takeRecords_cons h with ⟨rfl, rfl⟩ | ⟨t, c1, k, hb, ht, hr, hrest⟩
      · exact takeRecords_end m c rest
      · simp only [takeRecords, if_neg hb, ht, hr]
        exact ih (by omega) hrest
end

end Sys2Proof.Machine
end

