-- ==== Sys2Proof/Proofs/Loading.lean ====
section
/-! PROOFS. LOADING gives a saved configuration back (R180 to R182): the records of an image are taken one after
another, in the order of the tables, each into tables that hold what came before it, and the tables behind the
last record are those that were saved. -/

namespace Sys2Proof.Machine

/-! ### Tables by their entries -/

theorem vector_eq_of_entries {n : Nat} {α : Type} {v w : Vector α n} {f : α → Entry}
    (hf : Function.Injective f) (h : ∀ i, i < n → v[i]?.map f = w[i]?.map f) : v = w :=
  Vector.ext fun i hi => by simpa [hi, hf.eq_iff] using h i hi

theorem routes_eq_of_entries {l m : List Route} (hl : l.length ≤ 256) (hm : m.length ≤ 256)
    (h : ∀ i, i < 256 → l[i]? = m[i]?) : l = m := by
  refine List.ext_getElem? fun i => ?_
  by_cases hi : i < 256
  · exact h i hi
  · rw [List.getElem?_eq_none (by omega), List.getElem?_eq_none (by omega)]

/-- Tables with the same entries are the same. -/
theorem tables_eq_of_entries {c c' : Tables} (hl : c.routes.length ≤ 256) (hl' : c'.routes.length ≤ 256)
    (h : ∀ t i, i < t.entries → getEntry c t i = getEntry c' t i) : c = c' := by
  have hroutes : c.routes = c'.routes := routes_eq_of_entries hl hl' fun i hi =>
    Entry.route.inj (Option.some.inj (h .route i hi))
  have hpermits := vector_eq_of_entries (fun _ _ => Entry.permit.inj) (h .permit)
  have hreports := vector_eq_of_entries (fun _ _ => Entry.report.inj) (h .report)
  have htrunks := vector_eq_of_entries (fun _ _ => Entry.trunk.inj) (h .trunk)
  have hnodes := vector_eq_of_entries (fun _ _ => Entry.node.inj) (h .node)
  have haxes := vector_eq_of_entries (fun _ _ => Entry.axis.inj) (h .axis)
  have hprofiles := vector_eq_of_entries (fun _ _ => Entry.profile.inj) (h .profile)
  have hzones := vector_eq_of_entries (fun _ _ => Entry.zone.inj) (h .zone)
  have hdoors := vector_eq_of_entries (fun _ _ => Entry.door.inj) (h .door)
  have hareas := vector_eq_of_entries (fun _ _ => Entry.area.inj) (h .area)
  have hchannels := vector_eq_of_entries (fun _ _ => Entry.channel.inj) (h .channel)
  have hmonitors := vector_eq_of_entries (fun _ _ => Entry.monitor.inj) (h .monitor)
  have hmstates := vector_eq_of_entries (fun _ _ => Entry.mstate.inj) (h .mstate)
  have hlamps := vector_eq_of_entries (fun _ _ => Entry.lamp.inj) (h .lamp)
  have hlines := vector_eq_of_entries (n := 14) (fun _ _ => Entry.line.inj)
    fun i hi => h .line i (Nat.lt_trans hi (by decide))
  have hparam := Entry.param.inj (Option.some.inj (h .param 0 (by decide)))
  cases c
  cases c'
  congr

/-! ### Tables read so far -/

/-- The entries whose records stand before the record of entry `i` of the table with id `k`. -/
abbrev ReadBefore (k i : Nat) (t : Table) (j : Nat) : Prop := t.id < k ∨ t.id = k ∧ j < i

/-- `u` holds the entries of `c` whose records have been read, and else what it held at reset. -/
structure ReadTo (c : Tables) (k i : Nat) (u : Tables) : Prop where
  read : ∀ t j, j < t.entries → ReadBefore k i t j → getEntry u t j = getEntry c t j
  unread : ∀ t j, j < t.entries → ¬ReadBefore k i t j → getEntry u t j = getEntry Tables.reset t j
  routes : u.routes.length ≤ 256

theorem table_id_pos (t : Table) : 1 ≤ t.id := by cases t <;> decide

theorem readTo_reset (c : Tables) : ReadTo c 1 0 Tables.reset := by
  refine ⟨fun t j _ h => ?_, fun _ _ _ _ => rfl, Nat.zero_le _⟩
  have := table_id_pos t
  rcases h with h | ⟨-, h⟩ <;> omega

section
variable {c u u' : Tables} {t : Table} {i d : Nat} {e : Entry}

/-- Behind the records of one table stands the next one. -/
theorem ReadTo.next_table (h : ReadTo c t.id t.entries u) : ReadTo c (t.id + 1) 0 u := by
  refine ⟨fun t' j hj hb => h.read t' j hj ?_, fun t' j hj hb => h.unread t' j hj fun hn => hb ?_,
    h.routes⟩
  · rcases hb with hb | ⟨-, hb⟩
    · rcases Nat.lt_succ_iff_lt_or_eq.mp hb with hlt | heq
      · exact .inl hlt
      · obtain rfl := table_id_injective _ _ heq
        exact .inr ⟨rfl, hj⟩
    · exact absurd hb (Nat.not_lt_zero j)
  · rcases hn with hn | ⟨hn, -⟩ <;> exact .inl (by omega)

/-- What `u'` holds when entry `i` of its table is read into it and the others are those of `u`. -/
theorem ReadTo.next (h : ReadTo c t.id i u) (hsame : getEntry u' t i = getEntry c t i)
    (hother : ∀ t' j, j < t'.entries → ¬(t' = t ∧ j = i) → getEntry u' t' j = getEntry u t' j)
    (hl : u'.routes.length ≤ 256) : ReadTo c t.id (i + 1) u' := by
  refine ⟨fun t' j hj hb => ?_, fun t' j hj hb => ?_, hl⟩
  · by_cases hx : t' = t ∧ j = i
    · obtain ⟨rfl, rfl⟩ := hx
      exact hsame
    · rw [hother t' j hj hx]
      refine h.read t' j hj ?_
      rcases hb with hb | ⟨hid, hlt⟩
      · exact .inl hb
      · have : j ≠ i := fun hji => hx ⟨table_id_injective _ _ hid, hji⟩
        exact .inr ⟨hid, by omega⟩
  · have hx : ¬(t' = t ∧ j = i) := fun ⟨ht, hji⟩ => hb (.inr ⟨congrArg _ ht, by omega⟩)
    rw [hother t' j hj hx]
    exact h.unread t' j hj fun hn => hb (hn.imp_right fun ⟨hid, hlt⟩ => ⟨hid, by omega⟩)

/-- An entry that stands as at reset needs no record. -/
theorem ReadTo.skip (h : ReadTo c t.id i u) (hi : i < t.entries)
    (hr : getEntry c t i = getEntry Tables.reset t i) : ReadTo c t.id (i + 1) u :=
  h.next ((h.unread t i hi fun hn => by rcases hn with hn | ⟨-, hn⟩ <;> omega).trans hr.symm)
    (fun _ _ _ _ => rfl) h.routes

theorem routes_put (h : Putting u i u' d e) (hr : e.table ≠ .route) : u'.routes = u.routes :=
  List.ext_getElem? fun j => Entry.route.inj (Option.some.inj (getEntry_put_table h hr.symm j))

/-- A record of a table other than ROUTE and PARAM is read into its entry. -/
theorem ReadTo.put (h : ReadTo c e.table.id i u) (hput : Putting u i u' d e) (hi : i < e.table.entries)
    (hr : e.table ≠ .route) (hq : e.table ≠ .param) (he : getEntry c e.table i = some e) :
    ReadTo c e.table.id (i + 1) u' := by
  refine h.next ((getEntry_put_same hput hi hr hq).trans he.symm) (fun t' j _ hx => ?_)
    (routes_put hput hr ▸ h.routes)
  by_cases ht : t' = e.table
  · obtain rfl := ht
    exact getEntry_put_other hput hr hq fun hji => hx ⟨rfl, hji⟩
  · exact getEntry_put_table hput ht j
end

/-! ### The records of the route list -/

theorem insertRoute_last {x : Route} {l : List Route}
    (h : ∀ y ∈ l, y.station.toNat < x.station.toNat) : insertRoute x l = l ++ [x] := by
  induction l with
  | nil => rfl
  | cons y l ih =>
    have hy := h y List.mem_cons_self
    rw [insertRoute, if_neg (by omega), ih fun z hz => h z (.tail _ hz)]
    rfl

section
variable {c u : Tables} {i : Nat} {x : Route}

/-- The route list read so far is the front of the saved one. -/
theorem ReadTo.routes_eq (h : ReadTo c Table.route.id i u) (hi : i ≤ 256) : u.routes = c.routes.take i := by
  refine List.ext_getElem? fun j => ?_
  rw [List.getElem?_take]
  by_cases hj : j < 256
  · split
    · rename_i hji
      exact Entry.route.inj (Option.some.inj (h.read .route j hj (.inr ⟨rfl, hji⟩)))
    · rename_i hji
      exact Entry.route.inj (Option.some.inj (h.unread .route j hj
        fun hn => by rcases hn with hn | ⟨-, hn⟩ <;> omega))
  · rw [List.getElem?_eq_none (Nat.le_trans h.routes (by omega)), if_neg (by omega)]

/-- A ROUTE record goes behind the entries read before it. -/
theorem putRoute_take {l : List Route} (hl : l.Pairwise RouteOrder) (hx : l[i]? = some x) :
    ∃ d, putRoute (l.take i) i (some x) = .ok (l.take (i + 1), d) := by
  obtain ⟨hi, rfl⟩ := List.getElem?_eq_some_iff.mp hx
  have hlen : (l.take i).length = i := by rw [List.length_take]; omega
  have hbefore : ∀ y ∈ l.take i, RouteOrder y l[i] := fun y hy => by
    obtain ⟨j, hj, rfl⟩ := List.getElem_of_mem hy
    rw [List.getElem_take]
    exact List.pairwise_iff_getElem.mp hl j i (by omega) hi (by omega)
  have hd : routeDuplicate ((l.take i).eraseIdx i) l[i] = none := by
    rw [List.eraseIdx_of_length_le hlen.le]
    refine routeDuplicate_none.mpr ⟨fun y hy he => ?_, fun n hn y hy hy' => ?_⟩
    · have := (hbefore y hy).1
      rw [he] at this
      omega
    · exact (hbefore y hy).2 n hy' hn
  have hput := putRoute_passes hd hlen.ge
  rw [List.eraseIdx_of_length_le hlen.le, insertRoute_last fun y hy => (hbefore y hy).1,
    List.take_append_getElem hi] at hput
  exact ⟨_, hput⟩
end

/-! ### The records of the tables, one behind the other -/

/-- Tables as a console can save them: they fit, and a REPORT without a mode holds nothing else. -/
structure Saveable (c : Tables) : Prop where
  fits : TablesFit c
  reports : ∀ i : Fin 124, c.reports[i].mode = .none → c.reports[i] = emptyReport

section
variable {c u : Tables} {t : Table} {i : Nat} {e : Entry}

theorem Saveable.entryFits (hc : Saveable c) (hi : i < t.entries) (he : getEntry c t i = some e) :
    EntryFits t i e := ((tablesFit_iff c).mp hc.fits).1 t i e hi he

/-- An empty entry is the one its table holds at reset. -/
theorem Saveable.empty_reset (hc : Saveable c) (hi : i < t.entries) (he : getEntry c t i = some e)
    (hn : e.empty = true) : getEntry Tables.reset t i = some e := by
  rcases (hc.entryFits hi he).2 hn with rfl | hr
  · obtain ⟨hlt, rfl⟩ : ∃ hlt : i < 124, .report c.reports[i] = e := by
      simpa [getEntry, Vector.getElem?_eq_some_iff] using he
    have hx : c.reports[i] = emptyReport := hc.reports ⟨i, hlt⟩ (beq_iff_eq.mp hn)
    rw [hx]
    exact getEntry_reset_vector hlt _
  · exact hr

theorem getEntry_none (h : getEntry c t i = none) : getEntry u t i = none := by
  cases t with
  | route | param => cases h
  | _ => simpa [getEntry] using h

/-- An entry that leaves no record stands as at reset. -/
theorem Saveable.skipped (hc : Saveable c) (hi : i < t.entries)
    (h : ∀ e, getEntry c t i = some e → e.empty = true) :
    getEntry c t i = getEntry Tables.reset t i := by
  cases he : getEntry c t i with
  | none => exact (getEntry_none he).symm
  | some e => exact (hc.empty_reset hi he (h e he)).symm

theorem profileRules_passes {b : Breakpoint}
    (hb : i % 8 ≠ 0 → ∃ p, profileBefore u i = some p ∧ p.position < b.position)
    (ha : profileAfter u i = none) : profileRules u i (some b) = none := by
  by_cases hi : i % 8 = 0
  · simp [profileRules, profileBefore, ha, hi]
  · obtain ⟨p, hp, hlt⟩ := hb hi
    simp [profileRules, hp, ha, hlt]

/-- A breakpoint's record follows the one below it on its axis, and nothing above it is read yet. -/
theorem ReadTo.profileRules_none (h : ReadTo c Table.profile.id i u) (hp : ProfilesRise c.profiles)
    {b : Breakpoint} (hi : i < 48) (hb : c.profiles[i]? = some (some b)) :
    profileRules u i (some b) = none := by
  have hinj := Option.map_injective (f := Entry.profile) fun _ _ => Entry.profile.inj
  refine profileRules_passes (fun h8 => ?_) ?_
  · obtain ⟨p, hpb, hlt⟩ := hp ⟨i - 1, by omega⟩ b (by dsimp only; omega)
      (by rwa [show i - 1 + 1 = i by omega])
    refine ⟨p, ?_, hlt⟩
    rw [profileBefore, if_neg h8, hinj (h.read .profile (i - 1) (by show i - 1 < 48; omega)
      (.inr ⟨rfl, by omega⟩)), hpb]
    rfl
  · rw [profileAfter]
    split
    · rfl
    · have hlt : i + 1 < 48 := by omega
      rw [hinj (h.unread .profile (i + 1) hlt fun hn => by rcases hn with hn | ⟨-, hn⟩ <;> omega)]
      simp [Tables.reset, hlt]

/-- What was saved passes the in-table checks of its own table, ROUTE's list apart. -/
theorem ReadTo.putEntry_takes (hc : Saveable c) (h : ReadTo c e.table.id i u) (hi : i < e.table.entries)
    (hr : e.table ≠ .route) (he : getEntry c e.table i = some e) (hn : e.empty = false) :
    ∃ u' d, putEntry u i e = .ok (u', d) := by
  obtain ⟨-, -, -, hrise, hchannels, -⟩ := (tablesFit_iff c).mp hc.fits
  cases e with
  | route x => exact absurd rfl hr
  | profile x =>
    cases x with
    | none => cases hn
    | some b =>
      have hb : c.profiles[i]? = some (some b) := by simpa [getEntry, Entry.table] using he
      refine ⟨{ u with profiles := u.profiles.setIfInBounds i (some b) }, 0, ?_⟩
      simp only [putEntry, h.profileRules_none hrise hi hb]
  | channel x =>
    obtain ⟨hlt, rfl⟩ : ∃ hlt : i < 32, c.channels[i] = x := by
      simpa [getEntry, Entry.table, Vector.getElem?_eq_some_iff] using he
    have hw := hchannels ⟨i, hlt⟩
    simp only [Fin.getElem_fin] at hw
    exact ⟨_, _, if_neg (by simpa using hw)⟩
  | line x =>
    obtain ⟨hlt, -⟩ : ∃ hlt : i < 14, c.lines[i] = x := by
      simpa [getEntry, Entry.table, Vector.getElem?_eq_some_iff] using he
    exact ⟨_, _, if_pos hlt⟩
  | _ x => exact ⟨_, _, rfl⟩

/-- A ROUTE record of a saved list goes behind those read before it. -/
theorem ReadTo.record_route {x : Route} (hc : Saveable c) (h : ReadTo c Table.route.id i u)
    (hi : i < Table.route.entries) (hx : c.routes[i]? = some x) :
    ∃ u' d, putEntry u i (.route (some x)) = .ok (u', d) ∧ ReadTo c Table.route.id (i + 1) u' := by
  obtain ⟨-, hlen, hpair, -⟩ := (tablesFit_iff c).mp hc.fits
  have hu := h.routes_eq (Nat.le_of_lt hi)
  obtain ⟨d, hd⟩ := putRoute_take hpair hx
  have hput : putEntry u i (.route (some x)) = .ok ({ u with routes := c.routes.take (i + 1) }, d) := by
    simp only [putEntry, hu, hd]
  refine ⟨_, d, hput, h.next (t := .route) ?_ (fun t' j _ hne => ?_) ?_⟩
  · show some (Entry.route (c.routes.take (i + 1))[i]?) = some (Entry.route c.routes[i]?)
    rw [List.getElem?_take_of_lt (Nat.lt_succ_self i)]
  · by_cases ht : t' = .route
    · subst ht
      show some (Entry.route (c.routes.take (i + 1))[j]?) = some (Entry.route u.routes[j]?)
      have hji : j ≠ i := fun hji => hne ⟨rfl, hji⟩
      have hiff : j < i + 1 ↔ j < i := by omega
      simp only [hu, List.getElem?_take, hiff]
    · exact getEntry_put_table (putEntry_ok hput) ht j
  · exact (List.length_take_le' _ _).trans hlen

/-- A record of a saved entry is taken, and the entry stands in its place (R182). -/
theorem ReadTo.record (hc : Saveable c) (h : ReadTo c t.id i u) (hi : i < t.entries)
    (hq : t ≠ .param) (he : getEntry c t i = some e) (hn : e.empty = false) :
    ∃ u' d, putEntry u i e = .ok (u', d) ∧ ReadTo c t.id (i + 1) u' := by
  obtain rfl := fits_table (hc.entryFits hi he).1
  by_cases hr : e.table = .route
  · cases e with
    | route x =>
      cases x with
      | none => cases hn
      | some x => exact h.record_route hc hi (Entry.route.inj (Option.some.inj he))
    | _ x => cases hr
  · obtain ⟨u', d, hput⟩ := h.putEntry_takes hc hi hr he hn
    exact ⟨u', d, hput, h.put (putEntry_ok hput) hi hr hq he⟩

theorem cutShort_empty (h : e.empty = false) : e.cutShort = false := by
  cases e with
  | line x | param x | lamp x | report x | profile x | zone x | area x => rfl
  | _ x => exact h

theorem not_clamped (h : e.table ≠ .param) : e.clamped = false := by
  cases e with
  | param x => exact absurd rfl h
  | _ x => rfl
end

/-! ### The taking of a saved image -/

/-- These bytes hold no more records than bytes, up to the end mark, and they give `c'`. -/
def LoadsTo (u : Tables) (bytes : List Byte) (c' : Tables) : Prop :=
  ∃ n ≤ bytes.length, takeRecords n u bytes = some c'

theorem LoadsTo.takeRecords {u c' : Tables} {bytes : List Byte} {n : Nat} (h : LoadsTo u bytes c')
    (hn : bytes.length ≤ n) : takeRecords n u bytes = some c' := by
  obtain ⟨m, hm, ht⟩ := h
  exact takeRecords_mono (hm.trans hn) ht

theorem loadsTo_end (u : Tables) (rest : List Byte) : LoadsTo u (endMark :: rest) u :=
  ⟨1, Nat.succ_le_succ (Nat.zero_le _), takeRecords_end 0 u rest⟩

theorem LoadsTo.record {u u' c' : Tables} {t : Table} {i d : Nat} {e : Entry} {rest : List Byte}
    (h : LoadsTo u' rest c') (hf : e.fits t i = true) (hi : i < t.entries) (hc : e.cutShort = false)
    (hcl : e.clamped = false) (hp : putEntry u i e = .ok (u', d)) :
    LoadsTo u (imageRecord t i e ++ rest) c' := by
  obtain ⟨n, hn, ht⟩ := h
  refine ⟨n + 1, ?_, (takeRecords_record hf hi hc hcl hp rest).trans ht⟩
  rw [imageRecord, List.length_append, List.length_append, List.length_append, b1_length]
  omega

/-- The record of an entry; nothing for an empty one, which leaves none (log 9). -/
def entryRecord (c : Tables) (t : Table) (i : Nat) : List Byte :=
  match getEntry c t i with
  | some e => if e.empty then [] else imageRecord t i e
  | none => []

theorem tableRecords_eq (c : Tables) (t : Table) :
    tableRecords c t = (List.range t.entries).flatMap (entryRecord c t) := rfl

theorem entryRecord_none {c : Tables} {t : Table} {i : Nat}
    (h : ∀ e, getEntry c t i = some e → e.empty = true) : entryRecord c t i = [] := by
  unfold entryRecord
  cases he : getEntry c t i with
  | none => rfl
  | some e => exact if_pos (h e he)

theorem entryRecord_some {c : Tables} {t : Table} {i : Nat} {e : Entry}
    (h : getEntry c t i = some e) (hn : e.empty = false) : entryRecord c t i = imageRecord t i e := by
  simp only [entryRecord, h, hn, Bool.false_eq_true, if_false]

section
variable {c u x : Tables} {t : Table} {rest : List Byte}

theorem loadsTo_entry {i : Nat} (hc : Saveable c) (hi : i < t.entries) (hq : t ≠ .param)
    (h : ReadTo c t.id i u) (hrest : ∀ u', ReadTo c t.id (i + 1) u' → LoadsTo u' rest x) :
    LoadsTo u (entryRecord c t i ++ rest) x := by
  by_cases hn : ∀ e, getEntry c t i = some e → e.empty = true
  · rw [entryRecord_none hn]
    exact hrest u (h.skip hi (hc.skipped hi hn))
  · simp only [not_forall, Bool.not_eq_true] at hn
    obtain ⟨e, he, hne⟩ := hn
    obtain ⟨u', d, hp, hu'⟩ := h.record hc hi hq he hne
    have hf := (hc.entryFits hi he).1
    rw [entryRecord_some he hne]
    exact (hrest u' hu').record hf hi (cutShort_empty hne) (not_clamped (fits_table hf ▸ hq)) hp

/-- The records of one table from entry `i` on. -/
theorem loadsTo_entries {i m : Nat} (hc : Saveable c) (hm : i + m = t.entries) (hq : t ≠ .param)
    (h : ReadTo c t.id i u) (hrest : ∀ u', ReadTo c t.id t.entries u' → LoadsTo u' rest x) :
    LoadsTo u ((List.range' i m).flatMap (entryRecord c t) ++ rest) x := by
  induction m generalizing i u with
  | zero => exact hrest u (hm ▸ h)
  | succ m ih =>
    rw [List.range'_succ, List.flatMap_cons, List.append_assoc]
    exact loadsTo_entry hc (by omega) hq h fun u' hu' => ih (by omega) hu'

theorem loadsTo_table (hc : Saveable c) (hq : t ≠ .param) (h : ReadTo c t.id 0 u)
    (hrest : ∀ u', ReadTo c (t.id + 1) 0 u' → LoadsTo u' rest x) :
    LoadsTo u (tableRecords c t ++ rest) x := by
  rw [tableRecords_eq, List.range_eq_range']
  exact loadsTo_entries hc (Nat.zero_add _) hq h fun u' hu' => hrest u' hu'.next_table

/-- The records of tables whose ids follow one another from `k` on. -/
theorem loadsTo_tables {ts : List Table} {k : Nat} (hc : Saveable c) (hq : ∀ t ∈ ts, t ≠ .param)
    (hk : ts.map Table.id = List.range' k ts.length) (h : ReadTo c k 0 u)
    (hrest : ∀ u', ReadTo c (k + ts.length) 0 u' → LoadsTo u' rest x) :
    LoadsTo u (ts.flatMap (tableRecords c) ++ rest) x := by
  induction ts generalizing k u with
  | nil => exact hrest u h
  | cons t ts ih =>
    rw [List.map_cons, List.length_cons, List.range'_succ] at hk
    obtain ⟨rfl, hk⟩ := List.cons.inj hk
    rw [List.flatMap_cons, List.append_assoc]
    refine loadsTo_table hc (hq t List.mem_cons_self) h fun u' hu' =>
      ih (fun t' ht => hq t' (.tail _ ht)) hk hu' fun u'' hu'' => hrest u'' ?_
    rwa [List.length_cons, Nat.add_comm ts.length, ← Nat.add_assoc]

/-- PARAM's fields are the last record, and behind it the tables are those that were saved. -/
theorem loadsTo_param (hc : Saveable c) (h : ReadTo c Table.param.id 0 u) :
    LoadsTo u (imageRecord .param 0 (.param c.param) ++ endMark :: rest) c := by
  obtain ⟨-, hlen, -, -, -, hlo, hhi⟩ := (tablesFit_iff c).mp hc.fits
  have hclamp : clampBeacon c.param.beaconPeriod = c.param.beaconPeriod := by
    unfold clampBeacon
    omega
  have hput : putEntry u 0 (.param c.param) = .ok ({ u with param := c.param }, 0) := by
    simp only [putEntry, hclamp]
  have hc' : ({ u with param := c.param } : Tables) = c := by
    refine tables_eq_of_entries h.routes hlen fun t j hj => ?_
    by_cases ht : t = .param
    · subst ht
      rfl
    · refine (getEntry_put_table (putEntry_ok hput) ht j).trans (h.read t j hj (.inl ?_))
      exact lt_of_le_of_ne (by cases t <;> decide) fun hid => ht (table_id_injective _ _ hid)
  rw [hc'] at hput
  exact (loadsTo_end c rest).record (hc.entryFits (by decide) rfl).1 (by decide) rfl
    (bne_eq_false_iff_eq.mpr hclamp) hput

theorem loadsTo_imageBody (hc : Saveable c) : LoadsTo Tables.reset (imageBody c ++ rest) c := by
  rw [imageBody, List.append_assoc, List.append_assoc]
  exact loadsTo_tables hc (by decide) (by decide) (readTo_reset c) fun u' hu' => loadsTo_param hc hu'
end

theorem judgeImageBytes_image {c : Tables} (hc : Saveable c) (hv : validate c = none) :
    judgeImageBytes false (image c) = .good c := by
  have hcrc := word2_extract (crc16 (imageBody c ++ List.replicate (imageFill c) 0))
  have himage : ∃ a b, image c = a :: b ::
      (crc16 (imageBody c ++ List.replicate (imageFill c) 0)).extractLsb' 8 8 ::
      (crc16 (imageBody c ++ List.replicate (imageFill c) 0)).extractLsb' 0 8 ::
      (imageBody c ++ List.replicate (imageFill c) 0) := ⟨_, _, image_eq c⟩
  obtain ⟨a, b, himage⟩ := himage
  have hload : takeRecords (image c).length Tables.reset
      (imageBody c ++ List.replicate (imageFill c) 0) = some c :=
    (loadsTo_imageBody hc).takeRecords (by rw [himage]; exact Nat.le_add_right _ 4)
  rw [himage] at hload ⊢
  rw [judgeImageBytes_readable rfl hcrc.symm, hload]
  exact if_pos (Option.isNone_iff_eq_none.mpr hv)

/-! ### A REPORT without a mode -/

/-- Tables whose REPORT entries of mode NONE hold nothing else. -/
def plainReports (c : Tables) : Tables :=
  { c with reports := c.reports.map fun x => if x.mode = .none then emptyReport else x }

section
variable {c : Tables}

variable {t : Table} {i : Nat}

/-- What stands in a REPORT entry of the plain tables. -/
theorem getEntry_plainReports_report (i : Nat) : getEntry (plainReports c) .report i =
    c.reports[i]?.map fun x => .report (if x.mode = .none then emptyReport else x) := by
  simp only [getEntry, plainReports, Vector.getElem?_map, Option.map_map]
  rfl

theorem getEntry_plainReports (h : ∀ x, getEntry c t i = some (.report x) → x.mode ≠ .none) :
    getEntry (plainReports c) t i = getEntry c t i := by
  cases t with
  | report =>
    rw [getEntry_plainReports_report]
    refine Option.map_congr fun x hx => ?_
    rw [if_neg (h x (congrArg (Option.map Entry.report) hx))]
  | _ => rfl

theorem table_report {x : ReportCfg} (h : getEntry c t i = some (.report x)) : t = .report := by
  cases t with
  | report => rfl
  | _ => simp [getEntry] at h

theorem getEntry_plainReports_none {x : ReportCfg} (h : getEntry c t i = some (.report x))
    (hm : x.mode = .none) : getEntry (plainReports c) t i = some (.report emptyReport) := by
  obtain rfl := table_report h
  obtain ⟨y, hy, hyx⟩ := Option.map_eq_some_iff.mp (show c.reports[i]?.map Entry.report = some _ from h)
  obtain rfl := Entry.report.inj hyx
  rw [getEntry_plainReports_report, hy, Option.map_some, if_pos hm]

theorem plainReports_saveable (h : TablesFit c) : Saveable (plainReports c) := by
  obtain ⟨hfit, hrules⟩ := (tablesFit_iff c).mp h
  refine ⟨(tablesFit_iff _).mpr ⟨fun t i e hi he => ?_, hrules⟩, fun i hm => ?_⟩
  · by_cases hx : ∃ x, getEntry c t i = some (.report x) ∧ x.mode = .none
    · obtain ⟨x, hx, hm⟩ := hx
      obtain rfl := table_report hx
      obtain rfl := Option.some.inj (he.symm.trans (getEntry_plainReports_none hx hm))
      exact entryFits_reset hi (getEntry_reset_vector hi _)
    · rw [getEntry_plainReports fun x hx' hm => hx ⟨x, hx', hm⟩] at he
      exact hfit t i e hi he
  · simp only [plainReports, Fin.getElem_fin, Vector.getElem_map] at hm ⊢
    split at hm
    · exact if_pos ‹_›
    · exact absurd hm ‹_›

theorem entryRecord_plainReports (c : Tables) (t : Table) (i : Nat) :
    entryRecord (plainReports c) t i = entryRecord c t i := by
  by_cases hx : ∃ x, getEntry c t i = some (.report x) ∧ x.mode = .none
  · obtain ⟨x, hx, hm⟩ := hx
    simp only [entryRecord, hx, getEntry_plainReports_none hx hm, Entry.empty, hm]
    rfl
  · rw [entryRecord, getEntry_plainReports fun x hx' hm => hx ⟨x, hx', hm⟩]
    rfl

theorem image_plainReports (c : Tables) : image (plainReports c) = image c := by
  have hbody : imageBody (plainReports c) = imageBody c := by
    have hrecords : tableRecords (plainReports c) = tableRecords c := funext fun t =>
      congrArg (List.flatMap · _) (funext (entryRecord_plainReports c t))
    rw [imageBody, hrecords]
    rfl
  rw [image_eq, image_eq, imageFill, imageFill, hbody]

theorem validate_plainReports (c : Tables) : validate (plainReports c) = validate c := rfl

theorem judgeImageBytes_plainReports (h : TablesFit c) (hv : validate c = none) :
    judgeImageBytes false (image c) = .good (plainReports c) := by
  rw [← image_plainReports]
  exact judgeImageBytes_image (plainReports_saveable h) hv
end

/-! ### The tables while LOADING goes on -/

theorem tablesSoFar_of_takeRecords {c : Tables} {bytes : List Byte}
    (h : takeRecords bytes.length Tables.reset (bytes.drop 4) = some c) :
    tablesSoFar bytes = { c with lamps := Tables.reset.lamps, param := Tables.reset.param } := by
  rw [tablesSoFar, headerBytes, takeWhole_of_takeRecords h]

/-- Settles O18: the image record by record, each into tables that hold what came before it; the records
page by page are those taken at the end. -/
theorem savedImagesLoadBack : Obligations.SavedImagesLoadBack := by
  refine ⟨fun c hf hv => ⟨judgeImageBytes_plainReports hf hv, fun h => ?_⟩,
    fun n i d c c' t e rest hf hi hc hcl hp =>
      ⟨takeRecords_record hf hi hc hcl hp rest, takeWhole_record hf hi hc hcl hp rest⟩,
    fun n c b rest => ⟨takeWhole_nil n c, rfl, takeRecords_end n c rest, fun hb => ?_⟩,
    fun c bytes h => tablesSoFar_of_takeRecords h⟩
  · exact judgeImageBytes_image ⟨hf, h⟩ hv
  · have hid : b.toNat = 0 ∨ 16 < b.toNat := hb.imp_left fun h0 => congrArg BitVec.toNat h0
    exact ⟨takeWhole_unknown hid, takeRecords_unknown hid⟩

end Sys2Proof.Machine
end

