-- ==== Sys2Proof/Proofs/ResetInvariants.lean ====
section
/-! PROOFS. The machine after reset meets every invariant: its instances are at their reset values (R42, R67,
R105, R107), its queues are empty, and no table is in force (R161, R179). -/

namespace Sys2Proof.Machine

/-! ### The instances after reset -/

theorem reset_axis (a : Fin 6) : State.reset.run.axes[a] = resetAxis := replicate_get _ a

theorem reset_trunk (t : Fin 4) : State.reset.run.trunks[t] = resetTrunk := replicate_get _ t

theorem reset_zone (z : Fin 8) : State.reset.run.zones[z] = resetZone := replicate_get _ z

/-! ### The invariants -/

theorem settled_reset : Settled State.reset := by
  refine ⟨fun z => ?_, (chainImage_reset rfl).symm, rfl⟩
  rw [zoneStateNow_inactive (by rw [reset_zone]; rfl), reset_zone]
  rfl

theorem eventsInOrder_reset : EventsInOrder State.reset := ⟨Nat.zero_le _, Nat.zero_le _, 0, rfl⟩

theorem consoleInBounds_reset : ConsoleInBounds State.reset :=
  ⟨Nat.zero_le _, Nat.zero_le _, Nat.zero_le _⟩

theorem haltedHaveCauses_reset : HaltedHaveCauses State.reset := fun a => by
  rw [reset_axis]
  decide

theorem callsInOrder_reset : CallsInOrder State.reset := ⟨Nat.zero_le _, .nil, by rintro k ⟨⟩⟩

theorem queuesInBounds_reset : QueuesInBounds State.reset := fun t => by
  rw [reset_trunk]
  exact Nat.zero_le _

theorem stoppedBySafety_reset : StoppedBySafety State.reset := by
  refine ⟨fun a _ => ?_, fun _ => ⟨fun a => ?_, fun t => ?_⟩, iff_of_true rfl rfl⟩
  · rw [reset_axis]
    decide
  · rw [reset_axis]
    rfl
  · rw [reset_trunk]
    exact ⟨rfl, rfl, rfl⟩

theorem tablesSound_reset : TablesSound State.reset := by
  refine ⟨tablesFit_reset, fun hforce => Bool.noConfusion hforce, fun hsave => ?_, fun _ => rfl⟩
  rcases hsave with hwriting | hverifying
  · cases hwriting
  · cases hverifying

/-- Settles O55: invariant by invariant, from the reset values of the instances each one speaks of. -/
theorem resetMeetsTheInvariants : Obligations.ResetMeetsTheInvariants :=
  ⟨settled_reset, eventsInOrder_reset, consoleInBounds_reset, haltedHaveCauses_reset,
    callsInOrder_reset, queuesInBounds_reset, rfl, stoppedBySafety_reset, tablesSound_reset, rfl⟩

end Sys2Proof.Machine
end

