-- ==== Sys2Proof/Proofs/Stance.lean ====
section
/-! PROOFS. The stance of the deck: what the safety rules read of the runtime, each axis's state and halt
causes, each zone's fire flag and override, and the accepted ESTOP level. Most operations leave it as it is;
here each of them is shown to, unit by unit, so that the proofs about motion (R81) speak of the few that do
not. -/

namespace Sys2Proof.Machine

/-- What the safety rules read of the runtime. -/
structure Stance where
  axes : Fin 6 → AxisState × BitVec 9
  zones : Fin 8 → Bool × Bool
  estop : Bool

def Run.stance (r : Run) : Stance where
  axes a := (r.axes[a].state, r.axes[a].causes)
  zones z := (r.zones[z].fire, r.zones[z].override)
  estop := r.lines[(0 : Fin 14)].accepted

section
variable {r r' : Run}

theorem stance_state (h : r'.stance = r.stance) (a : Fin 6) : r'.axes[a].state = r.axes[a].state :=
  congrArg (fun x => (x.axes a).1) h

theorem stance_override (h : r'.stance = r.stance) (z : Fin 8) :
    r'.zones[z].override = r.zones[z].override := congrArg (fun x => (x.zones z).2) h

theorem stance_ext (hs : ∀ a : Fin 6, r'.axes[a].state = r.axes[a].state)
    (hc : ∀ a : Fin 6, r'.axes[a].causes = r.axes[a].causes)
    (hf : ∀ z : Fin 8, r'.zones[z].fire = r.zones[z].fire)
    (ho : ∀ z : Fin 8, r'.zones[z].override = r.zones[z].override)
    (he : r'.lines[(0 : Fin 14)].accepted = r.lines[(0 : Fin 14)].accepted) : r'.stance = r.stance := by
  unfold Run.stance
  congr 1
  · exact funext fun a => by rw [hs, hc]
  · exact funext fun z => by rw [hf, ho]
end

section
variable (c : Tables) (r : Run)

/-! ### The updates of the runtime -/

@[simp] theorem stance_ite (p : Prop) [Decidable p] (a b : Run) :
    (if p then a else b).stance = if p then a.stance else b.stance := apply_ite Run.stance p a b

@[simp] theorem stance_setClock (x) : (r.setClock x).stance = r.stance := rfl
@[simp] theorem stance_setEvents (x) : (r.setEvents x).stance = r.stance := rfl
@[simp] theorem stance_setConsole (x) : (r.setConsole x).stance = r.stance := rfl
@[simp] theorem stance_setPlan (x) : (r.setPlan x).stance = r.stance := rfl
@[simp] theorem stance_setCalls (x) : (r.setCalls x).stance = r.stance := rfl
@[simp] theorem stance_setCallCounter (x) : (r.setCallCounter x).stance = r.stance := rfl
@[simp] theorem stance_setChain (x) : (r.setChain x).stance = r.stance := rfl
@[simp] theorem stance_setSerial (x) : (r.setSerial x).stance = r.stance := rfl
@[simp] theorem stance_setEntered (x) : (r.setEntered x).stance = r.stance := rfl
@[simp] theorem stance_setGw (x) : (r.setGw x).stance = r.stance := rfl
@[simp] theorem stance_setStore (x) : (r.setStore x).stance = r.stance := rfl
@[simp] theorem stance_setFreeCount (x) : (r.setFreeCount x).stance = r.stance := rfl
@[simp] theorem stance_modReport (i f) : (r.modReport i f).stance = r.stance := rfl
@[simp] theorem stance_modTrunk (i f) : (r.modTrunk i f).stance = r.stance := rfl
@[simp] theorem stance_modNode (i f) : (r.modNode i f).stance = r.stance := rfl
@[simp] theorem stance_modDoor (i f) : (r.modDoor i f).stance = r.stance := rfl
@[simp] theorem stance_modArea (i f) : (r.modArea i f).stance = r.stance := rfl
@[simp] theorem stance_modChannel (i f) : (r.modChannel i f).stance = r.stance := rfl
@[simp] theorem stance_modMonitor (i f) : (r.modMonitor i f).stance = r.stance := rfl
@[simp] theorem stance_modOutput (i f) : (r.modOutput i f).stance = r.stance := rfl

/-- An axis record changed in another field than its state and its causes. -/
@[simp] theorem stance_modAxis (i : Fin 6) (f : AxisRt → AxisRt) (hs : ∀ x, (f x).state = x.state)
    (hc : ∀ x, (f x).causes = x.causes) : (r.modAxis i f).stance = r.stance := by
  have h : ∀ a : Fin 6, (r.modAxis i f).axes[a].state = r.axes[a].state ∧
      (r.modAxis i f).axes[a].causes = r.axes[a].causes := fun a => by
    by_cases e : a = i
    · subst e
      rw [Run.modAxis_self]
      exact ⟨hs _, hc _⟩
    · rw [Run.modAxis_ne r i a f e]
      exact ⟨rfl, rfl⟩
  exact stance_ext (fun a => (h a).1) (fun a => (h a).2) (fun _ => rfl) (fun _ => rfl) rfl

/-- A zone record changed in another field than its fire flag and its override. -/
@[simp] theorem stance_modZone (i : Fin 8) (f : ZoneRt → ZoneRt) (hf : ∀ x, (f x).fire = x.fire)
    (ho : ∀ x, (f x).override = x.override) : (r.modZone i f).stance = r.stance := by
  have h : ∀ z : Fin 8, (r.modZone i f).zones[z].fire = r.zones[z].fire ∧
      (r.modZone i f).zones[z].override = r.zones[z].override := fun z => by
    by_cases e : z = i
    · subst e
      rw [Run.modZone_self]
      exact ⟨hf _, ho _⟩
    · rw [Run.modZone_ne r i z f e]
      exact ⟨rfl, rfl⟩
  exact stance_ext (fun _ => rfl) (fun _ => rfl) (fun z => (h z).1) (fun z => (h z).2) rfl

/-- A line record changed in another field than its accepted level. -/
@[simp] theorem stance_modLine (i : Fin 14) (f : LineRt → LineRt)
    (ha : ∀ x, (f x).accepted = x.accepted) : (r.modLine i f).stance = r.stance := by
  refine stance_ext (fun _ => rfl) (fun _ => rfl) (fun _ => rfl) (fun _ => rfl) ?_
  by_cases h : (0 : Fin 14) = i
  · subst h
    rw [Run.modLine_self, ha]
  · rw [Run.modLine_ne r i 0 f h]

/-! ### Repetition -/

theorem stance_foldl {α : Type} (f : Run → α → Run) (hf : ∀ u a, (f u a).stance = u.stance)
    (l : List α) : (l.foldl f r).stance = r.stance := foldl_keeps f Run.stance hf l r

theorem stance_foldlFst {α β : Type} (f : Run × β → α → Run × β)
    (hf : ∀ p a, (f p a).1.stance = p.1.stance) (l : List α) (p : Run × β) :
    (l.foldl f p).1.stance = p.1.stance := by
  induction l generalizing p with
  | nil => rfl
  | cons a l ih => exact (ih _).trans (hf p a)

/-! ### Events and the console port (R15, R16, R173) -/

@[simp] theorem stance_raise (k i d) : (r.raise k i d).stance = r.stance := rfl

@[simp] theorem stance_beginAnswer (a : Answer) : (r.beginAnswer a).stance = r.stance := by
  unfold Run.beginAnswer
  split <;> rfl

@[simp] theorem stance_startTx : (Run.startTx c r).stance = r.stance := by
  unfold Run.startTx
  split
  · exact stance_beginAnswer _ _
  · split
    · rfl
    · split <;> rfl

@[simp] theorem stance_kickConsole : (Run.kickConsole c r).stance = r.stance := by
  simp [Run.kickConsole]

@[simp] theorem stance_answer (req code d data) : (Run.answer c r req code d data).stance = r.stance := by
  simp [Run.answer]

@[simp] theorem stance_report (p) : (Run.report c r p).stance = r.stance := by simp [Run.report]

/-! ### The trunk transmitter and its offers (R49 to R53) -/

@[simp] theorem stance_beginRound (t phase) : (Run.beginRound c r t phase).stance = r.stance := by
  rw [Run.beginRound, stance_foldl _ _ fun _ _ => stance_modNode ..]
  exact stance_modTrunk ..

@[simp] theorem stance_nextRound (t) : (Run.nextRound c r t).stance = r.stance := by
  simp [Run.nextRound]

@[simp] theorem stance_takePoll (t i) : (r.takePoll t i).stance = r.stance := rfl

@[simp] theorem stance_takeSetPoint (t a d) : (Run.takeSetPoint c r t a d).stance = r.stance := by
  simp [Run.takeSetPoint, Run.beginTransaction]

@[simp] theorem stance_selectLower (t) : (Run.selectLower c r t).stance = r.stance := by
  unfold Run.selectLower
  split
  · simp
  · split
    · rfl
    · split
      · rfl
      · split <;> rfl

@[simp] theorem stance_selectFrame (t) : (Run.selectFrame c r t).stance = r.stance := by
  rw [← stance_nextRound c r t]
  unfold Run.selectFrame
  dsimp only
  split
  · rfl
  · split
    · split <;> simp
    · simp

@[simp] theorem stance_kickTrunk (t) : (Run.kickTrunk c r t).stance = r.stance := by
  simp [Run.kickTrunk]

@[simp] theorem stance_enqueueFrame (n code p o) :
    (Run.enqueueFrame c r n code p o).stance = r.stance := by simp [Run.enqueueFrame]

@[simp] theorem stance_offerFrame (n code p o) :
    (Run.offerFrame c r n code p o).1.stance = r.stance := by
  unfold Run.offerFrame
  split <;> simp

@[simp] theorem stance_holdNode (n) : (Run.holdNode c r n).stance = r.stance := by simp [Run.holdNode]

@[simp] theorem stance_writeSetPoint (a d) : (Run.writeSetPoint c r a d).stance = r.stance := by
  simp [Run.writeSetPoint]

/-! ### The call dispatcher (chapter 7) -/

@[simp] theorem stance_modCall (id f) : (r.modCall id f).stance = r.stance := rfl

@[simp] theorem stance_offerStopPlay (area n) : (Run.offerStopPlay c r area n).stance = r.stance :=
  stance_offerFrame ..

@[simp] theorem stance_stopPlays (area nodes) : (Run.stopPlays c r area nodes).stance = r.stance :=
  stance_foldl _ _ (fun _ _ => stance_offerStopPlay ..) _

theorem stance_offerPlay (area message) (p : Run × List Awaited) (n) :
    (Run.offerPlay c area message p n).1.stance = p.1.stance := by
  unfold Run.offerPlay
  split
  · dsimp only
    split <;> simp
  · rfl

@[simp] theorem stance_startPlay (area k former) : (Run.startPlay c r area k former).stance = r.stance := by
  simp [Run.startPlay, stance_foldlFst _ (stance_offerPlay c area k.message)]

@[simp] theorem stance_preempt (area id) : (r.preempt area id).stance = r.stance := rfl

@[simp] theorem stance_selectArea (area) : (Run.selectArea c r area).stance = r.stance := by
  unfold Run.selectArea
  split
  · rfl
  · split
    · rfl
    · simp
    · split
      · rfl
      · split <;> simp

@[simp] theorem stance_selectAreas (s) : (Run.selectAreas c r s).stance = r.stance :=
  stance_foldl _ _ (stance_selectArea c) _

@[simp] theorem stance_beginPass (id) : (Run.beginPass c r id).stance = r.stance := by
  unfold Run.beginPass
  split <;> simp

@[simp] theorem stance_tellEnded (origin id) : (r.tellEnded origin id).stance = r.stance := by
  unfold Run.tellEnded
  split
  · rfl
  · exact stance_modAxis _ _ _ (fun x => by split <;> rfl) fun x => by split <;> rfl
  · exact stance_modZone _ _ _ (fun x => by split <;> rfl) fun x => by split <;> rfl
  · rfl

@[simp] theorem stance_silenceArea (area) : (Run.silenceArea c r area).stance = r.stance := by
  simp [Run.silenceArea]

@[simp] theorem stance_removeCall (id) : (Run.removeCall c r id).stance = r.stance := by
  unfold Run.removeCall
  split
  · rfl
  · simp [stance_foldl _ _ (stance_silenceArea c)]

@[simp] theorem stance_beginGap (k) : (Run.beginGap c r k).stance = r.stance := by simp [Run.beginGap]

@[simp] theorem stance_judgePass (id) : (Run.judgePass c r id).stance = r.stance := by
  unfold Run.judgePass
  split <;> simp

@[simp] theorem stance_endPlay (area final) : (Run.endPlay c r area final).stance = r.stance := by
  unfold Run.endPlay
  dsimp only
  split <;> simp

@[simp] theorem stance_leaveAwaited (area n) : (Run.leaveAwaited c r area n).stance = r.stance := by
  simp [Run.leaveAwaited]

@[simp] theorem stance_mergeCall (o k) : (Run.mergeCall c r o k).stance = r.stance := by
  unfold Run.mergeCall
  dsimp only
  split <;> simp

@[simp] theorem stance_enterCall (o) : (Run.enterCall c r o).1.stance = r.stance := by
  simp [Run.enterCall]

@[simp] theorem stance_offerCall (o) : (Run.offerCall c r o).1.stance = r.stance := by
  unfold Run.offerCall
  split
  · simp
  · split
    · simp
    · split
      · rfl
      · split <;> simp

@[simp] theorem stance_placeInternal (o) : (Run.placeInternal c r o).1.stance = r.stance := by
  unfold Run.placeInternal
  dsimp only
  split <;> simp

@[simp] theorem stance_withdrawInternal (id) : (Run.withdrawInternal c r id).stance = r.stance := by
  unfold Run.withdrawInternal
  split <;> simp

@[simp] theorem stance_withdrawByConsole (k) : (Run.withdrawByConsole c r k).stance = r.stance := by
  simp [Run.withdrawByConsole]

@[simp] theorem stance_dropArea (area) : (Run.dropArea c r area).stance = r.stance :=
  stance_foldl _ _ (stance_judgePass c) _

@[simp] theorem stance_areaGone (area) : (Run.areaGone c r area).stance = r.stance := by
  simp [Run.areaGone]

@[simp] theorem stance_areaBack (area) : (Run.areaBack c r area).stance = r.stance := by
  simp [Run.areaBack, stance_foldl]

@[simp] theorem stance_judgeArea (area) : (Run.judgeArea c r area).stance = r.stance := by
  simp [Run.judgeArea]

@[simp] theorem stance_ampChanged (n l area) : (Run.ampChanged c n l r area).stance = r.stance := by
  simp [Run.ampChanged]

@[simp] theorem stance_silenceReturn (n before st area) :
    (Run.silenceReturn c n before st r area).stance = r.stance := by
  unfold Run.silenceReturn
  split <;> simp

@[simp] theorem stance_ampReply (n st area) : (Run.ampReply c n st r area).stance = r.stance := by
  simp [Run.ampReply]

@[simp] theorem stance_playCompleted (area serial o) :
    (Run.playCompleted c r area serial o).stance = r.stance := by
  unfold Run.playCompleted
  split
  · rfl
  · split <;> simp

@[simp] theorem stance_playTimeout (area) : (Run.playTimeout c r area).stance = r.stance := by
  simp [Run.playTimeout]

end

end Sys2Proof.Machine
end

