-- ==== Sys2Proof/Proofs/StanceRest.lean ====
section
/-! PROOFS. The stance of the deck is left as it is by the frames and the bookkeeping of the axis unit, by the
door sequencer and by the ends of frames; the operations that do change it are named in Motion.lean. -/

namespace Sys2Proof.Machine

section
variable (c : Tables) (r : Run)

/-! ### The axis unit's frames, calls and plan (R79, R89, R92) -/

@[simp] theorem stance_offerUnlock (a) : (Run.offerUnlock c r a).stance = r.stance := by
  simp [Run.offerUnlock]

@[simp] theorem stance_offerLock (a) : (Run.offerLock c r a).stance = r.stance := by
  simp [Run.offerLock]

@[simp] theorem stance_offerStage (a) : (Run.offerStage c r a).stance = r.stance := by
  simp [Run.offerStage]

@[simp] theorem stance_offerOwed (a) : (Run.offerOwed c r a).stance = r.stance := by
  simp [Run.offerOwed]

@[simp] theorem stance_offerPanelDeny (a) : (Run.offerPanelDeny c r a).stance = r.stance := by
  unfold Run.offerPanelDeny
  split <;> simp

@[simp] theorem stance_axisCompleted (a f o) : (r.axisCompleted a f o).stance = r.stance := by
  unfold Run.axisCompleted
  split
  · refine stance_modAxis _ _ _ (fun x => ?_) fun x => ?_ <;> cases f <;> dsimp only <;> split <;> rfl
  all_goals rfl

@[simp] theorem stance_placeMotionCall (a) : (Run.placeMotionCall c r a).stance = r.stance := by
  unfold Run.placeMotionCall
  split <;> simp

@[simp] theorem stance_withdrawMotionCall (a) : (Run.withdrawMotionCall c r a).stance = r.stance := by
  simp [Run.withdrawMotionCall]

@[simp] theorem stance_endPlan (cause) : (r.endPlan cause).stance = r.stance := by simp [Run.endPlan]

@[simp] theorem stance_endPlanOf (a cause) : (r.endPlanOf a cause).stance = r.stance := by
  simp [Run.endPlanOf]

@[simp] theorem stance_haltStage (a) : (Run.haltStage c r a).stance = r.stance := by
  simp [Run.haltStage]

@[simp] theorem stance_endedByStop (a) : (Run.endedByStop c r a).stance = r.stance := by
  simp [Run.endedByStop]

@[simp] theorem stance_forceLocal (a) : (Run.forceLocal c r a).stance = r.stance := by
  simp [Run.forceLocal]

@[simp] theorem stance_setControl (a k) : (r.setControl a k).stance = r.stance := by
  simp [Run.setControl]

@[simp] theorem stance_requestKeep (a) : (Run.requestKeep c r a).1.stance = r.stance := by
  unfold Run.requestKeep
  split
  iterate 2
    · split <;> simp
  all_goals rfl

@[simp] theorem stance_requestTake (a) : (r.requestTake a).1.stance = r.stance := by
  unfold Run.requestTake
  split
  · rfl
  · split <;> simp

@[simp] theorem stance_requestGrant (a) : (Run.requestGrant c r a).1.stance = r.stance := by
  unfold Run.requestGrant
  split
  · rfl
  · split <;> simp

@[simp] theorem stance_requestDerate (a v) : (r.requestDerate a v).1.stance = r.stance := by
  simp [Run.requestDerate]

@[simp] theorem stance_requestPlanKeep : (Run.requestPlanKeep c r).1.stance = r.stance := by
  unfold Run.requestPlanKeep
  split
  · rfl
  · dsimp only
    exact stance_modAxis _ _ _ (fun x => by split <;> rfl) fun x => by split <;> rfl

@[simp] theorem stance_judgeStage (a d) : (Run.judgeStage c r a d).stance = r.stance := by
  unfold Run.judgeStage
  split
  · split <;> simp
  · rfl

@[simp] theorem stance_emitDemand (a d) : (Run.emitDemand c r a d).stance = r.stance := by
  simp [Run.emitDemand]

@[simp] theorem stance_restartControl (a) : (Run.restartControl c r a).stance = r.stance := by
  simp [Run.restartControl]

/-! ### The door sequencer (chapter 6) -/

@[simp] theorem stance_issueDoor (d f) : (Run.issueDoor c r d f).stance = r.stance := by
  simp [Run.issueDoor]

@[simp] theorem stance_offerDoorDeny (d) : (Run.offerDoorDeny c r d).stance = r.stance :=
  stance_offerFrame ..

@[simp] theorem stance_offerPending (d) : (Run.offerPending c r d).stance = r.stance := by
  unfold Run.offerPending
  split <;> simp

@[simp] theorem stance_offerDoorsOf (t) : (Run.offerDoorsOf c r t).stance = r.stance :=
  stance_foldl _ _ (fun _ _ => by simp) _

@[simp] theorem stance_doorCompleted (d f o) : (r.doorCompleted d f o).stance = r.stance := by
  unfold Run.doorCompleted
  split <;> rfl

@[simp] theorem stance_freshClose (d) : (Run.freshClose c r d).stance = r.stance := by
  simp [Run.freshClose]

@[simp] theorem stance_openDoor (d) : (Run.openDoor c r d).stance = r.stance := by simp [Run.openDoor]

@[simp] theorem stance_faultDoor (d cause) : (r.faultDoor d cause).stance = r.stance := rfl

@[simp] theorem stance_warningExpired (z) : (Run.warningExpired c r z).stance = r.stance := by
  rw [Run.warningExpired, stance_foldl _ _ fun _ _ => by simp]
  simp

@[simp] theorem stance_warningIfNone (z) : (Run.warningIfNone c r z).stance = r.stance := by
  simp [Run.warningIfNone]

@[simp] theorem stance_placeZoneCall (z) : (Run.placeZoneCall c r z).stance = r.stance := by
  simp [Run.placeZoneCall]

@[simp] theorem stance_withdrawZoneCall (z) : (Run.withdrawZoneCall c r z).stance = r.stance := by
  simp [Run.withdrawZoneCall]

@[simp] theorem stance_fireDoors (z) : (Run.fireDoors c r z).stance = r.stance :=
  stance_foldl _ _ (fun _ _ => by simp) _

@[simp] theorem stance_doorOffline (d) : (r.doorOffline d).stance = r.stance := rfl

@[simp] theorem stance_doorReturns (d st) : (Run.doorReturns c r d st).stance = r.stance := by
  unfold Run.doorReturns
  dsimp only
  split <;> simp

@[simp] theorem stance_obstructDoor (d) : (Run.obstructDoor c r d).stance = r.stance := by
  simp [Run.obstructDoor]

@[simp] theorem stance_judgePosition (d st) : (Run.judgePosition c r d st).stance = r.stance := by
  unfold Run.judgePosition
  dsimp only
  split <;> simp

@[simp] theorem stance_judgeForced (d st) : (Run.judgeForced c r d st).stance = r.stance := by
  unfold Run.judgeForced
  split
  · split <;> simp
  · rfl

@[simp] theorem stance_judgeTransit (d before closed st) :
    (Run.judgeTransit c r d before closed st).stance = r.stance := by
  simp [Run.judgeTransit, Run.acceptTransit]

@[simp] theorem stance_judgeDoorReply (d st) : (Run.judgeDoorReply c r d st).stance = r.stance := by
  simp [Run.judgeDoorReply, Run.localFaultDoor]

@[simp] theorem stance_doorReply (d st) : (Run.doorReply c r d st).stance = r.stance := by
  simp [Run.doorReply]

@[simp] theorem stance_reopenDoor (d) : (Run.reopenDoor c r d).stance = r.stance := by
  unfold Run.reopenDoor
  dsimp only
  split <;> simp

@[simp] theorem stance_requestDoorOpen (d) : (Run.requestDoorOpen c r d).1.stance = r.stance := by
  unfold Run.requestDoorOpen
  split
  · rfl
  · split
    · rfl
    · split <;> simp

@[simp] theorem stance_requestDoorClose (d) : (Run.requestDoorClose c r d).1.stance = r.stance := by
  unfold Run.requestDoorClose
  split <;> simp

@[simp] theorem stance_retryExpired (d) : (Run.retryExpired c r d).stance = r.stance := by
  simp [Run.retryExpired]

@[simp] theorem stance_moveTimerExpired (d) : (r.moveTimerExpired d).stance = r.stance := by
  unfold Run.moveTimerExpired
  dsimp only
  split <;> simp

@[simp] theorem stance_transitExpired (d) : (Run.transitExpired c r d).stance = r.stance := by
  unfold Run.transitExpired
  dsimp only
  split <;> simp

@[simp] theorem stance_judgeZones : (Run.judgeZones c r).stance = r.stance :=
  stance_foldl _ _ (fun _ _ => by simp [Run.judgeZone]) _

/-! ### Monitors, lines and lamps (chapters 8 and 9) -/

@[simp] theorem stance_setOutput (o high b) : (r.setOutput o high b).stance = r.stance := rfl

@[simp] theorem stance_withdrawActions (m) : (Run.withdrawActions c r m).stance = r.stance := by
  simp [Run.withdrawActions]

@[simp] theorem stance_rawChanged (l active) : (Run.rawChanged c r l active).stance = r.stance := by
  simp [Run.rawChanged]

@[simp] theorem stance_edgeEvent (l active) : (Run.edgeEvent c r l active).stance = r.stance := by
  simp [Run.edgeEvent]

@[simp] theorem stance_modChain (f) : (r.modChain f).stance = r.stance := rfl

@[simp] theorem stance_settleEvent : (Run.settleEvent c r).stance = r.stance := by
  simp [Run.settleEvent, Run.judgeImage]

/-! ### The relay (chapter 2) -/

@[simp] theorem stance_judgePermit (station code) : (Run.judgePermit c r station code).1.stance = r.stance := by
  unfold Run.judgePermit
  split <;> rfl

@[simp] theorem stance_forward (req n code p) : (Run.forward c r req n code p).stance = r.stance := by
  unfold Run.forward
  split <;> simp

@[simp] theorem stance_commandFrame (req p) : (Run.commandFrame c r req p).stance = r.stance := by
  unfold Run.commandFrame
  split
  · simp
  · unfold Run.nodeCommand
    split
    · simp
    · dsimp only
      split
      · simp
      · split
        · simp
        · split <;> simp
  · simp

@[simp] theorem stance_pass (req n code p) : (Run.pass c r req n code p).stance = r.stance := by
  unfold Run.pass
  split
  · simp
  · split
    · simp
    · split <;> simp [Run.takePassSlot]

@[simp] theorem stance_passFrame (req p) : (Run.passFrame c r req p).stance = r.stance := by
  unfold Run.passFrame
  split
  · simp
  · unfold Run.passRequest
    split
    · simp
    · dsimp only
      split
      · simp
      · split <;> simp
  · simp

@[simp] theorem stance_answerCompletion (req o) : (Run.answerCompletion c r req o).stance = r.stance := by
  unfold Run.answerCompletion
  split <;> simp

@[simp] theorem stance_offerReport (n station p time) :
    (Run.offerReport c r n station p time).stance = r.stance := by simp [Run.offerReport]

@[simp] theorem stance_judgeReport (n p time) : (Run.judgeReport c r n p time).stance = r.stance := by
  unfold Run.judgeReport
  split
  · rfl
  · split <;> simp [Run.qualified]

@[simp] theorem stance_reportIntervalExpired (n) :
    (Run.reportIntervalExpired c r n).stance = r.stance := by
  unfold Run.reportIntervalExpired
  dsimp only
  split <;> simp

/-! ### The trunk controllers (chapter 3) -/

@[simp] theorem stance_tellOrigin (o k) : (Run.tellOrigin c r o k).stance = r.stance := by
  unfold Run.tellOrigin
  split <;> simp

@[simp] theorem stance_completeHead (t k) : (Run.completeHead c r t k).stance = r.stance := by
  unfold Run.completeHead
  split <;> simp

@[simp] theorem stance_completePass (t k) : (Run.completePass c r t k).stance = r.stance := by
  unfold Run.completePass
  split <;> simp

@[simp] theorem stance_completeSource (t s k) : (Run.completeSource c r t s k).stance = r.stance := by
  unfold Run.completeSource
  split <;> simp

@[simp] theorem stance_pushMissing (n) : (Run.pushMissing c r n).stance = r.stance := by
  unfold Run.pushMissing
  split
  · exact stance_foldl _ _ (fun _ _ => stance_ampChanged ..) _
  all_goals rfl

@[simp] theorem stance_areaTold (l gone area) : (Run.areaTold c l gone r area).stance = r.stance :=
  stance_foldl _ _ (fun _ _ => stance_ampChanged ..) _

@[simp] theorem stance_ampFanOut (n before p area) :
    (Run.ampFanOut c n before p r area).stance = r.stance := by
  unfold Run.ampFanOut
  cases ampStatus p <;> simp

@[simp] theorem stance_endTransaction (t) : (Run.endTransaction c r t).stance = r.stance := by
  simp [Run.endTransaction]

@[simp] theorem stance_lostWork (t k) : (Run.lostWork c r t k).stance = r.stance := by
  unfold Run.lostWork
  rw [stance_foldl _ _ fun _ _ => by simp, stance_modTrunk]
  have hdrop : ∀ (l : List QFrame) (u : Run), (l.foldl (Run.dropLostFrame c t) u).stance = u.stance :=
    fun l u => stance_foldl u _ (fun _ _ => by simp [Run.dropLostFrame]) l
  split
  · simp only [stance_ite, stance_completePass, hdrop, ite_self]
    split <;> simp
  · rw [hdrop]
    split <;> simp

@[simp] theorem stance_judgeAttempts (t k) : (Run.judgeAttempts c r t k).stance = r.stance := by
  unfold Run.judgeAttempts
  split <;> simp

@[simp] theorem stance_windowOpens (t) : (Run.windowOpens c r t).stance = r.stance := by
  unfold Run.windowOpens
  split <;> simp

@[simp] theorem stance_gapEnded (t) : (Run.gapEnded c r t).stance = r.stance := by simp [Run.gapEnded]

@[simp] theorem stance_roundEnded (t) : (Run.roundEnded c r t).stance = r.stance := by
  simp [Run.roundEnded]

@[simp] theorem stance_settled (t) : (Run.settled c r t).stance = r.stance := by
  simp [Run.settled, Run.setTrunkState]

@[simp] theorem stance_settle (t) : (Run.settle c r t).stance = r.stance := by
  simp [Run.settle, Run.setTrunkState]

@[simp] theorem stance_holdWork (t onLine) : (Run.holdWork c r t onLine).stance = r.stance := by
  unfold Run.holdWork
  rw [stance_completePass, stance_foldl _ _ fun _ _ => stance_completeHead ..]
  split <;> simp

@[simp] theorem stance_holdSlots (t) : (Run.holdSlots c r t).stance = r.stance := by
  rw [Run.holdSlots, stance_foldl _ _ fun _ _ => by simp]
  rfl

/-! ### Time and writes -/

@[simp] theorem stance_tick : r.tick.stance = r.stance := by
  refine stance_ext (fun a => ?_) (fun a => ?_) (fun z => ?_) (fun z => ?_) ?_ <;>
    simp [Run.tick, AxisRt.tick]

@[simp] theorem stance_startAreas : r.startAreas.stance = r.stance :=
  stance_foldl _ _ (fun _ _ => stance_modArea ..) _

@[simp] theorem stance_trunkWritten (t k) : (r.trunkWritten t k).stance = r.stance := by
  unfold Run.trunkWritten
  split
  · split <;> rfl
  · rfl

@[simp] theorem stance_paramWritten (c' : Tables) : (Run.paramWritten c c' r).stance = r.stance := by
  simp [Run.paramWritten, Run.restartFlash]

end

end Sys2Proof.Machine
end

