-- ==== Sys2Proof/Proofs/Motion.lean ====
section
/-! PROOFS. What the units do to motion. A calm change sets no axis in motion, brings none out of OFFLINE and
touches no fire flag, override or ESTOP level: stops and halts. A steady change may start axes and set fire
flags, and leaves the deck safe where it was: a start is judged by step 5 of R72, and a fire flag comes with
its halts (R81). -/

namespace Sys2Proof.Machine

/-- The axis is in motion. -/
def Stance.moving (x : Stance) (a : Fin 6) : Bool := (x.axes a).1.inMotion

/-- R81 holds an axis at rest: ESTOP is accepted, or its zone's fire flag is set and not overridden. -/
abbrev Barred (c : Tables) (x : Stance) (a : Fin 6) : Prop :=
  x.estop = true ∨ ∃ z, c.axes[a].zone = some z ∧ x.zones z = (true, false)

/-- No axis that R81 holds at rest is in motion. -/
def DeckSafe (c : Tables) (x : Stance) : Prop := ∀ a, Barred c x a → x.moving a = false

/-- Nothing begins to move and nothing that bars motion changes. -/
structure Calm (q x : Stance) : Prop where
  estop : x.estop = q.estop
  zones : x.zones = q.zones
  motion : ∀ a, x.moving a = true → q.moving a = true
  offline : ∀ a, (q.axes a).1 = .offline → (x.axes a).1 = .offline

/-- A safe deck stays safe, and an axis that is OFFLINE stays so. -/
structure Steady (c : Tables) (q x : Stance) : Prop where
  safe : DeckSafe c q → DeckSafe c x
  offline : ∀ a, (q.axes a).1 = .offline → (x.axes a).1 = .offline

section
variable {c : Tables} {q x : Stance} {r : Run}

@[simp] theorem Calm.refl (x : Stance) : Calm x x := ⟨rfl, rfl, fun _ => id, fun _ => id⟩

theorem Calm.trans {y : Stance} (h : Calm q x) (h' : Calm x y) : Calm q y where
  estop := h'.estop.trans h.estop
  zones := h'.zones.trans h.zones
  motion a := h.motion a ∘ h'.motion a
  offline a := h'.offline a ∘ h.offline a

theorem Calm.ite {p : Prop} [Decidable p] {a b : Run} (ha : Calm q a.stance) (hb : Calm q b.stance) :
    Calm q (if p then a else b).stance := by
  split
  · exact ha
  · exact hb

theorem Calm.foldl {α : Type} (f : Run → α → Run) (hf : ∀ u a, Calm u.stance (f u a).stance)
    (l : List α) (h : Calm q r.stance) : Calm q (l.foldl f r).stance := by
  induction l generalizing r with
  | nil => exact h
  | cons a l ih => exact ih (h.trans (hf r a))

theorem Calm.barred (h : Calm q x) (a : Fin 6) : Barred c x a ↔ Barred c q a := by
  rw [Barred, Barred, h.estop, h.zones]

theorem Steady.of_calm (h : Calm q x) : Steady c q x where
  safe hs a hb := Bool.eq_false_iff.mpr fun hm =>
    Bool.eq_false_iff.mp (hs a ((h.barred a).mp hb)) (h.motion a hm)
  offline := h.offline

@[simp] theorem Steady.refl (c : Tables) (x : Stance) : Steady c x x := .of_calm (.refl x)

theorem Steady.trans {y : Stance} (h : Steady c q x) (h' : Steady c x y) : Steady c q y :=
  ⟨h'.safe ∘ h.safe, fun a => h'.offline a ∘ h.offline a⟩

theorem Steady.calm {y : Stance} (h : Steady c q x) (k : Calm x y) : Steady c q y :=
  h.trans (.of_calm k)

theorem Steady.ite {p : Prop} [Decidable p] {a b : Run} (ha : Steady c q a.stance)
    (hb : Steady c q b.stance) : Steady c q (if p then a else b).stance := by
  split
  · exact ha
  · exact hb

theorem Steady.foldl {α : Type} (f : Run → α → Run) (hf : ∀ u a, Steady c u.stance (f u a).stance)
    (l : List α) (h : Steady c q r.stance) : Steady c q (l.foldl f r).stance := by
  induction l generalizing r with
  | nil => exact h
  | cons a l ih => exact ih (h.trans (hf r a))

/-! ### One axis record changed -/

/-- What holds of a changed axis and of every other axis before the change holds of all behind it. -/
theorem stance_axis {i : Fin 6} {f : AxisRt → AxisRt} {P : Fin 6 → AxisState → Prop}
    (hi : P i (f r.axes[i]).state) (h : ∀ a, a ≠ i → P a r.axes[a].state) (a : Fin 6) :
    P a ((r.modAxis i f).stance.axes a).1 := by
  show P a (r.modAxis i f).axes[a].state
  by_cases e : a = i
  · subst e
    rw [Run.modAxis_self]
    exact hi
  · rw [Run.modAxis_ne r i a f e]
    exact h a e

/-- An axis record changed that is not set in motion, nor taken out of OFFLINE. -/
theorem Calm.modAxis (h : Calm q r.stance) (i : Fin 6) (f : AxisRt → AxisRt)
    (hm : (f r.axes[i]).state.inMotion = true → r.axes[i].state.inMotion = true)
    (ho : r.axes[i].state = .offline → (f r.axes[i]).state = .offline) :
    Calm q (r.modAxis i f).stance :=
  h.trans
    { estop := rfl
      zones := rfl
      motion := stance_axis (P := fun a s => s.inMotion = true → r.axes[a].state.inMotion = true) hm
        fun _ _ => id
      offline := stance_axis (P := fun a s => r.axes[a].state = .offline → s = .offline) ho
        fun _ _ => id }

/-- An axis record that comes to rest, out of another state than OFFLINE. -/
theorem Calm.rest (h : Calm q r.stance) (i : Fin 6) (f : AxisRt → AxisRt)
    (ho : r.axes[i].state ≠ .offline) (hm : (f r.axes[i]).state.inMotion = false) :
    Calm q (r.modAxis i f).stance :=
  h.modAxis i f (fun hi => by rw [hm] at hi; cases hi) fun e => absurd e ho

/-- An axis set in motion while nothing bars it. -/
theorem Steady.start (h : Steady c q r.stance) (i : Fin 6) (f : AxisRt → AxisRt)
    (hb : ¬Barred c r.stance i) (ho : r.axes[i].state ≠ .offline) :
    Steady c q (r.modAxis i f).stance :=
  h.trans
    { safe := fun hs => stance_axis (P := fun a s => Barred c r.stance a → s.inMotion = false)
        (fun hi => absurd hi hb) fun a _ => hs a
      offline := stance_axis (P := fun a s => r.axes[a].state = .offline → s = .offline)
        (fun e => absurd e ho) fun _ _ => id }

/-! ### Halts (R80, R81) -/

theorem stance_haltFresh (c : Tables) (r : Run) (a : Fin 6) (cause : HaltCause) :
    (Run.haltFresh c r a cause).stance = (r.modAxis a fun x => x.halted cause).stance := by
  simp [Run.haltFresh]

theorem Calm.halt (h : Calm q r.stance) (a : Fin 6) (cause : HaltCause) :
    Calm q (Run.halt c r a cause).stance := by
  unfold Run.halt
  split
  · exact h
  · rw [stance_raise]
    exact h.modAxis a _ id id
  all_goals
    rename_i hs
    rw [stance_haltFresh]
    exact h.rest a _ (by rw [hs]; decide) rfl

/-- A halt leaves its axis at rest. -/
theorem halt_stops (c : Tables) (r : Run) (a : Fin 6) (cause : HaltCause) :
    (Run.halt c r a cause).stance.moving a = false := by
  have hset : ∀ {f : AxisRt → AxisRt}, (f r.axes[a]).state.inMotion = false →
      (r.modAxis a f).stance.moving a = false := fun {f} hf =>
    stance_axis (r := r) (i := a) (f := f) (P := fun b s => b = a → s.inMotion = false) (fun _ => hf)
      (fun _ hb e => absurd e hb) a rfl
  unfold Run.halt
  split
  · rename_i hs
    exact congrArg AxisState.inMotion hs
  · rename_i hs
    rw [stance_raise]
    exact hset (congrArg AxisState.inMotion hs)
  all_goals
    rw [stance_haltFresh]
    exact hset rfl

theorem Calm.haltWhere (h : Calm q r.stance) (cause : HaltCause) (p : Fin 6 → Bool) :
    Calm q (Run.haltWhere c r cause p).stance :=
  h.foldl _ (fun u a => ((Calm.refl u.stance).halt a cause).ite (.refl _)) _

/-- The halts of R81 leave no axis of their test in motion. -/
theorem haltWhere_stops (c : Tables) (r : Run) (cause : HaltCause) {p : Fin 6 → Bool} {a : Fin 6}
    (ha : p a = true) : (Run.haltWhere c r cause p).stance.moving a = false := by
  refine foldl_reaches _ (fun u => u.stance.moving a = false) (fun u => ?_) (fun u b hu => ?_)
    (List.mem_finRange a) r
  · split
    · exact halt_stops c u a cause
    · rename_i hn
      exact Bool.eq_false_iff.mpr fun hm => hn (by rw [ha, show u.axes[a].state.inMotion = true from hm]; rfl)
  · have hb : Calm u.stance (if p b && (u.axes[b].state.inMotion || u.axes[b].state == .halted) then
        Run.halt c u b cause else u).stance := ((Calm.refl u.stance).halt b cause).ite (.refl _)
    exact Bool.eq_false_iff.mpr fun hm => Bool.eq_false_iff.mp hu (hb.motion a hm)

theorem Calm.firePushed (h : Calm q r.stance) (z : Fin 8) : Calm q (Run.firePushed c r z).stance :=
  h.ite (h.haltWhere .fire _)

/-- A fire flag's push leaves no axis of the zone in motion, unless the override holds it off. -/
theorem firePushed_stops {z : Fin 8} (ho : r.zones[z].override = false) {a : Fin 6}
    (ha : c.axes[a].zone = some z) : (Run.firePushed c r z).stance.moving a = false := by
  unfold Run.firePushed
  rw [if_neg (by rw [ho]; decide)]
  exact haltWhere_stops c r .fire (beq_iff_eq.mpr ha)

theorem Calm.judgePrereq (h : Calm q r.stance) (others : List (Fin 6)) (b : Fin 6) :
    Calm q (Run.judgePrereq c others r b).stance := (h.halt b .prereq).ite h

theorem Calm.judgeOthers (h : Calm q r.stance) (others : List (Fin 6)) :
    Calm q (Run.judgeOthers c r others).stance :=
  h.foldl _ (fun u b => (Calm.refl u.stance).judgePrereq others b) _

theorem Calm.axisOffline (h : Calm q r.stance) (a : Fin 6) :
    Calm q (Run.axisOffline c r a).stance := by
  rw [Run.axisOffline, stance_endPlanOf, stance_withdrawMotionCall]
  exact h.modAxis a _ nofun fun _ => rfl

/-! ### Stops (R74, R87, R88, R100) -/

theorem Calm.stopAxis (h : Calm q r.stance) (a : Fin 6) : Calm q (Run.stopAxis c r a).stance := by
  have hp : Calm q (r.endPlanOf a .stop).stance := by simpa using h
  have hstate : (r.endPlanOf a .stop).axes[a].state = r.axes[a].state :=
    stance_state (stance_endPlanOf r a .stop) a
  unfold Run.stopAxis
  split
  · rename_i hs
    rw [hs] at hstate
    refine Calm.ite ?_ ?_
    · rw [stance_endedByStop]
      exact hp.rest a _ (by rw [hstate]; decide) rfl
    · exact hp.modAxis a _ (fun _ => by rw [hstate]; rfl) fun e => by rw [hstate] at e; cases e
  · rename_i hs
    rw [hs] at hstate
    rw [stance_endedByStop]
    exact hp.rest a _ (by rw [hstate]; decide) rfl
  all_goals exact h

theorem Calm.stopBridgeMove (h : Calm q r.stance) (a : Fin 6) :
    Calm q (Run.stopBridgeMove c r a).stance := (h.stopAxis a).ite h

theorem Calm.serviceOn (h : Calm q r.stance) : Calm q (Run.serviceOn c r).stance := by
  refine Calm.foldl _ (fun u a => (Calm.refl u.stance).stopBridgeMove a) _ ?_
  rw [stance_foldl _ _ (stance_forceLocal c), stance_endPlan]
  exact h

theorem Calm.panelLost (h : Calm q r.stance) (a : Fin 6) : Calm q (Run.panelLost c r a).stance :=
  have hm : Calm q (r.modAxis a fun x => { x with panel := .none }).stance := by simpa using h
  (hm.stopAxis a).ite hm

theorem Calm.endSlew (h : Calm q r.stance) (a : Fin 6) (cause : Nat)
    (ho : r.axes[a].state ≠ .offline) : Calm q (Run.endSlew c r a cause).stance := by
  simp only [Run.endSlew, stance_ite, stance_endPlanOf, stance_withdrawMotionCall, stance_raise, ite_self]
  exact h.rest a _ ho rfl

/-! ### Drive replies (R82, R104, R77) -/

theorem Calm.judgeFlag (h : Calm q r.stance) (a : Fin 6) (k : Nat) :
    Calm q (Run.judgeFlag c r a k).stance := by
  simp only [Run.judgeFlag, stance_ite, stance_raise, ite_self]
  rw [← stance_ite]
  exact (h.halt a .driveFlag).ite h

theorem Calm.judgeFlags (h : Calm q r.stance) (a : Fin 6) (turned : BitVec 8) :
    Calm q (Run.judgeFlags c r a turned).stance :=
  h.foldl _ (fun u k => ((Calm.refl u.stance).judgeFlag a k).ite (.refl _)) _

theorem Calm.judgeOverload (h : Calm q r.stance) (a : Fin 6) (pressure : Nat) :
    Calm q (Run.judgeOverload c r a pressure).stance :=
  ((h.halt a _).ite (h.ite (by simpa using h))).ite h

/-- UNLOCKING becomes MOVING: the axis was in motion already (R77). -/
theorem Calm.locksReleased (h : Calm q r.stance) {a : Fin 6} (hs : r.axes[a].state = .unlocking) :
    Calm q (Run.locksReleased c r a).stance := by
  have hm := h.modAxis a (fun x =>
    { x with state := .moving, lockTimer := none, owed := { x.owed with unlock := false },
             sentDemand := 0, controlTimer := some (ms c.axes[a].controlPeriod) })
    (fun _ => by rw [hs]; rfl) fun e => by rw [hs] at e; cases e
  exact hm.ite (hm.halt a .prereq)

/-! ### Nodes lost or held (R63, R83, R85) -/

theorem Calm.axisTold (h : Calm q r.stance) (gone : List NodeId) (off : List (Fin 6)) (a : Fin 6) :
    Calm q (Run.axisTold c gone off r a).stance :=
  ((h.judgePrereq off a).panelLost a).ite (h.judgePrereq off a)

theorem Calm.pushDown (h : Calm q r.stance) (l : Liveness) (gone : List NodeId) :
    Calm q (Run.pushDown c l r gone).stance := by
  rw [Run.pushDown, stance_foldl _ _ fun _ _ => stance_areaTold .., stance_foldl _ _ stance_doorOffline]
  exact Calm.foldl _ (fun u a => (Calm.refl u.stance).axisTold _ _ a) _
    (h.foldl _ (fun u a => (Calm.refl u.stance).axisOffline a) _)

/-! ### Writes (R68) -/

theorem Calm.axisWritten (h : Calm q r.stance) (c' : Tables) (a : Fin 6) :
    Calm q (Run.axisWritten c c' r a).stance := by
  have hm : Calm q (r.modAxis a AxisRt.unbound).stance := h.modAxis a _ nofun fun _ => rfl
  have hp : Calm q ((r.modAxis a AxisRt.unbound).endPlanOf a .offline).stance := by simpa using hm
  have hj := (hm.ite (p := r.axes[a].state = .offline) (hp.judgeOthers (c := c') [a])).ite
    (p := (!c'.axes[a].configured || c'.axes[a].drive != c.axes[a].drive) = true) h
  unfold Run.axisWritten
  exact hj.ite (hj.modAxis a _ id id)

end

end Sys2Proof.Machine
end

