-- ==== Sys2Proof/Proofs/Starts.lean ====
section
/-! PROOFS. The operations that start an axis or raise a fire flag leave the deck safe where it was (R72, R77,
R81, R91, R113): starts, the ends of moves, drive and panel replies, closures and monitors. -/

namespace Sys2Proof.Machine

section
variable {c : Tables} {q : Stance} {r : Run}

/-! ### Starts (R72, R73, R91) -/

/-- Step 5 of R72 lets no barred axis by. -/
theorem not_barred_of_moveInterlock {a : Fin 6} (h : moveInterlock c r a = none) :
    ¬Barred c r.stance a := by
  unfold moveInterlock at h
  split at h
  · cases h
  · rename_i he
    split at h
    · cases h
    · rename_i hf
      rintro (hb | ⟨z, hz, hflags⟩)
      · exact he hb
      · obtain ⟨hfire, hover⟩ := Prod.mk.inj hflags
        exact hf ((fireHolds_iff c r a).mpr ⟨z, hz, hfire, hover⟩)

theorem moveInterlock_of_moveJudge {a : Fin 6} (h : moveJudge c r a = none) :
    moveInterlock c r a = none := by
  unfold moveJudge at h
  split at h
  · cases h
  · split at h
    · cases h
    · split at h
      iterate 4 cases h
      all_goals exact Option.map_eq_none_iff.mp h

theorem Steady.startMove (h : Steady c q r.stance) {a : Fin 6} (hi : moveInterlock c r a = none)
    (target : Int) (lockAtEnd : Bool) (origin : MoveOrigin) :
    Steady c q (Run.startMove c r a target lockAtEnd origin).stance := by
  have hb := not_barred_of_moveInterlock hi
  unfold Run.startMove
  dsimp only
  split
  · rename_i hs
    rw [stance_placeMotionCall, stance_offerUnlock]
    exact h.start a _ hb (by rw [hs]; decide)
  · rename_i hs
    rw [stance_placeMotionCall]
    exact h.start a _ hb (by rw [hs]; decide)
  iterate 2
    · rename_i hs
      exact h.start a _ hb (by rw [hs]; decide)
  all_goals exact h

theorem Steady.startStep (h : Steady c q r.stance) (s : PlanStep) :
    Steady c q (Run.startStep c r s).1.stance := by
  unfold Run.startStep
  split
  · exact h
  · rename_i hj
    exact h.startMove (moveInterlock_of_moveJudge hj) _ _ _

theorem Steady.advancePlan (h : Steady c q r.stance) : Steady c q (Run.advancePlan c r).stance := by
  unfold Run.advancePlan
  dsimp only
  split
  · exact h
  · rename_i s _
    have hs : Steady c q
        (Run.startStep c (r.setPlan { r.plan with current := r.plan.current + 1 }) s).1.stance :=
      Steady.startStep (by simpa using h) s
    split
    · exact hs
    · rw [stance_endPlan]
      exact hs

theorem Steady.stepDone (h : Steady c q r.stance) (a : Fin 6) :
    Steady c q (Run.stepDone c r a).stance := by
  unfold Run.stepDone
  split
  · exact h
  · exact (Steady.advancePlan (by simpa using h)).ite h

theorem Steady.moveDone (h : Steady c q r.stance) (a : Fin 6) :
    Steady c q (Run.moveDone c r a).stance :=
  Steady.stepDone (by simpa using h) a

/-! ### The set-point computation (R78, R94 to R103) -/

/-- An axis that has arrived goes to LOCKING out of a motion, or to STILL (R78). -/
theorem Steady.arrive (h : Steady c q r.stance) {a : Fin 6} (hs : r.axes[a].state = .moving) :
    Steady c q (Run.arrive c r a).stance := by
  have e : ((Run.emitDemand c r a 0).modAxis a fun x =>
      { x with controlTimer := none, keepaliveTimer := none }).stance = r.stance := by simp
  have hst := (stance_state e a).trans hs
  rw [← e] at h
  unfold Run.arrive
  dsimp only
  split
  · rw [stance_offerLock]
    exact h.calm ((Calm.refl _).modAxis a _ (fun _ => by rw [hst]; rfl) fun o => by rw [hst] at o; cases o)
  · exact (h.calm ((Calm.refl _).rest a _ (by rw [hst]; decide) rfl)).moveDone a

theorem Steady.controlExpired (h : Steady c q r.stance) (a : Fin 6) :
    Steady c q (Run.controlExpired c r a).stance := by
  have hm : Steady c q (r.modAxis a fun x => { x with controlTimer := none }).stance := by simpa using h
  unfold Run.controlExpired
  dsimp only
  split
  · rename_i hs
    rw [Run.computeStopping, stance_emitDemand]
    exact hm.calm (((Calm.refl _).endSlew a 1 (by rw [hs]; decide)).ite (by simp))
  · rename_i hs
    refine (hm.arrive hs).ite ?_
    rw [Run.computeSlew, stance_emitDemand]
    exact hm.calm (((Calm.refl _).endSlew a 2 (by rw [hs]; decide)).ite (by simp))
  all_goals exact hm

/-! ### Replies (R70, R87) -/

theorem restState_rests (engaged : Bool) : (restState engaged).inMotion = false := by
  cases engaged <;> rfl

/-- Step 1 of R70 brings an axis out of OFFLINE, to rest or HALTED. -/
theorem recordReply_safe (a : Fin 6) (d : DriveStatus) (hs : DeckSafe c r.stance) :
    DeckSafe c (Run.recordReply c r a d).stance := by
  have hm : DeckSafe c (r.modAxis a fun x => { x with latest := some d }).stance := by simpa using hs
  have hrest : DeckSafe c ((r.modAxis a fun x => { x with latest := some d }).modAxis a fun x =>
      { x with state := restState d.locksEngaged, wasActive := false }).stance :=
    stance_axis (P := fun b s => Barred c (r.modAxis a fun x => { x with latest := some d }).stance b →
      s.inMotion = false) (fun _ => restState_rests _) fun b _ => hm b
  unfold Run.recordReply
  dsimp only
  split
  · split
    · exact (Steady.of_calm ((Calm.refl _).halt a .node)).safe hrest
    · exact hrest
  · exact hm

theorem Steady.judgeLocks (h : Steady c q r.stance) (a : Fin 6) (d : DriveStatus) :
    Steady c q (Run.judgeLocks c r a d).stance := by
  unfold Run.judgeLocks
  split
  · rename_i hs
    exact (h.calm ((Calm.refl _).locksReleased hs)).ite h
  · rename_i hs
    exact ((h.calm ((Calm.refl _).rest a _ (by rw [hs]; decide) rfl)).moveDone a).ite h
  iterate 2
    · rename_i hs
      exact h.calm ((Calm.refl _).rest a _ (by rw [hs]; decide) (restState_rests _))
  all_goals exact h

theorem driveReply_safe (a : Fin 6) (d : DriveStatus) (hs : DeckSafe c r.stance) :
    DeckSafe c (Run.driveReply c r a d).stance := by
  have hj : ∀ (u : Run) (turned : BitVec 8), Steady c u.stance (Run.judgeOthers c
      (Run.judgeLocks c (Run.judgeOverload c (Run.judgeFlags c u a turned) a d.pressure) a d)
      [a]).stance := fun u turned =>
    ((Steady.of_calm (((Calm.refl _).judgeFlags a turned).judgeOverload a d.pressure)).judgeLocks a
      d).calm ((Calm.refl _).judgeOthers [a])
  rw [Run.driveReply, stance_offerOwed]
  exact (hj _ _).safe (recordReply_safe a d hs)

theorem Steady.panelStart (h : Steady c q r.stance) (a : Fin 6) (p : PanelCommand) :
    Steady c q (Run.panelStart c r a p).stance := by
  unfold Run.panelStart
  split
  · simpa using h
  · rename_i hi
    exact h.startMove hi _ _ _

theorem Steady.panelReply (h : Steady c q r.stance) (a : Fin 6) (p : PanelCommand) :
    Steady c q (Run.panelReply c r a p).stance := by
  have hstop := h.calm ((Calm.refl r.stance).stopAxis (c := c) a)
  unfold Run.panelReply
  dsimp only
  rw [stance_modAxis _ _ _ (by simp) (by simp)]
  exact ((h.panelStart a p).ite h).ite
    ((Steady.ite (by simpa using h) hstop).ite (Steady.ite (by simpa using h) h))

/-! ### Closures and fire flags (R110, R113, R114, R123) -/

/-- A zone's fire flag becomes set, and its push leaves none of the zone's axes in motion. -/
theorem Steady.fireSet (h : Steady c q r.stance) (z : Fin 8) (f : ZoneRt → ZoneRt) {u : Run}
    {x : Stance} (hu : u.stance = (r.modZone z f).stance)
    (hx : x = (Run.firePushed c u z).stance) : Steady c q x := by
  subst hx
  have hcalm : Calm (r.modZone z f).stance (Run.firePushed c u z).stance :=
    Calm.firePushed (by rw [hu]; exact .refl _) z
  refine h.trans ⟨fun hs a hb => ?_, fun a => hcalm.offline a⟩
  have hrest : r.stance.moving a = false → (Run.firePushed c u z).stance.moving a = false := fun hf =>
    Bool.eq_false_iff.mpr fun hm => Bool.eq_false_iff.mp hf (hcalm.motion a hm)
  obtain hestop | ⟨y, hy, hflags⟩ := (hcalm.barred (c := c) a).mp hb
  · exact hrest (hs a (.inl hestop))
  · by_cases e : y = z
    · subst e
      exact firePushed_stops ((stance_override hu y).trans (Prod.mk.inj hflags).2) hy
    · refine hrest (hs a (.inr ⟨y, hy, ?_⟩))
      rwa [show (r.modZone z f).stance.zones y = r.stance.zones y from by
        simp only [Run.stance]; rw [Run.modZone_ne r z y f e]] at hflags

theorem Steady.setFire (h : Steady c q r.stance) (z : Fin 8) :
    Steady c q (Run.setFire c r z).stance := by
  rw [Run.setFire, stance_warningIfNone]
  exact h.fireSet z _ (by simp; rfl) rfl

theorem Steady.startClosure (h : Steady c q r.stance) (z : Fin 8) (fire : Bool) :
    Steady c q (Run.startClosure c r z fire).stance := by
  rw [Run.startClosure, stance_warningIfNone, stance_placeZoneCall]
  cases fire with
  | true => exact h.fireSet z _ (stance_fireDoors ..) rfl
  | false => simpa using h

theorem Steady.requestClosure (h : Steady c q r.stance) (z : Fin 8) (cause : Nat) (fire : Bool) :
    Steady c q (Run.requestClosure c r z cause fire).stance := by
  have hm : Steady c q
      (r.modZone z fun x => { x with causes := setUnion x.causes (setOf cause) }).stance := by
    simpa using h
  exact (hm.startClosure z fire).ite ((hm.setFire z).ite hm)

/-- A zone that stops barring motion leaves a safe deck safe (R114, R123). -/
theorem Steady.unbar (h : Steady c q r.stance) (z : Fin 8) (f : ZoneRt → ZoneRt)
    (hf : ∀ x : ZoneRt, (f x).fire = false ∨ (f x).override = true) :
    Steady c q (r.modZone z f).stance := by
  refine h.trans ⟨fun hs a hb => hs a ?_, fun _ => id⟩
  obtain hestop | ⟨y, hy, hflags⟩ := hb
  · exact .inl hestop
  · obtain ⟨hfire, hover⟩ := Prod.mk.inj hflags
    by_cases e : y = z
    · subst e
      rw [Run.modZone_self] at hfire hover
      rcases hf r.zones[y] with h1 | h1
      · rw [h1] at hfire; cases hfire
      · rw [h1] at hover; cases hover
    · rw [Run.modZone_ne r z y f e] at hfire hover
      exact .inr ⟨y, hy, Prod.ext hfire hover⟩

/-! ### Monitors (R150 to R156) -/

theorem Steady.enterAction (h : Steady c q r.stance) (m : Fin 16) (s : Fin 8) :
    Steady c q (Run.enterAction c r m s).stance := by
  unfold Run.enterAction
  split
  case h_4 => exact h.requestClosure _ _ _
  all_goals simpa using h

theorem Steady.enterSteps (h : Steady c q r.stance) (m : Fin 16) (s : Fin 8) :
    Steady c q (Run.enterSteps c r m s).stance := by
  rw [Run.enterSteps]
  simp only [stance_ite, stance_modMonitor, ite_self]
  exact Steady.enterAction (by simpa using h) m s

theorem Steady.startHold (h : Steady c q r.stance) (next : Run → Fin 8 → Run) (m : Fin 16)
    (hn : ∀ u s, Steady c u.stance (next u s).stance) :
    Steady c q (Run.startHold c next r m).stance := by
  unfold Run.startHold
  exact Steady.ite (Steady.ite (Steady.ite h (h.trans (hn _ _))) h) h

theorem Steady.enterChain (n : Nat) (h : Steady c q r.stance) (m : Fin 16) (s : Fin 8) :
    Steady c q (Run.enterChain c n r m s).stance := by
  induction n generalizing q r s with
  | zero => exact h
  | succ n ih => exact (h.enterSteps m s).startHold _ m fun u s => ih (.refl c _) s

theorem Steady.enterState (h : Steady c q r.stance) (m : Fin 16) (s : Fin 8) :
    Steady c q (Run.enterState c r m s).stance := h.enterChain _ m s

theorem Steady.judgeRenewal (h : Steady c q r.stance) (renewed : List (Fin 32)) (m : Fin 16) :
    Steady c q (Run.judgeRenewal c renewed r m).stance := by
  unfold Run.judgeRenewal
  exact Steady.ite (Steady.ite (Steady.ite h
    (h.startHold _ m fun u s => (Steady.refl c u.stance).enterState m s)) h) h

theorem stance_renewChannel (n : NodeId) (payload : List Byte) (p : Run × List (Fin 32)) (ch : Fin 32) :
    (Run.renewChannel c n payload p ch).1.stance = p.1.stance := by
  unfold Run.renewChannel
  dsimp only
  split
  · split <;> rfl
  · rfl

theorem Steady.channelReply (h : Steady c q r.stance) (n : NodeId) (payload : List Byte) :
    Steady c q (Run.channelReply c r n payload).stance := by
  refine Steady.foldl _ (fun u m => (Steady.refl c u.stance).judgeRenewal _ m) _ ?_
  rw [stance_foldlFst _ (stance_renewChannel n payload)]
  exact h

theorem Steady.judgeStale (h : Steady c q r.stance) (turned : List (Fin 32)) (m : Fin 16) :
    Steady c q (Run.judgeStale c turned r m).stance := by
  unfold Run.judgeStale
  dsimp only
  split
  · split
    · exact h.enterState m _
    · exact h
  · exact h

theorem Steady.turnStale (h : Steady c q r.stance) (chans : List (Fin 32)) :
    Steady c q (Run.turnStale c r chans).stance := by
  refine Steady.foldl _ (fun u m => (Steady.refl c u.stance).judgeStale _ m) _ ?_
  rw [stance_foldlFst Run.markStale fun _ _ => rfl]
  exact h

theorem Steady.startMonitor (h : Steady c q r.stance) (m : Fin 16) :
    Steady c q (Run.startMonitor c r m).stance :=
  (Steady.enterState (r := r.modMonitor m _) h m 0).ite h

end

end Sys2Proof.Machine
end

