-- ==== Sys2Proof/Proofs/DeckSafe.lean ====
section
/-! PROOFS. Function requests, the ends of transactions, accepted line levels and the change to CONFIGURED
leave the deck safe where it was (R22, R48, R61, R81, R164). -/

namespace Sys2Proof.Machine

section
variable {c : Tables} {q : Stance} {r : Run}

/-! ### Requests (R71 to R92, R110, R114, R123, R149 to R159) -/

theorem Steady.requestMove (h : Steady c q r.stance) (a : Fin 6) (target : Int) (lockAtEnd : Bool) :
    Steady c q (Run.requestMove c r a target lockAtEnd).1.stance := by
  unfold Run.requestMove
  split
  · exact h
  · split
    · exact h
    · rename_i hj
      exact h.startMove (moveInterlock_of_moveJudge hj) _ _ _

/-- RELEASE brings a HALTED axis to rest (R84). -/
theorem Calm.requestRelease (h : Calm q r.stance) (a : Fin 6) :
    Calm q (Run.requestRelease c r a).1.stance := by
  unfold Run.requestRelease
  split
  · rename_i hs
    have ho : r.axes[a].state ≠ .offline := by rw [hs]; decide
    dsimp only
    split
    · rw [stance_raise]
      exact h.rest a _ ho (restState_rests _)
    · exact h.modAxis a _ id id
  all_goals exact h

theorem Steady.requestPlanStart (h : Steady c q r.stance) (steps : List PlanStep) :
    Steady c q (Run.requestPlanStart c r steps).1.stance := by
  unfold Run.requestPlanStart
  split
  · exact h
  · split
    · exact h
    · split
      · exact h
      · split
        · exact h
        · dsimp only
          split
          · exact h
          · exact h.startStep _

theorem Calm.requestPlanCancel (h : Calm q r.stance) : Calm q (Run.requestPlanCancel c r).1.stance := by
  unfold Run.requestPlanCancel
  split
  · exact h
  · exact Calm.stopAxis (by simpa using h) _

theorem Steady.requestReopen (h : Steady c q r.stance) (z : Fin 8) :
    Steady c q (Run.requestReopen c r z).1.stance := by
  unfold Run.requestReopen
  split
  · exact h
  · dsimp only
    rw [stance_foldl _ _ fun _ _ => by simp, stance_withdrawZoneCall]
    exact h.unbar z _ fun _ => .inl rfl

theorem Steady.requestOverride (h : Steady c q r.stance) (z : Fin 8) :
    Steady c q (r.requestOverride z).1.stance := h.unbar z _ fun _ => .inr rfl

theorem Steady.requestEnable (h : Steady c q r.stance) (m : Fin 16) :
    Steady c q (Run.requestEnable c r m).1.stance := by
  unfold Run.requestEnable
  split
  · exact h
  · split
    · exact h
    · split
      · exact h
      · exact Steady.enterState (r := r.modMonitor m _) h m 0

theorem stance_requestDisable (c : Tables) (r : Run) (m : Fin 16) :
    (Run.requestDisable c r m).1.stance = r.stance := by simp [Run.requestDisable]

theorem Steady.requestMonitorRestart (h : Steady c q r.stance) (m : Fin 16) :
    Steady c q (Run.requestMonitorRestart c r m).1.stance := by
  unfold Run.requestMonitorRestart
  split
  · exact h.enterState m 0
  · exact h

theorem stance_requestPlace (c : Tables) (r : Run) (o : CallOffer) :
    (Run.requestPlace c r o).1.stance = r.stance := by
  unfold Run.requestPlace
  dsimp only
  split <;> exact stance_offerCall ..

theorem stance_requestWithdraw (c : Tables) (r : Run) (s : Selector) :
    (Run.requestWithdraw c r s).1.stance = r.stance := by
  unfold Run.requestWithdraw
  split
  · split <;> simp
  · exact stance_foldl _ _ (stance_withdrawByConsole c) _

theorem Steady.withForm {α : Type} (h : Steady c q r.stance) (p : Parse α) (body : List Byte)
    (k : α → Reply) (hk : ∀ a, Steady c q (k a).1.stance) :
    Steady c q (withForm p body r k).1.stance := by
  unfold Machine.withForm
  split
  · exact h
  · exact hk _

theorem Steady.axisRequest (h : Steady c q r.stance) (a : Fin 6) (code : Nat) (body : List Byte) :
    Steady c q (axisRequest c r a code body).1.stance := by
  unfold Machine.axisRequest
  split
  · exact h.withForm _ _ _ fun m => h.requestMove a m.1 m.2
  · exact h.withForm _ _ _ fun _ => h.calm ((Calm.refl _).stopAxis a)
  · exact h.withForm _ _ _ fun _ => by simpa [plain] using h
  · exact h.withForm _ _ _ fun _ => h.calm ((Calm.refl _).requestRelease a)
  iterate 3 exact h.withForm _ _ _ fun _ => by simpa [plain] using h
  · exact h

theorem Steady.planRequest (h : Steady c q r.stance) (code : Nat) (body : List Byte) :
    Steady c q (planRequest c r code body).1.stance := by
  unfold Machine.planRequest
  split
  · exact h.withForm _ _ _ fun steps => h.requestPlanStart steps
  · exact h.withForm _ _ _ fun _ => by simpa [plain] using h
  · exact h.withForm _ _ _ fun _ => h.calm (Calm.refl _).requestPlanCancel
  · exact h

theorem Steady.zoneRequest (h : Steady c q r.stance) (z : Fin 8) (code : Nat) (body : List Byte) :
    Steady c q (zoneRequest c r z code body).1.stance := by
  unfold Machine.zoneRequest
  split
  · exact h.withForm _ _ _ fun fire => h.requestClosure z causeBridge fire
  · exact h.withForm _ _ _ fun _ => h.requestReopen z
  · exact h.withForm _ _ _ fun _ => h.requestOverride z
  · exact h

theorem Steady.doorRequest (h : Steady c q r.stance) (d : Fin 32) (code : Nat) (body : List Byte) :
    Steady c q (doorRequest c r d code body).1.stance := by
  unfold Machine.doorRequest
  split
  iterate 2 exact h.withForm _ _ _ fun _ => by simpa [plain] using h
  · exact h

theorem Steady.callRequest (h : Steady c q r.stance) (code : Nat) (body : List Byte) :
    Steady c q (callRequest c r code body).1.stance := by
  unfold Machine.callRequest
  split
  · exact h.withForm _ _ _ fun o => by rw [stance_requestPlace]; exact h
  · exact h.withForm _ _ _ fun o => by rw [plain, stance_requestWithdraw]; exact h
  · exact h

theorem Steady.monitorRequest (h : Steady c q r.stance) (m : Fin 16) (code : Nat) (body : List Byte) :
    Steady c q (monitorRequest c r m code body).1.stance := by
  unfold Machine.monitorRequest
  split
  · exact h.withForm _ _ _ fun _ => h.requestEnable m
  · exact h.withForm _ _ _ fun _ => by rw [plain, stance_requestDisable]; exact h
  · exact h.withForm _ _ _ fun _ => h.requestMonitorRestart m
  · exact h

theorem Steady.lineRequest (h : Steady c q r.stance) (code : Nat) (body : List Byte) :
    Steady c q (lineRequest r code body).1.stance := by
  unfold Machine.lineRequest
  split
  iterate 2 exact h.withForm _ _ _ fun _ => h
  · exact h

theorem Steady.functionFrame (h : Steady c q r.stance) (req : Req) (payload : List Byte) :
    Steady c q (Run.functionFrame c r req payload).stance := by
  have hf : ∀ (f : Function) (code : Nat) (body : List Byte),
      Steady c q (functionRequest c r f code body).1.stance := fun f code body => by
    cases f with
    | axis a => exact h.axisRequest a code body
    | plan => exact h.planRequest code body
    | zone z => exact h.zoneRequest z code body
    | door d => exact h.doorRequest d code body
    | calls => exact h.callRequest code body
    | monitor m => exact h.monitorRequest m code body
    | lines => exact h.lineRequest code body
  unfold Run.functionFrame
  split
  iterate 2 simpa using h
  · split
    · simpa using h
    · rw [Run.answerReply, stance_answer]
      exact hf _ _ _

/-! ### Timers of an axis (R75, R77, R78) -/

theorem Calm.keepaliveExpired (h : Calm q r.stance) (a : Fin 6) :
    Calm q (Run.keepaliveExpired c r a).stance := by
  have hm : Calm q (r.modAxis a fun x => { x with keepaliveTimer := none }).stance := by simpa using h
  unfold Run.keepaliveExpired
  dsimp only
  split
  iterate 2 exact hm.halt a _
  all_goals exact hm

theorem Calm.lockExpired (h : Calm q r.stance) (a : Fin 6) : Calm q (Run.lockExpired c r a).stance := by
  have hm : Calm q (r.modAxis a fun x => { x with lockTimer := none }).stance := by simpa using h
  unfold Run.lockExpired
  dsimp only
  split
  iterate 2 exact hm.halt a _
  all_goals exact hm

/-! ### The ends of transactions and the trunk hold (R48, R57 to R63) -/

theorem fanOutKind_safe (hs : DeckSafe c r.stance) (n : NodeId) (before : Liveness)
    (payload : List Byte) : DeckSafe c (Run.fanOutKind c r n before payload).stance := by
  unfold Run.fanOutKind
  split
  · split
    · rename_i d _
      exact List.foldlRecOn (motive := fun u : Run => DeckSafe c u.stance) _ _ hs
        fun u hu a _ => driveReply_safe a d hu
    · exact hs
  · split
    · exact (Steady.foldl _ (fun u a => (Steady.refl c u.stance).panelReply a _) _ (.refl c _)).safe hs
    · exact hs
  · split
    · rwa [stance_foldl _ _ fun _ _ => stance_doorReply ..]
    · exact hs
  · rwa [stance_foldl _ _ fun _ _ => stance_ampFanOut ..]
  all_goals exact hs

theorem takeReply_safe (hs : DeckSafe c r.stance) (t : Fin 4) (k : Transaction) (code : Byte)
    (payload : List Byte) : DeckSafe c (Run.takeReply c r t k code payload).stance := by
  have hfan : ∀ {u : Run}, u.stance = r.stance → ∀ (n : NodeId) (before : Liveness),
      DeckSafe c (Run.fanOut c u n before payload).stance := fun {u} hu n before => by
    rw [Run.fanOut, stance_judgeReport]
    exact ((Steady.refl c _).channelReply n payload).safe (fanOutKind_safe (by rwa [hu]) n before payload)
  rw [Run.takeReply, stance_endTransaction, stance_completeSource]
  exact hfan (by simp) _ _

theorem Steady.takeMiss (h : Steady c q r.stance) (t : Fin 4) (k : Transaction) :
    Steady c q (Run.takeMiss c r t k).stance := by
  have hm : Steady c q (r.modNode (nodeIndex (nodeAt t k.slot)) NodeRt.missed).stance := h
  have hlost : Steady c q
      (Run.nodeLost c (r.modNode (nodeIndex (nodeAt t k.slot)) NodeRt.missed) t k).stance := by
    unfold Run.nodeLost
    exact Steady.turnStale (hm.calm (Calm.pushDown (by simp [Run.clearReport]) _ _)) _
  rw [Run.takeMiss, stance_endTransaction]
  exact hlost.ite (by simpa using h)

theorem Steady.holdTrunk (h : Steady c q r.stance) (t : Fin 4) :
    Steady c q (Run.holdTrunk c r t).stance := by
  unfold Run.holdTrunk
  refine Steady.turnStale (h.calm (Calm.pushDown ?_ _ _)) _
  rw [stance_foldl _ _ fun _ _ => by simp [Run.clearReport], stance_holdSlots, stance_holdWork,
    stance_foldl _ _ fun _ _ => stance_modNode ..]
  exact .refl _

/-! ### Accepted levels (R163, R164) -/

theorem Steady.handOver (h : Steady c q r.stance) (l : Fin 14) (active : Bool) :
    Steady c q (Run.handOver c r l active).stance := by
  unfold Run.handOver
  refine Steady.ite (Steady.ite (h.calm ((Calm.refl _).haltWhere _ _))
    (Steady.ite (h.calm (Calm.refl _).serviceOn) ?_)) h
  split
  · exact h.requestClosure _ _ _
  · exact h

/-- The lines' own reading of an accepted change, before its hand-over. -/
def lineNoted (c : Tables) (r : Run) (l : Fin 14) (active : Bool) : Run :=
  let r := Run.edgeEvent c r l active
  if l = lineService then r.raise .serviceMode l.val (det active.toNat) else r

theorem stance_lineNoted (c : Tables) (r : Run) (l : Fin 14) (active : Bool) :
    (lineNoted c r l active).stance = r.stance := by simp [lineNoted]

theorem Kept.lineNoted (c : Tables) (r : Run) (l : Fin 14) (active : Bool) :
    Kept .inner r (lineNoted c r l active) := by
  have he := (Kept.refl r).edgeEvent c l active (F := .inner)
  exact (he.raise _ _ _).ite he

theorem acceptedChange_eq (c : Tables) (r : Run) (l : Fin 14) (active : Bool) :
    Run.acceptedChange c r l active =
      if r.gw = .loading then r
      else if r.gw.inForce then Run.handOver c (lineNoted c r l active) l active
      else lineNoted c r l active := by
  have hg := (Kept.lineNoted c r l active).gw
  unfold Run.acceptedChange
  by_cases hl : r.gw = .loading
  · rw [if_pos hl, if_pos hl]
  · rw [if_neg hl, if_neg hl, ← hg]
    rfl

theorem Steady.acceptedChange (h : Steady c q r.stance) (l : Fin 14) (active : Bool) :
    Steady c q (Run.acceptedChange c r l active).stance := by
  have hn : Steady c q (lineNoted c r l active).stance := by rwa [stance_lineNoted]
  rw [acceptedChange_eq]
  exact h.ite ((hn.handOver l active).ite hn)

/-- With the tables in force an accepted level is handed over, and ESTOP stops every axis (R81). -/
theorem filterExpired_safe (hg : r.gw.inForce = true) (hs : DeckSafe c r.stance) (l : Fin 14) :
    DeckSafe c (Run.filterExpired c r l).stance := by
  have hload : r.gw ≠ .loading := fun e => by rw [e] at hg; cases hg
  have hline : ∀ (u : Run), u.gw = r.gw → ∀ active, Run.acceptedChange c u l active =
      Run.handOver c (lineNoted c u l active) l active := fun u hu active => by
    rw [acceptedChange_eq, hu, if_neg hload, if_pos hg]
  unfold Run.filterExpired
  dsimp only
  rw [hline (r.modLine l fun x => { x with accepted := x.raw, filterTimer := none }) rfl]
  by_cases hl : l = lineEstop ∧ r.lines[l].raw = true
  · obtain ⟨rfl, hraw⟩ := hl
    rw [Run.handOver, hraw, if_pos rfl, if_pos rfl]
    exact fun a _ => haltWhere_stops c _ .estop rfl
  · refine ((Steady.refl c _).handOver l _).safe ?_
    rw [stance_lineNoted]
    refine fun a hb => hs a (hb.imp (fun he => ?_) id)
    by_cases e : (0 : Fin 14) = l
    · subst e
      exfalso
      refine hl ⟨rfl, ?_⟩
      have : ((r.modLine 0 fun x => { x with accepted := x.raw, filterTimer := none }).lines[(0 : Fin 14)]).accepted
        = true := he
      rwa [Run.modLine_self] at this
    · have : ((r.modLine l fun x => { x with accepted := x.raw, filterTimer := none }).lines[(0 : Fin 14)]).accepted
        = true := he
      rwa [Run.modLine_ne r l 0 _ e] at this

theorem filterExpired_offline (c : Tables) (r : Run) (l : Fin 14) (a : Fin 6)
    (h : r.axes[a].state = .offline) : (Run.filterExpired c r l).axes[a].state = .offline :=
  ((Steady.refl c _).acceptedChange (r := r.modLine l _) l r.lines[l].raw).offline a h

/-! ### The change to CONFIGURED (R42, R127, R160, R161) -/

theorem becomeConfigured_offline (c : Tables) (r : Run) (a : Fin 6) (h : r.axes[a].state = .offline) :
    (Run.becomeConfigured c r).axes[a].state = .offline := by
  have hlines : ∀ u : Run, ((List.finRange 14).foldl (Run.judgeLineAnew c) u).axes = u.axes :=
    foldl_keeps _ Run.axes (fun u l => by rw [Run.judgeLineAnew, Run.modLine_axes]) _
  have htrunks : ((List.finRange 4).foldl (Run.startTrunk c) (r.setGw .configured)).stance = r.stance :=
    (stance_foldl _ _ (fun _ _ => by simp [Run.startTrunk]) _).trans (stance_setGw r _)
  unfold Run.becomeConfigured
  dsimp only
  rw [hlines]
  refine (Steady.foldl _ (fun u m => (Steady.refl c u.stance).startMonitor m) _ (.refl c _)).offline a ?_
  rw [stance_startAreas, htrunks]
  exact h

end

end Sys2Proof.Machine
end

