-- ==== Sys2Proof/Proofs/Deeds.lean ====
section
/-! PROOFS. What a step does, by operation. The acts of Acts.lean say of a change of the runtime that it keeps
the bounds; a deed says which operation of a unit it is, and under which of its tests. Every step that
completes is a list of deeds. -/

namespace Sys2Proof.Machine

/-- One operation on the runtime, with the test that let it through. -/
inductive RunDeed (c : Tables) (r : Run) : Run → Prop
  | console (k : Console) : RunDeed c r (r.setConsole k)
  | free (n : Nat) : RunDeed c r (r.setFreeCount n)
  | chain (f : Chain → Chain) : RunDeed c r (r.modChain f)
  | output (o : Fin 4) (high : Bool) (b : SetBy) : RunDeed c r (r.setOutput o high b)
  | lampTestEnded : RunDeed c r (Run.lampTestEnded c r)
  | kickConsole : RunDeed c r (Run.kickConsole c r)
  | startTx : RunDeed c r (Run.startTx c r)
  | beaconExpired : RunDeed c r (Run.beaconExpired c r)
  | answer (req : Req) (code : Code) (detail : Word) (data : List Byte) :
      RunDeed c r (Run.answer c r req code detail data)
  | settleEvent : RunDeed c r (Run.settleEvent c r)
  | functionFrame (hg : r.gw.inForce = true) (req : Req) (payload : List Byte) :
      RunDeed c r (Run.functionFrame c r req payload)
  | commandFrame (hg : r.gw.inForce = true) (req : Req) (payload : List Byte) :
      RunDeed c r (Run.commandFrame c r req payload)
  | passFrame (hg : r.gw.inForce = true) (req : Req) (payload : List Byte) :
      RunDeed c r (Run.passFrame c r req payload)
  | reportIntervalExpired (n : NodeId) : RunDeed c r (Run.reportIntervalExpired c r n)
  | takeReply (t : Fin 4) (k : Transaction) (hk : r.trunks[t].transaction = some k) (code : Byte)
      (payload : List Byte) : RunDeed c r (Run.takeReply c r t k code payload)
  | takeMiss (t : Fin 4) (k : Transaction) (hk : r.trunks[t].transaction = some k) :
      RunDeed c r (Run.takeMiss c r t k)
  | windowOpens (t : Fin 4) : RunDeed c r (Run.windowOpens c r t)
  | gapEnded (t : Fin 4) : RunDeed c r (Run.gapEnded c r t)
  | roundEnded (t : Fin 4) : RunDeed c r (Run.roundEnded c r t)
  | settled (t : Fin 4) (ht : r.trunks[t].settleTimer.isSome = true) :
      RunDeed c r (Run.settled c r t)
  | settle (t : Fin 4) (ht : r.trunks[t].state = .held) : RunDeed c r (Run.settle c r t)
  | holdTrunk (t : Fin 4) (ht : r.trunks[t].state ≠ .down) : RunDeed c r (Run.holdTrunk c r t)
  | keepaliveExpired (a : Fin 6) : RunDeed c r (Run.keepaliveExpired c r a)
  | lockExpired (a : Fin 6) : RunDeed c r (Run.lockExpired c r a)
  | controlExpired (a : Fin 6) : RunDeed c r (Run.controlExpired c r a)
  | warningExpired (z : Fin 8) : RunDeed c r (Run.warningExpired c r z)
  | retryExpired (d : Fin 32) : RunDeed c r (Run.retryExpired c r d)
  | moveTimerExpired (d : Fin 32) : RunDeed c r (r.moveTimerExpired d)
  | transitExpired (d : Fin 32) : RunDeed c r (Run.transitExpired c r d)
  | playTimeout (area : Fin 16) : RunDeed c r (Run.playTimeout c r area)
  | beginPass (id : Nat) : RunDeed c r (Run.beginPass c r id)
  | staleExpired (ch : Fin 32) : RunDeed c r (Run.staleExpired c r ch)
  | holdExpired (m : Fin 16) : RunDeed c r (Run.holdExpired c r m)
  | timeoutExpired (m : Fin 16) : RunDeed c r (Run.timeoutExpired c r m)
  | rawChanged (l : Fin 14) (active : Bool) : RunDeed c r (Run.rawChanged c r l active)
  | filterExpired (l : Fin 14) : RunDeed c r (Run.filterExpired c r l)

/-- One operation of the machine: on the runtime, the queue of commands or the clock, or one act on the
tables or the store. -/
inductive Deed : State → State → Prop
  | run {s : State} {r : Run} (h : RunDeed s.cfg s.run r) : Deed s (s.setRun r)
  | take (s : State) (rest : List Instr) : Deed s (s.setPending rest)
  | tick (s : State) : Deed s s.tick
  | reset (s : State) (cause : ResetCause) (raw : BitVec 14) : Deed s (s.resetBy cause raw)
  | write {s : State} {t : Table} {i d : Nat} {k k' : Cursor} {e : Entry} {c : Tables}
      (hi : i < t.entries) (he : contentForm t i k = .ok (e, k'))
      (hr : restriction s.cfg s.run t i k.bytes = none)
      (hp : putContent s.cfg s.run i e = .ok (c, d)) :
      Deed s ((s.setCfg c).setRun (Run.written s.cfg c s.run t i))
  | clear {s : State} (t : Table) (hg : s.run.gw = .unconfigured) :
      Deed s ((s.setCfg (clearTable s.cfg t)).setRun
        (if t = .param then Run.paramWritten s.cfg (clearTable s.cfg t) s.run else s.run))
  | save {s : State} (hg : s.run.gw = .configured) : Deed s (s.setRun (Run.startSave s.cfg s.run))
  | start {s : State} (hg : s.run.gw = .unconfigured) (hv : validate s.cfg = none) :
      Deed s (s.setRun (Run.becomeConfigured s.cfg s.run))
  | pageWritten {s : State} (hp : s.run.store.phase = .writing) : Deed s s.pageWritten
  | pageLoaded {s : State} (hp : s.run.store.phase = .loading) (bytes : List Byte) :
      Deed s (s.pageLoaded bytes)
  | pageVerified {s : State} (hp : s.run.store.phase = .verifying) (bytes : List Byte) :
      Deed s (s.setRun (s.run.pageVerified bytes))
  | pageExpired (s : State) : Deed s s.pageExpired

/-- Deeds one after another. -/
abbrev Deeds : State → State → Prop := Relation.ReflTransGen Deed

theorem RunDeed.deeds {s : State} {r : Run} (h : RunDeed s.cfg s.run r) : Deeds s (s.setRun r) :=
  .single (.run h)

/-- One more operation on the runtime. -/
theorem Deeds.next {s : State} {q r : Run} (h : Deeds s (s.setRun q)) (hr : RunDeed s.cfg q r) :
    Deeds s (s.setRun r) := h.tail (.run (s := s.setRun q) hr)

/-- A request past R2 finds the tables in force. -/
theorem inForce_of_served {gw : GwState} (hl : gw ≠ .loading) (hu : ¬gw = .unconfigured) :
    gw.inForce = true := by
  cases gw with
  | loading => exact absurd rfl hl
  | unconfigured => exact absurd rfl hu
  | configured => rfl
  | storing => rfl

theorem deeds_whenAwaiting {s : State} (t : Fin 4) (f : Transaction → Run)
    (hf : ∀ k, s.run.trunks[t].transaction = some k → Deeds s (s.setRun (f k))) :
    Deeds s (s.setRun (s.run.whenAwaiting t f)) := by
  unfold Run.whenAwaiting
  split
  · rename_i k hk
    split
    · exact hf k hk
    · exact .refl
  · exact .refl

theorem deeds_takeBytes {s : State} {t : Fin 4} {k : Transaction}
    (hk : s.run.trunks[t].transaction = some k) (bytes : List Byte) :
    Deeds s (s.setRun (Run.takeBytes s.cfg s.run t k bytes)) := by
  unfold Run.takeBytes
  split
  · exact (RunDeed.takeReply t k hk _ _).deeds
  · exact (RunDeed.takeMiss t k hk).deeds
  · exact .refl

/-! ### The close of an event, ANSWERs and the judging of requests -/

theorem deeds_settle {s t : State} (h : Deeds s t) : Deeds s t.settle :=
  h.tail (.run .settleEvent)

theorem deeds_event {s t : State} {f : State → State} (h : s.event f = .next t)
    (hf : Deeds s (f s)) : Deeds s t := by
  cases h
  exact deeds_settle hf

theorem deeds_answer {s t : State} (h : Deeds s t) (req : Req) (v : Verdict) (data : List Byte) :
    Deeds s (t.answer req v data) :=
  h.tail (.run (.answer _ _ _ _))

theorem deeds_answer_self (s : State) (req : Req) (v : Verdict) (data : List Byte) :
    Deeds s (s.answer req v data) := deeds_answer .refl req v data

theorem deeds_runEvent {s t : State} {f : Tables → Run → Run} (h : s.runEvent f = .next t)
    (hf : Deeds s (s.setRun (f s.cfg s.run))) : Deeds s t :=
  deeds_event h hf

theorem deeds_expiry {s t : State} {b : Bool} {f : Tables → Run → Run}
    (h : s.expiry b f = .next t) (hf : b = true → RunDeed s.cfg s.run (f s.cfg s.run)) :
    Deeds s t := by
  refine deeds_event h ?_
  split
  · rename_i hb
    exact (hf hb).deeds
  · exact .refl

theorem deeds_deckFrame (s : State) (req : Req) (k : Tables → Run → Run)
    (hk : s.run.gw.inForce = true → RunDeed s.cfg s.run (k s.cfg s.run)) :
    Deeds s (s.deckFrame req k) := by
  unfold State.deckFrame
  split
  · exact deeds_answer_self s _ _ _
  · rename_i hb
    split
    · exact deeds_answer_self s _ _ _
    · split
      · exact deeds_answer_self s _ _ _
      · rename_i hu
        exact (hk (inForce_of_served (not_loading_of_not_busy hb) hu)).deeds

theorem deeds_manage (s : State) (req : Req) (m : Management) (k : State → State)
    (hk : s.run.gw ≠ .loading → gated m s.run.gw = none → Deeds s (k s)) :
    Deeds s (s.manage req m k) := by
  unfold State.manage
  split
  · exact deeds_answer_self s _ _ _
  · rename_i hb
    split
    · exact deeds_answer_self s _ _ _
    · rename_i hg
      exact hk (not_loading_of_not_busy hb) hg

theorem deeds_formed {α : Type} (s : State) (req : Req) (p : Parse α) (body : List Byte)
    (k : α → State) (hk : ∀ a, Deeds s (k a)) : Deeds s (s.formed req p body k) := by
  unfold State.formed
  split
  · exact deeds_answer_self s _ _ _
  · exact hk _

/-! ### The management requests (R4 to R14) -/

/-- WRITE ENTRY leaves everything as it was, or is one write past its checks (R6). -/
theorem deeds_doWriteEntry (s : State) (req : Req) (t : Table) (body : List Byte) :
    Deeds s (s.doWriteEntry req t body) := by
  refine deeds_answer ?_ _ _ _
  have hs : (s.setCfg s.cfg).setRun s.run = s := rfl
  unfold writeEntry
  split
  · exact .refl
  · rename_i i k hi
    split
    · exact .refl
    · unfold writeAt
      split
      · exact .refl
      · rename_i hr
        split
        · exact .refl
        · rename_i e k' he
          split
          · exact .refl
          · rename_i c d hp
            exact .single (.write (index_lt_entries hi) he hr hp)

theorem deeds_doClearTable {s : State} (hg : s.run.gw = .unconfigured) (req : Req)
    (body : List Byte) : Deeds s (s.doClearTable req body) := by
  refine deeds_answer ?_ _ _ _
  unfold clearRequest
  split
  · exact .refl
  · rename_i t _
    exact .single (.clear t hg)

theorem deeds_doReadStatus (s : State) (req : Req) (body : List Byte) :
    Deeds s (s.doReadStatus req body) := by
  refine deeds_formed s _ _ _ _ fun clear => deeds_answer ?_ _ _ _
  cases clear
  · exact .refl
  · exact (RunDeed.console _).deeds

theorem deeds_doCollect (s : State) (req : Req) (body : List Byte) :
    Deeds s (s.doCollect req body) :=
  deeds_formed s _ _ _ _ fun _ => (RunDeed.console _).deeds.next .kickConsole

theorem deeds_doSave {s : State} (hg : s.run.gw = .configured) (req : Req) (body : List Byte) :
    Deeds s (s.doSave req body) :=
  deeds_formed s _ _ _ _ fun _ => deeds_answer (.single (.save hg)) _ _ _

theorem deeds_doStart {s : State} (hg : s.run.gw = .unconfigured) (req : Req) (body : List Byte) :
    Deeds s (s.doStart req body) := by
  refine deeds_formed s _ _ _ _ fun _ => ?_
  split
  · exact deeds_answer_self s _ _ _
  · rename_i hv
    exact deeds_answer (.single (.start hg hv)) _ _ _

theorem deeds_acceptRestart (s : State) (req : Req) : Deeds s (s.acceptRestart req) := by
  unfold State.acceptRestart
  dsimp only
  split
  · exact .single (.reset s _ _)
  · exact (RunDeed.console _).deeds.next .kickConsole

theorem deeds_doRestart (s : State) (req : Req) (body : List Byte) :
    Deeds s (s.doRestart req body) := by
  refine deeds_formed s _ _ _ _ fun _ => ?_
  split
  · exact deeds_answer_self s _ _ _
  · exact deeds_acceptRestart s req

theorem deeds_doTrunkHold (s : State) (req : Req) (body : List Byte) :
    Deeds s (s.doTrunkHold req body) := by
  refine deeds_formed s _ _ _ _ fun t => ?_
  split
  · rename_i ht
    exact deeds_answer (RunDeed.holdTrunk t (by rw [ht]; decide)).deeds _ _ _
  · rename_i ht
    exact deeds_answer (RunDeed.holdTrunk t (by rw [ht]; decide)).deeds _ _ _
  all_goals exact deeds_answer_self s _ _ _

theorem deeds_doTrunkRelease (s : State) (req : Req) (body : List Byte) :
    Deeds s (s.doTrunkRelease req body) := by
  refine deeds_formed s _ _ _ _ fun t => ?_
  split
  · rename_i ht
    exact deeds_answer (RunDeed.settle t ht).deeds _ _ _
  all_goals exact deeds_answer_self s _ _ _

theorem deeds_doLampTest (s : State) (req : Req) (body : List Byte) :
    Deeds s (s.doLampTest req body) :=
  deeds_formed s _ _ _ _ fun _ => deeds_answer (RunDeed.chain _).deeds _ _ _

theorem deeds_doSetOutput (s : State) (req : Req) (body : List Byte) :
    Deeds s (s.doSetOutput req body) :=
  deeds_formed s _ _ _ _ fun _ =>
    deeds_answer (RunDeed.output _ _ _).deeds _ _ _

theorem deeds_doWriteAny (s : State) (req : Req) (body : List Byte) :
    Deeds s (s.doWriteAny req body) := by
  unfold State.doWriteAny
  split
  · exact deeds_answer_self s _ _ _
  · exact deeds_doWriteEntry s _ _ _

/-- A management request that is listened to and served. -/
theorem deeds_handle {s : State} {m : Management} (hl : s.run.gw ≠ .loading)
    (hg : gated m s.run.gw = none) (req : Req) (body : List Byte) :
    Deeds s (s.handle req body m) := by
  cases m with
  | readEntry => exact deeds_answer_self s _ _ _
  | writeEntry => exact deeds_doWriteAny s _ _
  | clearTable => exact deeds_doClearTable (unconfigured_of_ungated (.inl rfl) hl hg) _ _
  | readStatus => exact deeds_doReadStatus s _ _
  | collectEvents => exact deeds_doCollect s _ _
  | saveConfig => exact deeds_doSave (configured_of_ungated hl hg) _ _
  | start => exact deeds_doStart (unconfigured_of_ungated (.inr rfl) hl hg) _ _
  | restart => exact deeds_doRestart s _ _
  | trunkHold => exact deeds_doTrunkHold s _ _
  | trunkRelease => exact deeds_doTrunkRelease s _ _
  | lampTest => exact deeds_doLampTest s _ _
  | setOutput => exact deeds_doSetOutput s _ _

/-! ### Frames and the receiver (R1, R2) -/

theorem deeds_manageFrame (s : State) (req : Req) (payload : List Byte) :
    Deeds s (s.manageFrame req payload) := by
  unfold State.manageFrame
  split
  · exact deeds_answer_self s _ _ _
  · split
    · exact deeds_answer_self s _ _ _
    · split
      · exact deeds_answer_self s _ _ _
      · split
        · exact deeds_answer_self s _ _ _
        · exact deeds_manage s _ _ _ fun hl hg => deeds_handle hl hg _ _

theorem deeds_judgeFrame (s : State) (f : Frame) : Deeds s (s.judgeFrame f) := by
  unfold State.judgeFrame
  split
  · exact deeds_manageFrame s _ _
  · split
    · exact deeds_deckFrame s _ _ fun hg => .functionFrame hg _ _
    · split
      · exact deeds_deckFrame s _ _ fun hg => .commandFrame hg _ _
      · split
        · exact deeds_deckFrame s _ _ fun hg => .passFrame hg _ _
        · unfold State.otherFrame
          split <;> exact deeds_answer_self s _ _ _

theorem deeds_dropFrame (s : State) : Deeds s s.dropFrame :=
  (RunDeed.console _).deeds

theorem deeds_setRx (s : State) (rx : Rx) : Deeds s (s.setRx rx) :=
  (RunDeed.console _).deeds

theorem deeds_receive (s : State) (b : RxByte) : Deeds s (s.receive b) := by
  unfold State.receive
  dsimp only
  split
  · exact deeds_setRx s _
  · exact (deeds_setRx s _).trans (deeds_dropFrame _)
  · exact (deeds_setRx s _).trans (deeds_judgeFrame _ _)

theorem deeds_receiveAll (s : State) (bytes : List RxByte) : Deeds s (s.receiveAll bytes) := by
  induction bytes generalizing s with
  | nil => exact .refl
  | cons b bytes ih => exact (deeds_receive s b).trans (ih _)

theorem deeds_byteGap (s : State) : Deeds s s.byteGap := by
  unfold State.byteGap
  split
  · exact (deeds_setRx s _).trans (deeds_dropFrame _)
  · exact .refl

theorem deeds_arrive (s : State) (f : Frame) (k : State → State) (hk : Deeds s (k s)) :
    Deeds s (s.arrive f k) := by
  unfold State.arrive
  split
  · exact deeds_dropFrame s
  · split
    · exact hk
    · exact deeds_receiveAll s _

theorem deeds_managed {s t : State} {src : Word} {tag code : Byte} {body : List Byte}
    {m : Management} {k : State → State} (h : s.managed src tag code body m k = .next t)
    (hk : s.run.gw ≠ .loading → gated m s.run.gw = none → Deeds s (k s)) : Deeds s t :=
  deeds_event h (deeds_arrive s _ _ (deeds_manage s _ _ _ hk))

theorem deeds_writing {s u : State} {src : Word} {tag : Byte} {t : Table} {body : List Byte}
    (h : s.writing src tag t body = .next u) : Deeds s u :=
  deeds_event h (deeds_arrive s _ _ (deeds_manage s _ _ _ fun _ _ => deeds_doWriteEntry s _ _ _))

theorem deeds_requested {s t : State} {src dst : Word} {tag code : Byte} {body : List Byte}
    (h : s.requested src dst tag code body = .next t) : Deeds s t :=
  deeds_event h (deeds_arrive s _ _ (deeds_deckFrame s _ _ fun hg => .functionFrame hg _ _))

/-! ### The transmitter and the store -/

theorem deeds_transmissionEnds (s : State) : Deeds s s.transmissionEnds := by
  unfold State.transmissionEnds
  split
  · exact .refl
  · have hk : Deeds s (s.setRun (s.run.setConsole { s.run.console with tx := none, txTimer := none })) :=
      (RunDeed.console _).deeds
    dsimp only
    split
    · exact hk.tail (.reset _ _ _)
    · exact hk.next .startTx

theorem deeds_pageEvent {s t : State} {f : State → State} (h : s.pageEvent f = .next t)
    (hf : Deeds s (f s)) : Deeds s t := by
  unfold State.pageEvent at h
  split at h
  · exact deeds_event h hf
  · cases h

theorem deeds_pageWriteDone {s t : State} (h : execPageWriteDone s = .next t) : Deeds s t := by
  unfold execPageWriteDone at h
  split at h
  · rename_i hp
    exact deeds_pageEvent h (.single (.pageWritten hp))
  all_goals exact deeds_event h .refl

theorem deeds_pageReadDone {s t : State} {b : Option (List Byte)}
    (h : execPageReadDone b s = .next t) : Deeds s t := by
  unfold execPageReadDone at h
  dsimp only at h
  split at h
  · rename_i hp
    exact deeds_pageEvent h (.single (.pageLoaded hp _))
  · rename_i hp
    exact deeds_pageEvent h (.single (.pageVerified hp _))
  all_goals exact deeds_event h .refl

theorem deeds_pageTimerExpiry {s t : State} (h : execPageTimerExpiry s = .next t) :
    Deeds s t := by
  refine deeds_event h ?_
  split
  · exact .single (.pageExpired s)
  · exact .refl

/-! ### Every command, and the step -/

/-- Every command that completes is done by deeds. -/
theorem deeds_exec {i : Instr} {s t : State} (h : exec i s = .next t) : Deeds s t := by
  cases i with
  | powerOn raw =>
    dsimp only [exec, execPowerOn] at h
    exact deeds_event h (.single (.reset s _ _))
  | resetPin =>
    dsimp only [exec, execResetPin] at h
    exact deeds_event h (.single (.reset s _ _))
  | consoleFrameDropped bytes =>
    dsimp only [exec, execConsoleFrameDropped] at h
    exact deeds_event h (deeds_receiveAll s _)
  | consoleByteGapExpiry bytes =>
    dsimp only [exec, execConsoleByteGapExpiry] at h
    exact deeds_event h ((deeds_receiveAll s _).trans (deeds_byteGap _))
  | invalidKindFrame kind src dst tag payload =>
    dsimp only [exec, execInvalidKindFrame] at h
    exact deeds_event h (deeds_arrive s _ _ (deeds_judgeFrame s _))
  | readEntry src tag body => exact deeds_managed h fun _ _ => deeds_answer_self s _ _ _
  | writeEntryRoute src tag body => exact deeds_writing h
  | writeEntryPermit src tag body => exact deeds_writing h
  | writeEntryReport src tag body => exact deeds_writing h
  | writeEntryTrunk src tag body => exact deeds_writing h
  | writeEntryNode src tag body => exact deeds_writing h
  | writeEntryAxis src tag body => exact deeds_writing h
  | writeEntryProfile src tag body => exact deeds_writing h
  | writeEntryZone src tag body => exact deeds_writing h
  | writeEntryDoor src tag body => exact deeds_writing h
  | writeEntryArea src tag body => exact deeds_writing h
  | writeEntryChannel src tag body => exact deeds_writing h
  | writeEntryMonitor src tag body => exact deeds_writing h
  | writeEntryMstate src tag body => exact deeds_writing h
  | writeEntryLamp src tag body => exact deeds_writing h
  | writeEntryLine src tag body => exact deeds_writing h
  | writeEntryParam src tag body => exact deeds_writing h
  | clearTable src tag body =>
    exact deeds_managed h fun hl hg =>
      deeds_doClearTable (unconfigured_of_ungated (.inl rfl) hl hg) _ _
  | readStatus src tag body => exact deeds_managed h fun _ _ => deeds_doReadStatus s _ _
  | collectEvents src tag body => exact deeds_managed h fun _ _ => deeds_doCollect s _ _
  | saveConfig src tag body =>
    exact deeds_managed h fun hl hg => deeds_doSave (configured_of_ungated hl hg) _ _
  | start src tag body =>
    exact deeds_managed h fun hl hg => deeds_doStart (unconfigured_of_ungated (.inr rfl) hl hg) _ _
  | restart src tag body => exact deeds_managed h fun _ _ => deeds_doRestart s _ _
  | trunkHold src tag body => exact deeds_managed h fun _ _ => deeds_doTrunkHold s _ _
  | trunkRelease src tag body => exact deeds_managed h fun _ _ => deeds_doTrunkRelease s _ _
  | lampTest src tag body => exact deeds_managed h fun _ _ => deeds_doLampTest s _ _
  | setOutput src tag body => exact deeds_managed h fun _ _ => deeds_doSetOutput s _ _
  | transmissionEnd =>
    dsimp only [exec, execTransmissionEnd] at h
    exact deeds_event h (deeds_transmissionEnds s)
  | beaconExpiry =>
    dsimp only [exec, execBeaconExpiry] at h
    exact deeds_runEvent h RunDeed.beaconExpired.deeds
  | nodeCommand src dst tag payload =>
    dsimp only [exec, execNodeCommand] at h
    exact deeds_event h (deeds_arrive s _ _ (deeds_deckFrame s _ _ fun hg => .commandFrame hg _ _))
  | passRequest src dst tag payload =>
    dsimp only [exec, execPassRequest] at h
    exact deeds_event h (deeds_arrive s _ _ (deeds_deckFrame s _ _ fun hg => .passFrame hg _ _))
  | reportIntervalExpiry node =>
    dsimp only [exec, execReportIntervalExpiry] at h
    exact deeds_expiry h fun _ => .reportIntervalExpired _
  | goodReply trunk code payload =>
    dsimp only [exec, execGoodReply] at h
    exact deeds_runEvent h (deeds_whenAwaiting trunk _ fun k hk => (RunDeed.takeReply trunk k hk code payload).deeds)
  | corruptReply trunk bytes =>
    dsimp only [exec, execCorruptReply] at h
    exact deeds_runEvent h (deeds_whenAwaiting trunk _ fun k hk => deeds_takeBytes hk bytes)
  | replyWindowExpiry trunk =>
    dsimp only [exec, execReplyWindowExpiry] at h
    exact deeds_runEvent h (deeds_whenAwaiting trunk _ fun k hk => (RunDeed.takeMiss trunk k hk).deeds)
  | replyGapExpiry trunk =>
    dsimp only [exec, execReplyGapExpiry] at h
    exact deeds_runEvent h (deeds_whenAwaiting trunk _ fun k hk => (RunDeed.takeMiss trunk k hk).deeds)
  | turnaroundGapExpiry trunk =>
    dsimp only [exec, execTurnaroundGapExpiry] at h
    exact deeds_runEvent h (RunDeed.gapEnded _).deeds
  | roundIntervalExpiry trunk =>
    dsimp only [exec, execRoundIntervalExpiry] at h
    exact deeds_runEvent h (RunDeed.roundEnded _).deeds
  | settleExpiry trunk =>
    dsimp only [exec, execSettleExpiry] at h
    exact deeds_expiry h fun hb => .settled trunk hb
  | move src dst tag body => exact deeds_requested h
  | stop src dst tag body => exact deeds_requested h
  | keep src dst tag body => exact deeds_requested h
  | release src dst tag body => exact deeds_requested h
  | take src dst tag body => exact deeds_requested h
  | grantLocal src dst tag body => exact deeds_requested h
  | derate src dst tag body => exact deeds_requested h
  | planStart src dst tag body => exact deeds_requested h
  | planKeep src dst tag body => exact deeds_requested h
  | planCancel src dst tag body => exact deeds_requested h
  | keepaliveExpiry axis =>
    dsimp only [exec, execKeepaliveExpiry] at h
    exact deeds_expiry h fun _ => .keepaliveExpired _
  | lockTimerExpiry axis =>
    dsimp only [exec, execLockTimerExpiry] at h
    exact deeds_expiry h fun _ => .lockExpired _
  | controlPeriodExpiry axis =>
    dsimp only [exec, execControlPeriodExpiry] at h
    exact deeds_expiry h fun _ => .controlExpired _
  | zoneClose src dst tag body => exact deeds_requested h
  | reopen src dst tag body => exact deeds_requested h
  | override src dst tag body => exact deeds_requested h
  | doorOpenRequest src dst tag body => exact deeds_requested h
  | doorCloseRequest src dst tag body => exact deeds_requested h
  | warningExpiry zone =>
    dsimp only [exec, execWarningExpiry] at h
    exact deeds_expiry h fun _ => .warningExpired _
  | retryExpiry door =>
    dsimp only [exec, execRetryExpiry] at h
    exact deeds_expiry h fun _ => .retryExpired _
  | moveTimerExpiry door =>
    dsimp only [exec, execMoveTimerExpiry] at h
    exact deeds_expiry h fun _ => .moveTimerExpired _
  | transitExpiry door =>
    dsimp only [exec, execTransitExpiry] at h
    exact deeds_expiry h fun _ => .transitExpired _
  | placeCall src dst tag body => exact deeds_requested h
  | withdrawCall src dst tag body => exact deeds_requested h
  | playTimerExpiry area =>
    dsimp only [exec, execPlayTimerExpiry] at h
    exact deeds_expiry h fun _ => .playTimeout _
  | gapExpiry callId =>
    dsimp only [exec, execGapExpiry] at h
    exact deeds_expiry h fun _ => .beginPass _
  | enable src dst tag body => exact deeds_requested h
  | disable src dst tag body => exact deeds_requested h
  | monitorRestart src dst tag body => exact deeds_requested h
  | staleTimerExpiry channel =>
    dsimp only [exec, execStaleTimerExpiry] at h
    exact deeds_expiry h fun _ => .staleExpired _
  | holdTimerExpiry monitor =>
    dsimp only [exec, execHoldTimerExpiry] at h
    exact deeds_expiry h fun _ => .holdExpired _
  | timeoutTimerExpiry monitor =>
    dsimp only [exec, execTimeoutTimerExpiry] at h
    exact deeds_expiry h fun _ => .timeoutExpired _
  | rawLevelChange line active =>
    dsimp only [exec, execRawLevelChange] at h
    exact deeds_runEvent h (RunDeed.rawChanged _ _).deeds
  | lineFilterExpiry line =>
    dsimp only [exec, execLineFilterExpiry] at h
    exact deeds_expiry h fun _ => .filterExpired _
  | readLines src dst tag body => exact deeds_requested h
  | linesSetOutput src dst tag body => exact deeds_requested h
  | flashPhaseExpiry gen =>
    dsimp only [exec, execFlashPhaseExpiry] at h
    exact deeds_expiry h fun _ => .chain _
  | shiftEnd =>
    dsimp only [exec, execShiftEnd] at h
    exact deeds_expiry h fun _ => .chain _
  | lampTestExpiry =>
    dsimp only [exec, execLampTestExpiry] at h
    exact deeds_expiry h fun _ => .lampTestEnded
  | pageWriteDone => exact deeds_pageWriteDone h
  | pageReadDone returned => exact deeds_pageReadDone h
  | pageTimerExpiry => exact deeds_pageTimerExpiry h
  | replyWindowOpens trunk =>
    dsimp only [exec, execReplyWindowOpens] at h
    exact deeds_runEvent h (RunDeed.windowOpens _).deeds

/-- Every step that completes is done by deeds. -/
theorem deeds_step {s t : State} (h : step s = .next t) : Deeds s t := by
  unfold step at h
  split at h
  · unfold idle at h
    split at h
    · exact ((RunDeed.free _).deeds (s := s)).trans (deeds_exec h)
    · cases h
      exact .single (.tick s)
  · rename_i i rest _
    exact .head (.take s rest) (deeds_exec h)

/-- An invariant of every deed is one of every step. -/
theorem step_keeps_of_deed {P : State → Prop} (hP : ∀ s t, Deed s t → P s → P t) {s t : State}
    (h : step s = .next t) (hs : P s) : P t :=
  (deeds_step h).head_induction_on (motive := fun u _ => P u → P t) id
    (fun hd _ ih hu => ih (hP _ _ hd hu)) hs

end Sys2Proof.Machine
end

