-- ==== Sys2Proof/Proofs/Safety.lean ====
section
/-! PROOFS. No step sets an axis in motion that R81 holds at rest, and with no table in force every axis stays
OFFLINE and every trunk DOWN (O59). The invariant is shown deed by deed: with the tables in force a deed
leaves the deck safe, and without them it finds nothing to work on. -/

namespace Sys2Proof.Machine

/-- Every trunk is DOWN with nothing on it. -/
abbrev Idle (r : Run) : Prop :=
  ∀ t : Fin 4, r.trunks[t].state = .down ∧ r.trunks[t].settleTimer = none ∧ r.trunks[t].transaction = none

/-- Every axis is OFFLINE and every trunk idle. -/
abbrev Dormant (r : Run) : Prop := (∀ a : Fin 6, r.axes[a].state = .offline) ∧ Idle r

section
variable {c c' : Tables} {r r' : Run}

/-! ### Idle trunks -/

theorem Idle.of_trunks (h : Idle r) (ht : r'.trunks = r.trunks) : Idle r' := by
  intro t
  rw [ht]
  exact h t

theorem Idle.of_inner (h : Idle r) (hk : Kept .inner r r') : Idle r' := by
  intro t
  obtain ⟨hs, -⟩ := h t
  rw [(hk.inner rfl).trunks t (by rw [hs]; decide)]
  exact h t

/-- A trunk record changed in another field than its state, its settle timer and its transaction. -/
theorem Idle.modTrunk (h : Idle r) (t : Fin 4) (f : TrunkRt → TrunkRt) (hs : ∀ x, (f x).state = x.state)
    (ht : ∀ x, (f x).settleTimer = x.settleTimer) (hk : ∀ x, (f x).transaction = x.transaction) :
    Idle (r.modTrunk t f) := by
  intro u
  by_cases e : u = t
  · subst e
    rw [Run.modTrunk_self, hs, ht, hk]
    exact h u
  · rw [Run.modTrunk_ne r t u f e]
    exact h u

theorem Idle.nextRound (h : Idle r) (t : Fin 4) : Idle (Run.nextRound c r t) := by
  unfold Run.nextRound
  split
  · refine Idle.of_trunks (h.modTrunk t _ ?_ ?_ ?_) (foldl_keeps _ Run.trunks (fun _ _ => Run.modNode_trunks ..) _ _)
    all_goals exact fun _ => rfl
  · exact h

theorem Idle.kickTrunk (h : Idle r) (t : Fin 4) : Idle (Run.kickTrunk c r t) :=
  h.of_inner ((Kept.refl r).kickTrunk c t)

theorem Idle.windowOpens (h : Idle r) (t : Fin 4) : Idle (Run.windowOpens c r t) := by
  obtain ⟨-, -, hk⟩ := h t
  unfold Run.windowOpens
  split
  · rename_i k hs
    rw [hk] at hs
    cases hs
  · exact h

theorem Idle.gapEnded (h : Idle r) (t : Fin 4) : Idle (Run.gapEnded c r t) := by
  unfold Run.gapEnded
  split
  · have hm := h.modTrunk t (fun k => { k with gapTimer := none }) (fun _ => rfl) (fun _ => rfl)
      fun _ => rfl
    exact hm.kickTrunk t
  · exact h

theorem Idle.roundEnded (h : Idle r) (t : Fin 4) : Idle (Run.roundEnded c r t) := by
  unfold Run.roundEnded
  split
  · have hm := h.modTrunk t (fun k => { k with roundTimer := none }) (fun _ => rfl) (fun _ => rfl)
      fun _ => rfl
    exact (hm.nextRound t).kickTrunk t
  · exact h

theorem Idle.reportIntervalExpired (h : Idle r) (n : NodeId) :
    Idle (Run.reportIntervalExpired c r n) := by
  have hm : ∀ f, Idle (r.modReport (nodeIndex n) f) := fun f => h.of_trunks (Run.modReport_trunks ..)
  unfold Run.reportIntervalExpired
  dsimp only
  split
  · exact Idle.of_inner ((hm _).of_trunks (Run.modReport_trunks ..)) ((Kept.refl _).report c _)
  · exact hm _

/-- With no table in force an accepted level is not handed over (R164). -/
theorem Idle.filterExpired (h : Idle r) (hg : r.gw.inForce = false) (l : Fin 14) :
    Idle (Run.filterExpired c r l) := by
  have hm : ∀ f, Idle (r.modLine l f) := fun f => h.of_trunks (Run.modLine_trunks ..)
  unfold Run.filterExpired
  dsimp only
  rw [acceptedChange_eq, Run.modLine_gw, hg]
  split
  · exact hm _
  · exact (hm _).of_inner (Kept.lineNoted ..)

/-! ### A deck with no table in force -/

theorem deckSafe_of_offline (h : ∀ a : Fin 6, r.axes[a].state = .offline) : DeckSafe c r.stance :=
  fun a _ => congrArg AxisState.inMotion (h a)

theorem Dormant.controlExpired (h : Dormant r) (a : Fin 6) : Idle (Run.controlExpired c r a) := by
  obtain ⟨ho, hi⟩ := h
  unfold Run.controlExpired
  dsimp only
  rw [Run.modAxis_self, ho]
  exact hi.of_trunks (Run.modAxis_trunks ..)

/-! ### Operations on the runtime -/

/-- With the tables in force the deck stays safe; without them nothing leaves its rest. -/
structure DeckKept (c : Tables) (r r' : Run) : Prop where
  gw : r'.gw = r.gw
  store : r'.store = r.store
  safe : r.gw.inForce = true → DeckSafe c r.stance → DeckSafe c r'.stance
  dormant : r.gw.inForce = false → Dormant r → Dormant r'

theorem DeckKept.of_steady (hk : Kept .whole r r') (hs : Steady c r.stance r'.stance)
    (hi : r.gw.inForce = false → Dormant r → Idle r') : DeckKept c r r' where
  gw := hk.gw
  store := hk.store
  safe _ := hs.safe
  dormant hg hd := ⟨fun a => hs.offline a (hd.1 a), hi hg hd⟩

theorem DeckKept.of_inner (hk : Kept .inner r r') (hs : Steady c r.stance r'.stance) :
    DeckKept c r r' where
  gw := hk.gw
  store := hk.store
  safe _ := hs.safe
  dormant _ hd := ⟨fun a => hs.offline a (hd.1 a), hd.2.of_inner hk⟩

theorem DeckKept.of_quiet (hk : Kept .inner r r') (hq : r'.stance = r.stance) : DeckKept c r r' :=
  .of_inner hk (hq ▸ .refl c _)

/-- An operation that with no table in force finds nothing to work on. -/
theorem DeckKept.of_awake (hk : Kept .whole r r') (hs : DeckSafe c r.stance → DeckSafe c r'.stance)
    (hn : r.gw.inForce = false → ¬Idle r) : DeckKept c r r' where
  gw := hk.gw
  store := hk.store
  safe _ := hs
  dormant hg hd := absurd hd.2 (hn hg)

theorem not_idle_of_transaction {t : Fin 4} {k : Transaction} (hk : r.trunks[t].transaction = some k) :
    ¬Idle r := fun h => by
  obtain ⟨-, -, hn⟩ := h t
  rw [hk] at hn
  cases hn

/-- Every operation on the runtime keeps the deck. -/
theorem RunDeed.deckKept (h : RunDeed c r r') : DeckKept c r r' := by
  have e := Kept.refl (F := .inner) r
  have w := Kept.refl (F := .whole) r
  have s := Steady.refl c r.stance
  have inForce : r.gw.inForce = true → r.gw.inForce = false → ¬Idle r := fun ht hf => by
    rw [ht] at hf
    cases hf
  cases h with
  | console k => exact ⟨rfl, rfl, fun _ => id, fun _ => id⟩
  | free n => exact ⟨rfl, rfl, fun _ => id, fun _ => id⟩
  | chain f => exact .of_quiet (e.modChain f) rfl
  | output o high b => exact .of_quiet (e.setOutput o high b) rfl
  | lampTestEnded => exact .of_quiet ((e.modChain _).restartFlash c) rfl
  | kickConsole => exact .of_quiet (e.kickConsole c) (stance_kickConsole ..)
  | startTx => exact .of_quiet (e.startTx c) (stance_startTx ..)
  | beaconExpired => exact .of_quiet (e.beaconExpired c) (by simp [Run.beaconExpired])
  | answer req code detail data => exact .of_quiet (e.answer c req code detail data) (stance_answer ..)
  | settleEvent => exact .of_quiet (e.settleEvent c) (stance_settleEvent ..)
  | functionFrame hg req payload =>
    exact .of_awake (w.functionFrame c req payload) (s.functionFrame req payload).safe (inForce hg)
  | commandFrame hg req payload => exact .of_quiet (e.commandFrame c req payload) (stance_commandFrame ..)
  | passFrame hg req payload =>
    exact .of_awake (w.passFrame c req payload) (by rw [stance_passFrame]; exact id) (inForce hg)
  | reportIntervalExpired n =>
    exact .of_steady (w.reportIntervalExpired c n) (by rw [stance_reportIntervalExpired]; exact s)
      fun _ hd => hd.2.reportIntervalExpired n
  | takeReply t k hk code payload =>
    exact .of_awake (w.takeReply c t k code payload) (takeReply_safe · t k code payload)
      fun _ => not_idle_of_transaction hk
  | takeMiss t k hk =>
    exact .of_awake (w.takeMiss c t k) (s.takeMiss t k).safe fun _ => not_idle_of_transaction hk
  | windowOpens t =>
    exact .of_steady (w.windowOpens c t) (by rw [stance_windowOpens]; exact s) fun _ hd => hd.2.windowOpens t
  | gapEnded t =>
    exact .of_steady (w.gapEnded c t) (by rw [stance_gapEnded]; exact s) fun _ hd => hd.2.gapEnded t
  | roundEnded t =>
    exact .of_steady (w.roundEnded c t) (by rw [stance_roundEnded]; exact s) fun _ hd => hd.2.roundEnded t
  | settled t ht =>
    refine .of_awake (w.settled c t) (by rw [stance_settled]; exact id) fun _ hi => ?_
    obtain ⟨-, hn, -⟩ := hi t
    rw [hn] at ht
    cases ht
  | settle t ht =>
    refine .of_awake (w.settle c t) (by rw [stance_settle]; exact id) fun _ hi => ?_
    obtain ⟨hd, -⟩ := hi t
    rw [ht] at hd
    cases hd
  | holdTrunk t ht => exact .of_awake (w.holdTrunk c t) (s.holdTrunk t).safe fun _ hi => ht (hi t).1
  | keepaliveExpired a => exact .of_inner (e.keepaliveExpired c a) (s.calm ((Calm.refl _).keepaliveExpired a))
  | lockExpired a => exact .of_inner (e.lockExpired c a) (s.calm ((Calm.refl _).lockExpired a))
  | controlExpired a =>
    exact .of_steady (w.controlExpired c a) (s.controlExpired a) fun _ hd => hd.controlExpired a
  | warningExpired z => exact .of_quiet (e.warningExpired c z) (stance_warningExpired ..)
  | retryExpired d => exact .of_quiet (e.retryExpired c d) (stance_retryExpired ..)
  | moveTimerExpired d => exact .of_quiet (e.moveTimerExpired d) (stance_moveTimerExpired ..)
  | transitExpired d => exact .of_quiet (e.transitExpired c d) (stance_transitExpired ..)
  | playTimeout area => exact .of_quiet (e.playTimeout c area) (stance_playTimeout ..)
  | beginPass id => exact .of_quiet (e.beginPass c id) (stance_beginPass ..)
  | staleExpired ch => exact .of_inner (e.turnStale c [ch]) (s.turnStale [ch])
  | holdExpired m => exact .of_inner (e.enterState c m _) (s.enterState m _)
  | timeoutExpired m => exact .of_inner (e.enterState c m _) (s.enterState m _)
  | rawChanged l active =>
    refine .of_steady (w.rawChanged c l active) (by rw [stance_rawChanged]; exact s) fun _ hd => ?_
    unfold Run.rawChanged
    split
    · exact hd.2
    · exact hd.2.of_trunks (Run.modLine_trunks ..)
  | filterExpired l =>
    have hk := w.filterExpired c l
    exact ⟨hk.gw, hk.store, fun hg hs => filterExpired_safe hg hs l, fun hg hd =>
      ⟨fun a => filterExpired_offline c r l a (hd.1 a), hd.2.filterExpired hg l⟩⟩

/-! ### The invariant on tables and runtime -/

theorem deckSafe_iff (c : Tables) (r : Run) :
    DeckSafe c r.stance ↔ ∀ a : Fin 6, EstopHolds r ∨ FireHolds c r a → ¬InMotion r.axes[a] := by
  refine forall_congr' fun a => imp_congr (or_congr Iff.rfl (exists_congr fun z => ?_)) ?_
  · exact and_congr_right' Prod.mk_inj
  · rw [← inMotion_iff]
    exact Bool.eq_false_iff

/-- The invariant of R81 and R42 on the tables and the runtime. -/
structure Guarded (c : Tables) (r : Run) : Prop where
  deck : r.gw.inForce = true → DeckSafe c r.stance
  dormant : r.gw.inForce = false → Dormant r
  loading : r.store.phase = .loading ↔ r.gw = .loading

theorem Guarded.safe (h : Guarded c r) : DeckSafe c r.stance := by
  cases hg : r.gw.inForce with
  | true => exact h.deck hg
  | false => exact deckSafe_of_offline (h.dormant hg).1

theorem stoppedBySafety_iff (s : State) : StoppedBySafety s ↔ Guarded s.cfg s.run := by
  constructor
  · rintro ⟨hs, hd, hl⟩
    exact ⟨fun _ => (deckSafe_iff _ _).mpr hs, hd, hl⟩
  · intro h
    exact ⟨(deckSafe_iff _ _).mp h.safe, h.dormant, h.loading⟩

theorem Guarded.kept (h : Guarded c r) (k : DeckKept c r r') : Guarded c r' where
  deck hg := k.safe (k.gw ▸ hg) h.safe
  dormant hg := k.dormant (k.gw ▸ hg) (h.dormant (k.gw ▸ hg))
  loading := by rw [k.gw, k.store]; exact h.loading

/-- With the tables in force only the deck has to be shown safe. -/
theorem guarded_inForce (hg : r.gw.inForce = true) (hp : r.store.phase ≠ .loading)
    (hs : DeckSafe c r.stance) : Guarded c r where
  deck _ := hs
  dormant hn := by rw [hg] at hn; cases hn
  loading := iff_of_false hp fun hl => by rw [hl] at hg; cases hg

/-! ### WRITE ENTRY (R41, R68) -/

/-- Zones may change under axes at rest. -/
theorem DeckSafe.zones {x : Stance} (h : DeckSafe c x)
    (hz : ∀ a, c'.axes[a].zone = c.axes[a].zone ∨ x.moving a = false) : DeckSafe c' x := fun a hb => by
  obtain he | hm := hz a
  · refine h a ?_
    rw [Barred, ← he]
    exact hb
  · exact hm

theorem axisRestriction_rests {a : Fin 6} (h : axisRestriction r a = none) :
    r.stance.moving a = false := by
  show r.axes[a].state.inMotion = false
  unfold axisRestriction at h
  split at h
  iterate 3
    rename_i hs
    rw [hs]
    rfl
  all_goals cases h

theorem axis_of_getEntry {a : Fin 6} (h : getEntry c' .axis a = getEntry c .axis a) :
    c'.axes[a] = c.axes[a] := by
  simpa [getEntry] using h

/-- A write that is let through changes the zone of no axis but one at rest (R68). -/
theorem write_zones {t : Table} {i d : Nat} {k k' : Cursor} {e : Entry} (hi : i < t.entries)
    (he : contentForm t i k = .ok (e, k')) (hr : restriction c r t i k.bytes = none)
    (hp : putContent c r i e = .ok (c', d)) (a : Fin 6) :
    c'.axes[a].zone = c.axes[a].zone ∨ r.stance.moving a = false := by
  obtain ⟨hput, -⟩ := putContent_ok hp
  obtain ⟨hf, -⟩ := yields_contentForm t i hi _ _ _ he
  obtain rfl := fits_table hf
  by_cases ht : e.table = .axis
  · by_cases ha : a.val = i
    · subst ha
      rw [ht, restriction_axis] at hr
      exact .inr (axisRestriction_rests hr)
    · have hg := getEntry_put_other (putEntry_ok hput) (by rw [ht]; decide) (by rw [ht]; decide) ha
      rw [ht] at hg
      exact .inl (congrArg AxisCfg.zone (axis_of_getEntry hg))
  · have hg := getEntry_put_table (putEntry_ok hput) (Ne.symm ht) a
    exact .inl (congrArg AxisCfg.zone (axis_of_getEntry hg))

theorem stance_doorWritten (c c' : Tables) (r : Run) (d : Fin 32) :
    (Run.doorWritten c c' r d).stance = r.stance := by simp [Run.doorWritten]

theorem stance_written {t : Table} (ht : t ≠ .axis) (i : Nat) :
    (Run.written c c' r t i).stance = r.stance := by
  cases t with
  | axis => exact absurd rfl ht
  | param => exact stance_paramWritten ..
  | report | trunk | node | channel =>
    dsimp only [Run.written]
    split <;> simp
  | door =>
    dsimp only [Run.written]
    split
    · exact stance_doorWritten ..
    · rfl
  | area =>
    dsimp only [Run.written]
    split
    · simp
    · rfl
  | route | permit | profile | zone | monitor | mstate | lamp | line => rfl

/-- What a write does at once stops axes and starts none. -/
theorem Calm.written (t : Table) (i : Nat) : Calm r.stance (Run.written c c' r t i).stance := by
  by_cases ht : t = .axis
  · subst ht
    dsimp only [Run.written]
    split
    · exact (Calm.refl _).axisWritten _ _
    · exact .refl _
  · rw [stance_written ht]
    exact .refl _

/-- With no table in force a write touches no trunk's state (R41). -/
theorem Idle.written (h : Idle r) (hg : r.gw.inForce = false) (t : Table) (i : Nat) :
    Idle (Run.written c c' r t i) := by
  cases t with
  | axis =>
    dsimp only [Run.written]
    split
    · exact h.of_inner ((Kept.refl r).axisWritten c _ _)
    · exact h
  | param => exact h.of_inner ((Kept.refl r).paramWritten c _)
  | trunk =>
    dsimp only [Run.written, Run.trunkWritten]
    rw [hg]
    split <;> exact h
  | area =>
    dsimp only [Run.written]
    rw [hg]
    split <;> exact h
  | door =>
    dsimp only [Run.written, Run.doorWritten]
    split
    · split <;> exact h
    · exact h
  | report | node | channel =>
    dsimp only [Run.written]
    split <;> exact h
  | route | permit | profile | zone | monitor | mstate | lamp | line => exact h

theorem Guarded.written (h : Guarded c r) {t : Table} {i d : Nat} {k k' : Cursor} {e : Entry}
    (hi : i < t.entries) (he : contentForm t i k = .ok (e, k')) (hr : restriction c r t i k.bytes = none)
    (hp : putContent c r i e = .ok (c', d)) : Guarded c' (Run.written c c' r t i) := by
  have hk : Kept .whole r (Run.written c c' r t i) := Kept.written c (.refl r) c' t i
  have hc : Steady c' r.stance (Run.written c c' r t i).stance := .of_calm (.written t i)
  have hz : Guarded c' r := ⟨fun _ => h.safe.zones (write_zones hi he hr hp), h.dormant, h.loading⟩
  exact hz.kept (.of_steady hk hc fun hg hd => hd.2.written hg t i)

/-! ### The clock, the reset and the store (R42, R67, R178 to R182) -/

theorem Dormant.tick (h : Dormant r) : Dormant r.tick := by
  refine ⟨fun a => ?_, fun t => ?_⟩
  · rw [stance_state (stance_tick r) a]
    exact h.1 a
  · obtain ⟨hs, ht, hk⟩ := h.2 t
    have he : r.tick.trunks[t] = r.trunks[t].tick := by simp [Run.tick]
    rw [he]
    exact ⟨hs, by rw [TrunkRt.tick, ht]; rfl, hk⟩

theorem Guarded.tick (h : Guarded c r) : Guarded c r.tick where
  deck hg := by rw [stance_tick]; exact h.deck hg
  dormant hg := (h.dormant hg).tick
  loading := h.loading

theorem guarded_reset (c : Tables) (cause : ResetCause) (raw : BitVec 14) (shown : List Bool)
    (serial freeCount : Nat) : Guarded c (Run.reset cause raw shown serial freeCount) where
  deck hg := by cases hg
  dormant _ := ⟨fun a => congrArg AxisRt.state (replicate_get resetAxis a), fun t => by
    rw [show (Run.reset cause raw shown serial freeCount).trunks[t] = resetTrunk from replicate_get _ t]
    exact ⟨rfl, rfl, rfl⟩⟩
  loading := iff_of_true rfl rfl

/-- The change to CONFIGURED, out of a deck at rest. -/
theorem guarded_becomeConfigured (ho : ∀ a : Fin 6, r.axes[a].state = .offline)
    (hp : r.store.phase ≠ .loading) : Guarded c (Run.becomeConfigured c r) :=
  guarded_inForce (by rw [becomeConfigured_gw]; rfl) (by rwa [becomeConfigured_store])
    (deckSafe_of_offline fun a => becomeConfigured_offline c r a (ho a))

theorem guarded_endLoading {s : State} (hd : Dormant s.run) (k : LoadResult) :
    Guarded (s.endLoading k).cfg (s.endLoading k).run := by
  have hu : ∀ n, Guarded Tables.reset (Run.loadingEnds Tables.reset s.run n .unconfigured) := fun n =>
    ⟨fun hg => (by cases hg), fun _ => hd, iff_of_false (fun hp => (by cases hp)) fun hg => (by cases hg)⟩
  cases k with
  | good c => exact guarded_becomeConfigured hd.1 fun hp => by cases hp
  | unreadable => exact hu 1
  | refused => exact hu 2

theorem Guarded.endSave (h : Guarded c r) (kind : EventKind) (d : Word) :
    Guarded c (r.endSave kind d) :=
  guarded_inForce rfl (fun hp => by cases hp) h.safe

/-- The store goes on with another page in a phase that is LOADING where it was. -/
theorem Guarded.setStore (h : Guarded c r) {x : Store} (hx : x.phase = .loading ↔ r.store.phase = .loading) :
    Guarded c (r.setStore x) :=
  ⟨h.deck, h.dormant, hx.trans h.loading⟩

theorem Guarded.pageLoaded {s : State} (h : Guarded s.cfg s.run) (hp : s.run.store.phase = .loading)
    (bytes : List Byte) : Guarded (s.pageLoaded bytes).cfg (s.pageLoaded bytes).run := by
  have hg : s.run.gw.inForce = false := by rw [h.loading.mp hp]; rfl
  have hd := h.dormant hg
  unfold State.pageLoaded
  dsimp only
  split
  · exact guarded_endLoading hd _
  · split
    · refine Guarded.setStore ⟨fun hn => ?_, h.dormant, h.loading⟩ Iff.rfl
      rw [hg] at hn
      cases hn
    · exact guarded_endLoading hd _

theorem Guarded.pageVerified (h : Guarded c r) (bytes : List Byte) : Guarded c (r.pageVerified bytes) := by
  unfold Run.pageVerified
  dsimp only
  split
  · exact h.endSave _ _
  · split
    · exact h.setStore Iff.rfl
    · exact h.endSave _ _

theorem Guarded.pageExpired {s : State} (h : Guarded s.cfg s.run) :
    Guarded s.pageExpired.cfg s.pageExpired.run := by
  unfold State.pageExpired
  split
  · exact h
  · rename_i hp
    exact guarded_endLoading (h.dormant (by rw [h.loading.mp hp]; rfl)) _
  iterate 2 exact h.endSave _ _

/-! ### Every deed, and every step -/

theorem Guarded.deed {s t : State} (hd : Deed s t) (h : Guarded s.cfg s.run) : Guarded t.cfg t.run := by
  cases hd with
  | run hr => exact h.kept hr.deckKept
  | take rest => exact h
  | tick => exact h.tick
  | reset cause raw => exact guarded_reset _ _ _ _ _ _
  | write hi he hr hp => exact h.written hi he hr hp
  | clear t hg =>
    have hn : s.run.gw.inForce = false := by rw [hg]; rfl
    have hc : Guarded (clearTable s.cfg t) s.run :=
      ⟨fun hi => (by rw [hn] at hi; cases hi), h.dormant, h.loading⟩
    have hk : Kept .inner s.run (Run.paramWritten s.cfg (clearTable s.cfg t) s.run) :=
      Kept.paramWritten s.cfg (.refl _) _
    dsimp only [State.setRun_cfg, State.setRun_run]
    split
    · exact hc.kept (.of_quiet hk (stance_paramWritten ..))
    · exact hc
  | save hg => exact guarded_inForce rfl (fun hp => by cases hp) h.safe
  | start hg hv =>
    refine guarded_becomeConfigured (h.dormant (by rw [hg]; rfl)).1 fun hp => ?_
    rw [h.loading.mp hp] at hg
    cases hg
  | pageWritten hp =>
    refine h.setStore (iff_of_false (fun hl => ?_) fun hl => ?_)
    · rcases afterWrite_phase hp with hw | hw <;> rw [hw] at hl <;> cases hl
    · rw [hp] at hl
      cases hl
  | pageLoaded hp bytes => exact h.pageLoaded hp bytes
  | pageVerified hp bytes => exact h.pageVerified bytes
  | pageExpired => exact h.pageExpired

/-- Settles O59: every deed of a step keeps R81's prohibition, and the rest of a deck with no table in
force. -/
theorem stepsKeepAxesStoppedBySafety : Obligations.StepsKeepAxesStoppedBySafety := fun s t hs h =>
  (stoppedBySafety_iff t).mpr (step_keeps_of_deed (P := fun u => Guarded u.cfg u.run)
    (fun _ _ hd hu => hu.deed hd) h ((stoppedBySafety_iff s).mp hs))

end

end Sys2Proof.Machine
end

