-- ==== Sys2Proof/Proofs/Offers.lean ====
section
/-! PROOFS. Offers of work to a trunk (R51, R52, R53): how a frame is judged at its offer, the order of the
hold set, and the nodes that HOLDs and demands reach. -/

namespace Sys2Proof.Machine

/-! ### Frames offered to the command queue (R53) -/

section
variable {c : Tables} {r : Run} {n : NodeId}

theorem offerFrame_of_accepted (h : judgeOffer c r n = .accepted) (code : Byte) (payload : List Byte)
    (o : Origin) : Run.offerFrame c r n code payload o =
      (Run.enqueueFrame c r n code payload o, .accepted) := by
  unfold Run.offerFrame
  rw [h]

theorem offerFrame_of_refused (h : judgeOffer c r n ≠ .accepted) (code : Byte) (payload : List Byte)
    (o : Origin) : Run.offerFrame c r n code payload o = (r, judgeOffer c r n) := by
  unfold Run.offerFrame
  split
  · rename_i he
    exact absurd he h
  · rfl

/-- A frame refused with a given finding. -/
theorem offerFrame_eq_refused {f : Offer} (h : judgeOffer c r n = f) (hf : f ≠ .accepted) (code : Byte)
    (payload : List Byte) (o : Origin) : Run.offerFrame c r n code payload o = (r, f) := by
  subst h
  exact offerFrame_of_refused hf code payload o

/-! ### HOLDs and demands (R51, R52) -/

theorem nodeReachable_iff : nodeReachable c r n = true ↔
    r.trunks[n.trunk].state = .running ∧ nodeCfg c n ≠ none ∧ (nodeRt r n).liveness ≠ .lost := by
  simp [nodeReachable, Option.isSome_iff_ne_none, and_assoc]

theorem holdNode_reached (h : nodeReachable c r n = true) : Run.holdNode c r n =
    Run.kickTrunk c (r.modTrunk n.trunk fun k => { k with holdSet := insertSlot n.slot k.holdSet })
      n.trunk := if_pos h

theorem holdNode_unreached (h : ¬nodeReachable c r n = true) : Run.holdNode c r n = r := if_neg h

variable {a : Fin 6}

theorem writeSetPoint_reached (h : nodeReachable c r c.axes[a].drive = true) (d : Int) :
    Run.writeSetPoint c r a d = Run.kickTrunk c (r.modAxis a fun x => { x with setPoint := some d })
      c.axes[a].drive.trunk := if_pos h

theorem writeSetPoint_unreached (h : ¬nodeReachable c r c.axes[a].drive = true) (d : Int) :
    Run.writeSetPoint c r a d = r.modAxis a fun x => { x with setPoint := none } := if_neg h
end

/-! ### The hold set (R51) -/

theorem mem_insertSlot (i j : Fin 31) (l : List (Fin 31)) :
    j ∈ insertSlot i l ↔ j = i ∨ j ∈ l := by
  induction l with
  | nil => simp [insertSlot]
  | cons k ks ih =>
    unfold insertSlot
    split
    · exact List.mem_cons
    · split
      · rename_i he
        simp [he]
      · rw [List.mem_cons, List.mem_cons, ih, or_left_comm]

theorem insertSlot_pairwise (i : Fin 31) {l : List (Fin 31)} (h : l.Pairwise (· < ·)) :
    (insertSlot i l).Pairwise (· < ·) := by
  induction l with
  | nil => exact List.pairwise_singleton _ _
  | cons k ks ih =>
    obtain ⟨hk, hks⟩ := List.pairwise_cons.mp h
    unfold insertSlot
    split
    · rename_i hik
      refine List.pairwise_cons.mpr ⟨fun x hx => ?_, h⟩
      rcases List.mem_cons.mp hx with rfl | hx
      · exact hik
      · exact hik.trans (hk x hx)
    · rename_i hik
      split
      · exact h
      · rename_i hne
        refine List.pairwise_cons.mpr ⟨fun x hx => ?_, ih hks⟩
        rcases (mem_insertSlot i x ks).mp hx with rfl | hx
        · omega
        · exact hk x hx

/-- Settles O30: by the order of `judgeOffer`'s tests, by induction on the hold set, and by what
`nodeReachable` asks. -/
theorem offersAreJudgedAtOnce : Obligations.OffersAreJudgedAtOnce := by
  refine ⟨fun c r n code payload o => ⟨fun h => ?_, fun h hg => ?_, fun h hg hf => ?_, fun h hg hf => ?_⟩,
    fun i l h => ⟨insertSlot_pairwise i h, fun j => mem_insertSlot i j l⟩,
    fun c r a d => ⟨fun h => ?_, fun h => ?_⟩⟩
  · exact offerFrame_eq_refused (judgeOffer_notRunning h) (by decide) ..
  · exact offerFrame_eq_refused (judgeOffer_gone h hg) (by decide) ..
  · exact offerFrame_eq_refused (judgeOffer_full h hg hf) (by decide) ..
  · exact offerFrame_of_accepted (judgeOffer_takes h hg hf) ..
  · have hr := nodeReachable_iff.mpr h
    exact ⟨holdNode_reached hr, writeSetPoint_reached hr d⟩
  · have hr := mt nodeReachable_iff.mp h
    exact ⟨holdNode_unreached hr, writeSetPoint_unreached hr d⟩

end Sys2Proof.Machine
end

