-- ==== Sys2Proof/Proofs/Selection.lean ====
section
/-! PROOFS. What the free transmitter takes (R49): each kind of frame as one change of the state, and the order
in which the kinds are looked for. -/

namespace Sys2Proof.Machine

section
variable {c : Tables} {r : Run} {t : Fin 4}

/-! ### A frame taken -/

/-- A poll counts none of the frames between polls; every other frame counts one, up to four (R49). -/
theorem beginTransaction_of_not_poll (slot : Fin 31) (code : Byte) (payload : List Byte)
    {source : TxSource} (h : source ≠ .poll) : r.beginTransaction t slot code payload source =
      r.modTrunk t fun x => { x with
        nonPoll := min 4 (x.nonPoll + 1)
        transaction := some { slot, code, payload, source, awaiting := false } } := by
  unfold Run.beginTransaction
  rw [beq_eq_false_iff_ne.mpr h]
  rfl

theorem takePoll_eq (i : Fin 31) : r.takePoll t i =
    (r.modTrunk t fun x => { x with
      roundPosition := i.val + 1, nonPoll := 0
      transaction := some { slot := i, code := 0, payload := [], source := .poll, awaiting := false } }).modNode
      (nodeIndex (nodeAt t i)) fun n => { n with mark := true } := by
  have hcomm : ∀ (u : Run) (f : NodeRt → NodeRt) (g : TrunkRt → TrunkRt),
      (u.modNode (nodeIndex (nodeAt t i)) f).modTrunk t g =
        (u.modTrunk t g).modNode (nodeIndex (nodeAt t i)) f := fun _ _ _ => rfl
  unfold Run.takePoll Run.beginTransaction
  rw [hcomm, Run.modTrunk_modTrunk]
  rfl

theorem takeSetPoint_eq (a : Fin 6) (d : Int) : Run.takeSetPoint c r t a d =
    (r.modAxis a fun x => { x with setPoint := none, sentDemand := d }).modTrunk t fun x =>
      { x with
        nonPoll := min 4 (x.nonPoll + 1)
        transaction := some { slot := c.axes[a].drive.slot, code := 1, payload := i2 d
                              source := .setPoint a, awaiting := false } } :=
  beginTransaction_of_not_poll _ _ _ nofun

theorem takeQueue_eq (f : QFrame) (l : List QFrame) : r.takeQueue t f l = r.modTrunk t fun x =>
    { x with
      queue := { f with attempts := f.attempts + 1 } :: l
      nonPoll := min 4 (x.nonPoll + 1)
      transaction := some { slot := f.node.slot, code := f.code, payload := f.payload
                            source := .queue, awaiting := false } } := by
  unfold Run.takeQueue
  rw [beginTransaction_of_not_poll _ _ _ (by decide), Run.modTrunk_modTrunk]

theorem takePass_eq (p : PassSlot) : r.takePass t p = r.modTrunk t fun x =>
    { x with
      pass := some { p with attempts := p.attempts + 1 }
      nonPoll := min 4 (x.nonPoll + 1)
      transaction := some { slot := p.slot, code := p.code, payload := p.payload
                            source := .pass, awaiting := false } } := by
  unfold Run.takePass
  rw [beginTransaction_of_not_poll _ _ _ (by decide), Run.modTrunk_modTrunk]

/-! ### Steps 1 and 2 of R49 -/

theorem selectFrame_hold (h : Run.nextRound c r t = r) {i : Fin 31} {l : List (Fin 31)}
    (hs : r.trunks[t].holdSet = i :: l) :
    Run.selectFrame c r t = r.beginTransaction t i codeHold [] .hold := by
  unfold Run.selectFrame
  simp only [h, hs]

theorem selectFrame_forced (h : Run.nextRound c r t = r) (hs : r.trunks[t].holdSet = [])
    (hn : r.trunks[t].nonPoll = 4) {i : Fin 31} (hd : duePoll c r t = some i) :
    Run.selectFrame c r t = r.takePoll t i := by
  unfold Run.selectFrame
  simp only [h, hs, hd]
  exact if_pos hn

/-- No HOLD waits and no poll is forced. -/
abbrev LowerTurn (c : Tables) (r : Run) (t : Fin 4) : Prop :=
  r.trunks[t].holdSet = [] ∧ (r.trunks[t].nonPoll = 4 → duePoll c r t = none)

theorem selectFrame_lower (h : Run.nextRound c r t = r) (hl : LowerTurn c r t) :
    Run.selectFrame c r t = Run.selectLower c r t := by
  obtain ⟨hs, hd⟩ := hl
  unfold Run.selectFrame
  simp only [h, hs]
  split
  · rename_i hn
    rw [hd hn]
  · rfl

/-! ### Steps 3 to 6 of R49 -/

theorem selectLower_setPoint {a : Fin 6} {d : Int} (h : dueSetPoint c r t = some (a, d)) :
    Run.selectLower c r t = Run.takeSetPoint c r t a d := by
  unfold Run.selectLower
  rw [h]

theorem selectLower_queue (h : dueSetPoint c r t = none) {f : QFrame} {l : List QFrame}
    (hq : r.trunks[t].queue = f :: l) : Run.selectLower c r t = r.takeQueue t f l := by
  unfold Run.selectLower
  rw [h, hq]

theorem selectLower_pass (h : dueSetPoint c r t = none) (hq : r.trunks[t].queue = []) {p : PassSlot}
    (hp : r.trunks[t].pass = some p) : Run.selectLower c r t = r.takePass t p := by
  unfold Run.selectLower
  rw [h, hq, hp]

theorem selectLower_poll (h : dueSetPoint c r t = none) (hq : r.trunks[t].queue = [])
    (hp : r.trunks[t].pass = none) {i : Fin 31} (hd : duePoll c r t = some i) :
    Run.selectLower c r t = r.takePoll t i := by
  unfold Run.selectLower
  rw [h, hq, hp, hd]

theorem selectLower_nothing (h : dueSetPoint c r t = none) (hq : r.trunks[t].queue = [])
    (hp : r.trunks[t].pass = none) (hd : duePoll c r t = none) : Run.selectLower c r t = r := by
  unfold Run.selectLower
  rw [h, hq, hp, hd]

/-! ### The set-point slots of a trunk (R52) -/

/-- The set-point that an axis has for the trunk. -/
def setPointFor (c : Tables) (r : Run) (t : Fin 4) (a : Fin 6) : Option (Fin 6 × Int) :=
  if c.axes[a].configured && c.axes[a].drive.trunk == t then r.axes[a].setPoint.map fun d => (a, d)
  else none

theorem dueSetPoint_eq : dueSetPoint c r t = (List.finRange 6).findSome? (setPointFor c r t) := rfl

theorem setPointFor_eq_some {a b : Fin 6} {d : Int} : setPointFor c r t b = some (a, d) ↔
    b = a ∧ c.axes[a].configured = true ∧ c.axes[a].drive.trunk = t ∧ r.axes[a].setPoint = some d := by
  unfold setPointFor
  by_cases e : b = a
  · subst e
    simp [and_assoc]
  · simp [e]

theorem setPointFor_eq_none {b : Fin 6} : setPointFor c r t b = none ↔
    (c.axes[b].configured = true → c.axes[b].drive.trunk = t → r.axes[b].setPoint = none) := by
  simp [setPointFor]

theorem dueSetPoint_eq_some {a : Fin 6} {d : Int} : dueSetPoint c r t = some (a, d) ↔
    c.axes[a].configured = true ∧ c.axes[a].drive.trunk = t ∧ r.axes[a].setPoint = some d ∧
      ∀ b : Fin 6, b < a → c.axes[b].configured = true → c.axes[b].drive.trunk = t →
        r.axes[b].setPoint = none := by
  rw [dueSetPoint_eq, findSome_first]
  simp only [setPointFor_eq_some, setPointFor_eq_none]
  constructor
  · rintro ⟨b, ⟨rfl, hc, ht, hd⟩, hlow⟩
    exact ⟨hc, ht, hd, hlow⟩
  · rintro ⟨hc, ht, hd, hlow⟩
    exact ⟨a, ⟨rfl, hc, ht, hd⟩, hlow⟩

end

/-- Settles O28: the selection branch by branch, each with the frame it takes. -/
theorem transmitterSelectsInOrder : Obligations.TransmitterSelectsInOrder := by
  intro c r t h k rest line polled
  refine ⟨fun i l hs => ?_, fun i hs hn hd => ?_, fun a d hl hd => ?_, fun f l hl hd hq => ?_,
    fun p hl hd hq hp => ?_, fun hl hd hq hp => ⟨fun i hi => ?_, fun hn => ?_⟩,
    fun a d => dueSetPoint_eq_some⟩
  · rw [selectFrame_hold h hs]
    exact beginTransaction_of_not_poll _ _ _ (by decide)
  · rw [selectFrame_forced h hs hn hd]
    exact takePoll_eq i
  · rw [selectFrame_lower h hl, selectLower_setPoint hd]
    exact takeSetPoint_eq a d
  · rw [selectFrame_lower h hl, selectLower_queue hd hq]
    exact takeQueue_eq f l
  · rw [selectFrame_lower h hl, selectLower_pass hd hq hp]
    exact takePass_eq p
  · rw [selectFrame_lower h hl, selectLower_poll hd hq hp hi]
    exact takePoll_eq i
  · rw [selectFrame_lower h hl, selectLower_nothing hd hq hp hn]

end Sys2Proof.Machine
end

