-- ==== Sys2Proof/Proofs/Rounds.lean ====
section
/-! PROOFS. Poll rounds and the trunk's timers (R44, R46, R48, R50): which node is due, what the start of a
round leaves, when the transmitter looks for work, and the four expiries. -/

namespace Sys2Proof.Machine

section
variable {c : Tables} {r : Run} {t : Fin 4}

/-! ### Nodes that are due (R50) -/

theorem pollDue_iff {i : Fin 31} : pollDue c r t i = true ↔ ∃ k, nodeCfg c (nodeAt t i) = some k ∧
    r.trunks[t].roundPosition < i.val + 1 ∧ (nodeRt r (nodeAt t i)).mark = false ∧
    (((nodeRt r (nodeAt t i)).liveness ≠ .lost ∧
        (k.poll = .fast ∨ k.poll = .slow ∧ r.trunks[t].roundPhase = 0)) ∨
      ((nodeRt r (nodeAt t i)).liveness = .lost ∧ r.trunks[t].roundPhase = 0)) := by
  unfold pollDue address
  cases nodeCfg c (nodeAt t i) with
  | none => simp
  | some k =>
    by_cases hl : (nodeRt r (nodeAt t i)).liveness = .lost
    · simp [hl, and_assoc]
    · cases hp : k.poll <;> simp [hl, hp, and_assoc]

/-- The first index that satisfies a test. -/
theorem find_first {n : Nat} {p : Fin n → Bool} {i : Fin n} :
    (List.finRange n).find? p = some i ↔ p i = true ∧ ∀ j, j < i → p j = false := by
  refine ⟨fun h => ?_, fun ⟨hi, hj⟩ => find_lowest hi fun y hy => ?_⟩
  · obtain ⟨hi, k, hk, rfl, hlow⟩ := List.find?_eq_some_iff_getElem.mp h
    refine ⟨hi, fun j hj => ?_⟩
    simpa using hlow j.val (by simpa [Fin.lt_def] using hj)
  · by_contra hlt
    rw [hj y (not_le.mp hlt)] at hy
    cases hy

theorem duePoll_eq_some {i : Fin 31} : duePoll c r t = some i ↔
    pollDue c r t i = true ∧ ∀ j, j < i → pollDue c r t j = false := find_first

/-! ### The start of a round (R50) -/

theorem nodeRt_modNode (r : Run) (n m : NodeId) (f : NodeRt → NodeRt) :
    nodeRt (r.modNode (nodeIndex m) f) n = if n = m then f (nodeRt r n) else nodeRt r n := by
  split
  · rename_i h
    subst h
    exact Run.modNode_self r _ _
  · rename_i h
    exact Run.modNode_ne r _ _ _ fun e => h (nodeIndex_injective e)

/-- The mark of one node of the trunk is cleared. -/
def clearMark (t : Fin 4) (r : Run) (i : Fin 31) : Run :=
  r.modNode (nodeIndex (nodeAt t i)) fun n => { n with mark := false }

theorem clearMarks_node (l : List (Fin 31)) (r : Run) (i : Fin 31) :
    nodeRt (l.foldl (clearMark t) r) (nodeAt t i) =
      if i ∈ l then { nodeRt r (nodeAt t i) with mark := false } else nodeRt r (nodeAt t i) := by
  induction l generalizing r with
  | nil => rfl
  | cons j l ih =>
    have hj : nodeRt (clearMark t r j) (nodeAt t i) =
        if i = j then { nodeRt r (nodeAt t i) with mark := false } else nodeRt r (nodeAt t i) := by
      have he : nodeAt t i = nodeAt t j ↔ i = j := ⟨congrArg NodeId.slot, congrArg (nodeAt t)⟩
      rw [clearMark, nodeRt_modNode]
      simp only [he]
    rw [List.foldl_cons, ih, hj]
    by_cases e : i = j <;> simp [e]

theorem clearMarks_trunks (l : List (Fin 31)) (r : Run) :
    (l.foldl (clearMark t) r).trunks = r.trunks :=
  foldl_keeps _ Run.trunks (fun _ _ => Run.modNode_trunks ..) l r

theorem clearMarks_node_ne (l : List (Fin 31)) (r : Run) {n : NodeId} (hn : n.trunk ≠ t) :
    nodeRt (l.foldl (clearMark t) r) n = nodeRt r n := by
  refine foldl_keeps _ (nodeRt · n) (fun u i => ?_) l r
  rw [clearMark, nodeRt_modNode, if_neg]
  rintro rfl
  exact hn rfl

theorem beginRound_eq (phase : Nat) : Run.beginRound c r t phase =
    (List.finRange 31).foldl (clearMark t) (r.modTrunk t fun k =>
      { k with roundPhase := phase, roundPosition := 0
               roundTimer := some (ms c.trunks[t].roundInterval) }) := rfl

theorem beginRound_trunk (phase : Nat) : (Run.beginRound c r t phase).trunks[t] =
    { r.trunks[t] with roundPhase := phase, roundPosition := 0
                       roundTimer := some (ms c.trunks[t].roundInterval) } := by
  rw [beginRound_eq, clearMarks_trunks, Run.modTrunk_self]

theorem beginRound_trunk_ne (phase : Nat) {u : Fin 4} (hu : u ≠ t) :
    (Run.beginRound c r t phase).trunks[u] = r.trunks[u] := by
  rw [beginRound_eq, clearMarks_trunks, Run.modTrunk_ne r t u _ hu]

theorem beginRound_node (phase : Nat) (n : NodeId) : nodeRt (Run.beginRound c r t phase) n =
    if n.trunk = t then { nodeRt r n with mark := false } else nodeRt r n := by
  rw [beginRound_eq]
  split
  · rename_i hn
    subst hn
    exact (clearMarks_node _ _ n.slot).trans (if_pos (List.mem_finRange _))
  · rename_i hn
    exact clearMarks_node_ne _ _ hn

/-! ### When the transmitter looks for work, and the next round (R48 to R50) -/

theorem kickTrunk_free (hs : r.trunks[t].state = .running) (hk : r.trunks[t].transaction = none)
    (hg : r.trunks[t].gapTimer = none) : Run.kickTrunk c r t = Run.selectFrame c r t :=
  if_pos (by simp only [trunkFree, hs, hk, hg]; rfl)

theorem kickTrunk_busy (h : r.trunks[t].state ≠ .running ∨ r.trunks[t].transaction.isSome = true ∨
    r.trunks[t].gapTimer.isSome = true) : Run.kickTrunk c r t = r := by
  refine if_neg fun hf => ?_
  obtain ⟨⟨hs, hk⟩, hg⟩ : (r.trunks[t].state = .running ∧ r.trunks[t].transaction = none) ∧
      r.trunks[t].gapTimer = none := by simpa [trunkFree] using hf
  rcases h with h | h | h
  · exact h hs
  · rw [hk] at h
    cases h
  · rw [hg] at h
    cases h

theorem nextRound_goes_on (h : r.trunks[t].roundTimer.isSome = true ∨ (duePoll c r t).isSome = true) :
    Run.nextRound c r t = r := by
  refine if_neg fun hn => ?_
  obtain ⟨ht, hd⟩ := Bool.and_eq_true_iff.mp hn
  rcases h with h | h
  · rw [Option.isNone_iff_eq_none.mp ht] at h
    cases h
  · rw [Option.isNone_iff_eq_none.mp hd] at h
    cases h

theorem nextRound_ended (ht : r.trunks[t].roundTimer = none) (hd : duePoll c r t = none) :
    Run.nextRound c r t = Run.beginRound c r t
      (if r.trunks[t].roundPhase + 1 < c.trunks[t].slowDivisor then r.trunks[t].roundPhase + 1 else 0) :=
  if_pos (by rw [ht, hd]; rfl)

/-- A round that has just begun has not ended. -/
theorem nextRound_beginRound (phase : Nat) :
    Run.nextRound c (Run.beginRound c r t phase) t = Run.beginRound c r t phase :=
  nextRound_goes_on (.inl (by rw [beginRound_trunk]; rfl))

/-- A selection reads the run as the next round leaves it. -/
theorem selectFrame_congr {r' : Run} (h : Run.nextRound c r t = Run.nextRound c r' t) :
    Run.selectFrame c r t = Run.selectFrame c r' t := by
  unfold Run.selectFrame
  rw [h]

/-! ### The window and the expiries (R44, R46, R48, R50) -/

theorem windowOpens_idle (h : r.trunks[t].transaction = none) : Run.windowOpens c r t = r := by
  unfold Run.windowOpens
  rw [h]

theorem windowOpens_open {x : Transaction} (h : r.trunks[t].transaction = some x)
    (ha : x.awaiting = true) : Run.windowOpens c r t = r := by
  unfold Run.windowOpens
  rw [h]
  exact if_pos ha

theorem windowOpens_opens {x : Transaction} (h : r.trunks[t].transaction = some x)
    (ha : x.awaiting = false) : Run.windowOpens c r t = r.modTrunk t fun k =>
      { k with transaction := some { x with awaiting := true }
               windowTimer := some (ms c.trunks[t].replyWindow) } := by
  unfold Run.windowOpens
  rw [h]
  exact if_neg (by rw [ha]; decide)

theorem gapEnded_stopped (h : r.trunks[t].gapTimer = none) : Run.gapEnded c r t = r :=
  if_neg (by rw [h]; decide)

theorem gapEnded_running (h : r.trunks[t].gapTimer.isSome = true) : Run.gapEnded c r t =
    Run.kickTrunk c (r.modTrunk t fun k => { k with gapTimer := none }) t := if_pos h

theorem roundEnded_stopped (h : r.trunks[t].roundTimer = none) : Run.roundEnded c r t = r :=
  if_neg (by rw [h]; decide)

theorem roundEnded_running (h : r.trunks[t].roundTimer.isSome = true) : Run.roundEnded c r t =
    Run.kickTrunk c (Run.nextRound c (r.modTrunk t fun k => { k with roundTimer := none }) t) t :=
  if_pos h

theorem settled_eq : Run.settled c r t =
    Run.kickTrunk c (Run.beginRound c ((r.modTrunk t fun k =>
      { k with settleTimer := none, nonPoll := 0, state := .running }).raise .trunkState t.val 3) t 0) t := by
  unfold Run.settled Run.setTrunkState
  dsimp only
  rw [Run.modTrunk_modTrunk]
  rfl

end

/-! ### The events -/

section
variable (s : State) (t : Fin 4)

theorem exec_replyWindowOpens :
    exec (.replyWindowOpens t) s = closed s (Run.windowOpens s.cfg s.run t) := rfl

theorem exec_turnaroundGapExpiry :
    exec (.turnaroundGapExpiry t) s = closed s (Run.gapEnded s.cfg s.run t) := rfl

theorem exec_roundIntervalExpiry :
    exec (.roundIntervalExpiry t) s = closed s (Run.roundEnded s.cfg s.run t) := rfl

theorem exec_settleExpiry : exec (.settleExpiry t) s =
    s.expiry s.run.trunks[t].settleTimer.isSome fun c r => Run.settled c r t := rfl

/-- The interval's expiry, by whether a node is due (log 16). -/
theorem roundIntervalExpiry_running (h : s.run.trunks[t].roundTimer.isSome = true) :
    let r := s.run.modTrunk t fun k => { k with roundTimer := none }
    (duePoll s.cfg r t ≠ none →
      exec (.roundIntervalExpiry t) s = closed s (Run.kickTrunk s.cfg r t)) ∧
    (duePoll s.cfg r t = none → exec (.roundIntervalExpiry t) s = closed s
      (Run.kickTrunk s.cfg (Run.beginRound s.cfg r t
        (if s.run.trunks[t].roundPhase + 1 < s.cfg.trunks[t].slowDivisor then
          s.run.trunks[t].roundPhase + 1 else 0)) t)) := by
  intro r
  have htimer : r.trunks[t].roundTimer = none := by rw [Run.modTrunk_self]
  have hphase : r.trunks[t].roundPhase = s.run.trunks[t].roundPhase := by rw [Run.modTrunk_self]
  rw [exec_roundIntervalExpiry, roundEnded_running h]
  refine ⟨fun hd => ?_, fun hd => ?_⟩
  · rw [nextRound_goes_on (.inr (Option.isSome_iff_ne_none.mpr hd))]
  · rw [nextRound_ended htimer hd, hphase]

end

/-- Settles O27: each event by its timer, the round by its marks, and the selection by the round it finds. -/
theorem trunkTimersAndPollRounds : Obligations.TrunkTimersAndPollRounds := by
  refine ⟨fun s t => ⟨fun h => ?_, fun x h => ⟨fun ha => ?_, fun ha => ?_⟩, fun h => ?_, fun h => ?_,
      fun h => ?_, roundIntervalExpiry_running s t, fun h => ?_, fun h => ?_⟩,
    fun c r t => ⟨fun i => pollDue_iff, fun i => duePoll_eq_some, fun phase =>
      ⟨beginRound_trunk phase, fun u => beginRound_trunk_ne phase, beginRound_node phase⟩⟩,
    fun c r t => ⟨kickTrunk_free, kickTrunk_busy, nextRound_goes_on, fun ht hd => ?_⟩⟩
  · rw [exec_replyWindowOpens, windowOpens_idle h]
  · rw [exec_replyWindowOpens, windowOpens_open h ha]
  · rw [exec_replyWindowOpens, windowOpens_opens h ha]
  · rw [exec_turnaroundGapExpiry, gapEnded_stopped h]
  · rw [exec_turnaroundGapExpiry, gapEnded_running h]
  · rw [exec_roundIntervalExpiry, roundEnded_stopped h]
  · rw [exec_settleExpiry, expiry_stopped _ h]
  · rw [exec_settleExpiry, expiry_running _ h, settled_eq]
  · have hn := nextRound_ended ht hd
    have hb := nextRound_beginRound (c := c) (r := r) (t := t)
      (if r.trunks[t].roundPhase + 1 < c.trunks[t].slowDivisor then r.trunks[t].roundPhase + 1 else 0)
    exact ⟨hn, hb, selectFrame_congr (hn.trans hb.symm)⟩

end Sys2Proof.Machine
end

