-- ==== Sys2Proof/Proofs/Replies.lean ====
section
/-! PROOFS. The end of a transaction (R46, R48, R57, R58): whose reply is awaited, what a good reply does, and
what a miss makes of its node. -/

namespace Sys2Proof.Machine

section
variable {c : Tables} {r : Run} {t : Fin 4} {k : Transaction}

/-! ### The awaited reply (R46) -/

theorem whenAwaiting_none (h : r.trunks[t].transaction = none) (f : Transaction → Run) :
    r.whenAwaiting t f = r := by
  unfold Run.whenAwaiting
  rw [h]

theorem whenAwaiting_sending (h : r.trunks[t].transaction = some k) (ha : k.awaiting = false)
    (f : Transaction → Run) : r.whenAwaiting t f = r := by
  unfold Run.whenAwaiting
  rw [h]
  exact if_neg (by rw [ha]; decide)

theorem whenAwaiting_awaiting (h : r.trunks[t].transaction = some k) (ha : k.awaiting = true)
    (f : Transaction → Run) : r.whenAwaiting t f = f k := by
  unfold Run.whenAwaiting
  rw [h]
  exact if_pos ha

/-- What two events make of the transaction on the line, they make of the trunk. -/
theorem whenAwaiting_congr (h : r.trunks[t].transaction = some k) {f g : Transaction → Run}
    (hf : f k = g k) : r.whenAwaiting t f = r.whenAwaiting t g := by
  unfold Run.whenAwaiting
  rw [h]
  dsimp only
  rw [hf]

/-- An event that leaves the awaited transaction alone changes nothing. -/
theorem whenAwaiting_self (t : Fin 4) : (r.whenAwaiting t fun _ => r) = r := by
  unfold Run.whenAwaiting
  split
  · exact ite_self r
  · rfl

/-! ### The bytes of a reply (R46) -/

theorem takeBytes_good {bytes : List Byte} {code : Byte} {payload : List Byte}
    (h : judgeReply k.slot bytes = .good code payload) :
    Run.takeBytes c r t k bytes = Run.takeReply c r t k code payload := by
  unfold Run.takeBytes
  rw [h]

theorem takeBytes_corrupt {bytes : List Byte} (h : judgeReply k.slot bytes = .corrupt) :
    Run.takeBytes c r t k bytes = Run.takeMiss c r t k := by
  unfold Run.takeBytes
  rw [h]

theorem takeBytes_missing {bytes : List Byte} (h : judgeReply k.slot bytes = .missing) :
    Run.takeBytes c r t k bytes = r := by
  unfold Run.takeBytes
  rw [h]

/-! ### A miss (R58) -/

/-- The node's record at a miss, with the liveness the miss gives it. -/
def missedRun (r : Run) (n : NodeId) (l : Liveness) : Run :=
  r.modNode (nodeIndex n) fun y =>
    { y with misses := min 3 ((nodeRt r n).misses + 1), liveness := l }

theorem missedRun_liveness (r : Run) (n : NodeId) (l : Liveness) :
    (nodeRt (missedRun r n l) n).liveness = l :=
  congrArg NodeRt.liveness (Run.modNode_self r _ _)

theorem modNode_missed (n : NodeId) {l : Liveness} (h : (nodeRt r n).missed.liveness = l) :
    r.modNode (nodeIndex n) NodeRt.missed = missedRun r n l := by
  subst h
  unfold missedRun Run.modNode
  rfl

theorem missed_of_lost {x : NodeRt} (h : x.liveness = .lost) : x.missed.liveness = .lost :=
  if_pos (.inl h)

theorem missed_third {x : NodeRt} (h : min 3 (x.misses + 1) = 3) : x.missed.liveness = .lost :=
  if_pos (.inr h)

theorem missed_earlier {x : NodeRt} (hl : x.liveness ≠ .lost) (h : min 3 (x.misses + 1) ≠ 3) :
    x.missed.liveness = .missing :=
  if_neg (not_or_intro hl h)

/-- A miss, by the liveness that it finds and the one that it leaves. -/
theorem takeMiss_eq {l : Liveness} (h : (nodeRt r (nodeAt t k.slot)).missed.liveness = l) :
    Run.takeMiss c r t k =
      (let n := nodeAt t k.slot
       let before := (nodeRt r n).liveness
       let u := missedRun r n l
       Run.endTransaction c
         (if l = .lost ∧ before ≠ .lost then Run.nodeLost c u t k
          else Run.judgeAttempts c (if l = .missing ∧ before ≠ .missing then Run.pushMissing c u n else u)
            t k) t) := by
  unfold Run.takeMiss
  dsimp only
  rw [modNode_missed _ h, missedRun_liveness]

theorem takeMiss_lost_before (h : (nodeRt r (nodeAt t k.slot)).liveness = .lost) :
    Run.takeMiss c r t k = Run.endTransaction c
      (Run.judgeAttempts c (missedRun r (nodeAt t k.slot) .lost) t k) t := by
  rw [takeMiss_eq (missed_of_lost h)]
  dsimp only
  rw [if_neg (fun hl => hl.2 h), if_neg (fun hl => nomatch hl.1)]

theorem takeMiss_third (h : (nodeRt r (nodeAt t k.slot)).liveness ≠ .lost)
    (hm : min 3 ((nodeRt r (nodeAt t k.slot)).misses + 1) = 3) :
    Run.takeMiss c r t k = Run.endTransaction c
      (Run.nodeLost c (missedRun r (nodeAt t k.slot) .lost) t k) t := by
  rw [takeMiss_eq (missed_third hm)]
  dsimp only
  rw [if_pos ⟨rfl, h⟩]

theorem takeMiss_missing_before (h : (nodeRt r (nodeAt t k.slot)).liveness = .missing)
    (hm : min 3 ((nodeRt r (nodeAt t k.slot)).misses + 1) ≠ 3) :
    Run.takeMiss c r t k = Run.endTransaction c
      (Run.judgeAttempts c (missedRun r (nodeAt t k.slot) .missing) t k) t := by
  rw [takeMiss_eq (missed_earlier (by rw [h]; decide) hm)]
  dsimp only
  rw [if_neg (fun hl => nomatch hl.1), if_neg (fun hl => hl.2 h)]

theorem takeMiss_first (h : (nodeRt r (nodeAt t k.slot)).liveness = .live ∨
      (nodeRt r (nodeAt t k.slot)).liveness = .unknown)
    (hm : min 3 ((nodeRt r (nodeAt t k.slot)).misses + 1) ≠ 3) :
    Run.takeMiss c r t k = Run.endTransaction c (Run.judgeAttempts c
      (Run.pushMissing c (missedRun r (nodeAt t k.slot) .missing) (nodeAt t k.slot)) t k) t := by
  have hne : (nodeRt r (nodeAt t k.slot)).liveness ≠ .lost ∧
      (nodeRt r (nodeAt t k.slot)).liveness ≠ .missing := by
    rcases h with h | h <;> rw [h] <;> decide
  rw [takeMiss_eq (missed_earlier hne.1 hm)]
  dsimp only
  rw [if_neg (fun hl => nomatch hl.1), if_pos ⟨rfl, hne.2⟩]

end

/-! ### The events -/

section
variable (s : State) (t : Fin 4)

theorem exec_goodReply (code : Byte) (payload : List Byte) : exec (.goodReply t code payload) s =
    closed s (s.run.whenAwaiting t fun k => Run.takeReply s.cfg s.run t k code payload) := rfl

theorem exec_corruptReply (bytes : List Byte) : exec (.corruptReply t bytes) s =
    closed s (s.run.whenAwaiting t fun k => Run.takeBytes s.cfg s.run t k bytes) := rfl

theorem exec_replyWindowExpiry : exec (.replyWindowExpiry t) s =
    closed s (s.run.whenAwaiting t fun k => Run.takeMiss s.cfg s.run t k) := rfl

theorem exec_replyGapExpiry : exec (.replyGapExpiry t) s =
    closed s (s.run.whenAwaiting t (Run.takeMiss s.cfg s.run t)) := rfl

/-- A corrupt reply and the two expiries of a reply window are a miss of the awaited node (R58). -/
theorem exec_miss {bytes : List Byte} {i : Instr}
    (hi : i ∈ [Instr.corruptReply t bytes, .replyWindowExpiry t, .replyGapExpiry t]) :
    ∃ f : Transaction → Run, exec i s = closed s (s.run.whenAwaiting t f) ∧
      ∀ k : Transaction, judgeReply k.slot bytes = .corrupt → f k = Run.takeMiss s.cfg s.run t k := by
  simp only [List.mem_cons, List.not_mem_nil, or_false] at hi
  rcases hi with rfl | rfl | rfl
  · exact ⟨_, exec_corruptReply s t bytes, fun k hk => takeBytes_corrupt hk⟩
  · exact ⟨_, exec_replyWindowExpiry s t, fun k _ => rfl⟩
  · exact ⟨_, exec_replyGapExpiry s t, fun k _ => rfl⟩

end

/-- Settles O26: the good reply by its awaited transaction, the miss by the liveness it finds and the
count it leaves. -/
theorem goodRepliesEndTheTransaction : Obligations.GoodRepliesEndTheTransaction := by
  refine ⟨fun s t code payload => ⟨fun h => ?_, fun k h => ⟨fun ha => ?_, fun ha => ?_⟩⟩,
    fun s t bytes => ⟨fun i hi => ?_, fun k code payload h hj => ?_, fun k h hj => ?_⟩,
    fun c r t => rfl⟩
  · rw [exec_goodReply, whenAwaiting_none h]
  · rw [exec_goodReply, whenAwaiting_sending h ha]
  · dsimp only
    rw [exec_goodReply, whenAwaiting_awaiting h ha]
    rfl
  · obtain ⟨f, hf, hmiss⟩ := exec_miss s t hi
    refine ⟨fun h => ?_, fun k h => ⟨fun ha => ?_, fun ha hj => ?_⟩⟩
    · rw [hf, whenAwaiting_none h]
    · rw [hf, whenAwaiting_sending h ha]
    · rw [hf, whenAwaiting_awaiting h ha, hmiss k hj]
      exact ⟨fun hl => congrArg (closed s) (takeMiss_lost_before hl),
        fun hl hm => congrArg (closed s) (takeMiss_third hl hm),
        fun hl hm => congrArg (closed s) (takeMiss_missing_before hl hm),
        fun hl hm => congrArg (closed s) (takeMiss_first hl hm)⟩
  · rw [exec_corruptReply, exec_goodReply]
    exact congrArg (closed s) (whenAwaiting_congr h (takeBytes_good hj))
  · rw [exec_corruptReply]
    exact congrArg (closed s)
      ((whenAwaiting_congr h (g := fun _ => s.run) (takeBytes_missing hj)).trans (whenAwaiting_self t))

end Sys2Proof.Machine
end

