-- ==== Sys2Proof/Proofs/HaltCauses.lean ====
section
/-! PROOFS. An axis holds halt causes exactly while it is HALTED (R69, R80, R84, R85). Only a halt, a RELEASE
and the ways to OFFLINE write the causes; every other change of an axis's state leads from one state that is
not HALTED to another. -/

namespace Sys2Proof.Machine

/-- Every axis holds halt causes exactly while it is HALTED (R69). -/
def Latched (x : Stance) : Prop := ∀ a, (x.axes a).1 = .halted ↔ (x.axes a).2 ≠ 0

theorem haltedHaveCauses_iff (s : State) : HaltedHaveCauses s ↔ Latched s.run.stance := Iff.rfl

section
variable {c : Tables} {r : Run}

theorem Latched.ite {p : Prop} [Decidable p] {a b : Run} (ha : Latched a.stance) (hb : Latched b.stance) :
    Latched (if p then a else b).stance := by
  split
  · exact ha
  · exact hb

theorem Latched.foldl {α : Type} (f : Run → α → Run)
    (hf : ∀ u a, Latched u.stance → Latched (f u a).stance) (l : List α) (h : Latched r.stance) :
    Latched (l.foldl f r).stance :=
  List.foldlRecOn (motive := fun u : Run => Latched u.stance) l f h fun u hu a _ => hf u a hu

/-! ### One axis record changed -/

/-- One axis record changed: it has to be latched where it was. -/
theorem Latched.modAxis (h : Latched r.stance) (i : Fin 6) (f : AxisRt → AxisRt)
    (hf : (f r.axes[i]).state = .halted ↔ (f r.axes[i]).causes ≠ 0) :
    Latched (r.modAxis i f).stance := fun a => by
  show (r.modAxis i f).axes[a].state = .halted ↔ (r.modAxis i f).axes[a].causes ≠ 0
  by_cases e : a = i
  · subst e
    rw [Run.modAxis_self]
    exact hf
  · rw [Run.modAxis_ne r i a f e]
    exact h a

/-- An axis goes from a state other than HALTED to another such state. -/
theorem Latched.turn (h : Latched r.stance) (i : Fin 6) (f : AxisRt → AxisRt)
    (ho : r.axes[i].state ≠ .halted) (hs : (f r.axes[i]).state ≠ .halted)
    (hc : (f r.axes[i]).causes = r.axes[i].causes) : Latched (r.modAxis i f).stance :=
  h.modAxis i f (by rw [hc]; exact iff_of_false hs fun hn => ho ((h i).mpr hn))

/-- An axis ends up without causes, in a state other than HALTED. -/
theorem Latched.clear (h : Latched r.stance) (i : Fin 6) (f : AxisRt → AxisRt)
    (hs : (f r.axes[i]).state ≠ .halted) (hc : (f r.axes[i]).causes = 0) :
    Latched (r.modAxis i f).stance :=
  h.modAxis i f (iff_of_false hs (not_not_intro hc))

/-- An axis ends up HALTED, with a cause. -/
theorem Latched.latch (h : Latched r.stance) (i : Fin 6) (f : AxisRt → AxisRt)
    (hs : (f r.axes[i]).state = .halted) (hc : (f r.axes[i]).causes ≠ 0) :
    Latched (r.modAxis i f).stance :=
  h.modAxis i f (iff_of_true hs hc)

theorem not_halted {x : AxisRt} {s : AxisState} (hs : x.state = s) (hn : s ≠ .halted := by decide) :
    x.state ≠ .halted := hs ▸ hn

/-! ### Halts (R80, R81, R83) -/

/-- A halt's cause is never the empty set. -/
theorem setOf_cause_ne_zero (k : HaltCause) : (setOf k.bit : BitVec 9) ≠ 0 := by
  cases k <;> decide

theorem setUnion_cause_ne_zero (s : BitVec 9) (k : HaltCause) : setUnion s (setOf k.bit) ≠ 0 := by
  intro h
  exact setOf_cause_ne_zero k (BitVec.or_eq_zero_iff.mp h).2

theorem Latched.halt (h : Latched r.stance) (a : Fin 6) (k : HaltCause) :
    Latched (Run.halt c r a k).stance := by
  unfold Run.halt
  split
  · exact h
  · rename_i hs
    rw [stance_raise]
    exact h.latch a _ hs (setUnion_cause_ne_zero _ k)
  all_goals
    rw [stance_haltFresh]
    exact h.latch a _ rfl (setOf_cause_ne_zero k)

theorem Latched.haltWhere (h : Latched r.stance) (k : HaltCause) (p : Fin 6 → Bool) :
    Latched (Run.haltWhere c r k p).stance :=
  h.foldl _ (fun _ a hu => (hu.halt a k).ite hu) _

theorem Latched.firePushed (h : Latched r.stance) (z : Fin 8) :
    Latched (Run.firePushed c r z).stance := h.ite (h.haltWhere .fire _)

theorem Latched.judgePrereq (h : Latched r.stance) (others : List (Fin 6)) (b : Fin 6) :
    Latched (Run.judgePrereq c others r b).stance := (h.halt b .prereq).ite h

theorem Latched.judgeOthers (h : Latched r.stance) (others : List (Fin 6)) :
    Latched (Run.judgeOthers c r others).stance :=
  h.foldl _ (fun _ b hu => hu.judgePrereq others b) _

/-- OFFLINE clears the causes (R85). -/
theorem Latched.axisOffline (h : Latched r.stance) (a : Fin 6) :
    Latched (Run.axisOffline c r a).stance := by
  rw [Run.axisOffline, stance_endPlanOf, stance_withdrawMotionCall]
  exact h.clear a _ nofun rfl

/-! ### Stops (R74, R87, R88, R100) -/

theorem Latched.stopAxis (h : Latched r.stance) (a : Fin 6) : Latched (Run.stopAxis c r a).stance := by
  have hp : Latched (r.endPlanOf a .stop).stance := by rwa [stance_endPlanOf]
  have hstate : (r.endPlanOf a .stop).axes[a].state = r.axes[a].state :=
    stance_state (stance_endPlanOf r a .stop) a
  unfold Run.stopAxis
  split
  · rename_i hs
    have ho := not_halted (hstate.trans hs)
    refine Latched.ite ?_ (hp.turn a _ ho nofun rfl)
    rw [stance_endedByStop]
    exact hp.turn a _ ho nofun rfl
  · rename_i hs
    rw [stance_endedByStop]
    exact hp.turn a _ (not_halted (hstate.trans hs)) nofun rfl
  all_goals exact h

theorem Latched.serviceOn (h : Latched r.stance) : Latched (Run.serviceOn c r).stance := by
  refine Latched.foldl _ (fun _ a hu => (hu.stopAxis a).ite hu) _ ?_
  rw [stance_foldl _ _ (stance_forceLocal c), stance_endPlan]
  exact h

theorem Latched.panelLost (h : Latched r.stance) (a : Fin 6) : Latched (Run.panelLost c r a).stance :=
  have hm : Latched (r.modAxis a fun x => { x with panel := .none }).stance := by simpa using h
  (hm.stopAxis a).ite hm

theorem Latched.endSlew (h : Latched r.stance) (a : Fin 6) (cause : Nat)
    (ho : r.axes[a].state ≠ .halted) : Latched (Run.endSlew c r a cause).stance := by
  simp only [Run.endSlew, stance_ite, stance_endPlanOf, stance_withdrawMotionCall, stance_raise, ite_self]
  exact h.turn a _ ho nofun rfl

/-! ### Starts (R72, R73, R91) -/

theorem Latched.startMove (h : Latched r.stance) (a : Fin 6) (target : Int) (lockAtEnd : Bool)
    (origin : MoveOrigin) : Latched (Run.startMove c r a target lockAtEnd origin).stance := by
  unfold Run.startMove
  dsimp only
  split
  · rename_i hs
    rw [stance_placeMotionCall, stance_offerUnlock]
    exact h.turn a _ (not_halted hs) nofun rfl
  · rename_i hs
    rw [stance_placeMotionCall]
    exact h.turn a _ (not_halted hs) nofun rfl
  · exact h.modAxis a _ (h a)
  · rename_i hs
    exact h.turn a _ (not_halted hs) nofun rfl
  all_goals exact h

theorem Latched.startStep (h : Latched r.stance) (s : PlanStep) :
    Latched (Run.startStep c r s).1.stance := by
  unfold Run.startStep
  split
  · exact h
  · exact h.startMove _ _ _ _

theorem Latched.advancePlan (h : Latched r.stance) : Latched (Run.advancePlan c r).stance := by
  unfold Run.advancePlan
  dsimp only
  split
  · exact h
  · have hs : ∀ s, Latched
        (Run.startStep c (r.setPlan { r.plan with current := r.plan.current + 1 }) s).1.stance :=
      Latched.startStep (r := r.setPlan _) h
    split
    · exact hs _
    · rw [stance_endPlan]
      exact hs _

theorem Latched.stepDone (h : Latched r.stance) (a : Fin 6) : Latched (Run.stepDone c r a).stance := by
  unfold Run.stepDone
  split
  · exact h
  · exact (Latched.advancePlan (h.ite (a := r.raise .stepDone 0 _) h)).ite h

theorem Latched.moveDone (h : Latched r.stance) (a : Fin 6) : Latched (Run.moveDone c r a).stance :=
  Latched.stepDone (by simpa using h) a

/-! ### The set-point computation (R78, R94 to R103) -/

theorem Latched.arrive (h : Latched r.stance) {a : Fin 6} (hs : r.axes[a].state = .moving) :
    Latched (Run.arrive c r a).stance := by
  have e : ((Run.emitDemand c r a 0).modAxis a fun x =>
      { x with controlTimer := none, keepaliveTimer := none }).stance = r.stance := by simp
  have ho := not_halted ((stance_state e a).trans hs)
  rw [← e] at h
  unfold Run.arrive
  dsimp only
  split
  · rw [stance_offerLock]
    exact h.turn a _ ho nofun rfl
  · refine Latched.moveDone ?_ a
    exact h.turn a _ ho nofun rfl

theorem Latched.controlExpired (h : Latched r.stance) (a : Fin 6) :
    Latched (Run.controlExpired c r a).stance := by
  have hm : Latched (r.modAxis a fun x => { x with controlTimer := none }).stance := by simpa using h
  unfold Run.controlExpired
  dsimp only
  split
  · rename_i hs
    rw [Run.computeStopping, stance_emitDemand]
    exact (hm.endSlew a 1 (not_halted hs)).ite (by simpa using hm)
  · rename_i hs
    refine (hm.arrive hs).ite ?_
    rw [Run.computeSlew, stance_emitDemand]
    exact (hm.endSlew a 2 (not_halted hs)).ite (by simpa using hm)
  all_goals exact hm

/-! ### Timers of an axis (R75, R77, R78) -/

theorem Latched.keepaliveExpired (h : Latched r.stance) (a : Fin 6) :
    Latched (Run.keepaliveExpired c r a).stance := by
  have hm : Latched (r.modAxis a fun x => { x with keepaliveTimer := none }).stance := by simpa using h
  unfold Run.keepaliveExpired
  dsimp only
  split
  iterate 2 exact hm.halt a _
  all_goals exact hm

theorem Latched.lockExpired (h : Latched r.stance) (a : Fin 6) :
    Latched (Run.lockExpired c r a).stance := by
  have hm : Latched (r.modAxis a fun x => { x with lockTimer := none }).stance := by simpa using h
  unfold Run.lockExpired
  dsimp only
  split
  iterate 2 exact hm.halt a _
  all_goals exact hm

/-! ### Replies (R70, R77, R78, R82, R87, R104) -/

theorem restState_ne_halted (engaged : Bool) : restState engaged ≠ .halted := by
  cases engaged <;> decide

/-- An axis leaves OFFLINE without causes, or halts at once (R67, R85). -/
theorem Latched.recordReply (h : Latched r.stance) (a : Fin 6) (d : DriveStatus) :
    Latched (Run.recordReply c r a d).stance := by
  have hm : Latched (r.modAxis a fun x => { x with latest := some d }).stance := by simpa using h
  unfold Run.recordReply
  dsimp only
  split
  · rename_i ho
    obtain ⟨hs, -⟩ := Bool.and_eq_true_iff.mp ho
    have hr := hm.turn a (fun x => { x with state := restState d.locksEngaged, wasActive := false })
      (not_halted (of_decide_eq_true hs)) (restState_ne_halted _) rfl
    exact (hr.halt a .node).ite hr
  · exact hm

theorem Latched.judgeFlag (h : Latched r.stance) (a : Fin 6) (k : Nat) :
    Latched (Run.judgeFlag c r a k).stance := by
  have hh : Latched (if maskHas c.axes[a].haltMask k then Run.halt c r a .driveFlag else r).stance :=
    (h.halt a .driveFlag).ite h
  exact Latched.ite (a := Run.raise _ _ _ _) hh hh

theorem Latched.judgeFlags (h : Latched r.stance) (a : Fin 6) (turned : BitVec 8) :
    Latched (Run.judgeFlags c r a turned).stance :=
  h.foldl _ (fun _ k hu => (hu.judgeFlag a k).ite hu) _

theorem Latched.judgeOverload (h : Latched r.stance) (a : Fin 6) (pressure : Nat) :
    Latched (Run.judgeOverload c r a pressure).stance :=
  ((h.halt a _).ite (h.ite (by simpa using h))).ite h

theorem Latched.locksReleased (h : Latched r.stance) {a : Fin 6} (hs : r.axes[a].state = .unlocking) :
    Latched (Run.locksReleased c r a).stance := by
  have hm := h.turn a (fun x =>
    { x with state := .moving, lockTimer := none, owed := { x.owed with unlock := false },
             sentDemand := 0, controlTimer := some (ms c.axes[a].controlPeriod) })
    (not_halted hs) nofun rfl
  exact hm.ite (hm.halt a .prereq)

theorem Latched.judgeLocks (h : Latched r.stance) (a : Fin 6) (d : DriveStatus) :
    Latched (Run.judgeLocks c r a d).stance := by
  unfold Run.judgeLocks
  split
  · rename_i hs
    exact (h.locksReleased hs).ite h
  · rename_i hs
    refine Latched.ite (Latched.moveDone ?_ a) h
    exact h.turn a _ (not_halted hs) nofun rfl
  iterate 2
    · rename_i hs
      exact h.turn a _ (not_halted hs) (restState_ne_halted _) rfl
  all_goals exact h

theorem Latched.driveReply (h : Latched r.stance) (a : Fin 6) (d : DriveStatus) :
    Latched (Run.driveReply c r a d).stance := by
  rw [Run.driveReply, stance_offerOwed]
  exact ((((h.recordReply a d).judgeFlags a _).judgeOverload a d.pressure).judgeLocks a d).judgeOthers [a]

theorem Latched.panelStart (h : Latched r.stance) (a : Fin 6) (p : PanelCommand) :
    Latched (Run.panelStart c r a p).stance := by
  unfold Run.panelStart
  split
  · simpa using h
  · exact h.startMove _ _ _ _

theorem Latched.panelReply (h : Latched r.stance) (a : Fin 6) (p : PanelCommand) :
    Latched (Run.panelReply c r a p).stance := by
  unfold Run.panelReply
  dsimp only
  rw [stance_modAxis _ _ _ (by simp) (by simp)]
  exact ((h.panelStart a p).ite h).ite
    ((Latched.ite (by simpa using h) (h.stopAxis a)).ite (Latched.ite (by simpa using h) h))

/-! ### Closures, monitors and lines (R110, R113, R150 to R156, R164) -/

theorem Latched.setFire (h : Latched r.stance) (z : Fin 8) : Latched (Run.setFire c r z).stance := by
  rw [Run.setFire, stance_warningIfNone]
  refine Latched.firePushed ?_ z
  simp only [stance_fireDoors, stance_placeZoneCall, stance_ite, stance_withdrawZoneCall, ite_self]
  exact h

theorem Latched.startClosure (h : Latched r.stance) (z : Fin 8) (fire : Bool) :
    Latched (Run.startClosure c r z fire).stance := by
  rw [Run.startClosure, stance_warningIfNone, stance_placeZoneCall]
  have hm : ∀ f, Latched (r.modZone z f).stance := fun _ => h
  refine Latched.ite (Latched.firePushed ?_ z) (hm _)
  rw [stance_fireDoors]
  exact hm _

theorem Latched.requestClosure (h : Latched r.stance) (z : Fin 8) (cause : Nat) (fire : Bool) :
    Latched (Run.requestClosure c r z cause fire).stance := by
  have hm : Latched
      (r.modZone z fun x => { x with causes := setUnion x.causes (setOf cause) }).stance := h
  exact (hm.startClosure z fire).ite ((hm.setFire z).ite hm)

theorem Latched.enterAction (h : Latched r.stance) (m : Fin 16) (s : Fin 8) :
    Latched (Run.enterAction c r m s).stance := by
  unfold Run.enterAction
  split
  case h_4 => exact h.requestClosure _ _ _
  all_goals simpa using h

theorem Latched.enterSteps (h : Latched r.stance) (m : Fin 16) (s : Fin 8) :
    Latched (Run.enterSteps c r m s).stance := by
  rw [Run.enterSteps]
  simp only [stance_ite, stance_modMonitor, ite_self]
  exact Latched.enterAction (by simpa using h) m s

theorem Latched.startHold (h : Latched r.stance) (next : Run → Fin 8 → Run) (m : Fin 16)
    (hn : ∀ u s, Latched u.stance → Latched (next u s).stance) :
    Latched (Run.startHold c next r m).stance :=
  Latched.ite (Latched.ite (Latched.ite h (hn _ _ h)) h) h

theorem Latched.enterChain (n : Nat) (h : Latched r.stance) (m : Fin 16) (s : Fin 8) :
    Latched (Run.enterChain c n r m s).stance := by
  induction n generalizing r s with
  | zero => exact h
  | succ n ih => exact (h.enterSteps m s).startHold _ m fun _ s hu => ih hu s

theorem Latched.enterState (h : Latched r.stance) (m : Fin 16) (s : Fin 8) :
    Latched (Run.enterState c r m s).stance := h.enterChain _ m s

theorem Latched.judgeRenewal (h : Latched r.stance) (renewed : List (Fin 32)) (m : Fin 16) :
    Latched (Run.judgeRenewal c renewed r m).stance :=
  Latched.ite (Latched.ite (Latched.ite h (h.startHold _ m fun _ s hu => hu.enterState m s)) h) h

theorem Latched.channelReply (h : Latched r.stance) (n : NodeId) (payload : List Byte) :
    Latched (Run.channelReply c r n payload).stance := by
  refine Latched.foldl _ (fun _ m hu => hu.judgeRenewal _ m) _ ?_
  rw [stance_foldlFst _ (stance_renewChannel n payload)]
  exact h

theorem Latched.judgeStale (h : Latched r.stance) (turned : List (Fin 32)) (m : Fin 16) :
    Latched (Run.judgeStale c turned r m).stance := by
  unfold Run.judgeStale
  dsimp only
  split
  · split
    · exact h.enterState m _
    · exact h
  · exact h

theorem Latched.turnStale (h : Latched r.stance) (chans : List (Fin 32)) :
    Latched (Run.turnStale c r chans).stance := by
  refine Latched.foldl _ (fun _ m hu => hu.judgeStale _ m) _ ?_
  rw [stance_foldlFst Run.markStale fun _ _ => rfl]
  exact h

theorem Latched.handOver (h : Latched r.stance) (l : Fin 14) (active : Bool) :
    Latched (Run.handOver c r l active).stance := by
  unfold Run.handOver
  refine Latched.ite ((h.haltWhere _ _).ite (h.serviceOn.ite ?_)) h
  split
  · exact h.requestClosure _ _ _
  · exact h

theorem Latched.filterExpired (h : Latched r.stance) (l : Fin 14) :
    Latched (Run.filterExpired c r l).stance := by
  have hm : Latched (r.modLine l fun x => { x with accepted := x.raw, filterTimer := none }).stance := h
  have hn := fun active => (stance_lineNoted c (r.modLine l fun x =>
    { x with accepted := x.raw, filterTimer := none }) l active) ▸ hm
  unfold Run.filterExpired
  dsimp only
  rw [acceptedChange_eq]
  exact hm.ite (((hn _).handOver l _).ite (hn _))

/-! ### Requests (R71 to R92, R110, R114, R123, R149 to R159) -/

theorem Latched.requestMove (h : Latched r.stance) (a : Fin 6) (target : Int) (lockAtEnd : Bool) :
    Latched (Run.requestMove c r a target lockAtEnd).1.stance := by
  unfold Run.requestMove
  split
  · exact h
  · split
    · exact h
    · exact h.startMove _ _ _ _

/-- RELEASE takes the axis out of HALTED with its last cause (R84). -/
theorem Latched.requestRelease (h : Latched r.stance) (a : Fin 6) :
    Latched (Run.requestRelease c r a).1.stance := by
  unfold Run.requestRelease
  split
  · rename_i hs
    dsimp only
    split
    · rw [stance_raise]
      exact h.clear a _ (restState_ne_halted _) rfl
    · rename_i hl
      exact h.latch a _ hs hl
  all_goals exact h

theorem Latched.requestPlanStart (h : Latched r.stance) (steps : List PlanStep) :
    Latched (Run.requestPlanStart c r steps).1.stance := by
  unfold Run.requestPlanStart
  split
  · exact h
  · split
    · exact h
    · split
      · exact h
      · split
        · exact h
        · dsimp only
          split
          · exact h
          · exact h.startStep _

theorem Latched.requestPlanCancel (h : Latched r.stance) :
    Latched (Run.requestPlanCancel c r).1.stance := by
  unfold Run.requestPlanCancel
  split
  · exact h
  · exact Latched.stopAxis (by simpa using h) _

theorem Latched.requestReopen (h : Latched r.stance) (z : Fin 8) :
    Latched (Run.requestReopen c r z).1.stance := by
  unfold Run.requestReopen
  split
  · exact h
  · dsimp only
    rw [stance_foldl _ _ fun _ _ => by simp, stance_withdrawZoneCall]
    exact h

theorem Latched.requestEnable (h : Latched r.stance) (m : Fin 16) :
    Latched (Run.requestEnable c r m).1.stance := by
  unfold Run.requestEnable
  split
  · exact h
  · split
    · exact h
    · split
      · exact h
      · exact Latched.enterState (r := r.modMonitor m _) h m 0

theorem Latched.requestMonitorRestart (h : Latched r.stance) (m : Fin 16) :
    Latched (Run.requestMonitorRestart c r m).1.stance := by
  unfold Run.requestMonitorRestart
  split
  · exact h.enterState m 0
  · exact h

theorem Latched.withForm {α : Type} (h : Latched r.stance) (p : Parse α) (body : List Byte)
    (k : α → Reply) (hk : ∀ a, Latched (k a).1.stance) :
    Latched (withForm p body r k).1.stance := by
  unfold Machine.withForm
  split
  · exact h
  · exact hk _

theorem Latched.axisRequest (h : Latched r.stance) (a : Fin 6) (code : Nat) (body : List Byte) :
    Latched (axisRequest c r a code body).1.stance := by
  unfold Machine.axisRequest
  split
  · exact h.withForm _ _ _ fun m => h.requestMove a m.1 m.2
  · exact h.withForm _ _ _ fun _ => h.stopAxis a
  · exact h.withForm _ _ _ fun _ => by simpa [plain] using h
  · exact h.withForm _ _ _ fun _ => h.requestRelease a
  iterate 3 exact h.withForm _ _ _ fun _ => by simpa [plain] using h
  · exact h

theorem Latched.planRequest (h : Latched r.stance) (code : Nat) (body : List Byte) :
    Latched (planRequest c r code body).1.stance := by
  unfold Machine.planRequest
  split
  · exact h.withForm _ _ _ fun steps => h.requestPlanStart steps
  · exact h.withForm _ _ _ fun _ => by simpa [plain] using h
  · exact h.withForm _ _ _ fun _ => h.requestPlanCancel
  · exact h

theorem Latched.zoneRequest (h : Latched r.stance) (z : Fin 8) (code : Nat) (body : List Byte) :
    Latched (zoneRequest c r z code body).1.stance := by
  unfold Machine.zoneRequest
  split
  · exact h.withForm _ _ _ fun fire => h.requestClosure z causeBridge fire
  · exact h.withForm _ _ _ fun _ => h.requestReopen z
  · exact h.withForm _ _ _ fun _ => (show Latched (r.requestOverride z).1.stance from h)
  · exact h

theorem Latched.functionRequest (h : Latched r.stance) (f : Function) (code : Nat) (body : List Byte) :
    Latched (functionRequest c r f code body).1.stance := by
  cases f with
  | axis a => exact h.axisRequest a code body
  | plan => exact h.planRequest code body
  | zone z => exact h.zoneRequest z code body
  | door d =>
    dsimp only [Machine.functionRequest]
    unfold doorRequest
    split
    iterate 2 exact h.withForm _ _ _ fun _ => by simpa [plain] using h
    · exact h
  | calls =>
    dsimp only [Machine.functionRequest]
    unfold callRequest
    split
    · exact h.withForm _ _ _ fun o => by rwa [stance_requestPlace]
    · exact h.withForm _ _ _ fun o => by rwa [plain, stance_requestWithdraw]
    · exact h
  | monitor m =>
    dsimp only [Machine.functionRequest]
    unfold monitorRequest
    split
    · exact h.withForm _ _ _ fun _ => h.requestEnable m
    · exact h.withForm _ _ _ fun _ => by rwa [plain, stance_requestDisable]
    · exact h.withForm _ _ _ fun _ => h.requestMonitorRestart m
    · exact h
  | lines =>
    dsimp only [Machine.functionRequest]
    unfold lineRequest
    split
    iterate 2 exact h.withForm _ _ _ fun _ => h
    · exact h

theorem Latched.functionFrame (h : Latched r.stance) (req : Req) (payload : List Byte) :
    Latched (Run.functionFrame c r req payload).stance := by
  unfold Run.functionFrame
  split
  iterate 2 simpa using h
  · split
    · simpa using h
    · rw [Run.answerReply, stance_answer]
      exact h.functionRequest _ _ _

/-! ### The ends of transactions and the trunk hold (R48, R57 to R63) -/

theorem Latched.axisTold (h : Latched r.stance) (gone : List NodeId) (off : List (Fin 6)) (a : Fin 6) :
    Latched (Run.axisTold c gone off r a).stance :=
  ((h.judgePrereq off a).panelLost a).ite (h.judgePrereq off a)

theorem Latched.pushDown (h : Latched r.stance) (l : Liveness) (gone : List NodeId) :
    Latched (Run.pushDown c l r gone).stance := by
  rw [Run.pushDown, stance_foldl _ _ fun _ _ => stance_areaTold .., stance_foldl _ _ stance_doorOffline]
  exact Latched.foldl _ (fun _ a hu => hu.axisTold _ _ a) _ (h.foldl _ (fun _ a hu => hu.axisOffline a) _)

theorem Latched.fanOutKind (h : Latched r.stance) (n : NodeId) (before : Liveness) (payload : List Byte) :
    Latched (Run.fanOutKind c r n before payload).stance := by
  unfold Run.fanOutKind
  split
  · split
    · exact h.foldl _ (fun _ a hu => hu.driveReply a _) _
    · exact h
  · split
    · exact h.foldl _ (fun _ a hu => hu.panelReply a _) _
    · exact h
  · split
    · rwa [stance_foldl _ _ fun _ _ => stance_doorReply ..]
    · exact h
  · rwa [stance_foldl _ _ fun _ _ => stance_ampFanOut ..]
  all_goals exact h

theorem Latched.fanOut (h : Latched r.stance) (n : NodeId) (before : Liveness) (payload : List Byte) :
    Latched (Run.fanOut c r n before payload).stance := by
  rw [Run.fanOut, stance_judgeReport]
  exact (h.fanOutKind n before payload).channelReply n payload

theorem Latched.takeReply (h : Latched r.stance) (t : Fin 4) (k : Transaction) (code : Byte)
    (payload : List Byte) : Latched (Run.takeReply c r t k code payload).stance := by
  rw [Run.takeReply, stance_endTransaction, stance_completeSource]
  exact Latched.fanOut (by simpa using h) _ _ _

theorem Latched.takeMiss (h : Latched r.stance) (t : Fin 4) (k : Transaction) :
    Latched (Run.takeMiss c r t k).stance := by
  have hlost : Latched
      (Run.nodeLost c (r.modNode (nodeIndex (nodeAt t k.slot)) NodeRt.missed) t k).stance := by
    unfold Run.nodeLost
    exact Latched.turnStale (Latched.pushDown (by simpa [Run.clearReport] using h) _ _) _
  rw [Run.takeMiss, stance_endTransaction]
  exact hlost.ite (by simpa using h)

theorem Latched.holdTrunk (h : Latched r.stance) (t : Fin 4) :
    Latched (Run.holdTrunk c r t).stance := by
  unfold Run.holdTrunk
  refine Latched.turnStale (Latched.pushDown ?_ _ _) _
  rw [stance_foldl _ _ fun _ _ => by simp [Run.clearReport], stance_holdSlots, stance_holdWork,
    stance_foldl _ _ fun _ _ => stance_modNode ..]
  exact h

/-! ### Writes, resets and the store (R67, R68, R160, R182) -/

theorem Latched.axisWritten (h : Latched r.stance) (c' : Tables) (a : Fin 6) :
    Latched (Run.axisWritten c c' r a).stance := by
  have hm : Latched (r.modAxis a AxisRt.unbound).stance := h.clear a _ nofun rfl
  have hp : Latched ((r.modAxis a AxisRt.unbound).endPlanOf a .offline).stance := by
    rwa [stance_endPlanOf]
  have hj := (hm.ite (p := r.axes[a].state = .offline) (hp.judgeOthers (c := c') [a])).ite
    (p := (!c'.axes[a].configured || c'.axes[a].drive != c.axes[a].drive) = true) h
  unfold Run.axisWritten
  exact hj.ite (hj.modAxis a _ (hj a))

theorem Latched.written (h : Latched r.stance) (c' : Tables) (t : Table) (i : Nat) :
    Latched (Run.written c c' r t i).stance := by
  by_cases ht : t = .axis
  · subst ht
    dsimp only [Run.written]
    split
    · exact h.axisWritten _ _
    · exact h
  · rwa [stance_written ht]

/-- Reset leaves every axis OFFLINE and without causes (R67). -/
theorem latched_reset (cause : ResetCause) (raw : BitVec 14) (shown : List Bool) (serial freeCount : Nat) :
    Latched (Run.reset cause raw shown serial freeCount).stance := fun a => by
  show (Run.reset cause raw shown serial freeCount).axes[a].state = .halted ↔
    (Run.reset cause raw shown serial freeCount).axes[a].causes ≠ 0
  rw [show (Run.reset cause raw shown serial freeCount).axes[a] = resetAxis from replicate_get _ a]
  decide

/-- The monitors that start with the tables (R160) are all that reaches an axis here. -/
theorem Latched.becomeConfigured (h : Latched r.stance) : Latched (Run.becomeConfigured c r).stance := by
  have hlines : ∀ u : Run, ((List.finRange 14).foldl (Run.judgeLineAnew c) u).axes = u.axes :=
    foldl_keeps _ Run.axes (fun u l => by rw [Run.judgeLineAnew, Run.modLine_axes]) _
  have hstart : Latched ((List.finRange 4).foldl (Run.startTrunk c) (r.setGw .configured)).startAreas.stance := by
    rw [stance_startAreas, stance_foldl _ _ fun _ _ => by simp [Run.startTrunk]]
    exact h
  have hm := hstart.foldl (Run.startMonitor c)
    (fun u m hu => (Latched.enterState (r := u.modMonitor m _) hu m 0).ite hu) (List.finRange 16)
  intro a
  show (Run.becomeConfigured c r).axes[a].state = .halted ↔ (Run.becomeConfigured c r).axes[a].causes ≠ 0
  unfold Run.becomeConfigured
  dsimp only
  rw [hlines]
  exact hm a

theorem Latched.endLoading {s : State} (h : Latched s.run.stance) (k : LoadResult) :
    Latched (s.endLoading k).run.stance := by
  cases k with
  | good c => exact Latched.becomeConfigured (r := Run.loadingEnds c s.run 0 .configured) h
  | unreadable => exact h
  | refused => exact h

theorem Latched.pageLoaded {s : State} (h : Latched s.run.stance) (bytes : List Byte) :
    Latched (s.pageLoaded bytes).run.stance := by
  unfold State.pageLoaded
  dsimp only
  split
  · exact h.endLoading _
  · split
    · exact h
    · exact h.endLoading _

theorem Latched.pageVerified (h : Latched r.stance) (bytes : List Byte) :
    Latched (r.pageVerified bytes).stance := by
  unfold Run.pageVerified
  dsimp only
  split
  · exact h
  · split <;> exact h

theorem Latched.pageExpired {s : State} (h : Latched s.run.stance) : Latched s.pageExpired.run.stance := by
  unfold State.pageExpired
  split
  · exact h
  · exact h.endLoading _
  iterate 2 exact h

/-! ### Every deed, and every step -/

theorem Latched.runDeed {r' : Run} (hd : RunDeed c r r') (h : Latched r.stance) : Latched r'.stance := by
  cases hd with
  | console | free | chain | output | lampTestEnded => exact h
  | kickConsole => rwa [stance_kickConsole]
  | startTx => rwa [stance_startTx]
  | beaconExpired => simpa [Run.beaconExpired] using h
  | answer => rwa [stance_answer]
  | settleEvent => rwa [stance_settleEvent]
  | functionFrame hg req payload => exact h.functionFrame req payload
  | commandFrame => rwa [stance_commandFrame]
  | passFrame => rwa [stance_passFrame]
  | reportIntervalExpired => rwa [stance_reportIntervalExpired]
  | takeReply t k hk code payload => exact h.takeReply t k code payload
  | takeMiss t k hk => exact h.takeMiss t k
  | windowOpens => rwa [stance_windowOpens]
  | gapEnded => rwa [stance_gapEnded]
  | roundEnded => rwa [stance_roundEnded]
  | settled => rwa [stance_settled]
  | settle => rwa [stance_settle]
  | holdTrunk t ht => exact h.holdTrunk t
  | keepaliveExpired a => exact h.keepaliveExpired a
  | lockExpired a => exact h.lockExpired a
  | controlExpired a => exact h.controlExpired a
  | warningExpired => rwa [stance_warningExpired]
  | retryExpired => rwa [stance_retryExpired]
  | moveTimerExpired => rwa [stance_moveTimerExpired]
  | transitExpired => rwa [stance_transitExpired]
  | playTimeout => rwa [stance_playTimeout]
  | beginPass => rwa [stance_beginPass]
  | staleExpired ch => exact h.turnStale [ch]
  | holdExpired m => exact h.enterState m _
  | timeoutExpired m => exact h.enterState m _
  | rawChanged => rwa [stance_rawChanged]
  | filterExpired l => exact h.filterExpired l

theorem Latched.deed {s t : State} (hd : Deed s t) (h : Latched s.run.stance) : Latched t.run.stance := by
  cases hd with
  | run hr => exact h.runDeed hr
  | take rest => exact h
  | tick => exact (stance_tick s.run).symm ▸ h
  | reset cause raw => exact latched_reset _ _ _ _ _
  | write hi he hr hp => exact h.written _ _ _
  | clear t hg =>
    dsimp only [State.setRun_run]
    split
    · rwa [stance_paramWritten]
    · exact h
  | save hg => exact h
  | start hg hv => exact h.becomeConfigured
  | pageWritten hp => exact h
  | pageLoaded hp bytes => exact h.pageLoaded bytes
  | pageVerified hp bytes => exact h.pageVerified bytes
  | pageExpired => exact h.pageExpired

/-- Settles O58: every deed of a step leaves the causes with the HALTED axes. -/
theorem stepsKeepHaltCauses : Obligations.StepsKeepHaltCauses := fun s t hs h =>
  (haltedHaveCauses_iff t).mpr (step_keeps_of_deed (P := fun u => Latched u.run.stance)
    (fun _ _ hd hu => hu.deed hd) h ((haltedHaveCauses_iff s).mp hs))

end

end Sys2Proof.Machine
end

