-- ==== Sys2Proof/Proofs/AxisJudging.lean ====
section
/-! PROOFS. The judging of a start by steps 2 to 6 of R72 and what a start does by the state of its axis (R73):
the equations that MOVE, the plan's steps and the panel share, and MOVE itself. -/

namespace Sys2Proof.Machine

/-- A change that leaves an axis record as it is changes nothing. -/
theorem Run.modAxis_eq_self (r : Run) (i : Fin 6) {f : AxisRt → AxisRt} (h : f r.axes[i] = r.axes[i]) :
    r.modAxis i f = r := by
  unfold Run.modAxis
  rw [h]
  simp

section
variable {c : Tables} {r : Run} {a : Fin 6}

/-! ### Step 5 of R72 -/

theorem not_fireHolds (hf : ¬FireHolds c r a) : fireHolds c r a = false :=
  Bool.eq_false_iff.mpr fun h => hf ((fireHolds_iff c r a).mp h)

theorem not_prereqMet {q : Option Prereq} (h : ¬Satisfied r q) : prereqMet r q = false :=
  Bool.eq_false_iff.mpr fun hm => h ((prereqMet_iff r q).mp hm)

theorem moveInterlock_estop (h : EstopHolds r) : moveInterlock c r a = some 1 := if_pos h

theorem moveInterlock_past_estop (h : ¬EstopHolds r) : moveInterlock c r a =
    if fireHolds c r a then some 2
    else if !prereqMet r c.axes[a].prereq1 then some 3
    else if !prereqMet r c.axes[a].prereq2 then some 4
    else if effectiveDerate r a = 0 then some 6
    else none := if_neg h

theorem moveInterlock_fire (he : ¬EstopHolds r) (h : FireHolds c r a) : moveInterlock c r a = some 2 := by
  rw [moveInterlock_past_estop he, if_pos ((fireHolds_iff c r a).mpr h)]

theorem moveInterlock_past_fire (he : ¬EstopHolds r) (h : ¬FireHolds c r a) : moveInterlock c r a =
    if !prereqMet r c.axes[a].prereq1 then some 3
    else if !prereqMet r c.axes[a].prereq2 then some 4
    else if effectiveDerate r a = 0 then some 6
    else none := by
  rw [moveInterlock_past_estop he, not_fireHolds h]
  rfl

theorem moveInterlock_prereq1 (he : ¬EstopHolds r) (hf : ¬FireHolds c r a)
    (h : ¬Satisfied r c.axes[a].prereq1) : moveInterlock c r a = some 3 := by
  rw [moveInterlock_past_fire he hf, not_prereqMet h]
  rfl

theorem moveInterlock_prereq2 (he : ¬EstopHolds r) (hf : ¬FireHolds c r a)
    (h1 : Satisfied r c.axes[a].prereq1) (h : ¬Satisfied r c.axes[a].prereq2) :
    moveInterlock c r a = some 4 := by
  rw [moveInterlock_past_fire he hf, (prereqMet_iff _ _).mpr h1, not_prereqMet h]
  rfl

theorem moveInterlock_past_prereqs (he : ¬EstopHolds r) (hf : ¬FireHolds c r a)
    (h1 : Satisfied r c.axes[a].prereq1) (h2 : Satisfied r c.axes[a].prereq2) :
    moveInterlock c r a = if effectiveDerate r a = 0 then some 6 else none := by
  rw [moveInterlock_past_fire he hf, (prereqMet_iff _ _).mpr h1, (prereqMet_iff _ _).mpr h2]
  rfl

theorem moveInterlock_derate (he : ¬EstopHolds r) (hf : ¬FireHolds c r a)
    (h1 : Satisfied r c.axes[a].prereq1) (h2 : Satisfied r c.axes[a].prereq2)
    (h : effectiveDerate r a = 0) : moveInterlock c r a = some 6 := by
  rw [moveInterlock_past_prereqs he hf h1 h2, if_pos h]

theorem moveInterlock_none (h : NoInterlock c r a) : moveInterlock c r a = none := by
  obtain ⟨he, hf, h1, h2, hd⟩ := h
  rw [moveInterlock_past_prereqs he hf h1 h2, if_neg hd]

/-- Step 5 of R72 lets a start by exactly where nothing holds the axis. -/
theorem moveInterlock_eq_none_iff : moveInterlock c r a = none ↔ NoInterlock c r a := by
  refine ⟨fun h => ?_, moveInterlock_none⟩
  have he : ¬EstopHolds r := fun he => by rw [moveInterlock_estop he] at h; cases h
  have hf : ¬FireHolds c r a := fun hf => by rw [moveInterlock_fire he hf] at h; cases h
  have h1 : Satisfied r c.axes[a].prereq1 := by
    by_contra h1
    rw [moveInterlock_prereq1 he hf h1] at h
    cases h
  have h2 : Satisfied r c.axes[a].prereq2 := by
    by_contra h2
    rw [moveInterlock_prereq2 he hf h1 h2] at h
    cases h
  exact ⟨he, hf, h1, h2, fun hd => by rw [moveInterlock_derate he hf h1 h2 hd] at h; cases h⟩

/-! ### Steps 2 to 5 of R72 -/

/-- The states in which an axis takes no start (R72 step 4). -/
abbrev StartsNot (s : AxisState) : Prop := s = .offline ∨ s = .unlocking ∨ s = .locking ∨ s = .halted

/-- The states in which an axis takes a start (R72 step 4). -/
abbrev Startable (s : AxisState) : Prop := s = .locked ∨ s = .still ∨ s = .moving ∨ s = .stopping

theorem moveJudge_service (h : InService r) : moveJudge c r a = some (.interlock, 5) := if_pos h

theorem moveJudge_local (hs : ¬InService r) (h : r.axes[a].control = .localPanel) :
    moveJudge c r a = some (.state, 8) := by
  unfold moveJudge
  rw [if_neg (show ¬serviceMode r = true from hs), if_pos h]
  rfl

theorem moveJudge_state (hs : ¬InService r) (hc : r.axes[a].control = .bridge)
    (h : StartsNot r.axes[a].state) : moveJudge c r a = some (.state, det r.axes[a].state.code) := by
  unfold moveJudge
  rw [if_neg (show ¬serviceMode r = true from hs), if_neg (by rw [hc]; decide)]
  rcases h with h | h | h | h <;> rw [h]

theorem moveJudge_interlock (hs : ¬InService r) (hc : r.axes[a].control = .bridge)
    (h : Startable r.axes[a].state) :
    moveJudge c r a = (moveInterlock c r a).map fun k => (.interlock, det k) := by
  unfold moveJudge
  rw [if_neg (show ¬serviceMode r = true from hs), if_neg (by rw [hc]; decide)]
  rcases h with h | h | h | h <;> rw [h]

/-- A start is judged by steps 2 to 5 of R72 in this order, each with its detail. -/
theorem moveJudge_in_order (c : Tables) (r : Run) (a : Fin 6) :
    let x := r.axes[a]
    let go := moveJudge c r a
    (InService r → go = some (.interlock, 5)) ∧
    (¬InService r → x.control = .localPanel → go = some (.state, 8)) ∧
    (¬InService r → x.control = .bridge →
      (StartsNot x.state → go = some (.state, det x.state.code)) ∧
      (Startable x.state →
        (NoInterlock c r a → go = none) ∧
        (EstopHolds r → go = some (.interlock, 1)) ∧
        (¬EstopHolds r → FireHolds c r a → go = some (.interlock, 2)) ∧
        (¬EstopHolds r → ¬FireHolds c r a →
          (¬Satisfied r c.axes[a].prereq1 → go = some (.interlock, 3)) ∧
          (Satisfied r c.axes[a].prereq1 →
            (¬Satisfied r c.axes[a].prereq2 → go = some (.interlock, 4)) ∧
            (Satisfied r c.axes[a].prereq2 → effectiveDerate r a = 0 →
              go = some (.interlock, 6)))))) := by
  refine ⟨moveJudge_service, moveJudge_local, fun hs hc => ⟨moveJudge_state hs hc, fun hst => ?_⟩⟩
  have hj : ∀ o, moveInterlock c r a = o →
      moveJudge c r a = o.map fun k => (.interlock, det k) :=
    fun o ho => ho ▸ moveJudge_interlock hs hc hst
  exact ⟨fun h => hj _ (moveInterlock_none h), fun h => hj _ (moveInterlock_estop h),
    fun he h => hj _ (moveInterlock_fire he h), fun he hf =>
      ⟨fun h => hj _ (moveInterlock_prereq1 he hf h), fun h1 =>
        ⟨fun h => hj _ (moveInterlock_prereq2 he hf h1 h),
          fun h2 hd => hj _ (moveInterlock_derate he hf h1 h2 hd)⟩⟩⟩

/-! ### Starts (R73) -/

section
variable {target : Int} {lock : Bool} {origin : MoveOrigin}

theorem startMove_locked (h : r.axes[a].state = .locked) :
    Run.startMove c r a target lock origin = Run.placeMotionCall c (Run.offerUnlock c
      (r.modAxis a fun x => { x with
        target, lockAtEnd := lock, origin, keepaliveTimer := some (ms c.axes[a].keepalive)
        state := .unlocking, sentDemand := 0, overloadNoted := false
        lockTimer := some (sec c.axes[a].lockTimeout) }) a) a := by
  unfold Run.startMove
  rw [h]
  rfl

theorem startMove_still (h : r.axes[a].state = .still) :
    Run.startMove c r a target lock origin = Run.placeMotionCall c
      (r.modAxis a fun x => { x with
        target, lockAtEnd := lock, origin, keepaliveTimer := some (ms c.axes[a].keepalive)
        state := .moving, sentDemand := 0, overloadNoted := false
        controlTimer := some (ms c.axes[a].controlPeriod) }) a := by
  unfold Run.startMove
  rw [h]
  rfl

theorem startMove_moving (h : r.axes[a].state = .moving) :
    Run.startMove c r a target lock origin = r.modAxis a fun x => { x with
      target, lockAtEnd := lock, origin, keepaliveTimer := some (ms c.axes[a].keepalive) } := by
  unfold Run.startMove
  rw [h]
  rfl

theorem startMove_stopping (h : r.axes[a].state = .stopping) :
    Run.startMove c r a target lock origin = r.modAxis a fun x => { x with
      target, lockAtEnd := lock, origin, keepaliveTimer := some (ms c.axes[a].keepalive)
      state := .moving } := by
  unfold Run.startMove
  rw [h]
  rfl

theorem startMove_refused (h : StartsNot r.axes[a].state) :
    Run.startMove c r a target lock origin = r := by
  unfold Run.startMove
  rcases h with h | h | h | h <;> rw [h]
end

/-! ### MOVE (R72, R73) -/

theorem requestMove_inPlan (h : InPlan r a) (target : Int) (lock : Bool) :
    Run.requestMove c r a target lock = (r, .busy, det r.plan.current) :=
  if_pos ((planNames_iff r a).mpr h)

theorem requestMove_judged (h : ¬InPlan r a) {v : Verdict} (hj : moveJudge c r a = some v)
    (target : Int) (lock : Bool) : Run.requestMove c r a target lock = (r, v) := by
  unfold Run.requestMove
  rw [if_neg fun hp => h ((planNames_iff r a).mp hp), hj]

theorem requestMove_started (h : ¬InPlan r a) (hj : moveJudge c r a = none) (target : Int) (lock : Bool) :
    Run.requestMove c r a target lock =
      (Run.startMove c r a (clampTarget c.axes[a] target) lock .bridge,
        if clampTarget c.axes[a] target = target then (.ok, 0) else (.clamped, 1)) := by
  unfold Run.requestMove
  rw [if_neg fun hp => h ((planNames_iff r a).mp hp), hj]
  rfl

end

section
variable {s : State} {dst : Word} {a : Fin 6}

/-- A MOVE that reaches its axis and whose target fits its field is judged by R72. -/
theorem exec_move (h : Reaches s dst (.axis a)) (src : Word) (tag : Byte) {target : Int} (lock : Bool)
    (hl : -32768 ≤ target) (hu : target ≤ 32767) :
    exec (.move src dst tag (i2 target ++ bBool lock)) s =
      (let o := Run.requestMove s.cfg s.run a target lock
       answered s o.1 { src, dst, tag } o.2 []) := by
  refine (requested_reaches h src tag 0x01#8 (by cases lock <;> exact Nat.le_add_left 3 236)).trans ?_
  have hf : functionRequest s.cfg s.run (.axis a) (0x01#8).toNat (i2 target ++ bBool lock) =
      plain (Run.requestMove s.cfg s.run a target lock) :=
    withForm_reads (formMove_reads lock hl hu) s.run _
  rw [hf]
  rfl

/-- A target's two bytes are those of a target that fits its field. -/
theorem i2_toInt (z : Int) : i2 (BitVec.ofInt 16 z).toInt = i2 z := by
  unfold i2
  rw [BitVec.ofInt_toInt]

/-- A MOVE that is refused is refused whatever its target. -/
theorem exec_move_refused (h : Reaches s dst (.axis a)) (src : Word) (tag : Byte) (target : Int)
    (lock : Bool) {v : Verdict} (hv : ∀ t, Run.requestMove s.cfg s.run a t lock = (s.run, v)) :
    exec (.move src dst tag (i2 target ++ bBool lock)) s = answered s s.run { src, dst, tag } v [] := by
  have hlo := BitVec.le_toInt (BitVec.ofInt 16 target)
  have hhi := BitVec.toInt_le (x := BitVec.ofInt 16 target)
  rw [← i2_toInt target, exec_move h src tag lock hlo hhi, hv]

end

/-- Settles O31: MOVE by the plan and the judging of a start, then by the state of its axis. -/
theorem movesAreJudgedAndStarted : Obligations.MovesAreJudgedAndStarted := by
  refine ⟨fun s src dst tag a target lock h => ?_, fun s src dst tag a target lock h hl hu hp hs hc hn => ?_⟩
  · obtain ⟨hserv, hloc, hrest⟩ := moveJudge_in_order s.cfg s.run a
    have no : ¬InPlan s.run a → ∀ {v}, moveJudge s.cfg s.run a = some v →
        exec (.move src dst tag (i2 target ++ bBool lock)) s = answered s s.run { src, dst, tag } v [] :=
      fun hp _ hj => exec_move_refused h src tag target lock fun t => requestMove_judged hp hj t lock
    refine ⟨fun hp => exec_move_refused h src tag target lock fun t => requestMove_inPlan hp t lock,
      fun hp hs => no hp (hserv hs), fun hp hs hc => no hp (hloc hs hc), fun hp hs hc => ?_⟩
    obtain ⟨hstate, hstart⟩ := hrest hs hc
    refine ⟨fun hst => no hp (hstate hst), fun hst => ?_⟩
    obtain ⟨-, hestop, hfire, hpre⟩ := hstart hst
    refine ⟨fun he => no hp (hestop he), fun he hf => no hp (hfire he hf), fun he hf => ?_⟩
    obtain ⟨hpre1, hpre2⟩ := hpre he hf
    refine ⟨fun h1 => no hp (hpre1 h1), fun h1 => ?_⟩
    obtain ⟨hp2, hder⟩ := hpre2 h1
    exact ⟨fun h2 => no hp (hp2 h2), fun h2 hd => no hp (hder h2 hd)⟩
  · intro c r k t done aim
    have go : Startable r.axes[a].state → ∀ {u}, Run.startMove c r a t lock .bridge = u → done u :=
      fun hst u hmove => by
        have hj : moveJudge c r a = none := by
          rw [moveJudge_interlock hs hc hst, moveInterlock_none hn]
          rfl
        show exec (.move src dst tag (i2 target ++ bBool lock)) s = _
        rw [exec_move h src tag lock hl hu, requestMove_started hp hj, ← hmove]
        rfl
    exact ⟨fun hst => go (.inl hst) (startMove_locked hst), fun hst => go (.inr (.inl hst)) (startMove_still hst),
      fun hst => go (.inr (.inr (.inl hst))) (startMove_moving hst),
      fun hst => go (.inr (.inr (.inr hst))) (startMove_stopping hst)⟩

end Sys2Proof.Machine
end

