-- ==== Sys2Proof/Proofs/PlanSteps.lean ====
section
/-! PROOFS. The plan (R90 to R92): its current step, its end, PLAN_START, PLAN_KEEP and PLAN_CANCEL, and what
follows a step that is done. -/

namespace Sys2Proof.Machine

section
variable {c : Tables} {r : Run} {a : Fin 6}

/-! ### The current step, and the plan's end (R92) -/

theorem currentStep_running (h : r.plan.running = true) :
    currentStep r = r.plan.steps[r.plan.current - 1]? := if_pos h

theorem currentStep_idle (h : r.plan.running = false) : currentStep r = none :=
  if_neg (Bool.eq_false_iff.mp h)

theorem currentStep_of_step {x : PlanStep} (h : r.plan.running = true)
    (hx : r.plan.steps[r.plan.current - 1]? = some x) : currentStep r = some x :=
  (currentStep_running h).trans hx

/-- The axis of the running plan's current step (R92). -/
theorem isCurrentAxis_iff : isCurrentAxis r a = true ↔
    r.plan.running = true ∧ ∃ x, r.plan.steps[r.plan.current - 1]? = some x ∧ x.axis = a := by
  unfold isCurrentAxis
  cases hr : r.plan.running with
  | false => simp [currentStep_idle hr]
  | true =>
    rw [currentStep_running hr]
    cases r.plan.steps[r.plan.current - 1]? <;> simp

theorem endPlan_running (h : r.plan.running = true) (cause : PlanEnd) :
    r.endPlan cause = (r.setPlan { r.plan with running := false, steps := [] }).raise .planAborted 0
      (det2 r.plan.current cause.code) := if_pos h

@[simp] theorem endPlan_axes (r : Run) (cause : PlanEnd) : (r.endPlan cause).axes = r.axes := by
  unfold Run.endPlan
  split <;> rfl

@[simp] theorem endPlanOf_axes (r : Run) (a : Fin 6) (cause : PlanEnd) :
    (r.endPlanOf a cause).axes = r.axes := by
  unfold Run.endPlanOf
  split
  · exact endPlan_axes r cause
  · rfl

/-! ### PLAN_START (R90) -/

theorem requestPlanStart_running (h : r.plan.running = true) (steps : List PlanStep) :
    Run.requestPlanStart c r steps = (r, .busy, det r.plan.current) := if_pos h

theorem requestPlanStart_service (h : r.plan.running = false) (hs : InService r) (steps : List PlanStep) :
    Run.requestPlanStart c r steps = (r, .interlock, 5) := by
  unfold Run.requestPlanStart
  rw [if_neg (Bool.eq_false_iff.mp h), if_pos (show serviceMode r = true from hs)]
  rfl

theorem firstLocalStep_some {steps : List PlanStep} {i : Nat} {x : PlanStep} (hx : steps[i]? = some x)
    (hl : r.axes[x.axis].control = .localPanel)
    (hf : ∀ j y, j < i → steps[j]? = some y → ¬r.axes[y.axis].control = .localPanel) :
    firstLocalStep r steps = some (i + 1) := by
  obtain ⟨hi, hxi⟩ := List.getElem?_eq_some_iff.mp hx
  have : steps.findIdx? (fun s => r.axes[s.axis].control == .localPanel) = some i := by
    rw [List.findIdx?_eq_some_iff_getElem]
    refine ⟨hi, by rw [hxi]; exact beq_iff_eq.mpr hl, fun j hj hp => ?_⟩
    exact hf j _ hj (List.getElem?_eq_getElem (hj.trans hi)) (beq_iff_eq.mp hp)
  unfold firstLocalStep
  rw [this]
  rfl

theorem firstLocalStep_none {steps : List PlanStep}
    (h : ∀ x ∈ steps, ¬r.axes[x.axis].control = .localPanel) : firstLocalStep r steps = none := by
  unfold firstLocalStep
  rw [Option.map_eq_none_iff, List.findIdx?_eq_none_iff]
  exact fun x hx => beq_eq_false_iff_ne.mpr (h x hx)

theorem requestPlanStart_local (h : r.plan.running = false) (hs : ¬InService r) {steps : List PlanStep}
    {k : Nat} (hk : firstLocalStep r steps = some k) :
    Run.requestPlanStart c r steps = (r, .interlock, det k) := by
  unfold Run.requestPlanStart
  rw [if_neg (Bool.eq_false_iff.mp h), if_neg (show ¬serviceMode r = true from hs), hk]

/-- With no axis of the plan under LOCAL the start of step 1 decides (R90). -/
theorem requestPlanStart_refused (h : r.plan.running = false) (hs : ¬InService r) {k : PlanStep}
    {l : List PlanStep} (hk : firstLocalStep r (k :: l) = none) {u : Run} {v : Verdict}
    (ho : Run.startStep c r k = (u, some v)) : Run.requestPlanStart c r (k :: l) = (r, v) := by
  unfold Run.requestPlanStart
  rw [if_neg (Bool.eq_false_iff.mp h), if_neg (show ¬serviceMode r = true from hs), hk]
  dsimp only
  rw [ho]

theorem requestPlanStart_started (h : r.plan.running = false) (hs : ¬InService r) {k : PlanStep}
    {l : List PlanStep} (hk : firstLocalStep r (k :: l) = none) {u : Run}
    (ho : Run.startStep c r k = (u, none)) : Run.requestPlanStart c r (k :: l) =
      (u.setPlan { running := true, steps := k :: l, current := 1 }, .ok, 0) := by
  unfold Run.requestPlanStart
  rw [if_neg (Bool.eq_false_iff.mp h), if_neg (show ¬serviceMode r = true from hs), hk]
  dsimp only
  rw [ho]

theorem startStep_refused {k : PlanStep} {v : Verdict} (h : moveJudge c r k.axis = some v) :
    Run.startStep c r k = (r, some v) := by
  unfold Run.startStep
  rw [h]

theorem startStep_started {k : PlanStep} (h : moveJudge c r k.axis = none) :
    Run.startStep c r k = (Run.startMove c r k.axis (clampTarget c.axes[k.axis] k.target) k.lockAtEnd
      .bridge, none) := by
  unfold Run.startStep
  rw [h]

/-! ### A step that is done (R91) -/

/-- The runtime with a step's STEP_DONE, where the step notifies. -/
def stepNoted (r : Run) (x : PlanStep) : Run :=
  if x.notify then r.raise .stepDone 0 (det2 r.plan.current (axisNo x.axis)) else r

@[simp] theorem stepNoted_plan (r : Run) (x : PlanStep) : (stepNoted r x).plan = r.plan := by
  unfold stepNoted
  split <;> rfl

theorem stepDone_idle (h : r.plan.running = false) : Run.stepDone c r a = r := by
  unfold Run.stepDone
  rw [currentStep_idle h]

theorem stepDone_other {x : PlanStep} (hx : currentStep r = some x) (h : x.axis ≠ a) :
    Run.stepDone c r a = r := by
  unfold Run.stepDone
  rw [hx]
  exact if_neg h

theorem stepDone_current {x : PlanStep} (hx : currentStep r = some x) :
    Run.stepDone c r x.axis = Run.advancePlan c (stepNoted r x) := by
  unfold Run.stepDone
  rw [hx]
  exact if_pos rfl

theorem advancePlan_done (h : r.plan.steps[r.plan.current]? = none) :
    Run.advancePlan c r = (r.setPlan { r.plan with running := false }).raise .planDone 0
      (det r.plan.steps.length) := by
  unfold Run.advancePlan
  dsimp only
  rw [h]

theorem advancePlan_starts {y : PlanStep} {u : Run} (h : r.plan.steps[r.plan.current]? = some y)
    (ho : Run.startStep c (r.setPlan { r.plan with current := r.plan.current + 1 }) y = (u, none)) :
    Run.advancePlan c r = u := by
  unfold Run.advancePlan
  dsimp only
  rw [h]
  dsimp only
  rw [ho]

theorem advancePlan_refused {y : PlanStep} {u : Run} {v : Verdict}
    (h : r.plan.steps[r.plan.current]? = some y)
    (ho : Run.startStep c (r.setPlan { r.plan with current := r.plan.current + 1 }) y = (u, some v)) :
    Run.advancePlan c r = u.endPlan .refused := by
  unfold Run.advancePlan
  dsimp only
  rw [h]
  dsimp only
  rw [ho]

/-- The runtime in which the step behind a step that is done is judged. -/
def nextStep (r : Run) (x : PlanStep) : Run :=
  (stepNoted r x).setPlan { r.plan with current := r.plan.current + 1 }

section
variable {x : PlanStep} (hx : currentStep r = some x)
include hx

theorem stepDone_last (h : r.plan.steps[r.plan.current]? = none) : Run.stepDone c r x.axis =
    ((stepNoted r x).setPlan { r.plan with running := false }).raise .planDone 0
      (det r.plan.steps.length) := by
  rw [stepDone_current hx, advancePlan_done (by rwa [stepNoted_plan]), stepNoted_plan]

variable {y : PlanStep} (hy : r.plan.steps[r.plan.current]? = some y)
include hy

theorem stepDone_starts (hj : moveJudge c (nextStep r x) y.axis = none) :
    Run.stepDone c r x.axis = Run.startMove c (nextStep r x) y.axis (clampTarget c.axes[y.axis] y.target)
      y.lockAtEnd .bridge := by
  rw [stepDone_current hx]
  refine advancePlan_starts (y := y) (by rwa [stepNoted_plan]) ?_
  rw [stepNoted_plan]
  exact startStep_started hj

theorem stepDone_refused (hr : r.plan.running = true) (hj : moveJudge c (nextStep r x) y.axis ≠ none) :
    Run.stepDone c r x.axis = ((nextStep r x).setPlan
      { (nextStep r x).plan with running := false, steps := [] }).raise .planAborted 0
        (det2 (r.plan.current + 1) 5) := by
  obtain ⟨v, hv⟩ := Option.ne_none_iff_exists'.mp hj
  rw [stepDone_current hx]
  refine (advancePlan_refused (y := y) (v := v) (u := nextStep r x) (by rwa [stepNoted_plan]) ?_).trans
    (endPlan_running (r := nextStep r x) hr .refused)
  rw [stepNoted_plan]
  exact startStep_refused hv
end

end

/-! ### The requests of the plan (R90 to R92) -/

theorem reads_planStep (k : PlanStep) (hl : -32768 ≤ k.target) (hu : k.target ≤ 32767) :
    Reads planStep (planStepBytes k) k := by
  have hw : withinInt (-32768) 32767 k.target = true := by simp [withinInt, hl, hu]
  unfold planStepBytes
  rw [List.append_assoc, List.append_assoc]
  exact (reads_axis1 k.axis).bind ((reads_sint2 hw hw).bind
    ((reads_bool1 k.lockAtEnd).bind ((reads_bool1 k.notify).bind_pure (reads_pure k))))

/-- The count of the steps, then the steps. -/
theorem formPlanStart_reads {steps : List PlanStep} (h1 : 1 ≤ steps.length) (h8 : steps.length ≤ 8)
    (ht : ∀ x ∈ steps, -32768 ≤ x.target ∧ x.target ≤ 32767) :
    ReadsFields 1 (fld do
      let n ← nat1 1 8
      many planStep n) (b1 steps.length ++ steps.flatMap planStepBytes) steps :=
  ((reads_nat1 (by simp [within, h1, h8]) (by omega)).bind
    (reads_many fun x hx => reads_planStep x (ht x hx).1 (ht x hx).2)).fld

/-- Five bytes a step. -/
theorem planSteps_length (steps : List PlanStep) :
    (steps.flatMap planStepBytes).length = 5 * steps.length := by
  induction steps with
  | nil => rfl
  | cons x l ih =>
    have hx : (planStepBytes x).length = 5 := rfl
    rw [List.flatMap_cons, List.length_append, ih, hx, List.length_cons]
    omega

section
variable {s : State} {dst : Word} (h : Reaches s dst .plan) (src : Word) (tag : Byte)
include h

theorem exec_planStart {steps : List PlanStep} (h1 : 1 ≤ steps.length) (h8 : steps.length ≤ 8)
    (ht : ∀ x ∈ steps, -32768 ≤ x.target ∧ x.target ≤ 32767) :
    exec (.planStart src dst tag (b1 steps.length ++ steps.flatMap planStepBytes)) s =
      (let o := Run.requestPlanStart s.cfg s.run steps
       answered s o.1 { src, dst, tag } o.2 []) := by
  have hlen : (b1 steps.length ++ steps.flatMap planStepBytes).length ≤ 239 := by
    have := planSteps_length steps
    rw [List.length_append, this]
    simp only [b1, List.length_singleton]
    omega
  refine (requested_reaches h src tag 0x01#8 hlen).trans ?_
  have hf : functionRequest s.cfg s.run .plan (0x01#8).toNat
      (b1 steps.length ++ steps.flatMap planStepBytes) =
      plain (Run.requestPlanStart s.cfg s.run steps) :=
    withForm_reads (formPlanStart_reads h1 h8 ht) s.run _
  rw [hf]
  rfl

theorem exec_planKeep : exec (.planKeep src dst tag []) s =
    (let o := Run.requestPlanKeep s.cfg s.run
     answered s o.1 { src, dst, tag } o.2 []) :=
  requested_reaches h src tag 0x02#8 (Nat.zero_le _)

theorem exec_planCancel : exec (.planCancel src dst tag []) s =
    (let o := Run.requestPlanCancel s.cfg s.run
     answered s o.1 { src, dst, tag } o.2 []) :=
  requested_reaches h src tag 0x03#8 (Nat.zero_le _)

theorem planKeep_idle (hr : s.run.plan.running = false) :
    exec (.planKeep src dst tag []) s = answered s s.run { src, dst, tag } (.state, 0) [] := by
  rw [exec_planKeep h, Run.requestPlanKeep, currentStep_idle hr]

theorem planCancel_idle (hr : s.run.plan.running = false) :
    exec (.planCancel src dst tag []) s = answered s s.run { src, dst, tag } (.state, 0) [] := by
  rw [exec_planCancel h, Run.requestPlanCancel, currentStep_idle hr]

section
variable {x : PlanStep} (hx : currentStep s.run = some x)
include hx

/-- PLAN_KEEP renews the keep-alive of the current axis in UNLOCKING and MOVING (R91). -/
theorem planKeep_current : exec (.planKeep src dst tag []) s =
    answered s (s.run.modAxis x.axis fun y =>
      if y.state = .unlocking ∨ y.state = .moving then
        { y with keepaliveTimer := some (ms s.cfg.axes[x.axis].keepalive) }
      else y) { src, dst, tag } (.ok, 0) [] := by
  rw [exec_planKeep h, Run.requestPlanKeep, hx]

theorem planKeep_renews (hs : s.run.axes[x.axis].state = .unlocking ∨ s.run.axes[x.axis].state = .moving) :
    exec (.planKeep src dst tag []) s = answered s (s.run.modAxis x.axis fun y =>
      { y with keepaliveTimer := some (ms s.cfg.axes[x.axis].keepalive) }) { src, dst, tag } (.ok, 0) [] := by
  rw [planKeep_current h src tag hx]
  exact congrArg (answered s · _ _ _) (s.run.modAxis_congr x.axis (if_pos hs))

theorem planKeep_rests (hu : s.run.axes[x.axis].state ≠ .unlocking)
    (hm : s.run.axes[x.axis].state ≠ .moving) :
    exec (.planKeep src dst tag []) s = answered s s.run { src, dst, tag } (.ok, 0) [] := by
  rw [planKeep_current h src tag hx]
  exact congrArg (answered s · _ _ _) (s.run.modAxis_eq_self x.axis (if_neg (not_or_intro hu hm)))

theorem planCancel_current (hr : s.run.plan.running = true) : exec (.planCancel src dst tag []) s =
    answered s (Run.stopAxis s.cfg
      ((s.run.setPlan { s.run.plan with running := false, steps := [] }).raise .planAborted 0
        (det2 s.run.plan.current 6)) x.axis) { src, dst, tag } (.ok, 0) [] := by
  rw [exec_planCancel h, Run.requestPlanCancel, hx]
  dsimp only
  rw [endPlan_running hr]
  rfl
end

end

/-- Settles O34: each request of the plan by what it finds, and a step's end by the step behind it. -/
theorem plansRunStepByStep : Obligations.PlansRunStepByStep := by
  intro s src dst tag k l h hl ht c r req body go at1 isLocal
  have hgo : go = (let o := Run.requestPlanStart c r (k :: l); answered s o.1 req o.2 []) :=
    exec_planStart h src tag (steps := k :: l) (Nat.le_add_left 1 _) (Nat.succ_le_succ hl) ht
  have start : ∀ {u v}, Run.requestPlanStart c r (k :: l) = (u, v) → go = answered s u req v [] :=
    fun ho => by rw [hgo, ho]
  refine ⟨fun hr => start (requestPlanStart_running hr _), fun hr hs => start (requestPlanStart_service hr hs _),
    fun hr hs => ⟨fun i x hx hloc hf => start (requestPlanStart_local hr hs (firstLocalStep_some hx hloc hf)),
      fun hn => ?_⟩, fun hr => ⟨planKeep_idle h src tag hr, planCancel_idle h src tag hr⟩, fun x hr hx => ?_⟩
  · have hfirst := firstLocalStep_none hn
    exact ⟨fun v hv => start (requestPlanStart_refused hr hs hfirst (startStep_refused hv)),
      fun hv => start (requestPlanStart_started hr hs hfirst (startStep_started hv))⟩
  · have hcur := currentStep_of_step hr hx
    exact ⟨planKeep_renews h src tag hcur, planKeep_rests h src tag hcur,
      planCancel_current h src tag hcur hr, stepDone_last hcur, fun y hy =>
        ⟨stepDone_starts hcur hy, stepDone_refused hcur hy hr⟩⟩

end Sys2Proof.Machine
end

