-- ==== Sys2Proof/Proofs/MotionCalls.lean ====
section
/-! PROOFS. The calls an internal originator places (R130 to R132), the motion call (R89), the stage switch
(R103), the frames to the drive (R79), and the end of a move that is done (R78, R91). -/

namespace Sys2Proof.Machine

section
variable {c : Tables} {r : Run}

/-! ### Offered calls (R130 to R132) -/

section
variable {o : CallOffer}

/-- The record that an offered call joins: its own origin's, with its message (R131). -/
def sameCall (r : Run) (o : CallOffer) : Option Call :=
  r.calls.find? fun k => k.origin = o.origin ∧ k.message = o.message

theorem sameCall_eq (r : Run) (o : CallOffer) :
    (r.calls.find? fun k => k.origin == o.origin && k.message == o.message) = sameCall r o := by
  unfold sameCall
  congr 1
  funext k
  rw [Bool.decide_and, beq_eq_decide, beq_eq_decide]

theorem offerCall_merged {k : Call} (h : sameCall r o = some k) :
    Run.offerCall c r o = (Run.mergeCall c r o k, .merged k.id) := by
  unfold Run.offerCall
  rw [sameCall_eq, h]

theorem offerCall_entered (h : sameCall r o = none) (hl : r.calls.length < 16) :
    Run.offerCall c r o = ((Run.enterCall c r o).1, .entered (Run.enterCall c r o).2) := by
  unfold Run.offerCall
  rw [sameCall_eq, h]
  exact if_pos hl

theorem offerCall_full (h : sameCall r o = none) (hl : 16 ≤ r.calls.length) {k : Call}
    (hk : r.calls.getLast? = some k) :
    Run.offerCall c r o =
      if k.priority < o.priority then
        (let e := Run.enterCall c ((Run.removeCall c r k.id).raise .callEvicted k.id k.origin.code) o
         (e.1, .entered e.2))
      else (r, .refused k.priority) := by
  unfold Run.offerCall
  rw [sameCall_eq, h]
  dsimp only
  rw [if_neg (show ¬r.calls.length < Config.callCapacity from Nat.not_lt.mpr hl), hk]

theorem placeInternal_merged {k : Call} (h : sameCall r o = some k) :
    Run.placeInternal c r o = (Run.mergeCall c r o k, some k.id) := by
  unfold Run.placeInternal
  rw [offerCall_merged h]

theorem placeInternal_entered (h : sameCall r o = none) (hl : r.calls.length < 16) :
    Run.placeInternal c r o = ((Run.enterCall c r o).1, some (Run.enterCall c r o).2) := by
  unfold Run.placeInternal
  rw [offerCall_entered h hl]

theorem placeInternal_evicts (h : sameCall r o = none) (hl : 16 ≤ r.calls.length) {k : Call}
    (hk : r.calls.getLast? = some k) (hp : k.priority < o.priority) :
    Run.placeInternal c r o =
      (let room := (Run.removeCall c r k.id).raise .callEvicted k.id k.origin.code
       ((Run.enterCall c room o).1, some (Run.enterCall c room o).2)) := by
  unfold Run.placeInternal
  rw [offerCall_full h hl hk, if_pos hp]

theorem placeInternal_refused (h : sameCall r o = none) (hl : 16 ≤ r.calls.length) {k : Call}
    (hk : r.calls.getLast? = some k) (hp : o.priority ≤ k.priority) :
    Run.placeInternal c r o = (r.raise .callRefused 0 o.origin.code, none) := by
  unfold Run.placeInternal
  rw [offerCall_full h hl hk, if_neg (Nat.not_lt.mpr hp)]

end

variable {a : Fin 6}

/-! ### The motion call (R89) -/

theorem placeMotionCall_none (h : c.axes[a].motionCall = none) : Run.placeMotionCall c r a = r := by
  unfold Run.placeMotionCall
  rw [h]

theorem placeMotionCall_some {k : MotionCall} (h : c.axes[a].motionCall = some k) :
    Run.placeMotionCall c r a =
      (let p := Run.placeInternal c r { message := k.message, areas := k.areas
                                        priority := k.priority, repeats := 0, gap := k.gap
                                        limit := c.param.playLimit, origin := .axis a }
      p.1.modAxis a fun x => { x with callId := p.2 }) := by
  unfold Run.placeMotionCall
  rw [h]

theorem withdrawMotionCall_none (h : r.axes[a].callId = none) : Run.withdrawMotionCall c r a = r := by
  unfold Run.withdrawMotionCall
  rw [h]
  exact r.modAxis_eq_self a (by rw [← h])

theorem withdrawMotionCall_some {id : Nat} (h : r.axes[a].callId = some id) :
    Run.withdrawMotionCall c r a =
      (Run.removeCall c r id).modAxis a fun x => { x with callId := none } := by
  unfold Run.withdrawMotionCall
  rw [h]
  rfl

/-! ### The stage switch (R103) -/

theorem stageOn_iff (x : AxisCfg) :
    stageOn x = true ↔ x.lowPayload.isSome = true ∧ x.highPayload.isSome = true :=
  Bool.and_eq_true_iff

theorem judgeStage_off (h : stageOn c.axes[a] ≠ true) (demand : Int) :
    Run.judgeStage c r a demand = r := if_neg h

theorem judgeStage_low (h : stageOn c.axes[a] = true) (hs : r.axes[a].stage = .low) (demand : Int) :
    Run.judgeStage c r a demand = if c.axes[a].stageUp ≤ demand.natAbs then
      Run.offerStage c (r.modAxis a fun x => { x with stage := .high }) a else r := by
  unfold Run.judgeStage
  rw [if_pos h, hs]

theorem judgeStage_high (h : stageOn c.axes[a] = true) (hs : r.axes[a].stage = .high) (demand : Int) :
    Run.judgeStage c r a demand = if demand.natAbs < c.axes[a].stageDown then
      Run.offerStage c (r.modAxis a fun x => { x with stage := .low }) a else r := by
  unfold Run.judgeStage
  rw [if_pos h, hs]

/-- The payload of the stage the axis stands in. -/
theorem stagePayload_eq {x : AxisCfg} {s : Stage} {v : List Byte}
    (h : (match s with | .low => x.lowPayload | .high => x.highPayload) = some v) :
    stagePayload x s = v := by
  cases s <;> exact congrArg (Option.getD · []) h

/-! ### Frames to the drive (R79) -/

/-- A frame is owed exactly where its offer is refused. -/
theorem refused_of_ne {o : Offer} (h : o ≠ .accepted) : (o != .accepted) = true := bne_iff_ne.mpr h

section
variable {v : List Byte} {o : Run × Offer}

theorem offerUnlock_accepted (ho : Run.offerFrame c r c.axes[a].drive 0x03 [] (.axis a .unlock) = o)
    (h : o.2 = .accepted) : Run.offerUnlock c r a =
      o.1.modAxis a fun x => { x with owed := { x.owed with unlock := false } } := by
  subst ho
  unfold Run.offerUnlock
  dsimp only
  rw [show (Run.offerFrame c r c.axes[a].drive codeUnlock [] (.axis a .unlock)).2 = .accepted from h]
  rfl

theorem offerUnlock_refused (ho : Run.offerFrame c r c.axes[a].drive 0x03 [] (.axis a .unlock) = o)
    (h : o.2 ≠ .accepted) : Run.offerUnlock c r a =
      o.1.modAxis a fun x => { x with owed := { x.owed with unlock := true } } := by
  subst ho
  rw [← refused_of_ne h]
  rfl

theorem offerLock_accepted (ho : Run.offerFrame c r c.axes[a].drive 0x04 [] (.axis a .lock) = o)
    (h : o.2 = .accepted) : Run.offerLock c r a =
      o.1.modAxis a fun x => { x with owed := { x.owed with lock := false } } := by
  subst ho
  unfold Run.offerLock
  dsimp only
  rw [show (Run.offerFrame c r c.axes[a].drive codeLock [] (.axis a .lock)).2 = .accepted from h]
  rfl

theorem offerLock_refused (ho : Run.offerFrame c r c.axes[a].drive 0x04 [] (.axis a .lock) = o)
    (h : o.2 ≠ .accepted) : Run.offerLock c r a =
      o.1.modAxis a fun x => { x with owed := { x.owed with lock := true } } := by
  subst ho
  rw [← refused_of_ne h]
  rfl

theorem offerStage_eq (hv : stagePayload c.axes[a] r.axes[a].stage = v) : Run.offerStage c r a =
    (let o := Run.offerFrame c r c.axes[a].drive 0x05 v (.axis a .stage)
     o.1.modAxis a fun x => { x with owed := { x.owed with stage := o.2 != .accepted } }) := by
  subst hv
  rfl

end

end

/-- Settles O36: calls, stages, starts and ends of moves, each by the cases of its operation. -/
theorem motionCallsStagesAndStarts : Obligations.MotionCallsStagesAndStarts := by
  refine ⟨fun c r a => ⟨placeMotionCall_none, fun k => placeMotionCall_some, withdrawMotionCall_none,
      fun id => withdrawMotionCall_some⟩,
    fun c r o => ⟨fun k => placeInternal_merged, placeInternal_entered, fun k hs hl hk =>
      ⟨placeInternal_evicts hs hl hk, placeInternal_refused hs hl hk⟩⟩,
    fun c r a demand => ⟨fun h => ?_, fun h hs => ⟨fun hd => ?_, fun hd => ?_⟩,
      fun h hs => ⟨fun hd => ?_, fun hd => ?_⟩, fun v hv => ⟨fun h => ?_, fun h => ?_⟩⟩,
    moveJudge_in_order, fun c r a target lock origin =>
      ⟨startMove_locked, startMove_still, startMove_moving, startMove_stopping, startMove_refused⟩,
    fun c r a => ⟨offerUnlock_accepted rfl, offerUnlock_refused rfl, offerLock_accepted rfl,
      offerLock_refused rfl, rfl, stepDone_idle, fun x hr hx => stepDone_other (currentStep_of_step hr hx)⟩⟩
  · exact judgeStage_off (fun hn => h ((stageOn_iff _).mp hn)) demand
  · exact (judgeStage_low ((stageOn_iff _).mpr h) hs demand).trans (if_pos hd)
  · exact (judgeStage_low ((stageOn_iff _).mpr h) hs demand).trans (if_neg (Nat.not_le.mpr hd))
  · exact (judgeStage_high ((stageOn_iff _).mpr h) hs demand).trans (if_pos hd)
  · exact (judgeStage_high ((stageOn_iff _).mpr h) hs demand).trans (if_neg (Nat.not_lt.mpr hd))
  · rw [offerStage_eq (stagePayload_eq hv)]
    dsimp only
    rw [h]
    rfl
  · rw [offerStage_eq (stagePayload_eq hv)]
    dsimp only
    rw [refused_of_ne h]

end Sys2Proof.Machine
end

