-- ==== Sys2Proof/Proofs/StopsAndHalts.lean ====
section
/-! PROOFS. STOP and KEEP by the state of the axis (R74, R75), and a halt by it (R80), with the two expiries
that halt (R75, R77, R78). -/

namespace Sys2Proof.Machine

section
variable {c : Tables} {r : Run} {a : Fin 6}

/-! ### STOP (R74) -/

/-- A MOVING axis with a demand sent slews to zero. -/
theorem stopAxis_slews (h : r.axes[a].state = .moving) (hd : r.axes[a].sentDemand ≠ 0) :
    Run.stopAxis c r a = (r.endPlanOf a .stop).modAxis a fun x =>
      { x with state := .stopping, keepaliveTimer := none } := by
  unfold Run.stopAxis
  rw [h]
  dsimp only
  rw [endPlanOf_axes, if_neg hd]

/-- A MOVING axis with no demand sent comes to STILL at once. -/
theorem stopAxis_stands (h : r.axes[a].state = .moving) (hd : r.axes[a].sentDemand = 0) :
    Run.stopAxis c r a = Run.withdrawMotionCall c
      (((r.endPlanOf a .stop).modAxis a fun x =>
        { x with state := .still, keepaliveTimer := none, controlTimer := none
                 setPoint := none }).raise .moveEnded (a.val + 1) 1) a := by
  unfold Run.stopAxis
  rw [h]
  dsimp only
  rw [endPlanOf_axes, if_pos hd]
  rfl

theorem stopAxis_unlocking (h : r.axes[a].state = .unlocking) :
    Run.stopAxis c r a = Run.withdrawMotionCall c
      (((r.endPlanOf a .stop).modAxis a fun x =>
        { x with state := .still, keepaliveTimer := none, lockTimer := none
                 owed := { x.owed with unlock := false } }).raise .moveEnded (a.val + 1) 1) a := by
  unfold Run.stopAxis
  rw [h]
  rfl

theorem stopAxis_rests (hm : r.axes[a].state ≠ .moving) (hu : r.axes[a].state ≠ .unlocking) :
    Run.stopAxis c r a = r := by
  unfold Run.stopAxis
  cases hs : r.axes[a].state with
  | moving => exact absurd hs hm
  | unlocking => exact absurd hs hu
  | offline | locked | still | stopping | locking | halted => rfl

/-! ### KEEP (R75) -/

theorem requestKeep_bridge (h : r.axes[a].state = .moving ∨ r.axes[a].state = .unlocking)
    (ho : r.axes[a].origin = .bridge) : Run.requestKeep c r a =
      (r.modAxis a fun x => { x with keepaliveTimer := some (ms c.axes[a].keepalive) }, .ok, 0) := by
  unfold Run.requestKeep
  rcases h with h | h <;> rw [h] <;> exact if_pos ho

theorem requestKeep_panel (h : r.axes[a].state = .moving ∨ r.axes[a].state = .unlocking)
    (ho : r.axes[a].origin ≠ .bridge) : Run.requestKeep c r a = (r, .state, 8) := by
  unfold Run.requestKeep
  rcases h with h | h <;> rw [h] <;> exact if_neg ho

theorem requestKeep_ending (h : r.axes[a].state = .stopping ∨ r.axes[a].state = .locking) :
    Run.requestKeep c r a = (r, .ok, 0) := by
  unfold Run.requestKeep
  rcases h with h | h <;> rw [h]

theorem requestKeep_state (h : r.axes[a].state = .offline ∨ r.axes[a].state = .locked ∨
      r.axes[a].state = .still ∨ r.axes[a].state = .halted) :
    Run.requestKeep c r a = (r, .state, det r.axes[a].state.code) := by
  unfold Run.requestKeep
  rcases h with h | h | h | h <;> rw [h]

/-! ### Halts (R80) -/

/-- A cause stands at its bit in the list of all of them. -/
theorem allCauses_bit (k : HaltCause) : allCauses[k.bit]? = some k := by cases k <;> rfl

theorem bit_lt (k : HaltCause) : k.bit < 9 := (List.getElem?_eq_some_iff.mp (allCauses_bit k)).1

theorem bit_eq_iff (j k : HaltCause) : k.bit = j.bit ↔ j = k := by
  refine ⟨fun h => ?_, fun h => h ▸ rfl⟩
  have hj := allCauses_bit j
  rw [← h, allCauses_bit k] at hj
  exact (Option.some.inj hj).symm

/-- The set of one cause holds that cause alone. -/
theorem setOf_cause_has (j k : HaltCause) : (setOf k.bit : BitVec 9).getLsbD j.bit = (j == k) := by
  rw [setOf, BitVec.getLsbD_twoPow, decide_eq_true (bit_lt k), Bool.true_and, beq_eq_decide]
  exact decide_eq_decide.mpr (bit_eq_iff j k)

theorem setUnion_cause_has (s : BitVec 9) (j k : HaltCause) :
    (setUnion s (setOf k.bit)).getLsbD j.bit = (s.getLsbD j.bit || j == k) := by
  rw [setUnion, BitVec.getLsbD_or, setOf_cause_has]

theorem halt_offline (h : r.axes[a].state = .offline) (k : HaltCause) : Run.halt c r a k = r := by
  unfold Run.halt
  rw [h]

theorem halt_halted (h : r.axes[a].state = .halted) (k : HaltCause) :
    Run.halt c r a k = (r.modAxis a fun x =>
      { x with causes := setUnion r.axes[a].causes (setOf k.bit) }).raise .axisHalted (a.val + 1)
        (det (k.bit + 1)) := by
  unfold Run.halt
  rw [h]
  exact congrArg (Run.raise · _ _ _) (r.modAxis_congr a rfl)

theorem halt_fresh (ho : r.axes[a].state ≠ .offline) (hh : r.axes[a].state ≠ .halted) (k : HaltCause) :
    Run.halt c r a k = Run.haltFresh c r a k := by
  unfold Run.halt
  cases hs : r.axes[a].state with
  | offline => exact absurd hs ho
  | halted => exact absurd hs hh
  | locked | unlocking | still | moving | stopping | locking => rfl

theorem haltStage_eq (c : Tables) (r : Run) (a : Fin 6) : Run.haltStage c r a =
    if stageOn c.axes[a] = true ∧ r.axes[a].stage = .high then
      Run.offerStage c (r.modAxis a fun x => { x with stage := .low }) a else r :=
  if_congr (by rw [Bool.and_eq_true, beq_iff_eq]) rfl rfl

/-! ### The two expiries that halt (R75, R77, R78) -/

theorem keepaliveExpired_halts (h : r.axes[a].state = .unlocking ∨ r.axes[a].state = .moving) :
    Run.keepaliveExpired c r a =
      Run.halt c (r.modAxis a fun x => { x with keepaliveTimer := none }) a .keepalive := by
  have hs : (r.modAxis a fun x => { x with keepaliveTimer := none }).axes[a].state = r.axes[a].state := by
    rw [Run.modAxis_self]
  unfold Run.keepaliveExpired
  rcases h with h | h <;> rw [h] at hs <;> dsimp only <;> rw [hs]

theorem keepaliveExpired_rests (hu : r.axes[a].state ≠ .unlocking) (hm : r.axes[a].state ≠ .moving) :
    Run.keepaliveExpired c r a = r.modAxis a fun x => { x with keepaliveTimer := none } := by
  unfold Run.keepaliveExpired
  dsimp only
  rw [Run.modAxis_self]
  cases hs : r.axes[a].state with
  | unlocking => exact absurd hs hu
  | moving => exact absurd hs hm
  | offline | locked | still | stopping | locking | halted => rfl

theorem lockExpired_unlocking (h : r.axes[a].state = .unlocking) : Run.lockExpired c r a =
    Run.halt c (r.modAxis a fun x => { x with lockTimer := none }) a .unlockTimeout := by
  unfold Run.lockExpired
  dsimp only
  rw [Run.modAxis_self, h]

theorem lockExpired_locking (h : r.axes[a].state = .locking) : Run.lockExpired c r a =
    Run.halt c (r.modAxis a fun x => { x with lockTimer := none }) a .lockTimeout := by
  unfold Run.lockExpired
  dsimp only
  rw [Run.modAxis_self, h]

theorem lockExpired_rests (hu : r.axes[a].state ≠ .unlocking) (hl : r.axes[a].state ≠ .locking) :
    Run.lockExpired c r a = r.modAxis a fun x => { x with lockTimer := none } := by
  unfold Run.lockExpired
  dsimp only
  rw [Run.modAxis_self]
  cases hs : r.axes[a].state with
  | unlocking => exact absurd hs hu
  | locking => exact absurd hs hl
  | offline | locked | still | moving | stopping | halted => rfl

end

/-! ### The commands -/

section
variable {s : State} {dst : Word} {a : Fin 6} (h : Reaches s dst (.axis a)) (src : Word) (tag : Byte)
include h

theorem exec_stop : exec (.stop src dst tag []) s =
    answered s (Run.stopAxis s.cfg s.run a) { src, dst, tag } (.ok, 0) [] :=
  requested_reaches h src tag 0x02#8 (Nat.zero_le _)

theorem exec_keep : exec (.keep src dst tag []) s =
    (let o := Run.requestKeep s.cfg s.run a
     answered s o.1 { src, dst, tag } o.2 []) :=
  requested_reaches h src tag 0x03#8 (Nat.zero_le _)

end

theorem exec_keepaliveExpiry (s : State) (a : Fin 6) : exec (.keepaliveExpiry a) s =
    s.expiry s.run.axes[a].keepaliveTimer.isSome fun c r => Run.keepaliveExpired c r a := rfl

theorem exec_lockTimerExpiry (s : State) (a : Fin 6) : exec (.lockTimerExpiry a) s =
    s.expiry s.run.axes[a].lockTimer.isSome fun c r => Run.lockExpired c r a := rfl

/-- Settles O32: each request by the state it finds the axis in. -/
theorem stopAndKeepByState : Obligations.StopAndKeepByState := by
  intro s src dst tag a h c r x stopped kept ended
  have stops : ∀ {u}, Run.stopAxis c r a = u → stopped u := fun hu => hu ▸ exec_stop h src tag
  have keeps : ∀ {u v}, Run.requestKeep c r a = (u, v) → kept u v := fun hu =>
    (exec_keep h src tag).trans (by rw [hu])
  exact ⟨fun hs hd => stops (stopAxis_slews hs hd), fun hs hd => stops (stopAxis_stands hs hd),
    fun hs => stops (stopAxis_unlocking hs), fun hm hu => stops (stopAxis_rests hm hu),
    fun hs => ⟨fun ho => keeps (requestKeep_bridge hs ho), fun ho => keeps (requestKeep_panel hs ho)⟩,
    fun hs => keeps (requestKeep_ending hs), fun hs => keeps (requestKeep_state hs)⟩

/-- Settles O35: a halt by the state of the axis, and the expiries by their timer and that state. -/
theorem haltsLatchTheirCause : Obligations.HaltsLatchTheirCause := by
  refine ⟨fun c r a k => ⟨(halt_offline · k), fun hs => ?_, fun ho hh => ?_⟩, fun s a => ?_⟩
  · exact ⟨_, (setUnion_cause_has _ · k), halt_halted hs k⟩
  · refine ⟨setOf k.bit, (setOf_cause_has · k), ?_⟩
    dsimp only
    rw [halt_fresh ho hh, ← haltStage_eq]
    rfl
  · intro x c kept unlocked
    rw [exec_keepaliveExpiry, exec_lockTimerExpiry]
    refine ⟨expiry_stopped _, fun ht => ⟨fun hs => ?_, fun hu hm => ?_⟩, expiry_stopped _,
      fun ht => ⟨fun hs => ?_, fun hs => ?_, fun hu hl => ?_⟩⟩
    · rw [expiry_running _ ht, keepaliveExpired_halts hs]
    · rw [expiry_running _ ht, keepaliveExpired_rests hu hm]
    · rw [expiry_running _ ht, lockExpired_unlocking hs]
    · rw [expiry_running _ ht, lockExpired_locking hs]
    · rw [expiry_running _ ht, lockExpired_rests hu hl]

end Sys2Proof.Machine
end

