-- ==== Sys2Proof/Proofs/AxisRequests.lean ====
section
/-! PROOFS. RELEASE (R84), TAKE and GRANT_LOCAL (R86), DERATE and the effective derate (R76). -/

namespace Sys2Proof.Machine

/-! ### The masks of drive flags (R82, log 7) -/

theorem maskHas_add_two (mask : BitVec 6) (k : Nat) : maskHas mask (k + 2) = mask.getLsbD k := by
  simp [maskHas]

theorem maskHas_low (mask : BitVec 6) {k : Nat} (h : k < 2) : maskHas mask k = false := by
  rw [maskHas, decide_eq_false (Nat.not_le.mpr h), Bool.false_and]

section
variable {c : Tables} {r : Run} {a : Fin 6}

/-! ### The conditions of RELEASE (R84) -/

theorem causeClears_overload : causeClears c r a .overload = true ↔
    ∀ d, r.axes[a].latest = some d → d.pressure ≤ c.axes[a].overloadLimit := by
  unfold causeClears
  cases r.axes[a].latest <;> simp

/-- A flag of the halt mask that is active holds the cause. -/
theorem causeClears_driveFlag : causeClears c r a .driveFlag = true ↔
    ∀ d, r.axes[a].latest = some d → ∀ k : Fin 6,
      ¬(c.axes[a].haltMask.getLsbD k.val = true ∧ d.flags.getLsbD (k.val + 2) = true) := by
  have hall : causeClears c r a .driveFlag = true ↔ ∀ k < 8,
      ¬(maskHas c.axes[a].haltMask k = true ∧ (latestFlags r.axes[a]).getLsbD k = true) := by
    simp only [causeClears, setHas, List.all_eq_true, List.mem_range, Bool.not_eq_true',
      ← Bool.not_eq_true, Bool.and_eq_true]
  have hflags : ∀ d, r.axes[a].latest = some d → latestFlags r.axes[a] = d.flags := fun d hd => by
    rw [latestFlags, hd]
  rw [hall]
  constructor
  · intro h d hd k
    have := h (k.val + 2) (by omega)
    rwa [maskHas_add_two, hflags d hd] at this
  · rintro h k hk ⟨hm, hf⟩
    cases hd : r.axes[a].latest with
    | none =>
      rw [latestFlags, hd] at hf
      exact absurd hf (by simp)
    | some d =>
      obtain hlow | ⟨i, rfl⟩ : k < 2 ∨ ∃ i, k = i + 2 := by
        by_cases hlow : k < 2
        · exact .inl hlow
        · exact .inr ⟨k - 2, by omega⟩
      · rw [maskHas_low _ hlow] at hm
        cases hm
      · rw [maskHas_add_two] at hm
        rw [hflags d hd] at hf
        exact h d hd ⟨i, by omega⟩ ⟨hm, hf⟩

/-- Taking causes out of a set, one by one. -/
theorem foldl_setDiff_has (p : HaltCause → Bool) (j : HaltCause) (l : List HaltCause) (s : BitVec 9) :
    (l.foldl (fun s k => if p k then setDiff s (setOf k.bit) else s) s).getLsbD j.bit =
      (s.getLsbD j.bit && !(decide (j ∈ l) && p j)) := by
  induction l generalizing s with
  | nil => simp
  | cons k l ih =>
    rw [List.foldl_cons, ih]
    have hdiff : (setDiff s (setOf k.bit)).getLsbD j.bit = (s.getLsbD j.bit && !(j == k)) := by
      rw [setDiff, BitVec.getLsbD_and, BitVec.getLsbD_not, setOf_cause_has, decide_eq_true (bit_lt j),
        Bool.true_and]
    by_cases hk : j = k
    · subst hk
      cases hp : p j <;> simp [hdiff]
    · have hne : (j == k) = false := beq_eq_false_iff_ne.mpr hk
      cases hp : p k <;> simp [hdiff, hne, hk]

/-- RELEASE leaves the causes whose condition does not hold. -/
theorem causesLeft_has (k : HaltCause) : (causesLeft c r a).getLsbD k.bit = true ↔
    r.axes[a].causes.getLsbD k.bit = true ∧ ¬causeClears c r a k = true := by
  have hk : k ∈ allCauses := List.mem_of_getElem? (allCauses_bit k)
  unfold causesLeft
  rw [foldl_setDiff_has, decide_eq_true hk, Bool.true_and, Bool.and_eq_true, Bool.not_eq_true',
    Bool.not_eq_true]

theorem requestRelease_state (h : r.axes[a].state ≠ .halted) :
    Run.requestRelease c r a = (r, .state, det r.axes[a].state.code) := by
  unfold Run.requestRelease
  cases hs : r.axes[a].state with
  | halted => exact absurd hs h
  | offline | locked | unlocking | still | moving | stopping | locking => rfl

theorem requestRelease_left (h : r.axes[a].state = .halted) (hl : causesLeft c r a ≠ 0) :
    Run.requestRelease c r a = (r.modAxis a fun x => { x with causes := causesLeft c r a },
      .interlock, (causesLeft c r a).zeroExtend 16) := by
  unfold Run.requestRelease
  rw [h]
  exact if_neg hl

theorem requestRelease_done (h : r.axes[a].state = .halted) (hl : causesLeft c r a = 0) :
    Run.requestRelease c r a = ((r.modAxis a fun x =>
      { x with causes := 0, state := if latestEngaged x then .locked else .still }).raise
        .axisReleased (a.val + 1) 0, .ok, 0) := by
  unfold Run.requestRelease
  rw [h]
  exact if_pos hl

/-! ### The control station (R86) -/

theorem not_inMotion (h : ¬InMotion r.axes[a]) : ¬r.axes[a].state.inMotion = true :=
  fun hm => h ((inMotion_iff _).mp hm)

theorem setControl_same {k : Control} (h : r.axes[a].control = k) : r.setControl a k = r := if_pos h

theorem setControl_other {k : Control} (h : r.axes[a].control ≠ k) :
    r.setControl a k = (r.modAxis a fun x => { x with control := k }).raise .controlChange (a.val + 1)
      (det k.code) := if_neg h

theorem requestTake_service (h : InService r) : r.requestTake a = (r, .interlock, 5) := if_pos h

theorem requestTake_moving (hs : ¬InService r) (h : InMotion r.axes[a]) :
    r.requestTake a = (r, .busy, det r.axes[a].state.code) :=
  (if_neg hs).trans (if_pos ((inMotion_iff _).mpr h))

theorem requestTake_rest (hs : ¬InService r) (h : ¬InMotion r.axes[a]) :
    r.requestTake a = (r.setControl a .bridge, .ok, 0) :=
  (if_neg hs).trans (if_neg (not_inMotion h))

theorem requestGrant_noPanel (h : c.axes[a].panel = none) :
    Run.requestGrant c r a = (r, .state, 9) := if_pos (Option.isNone_iff_eq_none.mpr h)

theorem requestGrant_moving (hp : c.axes[a].panel ≠ none) (h : InMotion r.axes[a]) :
    Run.requestGrant c r a = (r, .busy, det r.axes[a].state.code) :=
  (if_neg fun hn => hp (Option.isNone_iff_eq_none.mp hn)).trans (if_pos ((inMotion_iff _).mpr h))

theorem requestGrant_rest (hp : c.axes[a].panel ≠ none) (h : ¬InMotion r.axes[a]) :
    Run.requestGrant c r a = (r.setControl a .localPanel, .ok, 0) :=
  (if_neg fun hn => hp (Option.isNone_iff_eq_none.mp hn)).trans (if_neg (not_inMotion h))

/-! ### The effective derate (R76) -/

/-- The least of a start value and the values of a list. -/
theorem foldl_min_spec {α : Type} (f : α → Nat) (l : List α) (d : Nat) :
    let e := l.foldl (fun d m => min d (f m)) d
    e ≤ d ∧ (∀ m ∈ l, e ≤ f m) ∧ (e = d ∨ ∃ m ∈ l, e = f m) := by
  induction l generalizing d with
  | nil => exact ⟨Nat.le_refl d, nofun, .inl rfl⟩
  | cons x l ih =>
    obtain ⟨hd, hl, he⟩ := ih (min d (f x))
    dsimp only [List.foldl_cons] at *
    refine ⟨hd.trans (Nat.min_le_left _ _), fun m hm => ?_, ?_⟩
    · obtain rfl | hm := List.mem_cons.mp hm
      · exact hd.trans (Nat.min_le_right _ _)
      · exact hl m hm
    · obtain he | ⟨m, hm, he⟩ := he
      · obtain hmin | hmin := Nat.le_total d (f x)
        · exact .inl (he.trans (Nat.min_eq_left hmin))
        · exact .inr ⟨x, List.mem_cons_self, he.trans (Nat.min_eq_right hmin)⟩
      · exact .inr ⟨m, List.mem_cons_of_mem x hm, he⟩

theorem monitorDerate_named {x : MonitorRt} {v : Nat} {k : AxisSet} (h : x.derate = some (v, k))
    (hk : k.getLsbD a.val = true) : monitorDerate x a = v := by
  unfold monitorDerate
  rw [h]
  exact if_pos hk

/-- A monitor gives its derate to the axes of its set, and 256 to every other one. -/
theorem monitorDerate_cases (x : MonitorRt) (a : Fin 6) : monitorDerate x a = 256 ∨
    ∃ k : AxisSet, x.derate = some (monitorDerate x a, k) ∧ k.getLsbD a.val = true := by
  cases hd : x.derate with
  | none => exact .inl (by rw [monitorDerate, hd])
  | some d =>
    obtain ⟨v, k⟩ := d
    cases hk : k.getLsbD a.val with
    | true => exact .inr ⟨k, by rw [monitorDerate_named hd hk], hk⟩
    | false =>
      left
      unfold monitorDerate
      rw [hd]
      exact if_neg (Bool.eq_false_iff.mp hk)

/-- The effective derate is the least of 256, the bridge derate and the monitors' derates. -/
theorem effectiveDerate_least (r : Run) (a : Fin 6) :
    effectiveDerate r a ≤ 256 ∧ effectiveDerate r a ≤ r.axes[a].bridgeDerate ∧
      (∀ (m : Fin 16) v k, r.monitors[m].derate = some (v, k) → k.getLsbD a.val = true →
        effectiveDerate r a ≤ v) ∧
      (effectiveDerate r a = 256 ∨ effectiveDerate r a = r.axes[a].bridgeDerate ∨
        ∃ (m : Fin 16) (k : AxisSet), r.monitors[m].derate = some (effectiveDerate r a, k) ∧
          k.getLsbD a.val = true) := by
  obtain ⟨hd, hl, he⟩ := foldl_min_spec (fun m => monitorDerate m a) r.monitors.toList
    (min 256 r.axes[a].bridgeDerate)
  change effectiveDerate r a ≤ _ at hd
  change ∀ m ∈ r.monitors.toList, effectiveDerate r a ≤ monitorDerate m a at hl
  change effectiveDerate r a = _ ∨ ∃ m ∈ r.monitors.toList, effectiveDerate r a = monitorDerate m a at he
  refine ⟨hd.trans (Nat.min_le_left _ _), hd.trans (Nat.min_le_right _ _), fun m v k hm hk => ?_, ?_⟩
  · rw [← monitorDerate_named hm hk]
    exact hl _ (Vector.mem_toList_iff.mpr (Vector.getElem_mem m.isLt))
  · obtain he | ⟨x, hx, he⟩ := he
    · obtain hmin | hmin := Nat.le_total 256 r.axes[a].bridgeDerate
      · exact .inl (he.trans (Nat.min_eq_left hmin))
      · exact .inr (.inl (he.trans (Nat.min_eq_right hmin)))
    · obtain ⟨i, hi, rfl⟩ := Vector.getElem_of_mem (Vector.mem_toList_iff.mp hx)
      obtain h256 | ⟨k, hk, hb⟩ := monitorDerate_cases r.monitors[i] a
      · exact .inl (he.trans h256)
      · exact .inr (.inr ⟨⟨i, hi⟩, k, by rw [he]; exact hk, hb⟩)

end

/-! ### The commands -/

section
variable {s : State} {dst : Word} {a : Fin 6} (h : Reaches s dst (.axis a)) (src : Word) (tag : Byte)
include h

theorem exec_release {u : Run} {v : Verdict} (ho : Run.requestRelease s.cfg s.run a = (u, v)) :
    exec (.release src dst tag []) s = answered s u { src, dst, tag } v [] := by
  refine (requested_reaches h src tag 0x04#8 (Nat.zero_le _)).trans ?_
  show answered s (Run.requestRelease s.cfg s.run a).1 _ (Run.requestRelease s.cfg s.run a).2 [] = _
  rw [ho]

theorem exec_take {u : Run} {v : Verdict} (ho : s.run.requestTake a = (u, v)) :
    exec (.take src dst tag []) s = answered s u { src, dst, tag } v [] := by
  refine (requested_reaches h src tag 0x05#8 (Nat.zero_le _)).trans ?_
  show answered s (s.run.requestTake a).1 _ (s.run.requestTake a).2 [] = _
  rw [ho]

theorem exec_grantLocal {u : Run} {v : Verdict} (ho : Run.requestGrant s.cfg s.run a = (u, v)) :
    exec (.grantLocal src dst tag []) s = answered s u { src, dst, tag } v [] := by
  refine (requested_reaches h src tag 0x06#8 (Nat.zero_le _)).trans ?_
  show answered s (Run.requestGrant s.cfg s.run a).1 _ (Run.requestGrant s.cfg s.run a).2 [] = _
  rw [ho]

theorem exec_derate {v : Nat} (hv : v < 65536) : exec (.derate src dst tag (b2 v)) s =
    answered s (s.run.modAxis a fun x => { x with bridgeDerate := min 256 v }) { src, dst, tag }
      (if v ≤ 256 then (.ok, 0) else (.clamped, 1)) [] := by
  refine (requested_reaches h src tag 0x07#8 (show (b2 v).length ≤ 239 from Nat.le_add_left 2 237)).trans ?_
  have hf : functionRequest s.cfg s.run (.axis a) (0x07#8).toNat (b2 v) =
      plain (s.run.requestDerate a v) :=
    withForm_reads ((reads_nat2 (lo := 0) (hi := 65535) (by simp [within]; omega) hv).fld) s.run _
  rw [hf]
  rfl

end

/-- Settles O33: RELEASE by the causes it leaves, TAKE and GRANT_LOCAL by motion and station, and the
derate as the least of its terms. -/
theorem releaseTakeGrantAndDerate : Obligations.ReleaseTakeGrantAndDerate := by
  intro s src dst tag a h c r x req clears
  have hclears : ∀ k, causeClears c r a k = true ↔ clears k := fun k => by
    cases k with
    | estop =>
      rw [causeClears, Bool.not_eq_true', ← Bool.not_eq_true]
      exact Iff.rfl
    | fire =>
      rw [causeClears, Bool.not_eq_true', ← Bool.not_eq_true]
      exact not_congr (fireHolds_iff c r a)
    | node => exact beq_iff_eq
    | overload => exact causeClears_overload
    | driveFlag => exact causeClears_driveFlag
    | prereq => exact prereqsMet_iff c r a
    | keepalive | unlockTimeout | lockTimeout => exact iff_of_true rfl trivial
  refine ⟨fun hs => exec_release h src tag (requestRelease_state hs),
    fun hs => ⟨causesLeft c r a, fun k => (causesLeft_has k).trans (and_congr_right' (not_congr (hclears k))),
      fun hl => exec_release h src tag (requestRelease_left hs hl),
      fun hl => exec_release h src tag (requestRelease_done hs hl)⟩,
    fun hs => exec_take h src tag (requestTake_service hs),
    fun hs hm => exec_take h src tag (requestTake_moving hs hm), fun hs hm => ⟨fun hc => ?_, fun hc => ?_⟩,
    fun hp => exec_grantLocal h src tag (requestGrant_noPanel hp),
    fun hp hm => exec_grantLocal h src tag (requestGrant_moving hp hm),
    fun hp hm => ⟨fun hc => ?_, fun hc => ?_⟩, fun v hv => exec_derate h src tag hv,
    effectiveDerate_least r a⟩
  · have ho := requestTake_rest hs hm
    rw [setControl_same hc] at ho
    exact exec_take h src tag ho
  · have ho := requestTake_rest hs hm
    rw [setControl_other (by rw [hc]; decide)] at ho
    exact exec_take h src tag ho
  · have ho := requestGrant_rest hp hm
    rw [setControl_same hc] at ho
    exact exec_grantLocal h src tag ho
  · have ho := requestGrant_rest hp hm
    rw [setControl_other (by rw [hc]; decide)] at ho
    exact exec_grantLocal h src tag ho

end Sys2Proof.Machine
end

