-- ==== Sys2Proof/Proofs/ControlPeriods.lean ====
section
/-! PROOFS. CONTROL_PERIOD_EXPIRY (R94): arrival (R78, R98), the slewed demand (R99 to R103) and the end of a
slew (R100), by the state of the axis. -/

namespace Sys2Proof.Machine

/-- The runtime in which the computation runs: the control timer has run out (R94). -/
def controlStopped (r : Run) (a : Fin 6) : Run := r.modAxis a fun x => { x with controlTimer := none }

/-- An axis that the end of a move leaves in a state, with its two move timers stopped. -/
def moveEnds (r : Run) (a : Fin 6) (s : AxisState) : Run :=
  r.modAxis a fun x => { x with controlTimer := none, keepaliveTimer := none, state := s }

/-- The end of a slew at STILL, with its cause (R100). -/
def slewEnded (c : Tables) (r : Run) (a : Fin 6) (cause : Nat) : Run :=
  Run.withdrawMotionCall c ((moveEnds r a .still).raise .moveEnded (a.val + 1) (det cause)) a

section
variable {c : Tables} {r : Run} {a : Fin 6}

/-! ### What the computation reads -/

theorem controlStopped_self (r : Run) (a : Fin 6) :
    (controlStopped r a).axes[a] = { r.axes[a] with controlTimer := none } := Run.modAxis_self ..

theorem controlStopped_target (r : Run) (a : Fin 6) :
    (controlStopped r a).axes[a].target = r.axes[a].target := by rw [controlStopped_self]

theorem controlStopped_sentDemand (r : Run) (a : Fin 6) :
    (controlStopped r a).axes[a].sentDemand = r.axes[a].sentDemand := by rw [controlStopped_self]

theorem controlStopped_latestPosition (r : Run) (a : Fin 6) :
    latestPosition (controlStopped r a).axes[a] = latestPosition r.axes[a] := by
  rw [controlStopped_self]
  rfl

theorem controlStopped_derate (r : Run) (a : Fin 6) :
    effectiveDerate (controlStopped r a) a = effectiveDerate r a := by
  unfold effectiveDerate
  rw [controlStopped_self]
  rfl

theorem controlStopped_cappedSpeed (c : Tables) (r : Run) (a : Fin 6) :
    cappedSpeed c (controlStopped r a) a = cappedSpeed c r a := by
  unfold cappedSpeed
  rw [controlStopped_derate, controlStopped_latestPosition, controlStopped_target]
  rfl

/-- The demand that the approach and slew stages give (R98, R99). -/
def movedDemand (c : Tables) (r : Run) (a : Fin 6) : Int :=
  slewDemand c.axes[a].acc r.axes[a].sentDemand
    (wantedDemand c.axes[a] (latestPosition r.axes[a]) r.axes[a].target (cappedSpeed c r a))

/-- The demand one step closer to zero (R94). -/
def slowedDemand (c : Tables) (r : Run) (a : Fin 6) : Int :=
  slewDemand c.axes[a].acc r.axes[a].sentDemand 0

theorem controlStopped_movedDemand (c : Tables) (r : Run) (a : Fin 6) :
    movedDemand c (controlStopped r a) a = movedDemand c r a := by
  unfold movedDemand
  rw [controlStopped_cappedSpeed, controlStopped_latestPosition, controlStopped_target,
    controlStopped_sentDemand]

theorem controlStopped_slowedDemand (c : Tables) (r : Run) (a : Fin 6) :
    slowedDemand c (controlStopped r a) a = slowedDemand c r a := by
  unfold slowedDemand
  rw [controlStopped_sentDemand]

/-! ### The parts of the computation -/

/-- The axis goes on from arrival to STILL (R78). -/
theorem arrive_still (h : (Run.emitDemand c r a 0).axes[a].lockAtEnd = false) :
    Run.arrive c r a = Run.moveDone c (moveEnds (Run.emitDemand c r a 0) a .still) a := by
  unfold Run.arrive
  dsimp only
  rw [Run.modAxis_self, if_neg (Bool.eq_false_iff.mp h), Run.modAxis_modAxis]
  rfl

/-- The axis goes on from arrival to LOCKING (R78). -/
theorem arrive_locking (h : (Run.emitDemand c r a 0).axes[a].lockAtEnd = true) :
    Run.arrive c r a = Run.offerLock c
      ((Run.emitDemand c r a 0).modAxis a fun x =>
        { x with controlTimer := none, keepaliveTimer := none, state := .locking
                 lockTimer := some (sec c.axes[a].lockTimeout) }) a := by
  unfold Run.arrive
  dsimp only
  rw [Run.modAxis_self, if_pos h, Run.modAxis_modAxis]

theorem endSlew_stopped : Run.endSlew c r a 1 = slewEnded c r a 1 := rfl

theorem endSlew_derated : Run.endSlew c r a 2 = (slewEnded c r a 2).endPlanOf a .derate := rfl

theorem computeSlew_ends (hc : cappedSpeed c r a = 0) (hd : movedDemand c r a = 0) :
    Run.computeSlew c r a = Run.emitDemand c ((slewEnded c r a 2).endPlanOf a .derate) a 0 := by
  show Run.emitDemand c (if cappedSpeed c r a = 0 ∧ movedDemand c r a = 0 then Run.endSlew c r a 2
    else Run.restartControl c r a) a (movedDemand c r a) = _
  rw [if_pos ⟨hc, hd⟩, hd, endSlew_derated]

theorem computeSlew_goes (h : ¬(cappedSpeed c r a = 0 ∧ movedDemand c r a = 0)) :
    Run.computeSlew c r a = Run.emitDemand c (Run.restartControl c r a) a (movedDemand c r a) := by
  show Run.emitDemand c (if cappedSpeed c r a = 0 ∧ movedDemand c r a = 0 then Run.endSlew c r a 2
    else Run.restartControl c r a) a (movedDemand c r a) = _
  rw [if_neg h]

theorem computeStopping_ends (h : slowedDemand c r a = 0) :
    Run.computeStopping c r a = Run.emitDemand c (slewEnded c r a 1) a 0 := by
  show Run.emitDemand c (if slowedDemand c r a = 0 then Run.endSlew c r a 1
    else Run.restartControl c r a) a (slowedDemand c r a) = _
  rw [if_pos h, h, endSlew_stopped]

theorem computeStopping_goes (h : slowedDemand c r a ≠ 0) : Run.computeStopping c r a =
    Run.emitDemand c (Run.restartControl c r a) a (slowedDemand c r a) := by
  show Run.emitDemand c (if slowedDemand c r a = 0 then Run.endSlew c r a 1
    else Run.restartControl c r a) a (slowedDemand c r a) = _
  rw [if_neg h]

/-! ### The expiry by the state of the axis (R94) -/

theorem controlExpired_arrives (hs : r.axes[a].state = .moving)
    (h : (r.axes[a].target - latestPosition r.axes[a]).natAbs ≤ c.axes[a].deadband) :
    Run.controlExpired c r a = Run.arrive c (controlStopped r a) a := by
  unfold Run.controlExpired
  dsimp only
  rw [Run.modAxis_self, hs]
  exact if_pos (decide_eq_true h)

theorem controlExpired_slews (hs : r.axes[a].state = .moving)
    (h : c.axes[a].deadband < (r.axes[a].target - latestPosition r.axes[a]).natAbs) :
    Run.controlExpired c r a = Run.computeSlew c (controlStopped r a) a := by
  unfold Run.controlExpired
  dsimp only
  rw [Run.modAxis_self, hs]
  exact if_neg fun ha => Nat.not_le.mpr h (of_decide_eq_true ha)

theorem controlExpired_stopping (hs : r.axes[a].state = .stopping) :
    Run.controlExpired c r a = Run.computeStopping c (controlStopped r a) a := by
  unfold Run.controlExpired
  dsimp only
  rw [Run.modAxis_self, hs]
  rfl

theorem controlExpired_rests (hm : r.axes[a].state ≠ .moving) (hs : r.axes[a].state ≠ .stopping) :
    Run.controlExpired c r a = controlStopped r a := by
  unfold Run.controlExpired
  dsimp only
  rw [Run.modAxis_self]
  cases h : r.axes[a].state with
  | moving => exact absurd h hm
  | stopping => exact absurd h hs
  | offline | locked | unlocking | still | locking | halted => rfl

end

theorem controlPeriodExpiry_running {s : State} {a : Fin 6} {r : Run}
    (h : s.run.axes[a].controlTimer.isSome = true) (hr : Run.controlExpired s.cfg s.run a = r) :
    exec (.controlPeriodExpiry a) s = closed s r := by
  rw [← hr]
  exact expiry_running (fun c r => Run.controlExpired c r a) h

/-- Settles O39: the computation by the state of the axis, read where its timer has run out. -/
theorem controlPeriodsComputeTheDemand : Obligations.ControlPeriodsComputeTheDemand := by
  intro s a c k x pos r emit rest again cap moved slowed ended
  have hcap : cappedSpeed c r a = cap := controlStopped_cappedSpeed c s.run a
  have hmoved : movedDemand c r a = moved := controlStopped_movedDemand c s.run a
  have hslowed : slowedDemand c r a = slowed := controlStopped_slowedDemand c s.run a
  refine ⟨expiry_stopped fun c r => Run.controlExpired c r a, fun ht =>
    ⟨fun hs hn => ?_, fun hs hf => ?_, fun hs => ?_, fun hm hs =>
      controlPeriodExpiry_running ht (controlExpired_rests hm hs)⟩⟩
  · have harr : Run.controlExpired s.cfg s.run a = Run.arrive c r a := controlExpired_arrives hs hn
    exact ⟨fun hl => controlPeriodExpiry_running ht (harr.trans (arrive_still hl)),
      fun hl => controlPeriodExpiry_running ht (harr.trans (arrive_locking hl))⟩
  · have hslew : Run.controlExpired s.cfg s.run a = Run.computeSlew c r a := controlExpired_slews hs hf
    refine ⟨fun hc hd => controlPeriodExpiry_running ht
      (hslew.trans (computeSlew_ends (hcap.trans hc) (hmoved.trans hd))), fun hn => ?_⟩
    rw [← hcap, ← hmoved] at hn
    have hgoes := computeSlew_goes hn
    rw [hmoved] at hgoes
    exact controlPeriodExpiry_running ht (hslew.trans hgoes)
  · have hstop : Run.controlExpired s.cfg s.run a = Run.computeStopping c r a :=
      controlExpired_stopping hs
    refine ⟨fun hd => controlPeriodExpiry_running ht
      (hstop.trans (computeStopping_ends (hslowed.trans hd))), fun hn => ?_⟩
    have hgoes := computeStopping_goes (c := c) (r := r) (a := a) (hslowed ▸ hn)
    rw [hslowed] at hgoes
    exact controlPeriodExpiry_running ht (hstop.trans hgoes)

end Sys2Proof.Machine
end

