-- ==== Sys2Proof/Proofs/DriveReplies.lean ====
section
/-! PROOFS. A good drive reply (R70): the record (R67, R85), the flags (R82), overload (R104), the lock flags
(R69, R77, R78), each by what the axis is in. -/

namespace Sys2Proof.Machine

section
variable {c : Tables} {r : Run} {a : Fin 6} {d : DriveStatus}

/-! ### The record (R67, R85) -/

theorem recordReply_stays (h : r.axes[a].state ≠ .offline ∨ c.axes[a].configured = false) :
    Run.recordReply c r a d = r.modAxis a fun x => { x with latest := some d } := by
  unfold Run.recordReply
  dsimp only
  rw [Run.modAxis_self]
  refine if_neg fun hb => ?_
  rw [Bool.and_eq_true, decide_eq_true_eq] at hb
  obtain ⟨hs, hc⟩ := hb
  exact h.elim (· hs) fun hn => Bool.false_ne_true (hn.symm.trans hc)

/-- The axis as its first reply after OFFLINE leaves it, before the halt of an axis that was active. -/
def axisBack (r : Run) (a : Fin 6) (d : DriveStatus) : Run :=
  r.modAxis a fun x =>
    { x with latest := some d, wasActive := false, state := if d.flags.getLsbD 0 then .locked else .still }

theorem recordReply_back (hs : r.axes[a].state = .offline) (hc : c.axes[a].configured = true) :
    Run.recordReply c r a d = if r.axes[a].wasActive then Run.halt c (axisBack r a d) a .node
      else axisBack r a d := by
  unfold Run.recordReply
  dsimp only
  rw [Run.modAxis_self, if_pos (by rw [hs, hc]; rfl), Run.modAxis_modAxis]
  rfl

/-! ### The flags (R82) -/

theorem setHas_setDiff {n : Nat} (p q : BitVec n) (k : Nat) :
    setHas (setDiff p q) k = true ↔ p.getLsbD k = true ∧ q.getLsbD k = false := by
  unfold setHas setDiff
  rw [BitVec.getLsbD_and, BitVec.getLsbD_not, Bool.and_eq_true]
  refine and_congr_right fun hp => ?_
  rw [decide_eq_true (BitVec.lt_of_getLsbD hp), Bool.true_and, Bool.not_eq_true']

/-- The flags that have turned active are judged one by one. -/
theorem judgeFlags_eq (q : BitVec 8) : Run.judgeFlags c r a (setDiff d.flags q) =
    (List.range 8).foldl (fun r k =>
      if d.flags.getLsbD k = true ∧ q.getLsbD k = false then Run.judgeFlag c r a k else r) r :=
  congrArg (fun f => (List.range 8).foldl f r) <| funext fun _ => funext fun k =>
    if_congr (setHas_setDiff d.flags q k) rfl rfl

theorem judgeFlag_eq {k : Nat} {halts notes : Bool} (hh : maskHas c.axes[a].haltMask k = halts)
    (hn : maskHas c.axes[a].noteMask k = notes) : Run.judgeFlag c r a k =
      if notes then (if halts then Run.halt c r a .driveFlag else r).raise .driveNote (axisNo a) (det k)
      else if halts then Run.halt c r a .driveFlag else r := by
  subst hh hn
  rfl

theorem judgeFlag_lock {k : Nat} (h : k < 2) : Run.judgeFlag c r a k = r :=
  judgeFlag_eq (maskHas_low _ h) (maskHas_low _ h)

/-! ### Overload (R104) -/

theorem judgeOverload_rests {p : Nat} (h : ¬InMotion r.axes[a] ∨ p ≤ c.axes[a].overloadLimit) :
    Run.judgeOverload c r a p = r := by
  refine if_neg fun hb => ?_
  rw [Bool.and_eq_true, decide_eq_true_eq, inMotion_iff] at hb
  obtain ⟨hm, hp⟩ := hb
  exact h.elim (· hm) (Nat.not_le.mpr hp)

theorem judgeOverload_over {p : Nat} (hm : InMotion r.axes[a]) (hp : c.axes[a].overloadLimit < p) :
    Run.judgeOverload c r a p =
      if c.axes[a].stallVelocity < r.axes[a].sentDemand.natAbs then Run.halt c r a .overload
      else if r.axes[a].overloadNoted then r
      else (r.modAxis a fun x => { x with overloadNoted := true }).raise .overloadNote (axisNo a)
        (det p) := by
  refine if_pos ?_
  rw [Bool.and_eq_true, decide_eq_true_eq, inMotion_iff]
  exact ⟨hm, hp⟩

/-! ### The lock flags (R69, R77, R78) -/

/-- A prerequisite looks at the other axis's latest reply, and at its state for OFFLINE alone. -/
theorem satisfied_modAxis {f : AxisRt → AxisRt} (hl : (f r.axes[a]).latest = r.axes[a].latest)
    (hs : (f r.axes[a]).state = .offline ↔ r.axes[a].state = .offline) (q : Option Prereq) :
    Satisfied (r.modAxis a f) q ↔ Satisfied r q := by
  refine forall₂_congr fun p _ => ?_
  by_cases h : p.axis = a
  · subst h
    rw [Run.modAxis_self, hl, ne_eq, ne_eq, hs]
  · rw [Run.modAxis_ne _ _ _ _ h]

/-- The axis as the released locks leave it (R77). -/
def unlocked (c : Tables) (r : Run) (a : Fin 6) : Run :=
  r.modAxis a fun x =>
    { x with state := .moving, lockTimer := none, owed := { x.owed with unlock := false }
             sentDemand := 0, controlTimer := some (ms c.axes[a].controlPeriod) }

theorem locksReleased_eq (h : r.axes[a].state = .unlocking) : Run.locksReleased c r a =
    if Satisfied r c.axes[a].prereq1 ∧ Satisfied r c.axes[a].prereq2 then unlocked c r a
    else Run.halt c (unlocked c r a) a .prereq := by
  refine if_congr ?_ rfl rfl
  have keeps : ∀ q, Satisfied (unlocked c r a) q ↔ Satisfied r q :=
    satisfied_modAxis (f := fun _ => _) rfl ⟨nofun, fun e => nomatch h.symm.trans e⟩
  exact (prereqsMet_iff c _ a).trans (and_congr (keeps _) (keeps _))

theorem judgeLocks_releases {p q : Bool} (h : r.axes[a].state = .unlocking)
    (hr : d.flags.getLsbD 1 = p) (he : d.flags.getLsbD 0 = q) : Run.judgeLocks c r a d =
      if p && !q then Run.locksReleased c r a else r := by
  subst hr he
  unfold Run.judgeLocks
  rw [h]
  rfl

theorem judgeLocks_locking (h : r.axes[a].state = .locking) : Run.judgeLocks c r a d =
    if d.flags.getLsbD 0 then Run.moveDone c (r.modAxis a fun x =>
      { x with state := .locked, lockTimer := none, owed := { x.owed with lock := false } }) a
    else r := by
  unfold Run.judgeLocks
  rw [h]
  rfl

theorem judgeLocks_rest (h : r.axes[a].state = .locked ∨ r.axes[a].state = .still) :
    Run.judgeLocks c r a d = r.modAxis a fun x =>
      { x with state := if d.flags.getLsbD 0 then .locked else .still } := by
  unfold Run.judgeLocks
  rcases h with h | h <;> rw [h] <;> rfl

theorem judgeLocks_none (h : r.axes[a].state = .offline ∨ r.axes[a].state = .moving ∨
    r.axes[a].state = .stopping ∨ r.axes[a].state = .halted) : Run.judgeLocks c r a d = r := by
  unfold Run.judgeLocks
  rcases h with h | h | h | h <;> rw [h]

end

/-- Settles O40: the six steps in the model's order, then each step by what it finds. -/
theorem driveRepliesAreTakenInOrder : Obligations.DriveRepliesAreTakenInOrder := by
  intro c r a d x
  refine ⟨?_, recordReply_stays, fun hs hc => ?_, fun k => ?_,
    ⟨judgeFlag_lock Nat.zero_lt_two, judgeFlag_lock Nat.one_lt_two⟩,
    fun p => ⟨judgeOverload_rests, fun hm hp => ?_⟩, ?_⟩
  · unfold Run.driveReply
    dsimp only
    rw [judgeFlags_eq]
    rfl
  · have hback := recordReply_back (d := d) hs hc
    exact ⟨fun hw => hback.trans (if_neg (Bool.eq_false_iff.mp hw)), fun hw => hback.trans (if_pos hw)⟩
  · have flag : ∀ {halts notes : Bool}, c.axes[a].haltMask.getLsbD k.val = halts →
        c.axes[a].noteMask.getLsbD k.val = notes → Run.judgeFlag c r a (k.val + 2) =
          if notes then (if halts then Run.halt c r a .driveFlag else r).raise .driveNote (axisNo a)
            (det (k.val + 2))
          else if halts then Run.halt c r a .driveFlag else r := fun hh hn =>
      judgeFlag_eq ((maskHas_add_two _ _).trans hh) ((maskHas_add_two _ _).trans hn)
    exact ⟨flag, flag, flag, flag⟩
  · have hover := judgeOverload_over hm hp
    refine ⟨fun hv => hover.trans (if_pos hv), fun hv => ?_⟩
    have hslow := hover.trans (if_neg (Nat.not_lt.mpr hv))
    exact ⟨fun hn => hslow.trans (if_pos hn), fun hn => hslow.trans (if_neg (Bool.eq_false_iff.mp hn))⟩
  · refine ⟨fun hs hf => ?_, fun hs hr he => ?_, fun hs he => (judgeLocks_locking hs).trans (if_pos he),
      fun hs he => (judgeLocks_locking hs).trans (if_neg (Bool.eq_false_iff.mp he)), judgeLocks_rest,
      judgeLocks_none⟩
    · refine (judgeLocks_releases hs rfl rfl).trans (if_neg fun hb => hf ?_)
      rwa [Bool.and_eq_true, Bool.not_eq_true'] at hb
    · have hrel := (judgeLocks_releases (c := c) hs hr he).trans (locksReleased_eq hs)
      exact ⟨fun hp => hrel.trans (if_pos hp), fun hp => hrel.trans (if_neg hp)⟩

end Sys2Proof.Machine
end

