-- ==== Sys2Proof/Proofs/NodesFollowed.lean ====
section
/-! PROOFS. What axes and doors make of their nodes: OFFLINE (R85, R108), PREREQ halts (R83), the local panel
(R87), owed frames and their completion (R79), pending door commands (R115, R116). -/

namespace Sys2Proof.Machine

section
variable {c : Tables} {r : Run} {a : Fin 6}

/-! ### OFFLINE and the lost panel (R85) -/

theorem wasActive_eq (x : AxisRt) :
    (x.state.inMotion || x.state == .halted) = decide (InMotion x ∨ x.state = .halted) := by
  rw [Bool.eq_iff_iff, Bool.or_eq_true, inMotion_iff, beq_iff_eq, decide_eq_true_eq]

theorem axisOffline_eq (c : Tables) (r : Run) (a : Fin 6) : Run.axisOffline c r a =
    (Run.withdrawMotionCall c (r.modAxis a fun x => { x with
      state := .offline, causes := 0, keepaliveTimer := none, lockTimer := none
      controlTimer := none, origin := .none, sentDemand := 0, stage := .low, setPoint := none
      owed := { unlock := false, lock := false
                stage := c.axes[a].lowPayload.isSome && c.axes[a].highPayload.isSome }
      wasActive := decide (InMotion x ∨ x.state = .halted) }) a).endPlanOf a .offline := by
  simp only [← wasActive_eq]
  rfl

theorem inPanelMove_iff (x : AxisRt) : inPanelMove x = true ↔
    (x.state = .unlocking ∨ x.state = .moving) ∧ (x.origin = .panelRaise ∨ x.origin = .panelLower) := by
  simp [inPanelMove]

theorem panelLost_eq (c : Tables) (r : Run) (a : Fin 6) : Run.panelLost c r a =
    if inPanelMove r.axes[a] then Run.stopAxis c (r.modAxis a fun x => { x with panel := .none }) a
    else r.modAxis a fun x => { x with panel := .none } := by
  unfold Run.panelLost
  dsimp only
  rw [Run.modAxis_self]
  rfl

theorem endPlanOf_mine (cause : PlanEnd) (h : r.plan.running = true)
    (hk : ∃ k, r.plan.steps[r.plan.current - 1]? = some k ∧ k.axis = a) : r.endPlanOf a cause =
      (r.setPlan { r.plan with running := false, steps := [] }).raise .planAborted 0
        (det2 r.plan.current cause.code) :=
  (if_pos (isCurrentAxis_iff.mpr ⟨h, hk⟩)).trans (endPlan_running h cause)

theorem endPlanOf_other (cause : PlanEnd) (h : ¬(r.plan.running = true ∧
    ∃ k, r.plan.steps[r.plan.current - 1]? = some k ∧ k.axis = a)) : r.endPlanOf a cause = r :=
  if_neg fun hc => h (isCurrentAxis_iff.mp hc)

/-! ### Prerequisites on other axes (R83) -/

theorem namesAxis_unmet_iff {q : Option Prereq} {o : Fin 6} :
    (namesAxis q o && !prereqMet r q) = true ↔ ∃ p, q = some p ∧ p.axis = o ∧ ¬Satisfied r (some p) := by
  rw [Bool.and_eq_true, Bool.not_eq_true', ← Bool.not_eq_true, prereqMet_iff]
  cases q with
  | none => simp [namesAxis]
  | some p => simp only [namesAxis, beq_iff_eq, Option.some.injEq, exists_eq_left']

theorem prereqFails_iff {b o : Fin 6} : prereqFails c r b o = true ↔
    ∃ p, (c.axes[b].prereq1 = some p ∨ c.axes[b].prereq2 = some p) ∧ p.axis = o ∧ ¬Satisfied r (some p) := by
  unfold prereqFails
  rw [Bool.or_eq_true, namesAxis_unmet_iff, namesAxis_unmet_iff, ← exists_or]
  simp only [or_and_right]

theorem judgePrereq_test_iff {others : List (Fin 6)} {b : Fin 6} :
    ((r.axes[b].state == .moving || r.axes[b].state == .stopping)
      && others.any fun o => b != o && prereqFails c r b o) = true ↔
    (r.axes[b].state = .moving ∨ r.axes[b].state = .stopping) ∧
      ∃ p, (c.axes[b].prereq1 = some p ∨ c.axes[b].prereq2 = some p) ∧
        p.axis ∈ others ∧ p.axis ≠ b ∧ ¬Satisfied r (some p) := by
  simp only [Bool.and_eq_true, Bool.or_eq_true, beq_iff_eq, List.any_eq_true, bne_iff_ne, prereqFails_iff]
  refine and_congr_right fun _ => ⟨?_, ?_⟩
  · rintro ⟨o, ho, hb, p, hp, rfl, hn⟩
    exact ⟨p, hp, ho, hb.symm, hn⟩
  · rintro ⟨p, hp, ho, hb, hn⟩
    exact ⟨p.axis, ho, hb.symm, p, hp, rfl, hn⟩

/-! ### The local panel (R87) -/

/-- What a panel reply does before the command is noted: in the order of R87's table. -/
def panelTaken (c : Tables) (r : Run) (a : Fin 6) (p : PanelCommand) : Run :=
  if r.axes[a].control = .localPanel ∧ (r.axes[a].state = .locked ∨ r.axes[a].state = .still) then
    if p ≠ .none ∧ p ≠ r.axes[a].panel then Run.panelStart c r a p else r
  else if r.axes[a].control = .localPanel ∧ inPanelMove r.axes[a] = true then
    if p.origin = r.axes[a].origin then
      r.modAxis a fun x => { x with keepaliveTimer := some (ms c.axes[a].keepalive) }
    else Run.stopAxis c r a
  else if p ≠ .none ∧ p ≠ r.axes[a].panel then Run.offerPanelDeny c r a
  else r

theorem atRest_iff (s : AxisState) : s.atRest = true ↔ s = .locked ∨ s = .still := by
  cases s <;> simp [AxisState.atRest]

theorem panelReply_eq {p : PanelCommand} {u : Run} (h : panelTaken c r a p = u) :
    Run.panelReply c r a p = u.modAxis a fun x => { x with panel := p } := by
  subst h
  unfold Run.panelReply panelTaken
  simp only [Bool.and_eq_true, decide_eq_true_eq, atRest_iff, bne_iff_ne]

/-- The panel's button holds the move it started. -/
theorem panelOrigin_eq_iff {p : PanelCommand} {o : MoveOrigin} (h : o = .panelRaise ∨ o = .panelLower) :
    p.origin = o ↔ p = .raise ∧ o = .panelRaise ∨ p = .lower ∧ o = .panelLower := by
  rcases h with rfl | rfl <;> cases p <;> simp [PanelCommand.origin]

/-- DENY goes to the axis's panel node, if it has one. -/
theorem offerPanelDeny_eq (c : Tables) (r : Run) (a : Fin 6) : Run.offerPanelDeny c r a =
    match c.axes[a].panel with
    | some n => (Run.offerFrame c r n 0x0B [] (.axis a .deny)).1
    | none => r := by
  unfold Run.offerPanelDeny
  cases c.axes[a].panel <;> rfl

theorem panelStart_denied {p : PanelCommand} (h : ¬NoInterlock c r a) :
    Run.panelStart c r a p = Run.offerPanelDeny c r a := by
  obtain ⟨k, hk⟩ := Option.ne_none_iff_exists'.mp (mt moveInterlock_eq_none_iff.mp h)
  unfold Run.panelStart
  rw [hk]

theorem panelStart_goes {p : PanelCommand} (h : NoInterlock c r a) : Run.panelStart c r a p =
    Run.startMove c r a (if p = .raise then c.axes[a].posMax else c.axes[a].posMin) false p.origin := by
  unfold Run.panelStart
  rw [moveInterlock_none h]

section
variable {p : PanelCommand}

theorem panelTaken_rest (hl : r.axes[a].control = .localPanel)
    (hs : r.axes[a].state = .locked ∨ r.axes[a].state = .still) : panelTaken c r a p =
      if p ≠ .none ∧ p ≠ r.axes[a].panel then Run.panelStart c r a p else r := if_pos ⟨hl, hs⟩

theorem panelTaken_moves (hl : r.axes[a].control = .localPanel)
    (hm : (r.axes[a].state = .unlocking ∨ r.axes[a].state = .moving) ∧
      (r.axes[a].origin = .panelRaise ∨ r.axes[a].origin = .panelLower)) : panelTaken c r a p =
      if p.origin = r.axes[a].origin then
        r.modAxis a fun x => { x with keepaliveTimer := some (ms c.axes[a].keepalive) }
      else Run.stopAxis c r a := by
  refine (if_neg fun ⟨_, hs⟩ => ?_).trans (if_pos ⟨hl, (inPanelMove_iff _).mpr hm⟩)
  rcases hm.1 with h | h <;> rw [h] at hs <;> exact hs.elim nofun nofun

theorem panelTaken_else (h : r.axes[a].control = .bridge ∨
    ¬(r.axes[a].state = .locked ∨ r.axes[a].state = .still) ∧
    ¬((r.axes[a].state = .unlocking ∨ r.axes[a].state = .moving) ∧
      (r.axes[a].origin = .panelRaise ∨ r.axes[a].origin = .panelLower))) : panelTaken c r a p =
      if p ≠ .none ∧ p ≠ r.axes[a].panel then Run.offerPanelDeny c r a else r := by
  refine (if_neg fun ⟨hl, hs⟩ => ?_).trans (if_neg fun ⟨hl, hm⟩ => ?_)
  · exact h.elim (fun hb => nomatch hb.symm.trans hl) fun hn => hn.1 hs
  · exact h.elim (fun hb => nomatch hb.symm.trans hl) fun hn => hn.2 ((inPanelMove_iff _).mp hm)

end

/-! ### Owed frames and completions (R79) -/

theorem axisCompleted_unlock (m : Nat) : r.axisCompleted a .unlock (.noAnswer m) =
    if r.axes[a].state = .unlocking then
      r.modAxis a fun x => { x with owed := { x.owed with unlock := true } } else r := by
  unfold Run.axisCompleted
  dsimp only
  split
  next h => exact r.modAxis_congr a (if_pos h)
  next h => exact r.modAxis_eq_self a (if_neg h)

theorem axisCompleted_lock (m : Nat) : r.axisCompleted a .lock (.noAnswer m) =
    if r.axes[a].state = .locking then
      r.modAxis a fun x => { x with owed := { x.owed with lock := true } } else r := by
  unfold Run.axisCompleted
  dsimp only
  split
  next h => exact r.modAxis_congr a (if_pos h)
  next h => exact r.modAxis_eq_self a (if_neg h)

theorem axisCompleted_deny (m : Nat) : r.axisCompleted a .deny (.noAnswer m) = r := by
  unfold Run.axisCompleted
  exact r.modAxis_eq_self a rfl

theorem axisCompleted_answered {f : AxisFrame} {k : Completion} (h : ∀ m, k ≠ .noAnswer m) :
    r.axisCompleted a f k = r := by
  cases k with
  | noAnswer m => exact absurd rfl (h m)
  | ok | nodeLost | trunkDown => rfl

/-- The runtime after the owed UNLOCK and LOCK have been offered again. -/
def locksOffered (c : Tables) (r : Run) (a : Fin 6) : Run :=
  let r := if r.axes[a].owed.unlock then Run.offerUnlock c r a else r
  if r.axes[a].owed.lock then Run.offerLock c r a else r

theorem offerOwed_stage (h : (locksOffered c r a).axes[a].owed.stage = true)
    (hl : c.axes[a].lowPayload ≠ none) (hh : c.axes[a].highPayload ≠ none) :
    Run.offerOwed c r a = Run.offerStage c (locksOffered c r a) a :=
  if_pos (Bool.and_eq_true_iff.mpr ⟨h, (stageOn_iff _).mpr
    ⟨Option.isSome_iff_ne_none.mpr hl, Option.isSome_iff_ne_none.mpr hh⟩⟩)

theorem offerOwed_no_stage (h : (locksOffered c r a).axes[a].owed.stage = false ∨
    c.axes[a].lowPayload = none ∨ c.axes[a].highPayload = none) :
    Run.offerOwed c r a = locksOffered c r a := by
  refine if_neg fun hb => ?_
  obtain ⟨hs, hon⟩ := Bool.and_eq_true_iff.mp hb
  obtain ⟨hl, hh⟩ := (stageOn_iff _).mp hon
  rw [Option.isSome_iff_ne_none] at hl hh
  exact h.elim (fun hn => Bool.false_ne_true (hn.symm.trans hs)) (·.elim hl hh)

end

/-! ### Doors (R108, R115, R116) -/

section
variable {c : Tables} {r : Run} {d : Fin 32}

theorem serves_iff (f : DoorFrame) (s : DoorState) : f.serves s = true ↔
    (f = .close ∧ s = .closing) ∨ (f = .opened ∧ s = .opening) ∨ (f = .stop ∧ s = .obstructed) := by
  cases f <;> simp [DoorFrame.serves]

theorem doorCompleted_answered {f : DoorFrame} {k : Completion} (h : ∀ m, k ≠ .noAnswer m) :
    r.doorCompleted d f k = r := by
  cases k with
  | noAnswer m => exact absurd rfl (h m)
  | ok | nodeLost | trunkDown => rfl

/-- A change that leaves a door record as it is changes nothing. -/
theorem Run.modDoor_eq_self (r : Run) (i : Fin 32) {f : DoorRt → DoorRt} (h : f r.doors[i] = r.doors[i]) :
    r.modDoor i f = r := by
  unfold Run.modDoor
  rw [h]
  simp

theorem doorCompleted_dropped {f : DoorFrame} (m : Nat)
    (h : ¬f.serves r.doors[d].state = true ∨ r.doors[d].pending ≠ .none) :
    r.doorCompleted d f (.noAnswer m) = r := by
  refine r.modDoor_eq_self d (if_neg fun hb => ?_)
  rw [Bool.and_eq_true, beq_iff_eq] at hb
  exact h.elim (· hb.1) (· hb.2)

theorem doorCompleted_pends {f : DoorFrame} (m : Nat) (hf : f.serves r.doors[d].state = true)
    (hp : r.doors[d].pending = .none) :
    r.doorCompleted d f (.noAnswer m) = r.modDoor d fun x => { x with pending := f.pending } := by
  refine r.modDoor_congr d (if_pos ?_)
  rw [Bool.and_eq_true, beq_iff_eq]
  exact ⟨hf, hp⟩

theorem offerDoorsOf_eq (t : Fin 4) : Run.offerDoorsOf c r t =
    ((List.finRange 32).filter fun d => c.doors[d].node.trunk = t).foldl (Run.offerPending c) r := by
  rw [List.foldl_filter]
  simp only [decide_eq_true_eq]
  rfl

theorem offerPending_eq {p : DoorPending} (h : r.doors[d].pending = p) : Run.offerPending c r d =
    match p.frame with
    | some f => Run.issueDoor c r d f
    | none => r := by
  subst h
  rfl

end

/-- Settles O37: axes, prerequisites, panels, owed frames and doors, part by part. -/
theorem axesAndDoorsFollowTheirNodes : Obligations.AxesAndDoorsFollowTheirNodes := by
  refine ⟨fun c r a => ⟨axisOffline_eq c r a, ⟨fun hm => ?_, fun hm => ?_⟩,
      fun cause => ⟨fun hm => endPlanOf_mine cause hm.1 hm.2, endPlanOf_other cause⟩⟩,
    fun c r others b => ⟨fun hm hf => if_pos (judgePrereq_test_iff.mpr ⟨hm, hf⟩), fun hn => ?_, rfl⟩,
    fun c r a p => ?_,
    fun c r a => ⟨offerOwed_stage, offerOwed_no_stage, fun f k => ⟨axisCompleted_answered, ?_⟩⟩,
    fun c r d t => ⟨rfl, fun f k => ⟨doorCompleted_answered, ?_⟩, offerDoorsOf_eq t, offerPending_eq,
      offerPending_eq, offerPending_eq, offerPending_eq⟩⟩
  · exact (panelLost_eq c r a).trans (if_pos ((inPanelMove_iff _).mpr hm))
  · exact (panelLost_eq c r a).trans (if_neg fun h => hm ((inPanelMove_iff _).mp h))
  · refine if_neg fun h => ?_
    obtain ⟨hm, hf⟩ := judgePrereq_test_iff.mp h
    exact hn.elim (· hm) (· hf)
  · intro x edge taken deny rest moves held clear
    have hdeny : Run.offerPanelDeny c r a = deny := offerPanelDeny_eq c r a
    refine ⟨fun hl hs => ?_, fun hl hm => ?_, fun h => ?_⟩
    · have hrest := panelTaken_rest (c := c) (p := p) hl hs
      refine ⟨fun he => panelReply_eq (hrest.trans (if_neg he)), fun he hc => ?_, ?_, ?_⟩
      · exact panelReply_eq (hrest.trans ((if_pos he).trans ((panelStart_denied hc).trans hdeny)))
      · rintro he hc rfl
        exact panelReply_eq (hrest.trans ((if_pos he).trans (panelStart_goes hc)))
      · rintro he hc rfl
        exact panelReply_eq (hrest.trans ((if_pos he).trans (panelStart_goes hc)))
    · have hmoves := panelTaken_moves (c := c) (p := p) hl hm
      have hheld := panelOrigin_eq_iff (p := p) hm.2
      exact ⟨fun hh => panelReply_eq (hmoves.trans (if_pos (hheld.mpr hh))),
        fun hh => panelReply_eq (hmoves.trans (if_neg (mt hheld.mp hh)))⟩
    · have helse := panelTaken_else (c := c) (p := p) h
      exact ⟨fun he => panelReply_eq (helse.trans ((if_pos he).trans hdeny)),
        fun he => panelReply_eq (helse.trans (if_neg he))⟩
  · rintro m rfl
    exact ⟨fun hf => hf ▸ axisCompleted_unlock m, fun hf => hf ▸ axisCompleted_lock m,
      fun hf => hf ▸ rfl, fun hf => hf ▸ axisCompleted_deny m⟩
  · rintro m rfl
    exact ⟨fun hn => doorCompleted_dropped m (hn.imp_left (mt (serves_iff f _).mp)),
      fun hs hp => (doorCompleted_pends m ((serves_iff f _).mpr hs) hp).trans (by cases f <;> rfl)⟩

end Sys2Proof.Machine
end

