-- ==== Sys2Proof/Proofs/CallRecords.lean ====
section
/-! PROOFS. What becomes of a call record: the merge of an offered call (R131), WITHDRAW_CALL (R135), the
removal of a record and what its originator is told (R136). -/

namespace Sys2Proof.Machine

/-! ### Sets of areas -/

/-- A set gathered member by member holds what it began with and every listed member that passes. -/
theorem foldl_setOf_has {w n : Nat} (hn : n ≤ w) (p : Fin n → Prop) [DecidablePred p] (i : Fin n)
    (l : List (Fin n)) (s : BitVec w) :
    (l.foldl (fun s j => if p j then setUnion s (setOf j.val) else s) s).getLsbD i.val = true ↔
      s.getLsbD i.val = true ∨ i ∈ l ∧ p i := by
  induction l generalizing s with
  | nil => simp
  | cons j l ih =>
    have hi : i.val < w := i.isLt.trans_le hn
    have hj : (setUnion s (setOf j.val)).getLsbD i.val = true ↔ s.getLsbD i.val = true ∨ i = j := by
      unfold setUnion setOf
      rw [BitVec.getLsbD_or, Bool.or_eq_true, BitVec.getLsbD_twoPow, Bool.and_eq_true, decide_eq_true_eq,
        decide_eq_true_eq, Fin.ext_iff]
      exact or_congr_right ⟨fun e => e.2.symm, fun e => ⟨e ▸ hi, e.symm⟩⟩
    rw [List.foldl_cons, ih, List.mem_cons]
    by_cases hp : p j
    · rw [if_pos hp, hj]
      by_cases h : i = j
      · subst h
        simp [hp]
      · simp [h]
    · rw [if_neg hp]
      by_cases h : i = j
      · subst h
        simp [hp]
      · simp [h]

theorem availableAreas_has (r : Run) (i : Fin 16) :
    (availableAreas r).getLsbD i.val = true ↔ r.areas[i].state ≠ .unavailable := by
  refine (foldl_setOf_has le_rfl (fun j : Fin 16 => r.areas[j].state ≠ .unavailable) i _ 0).trans ?_
  simp

/-- Nothing of a set is available exactly where each of its areas is UNAVAILABLE. -/
theorem inter_available_eq_zero_iff (s : AreaSet) (r : Run) : s &&& availableAreas r = 0 ↔
    ∀ i : Fin 16, s.getLsbD i.val = true → r.areas[i].state = .unavailable := by
  have bit : ∀ i : Fin 16, (s &&& availableAreas r).getLsbD i.val = true ↔
      s.getLsbD i.val = true ∧ r.areas[i].state ≠ .unavailable := fun i => by
    rw [BitVec.getLsbD_and, Bool.and_eq_true, availableAreas_has]
  refine ⟨fun h i hi => ?_, fun h => BitVec.eq_of_getLsbD_eq fun i hi => ?_⟩
  · by_contra hn
    have := (bit i).mpr ⟨hi, hn⟩
    rw [h] at this
    simp at this
  · refine (Bool.eq_false_iff.mpr fun hb => ?_).trans BitVec.getLsbD_zero.symm
    obtain ⟨hs, hn⟩ := (bit ⟨i, hi⟩).mp hb
    exact hn (h ⟨i, hi⟩ hs)

/-! ### The merge (R131) -/

section
variable {c : Tables} {r : Run} {o : CallOffer} {k : Call}

theorem mergeInto_areas (i : Nat) : (mergeInto r o k).areas.getLsbD i = true ↔
    k.areas.getLsbD i = true ∨ o.areas.getLsbD i = true := by
  show (setUnion k.areas o.areas).getLsbD i = true ↔ _
  unfold setUnion
  rw [BitVec.getLsbD_or, Bool.or_eq_true]

theorem mergeInto_pending (i : Fin 16) : (mergeInto r o k).pending.getLsbD i.val = true ↔
    k.pending.getLsbD i.val = true ∨ k.phase = .pass ∧ o.areas.getLsbD i.val = true ∧
      r.areas[i].state ≠ .unavailable ∧ k.playing.getLsbD i.val = false := by
  show (setUnion k.pending (if k.phase = .pass then setDiff (o.areas &&& availableAreas r) k.playing
    else 0)).getLsbD i.val = true ↔ _
  unfold setUnion
  rw [BitVec.getLsbD_or, Bool.or_eq_true]
  refine or_congr_right ?_
  by_cases hp : k.phase = .pass
  · rw [if_pos hp]
    refine (setHas_setDiff _ _ i.val).trans ?_
    rw [BitVec.getLsbD_and, Bool.and_eq_true, availableAreas_has, and_assoc]
    exact (and_iff_right hp).symm
  · rw [if_neg hp]
    simp [hp]

theorem mergeInto_endless (h : k.repeats = 0 ∨ o.repeats = 0) :
    (mergeInto r o k).repeats = 0 ∧ (mergeInto r o k).remaining = 0 := ⟨if_pos h, if_pos h⟩

theorem mergeInto_counted (h : ¬(k.repeats = 0 ∨ o.repeats = 0)) :
    (mergeInto r o k).repeats = max k.repeats o.repeats ∧
      (mergeInto r o k).remaining = max k.remaining o.repeats := ⟨if_neg h, if_neg h⟩

/-- The queue with the merged record in the place of the one it joins. -/
def merged (r : Run) (o : CallOffer) (k : Call) : Run := r.modCall k.id fun _ => mergeInto r o k

theorem mergeCall_gap (h : k.phase = .gap) : Run.mergeCall c r o k = merged r o k := by
  unfold Run.mergeCall
  rw [h]
  rfl

theorem mergeCall_pass (h : k.phase = .pass) : Run.mergeCall c r o k =
    Run.selectAreas c (merged r o k) (mergeInto r o k).pending := by
  unfold Run.mergeCall
  rw [h]
  rfl

theorem mergeCall_waiting (h : k.phase = .waiting) : Run.mergeCall c r o k =
    if (mergeInto r o k).areas &&& availableAreas r = 0 then merged r o k
    else Run.beginPass c (merged r o k) k.id := by
  unfold Run.mergeCall
  rw [h]
  rfl

theorem mergeCall_stays (h : k.phase = .waiting) (hu : ∀ i : Fin 16,
    (mergeInto r o k).areas.getLsbD i.val = true → r.areas[i].state = .unavailable) :
    Run.mergeCall c r o k = merged r o k :=
  (mergeCall_waiting h).trans (if_pos ((inter_available_eq_zero_iff _ r).mpr hu))

theorem mergeCall_begins (h : k.phase = .waiting) (hu : ∃ i : Fin 16,
    (mergeInto r o k).areas.getLsbD i.val = true ∧ r.areas[i].state ≠ .unavailable) :
    Run.mergeCall c r o k = Run.beginPass c (merged r o k) k.id := by
  obtain ⟨i, hi, hn⟩ := hu
  exact (mergeCall_waiting h).trans (if_neg fun h0 => hn ((inter_available_eq_zero_iff _ r).mp h0 i hi))
end

/-! ### WITHDRAW_CALL (R135) -/

theorem originOfCode_code (o : CallOrigin) : originOfCode o.code = some o := by
  cases o with
  | bridge => rfl
  | axis a => revert a; decide
  | zone z => revert z; decide
  | monitor m => revert m; decide

theorem withForm_withdraw {sel : Nat} {w : Word} (hs : sel ≤ 1) (hw : withdrawTest sel w = true) (r : Run)
    (k : Selector → Reply) : withForm formWithdraw (b1 sel ++ w2 w) r k =
      k (if sel = 0 then .byId w.toNat else .byOrigin ((originOfCode w).getD .bridge)) := by
  have hword : ReadsFields 1 (fld (word >>= fun w => need (withdrawTest sel w) w)) (w2 w) w :=
    ((reads_word w).need hw).fld
  unfold formWithdraw
  refine withForm_reads (n := 2) (ReadsFields.bind (m := 1) (n := 1)
    (reads_nat1 (by simp [within, hs]) (by omega)).fld ?_) r k
  exact ReadsFields.bind_pure hword (readsFields_pure _)

section
variable {s : State} {dst : Word} (h : Reaches s dst .calls) (src : Word) (tag : Byte)
include h

theorem exec_withdrawCall {sel : Nat} {w : Word} (hs : sel ≤ 1) (hw : withdrawTest sel w = true)
    {x : Selector} (hx : (if sel = 0 then .byId w.toNat
      else .byOrigin ((originOfCode w).getD .bridge)) = x) :
    exec (.withdrawCall src dst tag (b1 sel ++ w2 w)) s =
      (let o := Run.requestWithdraw s.cfg s.run x
       answered s o.1 { src, dst, tag } o.2 []) := by
  refine (requested_reaches h src tag 0x02#8 (body := b1 sel ++ w2 w) (by simp [b1, w2])).trans ?_
  have hf : functionRequest s.cfg s.run .calls (0x02#8).toNat (b1 sel ++ w2 w) =
      plain (Run.requestWithdraw s.cfg s.run x) := by
    rw [← hx]
    exact withForm_withdraw hs hw s.run _
  rw [hf]
  rfl

theorem withdrawCall_id {id : Nat} (h1 : 1 ≤ id) (h2 : id ≤ 255) :
    exec (.withdrawCall src dst tag (b1 0 ++ b2 id)) s =
      (let o := Run.requestWithdraw s.cfg s.run (.byId id)
       answered s o.1 { src, dst, tag } o.2 []) := by
  have hid : (BitVec.ofNat 16 id).toNat = id := by
    rw [BitVec.toNat_ofNat]
    exact Nat.mod_eq_of_lt (by omega)
  refine exec_withdrawCall h src tag (Nat.zero_le 1) ?_ ?_
  · simp [withdrawTest, hid, h1, h2]
  · rw [if_pos rfl, hid]

theorem withdrawCall_origin (o : CallOrigin) : exec (.withdrawCall src dst tag (b1 1 ++ w2 o.code)) s =
    (let u := Run.requestWithdraw s.cfg s.run (.byOrigin o)
     answered s u.1 { src, dst, tag } u.2 []) := by
  refine exec_withdrawCall h src tag le_rfl ?_ ?_
  · simp [withdrawTest, originOfCode_code]
  · rw [if_neg Nat.one_ne_zero, originOfCode_code]
    rfl

end

/-- A change that leaves a zone record as it is changes nothing. -/
theorem Run.modZone_eq_self (r : Run) (i : Fin 8) {f : ZoneRt → ZoneRt} (h : f r.zones[i] = r.zones[i]) :
    r.modZone i f = r := by
  unfold Run.modZone
  rw [h]
  simp

/-- A change that leaves a monitor record as it is changes nothing. -/
theorem Run.modMonitor_eq_self (r : Run) (i : Fin 16) {f : MonitorRt → MonitorRt}
    (h : f r.monitors[i] = r.monitors[i]) : r.modMonitor i f = r := by
  unfold Run.modMonitor
  rw [h]
  simp

section
variable {c : Tables} {r : Run} {id : Nat}

theorem requestWithdraw_found {k : Call} (h : findCall r id = some k) :
    Run.requestWithdraw c r (.byId id) = (Run.withdrawByConsole c r k, .ok, 1) := by
  unfold Run.requestWithdraw
  dsimp only
  rw [h]
  rfl

theorem requestWithdraw_gone (h : findCall r id = none) :
    Run.requestWithdraw c r (.byId id) = (r, .state, 0) := by
  unfold Run.requestWithdraw
  dsimp only
  rw [h]

/-! ### The removal of a record (R136) -/

theorem removeCall_gone (h : findCall r id = none) : Run.removeCall c r id = r := by
  unfold Run.removeCall
  rw [h]

theorem removeCall_found {k : Call} (h : findCall r id = some k) : Run.removeCall c r id =
    (let quiet := (areasOf k.playing).foldl (Run.silenceArea c) r
     Run.selectAreas c
      ((quiet.setCalls (quiet.calls.filter fun x => x.id ≠ id)).tellEnded k.origin id) k.playing) := by
  unfold Run.removeCall
  rw [h]
  simp only [bne, decide_not]
  rfl

theorem tellEnded_axis (a : Fin 6) :
    (r.axes[a].callId = some id → r.tellEnded (.axis a) id = r.modAxis a fun x => { x with callId := none }) ∧
    (r.axes[a].callId ≠ some id → r.tellEnded (.axis a) id = r) := by
  unfold Run.tellEnded
  exact ⟨fun h => r.modAxis_congr a (if_pos h), fun h => r.modAxis_eq_self a (if_neg h)⟩

theorem tellEnded_zone (z : Fin 8) :
    (r.zones[z].callId = some id → r.tellEnded (.zone z) id = r.modZone z fun x => { x with callId := none }) ∧
    (r.zones[z].callId ≠ some id → r.tellEnded (.zone z) id = r) := by
  unfold Run.tellEnded
  exact ⟨fun h => r.modZone_congr z (if_pos h), fun h => r.modZone_eq_self z (if_neg h)⟩

theorem tellEnded_monitor (m : Fin 16) :
    (r.monitors[m].callId = some id → r.tellEnded (.monitor m) id =
      r.modMonitor m fun x => { x with callId := none }) ∧
    (r.monitors[m].callId ≠ some id → r.tellEnded (.monitor m) id = r) := by
  unfold Run.tellEnded
  exact ⟨fun h => r.modMonitor_congr m (if_pos h), fun h => r.modMonitor_eq_self m (if_neg h)⟩

end

/-- Settles O46: the merge by its fields, the withdrawals by what they name, the removal and its originator. -/
theorem mergesAndWithdrawals : Obligations.MergesAndWithdrawals := by
  refine ⟨fun c r o k => ⟨rfl, fun i => ⟨mergeInto_areas i.val, mergeInto_pending i⟩, mergeInto_endless,
      mergeInto_counted, mergeCall_gap, mergeCall_pass, mergeCall_stays, mergeCall_begins⟩,
    fun s src dst tag h => ⟨fun id h1 h2 => ⟨fun k hk => ?_, fun hk => ?_⟩, fun o =>
      withdrawCall_origin h src tag o⟩,
    fun c r id => ⟨removeCall_gone, fun k hk => removeCall_found hk⟩,
    fun r id => ⟨rfl, tellEnded_axis, tellEnded_zone, tellEnded_monitor⟩⟩
  · rw [withdrawCall_id h src tag h1 h2, requestWithdraw_found hk]
    rfl
  · rw [withdrawCall_id h src tag h1 h2, requestWithdraw_gone hk]

end Sys2Proof.Machine
end

