-- ==== Sys2Proof/Proofs/LineLevels.lean ====
section
/-! PROOFS. The lines (R163, R164): the filter of a raw level, the events of an accepted change, and the
hand-over of an active level to the line's owner (R81, R88, R161). -/

namespace Sys2Proof.Machine

theorem Run.modLine_congr (r : Run) (i : Fin 14) {f g : LineRt → LineRt} (h : f r.lines[i] = g r.lines[i]) :
    r.modLine i f = r.modLine i g := by
  unfold Run.modLine
  rw [h]

section
variable {c : Tables} {r : Run} {l : Fin 14} {active : Bool}

/-! ### The filter (R163) -/

theorem rawChanged_same (h : r.lines[l].raw = active) : Run.rawChanged c r l active = r := if_pos h

theorem rawChanged_back (h : r.lines[l].raw ≠ active) (ha : r.lines[l].accepted = active) :
    Run.rawChanged c r l active = r.modLine l fun x => { x with raw := active, filterTimer := none } := by
  refine (if_neg h).trans (r.modLine_congr l ?_)
  rw [if_pos ha.symm]

theorem rawChanged_starts (h : r.lines[l].raw ≠ active) (ha : r.lines[l].accepted ≠ active) :
    Run.rawChanged c r l active =
      r.modLine l fun x => { x with raw := active, filterTimer := some (ms c.lines[l].filter) } := by
  refine (if_neg h).trans (r.modLine_congr l ?_)
  rw [if_neg ha.symm]

/-- The line with its raw level accepted. -/
def lineAccepted (r : Run) (l : Fin 14) : Run :=
  r.modLine l fun x => { x with accepted := r.lines[l].raw, filterTimer := none }

theorem filterExpired_eq (c : Tables) (r : Run) (l : Fin 14) : Run.filterExpired c r l =
    Run.acceptedChange c (lineAccepted r l) l r.lines[l].raw :=
  congrArg (Run.acceptedChange c · l r.lines[l].raw) (r.modLine_congr l rfl)

/-! ### The events of an accepted change (R164) -/

theorem det_toNat (b : Bool) : (det b.toNat : Word) = if b then 1 else 0 := by cases b <;> rfl

theorem edgeEvent_eq (c : Tables) (r : Run) (l : Fin 14) (active : Bool) : Run.edgeEvent c r l active =
    if c.lines[l].event = true ∧ (c.lines[l].edge = .both ∨ c.lines[l].edge = .rising ∧ active = true ∨
      c.lines[l].edge = .falling ∧ active = false)
    then r.raise .lineEdge l.val (if active then 1 else 0) else r := by
  unfold Run.edgeEvent
  rw [det_toNat]
  refine if_congr ?_ rfl rfl
  rw [Bool.and_eq_true]
  refine and_congr_right fun _ => ?_
  cases c.lines[l].edge <;> simp

theorem lineNoted_eq (c : Tables) (r : Run) (l : Fin 14) (active : Bool) : lineNoted c r l active =
    if l = 1 then (Run.edgeEvent c r l active).raise .serviceMode 1 (if active then 1 else 0)
    else Run.edgeEvent c r l active := by
  unfold lineNoted
  rw [det_toNat]
  by_cases h : l = 1
  · subst h
    rfl
  · rw [if_neg h]
    exact if_neg h

/-! ### The hand-over (R161, R164) -/

theorem acceptedChange_loading (h : r.gw = .loading) : Run.acceptedChange c r l active = r := by
  rw [acceptedChange_eq, if_pos h]

theorem acceptedChange_unconfigured (h : r.gw = .unconfigured) :
    Run.acceptedChange c r l active = lineNoted c r l active := by
  rw [acceptedChange_eq, h]
  rfl

theorem acceptedChange_in_force (h : r.gw = .configured ∨ r.gw = .storing) :
    Run.acceptedChange c r l active = Run.handOver c (lineNoted c r l active) l active := by
  rcases h with h | h <;> rw [acceptedChange_eq, h] <;> rfl

theorem handOver_released : Run.handOver c r l false = r := rfl

theorem handOver_estop : Run.handOver c r 0 true = Run.estopPushed c r := rfl

theorem handOver_service : Run.handOver c r 1 true = Run.serviceOn c r := rfl

theorem handOver_owner (h : 2 ≤ l.val) : Run.handOver c r l true =
    match fireZone l with
    | some z => Run.requestClosure c r z causeFireLine true
    | none => r :=
  (if_neg fun (e : l = 0) => absurd (e ▸ h) (by decide)).trans
    (if_neg fun (e : l = 1) => absurd (e ▸ h) (by decide))

theorem handOver_fire {z : Fin 8} (h : l.val = z.val + 2) :
    Run.handOver c r l true = Run.requestClosure c r z 1 true := by
  have hz : fireZone l = some z := by
    refine (dif_pos ⟨by omega, by omega⟩).trans (congrArg some (Fin.ext ?_))
    show l.val - 2 = z.val
    omega
  rw [handOver_owner (by omega), hz]
  rfl

theorem handOver_general (h : 10 ≤ l.val) : Run.handOver c r l true = r := by
  have hz : fireZone l = none := dif_neg (by omega)
  rw [handOver_owner (by omega), hz]

/-! ### What ESTOP and service mode do (R81, R88) -/

theorem estopPushed_eq (c : Tables) (r : Run) : Run.estopPushed c r = (List.finRange 6).foldl (fun r a =>
    if InMotion r.axes[a] ∨ r.axes[a].state = .halted then Run.halt c r a .estop else r) r := by
  refine congrArg (List.foldl · r _) (funext fun u => funext fun a => if_congr ?_ rfl rfl)
  rw [Bool.true_and, wasActive_eq, decide_eq_true_eq]

theorem forceLocal_eq (c : Tables) (r : Run) (a : Fin 6) : Run.forceLocal c r a =
    if c.axes[a].configured = true ∧ r.axes[a].control = .bridge then
      (r.modAxis a fun x => { x with control := .localPanel }).raise .controlChange (a.val + 1) 1
    else r := by
  refine if_congr ?_ rfl rfl
  rw [Bool.and_eq_true, beq_iff_eq]

theorem serviceOn_eq (c : Tables) (r : Run) : Run.serviceOn c r =
    (List.finRange 6).foldl (fun r a => if r.axes[a].origin = .bridge then Run.stopAxis c r a else r)
      ((List.finRange 6).foldl (fun r a =>
        if c.axes[a].configured = true ∧ r.axes[a].control = .bridge then
          (r.modAxis a fun x => { x with control := .localPanel }).raise .controlChange (a.val + 1) 1
        else r) (r.endPlan .service)) := by
  simp only [← forceLocal_eq]
  rfl

end

theorem rawLevelChange_goes {s : State} {l : Fin 14} {active : Bool} {r : Run}
    (h : Run.rawChanged s.cfg s.run l active = r) : exec (.rawLevelChange l active) s = closed s r := by
  rw [← h]
  rfl

theorem lineFilterExpiry_goes {s : State} {l : Fin 14} {r : Run}
    (ht : s.run.lines[l].filterTimer.isSome = true)
    (h : Run.acceptedChange s.cfg (lineAccepted s.run l) l s.run.lines[l].raw = r) :
    exec (.lineFilterExpiry l) s = closed s r := by
  rw [← h, ← filterExpired_eq]
  exact expiry_running (fun c r => Run.filterExpired c r l) ht

/-- Settles O52: the filter by its levels, an accepted change by the gateway state and its line. -/
theorem linesAreFilteredAndHandedOver : Obligations.LinesAreFilteredAndHandedOver := by
  refine ⟨fun s l active => ⟨fun h => rawLevelChange_goes (rawChanged_same h),
      fun h ha => rawLevelChange_goes (rawChanged_back h ha),
      fun h ha => rawLevelChange_goes (rawChanged_starts h ha)⟩, fun s l => ?_,
    fun c r => ⟨estopPushed_eq c r, serviceOn_eq c r⟩⟩
  intro c k level r told edged moded goes
  have hnoted : lineNoted c (lineAccepted s.run l) l level = moded := by
    rw [lineNoted_eq, edgeEvent_eq]
    rfl
  refine ⟨expiry_stopped fun c r => Run.filterExpired c r l, fun ht =>
    ⟨fun hg => lineFilterExpiry_goes ht (acceptedChange_loading (r := lineAccepted s.run l) hg), fun hg =>
      lineFilterExpiry_goes ht
        ((acceptedChange_unconfigured (r := lineAccepted s.run l) hg).trans hnoted), fun hg => ?_⟩⟩
  have takes : ∀ {u}, Run.handOver c moded l level = u → goes u := fun hu => by
    refine lineFilterExpiry_goes ht ((acceptedChange_in_force (r := lineAccepted s.run l) hg).trans ?_)
    rw [← hu, ← hnoted]
  refine ⟨fun hl => takes ?_, fun hl h0 => takes ?_, fun hl h1 => takes ?_, fun z hl hz => takes ?_,
    fun hl hn => takes ?_⟩ <;> rw [hl]
  · exact handOver_released
  · rw [h0]
    exact handOver_estop
  · rw [h1]
    exact handOver_service
  · exact handOver_fire hz
  · exact handOver_general hn

end Sys2Proof.Machine
end

/-! PROOFS. The stages of the set-point computation: the profile by its lowest segment (R95), creep (R96),
the derate (R97), the approach (R98) and the slew (R99). -/

namespace Sys2Proof.Machine

/-! ### One segment (R95) -/

/-- A rise scaled by a part of its run stays between 0 and the rise. -/
theorem tdiv_rise_bounds {d t n : Int} (hd : 0 ≤ d) (ht : 0 ≤ t) (hn : t ≤ n) :
    0 ≤ Int.tdiv (d * t) n ∧ Int.tdiv (d * t) n ≤ d := by
  have hdt : 0 ≤ d * t := mul_nonneg hd ht
  refine ⟨Int.tdiv_nonneg hdt (ht.trans hn), ?_⟩
  rcases (ht.trans hn).eq_or_lt with rfl | hn0
  · rwa [Int.tdiv_zero]
  · rw [Int.tdiv_eq_ediv_of_nonneg hdt]
    exact Int.ediv_le_of_le_mul hn0 (mul_le_mul_of_nonneg_left hn hd)

section
variable {p q : Breakpoint} {pos : Int}

theorem segmentSpeed_start (p q : Breakpoint) : segmentSpeed p q p.position = p.speed := by
  simp [segmentSpeed]

theorem segmentSpeed_end (h : p.position < q.position) : segmentSpeed p q q.position = q.speed := by
  rw [segmentSpeed, Int.mul_tdiv_cancel _ (by omega)]
  omega

theorem segmentSpeed_between (hp : p.position ≤ pos) (hq : pos ≤ q.position) :
    min (p.speed : Int) q.speed ≤ segmentSpeed p q pos ∧
    segmentSpeed p q pos ≤ max (p.speed : Int) q.speed := by
  have ht : 0 ≤ pos - p.position := by omega
  have hn : pos - p.position ≤ q.position - p.position := by omega
  unfold segmentSpeed
  rcases le_total (p.speed : Int) q.speed with hs | hs
  · have hc := tdiv_rise_bounds (sub_nonneg.2 hs) ht hn
    omega
  · have hc := tdiv_rise_bounds (sub_nonneg.2 hs) ht hn
    rw [← neg_sub, neg_mul, Int.neg_tdiv]
    omega

end

/-! ### The profile by its lowest segment (R95) -/

theorem speedAt_segment {pos : Int} {p q : Breakpoint} (hq : pos ≤ q.position) (l : List Breakpoint) :
    ∀ i, l[i]? = some p → l[i + 1]? = some q →
      (∀ j u v, j < i → l[j]? = some u → l[j + 1]? = some v → v.position < pos) →
      speedAt pos l = segmentSpeed p q pos := by
  induction l with
  | nil => exact fun _ hi => nomatch hi
  | cons x l ih =>
    cases l with
    | nil => exact fun _ _ hj => nomatch hj
    | cons y l =>
      intro i hi hj below
      cases i with
      | zero =>
        obtain rfl : x = p := Option.some.inj hi
        obtain rfl : y = q := Option.some.inj hj
        exact if_pos hq
      | succ i =>
        have hy : ¬pos ≤ y.position := not_le.2 (below 0 x y i.succ_pos rfl rfl)
        exact (if_neg hy).trans
          (ih i hi hj fun j u v h hu hv => below (j + 1) u v (Nat.succ_lt_succ h) hu hv)

theorem speedAt_breakpoint {p : Breakpoint} {l : List Breakpoint}
    (hl : l.Pairwise fun p q => p.position < q.position) (hp : p ∈ l) :
    speedAt p.position l = p.speed := by
  induction l with
  | nil => exact nomatch hp
  | cons x l ih =>
    obtain ⟨hx, hl'⟩ := List.pairwise_cons.1 hl
    cases l with
    | nil => rw [List.mem_singleton.1 hp, speedAt]
    | cons y l =>
      have hxy := hx y List.mem_cons_self
      rw [speedAt]
      rcases List.mem_cons.1 hp with rfl | hp'
      · rw [if_pos hxy.le, segmentSpeed_start]
      rcases List.mem_cons.1 hp' with rfl | hpl
      · rw [if_pos le_rfl, segmentSpeed_end hxy]
      · rw [if_neg (not_le.2 ((List.pairwise_cons.1 hl').1 p hpl)), ih hl' hp']

section
variable {l : List Breakpoint} {pos : Int} {first last : Breakpoint}

theorem clampSpan_eq (hf : l.head? = some first) (hl : l.getLast? = some last) :
    clampSpan l pos = max first.position (min last.position pos) := by
  rw [clampSpan, hf, hl]

theorem clampSpan_breakpoint {p : Breakpoint} (hf : l.head? = some first)
    (hl : l.getLast? = some last) (rise : l.Pairwise fun p q => p.position < q.position) (hp : p ∈ l) :
    clampSpan l p.position = p.position := by
  have first_le : first.position ≤ p.position := by
    obtain ⟨t, rfl⟩ := List.head?_eq_some_iff.1 hf
    rcases List.mem_cons.1 hp with rfl | hp
    · exact le_rfl
    · exact ((List.pairwise_cons.1 rise).1 p hp).le
  have le_last : p.position ≤ last.position := by
    obtain ⟨t, rfl⟩ := List.getLast?_eq_some_iff.1 hl
    rcases List.mem_append.1 hp with hp | hp
    · exact ((List.pairwise_append.1 rise).2.2 p hp last (List.mem_singleton_self last)).le
    · rw [List.mem_singleton.1 hp]
  rw [clampSpan_eq hf hl, min_eq_right le_last, max_eq_right first_le]

theorem profileSpeed_segment {i : Nat} {p q : Breakpoint} (hi : l[i]? = some p)
    (hj : l[i + 1]? = some q) (hq : clampSpan l pos ≤ q.position)
    (below : ∀ j u v, j < i → l[j]? = some u → l[j + 1]? = some v → v.position < clampSpan l pos) :
    profileSpeed l pos = segmentSpeed p q (clampSpan l pos) := speedAt_segment hq l i hi hj below

theorem profileSpeed_breakpoint {p : Breakpoint} (hf : l.head? = some first)
    (hl : l.getLast? = some last) (rise : l.Pairwise fun p q => p.position < q.position) (hp : p ∈ l) :
    profileSpeed l p.position = p.speed := by
  rw [profileSpeed, clampSpan_breakpoint hf hl rise hp, speedAt_breakpoint rise hp]

end

section
variable {x : AxisCfg} {pos target v cap : Int} {derate : Nat}

/-! ### Creep and the derate (R96, R97) -/

theorem creeping_iff {service : Bool} : creeping x service pos target = true ↔
    (pos < target ∧ x.posMax - pos < x.creepDistance) ∨
      (target < pos ∧ pos - x.posMin < x.creepDistance) ∨ service = true := by
  simp only [creeping, Bool.or_eq_true, Bool.and_eq_true, decide_eq_true_eq, sub_pos, sub_neg, or_assoc]

theorem creepSpeed_eq (x : AxisCfg) (service : Bool) (pos target v : Int) :
    creepSpeed x service pos target v =
      if (pos < target ∧ x.posMax - pos < x.creepDistance) ∨
          (target < pos ∧ pos - x.posMin < x.creepDistance) ∨ service = true
        then min v x.vCreep else v := if_congr creeping_iff rfl rfl

/-- The quotient that is rounded down is the one between the two multiples of 256. -/
theorem capSpeed_of_quotient {q : Int} (hq : 256 * q ≤ v * derate) (hq' : v * derate < 256 * (q + 1)) :
    capSpeed x derate v = if (x.vMax : Int) < q then (x.vMax : Int) else q := by
  have quotient : v * derate / 256 = q := by omega
  rw [capSpeed, quotient, min_comm]
  split
  next h => exact min_eq_left h.le
  next h => exact min_eq_right (not_lt.1 h)

theorem capSpeed_nonneg (hv : 0 ≤ v) : 0 ≤ capSpeed x derate v :=
  le_min (Int.ediv_nonneg (mul_nonneg hv derate.cast_nonneg) (by decide)) x.vMax.cast_nonneg

/-! ### The approach (R98) -/

theorem arrived_iff : arrived x pos target = true ↔ (target - pos).natAbs ≤ x.deadband :=
  decide_eq_true_iff

theorem wantedDemand_eq (x : AxisCfg) (pos target cap : Int) : wantedDemand x pos target cap =
    if target < pos then -min cap ((target - pos).natAbs * x.kp / 16 : Nat)
    else min cap ((target - pos).natAbs * x.kp / 16 : Nat) := if_congr sub_neg rfl rfl

theorem wantedDemand_natAbs (hc : 0 ≤ cap) : ((wantedDemand x pos target cap).natAbs : Int) =
    min cap ((target - pos).natAbs * x.kp / 16 : Nat) := by
  have lesser_nonneg : 0 ≤ min cap ((target - pos).natAbs * x.kp / 16 : Nat) :=
    le_min hc (Nat.cast_nonneg _)
  rw [wantedDemand_eq]
  split
  · rw [Int.natAbs_neg, Int.natAbs_of_nonneg lesser_nonneg]
  · exact Int.natAbs_of_nonneg lesser_nonneg

theorem wantedDemand_natAbs_le (hc : 0 ≤ cap) : ((wantedDemand x pos target cap).natAbs : Int) ≤ cap :=
  (wantedDemand_natAbs hc).trans_le (min_le_left ..)

theorem wantedDemand_forward (hc : 0 ≤ cap) (h : pos ≤ target) : 0 ≤ wantedDemand x pos target cap := by
  rw [wantedDemand_eq, if_neg (not_lt.2 h)]
  exact le_min hc (Nat.cast_nonneg _)

/-- At the target itself the approach speed is 0, so the demand is not positive there either. -/
theorem wantedDemand_backward (hc : 0 ≤ cap) (h : target ≤ pos) : wantedDemand x pos target cap ≤ 0 := by
  rw [wantedDemand_eq]
  rcases h.lt_or_eq with h | rfl
  · rw [if_pos h]
    exact neg_nonpos.2 (le_min hc (Nat.cast_nonneg _))
  · simp

end

/-! ### The slew (R99) -/

section
variable {acc : Nat} {sRef want : Int}

theorem slewDemand_low (h : want < sRef - acc) : slewDemand acc sRef want = sRef - acc := by
  unfold slewDemand
  omega

theorem slewDemand_high (h : sRef + acc < want) : slewDemand acc sRef want = sRef + acc := by
  unfold slewDemand
  omega

theorem slewDemand_within (hl : sRef - acc ≤ want) (hh : want ≤ sRef + acc) :
    slewDemand acc sRef want = want := by
  rw [slewDemand, min_eq_right hh, max_eq_right hl]

/-- One step towards a demand stays between the last demand and that one. -/
theorem slewDemand_natAbs_le {vMax : Nat} (hr : sRef.natAbs ≤ vMax) (hw : want.natAbs ≤ vMax) :
    (slewDemand acc sRef want).natAbs ≤ vMax := by
  rcases lt_or_ge want (sRef - acc) with hl | hl
  · rw [slewDemand_low hl]
    omega
  rcases lt_or_ge (sRef + acc) want with hh | hh
  · rw [slewDemand_high hh]
    omega
  · rwa [slewDemand_within hl hh]

end

/-- Settles O38: each stage by its equation, the profile by the lowest segment that reaches the position. -/
theorem demandsKeepTheirBounds : Obligations.DemandsKeepTheirBounds := by
  refine ⟨fun l pos first last hf hl rise => ?_, fun x service derate pos target v cap sRef => ?_⟩
  · intro A
    have clamped : clampSpan l pos = A := clampSpan_eq hf hl
    refine ⟨fun i p q hi hj hp hq below => ?_, fun p hp hpos => ?_⟩
    · rw [← clamped] at hp hq below ⊢
      rw [profileSpeed_segment hi hj hq below]
      exact ⟨rfl, segmentSpeed_between hp hq⟩
    · rw [hpos, profileSpeed_breakpoint hf hl rise hp]
  · refine ⟨creepSpeed_eq .., rfl, fun _ => capSpeed_of_quotient, capSpeed_nonneg, arrived_iff,
      wantedDemand_eq .., fun hc hv => ?_,
      fun _ => ⟨rfl, slewDemand_low, slewDemand_high, slewDemand_within⟩⟩
    have want_le := (wantedDemand_natAbs_le (x := x) (pos := pos) (target := target) hc).trans hv
    exact ⟨wantedDemand_natAbs hc, (lt_or_ge target pos).symm.imp_left (wantedDemand_forward hc),
      (lt_or_ge pos target).symm.imp_left (wantedDemand_backward hc),
      fun hr => slewDemand_natAbs_le hr (Int.ofNat_le.1 want_le)⟩

end Sys2Proof.Machine

/-! PROOFS. Every command completes (R109, R169): each is an event that closes behind its work, the work leaves
the waiting commands alone, and the close leaves zones and lamps as the state makes them. -/

namespace Sys2Proof.Machine

/-! ### The close settles zones and lamps (R109, R169) -/

/-- The image is made of the lamp sources, the lit phases of the generators and the lamp test. -/
theorem chainImage_setChain {c : Tables} {r : Run} {x : Chain} (hs : x.slow = r.chain.slow)
    (hf : x.fast = r.chain.fast) (ht : x.lampTest = r.chain.lampTest) :
    chainImage c (r.setChain x) = chainImage c r := by
  have hlit : ∀ l, lampLit (r.setChain x) l = lampLit r l := fun l => by
    unfold lampLit
    rw [Run.setChain_chain, hs, hf]
    rfl
  unfold chainImage
  simp only [hlit, Run.setChain_chain, ht]

theorem chainImage_setEntered (c : Tables) (r : Run) (l : List (Fin 16)) :
    chainImage c (r.setEntered l) = chainImage c r := rfl

theorem judgeImage_last (c : Tables) (r : Run) : (Run.judgeImage c r).chain.last = chainImage c r := by
  unfold Run.judgeImage
  dsimp only
  split
  next h => exact h.symm
  next =>
    show (r.chain.hand _).last = _
    unfold Chain.hand
    split <;> rfl

theorem settled_settle (s : State) : Settled s.settle := by
  obtain ⟨q, hzones⟩ := noteZones_eq s.cfg s.run ((List.finRange 8).filter (s.run.zoneChanges s.cfg))
    (s.run.restateZones s.cfg (List.finRange 8))
  rw [← judgeZones_eq] at hzones
  obtain ⟨x, himage, hs, hf, ht, -⟩ := judgeImage_eq s.cfg (Run.judgeZones s.cfg s.run)
  have hrun : s.settle.run = ((Run.judgeZones s.cfg s.run).setChain x).setEntered [] :=
    congrArg (Run.setEntered · []) himage
  refine ⟨fun z => ?_, ?_, congrArg Run.entered hrun⟩
  · have hz := restateZones_get s.cfg s.run (List.finRange 8) z
    rw [if_pos (List.mem_finRange z)] at hz
    have hnow : zoneStateNow s.cfg s.settle.run z = zoneStateNow s.cfg s.run z := by
      rw [hrun, hzones]
      exact zoneStateNow_congr rfl (congrArg ZoneRt.active hz :) (congrArg ZoneRt.warningTimer hz :)
    refine Eq.trans ?_ hnow.symm
    rw [hrun, hzones]
    exact congrArg ZoneRt.state hz
  · have hlast := judgeImage_last s.cfg (Run.judgeZones s.cfg s.run)
    rw [himage] at hlast
    rw [hrun, chainImage_setEntered, chainImage_setChain hs hf ht]
    exact hlast

/-! ### The commands that wait stay as they are -/

section
variable (s : State) (req : Req) (body : List Byte)

@[simp] theorem answer_pending (v : Verdict) (data : List Byte) :
    (s.answer req v data).pending = s.pending := State.setRun_pending s _

@[simp] theorem resetBy_pending (cause : ResetCause) (raw : BitVec 14) :
    (s.resetBy cause raw).pending = s.pending := State.setRun_pending ..

theorem endLoading_pending (k : LoadResult) : (s.endLoading k).pending = s.pending := by
  cases k <;> rfl

theorem pageLoaded_pending (bytes : List Byte) : (s.pageLoaded bytes).pending = s.pending := by
  unfold State.pageLoaded
  dsimp only
  split
  · rfl
  · split
    · rfl
    · exact endLoading_pending s _

theorem pageExpired_pending : s.pageExpired.pending = s.pending := by
  unfold State.pageExpired
  split <;> rfl

theorem formed_pending {α : Type} (p : Parse α) {k : α → State} (h : ∀ a, (k a).pending = s.pending) :
    (s.formed req p body k).pending = s.pending := by
  unfold State.formed
  split
  · rfl
  · exact h _

theorem doWriteAny_pending : (s.doWriteAny req body).pending = s.pending := by
  unfold State.doWriteAny
  split <;> rfl

theorem acceptRestart_pending : (s.acceptRestart req).pending = s.pending := by
  unfold State.acceptRestart
  dsimp only
  split <;> rfl

theorem handle_pending (m : Management) : (s.handle req body m).pending = s.pending := by
  cases m with
  | readEntry | clearTable => rfl
  | writeEntry => exact doWriteAny_pending s req body
  | readStatus =>
    refine formed_pending s req body _ fun clear => ?_
    cases clear <;> rfl
  | collectEvents | saveConfig | lampTest | setOutput =>
    refine formed_pending s req body _ fun _ => ?_
    simp
  | start | trunkHold | trunkRelease =>
    refine formed_pending s req body _ fun _ => ?_
    split <;> simp
  | restart =>
    refine formed_pending s req body _ fun _ => ?_
    split
    · rfl
    · exact acceptRestart_pending s req

theorem manageFrame_pending (payload : List Byte) : (s.manageFrame req payload).pending = s.pending := by
  unfold State.manageFrame
  split
  · rfl
  split
  · rfl
  split
  · rfl
  split
  · rfl
  unfold State.manage
  split
  · rfl
  split
  · rfl
  · exact handle_pending s req _ _

theorem deckFrame_pending (k : Tables → Run → Run) : (s.deckFrame req k).pending = s.pending := by
  unfold State.deckFrame
  split
  · rfl
  split
  · rfl
  split <;> rfl

theorem judgeFrame_pending (f : Frame) : (s.judgeFrame f).pending = s.pending := by
  unfold State.judgeFrame
  split
  · exact manageFrame_pending s _ _
  iterate 3
    split
    · exact deckFrame_pending s _ _
  unfold State.otherFrame
  split <;> rfl

theorem receive_pending (b : RxByte) : (s.receive b).pending = s.pending := by
  unfold State.receive
  dsimp only
  split
  · rfl
  · rfl
  · exact judgeFrame_pending _ _

theorem receiveAll_pending (bytes : List RxByte) : (s.receiveAll bytes).pending = s.pending := by
  induction bytes generalizing s with
  | nil => rfl
  | cons b bytes ih => exact (ih (s.receive b)).trans (receive_pending s b)

theorem byteGap_pending : s.byteGap.pending = s.pending := by
  unfold State.byteGap
  split <;> rfl

theorem arrive_pending (f : Frame) {k : State → State} (h : (k s).pending = s.pending) :
    (s.arrive f k).pending = s.pending := by
  unfold State.arrive
  split
  · rfl
  split
  · exact h
  · exact receiveAll_pending s _

theorem transmissionEnds_pending : s.transmissionEnds.pending = s.pending := by
  unfold State.transmissionEnds
  split
  · rfl
  · dsimp only
    split <;> rfl

end

/-! ### Every command is an event that closes -/

/-- The outcome of an event that is dealt with and closed, the waiting commands as they were. -/
def Closes (s : State) (o : Out) : Prop := ∃ u : State, o = .next u.settle ∧ u.pending = s.pending

section
variable {s : State}

theorem event_closes {f : State → State} (h : (f s).pending = s.pending) : Closes s (s.event f) :=
  ⟨f s, rfl, h⟩

theorem runEvent_closes (f : Tables → Run → Run) : Closes s (s.runEvent f) := event_closes rfl

theorem expiry_closes (running : Bool) (f : Tables → Run → Run) : Closes s (s.expiry running f) :=
  event_closes (by cases running <;> rfl)

theorem pageEvent_closes {f : State → State} (hp : s.run.store.page < 512)
    (h : (f s).pending = s.pending) : Closes s (s.pageEvent f) := by
  unfold State.pageEvent
  rw [if_pos (show s.run.store.page < Config.memoryPages from hp)]
  exact event_closes h

theorem pageWriteDone_closes (hp : s.run.store.page < 512) : Closes s (execPageWriteDone s) := by
  unfold execPageWriteDone
  split
  · exact pageEvent_closes hp rfl
  all_goals exact event_closes rfl

theorem pageReadDone_closes (hp : s.run.store.page < 512) (returned : Option (List Byte)) :
    Closes s (execPageReadDone returned s) := by
  unfold execPageReadDone
  dsimp only
  split
  · exact pageEvent_closes hp (pageLoaded_pending s _)
  · exact pageEvent_closes hp rfl
  all_goals exact event_closes rfl

theorem pageTimerExpiry_closes : Closes s (execPageTimerExpiry s) := by
  refine event_closes ?_
  split
  · exact pageExpired_pending s
  · rfl

/-- Console frames close behind their arrival; expiries, resets, the receiver's and the transmitter's events
and the memory's behind their own work. -/
theorem exec_closes (hp : s.run.store.page < 512) (i : Instr) : Closes s (exec i s) := by
  cases hi : i.frame with
  | some f =>
    obtain ⟨k, hk, hj⟩ := exec_arrivesAs hi
    rw [hk]
    exact event_closes (arrive_pending s f ((congrArg State.pending (hj s)).trans (judgeFrame_pending s f)))
  | none =>
    cases i with
    | powerOn | resetPin =>
      dsimp only [exec]
      exact event_closes (resetBy_pending s _ _)
    | consoleFrameDropped bytes =>
      dsimp only [exec]
      exact event_closes (receiveAll_pending s bytes)
    | consoleByteGapExpiry bytes =>
      dsimp only [exec]
      exact event_closes ((byteGap_pending _).trans (receiveAll_pending s bytes))
    | transmissionEnd =>
      dsimp only [exec]
      exact event_closes (transmissionEnds_pending s)
    | beaconExpiry | goodReply | corruptReply | replyWindowExpiry | replyGapExpiry | turnaroundGapExpiry
    | roundIntervalExpiry | replyWindowOpens | rawLevelChange =>
      dsimp only [exec]
      exact runEvent_closes _
    | reportIntervalExpiry | settleExpiry | keepaliveExpiry | lockTimerExpiry | controlPeriodExpiry
    | warningExpiry | retryExpiry | moveTimerExpiry | transitExpiry | playTimerExpiry | gapExpiry
    | staleTimerExpiry | holdTimerExpiry | timeoutTimerExpiry | lineFilterExpiry | flashPhaseExpiry
    | shiftEnd | lampTestExpiry =>
      dsimp only [exec]
      exact expiry_closes _ _
    | pageWriteDone => exact pageWriteDone_closes hp
    | pageReadDone returned => exact pageReadDone_closes hp returned
    | pageTimerExpiry => exact pageTimerExpiry_closes
    | _ => cases hi

end

/-- Settles O3: every command is an event that closes, and a close settles zones and lamps. -/
theorem everyCommandCompletesSettled : Obligations.EveryCommandCompletesSettled := by
  intro s i hp
  obtain ⟨u, hnext, hpending⟩ := exec_closes hp i
  exact ⟨u.settle, hnext, hpending, settled_settle u⟩

end Sys2Proof.Machine

/-! PROOFS. The door sequencer: the issue of a door frame (R115), the requests OPEN and CLOSE (R124, R125), the
three door timers (R120, R122). -/

namespace Sys2Proof.Machine

section
variable {c : Tables} {r : Run} {d : Fin 32}

/-! ### Closures on a door -/

theorem lowestActiveZone_isSome : (lowestActiveZone r c.doors[d]).isSome = true ↔ UnderClosure c r d := by
  rw [Option.isSome_iff_ne_none, ne_eq, lowestActiveZone_none, not_not]

theorem noClosure_iff : noClosure c r d = true ↔ ∀ y ∈ doorZones c.doors[d], r.zones[y].active = false := by
  rw [noClosure, Option.isNone_iff_eq_none, lowestActiveZone_none]
  simp

/-! ### The issue of a door frame (R115) -/

section
variable {f : DoorFrame}

theorem issueDoor_accepted (h : judgeOffer c r c.doors[d].node = .accepted) : Run.issueDoor c r d f =
    (Run.enqueueFrame c r c.doors[d].node f.code [] (.door d f)).modDoor d
      fun x => { x with pending := .none } := by
  unfold Run.issueDoor
  rw [offerFrame_of_accepted h]
  rfl

theorem issueDoor_full (h : judgeOffer c r c.doors[d].node = .queueFull) :
    Run.issueDoor c r d f = r.modDoor d fun x => { x with pending := f.pending } := by
  unfold Run.issueDoor
  rw [offerFrame_eq_refused h (by decide)]
  rfl

theorem issueDoor_gone (h : judgeOffer c r c.doors[d].node = .nodeLost ∨
    judgeOffer c r c.doors[d].node = .trunkDown) :
    Run.issueDoor c r d f = r.modDoor d fun x => { x with pending := .none } := by
  unfold Run.issueDoor
  obtain h | h := h <;> rw [offerFrame_eq_refused h (by decide)] <;> rfl
end

/-! ### OPEN and CLOSE (R124, R125) -/

theorem requestDoorOpen_offline (h : r.doors[d].state = .offline) :
    Run.requestDoorOpen c r d = (r, .state, 0) := if_pos h

theorem requestDoorOpen_held (h : r.doors[d].state ≠ .offline) {z : Fin 8}
    (hz : lowestActiveZone r c.doors[d] = some z) :
    Run.requestDoorOpen c r d = (r, .state, det (8 + z.val)) := by
  unfold Run.requestDoorOpen
  rw [if_neg h, hz]

theorem requestDoorOpen_stands (hz : lowestActiveZone r c.doors[d] = none)
    (h : r.doors[d].state = .opened ∨ r.doors[d].state = .opening ∨ r.doors[d].state = .transit) :
    Run.requestDoorOpen c r d = (r, .ok, 0) := by
  unfold Run.requestDoorOpen
  rw [hz]
  obtain h | h | h := h <;> rw [h] <;> rfl

theorem requestDoorOpen_opens (hz : lowestActiveZone r c.doors[d] = none)
    (h : r.doors[d].state = .closed ∨ r.doors[d].state = .closing ∨ r.doors[d].state = .obstructed ∨
      r.doors[d].state = .fault) :
    Run.requestDoorOpen c r d = (Run.openDoor c r d, .ok, 0) := by
  unfold Run.requestDoorOpen
  rw [hz]
  obtain h | h | h | h := h <;> rw [h] <;> rfl

theorem requestDoorClose_offline (h : r.doors[d].state = .offline) :
    Run.requestDoorClose c r d = (r, .state, 0) := if_pos h

theorem requestDoorClose_closes (h : r.doors[d].state ≠ .offline) :
    Run.requestDoorClose c r d = (Run.freshClose c r d, .ok, 0) := if_neg h

/-! ### The door timers (R120, R122) -/

theorem doorTimerRuns_stopped {x : DoorRt} {k : DoorTimer} (h : ∀ n, x.timer ≠ some (k, n)) :
    doorTimerRuns x k = false := by
  unfold doorTimerRuns
  split
  next t ht => exact beq_false_of_ne fun hk => h t.2 (ht.trans (congrArg some (Prod.ext hk rfl)))
  next => rfl

theorem doorTimerRuns_running {x : DoorRt} {k : DoorTimer} {n : Nat} (h : x.timer = some (k, n)) :
    doorTimerRuns x k = true := by
  unfold doorTimerRuns
  rw [h]
  exact beq_self_eq_true k

/-- A FAULT stops the timer itself. -/
theorem faultDoor_stopped (cause : Nat) :
    (r.modDoor d fun x => { x with timer := none }).faultDoor d cause = r.faultDoor d cause := by
  unfold Run.faultDoor
  rw [Run.modDoor_modDoor]

/-- A fresh close starts the timer anew. -/
theorem freshClose_stopped :
    Run.freshClose c (r.modDoor d fun x => { x with timer := none }) d = Run.freshClose c r d := by
  unfold Run.freshClose
  rw [Run.modDoor_modDoor]
  rfl

theorem retryExpired_again (h : r.doors[d].retriesUsed < c.doors[d].retryLimit) :
    Run.retryExpired c r d = Run.issueDoor c (r.modDoor d fun x =>
      { x with retriesUsed := x.retriesUsed + 1, state := .closing
               timer := some (.move, sec c.doors[d].closeTimeout) }) d .close := by
  simp only [Run.retryExpired, Run.modDoor_self, Run.modDoor_modDoor, if_pos h]

theorem retryExpired_spent (h : c.doors[d].retryLimit ≤ r.doors[d].retriesUsed) :
    Run.retryExpired c r d = r.faultDoor d 3 := by
  simp only [Run.retryExpired, Run.modDoor_self, if_neg (Nat.not_lt.mpr h), faultDoor_stopped]

/-- CLOSING, or OPENING outside a transit: what the MOVE timer times. -/
abbrev MoveTimed (x : DoorRt) : Prop := x.state = .closing ∨ x.state = .opening ∧ x.transitMark = false

/-- TRANSIT, or a transit's OPENING: what the TRANSIT timer times. -/
abbrev TransitTimed (x : DoorRt) : Prop := x.state = .transit ∨ x.state = .opening ∧ x.transitMark = true

theorem moveTimerExpired_faults (h : MoveTimed r.doors[d]) : r.moveTimerExpired d = r.faultDoor d 2 := by
  obtain h | ⟨h, hm⟩ := h
  · simp only [Run.moveTimerExpired, Run.modDoor_self, h, faultDoor_stopped]
  · simp only [Run.moveTimerExpired, Run.modDoor_self, h, hm, Bool.false_eq_true,
      if_false, faultDoor_stopped]

theorem moveTimerExpired_else (h : ¬MoveTimed r.doors[d]) :
    r.moveTimerExpired d = r.modDoor d fun x => { x with timer := none } := by
  obtain ⟨hc, ho⟩ := not_or.mp h
  cases hs : r.doors[d].state with
  | closing => exact absurd hs hc
  | opening =>
    have hm : r.doors[d].transitMark = true := eq_true_of_ne_false fun hm => ho ⟨hs, hm⟩
    simp only [Run.moveTimerExpired, Run.modDoor_self, hs, hm, if_true]
  | offline | opened | closed | obstructed | transit | fault =>
    simp only [Run.moveTimerExpired, Run.modDoor_self, hs]

theorem transitExpired_closes (h : TransitTimed r.doors[d]) :
    Run.transitExpired c r d = Run.freshClose c r d := by
  obtain h | ⟨h, hm⟩ := h
  · simp only [Run.transitExpired, Run.modDoor_self, h, freshClose_stopped]
  · simp only [Run.transitExpired, Run.modDoor_self, h, hm, if_true, freshClose_stopped]

theorem transitExpired_else (h : ¬TransitTimed r.doors[d]) :
    Run.transitExpired c r d = r.modDoor d fun x => { x with timer := none } := by
  obtain ⟨ht, ho⟩ := not_or.mp h
  cases hs : r.doors[d].state with
  | transit => exact absurd hs ht
  | opening =>
    have hm : ¬r.doors[d].transitMark = true := fun hm => ho ⟨hs, hm⟩
    simp only [Run.transitExpired, Run.modDoor_self, hs, hm, Bool.false_eq_true, if_false]
  | offline | opened | closing | closed | obstructed | fault =>
    simp only [Run.transitExpired, Run.modDoor_self, hs]

end

/-! ### The commands -/

section
variable {s : State} {dst : Word} {d : Fin 32} (h : Reaches s dst (.door d)) (src : Word) (tag : Byte)
include h

theorem exec_doorOpenRequest {u : Run} {v : Verdict} (ho : Run.requestDoorOpen s.cfg s.run d = (u, v)) :
    exec (.doorOpenRequest src dst tag []) s = answered s u { src, dst, tag } v [] := by
  refine (requested_reaches h src tag 0x01#8 (Nat.zero_le _)).trans ?_
  show answered s (Run.requestDoorOpen s.cfg s.run d).1 _ (Run.requestDoorOpen s.cfg s.run d).2 [] = _
  rw [ho]

theorem exec_doorCloseRequest {u : Run} {v : Verdict} (ho : Run.requestDoorClose s.cfg s.run d = (u, v)) :
    exec (.doorCloseRequest src dst tag []) s = answered s u { src, dst, tag } v [] := by
  refine (requested_reaches h src tag 0x02#8 (Nat.zero_le _)).trans ?_
  show answered s (Run.requestDoorClose s.cfg s.run d).1 _ (Run.requestDoorClose s.cfg s.run d).2 [] = _
  rw [ho]

end

section
variable {s : State} {d : Fin 32}

theorem exec_retryExpiry : exec (.retryExpiry d) s =
    s.expiry (doorTimerRuns s.run.doors[d] .retry) fun c r => Run.retryExpired c r d := rfl

theorem exec_moveTimerExpiry : exec (.moveTimerExpiry d) s =
    s.expiry (doorTimerRuns s.run.doors[d] .move) fun _ r => r.moveTimerExpired d := rfl

theorem exec_transitExpiry : exec (.transitExpiry d) s =
    s.expiry (doorTimerRuns s.run.doors[d] .transit) fun c r => Run.transitExpired c r d := rfl

theorem doorExpiry_stopped {k : DoorTimer} {f : Tables → Run → Run}
    (ht : ∀ n, s.run.doors[d].timer ≠ some (k, n)) :
    s.expiry (doorTimerRuns s.run.doors[d] k) f = closed s s.run :=
  expiry_false f (doorTimerRuns_stopped ht)

theorem doorExpiry_goes {k : DoorTimer} {n : Nat} {f : Tables → Run → Run} {u : Run}
    (ht : s.run.doors[d].timer = some (k, n)) (hf : f s.cfg s.run = u) :
    s.expiry (doorTimerRuns s.run.doors[d] k) f = closed s u :=
  hf ▸ expiry_true f (doorTimerRuns_running ht)

end

/-- Settles O43: the requests by the door's state and its closures, an issue by its offer, and each expiry by
its timer and the state it times. -/
theorem doorRequestsAreJudgedInOrder : Obligations.DoorRequestsAreJudgedInOrder := by
  refine ⟨⟨fun s src dst tag d h => ?_, fun c r d f => ⟨issueDoor_accepted, issueDoor_full, issueDoor_gone⟩⟩,
    fun s d => ?_⟩
  · intro c r x opens closes
    refine ⟨fun ho => ⟨exec_doorOpenRequest h src tag (requestDoorOpen_offline ho),
        exec_doorCloseRequest h src tag (requestDoorClose_offline ho)⟩,
      fun ho => exec_doorCloseRequest h src tag (requestDoorClose_closes ho), fun ho =>
      ⟨fun z hz ha hl => exec_doorOpenRequest h src tag
          (requestDoorOpen_held ho (lowestActiveZone_some hz ha hl)), fun hn => ?_⟩⟩
    have hfree := (lowestActiveZone_none c r d).mpr hn
    exact ⟨fun hs => exec_doorOpenRequest h src tag (requestDoorOpen_stands hfree hs),
      fun hs => exec_doorOpenRequest h src tag (requestDoorOpen_opens hfree hs)⟩
  · intro c x r fault
    rw [exec_retryExpiry, exec_moveTimerExpiry, exec_transitExpiry]
    exact ⟨doorExpiry_stopped, doorExpiry_stopped, doorExpiry_stopped,
      fun n ht => ⟨fun hl => doorExpiry_goes ht (retryExpired_again hl),
        fun hl => doorExpiry_goes ht (retryExpired_spent hl)⟩,
      fun n ht => ⟨fun hm => doorExpiry_goes ht (moveTimerExpired_faults hm),
        fun hm => doorExpiry_goes ht (moveTimerExpired_else hm)⟩,
      fun n ht => ⟨fun hm => doorExpiry_goes ht (transitExpired_closes hm),
        fun hm => doorExpiry_goes ht (transitExpired_else hm)⟩⟩

end Sys2Proof.Machine

/-! PROOFS. What the trunk transmitter, the call dispatcher and the halts leave of the door sequencer: the door
records, and the zones' warning timers. One lemma for each operation, in the order of the model. -/

namespace Sys2Proof.Machine

/-- The door records and the warning timers of the zones. -/
def Run.doorSide (r : Run) : Vector DoorRt 32 × (Fin 8 → Timer) :=
  (r.doors, fun z => r.zones[z].warningTimer)

theorem doorSide_doors {r r' : Run} (h : r'.doorSide = r.doorSide) : r'.doors = r.doors :=
  congrArg Prod.fst h

theorem doorSide_warning {r r' : Run} (h : r'.doorSide = r.doorSide) (z : Fin 8) :
    r'.zones[z].warningTimer = r.zones[z].warningTimer := congrFun (congrArg Prod.snd h) z

section
variable (c : Tables) (r : Run)

/-! ### The updates of the runtime -/

@[simp] theorem doorSide_ite (p : Prop) [Decidable p] (a b : Run) :
    (if p then a else b).doorSide = if p then a.doorSide else b.doorSide := apply_ite Run.doorSide p a b

@[simp] theorem doorSide_setPlan (x) : (r.setPlan x).doorSide = r.doorSide := rfl
@[simp] theorem doorSide_setCalls (x) : (r.setCalls x).doorSide = r.doorSide := rfl
@[simp] theorem doorSide_setCallCounter (x) : (r.setCallCounter x).doorSide = r.doorSide := rfl
@[simp] theorem doorSide_setSerial (x) : (r.setSerial x).doorSide = r.doorSide := rfl
@[simp] theorem doorSide_modTrunk (i f) : (r.modTrunk i f).doorSide = r.doorSide := rfl
@[simp] theorem doorSide_modNode (i f) : (r.modNode i f).doorSide = r.doorSide := rfl
@[simp] theorem doorSide_modArea (i f) : (r.modArea i f).doorSide = r.doorSide := rfl
@[simp] theorem doorSide_modAxis (i f) : (r.modAxis i f).doorSide = r.doorSide := rfl
@[simp] theorem doorSide_raise (k i d) : (r.raise k i d).doorSide = r.doorSide := rfl
@[simp] theorem doorSide_modCall (id f) : (r.modCall id f).doorSide = r.doorSide := rfl

/-- A zone record changed in another field than its warning timer. -/
@[simp] theorem doorSide_modZone (i : Fin 8) (f : ZoneRt → ZoneRt)
    (hf : ∀ x, (f x).warningTimer = x.warningTimer) : (r.modZone i f).doorSide = r.doorSide := by
  refine Prod.ext rfl (funext fun z => ?_)
  show (r.modZone i f).zones[z].warningTimer = r.zones[z].warningTimer
  by_cases e : z = i
  · subst e
    rw [Run.modZone_self, hf]
  · rw [Run.modZone_ne r i z f e]

/-! ### The trunk transmitter and its offers (R49 to R53) -/

@[simp] theorem doorSide_beginRound (t phase) : (Run.beginRound c r t phase).doorSide = r.doorSide := by
  rw [Run.beginRound, foldl_keeps _ Run.doorSide fun _ _ => doorSide_modNode ..]
  exact doorSide_modTrunk ..

@[simp] theorem doorSide_nextRound (t) : (Run.nextRound c r t).doorSide = r.doorSide := by
  simp [Run.nextRound]

@[simp] theorem doorSide_takePoll (t i) : (r.takePoll t i).doorSide = r.doorSide := rfl

@[simp] theorem doorSide_selectLower (t) : (Run.selectLower c r t).doorSide = r.doorSide := by
  unfold Run.selectLower
  split
  · rfl
  split
  · rfl
  split
  · rfl
  split <;> rfl

@[simp] theorem doorSide_selectFrame (t) : (Run.selectFrame c r t).doorSide = r.doorSide := by
  rw [← doorSide_nextRound c r t]
  unfold Run.selectFrame
  dsimp only
  split
  · rfl
  split
  · split <;> simp
  · simp

@[simp] theorem doorSide_kickTrunk (t) : (Run.kickTrunk c r t).doorSide = r.doorSide := by
  simp [Run.kickTrunk]

@[simp] theorem doorSide_offerFrame (n code p o) :
    (Run.offerFrame c r n code p o).1.doorSide = r.doorSide := by
  unfold Run.offerFrame
  split <;> simp [Run.enqueueFrame]

@[simp] theorem doorSide_holdNode (n) : (Run.holdNode c r n).doorSide = r.doorSide := by
  simp [Run.holdNode]

/-! ### The call dispatcher (chapter 7) -/

@[simp] theorem doorSide_stopPlays (area nodes) : (Run.stopPlays c r area nodes).doorSide = r.doorSide :=
  foldl_keeps _ Run.doorSide (fun u n => doorSide_offerFrame c u n _ _ _) _ _

theorem doorSide_offerPlay (area message) (p : Run × List Awaited) (n) :
    (Run.offerPlay c area message p n).1.doorSide = p.1.doorSide := by
  unfold Run.offerPlay
  split
  · dsimp only
    split <;> simp
  · rfl

theorem doorSide_offerPlays (area message) (l : List NodeId) (p : Run × List Awaited) :
    (l.foldl (Run.offerPlay c area message) p).1.doorSide = p.1.doorSide := by
  induction l generalizing p with
  | nil => rfl
  | cons n l ih => exact (ih _).trans (doorSide_offerPlay c area message p n)

@[simp] theorem doorSide_startPlay (area k former) :
    (Run.startPlay c r area k former).doorSide = r.doorSide := by
  simp [Run.startPlay, doorSide_offerPlays]

@[simp] theorem doorSide_selectArea (area) : (Run.selectArea c r area).doorSide = r.doorSide := by
  unfold Run.selectArea
  split
  · rfl
  split
  · rfl
  · simp
  split
  · rfl
  split
  · rfl
  · simp [Run.preempt]

@[simp] theorem doorSide_selectAreas (s) : (Run.selectAreas c r s).doorSide = r.doorSide :=
  foldl_keeps _ Run.doorSide (doorSide_selectArea c) _ _

@[simp] theorem doorSide_beginPass (id) : (Run.beginPass c r id).doorSide = r.doorSide := by
  unfold Run.beginPass
  split <;> simp

@[simp] theorem doorSide_tellEnded (origin id) : (r.tellEnded origin id).doorSide = r.doorSide := by
  cases origin with
  | zone z =>
    unfold Run.tellEnded
    exact doorSide_modZone _ _ _ fun x => by split <;> rfl
  | bridge | axis | monitor => rfl

@[simp] theorem doorSide_removeCall (id) : (Run.removeCall c r id).doorSide = r.doorSide := by
  unfold Run.removeCall
  split
  · rfl
  · simp [foldl_keeps _ Run.doorSide, Run.silenceArea]

@[simp] theorem doorSide_mergeCall (o k) : (Run.mergeCall c r o k).doorSide = r.doorSide := by
  unfold Run.mergeCall
  dsimp only
  split <;> simp

@[simp] theorem doorSide_enterCall (o) : (Run.enterCall c r o).1.doorSide = r.doorSide := by
  simp [Run.enterCall]

@[simp] theorem doorSide_offerCall (o) : (Run.offerCall c r o).1.doorSide = r.doorSide := by
  unfold Run.offerCall
  split
  · simp
  split
  · simp
  split
  · rfl
  split <;> simp

@[simp] theorem doorSide_placeInternal (o) : (Run.placeInternal c r o).1.doorSide = r.doorSide := by
  unfold Run.placeInternal
  dsimp only
  split <;> simp

@[simp] theorem doorSide_withdrawInternal (id) : (Run.withdrawInternal c r id).doorSide = r.doorSide := by
  unfold Run.withdrawInternal
  split <;> simp

/-! ### Halts (R80, R81) -/

@[simp] theorem doorSide_withdrawMotionCall (a) :
    (Run.withdrawMotionCall c r a).doorSide = r.doorSide := by simp [Run.withdrawMotionCall]

@[simp] theorem doorSide_endPlanOf (a cause) : (r.endPlanOf a cause).doorSide = r.doorSide := by
  simp [Run.endPlanOf, Run.endPlan]

@[simp] theorem doorSide_haltStage (a) : (Run.haltStage c r a).doorSide = r.doorSide := by
  simp [Run.haltStage, Run.offerStage]

@[simp] theorem doorSide_halt (a cause) : (Run.halt c r a cause).doorSide = r.doorSide := by
  unfold Run.halt
  split
  · rfl
  · rfl
  all_goals simp [Run.haltFresh]

@[simp] theorem doorSide_firePushed (z) : (Run.firePushed c r z).doorSide = r.doorSide := by
  simp [Run.firePushed, Run.haltWhere, foldl_keeps _ Run.doorSide]

/-! ### The zones' own calls (R111) -/

@[simp] theorem doorSide_placeZoneCall (z) : (Run.placeZoneCall c r z).doorSide = r.doorSide := by
  simp [Run.placeZoneCall]

@[simp] theorem doorSide_withdrawZoneCall (z) : (Run.withdrawZoneCall c r z).doorSide = r.doorSide := by
  simp [Run.withdrawZoneCall]

end

/-! ### Door frames -/

section
variable (c : Tables) (r : Run)

theorem issueDoor_retriesUsed (d : Fin 32) (f : DoorFrame) :
    (Run.issueDoor c r d f).doors[d].retriesUsed = r.doors[d].retriesUsed := by
  unfold Run.issueDoor
  dsimp only
  rw [Run.modDoor_self, doorSide_doors (doorSide_offerFrame ..)]

theorem issueDoor_warning (d : Fin 32) (f : DoorFrame) (z : Fin 8) :
    (Run.issueDoor c r d f).zones[z].warningTimer = r.zones[z].warningTimer :=
  doorSide_warning (doorSide_offerFrame ..) z

theorem fireDoors_warning (z y : Fin 8) :
    (Run.fireDoors c r z).zones[y].warningTimer = r.zones[y].warningTimer :=
  foldl_keeps _ (fun u => u.zones[y].warningTimer) (fun u d => by
    split
    · exact issueDoor_warning c _ d .close y
    · rfl) _ _

theorem fireEffects_warning (z y : Fin 8) :
    (Run.fireEffects c r z).zones[y].warningTimer = r.zones[y].warningTimer :=
  (doorSide_warning (doorSide_firePushed ..) y).trans (fireDoors_warning c r z y)

theorem placeZoneCall_warning (z y : Fin 8) :
    (Run.placeZoneCall c r z).zones[y].warningTimer = r.zones[y].warningTimer :=
  doorSide_warning (doorSide_placeZoneCall ..) y

theorem withdrawZoneCall_warning (z y : Fin 8) :
    (Run.withdrawZoneCall c r z).zones[y].warningTimer = r.zones[y].warningTimer :=
  doorSide_warning (doorSide_withdrawZoneCall ..) y

end

end Sys2Proof.Machine

/-! PROOFS. A good door reply (R108, R117): out of OFFLINE, the local fault, the position by the door's state
(R118, R120), the forced door (R121) and the transit request (R119). -/

namespace Sys2Proof.Machine

section
variable {c : Tables} {r : Run} {d : Fin 32} {st : DoorStatus}

/-! ### Out of OFFLINE (R108) -/

theorem doorReply_offline (h : r.doors[d].state = .offline) :
    Run.doorReply c r d st = Run.doorReturns c r d st := if_pos h

theorem doorReply_online (h : r.doors[d].state ≠ .offline) :
    Run.doorReply c r d st = Run.judgeDoorReply c r d st := if_neg h

theorem doorReturns_fault (h : st.localFault = true) : Run.doorReturns c r d st =
    (r.modDoor d fun x => { x with state := .fault, latest := some st }).raise .doorFault d.val 1 := by
  have hs : firstState st = .fault := if_pos h
  unfold Run.doorReturns
  rw [hs]
  rfl

theorem firstState_position (h : st.localFault = false) :
    firstState st = if st.position = .closed then .closed else .opened := if_neg (by rw [h]; decide)

theorem doorReturns_closed (h : st.localFault = false) (hp : st.position = .closed) :
    Run.doorReturns c r d st = r.modDoor d fun x => { x with state := .closed, latest := some st } := by
  have hs : firstState st = .closed := (firstState_position h).trans (if_pos hp)
  unfold Run.doorReturns
  rw [hs]

/-- A door that comes back open is closed under a closure. -/
theorem doorReturns_opened (h : st.localFault = false) (hp : st.position ≠ .closed) :
    Run.doorReturns c r d st =
      if (lowestActiveZone r c.doors[d]).isSome then
        Run.freshClose c (r.modDoor d fun x => { x with state := .opened, latest := some st }) d
      else r.modDoor d fun x => { x with state := .opened, latest := some st } := by
  have hs : firstState st = .opened := (firstState_position h).trans (if_neg hp)
  unfold Run.doorReturns
  rw [hs]
  rfl

/-! ### The order of a reply (R117) -/

theorem judgeDoorReply_fault (h : st.localFault = true) (hs : r.doors[d].state ≠ .fault) :
    Run.judgeDoorReply c r d st = Run.judgeTransit c ((r.modDoor d fun x =>
      { x with latest := some st, transitMark := false, pending := .none
               state := .fault, timer := none }).raise .doorFault d.val 1) d
        (requestBefore r.doors[d]) false st := by
  simp only [Run.judgeDoorReply, Run.modDoor_self, h, Bool.true_and, bne_iff_ne.mpr hs, if_true,
    Run.localFaultDoor, Run.faultDoor, Run.modDoor_modDoor]
  rfl

theorem judgeDoorReply_position (h : st.localFault = false ∨ r.doors[d].state = .fault) :
    Run.judgeDoorReply c r d st =
      (let seen := Run.judgePosition c (r.modDoor d fun x => { x with latest := some st }) d st
       Run.judgeTransit c (Run.judgeForced c seen d st) d (requestBefore r.doors[d])
        (decide (seen.doors[d].state = .closed)) st) := by
  have hn : (st.localFault && r.doors[d].state != .fault) = false := by
    obtain h | h := h <;> simp only [h, Bool.false_and, bne_self_eq_false, Bool.and_false]
  simp only [Run.judgeDoorReply, Run.modDoor_self, hn, Bool.false_eq_true, if_false]
  rfl

/-! ### The position (R118, R120) -/

theorem judgePosition_standing
    (h : r.doors[d].state = .opened ∨ r.doors[d].state = .obstructed ∨ r.doors[d].state = .transit) :
    Run.judgePosition c r d st = if st.position = .closed then r.modDoor d DoorRt.closedNow else r := by
  unfold Run.judgePosition
  obtain h | h | h := h <;> rw [h]

theorem judgePosition_opening (h : r.doors[d].state = .opening) : Run.judgePosition c r d st =
    if st.position = .opened ∨ st.position = .stopped then
      if r.doors[d].transitMark then r.modDoor d fun x => { x with state := .transit }
      else r.modDoor d fun x => { x with state := .opened, timer := none }
    else r := by
  unfold Run.judgePosition
  rw [h]
  refine if_congr ?_ rfl rfl
  rw [Bool.or_eq_true, beq_iff_eq, beq_iff_eq]

theorem judgePosition_closing (h : r.doors[d].state = .closing) : Run.judgePosition c r d st =
    if st.position = .closed then r.modDoor d DoorRt.closedNow
    else if st.obstruction then Run.obstructDoor c r d else r := by
  unfold Run.judgePosition
  rw [h]

theorem judgePosition_fault (h : r.doors[d].state = .fault) : Run.judgePosition c r d st =
    if st.position = .closed ∧ st.localFault = false then r.modDoor d DoorRt.closedNow else r := by
  unfold Run.judgePosition
  rw [h]
  refine if_congr ?_ rfl rfl
  rw [Bool.and_eq_true, decide_eq_true_eq, Bool.not_eq_true']

theorem judgePosition_closed (h : r.doors[d].state = .closed) : Run.judgePosition c r d st = r := by
  unfold Run.judgePosition
  rw [h]

theorem obstructDoor_eq : Run.obstructDoor c r d =
    ((Run.issueDoor c r d .stop).modDoor d fun x =>
      { x with state := .obstructed, timer := some (.retry, sec c.doors[d].retryDelay) }).raise
      .doorObstructed d.val (det r.doors[d].retriesUsed) := by
  rw [← issueDoor_retriesUsed c r d .stop]
  rfl

/-! ### The forced door (R121) -/

theorem judgeForced_else (h : r.doors[d].state ≠ .closed ∨ st.position = .closed) :
    Run.judgeForced c r d st = r := if_neg fun hf => h.elim (· hf.1) hf.2

theorem judgeForced_free (h : r.doors[d].state = .closed) (hp : st.position ≠ .closed)
    (hz : lowestActiveZone r c.doors[d] = none) :
    Run.judgeForced c r d st = r.modDoor d fun x => { x with state := .opened } := by
  unfold Run.judgeForced
  rw [if_pos ⟨h, hp⟩, hz]

theorem judgeForced_held (h : r.doors[d].state = .closed) (hp : st.position ≠ .closed) {z : Fin 8}
    (hz : lowestActiveZone r c.doors[d] = some z) :
    Run.judgeForced c r d st = Run.freshClose c (r.raise .doorForced d.val (det z.val)) d := by
  unfold Run.judgeForced
  rw [if_pos ⟨h, hp⟩, hz]

/-! ### The transit request (R119) -/

/-- A transit request that is new, at a door that was CLOSED under a closure. -/
abbrev TransitAsked (c : Tables) (r : Run) (d : Fin 32) (held closed : Bool) (st : DoorStatus) : Prop :=
  st.transitRequest = true ∧ held = false ∧ closed = true ∧ UnderClosure c r d

section
variable {held closed : Bool}

theorem transitAsked_iff : (st.transitRequest && !held && closed && (lowestActiveZone r c.doors[d]).isSome) =
    true ↔ TransitAsked c r d held closed st := by
  simp only [Bool.and_eq_true, lowestActiveZone_isSome, Bool.not_eq_true', and_assoc]

theorem judgeTransit_else (h : ¬TransitAsked c r d held closed st) :
    Run.judgeTransit c r d held closed st = r := if_neg (mt transitAsked_iff.mp h)

theorem judgeTransit_denied (h : TransitAsked c r d held closed st)
    (hf : ∃ z ∈ doorZones c.doors[d], r.zones[z].fire = true) :
    Run.judgeTransit c r d held closed st = Run.offerDoorDeny c r d :=
  (if_pos (transitAsked_iff.mpr h)).trans (if_pos (List.any_eq_true.mpr hf))

theorem judgeTransit_accepted (h : TransitAsked c r d held closed st)
    (hf : ∀ z ∈ doorZones c.doors[d], r.zones[z].fire = false) :
    Run.judgeTransit c r d held closed st = Run.acceptTransit c r d := by
  refine (if_pos (transitAsked_iff.mpr h)).trans (if_neg fun hany => ?_)
  obtain ⟨z, hz, hfire⟩ := List.any_eq_true.mp hany
  exact Bool.false_ne_true ((hf z hz).symm.trans hfire)
end

end

/-- Settles O44: the steps of a reply by their equations, in the order of R117. -/
theorem doorRepliesAreJudgedInOrder : Obligations.DoorRepliesAreJudgedInOrder := by
  intro c r d st x back seen before closedNow
  refine ⟨fun ho hf => (doorReply_offline ho).trans (doorReturns_fault hf), fun ho hf =>
      ⟨fun hp => (doorReply_offline ho).trans (doorReturns_closed hf hp), fun hp hu => ?_, fun hp hu => ?_⟩,
    fun ho => ⟨fun hf hs => (doorReply_online ho).trans (judgeDoorReply_fault hf hs),
      fun hf => (doorReply_online ho).trans (judgeDoorReply_position hf)⟩,
    judgePosition_standing, fun ho => ⟨fun hp => ⟨fun hm => ?_, fun hm => ?_⟩, fun hp => ?_⟩,
    fun hc => ⟨fun hp => (judgePosition_closing hc).trans (if_pos hp), fun hp hb => ?_, fun hp hb => ?_⟩,
    judgePosition_fault, judgePosition_closed, judgeForced_else, fun hc hp => ⟨fun hu => ?_, fun z hz ha hl => ?_⟩,
    fun held closed => ⟨judgeTransit_else, judgeTransit_denied, judgeTransit_accepted⟩⟩
  · exact (doorReply_offline ho).trans ((doorReturns_opened hf hp).trans
      (if_neg (mt lowestActiveZone_isSome.mp hu)))
  · exact (doorReply_offline ho).trans ((doorReturns_opened hf hp).trans
      (if_pos (lowestActiveZone_isSome.mpr hu)))
  · exact (judgePosition_opening ho).trans ((if_pos hp).trans (if_pos hm))
  · exact (judgePosition_opening ho).trans ((if_pos hp).trans (if_neg (Bool.eq_false_iff.mp hm)))
  · refine (judgePosition_opening ho).trans (if_neg ?_)
    obtain hp | hp := hp <;> rw [hp] <;> decide
  · exact (judgePosition_closing hc).trans ((if_neg hp).trans ((if_pos hb).trans obstructDoor_eq))
  · exact (judgePosition_closing hc).trans ((if_neg hp).trans (if_neg (Bool.eq_false_iff.mp hb)))
  · exact judgeForced_free hc hp ((lowestActiveZone_none c r d).mpr hu)
  · exact judgeForced_held hc hp (lowestActiveZone_some hz ha hl)

end Sys2Proof.Machine

/-! PROOFS. Closures: the closure request and the fire flag (R110, R113), the zone's call (R111), the warning's
expiry (R112), the state of a zone (R109), and the requests CLOSE, REOPEN and OVERRIDE (R114, R123). -/

namespace Sys2Proof.Machine

section
variable {c : Tables} {r : Run} {z : Fin 8}

/-! ### The warning (R110, R112) -/

theorem sec_eq_zero {n : Nat} : sec n = 0 ↔ n = 0 := by
  unfold sec
  omega

theorem warningIfNone_eq {t : Timer} (h : r.zones[z].warningTimer = t) :
    Run.warningIfNone c r z = if t = some 0 then Run.warningExpired c r z else r := by
  subst h
  rfl

/-- A warning just started runs out at once only when it has no time. -/
theorem warningIfNone_started {n : Nat} (h : r.zones[z].warningTimer = some (sec n)) :
    Run.warningIfNone c r z = if n = 0 then Run.warningExpired c r z else r :=
  (warningIfNone_eq h).trans (if_congr (by rw [Option.some.injEq, sec_eq_zero]) rfl rfl)

theorem shortenWarning_eq (t : Timer) (n : Nat) : shortenWarning t n = t.map fun left => min left (sec n) := by
  cases t with
  | none => rfl
  | some left =>
    unfold shortenWarning
    dsimp only [Option.map]
    split <;> exact congrArg some (by omega)

theorem closesAtWarning_iff (x : DoorRt) : closesAtWarning x = true ↔
    x.state = .opened ∨ x.state = .opening ∧ x.transitMark = false ∨
      x.state = .fault ∧ x.latest.map (·.localFault) ≠ some true := by
  unfold closesAtWarning localFault
  cases x.state with
  | fault => cases x.latest <;> simp
  | offline | opened | opening | closing | closed | obstructed | transit => simp

theorem warningExpired_eq (c : Tables) (r : Run) (z : Fin 8) : Run.warningExpired c r z =
    (memberDoors c z).foldl (fun r d =>
      let x := r.doors[d]
      if x.state = .opened ∨ x.state = .opening ∧ x.transitMark = false ∨
          x.state = .fault ∧ x.latest.map (·.localFault) ≠ some true
        then Run.freshClose c r d else r)
      (r.modZone z fun x => { x with warningTimer := none }) :=
  congrArg (List.foldl · _ _) (funext fun _ => funext fun _ => if_congr (closesAtWarning_iff _) rfl rfl)

/-! ### Closure requests (R110, R113) -/

/-- The causes of the zone with one more. -/
def causesWith (r : Run) (z : Fin 8) (cause : Nat) : BitVec 18 :=
  setUnion r.zones[z].causes (setOf cause)

theorem causesWith_has (cause j : Fin 18) :
    (causesWith r z cause.val).getLsbD j.val = (r.zones[z].causes.getLsbD j.val || j == cause) := by
  rw [causesWith, setUnion, BitVec.getLsbD_or, setOf, BitVec.getLsbD_twoPow,
    decide_eq_true cause.isLt, Bool.true_and, beq_eq_decide]
  exact congrArg _ (decide_eq_decide.mpr ⟨fun h => Fin.ext h.symm, fun h => h ▸ rfl⟩)

/-- The request's cause is added before anything else. -/
theorem requestClosure_eq (cause : Nat) (fire : Bool) : Run.requestClosure c r z cause fire =
    (let noted := r.modZone z fun x => { x with causes := causesWith r z cause }
     if r.zones[z].active = false then Run.startClosure c noted z fire
     else if fire = true ∧ r.zones[z].fire = false then Run.setFire c noted z else noted) := by
  have hnoted : (r.modZone z fun x => { x with causes := setUnion x.causes (setOf cause) }) =
      r.modZone z fun x => { x with causes := causesWith r z cause } := r.modZone_congr z rfl
  unfold Run.requestClosure
  rw [hnoted]
  simp only [Run.modZone_self, Bool.not_eq_true', Bool.and_eq_true]

theorem startClosure_warns (f : ZoneRt → ZoneRt) : Run.startClosure c (r.modZone z f) z false =
    (let on := Run.placeZoneCall c (r.modZone z fun x =>
      { f x with active := true, warningTimer := some (sec c.zones[z].warning) }) z
     if c.zones[z].warning = 0 then Run.warningExpired c on z else on) := by
  refine Eq.trans ?_ (warningIfNone_started ?_)
  · simp only [Run.startClosure, Run.modZone_modZone, Bool.or_false, Bool.false_eq_true, if_false]
  · rw [placeZoneCall_warning, Run.modZone_self]

theorem startClosure_fire (f : ZoneRt → ZoneRt) : Run.startClosure c (r.modZone z f) z true =
    (let on := Run.placeZoneCall c (Run.fireEffects c (r.modZone z fun x =>
      { f x with active := true, fire := true, warningTimer := some (sec c.zones[z].fireWarning) }) z) z
     if c.zones[z].fireWarning = 0 then Run.warningExpired c on z else on) := by
  refine Eq.trans ?_ (warningIfNone_started ?_)
  · simp only [Run.startClosure, Run.modZone_modZone, Bool.or_true, if_true]
  · rw [placeZoneCall_warning, fireEffects_warning, Run.modZone_self]

/-- The fire flag: the warning cut, the zone's call placed anew as a fire call, then the fire effects. -/
theorem setFire_eq (f : ZoneRt → ZoneRt) {left : Timer} {cut : Run}
    (hl : left = (f r.zones[z]).warningTimer.map fun n => min n (sec c.zones[z].fireWarning))
    (hc : cut = r.modZone z fun x => { f x with fire := true, warningTimer := left }) :
    Run.setFire c (r.modZone z f) z =
      (let on := Run.fireEffects c (Run.placeZoneCall c
        (if (f r.zones[z]).callFire then cut else Run.withdrawZoneCall c cut z) z) z
       if left = some 0 then Run.warningExpired c on z else on) := by
  have hcut : ((r.modZone z f).modZone z fun x =>
      { x with fire := true, warningTimer := shortenWarning x.warningTimer c.zones[z].fireWarning }) = cut := by
    rw [Run.modZone_modZone, hc]
    exact r.modZone_congr z (by rw [shortenWarning_eq, hl])
  have hzone : cut.zones[z] = { f r.zones[z] with fire := true, warningTimer := left } := by
    rw [hc, Run.modZone_self]
  refine Eq.trans ?_ (warningIfNone_eq ?_)
  · simp only [Run.setFire, hcut, hzone]
  · rw [fireEffects_warning, placeZoneCall_warning]
    split
    · rw [hzone]
    · rw [withdrawZoneCall_warning, hzone]

theorem withdrawZoneCall_none (h : r.zones[z].callId = none) : Run.withdrawZoneCall c r z = r := by
  unfold Run.withdrawZoneCall
  rw [h]
  refine r.modZone_eq_self z ?_
  rw [← h]

theorem withdrawZoneCall_some {id : Nat} (h : r.zones[z].callId = some id) :
    Run.withdrawZoneCall c r z = (Run.removeCall c r id).modZone z fun y => { y with callId := none } := by
  unfold Run.withdrawZoneCall
  rw [h]
  rfl

theorem firePushed_eq (c : Tables) (r : Run) (z : Fin 8) : Run.firePushed c r z =
    if r.zones[z].override then r else (List.finRange 6).foldl (fun r a =>
      if c.axes[a].zone = some z ∧ (InMotion r.axes[a] ∨ r.axes[a].state = .halted) then
        Run.halt c r a .fire else r) r := by
  refine if_congr Iff.rfl rfl (congrArg (List.foldl · r _) (funext fun u => funext fun a => if_congr ?_ rfl rfl))
  rw [Bool.and_eq_true, beq_iff_eq, wasActive_eq, decide_eq_true_eq]

/-! ### Member doors and the state of a zone (R109) -/

theorem memberDoors_pairwise (c : Tables) (z : Fin 8) : (memberDoors c z).Pairwise (· < ·) :=
  (List.pairwise_lt_finRange 32).filter _

theorem mem_memberDoors {d : Fin 32} : d ∈ memberDoors c z ↔
    c.doors[d].configured = true ∧ (c.doors[d].zone1 = z ∨ c.doors[d].zone2 = some z) := by
  simp [memberDoors, memberDoor]

/-- A member door stands in a state that a test takes. -/
theorem memberState_any (p : DoorState → Bool) :
    ((memberDoors c z).map fun d => r.doors[d].state).any p = true ↔
      ∃ d ∈ memberDoors c z, p r.doors[d].state = true := by
  rw [List.any_map, List.any_eq_true]
  rfl

/-- A member door stands open or moves; one is in FAULT or OFFLINE. -/
abbrev SomeMoving (c : Tables) (r : Run) (z : Fin 8) : Prop := ∃ d ∈ memberDoors c z,
  r.doors[d].state = .opened ∨ r.doors[d].state = .opening ∨ r.doors[d].state = .closing ∨
    r.doors[d].state = .obstructed

abbrev SomeMissing (c : Tables) (r : Run) (z : Fin 8) : Prop := ∃ d ∈ memberDoors c z,
  r.doors[d].state = .fault ∨ r.doors[d].state = .offline

theorem zoneStateNow_active (ha : r.zones[z].active = true) :
    ∃ moving missing : Bool, (moving = true ↔ SomeMoving c r z) ∧ (missing = true ↔ SomeMissing c r z) ∧
      zoneStateNow c r z = if r.zones[z].warningTimer.isSome then .warning
        else if moving then .closing else if missing then .incomplete else .sealed := by
  refine ⟨_, _, (memberState_any _).trans ?_, (memberState_any _).trans ?_, if_pos ha⟩
  · simp only [Bool.or_eq_true, beq_iff_eq, or_assoc]
  · simp only [Bool.or_eq_true, beq_iff_eq]

theorem zoneStateNow_warning (ha : r.zones[z].active = true) (hw : r.zones[z].warningTimer.isSome = true) :
    zoneStateNow c r z = .warning := by
  obtain ⟨_, _, -, -, he⟩ := zoneStateNow_active (c := c) ha
  exact he.trans (if_pos hw)

section
variable (ha : r.zones[z].active = true) (hw : r.zones[z].warningTimer = none)
include ha hw

theorem zoneStateNow_closing (hm : SomeMoving c r z) : zoneStateNow c r z = .closing := by
  obtain ⟨_, _, hmoving, -, he⟩ := zoneStateNow_active (c := c) ha
  rw [he, hw, if_neg (by decide), if_pos (hmoving.mpr hm)]

theorem zoneStateNow_incomplete (hm : ¬SomeMoving c r z) (hx : SomeMissing c r z) :
    zoneStateNow c r z = .incomplete := by
  obtain ⟨_, _, hmoving, hmissing, he⟩ := zoneStateNow_active (c := c) ha
  rw [he, hw, if_neg (by decide), if_neg (mt hmoving.mp hm), if_pos (hmissing.mpr hx)]

theorem zoneStateNow_sealed (hm : ¬SomeMoving c r z) (hx : ¬SomeMissing c r z) :
    zoneStateNow c r z = .sealed := by
  obtain ⟨_, _, hmoving, hmissing, he⟩ := zoneStateNow_active (c := c) ha
  rw [he, hw, if_neg (by decide), if_neg (mt hmoving.mp hm), if_neg (mt hmissing.mp hx)]
end

theorem shut_of_neither (q : DoorState)
    (hm : ¬(q = .opened ∨ q = .opening ∨ q = .closing ∨ q = .obstructed))
    (hx : ¬(q = .fault ∨ q = .offline)) : q = .closed ∨ q = .transit := by
  cases q with
  | closed => exact .inl rfl
  | transit => exact .inr rfl
  | opened | opening | closing | obstructed => exact absurd (by simp) hm
  | fault | offline => exact absurd (by simp) hx

/-- SEALED leaves each member door no other state than CLOSED or TRANSIT. -/
theorem sealed_doors (h : zoneStateNow c r z = .sealed) : r.zones[z].active = true ∧
    ∀ d ∈ memberDoors c z, r.doors[d].state = .closed ∨ r.doors[d].state = .transit := by
  by_cases ha : r.zones[z].active = true
  · by_cases hw : r.zones[z].warningTimer.isSome = true
    · rw [zoneStateNow_warning ha hw] at h
      cases h
    have hnone : r.zones[z].warningTimer = none := Option.not_isSome_iff_eq_none.mp hw
    by_cases hm : SomeMoving c r z
    · rw [zoneStateNow_closing ha hnone hm] at h
      cases h
    by_cases hx : SomeMissing c r z
    · rw [zoneStateNow_incomplete ha hnone hm hx] at h
      cases h
    refine ⟨ha, fun d hd => ?_⟩
    exact shut_of_neither _ (fun hs => hm ⟨d, hd, hs⟩) fun hs => hx ⟨d, hd, hs⟩
  · rw [zoneStateNow_inactive (Bool.eq_false_iff.mpr ha)] at h
    cases h
end

theorem exec_warningExpiry (s : State) (z : Fin 8) : exec (.warningExpiry z) s =
    s.expiry s.run.zones[z].warningTimer.isSome fun c r => Run.warningExpired c r z := rfl

/-- Settles O42: a closure request by the zone's closure and the option, the warning's expiry door by door,
and the state of a zone by what its member doors show. -/
theorem closureRequestsActOnTheirZone : Obligations.ClosureRequestsActOnTheirZone := by
  refine ⟨fun c r z cause fire => ?_, fun s z => ⟨fun h => ?_, fun h => ?_⟩, fun c r d => rfl,
    fun c z => ⟨memberDoors_pairwise c z, fun d => mem_memberDoors⟩,
    fun c r z => ⟨zoneStateNow_inactive, zoneStateNow_warning, fun ha hw => ⟨zoneStateNow_closing ha hw,
      zoneStateNow_incomplete ha hw, zoneStateNow_sealed ha hw⟩, sealed_doors⟩⟩
  · intro k x doors go call
    have hgo := requestClosure_eq (c := c) (r := r) (z := z) cause.val fire
    have hon : x.active = true → ¬x.active = false := fun ha hn => Bool.false_ne_true (hn.symm.trans ha)
    refine ⟨causesWith r z cause.val, causesWith_has cause, fun ha hf => ?_, fun ha hf => ?_, fun ha hf => ?_,
      fun ha hf hn => ?_, rfl, withdrawZoneCall_none, fun id => withdrawZoneCall_some, firePushed_eq c r z⟩
    · subst hf
      exact hgo.trans ((if_pos ha).trans (startClosure_warns _))
    · subst hf
      exact hgo.trans ((if_pos ha).trans (startClosure_fire _))
    · refine hgo.trans ((if_neg (hon ha)).trans (if_neg fun hb => ?_))
      obtain ⟨hfire, hflag⟩ := hb
      exact hf.elim (fun h => Bool.false_ne_true (h.symm.trans hfire)) fun h =>
        Bool.false_ne_true (hflag.symm.trans h)
    · subst hf
      exact hgo.trans ((if_neg (hon ha)).trans ((if_pos ⟨rfl, hn⟩).trans (setFire_eq _ rfl rfl)))
  · rw [exec_warningExpiry]
    exact expiry_stopped _ h
  · rw [exec_warningExpiry, expiry_running _ h, warningExpired_eq]

/-! ### CLOSE, REOPEN and OVERRIDE (R114, R123) -/

section
variable {c : Tables} {r : Run} {d : Fin 32}

theorem reopenDoor_marked (h : r.doors[d].state = .opening) (hm : r.doors[d].transitMark = true) :
    Run.reopenDoor c r d = r.modDoor d fun x =>
      { x with transitMark := false, timer := some (.move, sec c.doors[d].closeTimeout) } := by
  unfold Run.reopenDoor
  simp only [h, hm, if_true]

theorem reopenDoor_transit (h : r.doors[d].state = .transit) : Run.reopenDoor c r d = r.modDoor d fun x =>
    { x with state := .opened, timer := none, transitMark := false } := by
  unfold Run.reopenDoor
  simp only [h]

/-- A door that is shut, or in FAULT with no local fault, opens with its zone where its entry says so. -/
theorem reopenDoor_shut (h : r.doors[d].state = .closed ∨ r.doors[d].state = .closing ∨
      r.doors[d].state = .obstructed ∨
      r.doors[d].state = .fault ∧ ∀ y, r.doors[d].latest = some y → y.localFault = false) :
    Run.reopenDoor c r d = if c.doors[d].reopenWithZone then Run.openDoor c r d else r := by
  unfold Run.reopenDoor
  obtain h | h | h | ⟨h, hl⟩ := h
  · simp only [h]
  · simp only [h]
  · simp only [h]
  · have hfault : localFault r.doors[d] = false := by
      unfold localFault
      split
      next y hy => exact hl y hy
      next => rfl
    simp only [h, hfault, Bool.not_false, Bool.and_true]

theorem reopenDoor_else (h : r.doors[d].state = .offline ∨ r.doors[d].state = .opened ∨
      r.doors[d].state = .opening ∧ r.doors[d].transitMark = false ∨
      r.doors[d].state = .fault ∧ ∃ y, r.doors[d].latest = some y ∧ y.localFault = true) :
    Run.reopenDoor c r d = r := by
  unfold Run.reopenDoor
  obtain h | h | ⟨h, hm⟩ | ⟨h, y, hy, hl⟩ := h
  · simp only [h]
  · simp only [h]
  · simp only [h, hm, Bool.false_eq_true, if_false]
  · have hfault : localFault r.doors[d] = true := by
      rw [localFault, hy]
      exact hl
    simp only [h, hfault, Bool.not_true, Bool.and_false, Bool.false_eq_true, if_false]
end

section
variable {s : State} {dst : Word} {z : Fin 8} (h : Reaches s dst (.zone z)) (src : Word) (tag : Byte)
include h

theorem exec_zoneClose (fire : Bool) : exec (.zoneClose src dst tag (bBool fire)) s =
    answered s (Run.requestClosure s.cfg s.run z 0 fire) { src, dst, tag } (.ok, 0) [] := by
  refine (requested_reaches h src tag 0x01#8 (show (bBool fire).length ≤ 239 by cases fire <;> decide)).trans ?_
  have hf : functionRequest s.cfg s.run (.zone z) (0x01#8).toNat (bBool fire) =
      plain (Run.requestZoneClose s.cfg s.run z fire) :=
    withForm_reads (reads_bool1 fire).fld s.run _
  rw [hf]
  rfl

theorem exec_reopen {u : Run} {v : Verdict} (ho : Run.requestReopen s.cfg s.run z = (u, v)) :
    exec (.reopen src dst tag []) s = answered s u { src, dst, tag } v [] := by
  refine (requested_reaches h src tag 0x02#8 (Nat.zero_le _)).trans ?_
  show answered s (Run.requestReopen s.cfg s.run z).1 _ (Run.requestReopen s.cfg s.run z).2 [] = _
  rw [ho]

theorem exec_override : exec (.override src dst tag []) s =
    answered s (s.run.modZone z fun x => { x with override := true }) { src, dst, tag } (.ok, 0) [] :=
  requested_reaches h src tag 0x03#8 (Nat.zero_le _)

end

section
variable {c : Tables} {r : Run} {z : Fin 8}

theorem requestReopen_fireLine (h : r.lines[fireLine z].accepted = true) :
    Run.requestReopen c r z = (r, .state, 1) := if_pos h

theorem requestReopen_lifts (h : r.lines[fireLine z].accepted = false) : Run.requestReopen c r z =
    ((memberDoors c z).foldl (fun r d =>
      if ∀ y ∈ doorZones c.doors[d], r.zones[y].active = false then Run.reopenDoor c r d else r)
      (Run.withdrawZoneCall c (r.modZone z fun x =>
        { x with causes := 0, active := false, warningTimer := none, fire := false, override := false }) z),
      .ok, 0) := by
  unfold Run.requestReopen
  simp only [h, Bool.false_eq_true, if_false, noClosure_iff]

end

/-- Settles O41: each request by its reply, and a member door by its state. -/
theorem zoneRequestsActByState : Obligations.ZoneRequestsActByState := by
  intro s src dst tag z h c r req freed door
  refine ⟨exec_zoneClose h src tag, fun hl => exec_reopen h src tag (requestReopen_fireLine hl),
    fun hl => exec_reopen h src tag (requestReopen_lifts hl), exec_override h src tag,
    fun r d => ⟨reopenDoor_marked, reopenDoor_transit, reopenDoor_shut, reopenDoor_else⟩⟩

end Sys2Proof.Machine
